-- ==== Sys2Proof/Word.lean ====
section
/-! DEFINITION. The word types of Scagal and their plainest arithmetic (spec/02 R22, R28; spec/04 R58). -/

namespace Sys2Proof

/-- One byte of memory (R28). -/
abbrev Byte := BitVec 8
/-- A v or s register, an instruction word (R22, R37). -/
abbrev Word := BitVec 32
/-- A wide register, an address, a literal (R22, R28, R41). -/
abbrev DWord := BitVec 64

end Sys2Proof
end

