-- ==== Sys2Proof/Syntax.lean ====
section
/-! DEFINITION. The steps of the part: one constructor of `Instr` per row of spec/opcode_table.json.
Rows with an encoding carry their decoded fields; the other rows are the machine's events (spec/95), whose arguments name
what the event is about or whose data the outside world brings (`ExtIn`). -/

namespace Sys2Proof

/-- An 8-bit operand code, R39. The constants it stands for are `Hdr.lit` and the form's word 2. -/
inductive Operand where
  /-- 0x00–0x7F -/
  | v (n : BitVec 7)
  /-- 0x80–0xBF -/
  | s (n : BitVec 6)
  /-- 0xC0–0xDF: inline integer, value k − 16 -/
  | int (k : BitVec 5)
  /-- 0xE0–0xEF: inline float constant of R40 -/
  | flt (k : BitVec 4)
  /-- 0xF0–0xFD, reserved: k from 0 to 13 -/
  | rsv (k : BitVec 4)
  /-- 0xFE: the 32-bit immediate -/
  | imm
  /-- 0xFF: the 64-bit literal -/
  | lit
  deriving DecidableEq, Repr

/-- TYPE, R45. -/
inductive Ty where
  | b32 | i8 | i16 | i32 | i64 | n8 | n16 | n32 | n64 | f16 | bf16 | f32 | f64 | e4m3 | e5m2 | t2 | b64
  deriving DecidableEq, Repr

/-- RND, R46. -/
inductive Rnd where
  | rne | rtz | rup | rdn | rna
  deriving DecidableEq, Repr

/-- PRED, R43: none, pN or !pN with N from 1 to 7. -/
inductive Pred where
  | always
  | pos (k : BitVec 3)
  | neg (k : BitVec 3)
  deriving DecidableEq, Repr

/-- The fields common to every long form (R37, R43): the four operand codes, the guard, the type, the rounding, SAT,
and the literal of LEN 11. -/
structure Hdr where
  d : Operand
  a : Operand
  b : Operand
  c : Operand
  pred : Pred
  ty : Ty
  rnd : Rnd
  sat : Bool
  lit : Option DWord
  deriving DecidableEq, Repr

/-- A short-map form (R48): three operand codes and the literal of LEN 10. -/
structure Short where
  d : Operand
  a : Operand
  b : Operand
  lit : Option DWord
  deriving DecidableEq, Repr

/-- CND of SETP, R83. -/
inductive Cnd where
  | eq | ne | lt | le | gt | ge
  deriving DecidableEq, Repr

/-- BOP, R82: how a comparison is combined with the source predicate. -/
inductive Bop where
  | set | and | or | xor
  deriving DecidableEq, Repr

/-- Word 2 of SETP, R82. -/
structure SetpX where
  pd : BitVec 3
  cnd : Cnd
  ps : BitVec 3
  psn : Bool
  bop : Bop
  deriving DecidableEq, Repr

/-- Word 2 of PLOP, R82. -/
structure PlopX where
  pd : BitVec 3
  ps : BitVec 3
  psn : Bool
  bop : Bop
  pt : BitVec 3
  ptn : Bool
  deriving DecidableEq, Repr

/-- SRI, R87: the special register of a MOVS. -/
inductive Sri where
  | tid | lane | wave | wg | width | role | gang | core | die | launch | ctx | inseq | brick | clk | icount | now
  | dline | slack | fpflags
  deriving DecidableEq, Repr

/-- ORD of an atomic, R88. -/
inductive Ord4 where
  | rlx | acq | rel | ar
  deriving DecidableEq, Repr

/-- SCP, R250. -/
inductive Scp where
  | module | cluster | die | system
  deriving DecidableEq, Repr

/-- Word 2 of a MEM atomic, R88. -/
structure AtomX where
  off : BitVec 24
  ord : Ord4
  scp : Scp
  deriving DecidableEq, Repr

/-- Word 2 of FSETP, R101. -/
structure FsetpX where
  pd : BitVec 3
  sig : Bool
  mask : BitVec 4
  ps : BitVec 3
  psn : Bool
  bop : Bop
  deriving DecidableEq, Repr

/-- OP of REDUX and SCAN, R159. -/
inductive XOp where
  | add | min | max | and | or | xor | fadd | fmin | fmax
  deriving DecidableEq, Repr

/-- A scratch level, R207, R229. -/
inductive Lvl where
  | core | cluster | die
  deriving DecidableEq, Repr

/-- TK of OWNGIVE and OWNTAKE, R234. -/
inductive Tk where
  | workgroup | core | engine
  deriving DecidableEq, Repr

/-- FLD of BRKINFO, R205. -/
inductive Fld where
  | id | dres | data | mortar | mcnt | iter
  deriving DecidableEq, Repr

/-- SCOPE of a counter form, R354. -/
inductive CntScope where
  | core | die | hub
  deriving DecidableEq, Repr

/-- Word 2 of TMOV, R229. -/
structure TmovX where
  dlv : Lvl
  slv : Lvl
  dstr : BitVec 14
  sstr : BitVec 14
  deriving DecidableEq, Repr

/-- Word 2 of MLOOP, R311. -/
structure MloopX where
  hc : BitVec 6
  ask : Bool
  ha : BitVec 6
  bsk : Bool
  hb : BitVec 6
  mp : Bool
  msk : Bool
  hm : BitVec 6
  deriving DecidableEq, Repr

/-- Word 2 of MREAD, R318. -/
structure MreadX where
  h : BitVec 6
  dk : Bool
  hd : BitVec 6
  lv : Lvl
  deriving DecidableEq, Repr

/-- Word 2 of MCVT, R318. -/
structure McvtX where
  hs : BitVec 6
  hd : BitVec 6
  sc : Bool
  hr : BitVec 6
  deriving DecidableEq, Repr

/-- Word 2 of MGATE, R321. -/
structure MgateX where
  h : BitVec 6
  set : BitVec 8
  pd : BitVec 3
  wen : Bool
  deriving DecidableEq, Repr

/-- Word 2 of CNTRD and CNTWR, R354. -/
structure CntX where
  idx : BitVec 5
  scope : CntScope
  rsel : BitVec 2
  deriving DecidableEq, Repr

/-- A thread of the machine: its launch, workgroup index, wave and lane (R132, R279). -/
structure TRef where
  lid : Nat
  wg : Nat
  wave : Nat
  lane : Nat
  deriving DecidableEq, Repr

/-- The fault codes of R336. -/
inductive FaultCode where
  | illegalInstruction | illegalOperand | privilege | badLanding | misaligned | translation | protection | badAddress
  | scratchBounds | ownership | handleDead | handleShape | formatDivergence | formatInvalid | sparseMeta | tokenDead
  | tokenReuse | effectUnhandled | captureLimit | stackLimit | spawnDepth | rendezvousMisuse | watchdogRendezvous
  | fpException | queueConfig | digestMismatch | userTrap | breakpoint | uncorrectable | gangLost | zeroWord
  | publishConflict | nodeInvalid | brickInvalid
  deriving DecidableEq, Repr

/-- Where an uncorrectable soft error lies, R344. -/
inductive SoftLoc where
  | register (n : Nat)
  | tile (h : Nat)
  | scratch (ptr : DWord)
  | hbm (addr : DWord)
  deriving DecidableEq, Repr

/-- The engine that acknowledges a stop, R347. -/
inductive EngineKind where
  | picker (site : Nat) | matrix (site : Nat) | copy (idx : Nat) | encode (idx : Nat) | walker | queueUnit
  deriving DecidableEq, Repr

/-- A register named by a debugger write, R286. -/
inductive DbgReg where
  | v (n : Nat) | p (n : Nat) | s (n : Nat)
  deriving DecidableEq, Repr

/-- A Gwetin Link frame, R376: kind data, sequence, destination with its context tag, and the data. -/
structure Frame where
  port : Nat
  flow : Nat
  seq : Nat
  dest : DWord
  ctx : Nat
  keyTag : BitVec 16
  data : List Byte
  mac : BitVec 48 := 0
  deriving DecidableEq, Repr

/-- What the outside world brings with an event (host, driver, debugger, peers, service, soft errors): plain data that
an event of the agenda sets before it runs. Which fields an event reads, its meaning says. -/
structure ExtIn where
  /-- a host queue, and the tail written to it (R372) -/
  q : Nat := 0
  tail : Nat := 0
  /-- a register offset of the host's window, or a byte offset or address, and a value (R373) -/
  off : Nat := 0
  val : BitVec 256 := 0
  w0 : DWord := 0
  w1 : DWord := 0
  w2 : DWord := 0
  bytes : List Byte := []
  frame : Frame := { port := 0, flow := 0, seq := 0, dest := 0, ctx := 0, keyTag := 0, data := [] }
  flow : Nat := 0
  seq : Nat := 0
  link : Nat := 0
  die : Nat := 0
  site : Nat := 0
  lid : Nat := 0
  inst : Nat := 0
  ctx : Nat := 0
  ticket : Nat := 0
  /-- table entries that the paging service writes; `none` refuses (R353) -/
  ws : Option (List (Nat × DWord)) := none
  thread : TRef := { lid := 0, wg := 0, wave := 0, lane := 0 }
  reg : DbgReg := .v 0
  word : Word := 0
  loc : SoftLoc := .register 0
  ok : Bool := false
  image : Nat := 0
  pa : Nat := 0
  newPa : Nat := 0
  deriving DecidableEq, Repr

/-- The steps of the machine: one constructor per row of spec/opcode_table.json. -/
inductive Instr where
  -- INT long forms (R77): the immediate is word 2
  | add (h : Hdr) (imm : Word) | sub (h : Hdr) (imm : Word) | mul (h : Hdr) (imm : Word) | mulh (h : Hdr) (imm : Word)
  | mad (h : Hdr) (imm : Word) | min (h : Hdr) (imm : Word) | max (h : Hdr) (imm : Word) | abs (h : Hdr) (imm : Word)
  | neg (h : Hdr) (imm : Word) | and (h : Hdr) (imm : Word) | or (h : Hdr) (imm : Word) | xor (h : Hdr) (imm : Word)
  | andn (h : Hdr) (imm : Word) | not (h : Hdr) (imm : Word) | shl (h : Hdr) (imm : Word) | shr (h : Hdr) (imm : Word)
  | sar (h : Hdr) (imm : Word)
  -- short map (R48)
  | nopShort (f : Short) | movShort (f : Short) | addShort (f : Short) | subShort (f : Short) | mulShort (f : Short)
  | mulhI32Short (f : Short) | mulhN32Short (f : Short) | andShort (f : Short) | orShort (f : Short)
  | xorShort (f : Short) | andnShort (f : Short) | shlShort (f : Short) | shrShort (f : Short) | sarShort (f : Short)
  | minI32Short (f : Short) | maxI32Short (f : Short) | minN32Short (f : Short) | maxN32Short (f : Short)
  | faddShort (f : Short) | fsubShort (f : Short) | fmulShort (f : Short) | fminShort (f : Short)
  | fmaxShort (f : Short) | addw (f : Short) | subw (f : Short) | landShort (f : Short)
  -- BIT (R80)
  | clz (h : Hdr) (imm : Word) | ctz (h : Hdr) (imm : Word) | popc (h : Hdr) (imm : Word) | brev (h : Hdr) (imm : Word)
  | bfx (h : Hdr) (imm : Word) | bfi (h : Hdr) (imm : Word) | rot (h : Hdr) (imm : Word) | prmt (h : Hdr) (imm : Word)
  -- CMP (R82)
  | setp (h : Hdr) (x : SetpX) | sel (h : Hdr) (ps : BitVec 3) (psn : Bool) | plop (h : Hdr) (x : PlopX)
  -- MOV (R85)
  | mov (h : Hdr) (imm : Word) | li (h : Hdr) (imm : Word) | movs (h : Hdr) (sri : Sri) | movsWrite (h : Hdr)
  | movpRead (h : Hdr) | movpWrite (h : Hdr) (mask : BitVec 8) | lea (h : Hdr) (sh : BitVec 3) (x : Bool)
  -- FLT (R97, R101)
  | fadd (h : Hdr) (imm : Word) | fsub (h : Hdr) (imm : Word) | fmul (h : Hdr) (imm : Word) | ffma (h : Hdr) (imm : Word)
  | fmin (h : Hdr) (imm : Word) | fmax (h : Hdr) (imm : Word) | fabs (h : Hdr) (imm : Word) | fneg (h : Hdr) (imm : Word)
  | fsetp (h : Hdr) (x : FsetpX) | fclass (h : Hdr) (imm : Word) | frint (h : Hdr) (imm : Word)
  | fscale (h : Hdr) (imm : Word)
  -- CVT (R102)
  | cvt (h : Hdr) (sty : Ty) (epos : BitVec 4) | cvtins (h : Hdr) (sty : Ty) (epos : BitVec 4)
  -- SFU (R105)
  | rcp (h : Hdr) (imm : Word) | rsq (h : Hdr) (imm : Word) | sqrt (h : Hdr) (imm : Word) | exp2 (h : Hdr) (imm : Word)
  | log2 (h : Hdr) (imm : Word) | sin (h : Hdr) (imm : Word) | cos (h : Hdr) (imm : Word) | tanh (h : Hdr) (imm : Word)
  | fdiv (h : Hdr) (imm : Word) | div (h : Hdr) (imm : Word) | rem (h : Hdr) (imm : Word)
  /-- the i-th outstanding special-function result is written (R110) -/
  | sfuResult (i : Nat)
  -- CTL (R111)
  | nop (h : Hdr) | land (h : Hdr) | br (h : Hdr) (disp : Word) | jmpi (h : Hdr) | call (h : Hdr) (disp : Word)
  | calli (h : Hdr) | ret (h : Hdr) | exit (h : Hdr) | trap (h : Hdr) (code : BitVec 16)
  -- EFF (R120)
  | hpush (h : Hdr) (eid : BitVec 12) (many : Bool) | hend (h : Hdr) | perform (h : Hdr) (eid : BitVec 12)
  | resume (h : Hdr) | abort (h : Hdr)
  -- MEM (R88)
  | ld (h : Hdr) (off : BitVec 24) | st (h : Hdr) (off : BitVec 24)
  /-- the i-th outstanding load's data arrives (R21) -/
  | loadReturn (i : Nat)
  | atomAdd (h : Hdr) (x : AtomX) | atomMin (h : Hdr) (x : AtomX) | atomMax (h : Hdr) (x : AtomX)
  | atomAnd (h : Hdr) (x : AtomX) | atomOr (h : Hdr) (x : AtomX) | atomXor (h : Hdr) (x : AtomX)
  | atomExch (h : Hdr) (x : AtomX) | atomCas (h : Hdr) (x : AtomX) | atomFadd (h : Hdr) (x : AtomX)
  -- DIV (R156)
  | join (h : Hdr) (k : BitVec 4) | leave (h : Hdr) (k : BitVec 4) | waitj (h : Hdr) (k : BitVec 4)
  | brk (h : Hdr) (klo khi : BitVec 4) (dw : BitVec 24) | kmovSet (h : Hdr) (k : BitVec 4)
  | kmovBallot (h : Hdr) (k kp : BitVec 4) (pb : BitVec 3) (pbn : Bool) | kmovRead (h : Hdr) (k : BitVec 4)
  -- XLN (R159)
  | shflIdx (h : Hdr) (k : BitVec 4) (own : Bool) | shflUp (h : Hdr) (k : BitVec 4) (own : Bool)
  | shflDown (h : Hdr) (k : BitVec 4) (own : Bool) | shflXor (h : Hdr) (k : BitVec 4) (own : Bool)
  | voteAny (h : Hdr) (k : BitVec 4) (pv : BitVec 3) (pvn : Bool) (pd : BitVec 3)
  | voteAll (h : Hdr) (k : BitVec 4) (pv : BitVec 3) (pvn : Bool) (pd : BitVec 3)
  | voteBallot (h : Hdr) (k : BitVec 4) (pv : BitVec 3) (pvn : Bool)
  | redux (h : Hdr) (k : BitVec 4) (op : XOp) | reduxSet (h : Hdr) (set : BitVec 8) (op : XOp)
  | scan (h : Hdr) (k : BitVec 4) (op : XOp) (excl : Bool) | bcast (h : Hdr) (k : BitVec 4) (own : Bool)
  -- SYN (R164)
  | bar (h : Hdr) (ph : Bool) (scp : Scp) | sbar (h : Hdr) (set : BitVec 8) (ph : Bool) (scp : Scp)
  | rinit (h : Hdr) (pt : BitVec 5) | rarrive (h : Hdr) (pt : BitVec 5) (ph : Bool) (scp : Scp)
  | rwait (h : Hdr) (pt : BitVec 5) (ph : Bool) (scp : Scp) | rtest (h : Hdr) (pt : BitVec 5) (pd : BitVec 3)
  /-- the watchdog of point pt of unit (lid, inst) reaches Twd (R168) -/
  | watchdogRendezvous (lid inst pt : Nat)
  -- TSK (R182)
  | spawn (h : Hdr) (dw : BitVec 20) (node : Bool) | fetch (h : Hdr) (pd : BitVec 3) | launch (h : Hdr)
  | rgive (h : Hdr) (cnt : BitVec 8) | rclaim (h : Hdr) (cnt : BitVec 8)
  /-- a waiting RCLAIM of wave (lid, wg, wave) takes its lines (R187) -/
  | rclaimGrant (lid wg wave : Nat)
  -- STD (R202)
  | resid (h : Hdr) (self : Bool) | residm (h : Hdr) | brkdone (h : Hdr) | ldit (h : Hdr) | brkinfo (h : Hdr) (fld : Fld)
  -- SPD (R229)
  | ldl (h : Hdr) (off : BitVec 24) | stl (h : Hdr) (off : BitVec 24) | ldc (h : Hdr) (off : BitVec 24)
  | stc (h : Hdr) (off : BitVec 24) | ldd (h : Hdr) (off : BitVec 24) | std (h : Hdr) (off : BitVec 24)
  | tmov (h : Hdr) (x : TmovX)
  /-- the i-th running TMOV finishes (R232) -/
  | tmovDone (i : Nat)
  -- OWN (R234)
  | owngive (h : Hdr) (tk : Tk) | owntake (h : Hdr) (tk : Tk) (w : Bool)
  /-- the reclaim of thread t finds every admitted read returned (R216) -/
  | owntakeDrainEnd (t : TRef)
  | ownshare (h : Hdr)
  -- TIL (R237)
  | talloc (h : Hdr) (hn : BitVec 6)
  /-- the waiting TALLOC of thread t receives a freed slot (R224) -/
  | tallocGrant (t : TRef)
  | tload (h : Hdr) (hn : BitVec 6) (lv : Lvl) | tstore (h : Hdr) (hn : BitVec 6) (lv : Lvl)
  /-- the i-th running TLOAD or TSTORE finishes (R239) -/
  | tileTransferDone (i : Nat)
  | tgive (h : Hdr) (hn : BitVec 6) | ttake (h : Hdr) (hn : BitVec 6) | tfree (h : Hdr) (hn : BitVec 6)
  -- ORD (R246)
  | phase (h : Hdr) (scp : Scp)
  /-- the i-th release in progress completes (R253) -/
  | phaseComplete (i : Nat)
  | fence (h : Hdr)
  -- QUE (R240)
  | qcfg (h : Hdr) (q : BitVec 3) | qstat (h : Hdr) (q : BitVec 3) | push (h : Hdr) (q : BitVec 3) | pop (h : Hdr) (q : BitVec 3)
  /-- the waiting PUSH or POP of thread t moves its element (R243) -/
  | queueWaitResume (t : TRef)
  -- ENG (R296)
  | gnode (h : Hdr) | garm (h : Hdr) | garmSig (h : Hdr) | garmFree (h : Hdr) | gwait (h : Hdr)
  /-- the waiting GWAIT of thread t sees its node DONE (R297) -/
  | gwaitReturn (t : TRef)
  | gtest (h : Hdr) (pd : BitVec 3) | shadowNew (h : Hdr) | shadowAddr (h : Hdr) | shadowFree (h : Hdr) | publish (h : Hdr)
  -- MMA (R311)
  | mloop (h : Hdr) (x : MloopX)
  /-- the start of the loop collective of set `set` of unit (lid, inst) is taken (R312, R313) -/
  | mloopStart (lid inst set : Nat)
  /-- the matrix engine of a core applies one step of the next loop in rotation (R314) -/
  | matrixStep (die site : Nat)
  | mzero (h : Hdr) (hn : BitVec 6) | mread (h : Hdr) (x : MreadX) | mcvt (h : Hdr) (x : McvtX) | mgate (h : Hdr) (x : MgateX)
  /-- the gate collective of set `set` of unit (lid, inst) decides (R322) -/
  | mgateDecision (lid inst set : Nat)
  -- SYS (R337)
  | region (h : Hdr) | trapretFix (h : Hdr) | trapretSkip (h : Hdr) | trapretRetry (h : Hdr) | trapretKill (h : Hdr)
  | rdtrap (h : Hdr) | wrtrap (h : Hdr) | pgreq (h : Hdr)
  -- DBG (R354)
  | bkpt (h : Hdr) (code : BitVec 16) | cntrd (h : Hdr) (x : CntX) | cntwr (h : Hdr) (x : CntX)
  -- events of issue and scheduling: the arguments name what the event is about
  | detStep (lid : Nat)
  | sampleTag (die site : Nat)
  | launchDispatchable (lid : Nat)
  | placeUnit (die : Nat)
  | holdTimeExpiry (die level : Nat)
  | unitStart (lid inst : Nat)
  | preempt (die : Nat)
  | engineStopAck (die : Nat) (k : EngineKind)
  | preemptSave (lid inst : Nat)
  | unitRestore (lid inst : Nat)
  | contextSwitchOut (ctx : Nat)
  | contextSwitchIn (ctx : Nat)
  | launchEnd (lid : Nat)
  | turnOpen (lid : Nat)
  | deadlineMiss (lid : Nat)
  -- events of standing programs, graph and engines
  | contribution (i : Nat)
  | iseqAdvance (lid : Nat)
  | convergenceRecord (lid : Nat)
  | signal (i : Nat)
  | graphQueueElement (lid wg q : Nat)
  | nodeFinish (die ctx idx : Nat)
  | copy1d (die eng : Nat) | copy2d (die eng : Nat) | copy3d (die eng : Nat) | copyGather (die eng : Nat)
  | copyReduceAdd (die eng : Nat)
  | copyComplete (die eng i : Nat)
  | encodeConfigure (die eng : Nat) | encodeFrame (die eng : Nat) | encodeEndSession (die eng : Nat)
  | encodeComplete (die eng : Nat)
  -- traps, translation
  | trapEntry (t : TRef)
  | gangRestart (lid inst : Nat)
  | walkComplete (i : Nat)
  | invalidationComplete (i : Nat)
  /-- a fetched word that is no instruction: its fault and the detail words of R53 -/
  | encodingNotInstruction (code : FaultCode) (det0 det1 det2 : Word)
  -- events whose data, where they have any, stand in `State.ext` (what the outside world brings)
  | pickerCycle
  | softError
  /-- firmware completes a paging ticket: the table entries it writes (physical address, entry) to map the page, or a
  refusal (R353) -/
  | pageTicketComplete
  -- host registers, queues and packets
  | inval | drvfeat | registerWrite | submissionWrite | latchEntry | tailRescan | queueStop | launchPacket | standingStart
  | standingStop | inputPost | pin | unpin | copyPacket | nodeSignal | contextCreate | contextDestroy | iterateRead
  | queryAttestation | queryIdentity | peerSet
  -- firmware, memory ports, links, service, debugger
  | xmssTreeRollover | hostMemRead | hostMemWrite | hostSnoop | peerDataFrame | peerAck | peerNak | peerResendTimeout
  | flitCrcFail | linkFail | firmwareUpdate | firmwareRestart | coreRetire | dieEvacuate | hbmPageRetire
  | laneRecalibration | clockRecalibration | powerUp | halt | debugResume | debugWrite | drain | dieReturn
  | moduleUnpowered | unknownPacketType
  deriving DecidableEq, Repr

end Sys2Proof
end

