-- ==== Sys2Proof/WellFormed.lean ====
section
/-! DEFINITION. Which terms of the syntax stand for words that decode: reserved operand codes in range, guards that name
p1 to p7, admitted types (check 6 of R52) and admitted class fields (check 8 of R52). -/

namespace Sys2Proof

/-- 0xF0 to 0xFD are the reserved codes (R39). -/
def Operand.wf : Operand → Bool
  | .rsv k => k.toNat < 14
  | _ => true

/-- PRED 0b1000 is reserved (R43). -/
def Pred.wf : Pred → Bool
  | .always => true
  | .pos k => k != 0
  | .neg k => k != 0

def Hdr.wf (h : Hdr) : Bool := h.d.wf && h.a.wf && h.b.wf && h.c.wf && h.pred.wf

def Short.wf (f : Short) : Bool := f.d.wf && f.a.wf && f.b.wf

/-- The numeric types of R102: 0x01 to 0x0F. -/
def Ty.numeric : Ty → Bool
  | .b32 | .b64 => false
  | _ => true

/-- Bits of a type (R58, R54). -/
def Ty.bits : Ty → Nat
  | .b32 | .i32 | .n32 | .f32 => 32
  | .i8 | .n8 | .e4m3 | .e5m2 => 8
  | .i16 | .n16 | .f16 | .bf16 => 16
  | .i64 | .n64 | .f64 | .b64 => 64
  | .t2 => 2

/-- Elements of a type in a 32-bit word, for EPOS (R103). -/
def Ty.elems (t : Ty) : Nat := if t.bits < 32 then 32 / t.bits else 1

def tyInt : List Ty := [.i32, .n32, .i64, .n64]
def tyBit : List Ty := [.b32, .b64]
def tyMem : List Ty := [.i8, .n8, .i16, .n16, .b32, .b64]
def tyFlt : List Ty := [.f32, .f64]
def tyNum : List Ty := [.i8, .i16, .i32, .i64, .n8, .n16, .n32, .n64, .f16, .bf16, .f32, .f64, .e4m3, .e5m2, .t2]

/-- The types an operation of REDUX or SCAN admits (R159). -/
def XOp.types : XOp → List Ty
  | .add | .min | .max => tyInt
  | .and | .or | .xor => tyBit
  | .fadd | .fmin | .fmax => tyFlt

/-- Word 2 of SETP (R82): eq and ne only for the bit types, no source predicate without a combine. -/
def SetpX.wf (ty : Ty) (x : SetpX) : Bool :=
  (tyInt.contains ty || x.cnd == .eq || x.cnd == .ne) && (x.bop != .set || (x.ps == 0 && !x.psn))

def PlopX.wf (x : PlopX) : Bool := x.bop != .set || (x.pt == 0 && !x.ptn)

def FsetpX.wf (x : FsetpX) : Bool := x.bop != .set || (x.ps == 0 && !x.psn)

/-- SCP is 0 when ORD is 0 (R88). -/
def AtomX.wf (x : AtomX) : Bool := x.ord != .rlx || x.scp == .module

/-- SCP is 0 when PH is 0 (R164). -/
def phaseWf (ph : Bool) (scp : Scp) : Bool := ph || scp == .module

def MloopX.wf (x : MloopX) : Bool :=
  (!x.ask || x.ha == 0) && (!x.bsk || x.hb == 0) && (x.mp || !x.msk) && ((x.mp && !x.msk) || x.hm == 0)

def MreadX.wf (x : MreadX) : Bool := if x.dk then x.lv == .core else x.hd == 0

def McvtX.wf (x : McvtX) : Bool := x.sc || x.hr == 0

/-- IDX below 8 for a core counter, below 16 otherwise (R354). -/
def CntX.wf (x : CntX) : Bool := x.idx.toNat < (if x.scope == .core then 8 else 16)

/-- CNT of RGIVE and RCLAIM: even, 2 to 128 (R182). -/
def cntWf (c : BitVec 8) : Bool := c.toNat % 2 == 0 && 2 ≤ c.toNat && c.toNat ≤ 128

/-- EPOS in range for the type it selects from (R103). -/
def eposWf (t : Ty) (e : BitVec 4) : Bool := e.toNat < t.elems

/-- The types the row admits (check 6 of R52), the lists of R77, R80, R82, R85, R88, R97, R102, R105, R111, R120, R156,
R159, R164, R182, R202, R228, R229, R296, R311, R337 and R354. An event or a short form admits none. -/
def Instr.types : Instr → List Ty
  | .add .. | .sub .. | .mul .. | .mulh .. | .mad .. | .min .. | .max .. => tyInt
  | .abs .. | .neg .. => [.i32, .i64]
  | .and .. | .or .. | .xor .. | .andn .. | .not .. | .shl .. | .shr .. | .sar .. => tyBit
  | .clz .. | .ctz .. | .popc .. | .brev .. | .bfi .. | .rot .. => tyBit
  | .bfx .. => tyInt
  | .prmt .. => [.b32]
  | .setp .. => [.i32, .n32, .i64, .n64, .b32, .b64]
  | .sel .. => tyBit
  | .plop .. => [.b32]
  | .mov .. => tyBit
  | .li .. => [.b32, .i64, .n64]
  | .movs .. | .movsWrite .. | .movpRead .. | .movpWrite .. | .lea .. => [.b32]
  | .fadd .. | .fsub .. | .fmul .. | .ffma .. | .fmin .. | .fmax .. | .fabs .. | .fneg .. | .fsetp .. | .fclass ..
  | .frint .. | .fscale .. => tyFlt
  | .cvt .. => tyNum
  | .cvtins .. => [.i8, .n8, .i16, .n16, .f16, .bf16, .e4m3, .e5m2, .t2]
  | .rcp .. | .rsq .. | .exp2 .. | .log2 .. | .sin .. | .cos .. | .tanh .. => [.f32]
  | .sqrt .. | .fdiv .. => tyFlt
  | .div .. | .rem .. => tyInt
  | .ld .. | .st .. => tyMem
  | .atomAdd .. | .atomMin .. | .atomMax .. => tyInt
  | .atomAnd .. | .atomOr .. | .atomXor .. | .atomExch .. | .atomCas .. => tyBit
  | .atomFadd .. => [.f32]
  | .kmovSet .. | .kmovBallot .. | .kmovRead .. => tyBit
  | .shflIdx .. | .shflUp .. | .shflDown .. | .shflXor .. | .voteBallot .. | .bcast .. => tyBit
  | .redux _ _ op | .reduxSet _ _ op | .scan _ _ op _ => op.types
  | .resid .. | .residm .. | .brkdone .. => [.b32, .n32, .i32, .f32]
  | .ldl .. | .stl .. | .ldc .. | .stc .. | .ldd .. | .std .. => tyMem
  | .mcvt .. => [.e4m3, .e5m2, .bf16, .f16, .f32, .i8]
  | .nop .. | .land .. | .br .. | .jmpi .. | .call .. | .calli .. | .ret .. | .exit .. | .trap .. | .hpush .. | .hend ..
  | .perform .. | .resume .. | .abort .. | .join .. | .leave .. | .waitj .. | .brk .. | .voteAny .. | .voteAll ..
  | .bar .. | .sbar .. | .rinit .. | .rarrive .. | .rwait .. | .rtest .. | .spawn .. | .fetch .. | .launch ..
  | .rgive .. | .rclaim .. | .ldit .. | .brkinfo .. | .tmov .. | .owngive .. | .owntake .. | .ownshare .. | .talloc ..
  | .tload .. | .tstore .. | .tgive .. | .ttake .. | .tfree .. | .phase .. | .fence .. | .qcfg .. | .qstat ..
  | .push .. | .pop .. | .gnode .. | .garm .. | .garmSig .. | .garmFree .. | .gwait .. | .gtest .. | .shadowNew ..
  | .shadowAddr .. | .shadowFree .. | .publish .. | .mloop .. | .mzero .. | .mread .. | .mgate .. | .region ..
  | .trapretFix .. | .trapretSkip .. | .trapretRetry .. | .trapretKill .. | .rdtrap .. | .wrtrap .. | .pgreq ..
  | .bkpt .. | .cntrd .. | .cntwr .. => [.b32]
  | _ => []

/-- The common fields of a long form; `none` for a short form and for an event. -/
def Instr.hdr? : Instr → Option Hdr
  | .add h _ | .sub h _ | .mul h _ | .mulh h _ | .mad h _ | .min h _ | .max h _ | .abs h _ | .neg h _ | .and h _ | .or h _
  | .xor h _ | .andn h _ | .not h _ | .shl h _ | .shr h _ | .sar h _ | .clz h _ | .ctz h _ | .popc h _ | .brev h _
  | .bfx h _ | .bfi h _ | .rot h _ | .prmt h _ | .setp h _ | .sel h _ _ | .plop h _ | .mov h _ | .li h _ | .movs h _
  | .movsWrite h | .movpRead h | .movpWrite h _ | .lea h _ _ | .fadd h _ | .fsub h _ | .fmul h _ | .ffma h _ | .fmin h _
  | .fmax h _ | .fabs h _ | .fneg h _ | .fsetp h _ | .fclass h _ | .frint h _ | .fscale h _ | .cvt h _ _ | .cvtins h _ _
  | .rcp h _ | .rsq h _ | .sqrt h _ | .exp2 h _ | .log2 h _ | .sin h _ | .cos h _ | .tanh h _ | .fdiv h _ | .div h _
  | .rem h _ | .nop h | .land h | .br h _ | .jmpi h | .call h _ | .calli h | .ret h | .exit h | .trap h _ | .hpush h _ _
  | .hend h | .perform h _ | .resume h | .abort h | .ld h _ | .st h _ | .atomAdd h _ | .atomMin h _ | .atomMax h _
  | .atomAnd h _ | .atomOr h _ | .atomXor h _ | .atomExch h _ | .atomCas h _ | .atomFadd h _ | .join h _ | .leave h _
  | .waitj h _ | .brk h _ _ _ | .kmovSet h _ | .kmovBallot h _ _ _ _ | .kmovRead h _ | .shflIdx h _ _ | .shflUp h _ _
  | .shflDown h _ _ | .shflXor h _ _ | .voteAny h _ _ _ _ | .voteAll h _ _ _ _ | .voteBallot h _ _ _ | .redux h _ _
  | .reduxSet h _ _ | .scan h _ _ _ | .bcast h _ _ | .bar h _ _ | .sbar h _ _ _ | .rinit h _ | .rarrive h _ _ _
  | .rwait h _ _ _ | .rtest h _ _ | .spawn h _ _ | .fetch h _ | .launch h | .rgive h _ | .rclaim h _ | .resid h _
  | .residm h | .brkdone h | .ldit h | .brkinfo h _ | .ldl h _ | .stl h _ | .ldc h _ | .stc h _ | .ldd h _ | .std h _
  | .tmov h _ | .owngive h _ | .owntake h _ _ | .ownshare h | .talloc h _ | .tload h _ _ | .tstore h _ _ | .tgive h _
  | .ttake h _ | .tfree h _ | .phase h _ | .fence h | .qcfg h _ | .qstat h _ | .push h _ | .pop h _ | .gnode h | .garm h
  | .garmSig h | .garmFree h | .gwait h | .gtest h _ | .shadowNew h | .shadowAddr h | .shadowFree h | .publish h
  | .mloop h _ | .mzero h _ | .mread h _ | .mcvt h _ | .mgate h _ | .region h | .trapretFix h | .trapretSkip h
  | .trapretRetry h | .trapretKill h | .rdtrap h | .wrtrap h | .pgreq h | .bkpt h _ | .cntrd h _ | .cntwr h _ => some h
  | _ => none

/-- The fields of a short form. -/
def Instr.short? : Instr → Option Short
  | .nopShort f | .movShort f | .addShort f | .subShort f | .mulShort f | .mulhI32Short f | .mulhN32Short f | .andShort f
  | .orShort f | .xorShort f | .andnShort f | .shlShort f | .shrShort f | .sarShort f | .minI32Short f | .maxI32Short f
  | .minN32Short f | .maxN32Short f | .faddShort f | .fsubShort f | .fmulShort f | .fminShort f | .fmaxShort f | .addw f
  | .subw f | .landShort f => some f
  | _ => none

/-- The class fields hold admitted values (check 8 of R52, the Allowed columns). -/
def Instr.fieldsOk : Instr → Bool
  | .setp h x => x.wf h.ty
  | .plop _ x => x.wf
  | .movpWrite _ m => m.getLsbD 0 == false
  | .fsetp _ x => x.wf
  | .cvt _ sty e => sty.numeric && eposWf sty e
  | .cvtins h sty e => sty.numeric && eposWf h.ty e
  | .atomAdd _ x | .atomMin _ x | .atomMax _ x | .atomAnd _ x | .atomOr _ x | .atomXor _ x | .atomExch _ x | .atomCas _ x
  | .atomFadd _ x => x.wf
  | .br _ d | .call _ d => d.toNat % 4 == 0
  | .brk _ lo hi _ => lo.toNat ≤ hi.toNat
  | .bar _ ph scp | .sbar _ _ ph scp => phaseWf ph scp
  | .rarrive _ pt ph scp | .rwait _ pt ph scp => phaseWf ph scp && pt.toNat < 24
  | .rinit _ pt | .rtest _ pt _ => pt.toNat < 24
  | .rgive _ c | .rclaim _ c => cntWf c
  | .owntake _ tk _ => tk != .engine
  | .mloop _ x => x.wf
  | .mread _ x => x.wf
  | .mcvt _ x => x.wf
  | .cntrd _ x | .cntwr _ x => x.wf
  | _ => true

/-- A term that some words of the opcode map decode to. -/
def Instr.wf (i : Instr) : Bool :=
  match i.hdr?, i.short? with
  | some h, _ => h.wf && i.types.contains h.ty && i.fieldsOk
  | none, some f => f.wf
  | none, none => false

end Sys2Proof
end

