-- ==== Sys2Proof/Decode.lean ====
section
/-! DEFINITION. Decoding of Scagal words, total on any words, and the encoder written from the same tables (spec/03
R37 to R50 and each class's own table). Checks 2 to 8 of R52, as far as the words alone decide them, are made here in
the order of R52; what needs the kernel header, the privilege level or the code size is checked when the form executes. -/

namespace Sys2Proof

/-! ## Fields -/

/-- The n bits of w from bit lo up, as a number. -/
def fieldN (w : Word) (lo n : Nat) : Nat := w.toNat / 2 ^ lo % 2 ^ n

/-- The n bits of w from bit lo up. -/
def field (w : Word) (lo n : Nat) : BitVec n := BitVec.ofNat n (w.toNat / 2 ^ lo)

/-- Bit lo of w. -/
def flag (w : Word) (lo : Nat) : Bool := w.toNat / 2 ^ lo % 2 == 1

/-- A number packed from (width, value) pairs, the first pair lowest. -/
def pack : List (Nat × Nat) → Nat
  | [] => 0
  | (w, v) :: rest => v % 2 ^ w + 2 ^ w * pack rest

def packW (l : List (Nat × Nat)) : Word := BitVec.ofNat 32 (pack l)

def b2n (b : Bool) : Nat := if b then 1 else 0

/-! ## Operand codes, types, rounding, guard -/

/-- R39. -/
def decodeOperand (c : Nat) : Operand :=
  if c < 0x80 then .v (BitVec.ofNat 7 c)
  else if c < 0xC0 then .s (BitVec.ofNat 6 (c - 0x80))
  else if c < 0xE0 then .int (BitVec.ofNat 5 (c - 0xC0))
  else if c < 0xF0 then .flt (BitVec.ofNat 4 (c - 0xE0))
  else if c < 0xFE then .rsv (BitVec.ofNat 4 (c - 0xF0))
  else if c = 0xFE then .imm
  else .lit

/-- The operand's 8-bit code, R39. -/
def Operand.code : Operand → Nat
  | .v n => n.toNat
  | .s n => 0x80 + n.toNat
  | .int k => 0xC0 + k.toNat
  | .flt k => 0xE0 + k.toNat
  | .rsv k => 0xF0 + k.toNat
  | .imm => 0xFE
  | .lit => 0xFF

/-- R45. -/
def decodeTy : Nat → Option Ty
  | 0 => some .b32 | 1 => some .i8 | 2 => some .i16 | 3 => some .i32 | 4 => some .i64 | 5 => some .n8 | 6 => some .n16
  | 7 => some .n32 | 8 => some .n64 | 9 => some .f16 | 10 => some .bf16 | 11 => some .f32 | 12 => some .f64
  | 13 => some .e4m3 | 14 => some .e5m2 | 15 => some .t2 | 16 => some .b64
  | _ => none

def Ty.code : Ty → Nat
  | .b32 => 0 | .i8 => 1 | .i16 => 2 | .i32 => 3 | .i64 => 4 | .n8 => 5 | .n16 => 6 | .n32 => 7 | .n64 => 8 | .f16 => 9
  | .bf16 => 10 | .f32 => 11 | .f64 => 12 | .e4m3 => 13 | .e5m2 => 14 | .t2 => 15 | .b64 => 16

/-- R46. -/
def decodeRnd : Nat → Option Rnd
  | 0 => some .rne | 1 => some .rtz | 2 => some .rup | 3 => some .rdn | 4 => some .rna
  | _ => none

def Rnd.code : Rnd → Nat
  | .rne => 0 | .rtz => 1 | .rup => 2 | .rdn => 3 | .rna => 4

/-- PRED, R43. -/
def decodePred (c : Nat) : Option Pred :=
  if c = 0 then some .always
  else if c < 8 then some (.pos (BitVec.ofNat 3 c))
  else if c = 8 then none
  else some (.neg (BitVec.ofNat 3 (c - 8)))

def Pred.code : Pred → Nat
  | .always => 0
  | .pos k => k.toNat
  | .neg k => 8 + k.toNat

/-! ## Small enumerations of word 2 -/

def decodeCnd : Nat → Option Cnd
  | 0 => some .eq | 1 => some .ne | 2 => some .lt | 3 => some .le | 4 => some .gt | 5 => some .ge
  | _ => none

def Cnd.code : Cnd → Nat
  | .eq => 0 | .ne => 1 | .lt => 2 | .le => 3 | .gt => 4 | .ge => 5

def decodeBop : Nat → Bop
  | 0 => .set | 1 => .and | 2 => .or
  | _ => .xor

def Bop.code : Bop → Nat
  | .set => 0 | .and => 1 | .or => 2 | .xor => 3

/-- SRI, R87. -/
def decodeSri : Nat → Option Sri
  | 0 => some .tid | 1 => some .lane | 2 => some .wave | 3 => some .wg | 4 => some .width | 5 => some .role
  | 6 => some .gang | 7 => some .core | 8 => some .die | 9 => some .launch | 10 => some .ctx | 11 => some .inseq
  | 12 => some .brick | 13 => some .clk | 14 => some .icount | 15 => some .now | 16 => some .dline | 17 => some .slack
  | 18 => some .fpflags
  | _ => none

def Sri.code : Sri → Nat
  | .tid => 0 | .lane => 1 | .wave => 2 | .wg => 3 | .width => 4 | .role => 5 | .gang => 6 | .core => 7 | .die => 8
  | .launch => 9 | .ctx => 10 | .inseq => 11 | .brick => 12 | .clk => 13 | .icount => 14 | .now => 15 | .dline => 16
  | .slack => 17 | .fpflags => 18

def decodeOrd : Nat → Ord4
  | 0 => .rlx | 1 => .acq | 2 => .rel
  | _ => .ar

def Ord4.code : Ord4 → Nat
  | .rlx => 0 | .acq => 1 | .rel => 2 | .ar => 3

def decodeScp : Nat → Scp
  | 0 => .module | 1 => .cluster | 2 => .die
  | _ => .system

def Scp.code : Scp → Nat
  | .module => 0 | .cluster => 1 | .die => 2 | .system => 3

def decodeXOp : Nat → Option XOp
  | 0 => some .add | 1 => some .min | 2 => some .max | 3 => some .and | 4 => some .or | 5 => some .xor | 6 => some .fadd
  | 7 => some .fmin | 8 => some .fmax
  | _ => none

def XOp.code : XOp → Nat
  | .add => 0 | .min => 1 | .max => 2 | .and => 3 | .or => 4 | .xor => 5 | .fadd => 6 | .fmin => 7 | .fmax => 8

def decodeLvl : Nat → Option Lvl
  | 0 => some .core | 1 => some .cluster | 2 => some .die
  | _ => none

def Lvl.code : Lvl → Nat
  | .core => 0 | .cluster => 1 | .die => 2

def decodeTk : Nat → Option Tk
  | 1 => some .workgroup | 2 => some .core | 3 => some .engine
  | _ => none

def Tk.code : Tk → Nat
  | .workgroup => 1 | .core => 2 | .engine => 3

def decodeFld : Nat → Option Fld
  | 0 => some .id | 1 => some .dres | 2 => some .data | 3 => some .mortar | 4 => some .mcnt | 5 => some .iter
  | _ => none

def Fld.code : Fld → Nat
  | .id => 0 | .dres => 1 | .data => 2 | .mortar => 3 | .mcnt => 4 | .iter => 5

def decodeCntScope : Nat → Option CntScope
  | 0 => some .core | 1 => some .die | 2 => some .hub
  | _ => none

def CntScope.code : CntScope → Nat
  | .core => 0 | .die => 1 | .hub => 2

/-- `some i` when the must-be-zero bits are zero. -/
def mbz (ok : Bool) (i : Instr) : Option Instr := if ok then some i else none

/-! ## Word 2 and the rows of each class. Each function answers the row that MIN selects with its fields read from
word 2 (R47), or `none` where word 2 holds a value not allowed. -/

/-- R77. -/
def intForm (min : Nat) (h : Hdr) (w2 : Word) : Option Instr :=
  match min with
  | 0 => some (.add h w2)
  | 1 => some (.sub h w2)
  | 2 => some (.mul h w2)
  | 3 => some (.mulh h w2)
  | 4 => some (.mad h w2)
  | 5 => some (.min h w2)
  | 6 => some (.max h w2)
  | 7 => some (.abs h w2)
  | 8 => some (.neg h w2)
  | 9 => some (.and h w2)
  | 10 => some (.or h w2)
  | 11 => some (.xor h w2)
  | 12 => some (.andn h w2)
  | 13 => some (.not h w2)
  | 14 => some (.shl h w2)
  | 15 => some (.shr h w2)
  | 16 => some (.sar h w2)
  | _ => none

/-- R80. -/
def bitForm (min : Nat) (h : Hdr) (w2 : Word) : Option Instr :=
  match min with
  | 0 => some (.clz h w2)
  | 1 => some (.ctz h w2)
  | 2 => some (.popc h w2)
  | 3 => some (.brev h w2)
  | 4 => some (.bfx h w2)
  | 5 => some (.bfi h w2)
  | 6 => some (.rot h w2)
  | 7 => some (.prmt h w2)
  | _ => none

/-- R82. -/
def cmpForm (min : Nat) (h : Hdr) (w : Word) : Option Instr :=
  match min with
  | 0 => (decodeCnd (fieldN w 4 4)).bind fun cnd =>
      mbz (fieldN w 3 1 == 0 && fieldN w 14 18 == 0)
        (.setp h { pd := field w 0 3, cnd := cnd, ps := field w 8 3, psn := flag w 11, bop := decodeBop (fieldN w 12 2) })
  | 1 => mbz (fieldN w 0 8 == 0 && fieldN w 12 20 == 0) (.sel h (field w 8 3) (flag w 11))
  | 2 => mbz (fieldN w 3 5 == 0 && fieldN w 14 2 == 0 && fieldN w 20 12 == 0)
      (.plop h { pd := field w 0 3, ps := field w 8 3, psn := flag w 11, bop := decodeBop (fieldN w 12 2),
                 pt := field w 16 3, ptn := flag w 19 })
  | _ => none

/-- R85. -/
def movForm (min : Nat) (h : Hdr) (w : Word) : Option Instr :=
  match min with
  | 0 => some (.mov h w)
  | 1 => some (.li h w)
  | 2 => if fieldN w 9 23 != 0 then none
         else if flag w 8 then mbz (fieldN w 0 8 == 0x12) (.movsWrite h)
         else (decodeSri (fieldN w 0 8)).map fun r => .movs h r
  | 3 => if fieldN w 1 7 != 0 || fieldN w 16 16 != 0 then none
         else if flag w 0 then some (.movpWrite h (field w 8 8))
         else mbz (fieldN w 8 8 == 0) (.movpRead h)
  | 4 => mbz (fieldN w 4 28 == 0) (.lea h (field w 0 3) (flag w 3))
  | _ => none

/-- R97, R101. -/
def fltForm (min : Nat) (h : Hdr) (w2 : Word) : Option Instr :=
  match min with
  | 0 => some (.fadd h w2)
  | 1 => some (.fsub h w2)
  | 2 => some (.fmul h w2)
  | 3 => some (.ffma h w2)
  | 4 => some (.fmin h w2)
  | 5 => some (.fmax h w2)
  | 6 => some (.fabs h w2)
  | 7 => some (.fneg h w2)
  | 9 => some (.fclass h w2)
  | 10 => some (.frint h w2)
  | 11 => some (.fscale h w2)
  | 8 => mbz (fieldN w2 14 18 == 0)
      (.fsetp h { pd := field w2 0 3, sig := flag w2 3, mask := field w2 4 4, ps := field w2 8 3, psn := flag w2 11,
                  bop := decodeBop (fieldN w2 12 2) })
  | _ => none

/-- R102. -/
def cvtForm (min : Nat) (h : Hdr) (w : Word) : Option Instr :=
  (decodeTy (fieldN w 0 5)).bind fun sty =>
    if fieldN w 9 23 != 0 then none
    else match min with
      | 0 => some (.cvt h sty (field w 5 4))
      | 1 => some (.cvtins h sty (field w 5 4))
      | _ => none

/-- R105. -/
def sfuForm (min : Nat) (h : Hdr) (w2 : Word) : Option Instr :=
  match min with
  | 0 => some (.rcp h w2)
  | 1 => some (.rsq h w2)
  | 2 => some (.sqrt h w2)
  | 3 => some (.exp2 h w2)
  | 4 => some (.log2 h w2)
  | 5 => some (.sin h w2)
  | 6 => some (.cos h w2)
  | 7 => some (.tanh h w2)
  | 8 => some (.fdiv h w2)
  | 9 => some (.div h w2)
  | 10 => some (.rem h w2)
  | _ => none

/-- R111. -/
def ctlForm (min : Nat) (h : Hdr) (w : Word) : Option Instr :=
  match min with
  | 0 => mbz (w == 0) (.nop h)
  | 1 => mbz (w == 0) (.land h)
  | 2 => some (.br h w)
  | 3 => mbz (w == 0) (.jmpi h)
  | 4 => some (.call h w)
  | 5 => mbz (w == 0) (.calli h)
  | 6 => mbz (w == 0) (.ret h)
  | 7 => mbz (w == 0) (.exit h)
  | 8 => mbz (fieldN w 16 16 == 0) (.trap h (field w 0 16))
  | _ => none

/-- R120. -/
def effForm (min : Nat) (h : Hdr) (w : Word) : Option Instr :=
  match min with
  | 0 => mbz (fieldN w 13 19 == 0) (.hpush h (field w 0 12) (flag w 12))
  | 1 => mbz (w == 0) (.hend h)
  | 2 => mbz (fieldN w 12 20 == 0) (.perform h (field w 0 12))
  | 3 => mbz (w == 0) (.resume h)
  | 4 => mbz (w == 0) (.abort h)
  | _ => none

/-- R88. -/
def memForm (min : Nat) (h : Hdr) (w : Word) : Option Instr :=
  let x : AtomX := { off := field w 0 24, ord := decodeOrd (fieldN w 24 2), scp := decodeScp (fieldN w 26 2) }
  let z := fieldN w 28 4 == 0
  match min with
  | 0x000 => mbz (fieldN w 24 8 == 0) (.ld h (field w 0 24))
  | 0x001 => mbz (fieldN w 24 8 == 0) (.st h (field w 0 24))
  | 0x010 => mbz z (.atomAdd h x)
  | 0x011 => mbz z (.atomMin h x)
  | 0x012 => mbz z (.atomMax h x)
  | 0x013 => mbz z (.atomAnd h x)
  | 0x014 => mbz z (.atomOr h x)
  | 0x015 => mbz z (.atomXor h x)
  | 0x016 => mbz z (.atomExch h x)
  | 0x017 => mbz z (.atomCas h x)
  | 0x018 => mbz z (.atomFadd h x)
  | _ => none

/-- R156. -/
def divForm (min : Nat) (h : Hdr) (w : Word) : Option Instr :=
  match min with
  | 0 => mbz (fieldN w 4 28 == 0) (.join h (field w 0 4))
  | 1 => mbz (fieldN w 4 28 == 0) (.leave h (field w 0 4))
  | 2 => mbz (fieldN w 4 28 == 0) (.waitj h (field w 0 4))
  | 3 => some (.brk h (field w 0 4) (field w 4 4) (field w 8 24))
  | 4 => match fieldN w 16 2 with
    | 0 => mbz (fieldN w 4 28 == 0) (.kmovSet h (field w 0 4))
    | 1 => mbz (fieldN w 4 4 == 0 && fieldN w 18 14 == 0)
        (.kmovBallot h (field w 0 4) (field w 8 4) (field w 12 3) (flag w 15))
    | 2 => mbz (fieldN w 4 12 == 0 && fieldN w 18 14 == 0) (.kmovRead h (field w 0 4))
    | _ => none
  | _ => none

/-- R159. -/
def xlnForm (min : Nat) (h : Hdr) (w : Word) : Option Instr :=
  let k : BitVec 4 := field w 0 4
  let shuffle (i : Instr) : Option Instr := mbz (fieldN w 4 11 == 0 && fieldN w 16 16 == 0) i
  match min with
  | 0 => shuffle (.shflIdx h k (flag w 15))
  | 1 => shuffle (.shflUp h k (flag w 15))
  | 2 => shuffle (.shflDown h k (flag w 15))
  | 3 => shuffle (.shflXor h k (flag w 15))
  | 4 => mbz (fieldN w 4 4 == 0 && fieldN w 15 17 == 0) (.voteAny h k (field w 8 3) (flag w 11) (field w 12 3))
  | 5 => mbz (fieldN w 4 4 == 0 && fieldN w 15 17 == 0) (.voteAll h k (field w 8 3) (flag w 11) (field w 12 3))
  | 6 => mbz (fieldN w 4 4 == 0 && fieldN w 12 20 == 0) (.voteBallot h k (field w 8 3) (flag w 11))
  | 7 => (decodeXOp (fieldN w 4 4)).bind fun op =>
      if fieldN w 8 8 != 0 || fieldN w 25 7 != 0 then none
      else if flag w 16 then mbz (fieldN w 0 4 == 0) (.reduxSet h (field w 17 8) op)
      else mbz (fieldN w 17 8 == 0) (.redux h k op)
  | 8 => (decodeXOp (fieldN w 4 4)).bind fun op =>
      mbz (fieldN w 8 17 == 0 && fieldN w 26 6 == 0) (.scan h k op (flag w 25))
  | 9 => shuffle (.bcast h k (flag w 15))
  | _ => none

/-- R164. -/
def synForm (min : Nat) (h : Hdr) (w : Word) : Option Instr :=
  let pt : BitVec 5 := field w 0 5
  let ph := flag w 16
  let scp := decodeScp (fieldN w 17 2)
  match min with
  | 0 => mbz (fieldN w 0 16 == 0 && fieldN w 19 13 == 0) (.bar h ph scp)
  | 1 => mbz (fieldN w 0 8 == 0 && fieldN w 19 13 == 0) (.sbar h (field w 8 8) ph scp)
  | 2 => mbz (fieldN w 5 27 == 0) (.rinit h pt)
  | 3 => mbz (fieldN w 5 11 == 0 && fieldN w 19 13 == 0) (.rarrive h pt ph scp)
  | 4 => mbz (fieldN w 5 11 == 0 && fieldN w 19 13 == 0) (.rwait h pt ph scp)
  | 5 => mbz (fieldN w 5 14 == 0 && fieldN w 22 10 == 0) (.rtest h pt (field w 19 3))
  | _ => none

/-- R182. -/
def tskForm (min : Nat) (h : Hdr) (w : Word) : Option Instr :=
  match min with
  | 0 => mbz (fieldN w 21 11 == 0) (.spawn h (field w 0 20) (flag w 20))
  | 1 => mbz (fieldN w 3 29 == 0) (.fetch h (field w 0 3))
  | 2 => mbz (w == 0) (.launch h)
  | 3 => mbz (fieldN w 8 24 == 0) (.rgive h (field w 0 8))
  | 4 => mbz (fieldN w 8 24 == 0) (.rclaim h (field w 0 8))
  | _ => none

/-- R202. -/
def stdForm (min : Nat) (h : Hdr) (w : Word) : Option Instr :=
  match min with
  | 0 => mbz (fieldN w 1 31 == 0) (.resid h (flag w 0))
  | 1 => mbz (w == 0) (.residm h)
  | 2 => mbz (w == 0) (.brkdone h)
  | 3 => mbz (w == 0) (.ldit h)
  | 4 => if fieldN w 3 29 != 0 then none else (decodeFld (fieldN w 0 3)).map fun f => .brkinfo h f
  | _ => none

/-- R229. -/
def spdForm (min : Nat) (h : Hdr) (w : Word) : Option Instr :=
  let off : BitVec 24 := field w 0 24
  let z := fieldN w 24 8 == 0
  match min with
  | 0 => mbz z (.ldl h off)
  | 1 => mbz z (.stl h off)
  | 2 => mbz z (.ldc h off)
  | 3 => mbz z (.stc h off)
  | 4 => mbz z (.ldd h off)
  | 5 => mbz z (.std h off)
  | 6 => (decodeLvl (fieldN w 0 2)).bind fun dl => (decodeLvl (fieldN w 2 2)).map fun sl =>
      .tmov h { dlv := dl, slv := sl, dstr := field w 4 14, sstr := field w 18 14 }
  | _ => none

/-- R234. -/
def ownForm (min : Nat) (h : Hdr) (w : Word) : Option Instr :=
  match min with
  | 0 => if fieldN w 2 30 != 0 then none else (decodeTk (fieldN w 0 2)).map fun tk => .owngive h tk
  | 1 => if fieldN w 3 29 != 0 then none else (decodeTk (fieldN w 0 2)).map fun tk => .owntake h tk (flag w 2)
  | 2 => mbz (w == 0) (.ownshare h)
  | _ => none

/-- R237. -/
def tilForm (min : Nat) (h : Hdr) (w : Word) : Option Instr :=
  let hn : BitVec 6 := field w 0 6
  let z := fieldN w 6 26 == 0
  match min with
  | 0 => mbz z (.talloc h hn)
  | 1 => if fieldN w 8 24 != 0 then none else (decodeLvl (fieldN w 6 2)).map fun lv => .tload h hn lv
  | 2 => if fieldN w 8 24 != 0 then none else (decodeLvl (fieldN w 6 2)).map fun lv => .tstore h hn lv
  | 3 => mbz z (.tgive h hn)
  | 4 => mbz z (.ttake h hn)
  | 5 => mbz z (.tfree h hn)
  | _ => none

/-- R246. -/
def ordForm (min : Nat) (h : Hdr) (w : Word) : Option Instr :=
  match min with
  | 0 => mbz (fieldN w 2 30 == 0) (.phase h (decodeScp (fieldN w 0 2)))
  | 1 => mbz (w == 0) (.fence h)
  | _ => none

/-- R240. -/
def queForm (min : Nat) (h : Hdr) (w : Word) : Option Instr :=
  let q : BitVec 3 := field w 0 3
  let z := fieldN w 3 29 == 0
  match min with
  | 0 => mbz z (.qcfg h q)
  | 1 => mbz z (.qstat h q)
  | 2 => mbz z (.push h q)
  | 3 => mbz z (.pop h q)
  | _ => none

/-- R296. -/
def engForm (min : Nat) (h : Hdr) (w : Word) : Option Instr :=
  match min with
  | 0 => mbz (w == 0) (.gnode h)
  | 1 => if w == 0 then some (.garm h) else if w == 1 then some (.garmSig h) else mbz (w == 2) (.garmFree h)
  | 2 => mbz (w == 0) (.gwait h)
  | 3 => mbz (fieldN w 3 29 == 0) (.gtest h (field w 0 3))
  | 4 => if w == 0 then some (.shadowNew h) else if w == 1 then some (.shadowAddr h) else mbz (w == 2) (.shadowFree h)
  | 5 => mbz (w == 0) (.publish h)
  | _ => none

/-- R311, R318, R321. -/
def mmaForm (min : Nat) (h : Hdr) (w : Word) : Option Instr :=
  match min with
  | 0 => mbz (fieldN w 28 4 == 0)
      (.mloop h { hc := field w 0 6, ask := flag w 6, ha := field w 7 6, bsk := flag w 13, hb := field w 14 6,
                  mp := flag w 20, msk := flag w 21, hm := field w 22 6 })
  | 1 => mbz (fieldN w 6 26 == 0) (.mzero h (field w 0 6))
  | 2 => if fieldN w 15 17 != 0 then none else (decodeLvl (fieldN w 13 2)).map fun lv =>
      .mread h { h := field w 0 6, dk := flag w 6, hd := field w 7 6, lv := lv }
  | 3 => mbz (fieldN w 19 13 == 0)
      (.mcvt h { hs := field w 0 6, hd := field w 6 6, sc := flag w 12, hr := field w 13 6 })
  | 4 => mbz (fieldN w 18 14 == 0)
      (.mgate h { h := field w 0 6, set := field w 6 8, pd := field w 14 3, wen := flag w 17 })
  | _ => none

/-- R337. -/
def sysForm (min : Nat) (h : Hdr) (w : Word) : Option Instr :=
  match min with
  | 0 => mbz (w == 0) (.region h)
  | 1 => if w == 0 then some (.trapretFix h) else if w == 1 then some (.trapretSkip h)
         else if w == 2 then some (.trapretRetry h) else mbz (w == 3) (.trapretKill h)
  | 2 => mbz (w == 0) (.rdtrap h)
  | 3 => mbz (w == 0) (.wrtrap h)
  | 4 => mbz (w == 0) (.pgreq h)
  | _ => none

/-- R354. -/
def dbgForm (min : Nat) (h : Hdr) (w : Word) : Option Instr :=
  let cnt (mk : CntX → Instr) : Option Instr :=
    if fieldN w 9 23 != 0 then none
    else (decodeCntScope (fieldN w 5 2)).map fun sc => mk { idx := field w 0 5, scope := sc, rsel := field w 7 2 }
  match min with
  | 0 => mbz (fieldN w 16 16 == 0) (.bkpt h (field w 0 16))
  | 1 => cnt (.cntrd h)
  | 2 => cnt (.cntwr h)
  | _ => none

/-- The row of a class with its fields read from word 2 (R47, R50). -/
def classForm (maj min : Nat) (h : Hdr) (w2 : Word) : Option Instr :=
  match maj with
  | 0x01 => intForm min h w2
  | 0x02 => bitForm min h w2
  | 0x03 => cmpForm min h w2
  | 0x04 => movForm min h w2
  | 0x05 => fltForm min h w2
  | 0x06 => cvtForm min h w2
  | 0x07 => sfuForm min h w2
  | 0x08 => ctlForm min h w2
  | 0x09 => effForm min h w2
  | 0x0A => memForm min h w2
  | 0x0B => divForm min h w2
  | 0x0C => xlnForm min h w2
  | 0x0D => synForm min h w2
  | 0x0E => tskForm min h w2
  | 0x0F => stdForm min h w2
  | 0x10 => spdForm min h w2
  | 0x11 => ownForm min h w2
  | 0x12 => tilForm min h w2
  | 0x13 => ordForm min h w2
  | 0x14 => queForm min h w2
  | 0x15 => engForm min h w2
  | 0x16 => mmaForm min h w2
  | 0x17 => sysForm min h w2
  | 0x18 => dbgForm min h w2
  | _ => none

/-- The MIN values each class allocates (check 4 of R52). -/
def minAllocated (maj min : Nat) : Bool :=
  match maj with
  | 0x01 => min ≤ 0x010
  | 0x02 => min ≤ 7
  | 0x03 => min ≤ 2
  | 0x04 => min ≤ 4
  | 0x05 => min ≤ 0x00B
  | 0x06 => min ≤ 1
  | 0x07 => min ≤ 0x00A
  | 0x08 => min ≤ 8
  | 0x09 => min ≤ 4
  | 0x0A => min ≤ 1 || (0x010 ≤ min && min ≤ 0x018)
  | 0x0B => min ≤ 4
  | 0x0C => min ≤ 9
  | 0x0D => min ≤ 5
  | 0x0E => min ≤ 4
  | 0x0F => min ≤ 4
  | 0x10 => min ≤ 6
  | 0x11 => min ≤ 2
  | 0x12 => min ≤ 5
  | 0x13 => min ≤ 1
  | 0x14 => min ≤ 3
  | 0x15 => min ≤ 5
  | 0x16 => min ≤ 4
  | 0x17 => min ≤ 4
  | 0x18 => min ≤ 2
  | _ => false

/-- The types a MIN of a class admits, whatever word 2 holds; REDUX and SCAN by OP, and any type of theirs when OP is not
allowed (check 6 of R52 comes before check 8). -/
def classTypes (maj min : Nat) (w2 : Word) : List Ty :=
  match maj with
  | 0x01 => if min ≤ 6 then tyInt else if min ≤ 8 then [.i32, .i64] else tyBit
  | 0x02 => if min = 4 then tyInt else if min = 7 then [.b32] else tyBit
  | 0x03 => if min = 0 then [.i32, .n32, .i64, .n64, .b32, .b64] else if min = 1 then tyBit else [.b32]
  | 0x04 => if min = 0 then tyBit else if min = 1 then [.b32, .i64, .n64] else [.b32]
  | 0x05 => tyFlt
  | 0x06 => if min = 0 then tyNum else [.i8, .n8, .i16, .n16, .f16, .bf16, .e4m3, .e5m2, .t2]
  | 0x07 => if min = 2 || min = 8 then tyFlt else if min ≤ 7 then [.f32] else tyInt
  | 0x0A => if min ≤ 1 then tyMem else if min ≤ 0x012 then tyInt else if min ≤ 0x017 then tyBit else [.f32]
  | 0x0B => if min = 4 then tyBit else [.b32]
  | 0x0C => if min ≤ 3 || min = 6 || min = 9 then tyBit else if min ≤ 5 then [.b32]
            else match decodeXOp (fieldN w2 4 4) with
              | some op => op.types
              | none => tyInt ++ tyBit ++ tyFlt
  | 0x0F => if min ≤ 2 then [.b32, .n32, .i32, .f32] else [.b32]
  | 0x10 => if min ≤ 5 then tyMem else [.b32]
  | 0x16 => if min = 3 then [.e4m3, .e5m2, .bf16, .f16, .f32, .i8] else [.b32]
  | _ => [.b32]

/-! ## The short map, R48 -/

def shortForm (maj : Nat) (f : Short) : Option Instr :=
  match maj with
  | 0x01 => some (.nopShort f) | 0x02 => some (.movShort f) | 0x03 => some (.addShort f) | 0x04 => some (.subShort f)
  | 0x05 => some (.mulShort f) | 0x06 => some (.mulhI32Short f) | 0x07 => some (.mulhN32Short f)
  | 0x08 => some (.andShort f) | 0x09 => some (.orShort f) | 0x0A => some (.xorShort f) | 0x0B => some (.andnShort f)
  | 0x0C => some (.shlShort f) | 0x0D => some (.shrShort f) | 0x0E => some (.sarShort f) | 0x0F => some (.minI32Short f)
  | 0x10 => some (.maxI32Short f) | 0x11 => some (.minN32Short f) | 0x12 => some (.maxN32Short f)
  | 0x13 => some (.faddShort f) | 0x14 => some (.fsubShort f) | 0x15 => some (.fmulShort f)
  | 0x16 => some (.fminShort f) | 0x17 => some (.fmaxShort f) | 0x18 => some (.addw f) | 0x19 => some (.subw f)
  | 0x1A => some (.landShort f)
  | _ => none

/-! ## Decoding -/

/-- A word that is no instruction, with the detail words of R53. -/
def illegal (det0 : Word) (w0 w1 : Word) : Instr := .encodingNotInstruction .illegalInstruction det0 w0 w1

/-- Words of an instruction by LEN (R38). -/
def lenWords (len : Nat) : Nat :=
  match len with
  | 0 => 1
  | 3 => 5
  | _ => 3

def literalOf (lo hi : Word) : DWord := BitVec.ofNat 64 (lo.toNat + 2 ^ 32 * hi.toNat)

/-- A short-map word and its literal, checks 2 and 3 of R52. -/
def decodeShort (w0 : Word) (lit : Option DWord) : Instr :=
  if fieldN w0 2 6 = 0 then .encodingNotInstruction .zeroWord 0 w0 0
  else match shortForm (fieldN w0 2 6)
      { d := decodeOperand (fieldN w0 8 8), a := decodeOperand (fieldN w0 16 8), b := decodeOperand (fieldN w0 24 8),
        lit := lit } with
    | some i => i
    | none => illegal 2 w0 0

/-- A long-map form, checks 3 to 8 of R52 in their order. -/
def decodeLong (w0 w1 w2 : Word) (lit : Option DWord) : Instr :=
  let maj := fieldN w0 2 6
  let min := fieldN w1 0 10
  if maj = 0 || 0x18 < maj then illegal 2 w0 w1
  else if !minAllocated maj min then illegal 3 w0 w1
  else match decodePred (fieldN w1 18 4) with
    | none => illegal 4 w0 w1
    | some pred => match decodeTy (fieldN w1 22 5) with
      | none => illegal 5 w0 w1
      | some ty =>
        if !(classTypes maj min w2).contains ty then illegal 5 w0 w1
        else match decodeRnd (fieldN w1 27 3) with
          | none => illegal 6 w0 w1
          | some rnd =>
            let h : Hdr :=
              { d := decodeOperand (fieldN w0 8 8), a := decodeOperand (fieldN w0 16 8), b := decodeOperand (fieldN w0 24 8),
                c := decodeOperand (fieldN w1 10 8), pred := pred, ty := ty, rnd := rnd, sat := flag w1 30, lit := lit }
            if flag w1 31 then illegal 7 w0 w1
            else match classForm maj min h w2 with
              | none => illegal 7 w0 w1
              | some i => if i.fieldsOk then i else illegal 7 w0 w1

/-- The instruction that the words from word 0 on decode to, and its length in bytes. A word that is missing lies at or
beyond CODESZ: check 1 of R52, and the detail word that would carry it is 0. (DESIGN CHOICE, log entry 130) -/
def decodeWords : List Word → Instr × Nat
  | [] => (illegal 1 0 0, 4)
  | w0 :: rest =>
    match fieldN w0 0 2, rest with
    | 0, _ => (decodeShort w0 none, 4)
    | 2, lo :: hi :: _ => (decodeShort w0 (some (literalOf lo hi)), 12)
    | 1, w1 :: w2 :: _ => (decodeLong w0 w1 w2 none, 12)
    | 3, w1 :: w2 :: lo :: hi :: _ => (decodeLong w0 w1 w2 (some (literalOf lo hi)), 20)
    | 2, _ => (illegal 1 w0 0, 12)
    | n, w1 :: _ => (illegal 1 w0 w1, if n = 1 then 12 else 20)
    | n, [] => (illegal 1 w0 0, if n = 1 then 12 else 20)

/-- The little-endian words of a run of bytes (R28, R30). -/
def wordsOfBytes : List Byte → List Word
  | a :: b :: c :: d :: rest =>
    BitVec.ofNat 32 (a.toNat + 2 ^ 8 * b.toNat + 2 ^ 16 * c.toNat + 2 ^ 24 * d.toNat) :: wordsOfBytes rest
  | _ => []

/-- The four bytes of a word, the lowest first. -/
def bytesOfWord (w : Word) : List Byte :=
  [BitVec.ofNat 8 w.toNat, BitVec.ofNat 8 (w.toNat / 2 ^ 8), BitVec.ofNat 8 (w.toNat / 2 ^ 16),
   BitVec.ofNat 8 (w.toNat / 2 ^ 24)]

/-- The instruction of a run of code bytes and the bytes left over; `none` where the words are no instruction. -/
def decode (bytes : List Byte) : Option (Instr × List Byte) :=
  match decodeWords (wordsOfBytes bytes) with
  | (.encodingNotInstruction .., _) => none
  | (i, n) => some (i, bytes.drop n)

/-- The five words that an instruction of `nbits` bits numbered as the table numbers them is laid out as, zeros above. -/
def tableWords (nbits w : Nat) : List Word :=
  [0, 1, 2, 3, 4].map fun k => BitVec.ofNat 32 (w % 2 ^ nbits / 2 ^ (32 * k))

def decodeTableWord (nbits w : Nat) : Option Instr :=
  (decode ((tableWords nbits w).flatMap bytesOfWord)).map Prod.fst

/-! ## Encoding -/

/-- MAJ of a short form (R48). -/
def shortMaj : Instr → Option (Nat × Short)
  | .nopShort f => some (0x01, f) | .movShort f => some (0x02, f) | .addShort f => some (0x03, f)
  | .subShort f => some (0x04, f) | .mulShort f => some (0x05, f) | .mulhI32Short f => some (0x06, f)
  | .mulhN32Short f => some (0x07, f) | .andShort f => some (0x08, f) | .orShort f => some (0x09, f)
  | .xorShort f => some (0x0A, f) | .andnShort f => some (0x0B, f) | .shlShort f => some (0x0C, f)
  | .shrShort f => some (0x0D, f) | .sarShort f => some (0x0E, f) | .minI32Short f => some (0x0F, f)
  | .maxI32Short f => some (0x10, f) | .minN32Short f => some (0x11, f) | .maxN32Short f => some (0x12, f)
  | .faddShort f => some (0x13, f) | .fsubShort f => some (0x14, f) | .fmulShort f => some (0x15, f)
  | .fminShort f => some (0x16, f) | .fmaxShort f => some (0x17, f) | .addw f => some (0x18, f)
  | .subw f => some (0x19, f) | .landShort f => some (0x1A, f)
  | _ => none

/-- Word 2 of an atomic (R88). -/
def AtomX.word (x : AtomX) : Word := packW [(24, x.off.toNat), (2, x.ord.code), (2, x.scp.code)]

/-- Word 2 of a counter form (R354). -/
def CntX.word (x : CntX) : Word := packW [(5, x.idx.toNat), (2, x.scope.code), (2, x.rsel.toNat)]

/-- Word 2 of SHFL and BCAST (R159). -/
def shflWord (k : BitVec 4) (own : Bool) : Word := packW [(4, k.toNat), (11, 0), (1, b2n own)]

/-- Word 2 of a SYN form with `.phase` (R164). -/
def synWord (low set : Nat) (ph : Bool) (scp : Scp) : Word := packW [(8, low), (8, set), (1, b2n ph), (2, scp.code)]

/-- MAJ, MIN and word 2 of a long form. -/
def longParts : Instr → Option (Nat × Nat × Word)
  | .add _ w => some (0x01, 0x0, w)
  | .sub _ w => some (0x01, 0x1, w)
  | .mul _ w => some (0x01, 0x2, w)
  | .mulh _ w => some (0x01, 0x3, w)
  | .mad _ w => some (0x01, 0x4, w)
  | .min _ w => some (0x01, 0x5, w)
  | .max _ w => some (0x01, 0x6, w)
  | .abs _ w => some (0x01, 0x7, w)
  | .neg _ w => some (0x01, 0x8, w)
  | .and _ w => some (0x01, 0x9, w)
  | .or _ w => some (0x01, 0xa, w)
  | .xor _ w => some (0x01, 0xb, w)
  | .andn _ w => some (0x01, 0xc, w)
  | .not _ w => some (0x01, 0xd, w)
  | .shl _ w => some (0x01, 0xe, w)
  | .shr _ w => some (0x01, 0xf, w)
  | .sar _ w => some (0x01, 0x10, w)
  | .clz _ w => some (0x02, 0x0, w)
  | .ctz _ w => some (0x02, 0x1, w)
  | .popc _ w => some (0x02, 0x2, w)
  | .brev _ w => some (0x02, 0x3, w)
  | .bfx _ w => some (0x02, 0x4, w)
  | .bfi _ w => some (0x02, 0x5, w)
  | .rot _ w => some (0x02, 0x6, w)
  | .prmt _ w => some (0x02, 0x7, w)
  | .mov _ w => some (0x04, 0x0, w)
  | .li _ w => some (0x04, 0x1, w)
  | .fadd _ w => some (0x05, 0x0, w)
  | .fsub _ w => some (0x05, 0x1, w)
  | .fmul _ w => some (0x05, 0x2, w)
  | .ffma _ w => some (0x05, 0x3, w)
  | .fmin _ w => some (0x05, 0x4, w)
  | .fmax _ w => some (0x05, 0x5, w)
  | .fabs _ w => some (0x05, 0x6, w)
  | .fneg _ w => some (0x05, 0x7, w)
  | .fclass _ w => some (0x05, 0x9, w)
  | .frint _ w => some (0x05, 0xa, w)
  | .fscale _ w => some (0x05, 0xb, w)
  | .rcp _ w => some (0x07, 0x0, w)
  | .rsq _ w => some (0x07, 0x1, w)
  | .sqrt _ w => some (0x07, 0x2, w)
  | .exp2 _ w => some (0x07, 0x3, w)
  | .log2 _ w => some (0x07, 0x4, w)
  | .sin _ w => some (0x07, 0x5, w)
  | .cos _ w => some (0x07, 0x6, w)
  | .tanh _ w => some (0x07, 0x7, w)
  | .fdiv _ w => some (0x07, 0x8, w)
  | .div _ w => some (0x07, 0x9, w)
  | .rem _ w => some (0x07, 0xa, w)
  | .setp _ x => some (0x03, 0, packW [(3, x.pd.toNat), (1, 0), (4, x.cnd.code), (3, x.ps.toNat), (1, b2n x.psn), (2, x.bop.code)])
  | .sel _ ps psn => some (0x03, 1, packW [(8, 0), (3, ps.toNat), (1, b2n psn)])
  | .plop _ x => some (0x03, 2, packW [(3, x.pd.toNat), (5, 0), (3, x.ps.toNat), (1, b2n x.psn), (2, x.bop.code), (2, 0),
      (3, x.pt.toNat), (1, b2n x.ptn)])
  | .movs _ r => some (0x04, 2, packW [(8, r.code)])
  | .movsWrite _ => some (0x04, 2, packW [(8, 0x12), (1, 1)])
  | .movpRead _ => some (0x04, 3, 0)
  | .movpWrite _ m => some (0x04, 3, packW [(8, 1), (8, m.toNat)])
  | .lea _ sh x => some (0x04, 4, packW [(3, sh.toNat), (1, b2n x)])
  | .fsetp _ x => some (0x05, 8, packW [(3, x.pd.toNat), (1, b2n x.sig), (4, x.mask.toNat), (3, x.ps.toNat), (1, b2n x.psn),
      (2, x.bop.code)])
  | .cvt _ sty e => some (0x06, 0, packW [(5, sty.code), (4, e.toNat)])
  | .cvtins _ sty e => some (0x06, 1, packW [(5, sty.code), (4, e.toNat)])
  | .nop _ => some (0x08, 0, 0)
  | .land _ => some (0x08, 1, 0)
  | .br _ d => some (0x08, 2, d)
  | .jmpi _ => some (0x08, 3, 0)
  | .call _ d => some (0x08, 4, d)
  | .calli _ => some (0x08, 5, 0)
  | .ret _ => some (0x08, 6, 0)
  | .exit _ => some (0x08, 7, 0)
  | .trap _ c => some (0x08, 8, packW [(16, c.toNat)])
  | .hpush _ e m => some (0x09, 0, packW [(12, e.toNat), (1, b2n m)])
  | .hend _ => some (0x09, 1, 0)
  | .perform _ e => some (0x09, 2, packW [(12, e.toNat)])
  | .resume _ => some (0x09, 3, 0)
  | .abort _ => some (0x09, 4, 0)
  | .ld _ o => some (0x0A, 0x000, packW [(24, o.toNat)])
  | .st _ o => some (0x0A, 0x001, packW [(24, o.toNat)])
  | .atomAdd _ x => some (0x0A, 0x010, x.word)
  | .atomMin _ x => some (0x0A, 0x011, x.word)
  | .atomMax _ x => some (0x0A, 0x012, x.word)
  | .atomAnd _ x => some (0x0A, 0x013, x.word)
  | .atomOr _ x => some (0x0A, 0x014, x.word)
  | .atomXor _ x => some (0x0A, 0x015, x.word)
  | .atomExch _ x => some (0x0A, 0x016, x.word)
  | .atomCas _ x => some (0x0A, 0x017, x.word)
  | .atomFadd _ x => some (0x0A, 0x018, x.word)
  | .join _ k => some (0x0B, 0, packW [(4, k.toNat)])
  | .leave _ k => some (0x0B, 1, packW [(4, k.toNat)])
  | .waitj _ k => some (0x0B, 2, packW [(4, k.toNat)])
  | .brk _ lo hi dw => some (0x0B, 3, packW [(4, lo.toNat), (4, hi.toNat), (24, dw.toNat)])
  | .kmovSet _ k => some (0x0B, 4, packW [(4, k.toNat)])
  | .kmovBallot _ k kp pb pbn => some (0x0B, 4, packW [(4, k.toNat), (4, 0), (4, kp.toNat), (3, pb.toNat), (1, b2n pbn), (2, 1)])
  | .kmovRead _ k => some (0x0B, 4, packW [(4, k.toNat), (12, 0), (2, 2)])
  | .shflIdx _ k o => some (0x0C, 0, shflWord k o)
  | .shflUp _ k o => some (0x0C, 1, shflWord k o)
  | .shflDown _ k o => some (0x0C, 2, shflWord k o)
  | .shflXor _ k o => some (0x0C, 3, shflWord k o)
  | .voteAny _ k pv pvn pd => some (0x0C, 4, packW [(4, k.toNat), (4, 0), (3, pv.toNat), (1, b2n pvn), (3, pd.toNat)])
  | .voteAll _ k pv pvn pd => some (0x0C, 5, packW [(4, k.toNat), (4, 0), (3, pv.toNat), (1, b2n pvn), (3, pd.toNat)])
  | .voteBallot _ k pv pvn => some (0x0C, 6, packW [(4, k.toNat), (4, 0), (3, pv.toNat), (1, b2n pvn)])
  | .redux _ k op => some (0x0C, 7, packW [(4, k.toNat), (4, op.code)])
  | .reduxSet _ set op => some (0x0C, 7, packW [(4, 0), (4, op.code), (8, 0), (1, 1), (8, set.toNat)])
  | .scan _ k op e => some (0x0C, 8, packW [(4, k.toNat), (4, op.code), (17, 0), (1, b2n e)])
  | .bcast _ k o => some (0x0C, 9, shflWord k o)
  | .bar _ ph scp => some (0x0D, 0, synWord 0 0 ph scp)
  | .sbar _ set ph scp => some (0x0D, 1, synWord 0 set.toNat ph scp)
  | .rinit _ pt => some (0x0D, 2, packW [(5, pt.toNat)])
  | .rarrive _ pt ph scp => some (0x0D, 3, synWord pt.toNat 0 ph scp)
  | .rwait _ pt ph scp => some (0x0D, 4, synWord pt.toNat 0 ph scp)
  | .rtest _ pt pd => some (0x0D, 5, packW [(5, pt.toNat), (14, 0), (3, pd.toNat)])
  | .spawn _ dw node => some (0x0E, 0, packW [(20, dw.toNat), (1, b2n node)])
  | .fetch _ pd => some (0x0E, 1, packW [(3, pd.toNat)])
  | .launch _ => some (0x0E, 2, 0)
  | .rgive _ c => some (0x0E, 3, packW [(8, c.toNat)])
  | .rclaim _ c => some (0x0E, 4, packW [(8, c.toNat)])
  | .resid _ self => some (0x0F, 0, packW [(1, b2n self)])
  | .residm _ => some (0x0F, 1, 0)
  | .brkdone _ => some (0x0F, 2, 0)
  | .ldit _ => some (0x0F, 3, 0)
  | .brkinfo _ f => some (0x0F, 4, packW [(3, f.code)])
  | .ldl _ o => some (0x10, 0, packW [(24, o.toNat)])
  | .stl _ o => some (0x10, 1, packW [(24, o.toNat)])
  | .ldc _ o => some (0x10, 2, packW [(24, o.toNat)])
  | .stc _ o => some (0x10, 3, packW [(24, o.toNat)])
  | .ldd _ o => some (0x10, 4, packW [(24, o.toNat)])
  | .std _ o => some (0x10, 5, packW [(24, o.toNat)])
  | .tmov _ x => some (0x10, 6, packW [(2, x.dlv.code), (2, x.slv.code), (14, x.dstr.toNat), (14, x.sstr.toNat)])
  | .owngive _ tk => some (0x11, 0, packW [(2, tk.code)])
  | .owntake _ tk w => some (0x11, 1, packW [(2, tk.code), (1, b2n w)])
  | .ownshare _ => some (0x11, 2, 0)
  | .talloc _ hn => some (0x12, 0, packW [(6, hn.toNat)])
  | .tload _ hn lv => some (0x12, 1, packW [(6, hn.toNat), (2, lv.code)])
  | .tstore _ hn lv => some (0x12, 2, packW [(6, hn.toNat), (2, lv.code)])
  | .tgive _ hn => some (0x12, 3, packW [(6, hn.toNat)])
  | .ttake _ hn => some (0x12, 4, packW [(6, hn.toNat)])
  | .tfree _ hn => some (0x12, 5, packW [(6, hn.toNat)])
  | .phase _ scp => some (0x13, 0, packW [(2, scp.code)])
  | .fence _ => some (0x13, 1, 0)
  | .qcfg _ q => some (0x14, 0, packW [(3, q.toNat)])
  | .qstat _ q => some (0x14, 1, packW [(3, q.toNat)])
  | .push _ q => some (0x14, 2, packW [(3, q.toNat)])
  | .pop _ q => some (0x14, 3, packW [(3, q.toNat)])
  | .gnode _ => some (0x15, 0, 0)
  | .garm _ => some (0x15, 1, 0)
  | .garmSig _ => some (0x15, 1, 1)
  | .garmFree _ => some (0x15, 1, 2)
  | .gwait _ => some (0x15, 2, 0)
  | .gtest _ pd => some (0x15, 3, packW [(3, pd.toNat)])
  | .shadowNew _ => some (0x15, 4, 0)
  | .shadowAddr _ => some (0x15, 4, 1)
  | .shadowFree _ => some (0x15, 4, 2)
  | .publish _ => some (0x15, 5, 0)
  | .mloop _ x => some (0x16, 0, packW [(6, x.hc.toNat), (1, b2n x.ask), (6, x.ha.toNat), (1, b2n x.bsk), (6, x.hb.toNat),
      (1, b2n x.mp), (1, b2n x.msk), (6, x.hm.toNat)])
  | .mzero _ hn => some (0x16, 1, packW [(6, hn.toNat)])
  | .mread _ x => some (0x16, 2, packW [(6, x.h.toNat), (1, b2n x.dk), (6, x.hd.toNat), (2, x.lv.code)])
  | .mcvt _ x => some (0x16, 3, packW [(6, x.hs.toNat), (6, x.hd.toNat), (1, b2n x.sc), (6, x.hr.toNat)])
  | .mgate _ x => some (0x16, 4, packW [(6, x.h.toNat), (8, x.set.toNat), (3, x.pd.toNat), (1, b2n x.wen)])
  | .region _ => some (0x17, 0, 0)
  | .trapretFix _ => some (0x17, 1, 0)
  | .trapretSkip _ => some (0x17, 1, 1)
  | .trapretRetry _ => some (0x17, 1, 2)
  | .trapretKill _ => some (0x17, 1, 3)
  | .rdtrap _ => some (0x17, 2, 0)
  | .wrtrap _ => some (0x17, 3, 0)
  | .pgreq _ => some (0x17, 4, 0)
  | .bkpt _ c => some (0x18, 0, packW [(16, c.toNat)])
  | .cntrd _ x => some (0x18, 1, x.word)
  | .cntwr _ x => some (0x18, 2, x.word)
  | _ => none

/-- Word 0 (R37). -/
def word0 (len maj : Nat) (d a b : Operand) : Word := packW [(2, len), (6, maj), (8, d.code), (8, a.code), (8, b.code)]

/-- Word 1 (R43). -/
def word1 (min : Nat) (h : Hdr) : Word :=
  packW [(10, min), (8, h.c.code), (4, h.pred.code), (5, h.ty.code), (3, h.rnd.code), (1, b2n h.sat)]

/-- The literal's two words, the low one first (R12). -/
def literalWords : Option DWord → List Word
  | none => []
  | some l => [BitVec.ofNat 32 l.toNat, BitVec.ofNat 32 (l.toNat / 2 ^ 32)]

/-- The words of a well-formed instruction; `none` for an event. -/
def encode (i : Instr) : Option (List Word) :=
  match shortMaj i, i.hdr?, longParts i with
  | some (maj, f), _, _ => some (word0 (if f.lit.isSome then 2 else 0) maj f.d f.a f.b :: literalWords f.lit)
  | none, some h, some (maj, min, w2) =>
    some (word0 (if h.lit.isSome then 3 else 1) maj h.d h.a h.b :: word1 min h :: w2 :: literalWords h.lit)
  | _, _, _ => none

/-- An instruction's length in bytes (R38). -/
def Instr.bytes (i : Instr) : Nat :=
  match i.hdr?, i.short? with
  | some h, _ => if h.lit.isSome then 20 else 12
  | none, some f => if f.lit.isSome then 12 else 4
  | none, none => 0

end Sys2Proof
end

