-- ==== Sys2Proof/Config.lean ====
section
/-! DEFINITION. What an implementation fixes and the free values: constants without a body, so that no proof can see
what they are (log entries 1, 14 to 20). -/

namespace Sys2Proof.Config

/-- A free choice among alternatives that the spec leaves open: which value a racing load shows (R255), which loose value
a byte holds (R19, R210). Applied to the counter `State.freeCtr`. (DESIGN CHOICE, log entry 1) -/
opaque pick : Nat → Nat

/-- A free choice for one of many bytes that are drawn together: by the counter and the byte's place, so that no two draws
and no two bytes are related. (DESIGN CHOICE, log entry 1) -/
opaque pick2 : Nat → Nat → Nat

/-- A loose value of 64 bits (R19), by the counter. -/
opaque loose : Nat → DWord

/-- A loose byte (R19), by the counter and the byte's place. (DESIGN CHOICE, log entry 14) -/
opaque looseByte : Nat → Nat → Byte

/-- How many nanoseconds of device time one cycle of the picker takes (R2: 600 MHz, R379: clocks may be lowered).
(DESIGN CHOICE, log entry 15) -/
opaque tick : Nat → Nat

/-- The pattern that this implementation returns for a special function, by function number and input (R107). It is used
only where it lies within the bound of R107. (DESIGN CHOICE, log entry 16) -/
opaque sfu : Nat → Word → Word

/-- The seed of the sampling LFSR of a picker, "from the configuration" (R282), by die and site.
(DESIGN CHOICE, log entry 17) -/
opaque lfsrSeed : Nat → Nat → BitVec 16

/-- The tiles of the frame OBU that an encode engine writes for a frame, after its header, by what the session has taken in up to it (R305: the
engine's decisions are not exposed, and equal inputs and records give equal bitstreams). (A free value: log entry 18) -/
opaque encodeUnit : List Byte → List Byte

/-- Fields of a sequence header that R305 leaves to the engine, by the session's configure record and the field.
(A free value: log entry 18) -/
opaque seqField : List Byte → Nat → Nat

/-- base_q_idx that the rate control of a VBR session chooses (R307), by what the session has taken in. (A free value: log entry 18) -/
opaque encodeQ : List Byte → Byte

/-- Byte `i` of an attestation report's digests and signature (R378), by the counter. (DESIGN CHOICE, log entry 19) -/
opaque attest : Nat → Nat → Byte

/-- Byte `i` of the SHAKE256 digest of a firmware image (R378), by the image. (DESIGN CHOICE, log entry 19) -/
opaque imageDigest : Nat → Nat → Byte

/-- What a byte encrypted under another key reads as (R377), by the counter and its location. (DESIGN CHOICE, log entry 19) -/
opaque cipher : Nat → Nat → Byte

/-- The timing fields of a sample record (R282): cycles of a stage, by the counter. -/
opaque stageCycles : Nat → Nat

/-- Register-space lines that come into a core's register cache as a group issues (R221, R284), by the cycle and the core.
(DESIGN CHOICE, log entry 139) -/
opaque lineFills : Nat → Nat → Nat

/-- How many 64-byte units above the start of its pages the driver places a data image (R36), by the counter; the model
takes it modulo 1,024. (DESIGN CHOICE, log entry 20) -/
opaque dataSkip : Nat → Nat

/-- Where the driver starts to look for an unmapped part of a context's address space (R25, R36), by context, and how many
pages it leaves free before a range it takes, by the counter. (DESIGN CHOICE, log entry 20) -/
opaque driverStart : Nat → Nat
opaque driverGap : Nat → Nat

/-- The fuses of each physical die (HARVEST, R364: "Fuses"); the model keeps the lowest three, since a die has at least 33 live
cores (R2). (DESIGN CHOICE, log entry 10) -/
opaque fuses : Nat → BitVec 36

end Sys2Proof.Config
end

