-- ==== Sys2Proof/Machine/State.lean ====
section
/-! DEFINITION. The state of the module: plain data, every piece of state the spec gives the machine (INVENTORY.md,
section State, lists each with its rule and its reset value). Records come into being with a launch, a context or a
placement; the defaults of their fields are the values the spec gives them then. -/

namespace Sys2Proof.Machine

/-- A finite table by key. A key occurs once (`Tab.wf`, Machine/Table.lean). -/
abbrev Tab (κ α : Type) := List (κ × α)

/-! ## Memory and its order -/

/-- An agent of global memory (R249). -/
inductive Agent where
  | wg (lid wg : Nat)
  | copy (die eng : Nat)
  | encode (die eng : Nat)
  | walker (die : Nat)
  | firmware
  | host
  | peer (n : Nat)
  deriving DecidableEq, Repr

/-- An agent and where it stood: what a scope around it contains depends on its die and cluster (R250). -/
structure AgentAt where
  ag : Agent := .firmware
  die : Option Nat := none
  clu : Option Nat := none
  deriving DecidableEq, Repr

/-- A completed release that carries a write: who released, at which scope, and when (R253, R254). -/
structure Pub where
  by_ : AgentAt
  scope : Scp
  stamp : Nat
  deriving DecidableEq, Repr

/-- A write in the modification order (R252): its place `seq`, the writer, the thread and the issue stamp of a thread's
write, its bytes (location, value before, value after), the keys that its sectors had before it (R377), and the releases that
carry it. `who` names, for bytes that an atomic carried (R93), every store that was staged to a byte, the newest first: the location,
the thread, the issue stamp and the store's own byte. -/
structure WriteRec where
  seq : Nat
  by_ : AgentAt
  thread : Option TRef := none
  stamp : Nat := 0
  bytes : List (Nat × Byte × Byte)
  who : List (Nat × TRef × Nat × Byte) := []
  tags : List (Nat × Option (Nat × Nat)) := []
  pubs : List Pub := []
  /-- the moment at which it entered, and whether it entered as an atomic or carried with one (R93, R256) -/
  entered : Nat := 0
  atom : Bool := false
  /-- when a swap first included it: from then on every reader of the published range has it (R259) -/
  swapped : Option Nat := none
  deriving DecidableEq, Repr

/-- An acquire (R254): by whom, at which scope, and when it began. -/
structure Acq where
  by_ : AgentAt := {}
  scope : Scp := .system
  stamp : Nat := 0
  /-- a read of a published range under it: it has what the swaps before it included (R259) -/
  pub : Bool := false
  deriving DecidableEq, Repr

/-- A release held until the turn of its unit opens (R267): its stamp, its scope, and the workgroup's last acquire before
it, which fixes what the release carries (R254); and the moment at which it began (R277). -/
structure HeldRel where
  stamp : Nat
  scope : Scp
  acq : Acq := {}
  cover : Nat := 0
  deriving DecidableEq, Repr

/-- A staged store (R251): issue stamp and order key (icount, gang position), thread, virtual address, bytes by location,
the stamp of the release held under R267 that covers it, and whether it is a handler entry that a save wrote (R118), which no
digest and no journal takes in. -/
structure Staged where
  stamp : Nat
  icount : Nat := 0
  thread : TRef
  va : DWord
  bytes : List (Nat × Byte)
  held : Option Nat := none
  quiet : Bool := false
  deriving DecidableEq, Repr

/-! ## Threads and waves -/

/-- A handler entry (R116). The check word is computed when the record is written. -/
structure HEntry where
  eid : BitVec 12 := 0
  many : Bool := false
  run : Bool := false
  act : Bool := false
  hpc : BitVec 20 := 0
  xpc : BitVec 20 := 0
  hsp : BitVec 52 := 0
  gen : BitVec 12 := 0
  psp : BitVec 52 := 0
  rpc : BitVec 20 := 0
  deriving DecidableEq, Repr

/-- A wave entry of a watchdog trap (R357). -/
structure WaveEntry where
  name : TRef
  tid : Nat
  pc : Nat
  state : Nat
  live : Nat
  deriving DecidableEq, Repr

/-- A trap record (R333) with its wave entries (R357) and, for a deferred fault, the handles that the stopped loop named
(R316). -/
structure TrapRec where
  code : FaultCode
  def_ : Bool := false
  asy : Bool := false
  fpc : Nat := 0
  rpc : Nat := 0
  mask : DWord := 0
  det0 : Word := 0
  det1 : Word := 0
  det2 : Word := 0
  det3 : Word := 0
  tseq : Nat := 0
  entries : List WaveEntry := []
  /-- of a deferred step fault: the HC and the source handles of the stopped loop -/
  names : List Nat := []
  deriving DecidableEq, Repr

/-- The level-1 bank (R327). -/
structure Bank where
  v : Vector Word 16 := Vector.replicate 16 0
  p : BitVec 8 := 1
  w63 : DWord := 0
  deriving DecidableEq, Repr

/-- What a thread waits for (R135). The operands a wait needs stand in it. -/
inductive Wait where
  | none
  /-- arrived at rejoin mask k (R154) -/
  | mask (k : Nat)
  /-- arrived at a set reduction (R162) -/
  | setRedux (set : Nat)
  | bar
  | sbar (set : Nat)
  /-- RARRIVE held for INIT: the point and the destination (R167) -/
  | rarrive (pt : Nat) (dst : Operand)
  | rwait (pt : Nat) (par : Bool) (ph : Bool) (scp : Scp)
  /-- RTEST in deterministic scheduling mode (R275) -/
  | rtest (pt : Nat) (par : Bool) (pd : Nat)
  /-- arrived at an MMA collective (R312) -/
  | mma (set : Nat)
  | gwait (id : Word) (dst : Operand)
  /-- GTEST in deterministic scheduling mode (R275) -/
  | gtest (id : Word) (pd : Nat)
  /-- a group's PUSH or POP (R243): `bytes` the element still to be moved (empty once it has), `moved`; `grp` the threads that
  go on together, in slot order -/
  | push (q : Nat) (bytes : List Byte) (grp : List TRef)
  | pop (q : Nat) (dst : Nat) (moved : Bool) (grp : List TRef)
  /-- OWNTAKE (R236): the buffer, the kind, whether a reclaim drains; and the thread before it in slot order that waits in its
  OWNTAKE, if the loop of R236 has not come to this one -/
  | owntake (buf : Nat) (tk : Tk) (draining : Bool) (behind : Option TRef)
  | talloc (h : Nat) (shape : Word)
  | ttake (h : Nat)
  | rclaim (cnt : Nat)
  /-- a PHASE release in progress (R253) -/
  | release (id : Nat)
  /-- a page walk (R351) -/
  | walk (page : Nat)
  /-- TRAPRET RETRY (R339) -/
  | retry (ticket : Nat)
  /-- an atomic, or a held release, before its unit's turn (R267, R268) -/
  | turn
  /-- a write to a retired published version (R261) -/
  | shadow (entry : Nat)
  deriving DecidableEq, Repr

/-- A thread (R22). -/
structure Thread where
  v : Vector Word 128 := Vector.replicate 128 0
  p : BitVec 8 := 1
  pc : Nat := 0
  level : Nat := 0
  bank : Bank := {}
  icount : Nat := 0
  re : Nat := 0
  gen : BitVec 12 := 0
  /-- the held handler entries, the top first (R118) -/
  held : List HEntry := []
  /-- the addresses of the deeper records in memory, the topmost first (R118) -/
  deep : List DWord := []
  sig : DWord := 0
  ended : Bool := false
  endPc : Nat := 0
  last : Nat := 0
  wait : Wait := .none
  /-- the length of the waiting instruction, and whether it is a region boundary (R328) -/
  wlen : Nat := 0
  wbound : Bool := false
  /-- a precise fault that stops the thread before its instruction, not yet entered (R331) -/
  trap : Option TrapRec := none
  /-- an asynchronous fault pending (R331) -/
  async : Option TrapRec := none
  /-- deferred step faults of loops the thread started (R316) -/
  deferred : List TrapRec := []
  /-- the record being handled at level 1, and the trap slot that holds it (R332, R335) -/
  handling : Option TrapRec := none
  slot : Option Nat := none
  tseq : Nat := 0
  /-- the ticket of the latest PGREQ (R338) -/
  ticket : Option Nat := none
  /-- a faulting walk reported to this thread: the page and DET2's level and malformed bits (R350, R351) -/
  walkFault : Option (Nat × Nat) := none
  halted : Bool := false
  /-- the base B and the size S of the stack region (R25) -/
  stackB : DWord := 0
  stackS : Nat := 0
  deriving DecidableEq, Repr

/-- The record of a pending collective at a mask (R153): the PC and the form of the first arrival, and the values and
predicate of each arrived lane. -/
structure CollRec where
  pc : Nat
  instr : Instr
  vals : List (Nat × DWord × DWord × Bool)
  deriving DecidableEq, Repr

/-- A rejoin mask (R153). -/
structure Mask where
  enr : DWord := 0
  arr : DWord := 0
  rec_ : Option CollRec := none
  deriving DecidableEq, Repr

/-- A wave: its register count c (R187), role (R139), sticky flags (R27), s registers (R24) and rejoin masks (R153). -/
structure Wave where
  c : Nat := 0
  role : Nat := 0
  fp : BitVec 7 := 0
  s : Vector Word 64 := Vector.replicate 64 0
  k : Vector Mask 16 := Vector.replicate 16 {}
  deriving DecidableEq, Repr

/-! ## Workgroups -/

/-- Bytes of a scratch store by offset, in rising order; an offset that is not listed has never been written. -/
abbrev Scratch := List Host.Cell

/-- A queue of a workgroup (R220, R242): its control word, the elements held, the oldest first, and whether an endpoint
transfer is in flight. -/
structure Queue where
  cw : DWord := 0
  elems : List (List Byte) := []
  /-- when each element was pushed, kept for an encode engine's queue (R307) -/
  pushed : List Nat := []
  xfer : Bool := false
  deriving DecidableEq, Repr

/-- State of a handle (R223). -/
inductive HState where
  | dead | live | given
  deriving DecidableEq, Repr

/-- The loop state kept with an accumulator (R317). -/
structure LoopSt where
  fmtw : Word := 0
  loopw : Word := 0
  w2 : Word := 0
  block : List Word := [0, 0, 0, 0, 0, 0, 0, 0, 0]
  kdone : Nat := 0
  run : Bool := false
  flt : Bool := false
  skip : Bool := false
  deriving DecidableEq, Repr

/-- A handle (R223) with its loop state (R317). PW and PR are kept by the slot's pending operations. -/
structure Handle where
  st : HState := .dead
  hold : Nat := 0
  target : Nat := 0
  ever : Bool := false
  shape : Word := 0
  slot : Nat := 0
  pw : Bool := false
  pr : Bool := false
  ls : LoopSt := {}
  deriving DecidableEq, Repr

/-- A tile slot (R224): bound to a handle, draining or free, with its 16 KiB of contents. -/
structure Slot where
  bound : Option Nat := none
  drain : Bool := false
  bytes : Scratch := []
  deriving DecidableEq, Repr

/-- A TMOV, TLOAD or TSTORE that runs on after issue (R232, R239). `dst` and `src` are resolved scratch places. -/
inductive Place where
  /-- private core scratch of a workgroup; its core buffers lie in it (R211) -/
  | core (lid wg : Nat)
  /-- a cluster or die buffer of a die -/
  | buf (die id : Nat)
  /-- a tile slot -/
  | slot (lid wg n : Nat)
  deriving DecidableEq, Repr

/-- A copy between two places: `rows` rows of `rlen` bytes with their pitches. -/
structure Move where
  thread : TRef
  dst : Place
  dOff : Nat
  dPitch : Nat
  src : Place
  sOff : Nat
  sPitch : Nat
  rlen : Nat
  rows : Nat
  deriving DecidableEq, Repr

/-- A running TLOAD or TSTORE: the handle and slot at issue (R225), and the copy. -/
structure TileOp where
  load : Bool
  h : Nat
  slot : Nat
  mv : Move
  /-- when it issued: the place in the handle order (R225) -/
  stamp : Nat
  deriving DecidableEq, Repr

/-- Where a workgroup stands. -/
inductive WgSt where
  | prefetched | running | preempted | ended
  deriving DecidableEq, Repr

/-- What a contribution does to its brick (R192, R194). -/
inductive ContribKind where
  | add | done
  deriving DecidableEq, Repr

/-- A contribution (R192): the program's launch, the brick id, the magnitude; `inp` the input sequence it belongs to. -/
structure Contrib where
  prog : Nat
  brick : Nat
  m : Word
  kind : ContribKind := .add
  inp : Option DWord := none
  deriving DecidableEq, Repr

/-- State of a buffer (R213). -/
inductive BufState where
  | free | held | given | shared
  deriving DecidableEq, Repr

/-- Holder of a buffer (R212). -/
inductive Holder where
  | none
  | wg (lid wg : Nat)
  | core (site : Nat)
  | copy (eng : Nat)
  | encode (eng : Nat)
  | matrix (site : Nat)
  | queueUnit
  deriving DecidableEq, Repr

/-- A buffer, R211: SIZE, BASE, LVL, ST, CTX, CLU, PIN, HK with HOLD, TO; the launch or session it belongs to (R213), and
its bytes. For a core buffer `base` is its offset in the private core scratch, and the bytes stand there. -/
structure Buffer where
  size : Nat := 0
  base : Nat := 0
  lvl : Lvl := .die
  st : BufState := .free
  ctx : Nat := 0
  clu : Nat := 0
  pin : Bool := false
  hold : Holder := .none
  target : Holder := .none
  lid : Option Nat := none
  session : Option DWord := none
  /-- the cluster whose workgroups a SHARED buffer admits (R214), and the launch -/
  shLid : Nat := 0
  shClu : Nat := 0
  bytes : Scratch := []
  deriving DecidableEq, Repr

/-- A SPAWN of a thread: its icount and %tid, how many children, their entry, argument and node (R183, R269). -/
structure Spawn where
  icount : Nat
  tid : Nat
  n : Nat
  entry : Nat
  arg : Word
  node : Option Word
  deriving DecidableEq, Repr

/-- A workgroup, which a task or a standing update is too. -/
structure Wg where
  st : WgSt := .prefetched
  die : Nat := 0
  site : Nat := 0
  /-- the unit (gang or single workgroup) it belongs to, and its position there -/
  inst : Nat := 0
  pos : Nat := 0
  /-- the logical numbers of its core and die (R26, R379, R381) -/
  lcore : Nat := 0
  ldie : Nat := 0
  /-- the rotation point of its core, saved with it (R276) -/
  rotAt : Option (Nat × Nat) := none
  /-- the cycle of its placement, and its place in the order of placements (R136, R178) -/
  placed : Nat := 0
  order : Nat := 0
  entry : Nat := 0
  /-- v0 and v1 of a task at its start (R183, R292) -/
  arg0 : Word := 0
  arg1 : Word := 0
  /-- barrier arrivals of the generation in progress, with the scope of a `.phase` arrival (R165) -/
  bar : List (TRef × Option Scp) := []
  barGen : Nat := 0
  pool : Nat := 0
  /-- waves that wait in RCLAIM, in the order in which they began to wait (R187) -/
  claims : List TRef := []
  staging : List Staged := []
  /-- releases held before the unit's turn, the oldest first (R267) -/
  heldRels : List HeldRel := []
  acq : Acq := {}
  /-- the version of each publish entry that was current at the last acquire (R259) -/
  sel : Tab Nat Bool := []
  core : Scratch := []
  /-- the byte values that earlier workgroups had left in the core's memory when this one was placed there (R210) -/
  left : List Byte := []
  /-- which of its launch's stack slots the workgroup has (R25) -/
  stackSlot : Nat := 0
  coreBufs : Tab Nat Buffer := []
  q : Vector Queue 8 := Vector.replicate 8 {}
  h : Vector Handle 64 := Vector.replicate 64 {}
  slots : Tab Nat Slot := []
  mgateSeq : Nat := 0
  digest : DWord := 0
  depth : Nat := 0
  /-- graph node, with its die, that the task counts for, or whose work it is (R184, R294) -/
  node : Option (Nat × Word) := none
  nodeWork : Option (Nat × Word) := none
  brick : Option Nat := none
  inseq : DWord := 0
  brkDone : Bool := false
  /-- contributions held until the update ends (R270) -/
  held : List Contrib := []
  /-- SPAWNs whose children are created at the close of the turn (R269) -/
  spawns : List Spawn := []
  killed : Bool := false
  deriving DecidableEq, Repr

/-- A rendezvous point (R166) with its watchdog (R168). -/
structure Point where
  count : Nat := 0
  init : Bool := false
  par : Bool := false
  arrived : Nat := 0
  /-- device time that the watchdog has counted, and the time up to which it has counted -/
  wd : Nat := 0
  deriving DecidableEq, Repr

/-- The gate latch (R324). -/
inductive Latch where
  | none | exact | skip
  deriving DecidableEq, Repr

/-- An arrival at a set collective: the thread, its predicate, and the values A and B it recorded. -/
structure SetArr where
  thread : TRef
  pred : Bool
  a : DWord
  b : DWord
  deriving DecidableEq, Repr

/-- One instance of a set (R146): the latch, the pending collective (REDUX.set, MLOOP or MGATE) and the SBAR arrivals. -/
structure SetSt where
  latch : Latch := .none
  pc : Nat := 0
  instr : Option Instr := none
  arr : List SetArr := []
  sbar : List (TRef × Option Scp) := []
  deriving DecidableEq, Repr

/-- A unit (R172): a gang or a single workgroup. -/
structure Inst where
  members : List Nat := []
  gang : Bool := false
  points : Vector Point 24 := Vector.replicate 24 {}
  sets : Tab Nat SetSt := []
  ended : Bool := false
  lost : Bool := false
  restarted : Bool := false
  /-- ending by KILL: the workgroup whose thread was first (R358) -/
  killer : Option Nat := none
  /-- ended by GANG_LOST of a soft error (R344) -/
  softLost : Bool := false
  /-- the end release of every member has completed (R257) -/
  released : Bool := false
  deriving DecidableEq, Repr

/-! ## Launches -/

inductive Kind where
  | grid | task | standing
  deriving DecidableEq, Repr

/-- A pending unit in the bank of a die's queue unit (R172): its index, and the entry, depth and arguments of a task; a
unit that stands pre-empted is pending again. -/
structure Pending where
  idx : Nat
  entry : Nat := 0
  depth : Nat := 0
  v0 : Word := 0
  v1 : Word := 0
  node : Option (Nat × Word) := none
  nodeWork : Option (Nat × Word) := none
  preempted : Bool := false
  /-- the core on which U takes the first prefetch entry freed (R179) -/
  core : Option (Nat × Nat) := none
  /-- since when the unit stands first in order at its level (R175) -/
  first : Option DWord := none
  deriving DecidableEq, Repr

/-- Status codes of R369. -/
inductive Status where
  | ok | unknownMandatory | badPacket | badObject | missingFeature | badShape | tooLarge | taskLimit | badSession | busy
  | staleInput | badBrick | journalFull | digestMismatch | fault | doubleFault | notAdmin | noContext | badPacketTarget
  deriving DecidableEq, Repr

/-- A brick record (R190). -/
structure Brick where
  res : Word := 0
  lastRes : Word := 0
  dRes : Word := 0
  stamp : DWord := 0
  st : Nat := 1
  mcnt : Nat := 0
  moff : Nat := 0
  data : DWord := 0
  deriving DecidableEq, Repr

/-- A standing program's state on one die of its domain: bricks, mortar area and its buffer, stamp counter, pop count,
iterate entry, absorbed sequence (R190, R196, R197, R200, R205). -/
structure ProgDie where
  die : Nat
  bricks : List Brick := []
  mortar : List Word := []
  mortarBuf : Nat := 0
  stamp : DWord := 0
  pops : Nat := 0
  iter : Option Word := none
  iseq : DWord := 0
  /-- since when its next update stands first in order at its level on the die, and the site that pre-emption chose there for it
  (R175, R179) -/
  first : Option DWord := none
  core : Option Nat := none
  deriving DecidableEq, Repr

/-- An input being applied (R197): its sequence, and whether its payload and contributions have been sent. -/
structure Input where
  seq : DWord
  q : Option Nat := none
  pkt : Nat := 0
  deriving DecidableEq, Repr

/-- The standing part of a launch (R189 to R201, R383). -/
structure Prog where
  slot : Nat := 0
  rfmt : Nat := 0
  sum : Bool := false
  tau : Word := 0
  epb : Nat := 1
  state : Nat := 0
  dies : List ProgDie := []
  convRec : DWord := 0
  convNode : Option Word := none
  lastSeq : DWord := 0
  updates : DWord := 0
  noclose : Bool := false
  rseq : Nat := 0
  quiescent : Bool := false
  /-- the records of changes to quiescence that have been found and are not yet written, oldest first (R198) -/
  due : List (List Byte) := []
  inputs : List Input := []
  /-- the STANDING_STOP packet that stops it: queue and packet index -/
  stopPkt : Option (Nat × Nat) := none
  deriving DecidableEq, Repr

/-- The kernel header's fields that a launch uses (R32). -/
structure Header where
  features : BitVec 128 := 1
  codesz : Nat := 4
  entry : Nat := 0
  width : Nat := 32
  regs : Nat := 2
  tiles : Nat := 0
  argw : Nat := 0
  cscratch : Nat := 0
  stack : Nat := 1024
  datasz : Nat := 0
  sectab : Nat := 64
  deriving DecidableEq, Repr

/-- A global access kept for race reports (R277): its moment, thread, PC, kind (0 load, 1 store, 2 atomic), its address, and the
locations of its bytes, which the addresses of a published range and of its version share (R259). -/
structure Access where
  stamp : Nat
  thread : TRef
  /-- the engine that made it for the thread's workgroup, if one did -/
  eng : Option Agent := none
  pc : Nat
  kind : Nat
  va : DWord
  locs : List Nat
  deriving DecidableEq, Repr

/-- A release or an acquire kept for race reports (R277): its scope, the moment of its completion, and for a release the moment
at which it began: what was accessed before that it covers (R253). A release held before its unit's turn (R267) is kept twice: as
it is held it reaches the members `unit` of its launch alone, whose loads see what it holds; and as it enters the order, `after` the
moment of the first, every agent. -/
structure SyncEv where
  rel : Bool
  by_ : AgentAt
  scope : Scp
  stamp : Nat
  cover : Nat := 0
  unit : Option (Nat × List Nat) := none
  after : Option Nat := none
  deriving DecidableEq, Repr

/-- A launch (R171, R368, R370). -/
structure Launch where
  ctx : Nat := 0
  kind : Kind := .grid
  /-- the queue whose packet it is, with the packet's index; none for the LAUNCH instruction (R186) -/
  queue : Option (Nat × Nat) := none
  code : List Word := []
  hdr : Header := {}
  /-- the context's trap image as staged with the launch: its code and ENTRY (R327) -/
  trapCode : Option (List Word) := none
  trapEntry : Nat := 0
  data : DWord := 0
  args : List Word := []
  /-- where the driver reserved the stack regions of the launch's threads (R25) -/
  stackVa : DWord := 0
  -- parameters of R171
  count : Nat := 1
  waves : Nat := 1
  gang : Nat := 0
  roles : List Nat := []
  sets : Tab Nat (List Nat) := []
  queues : List (Nat × DWord) := []
  level : Nat := 6
  dline : Option DWord := none
  reserve : Nat := 0
  prod : List Nat := []
  depmode : Nat := 0
  mode : Nat := 0
  dx : Nat := 1
  dy : Nat := 1
  dz : Nat := 1
  det : Nat := 0
  restart : Bool := false
  stack : Nat := 1024
  fpen : BitVec 7 := 0
  gateLo : Word := 0xFF800000
  gateHi : Word := 0xFF800000
  skipLog : Option (DWord × Nat) := none
  gateReplay : Option (DWord × Nat) := none
  prelogIn : List DWord := []
  digestIn : Option DWord := none
  journalSz : Nat := 0
  race : Option DWord := none
  trace : Option (DWord × Nat) := none
  record : Option DWord := none
  session : Option DWord := none
  /-- the dies of the domain, in increasing logical number (R363) -/
  domain : List Nat := []
  /-- the live cores of the domain, die-major, as they stood at acceptance: die and site (R181, R380) -/
  cores : List (Nat × Nat) := []
  /-- the logical dies with their logical cores as they stood at acceptance: the launch's names stay so (R363, R379) -/
  tables : List (Nat × List Nat) := []
  -- state
  /-- the order of acceptance (R173 step 5) -/
  accepted : Nat := 0
  acceptSeq : Nat := 0
  status : Status := .ok
  dispatchable : Bool := false
  ended : Bool := false
  recorded : Bool := false
  pending : List Pending := []
  nextTask : Nat := 0
  /-- its task indices have come to their limit (R183) -/
  limited : Bool := false
  /-- tiles handed out: the next in dynamic mode, and the count of each workgroup otherwise (R181) -/
  tileNext : Nat := 0
  tileOf : Tab Nat Nat := []
  -- determinism
  step : Nat := 1
  /-- the threads of the groups of the last step, each with the %icount, PC and level at which it was to issue -/
  inStep : List (TRef × Nat × Nat × Nat) := []
  stopped : Bool := false
  /-- units whose halt awaits the next step boundary (R285) -/
  haltDue : List Nat := []
  rot : Tab (Nat × Nat) (Nat × Nat) := []
  turn : Nat := 0
  prelog : List DWord := []
  prelogUsed : Nat := 0
  digests : Tab Nat DWord := []
  journal : List (DWord × List (Nat × Byte)) := []
  journalOn : Bool := false
  /-- a write found no room in the journal (R273) -/
  journalFull : Bool := false
  /-- where the journal lies in the save area: its first virtual address (R335) -/
  journalAt : DWord := 0
  /-- accesses for race reports (R277, R278), the latest first -/
  accesses : List Access := []
  serialRun : Bool := false
  /-- a debugger attached to the launch has armed breakpoint halts (R356) -/
  bkHalt : Bool := false
  -- standing
  prog : Option Prog := none
  -- record fields of R370
  dlmiss : Bool := false
  serial : Bool := false
  tstart : Option DWord := none
  killed : Nat := 0
  skips : Nat := 0
  loglost : Nat := 0
  logPos : Nat := 0
  engcode : Nat := 0
  engerr : Nat := 0
  digest : DWord := 0
  sdigest : DWord := 0
  pathsum : DWord := 0
  raceovf : Nat := 0
  racePos : Nat := 0
  tracePos : Nat := 0
  /-- FREC with FENT, 256 bytes, and FREC1, 64 bytes, as they were copied (R334, R345) -/
  frec : Option (List Byte) := none
  frec1 : Option (List Byte) := none
  deriving DecidableEq, Repr

/-! ## Contexts -/

/-- A paging ticket (R353). -/
structure Ticket where
  page : Nat
  done : Bool := false
  refused : Bool := false
  deriving DecidableEq, Repr

/-- An entry of the peer table (R376). -/
structure Peer where
  port : BitVec 12 := 0
  remote : BitVec 12 := 0
  mac : BitVec 48 := 0
  keyTag : BitVec 16 := 0
  deriving DecidableEq, Repr

/-- Pages of 64 KiB that the driver has mapped in a context of its own accord, writable and not supervisor-only: the stack
regions of a launch (R25), or the data image of an object (R36). -/
structure DriverMap where
  page : Nat
  pages : Nat
  lid : Option Nat := none
  deriving DecidableEq, Repr

/-- A kernel object as the driver loaded it (R32, R36): the locations and the bytes of its header, and the address of its
data image. -/
structure LoadedObj where
  locs : List Nat
  hdr : List Byte
  data : DWord := 0
  deriving DecidableEq, Repr

/-- A context (R327, R335, R349, R368). -/
structure Context where
  tableBase : DWord := 0
  regBase : DWord := 0
  /-- TRAPIMG, and what the driver read there when it created the context: the code and ENTRY (R327) -/
  trapImg : Option DWord := none
  trapCode : Option (List Word) := none
  trapEntry : Nat := 0
  twd : Nat := 27
  hold : Nat := 1048576
  sampleK : Nat := 8
  bufFirst : Nat := 1
  bufCount : Nat := 0
  pubFirst : Nat := 0
  pubCount : Nat := 0
  peers : Tab Nat Peer := []
  trapBase : DWord := 0
  tslots : Nat := 64
  /-- trap slots in use -/
  slots : List Nat := []
  saveBase : DWord := 0
  svsize : Nat := 0
  /-- bytes of the save area that journals use (R335) -/
  journals : Nat := 0
  key : Nat := 0
  drv : List DriverMap := []
  tickets : Tab Nat Ticket := []
  nextTicket : Nat := 1
  out : Bool := false
  /-- buffers saved while the context is switched out: die, id, record with contents (R219, R348) -/
  savedBufs : List (Nat × Nat × Buffer) := []
  sampleRing : List (List Byte) := []
  deriving DecidableEq, Repr

/-! ## Dies -/

/-- A pinned region (R218) with the contents saved while its context is switched out. -/
structure Pin where
  session : DWord
  ctx : Nat
  saved : Bool := false
  bufs : List Nat := []
  deriving DecidableEq, Repr

/-- An entry of the publish table (R302). CUR false is V0. -/
structure PubEnt where
  gen : Nat := 0
  pub : DWord
  v0 : DWord
  v1 : DWord
  size : Nat
  cur : Bool := false
  ctx : Nat
  swaps : Nat := 0
  wcmd : Nat := 0
  busy : Bool := false
  /-- the launch whose iterate entry it is, if one (R200) -/
  prog : Option Nat := none
  deriving DecidableEq, Repr

/-- State of a node (R290). -/
inductive NodeSt where
  | built | armed | fired | done
  deriving DecidableEq, Repr

/-- A graph node (R290): its descriptor as 16 words. COUNT is kept as an integer, so that no number of signals or children takes it out
of its range of 32 bits. (DESIGN CHOICE, log entry 144) -/
structure Node where
  gen : Nat := 0
  desc : List Word
  count : Int := 0
  st : NodeSt := .built
  fail : Bool := false
  ovr : Bool := false
  status : Nat := 0
  creator : Nat := 0
  cwg : Nat := 0
  fires : Nat := 0
  /-- the work of the firing in progress ended with this status -/
  workDone : Option Nat := none
  /-- a PUBLISH node whose PUBLISH is the one in progress at its entry (R260) -/
  publishing : Bool := false
  deriving DecidableEq, Repr

/-- An event counter (R283). -/
structure Counter where
  src : BitVec 12 := 0
  en : Bool := false
  ovf : Bool := false
  fl : Bool := false
  fr : Bool := false
  ctx : BitVec 12 := 0
  tidLo : BitVec 10 := 0
  tidHi : BitVec 10 := 0x3FF
  flaunch : DWord := 0
  wgLo : Word := 0
  wgHi : Word := 0xFFFFFFFF
  count : BitVec 48 := 0
  deriving DecidableEq, Repr

/-- A translation entry (R351): of the die, or of one core. -/
structure TlbEnt where
  core : Option Nat := none
  ctx : Nat
  /-- the first page of 64 KiB it maps and how many (1 or 4,096) -/
  page : Nat
  pages : Nat
  pa : Nat
  w : Bool
  s : Bool
  h : Bool
  deriving DecidableEq, Repr


/-- An issue group (R136): its threads in slot order, its level and its PC. -/
structure Group where
  threads : List TRef := []
  level : Nat := 0
  pc : Nat := 0
  deriving DecidableEq, Repr

/-- A walk in progress or queued (R351): the threads that joined it, and the issue groups that wait for it. -/
structure Walk where
  ctx : Nat
  page : Nat
  joined : List TRef
  groups : List Group := []
  deriving DecidableEq, Repr

/-- An engine command waiting or running (R298, R306): the record, who issued it, the status so far. -/
structure Cmd where
  rec_ : List Word
  ctx : Nat
  lid : Option Nat := none
  wg : Option Nat := none
  /-- the workgroup that pushed it has been taken away since, and another one has its name (R301) -/
  gone : Bool := false
  /-- the node whose work it is (R294) -/
  node : Option Word := none
  /-- the packet it came from (R368): queue and packet index -/
  packet : Option (Nat × Nat) := none
  fromNode : Bool := false
  started : Bool := false
  status : Nat := 0
  /-- buffers taken at the start (R300), and publish entries it writes or reads with the version (R260, R261) -/
  took : List Nat := []
  /-- SHARED buffers that it was admitted to read (R216, R300) -/
  reads : List Nat := []
  /-- when it was pushed or issued (R307); an encode command's superblock rows, and the plane bytes read so far (R346) -/
  stamp : Nat := 0
  rows : Nat := 0
  planes : List Byte := []
  pubW : List Nat := []
  pubR : List (Nat × Bool) := []
  /-- bytes copied so far (R346), and the places in the order of its writes that are not yet released -/
  done : Nat := 0
  wrote : List Nat := []
  /-- sequence numbers of its Gwetin Link frames still to be acknowledged: flow, sequence (R264); and the peer entry as it stood
  when the command started (R376) -/
  frames : List (Nat × Nat) := []
  peer : Option Peer := none
  acq : Acq := {}
  /-- bytes 4 to 15 of an encode command's status record (R307) -/
  stat : List Byte := []
  deriving DecidableEq, Repr

/-- An encode session (R306, R307). -/
structure Session where
  ctx : Nat
  lid : Option Nat := none
  w : Nat := 64
  h : Nat := 64
  bd : Bool := false
  vbr : Bool := false
  fps : Nat := 1
  tcol : Nat := 0
  qkey : BitVec 8 := 0
  qint : BitVec 8 := 0
  rate : Word := 0
  cap : Word := 0
  kint : Nat := 0
  frame : Nat := 0
  sinceKey : Nat := 0
  needKey : Bool := true
  /-- what the session has taken in: its records and the planes' bytes (R305) -/
  hist : List Byte := []
  deriving DecidableEq, Repr

/-- A loop of a core's matrix engine (R314): who started it, its own loop state (R317) and its slots. A loop that a step
fault has stopped (FLT) stays until it is restarted (R316). -/
structure Loop where
  lid : Nat
  wg : Nat
  inst : Nat
  set : Nat
  pc : Nat
  x : MloopX
  ls : LoopSt
  slotC : Nat
  slotA : Option Nat
  slotB : Option Nat
  slotM : Option Nat
  parts : List TRef
  stamp : Nat
  /-- restored or restarted while four loops run, it waits for a place (R310) -/
  wait : Bool := false
  /-- buffers that an OWNTAKE has taken back while the loop ran: its next step that reads one faults (R216, R382) -/
  lost : List Nat := []
  deriving DecidableEq, Repr

/-- A core site (R134, R281): slots occupied until a cycle, its counters, its sampling LFSR, the units in its prefetch
buffer, the matrix engine's loops in rotation, the byte values that ended workgroups left in its memory by context (R210). -/
structure Core where
  pipe0 : Nat := 0
  pipe1 : Nat := 0
  sfu : Nat := 0
  ctrs : Vector Counter 8 := Vector.replicate 8 {}
  lfsr : BitVec 16 := 1
  prefetch : List (Nat × Nat) := []
  loops : List Loop := []
  left : Tab Nat (List Byte) := []
  /-- the only unit the core accepts after the hold time (R175): its launch and its index, which a program's next update has none of
  yet -/
  only : Option (Nat × Option Nat) := none
  /-- the first group of the latest cycle: its lowest thread, PC, word 0, size and serving level; and when the next sampling interval begins
  (R282) -/
  lastGroup : Option (TRef × Nat × Word × Nat × Nat) := none
  sampleNext : Nat := 0
  /-- the same in steps, for each launch in deterministic scheduling mode -/
  stepNext : Tab Nat Nat := []
  /-- a miss has found the die's walk queue full: the memory slot takes nothing (R351) -/
  stalled : Bool := false
  deriving DecidableEq, Repr

/-- What a collector waits for (R347). -/
structure StopReq where
  /-- a unit (launch, unit index), or a whole context -/
  unit : Option (Nat × Nat) := none
  ctx : Option Nat := none
  waiting : List EngineKind := []
  /-- PREGRAN as it stood when the stop was requested (R346) -/
  cpyg : Nat := 4
  encg : Bool := false
  deriving DecidableEq, Repr

/-- A compute die. -/
structure Die where
  online : Bool := true
  /-- evacuated, and not yet returned (R379) -/
  away : Bool := false
  harvest : BitVec 36 := 0
  offline : BitVec 36 := 0
  rot : Vector Nat 12 := Vector.replicate 12 0
  bufs : Tab Nat Buffer := []
  pins : List Pin := []
  pubs : Tab Nat PubEnt := []
  pubGen : Tab Nat Nat := []
  nodes : Tab (Nat × Nat) Node := []
  nodeGen : Tab (Nat × Nat) Nat := []
  /-- signals on their way to nodes of the die: context, node id, failing (R293), and the stamp of the finish whose list of
  successors it belongs to, 0 for a signal by itself (R295) -/
  signals : List (Nat × Word × Bool × Nat) := []
  cpyg : Nat := 4
  encg : Bool := false
  ctrs : Vector Counter 16 := Vector.replicate 16 {}
  cores : Vector Core 36 := Vector.replicate 36 {}
  tlb : List TlbEnt := []
  walks : List Walk := []
  /-- commands issued to each copy engine by nodes and packets, and started ones (R288, R301) -/
  copyQ : Vector (List Cmd) 8 := Vector.replicate 8 []
  encQ : Vector (List Cmd) 2 := Vector.replicate 2 []
  /-- the queue that each engine took from last: launch, workgroup, queue (R288) -/
  copyRot : Vector (Option (Nat × Nat × Nat)) 8 := Vector.replicate 8 none
  encRot : Vector (Option (Nat × Nat × Nat)) 2 := Vector.replicate 2 none
  walkRot : Option (Nat × Nat × Nat) := none
  /-- by engine and session number together (4 × engine + SES), and context -/
  sessions : Tab (Nat × Nat) Session := []
  stops : List StopReq := []
  deriving DecidableEq, Repr

/-! ## Host queues, links, service -/

/-- A host queue's state kept by firmware (R367, R372): the current tail, the read index, the completion index, whether it
has stopped, and the packets not yet finished with whether they asked for a completion (R385). -/
structure HQueue where
  tail : Nat := 0
  rd : Nat := 0
  cpl : Nat := 0
  err : Bool := false
  /-- packets accepted but not finished: header index, header word -/
  open_ : List (Nat × Word) := []
  deriving DecidableEq, Repr

/-- A flow of Gwetin Link (R376): next sequence, first unacknowledged, frames sent and not acknowledged. -/
structure Flow where
  next : Nat := 0
  sent : List Frame := []
  deriving DecidableEq, Repr

/-- An outstanding special-function result of a thread (R110): the first v register it writes, the values of the
registers from there, and its flags. -/
structure Result where
  thread : TRef
  dst : Nat
  /-- the level the thread had at issue (which bank) -/
  level : Nat := 0
  vals : List Word
  flags : BitVec 7 := 0
  deriving DecidableEq, Repr

/-- An outstanding load (R21): global, with what R255 needs, or scratch with its value. -/
structure PendLoad where
  thread : TRef
  dst : Nat
  ty : Ty
  /-- the level the thread had at issue (which bank) -/
  level : Nat := 0
  /-- the read pieces: locations of their bytes (R91) -/
  pieces : List (List Nat) := []
  /-- a scratch load's bytes -/
  bytes : Option (List Byte) := none
  acq : Acq := {}
  stamp : Nat := 0
  startSeq : Nat := 0
  /-- the place that the order had reached at issue -/
  issueSeq : Nat := 0
  deriving DecidableEq, Repr

/-- A release in progress (R253): its number, the workgroup, scope and the threads that continue when it completes, and
whether an acquire follows. -/
structure Release where
  id : Nat
  lid : Nat
  wg : Nat
  scope : Scp
  /-- the stores it covers: those staged before it began -/
  stamp : Nat
  waiters : List TRef
  acquire : Bool
  deriving DecidableEq, Repr

/-- An INVAL request (R352, R373). -/
structure Inval where
  ctx : Nat
  page : Nat
  count : Nat
  /-- walks begun before it, still in flight: die, context, page -/
  walks : List (Nat × Nat × Nat)
  /-- the ticket that completes with it (R353) -/
  ticket : Option Nat := none
  deriving DecidableEq, Repr

/-- The state of the machine. -/
structure State where
  /-- the module has power (R3): the host brings it up -/
  power : Bool := false
  running : Bool := false
  lovf : Bool := false
  updating : Bool := false
  devfeat : BitVec 256 := 0xF000000000000000000000000000003FF
  drvfeat : BitVec 256 := 0
  qtbase : Nat := 0
  inval : List Inval := []
  invalDone : Nat := 0
  invalReg : DWord × DWord × DWord := (0, 0, 0)
  hdmBase : Nat := 0
  hdmCnt : Nat := 0
  /-- where the host sees the HDM-DB range (R374) -/
  hdmWin : Nat := 0x1000000000000
  latch : List (Nat × Nat) := []
  hqueues : Tab Nat HQueue := []
  now : DWord := 0
  cycle : Nat := 0
  nextLid : Nat := 1
  idGen : DWord := 0
  xmssLeaf : Nat := 0
  xmssTree : Nat := 0
  /-- the verified image that each of the twelve firmware cores runs, if one (R371, R378), and an update under way: the core
  that is out, the image, the features it offers (R379) -/
  fwImages : Vector (Option Nat) 12 := Vector.replicate 12 none
  fwOut : Option (Nat × Nat × BitVec 256) := none
  /-- a change of the identity page under way, while GEN is odd (R364, R379) -/
  change : Option (Instr × ExtIn) := none
  linksDown : List Nat := []
  linkResends : Nat := 0
  /-- the data frames that the ports have sent, the oldest first, those sent again included (R376) -/
  linkOut : List Frame := []
  irqs : List Nat := []
  /-- memory by location: HBM at its physical address, host memory from `hostBase` up (Machine/Mem.lean) -/
  mem : List Host.Cell := []
  order : List WriteRec := []
  /-- the next place in the modification order, and the next stamp of issue events -/
  nextSeq : Nat := 0
  stamp : Nat := 1
  /-- which key each HBM sector is encrypted under, and which of its bytes (bit i is byte i) were written under it: the others
  are lost (R377) -/
  keyTag : Tab Nat (Nat × Nat) := []
  nextKey : Nat := 1
  flows : Tab Nat Flow := []
  /-- the last acquire of each agent other than a workgroup: what its next release carries besides (R254) -/
  agentAcq : Tab Agent Acq := []
  dies : Vector Die 24 := Vector.replicate 24 {}
  hubCtrs : Vector Counter 16 := Vector.replicate 16 {}
  contexts : Tab Nat Context := []
  /-- the objects that the driver has loaded, by context and address (R32) -/
  objs : Tab (Nat × Nat) LoadedObj := []
  launches : Tab Nat Launch := []
  insts : Tab (Nat × Nat) Inst := []
  wgs : Tab (Nat × Nat) Wg := []
  waves : Tab (Nat × Nat × Nat) Wave := []
  threads : Tab TRef Thread := []
  loads : List PendLoad := []
  results : List Result := []
  moves : List Move := []
  tileOps : List (Nat × Nat × TileOp) := []
  /-- loops of pre-empted workgroups, saved at a K step (R317, R348) -/
  parked : List Loop := []
  releases : List Release := []
  contribs : List Contrib := []
  /-- synchronising operations kept for race reports (R277), the latest first -/
  sync : List SyncEv := []
  /-- the issue groups that stand ready to issue, the group that issues, the event data, and the schedule of events -/
  issueQ : List Group := []
  cur : Group := {}
  /-- the words of the instruction that issues: word 0 and word 1 for the detail words of R53 -/
  curW0 : Word := 0
  curW1 : Word := 0
  ext : ExtIn := {}
  agenda : List (Instr × ExtIn) := []
  /-- placements made so far (R178) -/
  placements : Nat := 0
  /-- the outcome of the debugger's latest write (R286): 1 PENDING, 2 REFUSED, 3 ACCEPTED; 0 before the first -/
  dbgOut : Nat := 0
  /-- the data of the host's latest read through its window; none where it was poisoned (R375) -/
  hostRd : Option (List Byte) := some []
  /-- H2D snoops answered so far, each with RspIHitI (R374) -/
  snoops : Nat := 0
  /-- answers sent to peers, the oldest first: acknowledgement or negative, flow, sequence (R376) -/
  peerOut : List (Bool × Nat × Nat) := []
  /-- the model's own: how many free values have been drawn -/
  freeCtr : Nat := 0
  deriving DecidableEq, Repr

/-- Why the machine stops. -/
inductive Fault where
  /-- A step of a module without power and with no event to come: nothing runs while the module is unpowered
  (00_scope.md, 23_dies_package_host_and_firmware.md). Raised by `step`. Safe: the module does nothing then. -/
  | unpowered
  deriving DecidableEq, Repr

/-- Why an instruction has no meaning. -/
inductive Refusal where
  /-- An instruction not modelled yet, by its mnemonic. Raised by `exec`. Safe. -/
  | notModelled (mnemonic : String)
  deriving DecidableEq, Repr

/-- The machine right after reset: power is off (R3, 00_scope.md), nothing is resident. What the manual gives no reset value is named
in the log (DESIGN CHOICE, log entries 2 to 13). -/
def State.reset : State := {}

end Sys2Proof.Machine
end

