-- ==== Sys2Proof/Machine/Table.lean ====
section
/-! DEFINITION. Finite tables by key, and the named accessors of the tables of `State`. -/

namespace Sys2Proof.Machine

variable {κ α : Type} [DecidableEq κ]

/-- The entry of key k. -/
def tget : Tab κ α → κ → Option α
  | [], _ => none
  | (k', a) :: t, k => if k' = k then some a else tget t k

/-- The table with a at key k: in its place, or at the end. -/
def tset : Tab κ α → κ → α → Tab κ α
  | [], k, a => [(k, a)]
  | (k', b) :: t, k, a => if k' = k then (k, a) :: t else (k', b) :: tset t k a

/-- The table with the entry of key k changed by f; no change where there is none. -/
def tupd : Tab κ α → κ → (α → α) → Tab κ α
  | [], _, _ => []
  | (k', b) :: t, k, f => if k' = k then (k', f b) :: t else (k', b) :: tupd t k f

def terase (t : Tab κ α) (k : κ) : Tab κ α := t.filter fun e => e.1 ≠ k

def tkeys (t : Tab κ α) : List κ := t.map Prod.fst

/-- Keys occur once. -/
def Tab.wf (t : Tab κ α) : Prop := (tkeys t).Nodup

/-- The element of a list at an index, changed. -/
def lupd (l : List α) (i : Nat) (f : α → α) : List α := l.mapIdx fun j a => if j = i then f a else a

/-- A vector's element, by a number that may lie outside. -/
def vget {n : Nat} (v : Vector α n) (d : α) (i : Nat) : α := if h : i < n then v[i] else d

def vset {n : Nat} (v : Vector α n) (i : Nat) (a : α) : Vector α n := if h : i < n then v.set i a else v

def vupd {n : Nat} (v : Vector α n) (i : Nat) (f : α → α) : Vector α n := if h : i < n then v.set i (f v[i]) else v

/-! ## Accessors -/

def State.thr (s : State) (t : TRef) : Thread := (tget s.threads t).getD {}

def State.setThr (s : State) (t : TRef) (th : Thread) : State := { s with threads := tset s.threads t th }

def State.updThr (s : State) (t : TRef) (f : Thread → Thread) : State := { s with threads := tupd s.threads t f }

/-- The wave of a thread. -/
def State.wave (s : State) (t : TRef) : Wave := (tget s.waves (t.lid, t.wg, t.wave)).getD {}

def State.updWave (s : State) (t : TRef) (f : Wave → Wave) : State :=
  { s with waves := tupd s.waves (t.lid, t.wg, t.wave) f }

def State.wg (s : State) (lid wg : Nat) : Wg := (tget s.wgs (lid, wg)).getD {}

def State.updWg (s : State) (lid wg : Nat) (f : Wg → Wg) : State := { s with wgs := tupd s.wgs (lid, wg) f }

def State.inst (s : State) (lid i : Nat) : Inst := (tget s.insts (lid, i)).getD {}

def State.updInst (s : State) (lid i : Nat) (f : Inst → Inst) : State := { s with insts := tupd s.insts (lid, i) f }

def State.launch (s : State) (lid : Nat) : Launch := (tget s.launches lid).getD {}

def State.updLaunch (s : State) (lid : Nat) (f : Launch → Launch) : State :=
  { s with launches := tupd s.launches lid f }

def State.ctx (s : State) (c : Nat) : Context := (tget s.contexts c).getD {}

def State.updCtx (s : State) (c : Nat) (f : Context → Context) : State := { s with contexts := tupd s.contexts c f }

def State.die (s : State) (d : Nat) : Die := vget s.dies {} d

def State.updDie (s : State) (d : Nat) (f : Die → Die) : State := { s with dies := vupd s.dies d f }

def State.core (s : State) (d site : Nat) : Core := vget (s.die d).cores {} site

def State.updCore (s : State) (d site : Nat) (f : Core → Core) : State :=
  s.updDie d fun x => { x with cores := vupd x.cores site f }

/-- The workgroup of a thread, its launch and its context. -/
def State.wgOf (s : State) (t : TRef) : Wg := s.wg t.lid t.wg

def State.launchOf (s : State) (t : TRef) : Launch := s.launch t.lid

def State.ctxOf (s : State) (t : TRef) : Nat := (s.launchOf t).ctx

/-- %tid (R132). -/
def State.tid (s : State) (t : TRef) : Nat := t.wave * (s.launchOf t).hdr.width + t.lane

/-- The threads of a workgroup, and those not ended, in the order of %tid. -/
def State.wgThreads (s : State) (lid wg : Nat) : List TRef :=
  (tkeys s.threads).filter fun t => t.lid = lid ∧ t.wg = wg

def State.live (s : State) (t : TRef) : Bool := !(s.thr t).ended

def State.wgLive (s : State) (lid wg : Nat) : List TRef := (s.wgThreads lid wg).filter s.live

def State.waveThreads (s : State) (t : TRef) : List TRef :=
  (tkeys s.threads).filter fun u => u.lid = t.lid ∧ u.wg = t.wg ∧ u.wave = t.wave

/-- A workgroup runs: it is placed, started and not pre-empted. -/
def State.runs (s : State) (lid wg : Nat) : Bool := (s.wg lid wg).st == .running

/-- Every member of a unit runs. -/
def State.unitRuns (s : State) (lid i : Nat) : Bool := (s.inst lid i).members.all fun m => s.runs lid m || (s.wg lid m).st == .ended

/-- An engine has acknowledged the stop of a unit or of its context (R347): it does nothing for it until the restore. -/
def State.acked (s : State) (die lid i : Nat) (k : EngineKind) : Bool :=
  (s.die die).stops.any fun r =>
    (r.unit == some (lid, i) || r.ctx == some (s.launch lid).ctx) && !r.waiting.contains k

/-- A context is switched out, or an engine of a die has acknowledged its stop. -/
def State.ctxBlocked (s : State) (die ctx : Nat) (k : EngineKind) : Bool :=
  (s.ctx ctx).out || (s.die die).stops.any fun r => r.ctx == some ctx && !r.waiting.contains k

/-- A value of the free stream, and the state that has drawn it. -/
def State.draw (s : State) : State := { s with freeCtr := s.freeCtr + 1 }

end Sys2Proof.Machine
end

