-- ==== Sys2Proof/Machine/Float.lean ====
section
/-! DEFINITION. Number formats (R54 to R60), rounding (R61), conversions (R62 to R66) and the values of float arithmetic
(R67, R68). Exact values are dyadic: m times 2^e with integer m and e. -/

namespace Sys2Proof.Machine

/-! ## Flags of R27 -/

def fNV : BitVec 7 := 0x01
def fDZ : BitVec 7 := 0x02
def fOF : BitVec 7 := 0x04
def fUF : BitVec 7 := 0x08
def fNX : BitVec 7 := 0x10
def fSN : BitVec 7 := 0x20
def fBT : BitVec 7 := 0x40

/-- A flag set when a condition holds. -/
def flagIf (c : Bool) (f : BitVec 7) : BitVec 7 := if c then f else 0

/-! ## Formats, R54 -/

structure Fmt where
  /-- width of E and of F -/
  ew : Nat
  fw : Nat
  bias : Nat
  /-- e4m3: no infinity, and S.1111.111 is the only NaN -/
  noInf : Bool := false
  deriving DecidableEq, Repr

def fmtF64 : Fmt := { ew := 11, fw := 52, bias := 1023 }
def fmtF32 : Fmt := { ew := 8, fw := 23, bias := 127 }
def fmtF16 : Fmt := { ew := 5, fw := 10, bias := 15 }
def fmtBf16 : Fmt := { ew := 8, fw := 7, bias := 127 }
def fmtE4m3 : Fmt := { ew := 4, fw := 3, bias := 7, noInf := true }
def fmtE5m2 : Fmt := { ew := 5, fw := 2, bias := 15 }

def Fmt.width (f : Fmt) : Nat := 1 + f.ew + f.fw

/-- The exponent of the smallest normal. -/
def Fmt.emin (f : Fmt) : Int := 1 - (f.bias : Int)

/-- The positive pattern of the largest finite value (R56). -/
def Fmt.maxPat (f : Fmt) : Nat := if f.noInf then 2 ^ (f.ew + f.fw) - 2 else 2 ^ (f.ew + f.fw) - 2 ^ f.fw - 1

def Fmt.infPat (f : Fmt) : Nat := 2 ^ (f.ew + f.fw) - 2 ^ f.fw

/-- The canonical NaN (R57). -/
def Fmt.nanPat (f : Fmt) : Nat := if f.noInf then 2 ^ (f.ew + f.fw) - 1 else f.infPat + 2 ^ (f.fw - 1)

def Fmt.withSign (f : Fmt) (neg : Bool) (pat : Nat) : Nat := if neg then 2 ^ (f.ew + f.fw) + pat else pat

/-- The value of a pattern (R55): a NaN with its F and whether it is quiet, an infinity, or a finite value. -/
inductive FVal where
  | nan (neg : Bool) (frac : Nat) (quiet : Bool)
  | inf (neg : Bool)
  /-- (−1)^neg × m × 2^e -/
  | fin (neg : Bool) (m : Nat) (e : Int)
  deriving DecidableEq, Repr

def Fmt.decode (f : Fmt) (pat : Nat) : FVal :=
  let frac := pat % 2 ^ f.fw
  let ex := pat / 2 ^ f.fw % 2 ^ f.ew
  let neg := pat / 2 ^ (f.ew + f.fw) % 2 == 1
  if ex = 2 ^ f.ew - 1 ∧ f.noInf = false then
    if frac = 0 then .inf neg else .nan neg frac (frac / 2 ^ (f.fw - 1) % 2 == 1)
  else if f.noInf ∧ ex = 2 ^ f.ew - 1 ∧ frac = 2 ^ f.fw - 1 then .nan neg frac true
  else if ex = 0 then .fin neg frac (f.emin - f.fw)
  else .fin neg (2 ^ f.fw + frac) ((ex : Int) - f.bias - f.fw)

def FVal.isNan : FVal → Bool
  | .nan .. => true
  | _ => false

def FVal.isSnan : FVal → Bool
  | .nan _ _ q => !q
  | _ => false

def FVal.isInf : FVal → Bool
  | .inf _ => true
  | _ => false

def FVal.isZero : FVal → Bool
  | .fin _ 0 _ => true
  | _ => false

def FVal.neg : FVal → Bool
  | .nan n _ _ => n
  | .inf n => n
  | .fin n _ _ => n

/-! ## Rounding, R61 -/

/-- Whether the magnitude is rounded up, from the parity of the kept part, the rest and its half. -/
def roundUp (r : Rnd) (neg odd : Bool) (rest half : Nat) : Bool :=
  match r with
  | .rne => half < rest || (rest == half && odd)
  | .rtz => false
  | .rup => !neg && rest != 0
  | .rdn => neg && rest != 0
  | .rna => half ≤ rest

/-- m × 2^(−sh) rounded to an integer, and whether it was inexact. -/
def roundShift (r : Rnd) (neg : Bool) (m sh : Nat) : Nat × Bool :=
  if sh = 0 then (m, false)
  else
    let q := m / 2 ^ sh
    let rest := m % 2 ^ sh
    (if roundUp r neg (q % 2 == 1) rest (2 ^ (sh - 1)) then q + 1 else q, rest != 0)

/-- m × 2^e rounded to a multiple of 2^q: the multiple, and whether it was inexact. -/
def roundAt (r : Rnd) (neg : Bool) (m : Nat) (e q : Int) : Nat × Bool :=
  if q ≤ e then (m * 2 ^ (e - q).toNat, false) else roundShift r neg m (q - e).toNat

/-- The pattern without sign of m × 2^e (m not 0) rounded with the exponent unbounded above, whether it is inexact, and
whether it is tiny after rounding (R61). -/
def Fmt.roundPat (f : Fmt) (r : Rnd) (neg : Bool) (m : Nat) (e : Int) : Nat × Bool × Bool :=
  let top := e + (Nat.log2 m : Int)
  let q := max top f.emin - f.fw
  let (k, inexact) := roundAt r neg m e q
  let tiny :=
    if f.emin ≤ top then false
    else top < f.emin - 1 || (roundAt r neg m e (top - f.fw)).1 < 2 ^ (f.fw + 1)
  ((q - (f.emin - f.fw)).toNat * 2 ^ f.fw + k, inexact, tiny)

/-- An arithmetic result: RoundTo with overflow as R61 delivers it. The pattern and the flags. -/
def Fmt.roundTo (f : Fmt) (r : Rnd) (neg : Bool) (m : Nat) (e : Int) : Nat × BitVec 7 :=
  if m = 0 then (f.withSign neg 0, 0)
  else
    let (pat, inexact, tiny) := f.roundPat r neg m e
    if f.maxPat < pat then
      let toMax := match r with
        | .rtz => true
        | .rup => neg
        | .rdn => !neg
        | _ => false
      (f.withSign neg (if toMax then f.maxPat else f.infPat), fOF ||| fNX)
    else (f.withSign neg pat, flagIf inexact fNX ||| flagIf (tiny && inexact) fUF)

/-- A narrowing step: SatTo(fmt, RoundTo(fmt, mode, x)) of a finite x (R63). -/
def Fmt.satTo (f : Fmt) (r : Rnd) (neg : Bool) (m : Nat) (e : Int) : Nat × BitVec 7 :=
  if m = 0 then (f.withSign neg 0, 0)
  else
    let (pat, inexact, tiny) := f.roundPat r neg m e
    if f.maxPat < pat then (f.withSign neg f.maxPat, fNX ||| fSN)
    else (f.withSign neg pat, flagIf inexact fNX ||| flagIf (tiny && inexact) fUF)

/-- A rounding of a signed dyadic that may be zero; the sign of a zero is given. -/
def Fmt.roundDy (f : Fmt) (r : Rnd) (zneg : Bool) (m e : Int) : Nat × BitVec 7 :=
  if m = 0 then (f.withSign zneg 0, 0) else f.roundTo r (m < 0) m.natAbs e

/-- m × 2^e rounded to an integer (R64), and whether it was inexact. -/
def roundInt (r : Rnd) (neg : Bool) (m : Nat) (e : Int) : Nat × Bool := roundAt r neg m e 0

/-! ## Exact sums and products -/

/-- The signed integer of a finite value, for the exponent 2^q with q at most its own. -/
def scaled (neg : Bool) (m : Nat) (e q : Int) : Int :=
  let k := (m * 2 ^ (e - q).toNat : Nat)
  if neg then -(k : Int) else k

/-- The exact sum of two dyadics, as (m, e). -/
def dyAdd (x y : Int × Int) : Int × Int :=
  let q := min x.2 y.2
  (x.1 * 2 ^ (x.2 - q).toNat + y.1 * 2 ^ (y.2 - q).toNat, q)

def dySum (l : List (Int × Int)) : Int × Int := l.foldl dyAdd (0, 0)

/-- The dyadic of a finite value. -/
def toDy (neg : Bool) (m : Nat) (e : Int) : Int × Int := (if neg then -(m : Int) else m, e)

/-- Comparison of two dyadics. -/
def dyLt (x y : Int × Int) : Bool := (dyAdd x (-y.1, y.2)).1 < 0

/-! ## NaN results, R67 -/

/-- A NaN pattern with its quiet bit set. -/
def Fmt.quiet (f : Fmt) (pat : Nat) : Nat :=
  if f.noInf then pat else if pat / 2 ^ (f.fw - 1) % 2 = 1 then pat else pat + 2 ^ (f.fw - 1)

/-- The first NaN among the operands, quieted, and NV when any is signalling; `none` with no NaN. -/
def Fmt.nanOf (f : Fmt) (ops : List Nat) : Option (Nat × BitVec 7) :=
  match ops.find? fun p => (f.decode p).isNan with
  | none => none
  | some p => some (f.quiet p, flagIf (ops.any fun p => (f.decode p).isSnan) fNV)

/-! ## Arithmetic of one format. Each answers the pattern and the flags. -/

/-- The sign of an exact zero sum of two addends (R61). -/
def zeroSign (r : Rnd) (n1 n2 : Bool) (bothZero : Bool) : Bool :=
  if bothZero && n1 == n2 then n1 else r == .rdn

/-- The sum of two values that are not NaN. -/
def Fmt.addVal (f : Fmt) (r : Rnd) (x y : FVal) : Nat × BitVec 7 :=
  match x, y with
  | .inf n1, .inf n2 => if n1 = n2 then (f.withSign n1 f.infPat, 0) else (f.nanPat, fNV)
  | .inf n, _ => (f.withSign n f.infPat, 0)
  | _, .inf n => (f.withSign n f.infPat, 0)
  | .fin n1 m1 e1, .fin n2 m2 e2 =>
    let (m, e) := dyAdd (toDy n1 m1 e1) (toDy n2 m2 e2)
    f.roundDy r (zeroSign r n1 n2 (m1 == 0 && m2 == 0)) m e
  | _, _ => (f.nanPat, 0)

def Fmt.add (f : Fmt) (r : Rnd) (a b : Nat) : Nat × BitVec 7 :=
  match f.nanOf [a, b] with
  | some x => x
  | none => f.addVal r (f.decode a) (f.decode b)

/-- The pattern with its sign bit inverted. -/
def Fmt.flipSign (f : Fmt) (p : Nat) : Nat :=
  if p / 2 ^ (f.ew + f.fw) % 2 = 1 then p - 2 ^ (f.ew + f.fw) else p + 2 ^ (f.ew + f.fw)

/-- The value with its sign inverted. -/
def FVal.flip : FVal → FVal
  | .nan n k q => .nan (!n) k q
  | .inf n => .inf (!n)
  | .fin n m e => .fin (!n) m e

def Fmt.sub (f : Fmt) (r : Rnd) (a b : Nat) : Nat × BitVec 7 :=
  match f.nanOf [a, b] with
  | some x => x
  | none => f.addVal r (f.decode a) (f.decode b).flip

def Fmt.mul (f : Fmt) (r : Rnd) (a b : Nat) : Nat × BitVec 7 :=
  match f.nanOf [a, b] with
  | some x => x
  | none =>
    match f.decode a, f.decode b with
    | .fin n1 m1 e1, .fin n2 m2 e2 => f.roundTo r (n1 != n2) (m1 * m2) (e1 + e2)
    | x, y => if x.isZero || y.isZero then (f.nanPat, fNV) else (f.withSign (x.neg != y.neg) f.infPat, 0)

/-- a × b + c, rounded once. A 0 × ∞ sets NV, whatever c is (R68). -/
def Fmt.fma (f : Fmt) (r : Rnd) (a b c : Nat) : Nat × BitVec 7 :=
  let x := f.decode a
  let y := f.decode b
  let invalid := (x.isZero && y.isInf) || (x.isInf && y.isZero)
  match f.nanOf [a, b, c] with
  | some (p, fl) => (p, fl ||| flagIf invalid fNV)
  | none =>
    if invalid then (f.nanPat, fNV)
    else match x, y with
      | .fin n1 m1 e1, .fin n2 m2 e2 => f.addVal r (.fin (n1 != n2) (m1 * m2) (e1 + e2)) (f.decode c)
      | _, _ => f.addVal r (.inf (x.neg != y.neg)) (f.decode c)

/-- A quotient or root with a sticky bit: q with its lowest bit set when something remains. -/
def sticky (q rest : Nat) : Nat := 2 * q + (if rest = 0 then 0 else 1)

/-- m1/m2 × 2^e for m2 not 0, correctly rounded: enough bits are kept below the rounding place. -/
def Fmt.quot (f : Fmt) (r : Rnd) (neg : Bool) (m1 m2 : Nat) (e : Int) : Nat × BitVec 7 :=
  let sh := Nat.log2 m2 + f.fw + 4
  f.roundTo r neg (sticky (m1 * 2 ^ sh / m2) (m1 * 2 ^ sh % m2)) (e - sh - 1)

/-- a / b (R106): 0/0 and ∞/∞ are invalid, a finite value by zero sets DZ. -/
def Fmt.div (f : Fmt) (r : Rnd) (a b : Nat) : Nat × BitVec 7 :=
  match f.nanOf [a, b] with
  | some x => x
  | none =>
    match f.decode a, f.decode b with
    | .fin n1 m1 e1, .fin n2 m2 e2 =>
      if m2 = 0 then
        if m1 = 0 then (f.nanPat, fNV) else (f.withSign (n1 != n2) f.infPat, fDZ)
      else if m1 = 0 then (f.withSign (n1 != n2) 0, 0)
      else f.quot r (n1 != n2) m1 m2 (e1 - e2)
    | .inf _, .inf _ => (f.nanPat, fNV)
    | .inf n1, y => (f.withSign (n1 != y.neg) f.infPat, 0)
    | x, y => (f.withSign (x.neg != y.neg) 0, 0)

/-- Square root by bits: the largest q with q*q at most m, by `n` rounds of halving from 2^n. -/
def isqrtGo (m : Nat) : Nat → Nat → Nat
  | 0, q => q
  | k + 1, q => let t := q + 2 ^ k; isqrtGo m k (if t * t ≤ m then t else q)

def isqrt (m : Nat) : Nat := isqrtGo m (Nat.log2 m / 2 + 1) 0

/-- √a (R106). -/
def Fmt.sqrt (f : Fmt) (r : Rnd) (a : Nat) : Nat × BitVec 7 :=
  match f.nanOf [a] with
  | some x => x
  | none =>
    match f.decode a with
    | .fin n m e =>
      if m = 0 then (f.withSign n 0, 0)
      else if n then (f.nanPat, fNV)
      else
        let sh : Nat := 2 * (f.fw + 4) + (if (e % 2) = 0 then 0 else 1)
        let x := m * 2 ^ sh
        let q := isqrt x
        f.roundTo r false (sticky q (x - q * q)) ((e - sh) / 2 - 1)
    | .inf n => if n then (f.nanPat, fNV) else (f.infPat, 0)
    | _ => (f.nanPat, 0)

/-! ## Comparison -/

/-- Order of two values that are not NaN: −1, 0 or 1. −0 equals +0. -/
def fcmp (x y : FVal) : Int :=
  match x, y with
  | .inf n1, .inf n2 => if n1 = n2 then 0 else if n1 then -1 else 1
  | .inf n, _ => if n then -1 else 1
  | _, .inf n => if n then 1 else -1
  | .fin n1 m1 e1, .fin n2 m2 e2 =>
    let d := (dyAdd (toDy n1 m1 e1) (toDy (!n2) m2 e2)).1
    if d < 0 then -1 else if d = 0 then 0 else 1
  | _, _ => 0

/-! ## Integers -/

/-- A pattern of w bits read as a signed number. -/
def signed (w : Nat) (x : Nat) : Int := if x % 2 ^ w < 2 ^ (w - 1) then (x % 2 ^ w : Nat) else (x % 2 ^ w : Nat) - 2 ^ w

/-- The low w bits of an integer. -/
def wrap (w : Nat) (x : Int) : Nat := (x % 2 ^ w).toNat

/-- Lowest and highest of an integer type (R58). -/
def tyLow : Ty → Int
  | .i8 => -2 ^ 7 | .i16 => -2 ^ 15 | .i32 => -2 ^ 31 | .i64 => -2 ^ 63
  | .t2 => -1
  | _ => 0

def tyHigh : Ty → Int
  | .i8 => 2 ^ 7 - 1 | .i16 => 2 ^ 15 - 1 | .i32 => 2 ^ 31 - 1 | .i64 => 2 ^ 63 - 1
  | .n8 => 2 ^ 8 - 1 | .n16 => 2 ^ 16 - 1 | .n32 => 2 ^ 32 - 1 | .n64 => 2 ^ 64 - 1
  | .t2 => 1
  | .b64 => 2 ^ 64 - 1
  | _ => 2 ^ 32 - 1

def clampTy (t : Ty) (x : Int) : Int := max (tyLow t) (min (tyHigh t) x)

/-- A pattern read as a number of an integer type. -/
def tyVal (t : Ty) (x : Nat) : Int :=
  match t with
  | .i8 => signed 8 x | .i16 => signed 16 x | .i32 => signed 32 x | .i64 => signed 64 x
  | .n8 => (x % 2 ^ 8 : Nat) | .n16 => (x % 2 ^ 16 : Nat)
  | .n64 | .b64 => (x % 2 ^ 64 : Nat)
  | _ => (x % 2 ^ 32 : Nat)

/-- A t2 code's value, and whether it is 0b10 (R59). -/
def t2Val (c : Nat) : Int × Bool :=
  match c % 4 with
  | 1 => (1, false)
  | 3 => (-1, false)
  | 2 => (0, true)
  | _ => (0, false)

def t2Code (x : Int) : Nat := if x = 0 then 0 else if 0 < x then 1 else 3

/-! ## Conversions, R62 to R66 -/

/-- The format of a float type. -/
def tyFmt? : Ty → Option Fmt
  | .f16 => some fmtF16 | .bf16 => some fmtBf16 | .f32 => some fmtF32 | .f64 => some fmtF64
  | .e4m3 => some fmtE4m3 | .e5m2 => some fmtE5m2
  | _ => none

/-- A NaN of format g with F `frac`, carried to format f (R66). -/
def nanConv (g f : Fmt) (neg : Bool) (frac : Nat) : Nat :=
  if f.noInf then f.withSign neg f.nanPat
  else if g.noInf then f.withSign neg f.nanPat
  else
    let top := if f.fw ≤ g.fw then frac / 2 ^ (g.fw - f.fw) else frac * 2 ^ (f.fw - g.fw)
    f.withSign neg (f.quiet (f.infPat + top))

/-- f has at least the exponent and fraction bits of g, so that every value of g is one of f (R62): widening. -/
def widening (g f : Fmt) : Bool :=
  g == f || ((!f.noInf || g.noInf) && g.fw ≤ f.fw && g.ew ≤ f.ew)

/-- Float to float: the pattern and the flags (R63, R66). -/
def floatToFloat (g f : Fmt) (r : Rnd) (x : Nat) : Nat × BitVec 7 :=
  match g.decode x with
  | .nan neg frac quiet => (nanConv g f neg frac, flagIf (!quiet) fNV)
  | .inf neg => if widening g f then (f.withSign neg f.infPat, 0) else (f.withSign neg f.maxPat, fSN)
  | .fin neg m e => f.satTo r neg m e

/-- Float to an integer type or t2: the value and the flags (R64). -/
def floatToInt (g : Fmt) (t : Ty) (r : Rnd) (x : Nat) : Int × BitVec 7 :=
  match g.decode x with
  | .nan .. => (0, fNV)
  | .inf neg => (if neg then tyLow t else tyHigh t, fSN)
  | .fin neg m e =>
    let (k, inexact) := roundInt r neg m e
    let i : Int := if neg then -(k : Int) else k
    let c := clampTy t i
    (c, flagIf (inexact || c != i) fNX ||| flagIf (c != i) fSN)

/-- Integer to float: a narrowing step (exact, and so without a flag, where the destination holds every value). -/
def intToFloat (f : Fmt) (r : Rnd) (x : Int) : Nat × BitVec 7 := f.satTo r (x < 0) x.natAbs 0

/-- Integer to integer or t2 (R65). -/
def intToInt (t : Ty) (sat : Bool) (x : Int) : Int × BitVec 7 :=
  let c := clampTy t x
  if t == .t2 || sat then (c, flagIf (c != x) fSN) else (x, 0)

/-- A pattern of an integer type or t2 from its value, in the low bits. -/
def intPat (t : Ty) (x : Int) : Nat := if t == .t2 then t2Code x else wrap t.bits x

/-- The conversion of an element: source type and pattern, destination type, RND, SAT; the pattern in the low bits and
the flags (R62 to R66). -/
def convert (src dst : Ty) (r : Rnd) (sat : Bool) (x : Nat) : Nat × BitVec 7 :=
  match tyFmt? src, tyFmt? dst with
  | some g, some f => floatToFloat g f r x
  | some g, none => let (i, fl) := floatToInt g dst r x; (intPat dst i, fl)
  | none, some f =>
    if src == .t2 then
      let (v, bad) := t2Val x
      let (p, fl) := intToFloat f r v
      (p, fl ||| flagIf bad fBT)
    else intToFloat f r (tyVal src x)
  | none, none =>
    if src == .t2 then
      let (v, bad) := t2Val x
      let (i, fl) := intToInt dst sat v
      (intPat dst i, fl ||| flagIf bad fBT)
    else
      let (i, fl) := intToInt dst sat (tyVal src x)
      (intPat dst i, fl)

end Sys2Proof.Machine
end

