-- ==== Sys2Proof/Machine/Operands.lean ====
section
/-! DEFINITION. Registers of a thread at its level, operand codes and what they read, and the checks of operand codes
(R22, R23, R39 to R42, R327). -/

namespace Sys2Proof.Machine

/-! ## Registers -/

/-- The 64 bits of two 32-bit registers, the low one first. -/
def join64 (lo hi : Word) : DWord := hi ++ lo

def lo32 (x : DWord) : Word := x.setWidth 32

def hi32 (x : DWord) : Word := (x >>> 32).setWidth 32

/-- v register n as the thread reads it: at level 1 v0 to v15 and w63 name the bank (R327). -/
def Thread.getV (th : Thread) (n : Nat) : Word :=
  if th.level = 0 then vget th.v 0 n
  else if n < 16 then vget th.bank.v 0 n
  else if n = 126 then lo32 th.bank.w63
  else if n = 127 then hi32 th.bank.w63
  else vget th.v 0 n

def Thread.setV (th : Thread) (n : Nat) (x : Word) : Thread :=
  if th.level = 0 then { th with v := vset th.v n x }
  else if n < 16 then { th with bank := { th.bank with v := vset th.bank.v n x } }
  else if n = 126 then { th with bank := { th.bank with w63 := join64 x (hi32 th.bank.w63) } }
  else if n = 127 then { th with bank := { th.bank with w63 := join64 (lo32 th.bank.w63) x } }
  else { th with v := vset th.v n x }

/-- The wide register that begins at v(n) (R22). -/
def Thread.getW (th : Thread) (n : Nat) : DWord := join64 (th.getV n) (th.getV (n + 1))

def Thread.setW (th : Thread) (n : Nat) (x : DWord) : Thread := (th.setV n (lo32 x)).setV (n + 1) (hi32 x)

/-- w63, the stack pointer of the thread's level. -/
def Thread.sp (th : Thread) : DWord := th.getW 126

def Thread.setSp (th : Thread) (x : DWord) : Thread := th.setW 126 x

/-- The predicates of the thread's level: bit k is pk, and p0 is 1. -/
def Thread.preds (th : Thread) : BitVec 8 := if th.level = 0 then th.p else th.bank.p

def Thread.getP (th : Thread) (k : Nat) : Bool := k == 0 || th.preds.getLsbD k

/-- A write of pk; a write of p0 is discarded (R23). -/
def setBit8 (p : BitVec 8) (k : Nat) (b : Bool) : BitVec 8 :=
  if k = 0 then p else if b then p ||| BitVec.ofNat 8 (2 ^ k) else p &&& ~~~(BitVec.ofNat 8 (2 ^ k))

def Thread.setP (th : Thread) (k : Nat) (b : Bool) : Thread :=
  if th.level = 0 then { th with p := setBit8 th.p k b }
  else { th with bank := { th.bank with p := setBit8 th.bank.p k b } }

/-- The guard (R44). -/
def predTrue (th : Thread) : Pred → Bool
  | .always => true
  | .pos k => th.getP k.toNat
  | .neg k => !th.getP k.toNat

/-! ## Constants -/

/-- The f32 patterns of the inline float constants (R40). -/
def fltConst32 (k : Nat) : Word :=
  match k with
  | 0 => 0x00000000 | 1 => 0x3F000000 | 2 => 0x3F800000 | 3 => 0x40000000 | 4 => 0x40800000 | 5 => 0x41000000
  | 6 => 0x3E800000 | 7 => 0x3E000000 | 8 => 0xBF000000 | 9 => 0xBF800000 | 10 => 0xC0000000 | 11 => 0xC0800000
  | 12 => 0xC1000000 | 13 => 0xBE800000 | 14 => 0x3F317218 | _ => 0x3FB8AA3B

/-- Their f64 values (R40). -/
def fltConst64 (k : Nat) : DWord :=
  match k with
  | 0 => 0x0000000000000000 | 1 => 0x3FE0000000000000 | 2 => 0x3FF0000000000000 | 3 => 0x4000000000000000
  | 4 => 0x4010000000000000 | 5 => 0x4020000000000000 | 6 => 0x3FD0000000000000 | 7 => 0x3FC0000000000000
  | 8 => 0xBFE0000000000000 | 9 => 0xBFF0000000000000 | 10 => 0xC000000000000000 | 11 => 0xC010000000000000
  | 12 => 0xC020000000000000 | 13 => 0xBFD0000000000000 | 14 => 0x3FE62E42FEFA39EF | _ => 0x3FF71547652B82FE

/-- An inline integer's value, k − 16. -/
def inlineInt (k : BitVec 5) : Int := (k.toNat : Int) - 16

/-! ## Kinds of operand fields (R39) and their checks -/

inductive OpKind where
  /-- not used: the code must be 0x00 (R42) -/
  | unused
  /-- destination: a v code, 32 bits or wide -/
  | dst | dstW
  /-- destination of a collective form: a v or an s code -/
  | cdst | cdstW
  /-- destination of n registers from an even v code (LDIT) -/
  | dstN (n : Nat)
  /-- source, register or constant, read at 32 bits -/
  | src
  /-- source, register or constant, read at 64 bits -/
  | srcW
  /-- source read at 64 bits and typed f64 -/
  | srcF64
  /-- a v or s register, 32 bits -/
  | reg
  /-- a wide v or an even z register (LAUNCH) -/
  | regW
  /-- a v register, first of n (PUSH, POP) -/
  | vregs (n : Nat)
  /-- an s register or a constant, 32 or 64 bits (KMOV set) -/
  | sconst | sconstW
  /-- an address or pointer: a wide v code, an even z code, or the literal -/
  | addr
  /-- the literal only (HPUSH) -/
  | litOnly
  /-- the immediate only (LI) -/
  | immOnly
  deriving DecidableEq, Repr

/-- v(n) is allocated to a thread whose wave has count c, at its level (R23, R187, R327). -/
def allocated (level c n : Nat) : Bool := n < c || n == 126 || n == 127 || (level != 0 && n < 16)

/-- An operand code is admitted (check 10 of R52): `imm` says that the class keeps its immediate and the form has a word
2, `lit` that the form has a literal. -/
def opOk (al : Nat → Bool) (imm lit : Bool) (k : OpKind) (o : Operand) : Bool :=
  match k, o with
  | .unused, .v n => n == 0
  | .unused, _ => false
  | .dst, .v n => al n.toNat
  | .dst, _ => false
  | .dstW, .v n => n.toNat % 2 == 0 && al n.toNat && al (n.toNat + 1)
  | .dstW, _ => false
  | .cdst, .v n => al n.toNat
  | .cdst, .s _ => true
  | .cdst, _ => false
  | .cdstW, .v n => n.toNat % 2 == 0 && al n.toNat && al (n.toNat + 1)
  | .cdstW, .s n => n.toNat % 2 == 0
  | .cdstW, _ => false
  | .dstN m, .v n => n.toNat % 2 == 0 && (List.range m).all fun i => al (n.toNat + i)
  | .dstN _, _ => false
  | .src, .v n => al n.toNat
  | .src, .imm => imm
  | .src, .lit => lit
  | .src, .rsv _ => false
  | .src, _ => true
  | .srcW, .v n => n.toNat % 2 == 0 && al n.toNat && al (n.toNat + 1)
  | .srcW, .s n => n.toNat % 2 == 0
  | .srcW, .int _ => true
  | .srcW, .lit => lit
  | .srcW, _ => false
  | .srcF64, .v n => n.toNat % 2 == 0 && al n.toNat && al (n.toNat + 1)
  | .srcF64, .s n => n.toNat % 2 == 0
  | .srcF64, .int _ => true
  | .srcF64, .flt _ => true
  | .srcF64, .lit => lit
  | .srcF64, _ => false
  | .reg, .v n => al n.toNat
  | .reg, .s _ => true
  | .reg, _ => false
  | .regW, .v n => n.toNat % 2 == 0 && al n.toNat && al (n.toNat + 1)
  | .regW, .s n => n.toNat % 2 == 0
  | .regW, _ => false
  | .vregs m, .v n => (List.range m).all fun i => al (n.toNat + i)
  | .vregs _, _ => false
  | .sconst, .s _ => true
  | .sconst, .int _ => true
  | .sconst, .flt _ => true
  | .sconst, .lit => lit
  | .sconst, _ => false
  | .sconstW, .s n => n.toNat % 2 == 0
  | .sconstW, .int _ => true
  | .sconstW, .lit => lit
  | .sconstW, _ => false
  | .addr, .v n => n.toNat % 2 == 0 && al n.toNat && al (n.toNat + 1)
  | .addr, .s n => n.toNat % 2 == 0
  | .addr, .lit => lit
  | .addr, _ => false
  | .litOnly, .lit => lit
  | .litOnly, _ => false
  | .immOnly, .imm => imm
  | .immOnly, _ => false

/-! ## Reading -/

/-- What a source operand can read: the thread, its wave, the immediate and the literal. -/
structure Rd where
  th : Thread
  wave : Wave
  imm : Word := 0
  lit : DWord := 0

/-- A 32-bit read (R40, R41). -/
def Rd.r32 (r : Rd) : Operand → Word
  | .v n => r.th.getV n.toNat
  | .s n => vget r.wave.s 0 n.toNat
  | .int k => BitVec.ofInt 32 (inlineInt k)
  | .flt k => fltConst32 k.toNat
  | .rsv _ => 0
  | .imm => r.imm
  | .lit => lo32 r.lit

/-- A 64-bit read; an inline float gives its f64 value, which only an f64 source admits (R40). -/
def Rd.r64 (r : Rd) : Operand → DWord
  | .v n => r.th.getW n.toNat
  | .s n => join64 (vget r.wave.s 0 n.toNat) (vget r.wave.s 0 (n.toNat + 1))
  | .int k => BitVec.ofInt 64 (inlineInt k)
  | .flt k => fltConst64 k.toNat
  | .rsv _ => 0
  | .imm => 0
  | .lit => r.lit

/-- A read at the width of a 32-bit or 64-bit type, as a number. -/
def Rd.rw (r : Rd) (wide : Bool) (o : Operand) : Nat := if wide then (r.r64 o).toNat else (r.r32 o).toNat

/-- The thread with destination D (a v code) written, wide or not; the value's low bits. -/
def Thread.setD (th : Thread) (wide : Bool) (d : Operand) (x : Nat) : Thread :=
  match d with
  | .v n => if wide then th.setW n.toNat (BitVec.ofNat 64 x) else th.setV n.toNat (BitVec.ofNat 32 x)
  | _ => th

/-- The number of a v code. -/
def Operand.vnum : Operand → Nat
  | .v n => n.toNat
  | _ => 0

/-- The v registers that an operand code of a kind names: for the waits of R21. -/
def opRegs (k : OpKind) (o : Operand) : List Nat :=
  match k, o with
  | .unused, _ => []
  | .dst, .v n | .src, .v n | .reg, .v n | .cdst, .v n => [n.toNat]
  | .dstN m, .v n | .vregs m, .v n => (List.range m).map (n.toNat + ·)
  | _, .v n => [n.toNat, n.toNat + 1]
  | _, _ => []

end Sys2Proof.Machine
end

