-- ==== Sys2Proof/Machine/Mem.lean ====
section
/-! DEFINITION. Memory: cells in canonical form, bytes and little-endian numbers, the modification order of global memory
(R252), what a scope contains (R250), what an acquire guarantees (R254), what a load may show (R255), keys of sectors
(R377) and translation (R28, R349 to R351, R362, R364, R302). -/

namespace Sys2Proof.Machine

/-! ## Cells -/

/-- The byte listed at an address. -/
def cellGet : List Host.Cell → Nat → Option Byte
  | [], _ => none
  | (b, x) :: t, a => if b = a then some x else cellGet t a

/-- A byte put at its place in the rising order. -/
def cellPut : List Host.Cell → Nat → Byte → List Host.Cell
  | [], a, v => [(a, v)]
  | (b, x) :: t, a, v => if a < b then (a, v) :: (b, x) :: t else if a = b then (a, v) :: t else (b, x) :: cellPut t a v

def cellDel (m : List Host.Cell) (a : Nat) : List Host.Cell := m.filter fun c => c.1 ≠ a

/-- What an address that memory does not list reads as. (DESIGN CHOICE, log entry 9) -/
def unlisted : Byte := 0

/-- One byte of memory. -/
def memGet (m : List Host.Cell) (a : Nat) : Byte := (cellGet m a).getD unlisted

/-- Memory with one byte written: an entry equal to what an unlisted address reads as is not kept. -/
def memSet (m : List Host.Cell) (a : Nat) (v : Byte) : List Host.Cell :=
  if v = unlisted then cellDel m a else cellPut m a v

/-- The canonical form: addresses strictly rise, and no entry equals what an unlisted address reads as. -/
abbrev Memory.wf (m : List Host.Cell) : Prop :=
  m.Pairwise (fun a b => a.1 < b.1) ∧ ∀ c ∈ m, c.2 ≠ unlisted

def memSetAll (m : List Host.Cell) : List (Nat × Byte) → List Host.Cell
  | [] => m
  | (a, v) :: t => memSetAll (memSet m a v) t

/-! ## Numbers and bytes, little-endian (R28) -/

def bytesToNat : List Byte → Nat
  | [] => 0
  | b :: t => b.toNat + 2 ^ 8 * bytesToNat t

def natToBytes : Nat → Nat → List Byte
  | 0, _ => []
  | n + 1, x => BitVec.ofNat 8 x :: natToBytes n (x / 2 ^ 8)

/-- The 32-bit words of a run of bytes. -/
def bytesToWords : List Byte → List Word
  | a :: b :: c :: d :: t => BitVec.ofNat 32 (bytesToNat [a, b, c, d]) :: bytesToWords t
  | _ => []

def wordsToBytes (l : List Word) : List Byte := l.flatMap fun w => natToBytes 4 w.toNat

/-- The byte at an index, zero beyond the end. -/
def byteAt (l : List Byte) (i : Nat) : Byte := l.getD i 0

/-- n bytes from an index as a number. -/
def numAt (l : List Byte) (i n : Nat) : Nat := bytesToNat ((l.drop i).take n)

/-! ## Locations -/

/-- Where host memory begins among locations; below it a location is a physical HBM address. -/
def hostBase : Nat := 2 ^ 60

/-- Where the identity page begins among locations. -/
def identBase : Nat := 2 ^ 61

/-- A location of host memory. -/
def hostLoc (l : Nat) : Bool := hostBase ≤ l && l < identBase

/-- Where the pages begin that the driver chose for stacks and data images (R25, R36). They are HBM pages that nothing else
names, a context's own set for each key, so the model gives them locations of their own. (DESIGN CHOICE, log entry 20) -/
def driverBase : Nat := 2 ^ 62

/-- The sites of a die that are neither fused nor offline, in physical order: logical core c is the c-th (R363). -/
def Die.sites (d : Die) : List Nat :=
  (List.range 36).filter fun i => !d.harvest.getLsbD i && !d.offline.getLsbD i

/-- The online dies in physical order: logical die l is the l-th (R363). -/
def State.onlineDies (s : State) : List Nat := (List.range 24).filter fun d => (s.die d).online

/-- Byte i of a number, little-endian. -/
def nthByte (x i : Nat) : Byte := BitVec.ofNat 8 (x / 2 ^ (8 * i))

/-- The identity page, R364. -/
def State.identByte (s : State) (off : Nat) : Byte :=
  let ds := s.onlineDies
  if off < 8 then nthByte (1 + ds.length * 2 ^ 32) off
  else if off < 16 then nthByte s.idGen.toNat (off - 8)
  else if off < 0x40 then 0
  else if off < 0x100 then
    match ds[(off - 0x40) / 8]? with
    | some d => nthByte (d + (s.die d).sites.length * 2 ^ 8) (off % 8)
    | none => 0
  else if off < 0x100 + 64 * 24 then
    let d := s.die ((off - 0x100) / 64)
    let j := off % 64
    if j < 8 then nthByte d.harvest.toNat j
    else if j < 16 then nthByte d.offline.toNat (j - 8)
    else if j < 52 then BitVec.ofNat 8 (d.sites.getD (j - 16) 0xFF)
    else 0
  else 0

/-- The byte of a location. -/
def State.byte (s : State) (loc : Nat) : Byte :=
  if identBase ≤ loc && loc < driverBase then s.identByte (loc - identBase) else memGet s.mem loc

/-- HBM backs p·2^36 up to p·2^36 + 48 GiB for p below 24 (R362). -/
def backed (pa : Nat) : Bool := pa / 2 ^ 36 < 24 && pa % 2 ^ 36 < 48 * 2 ^ 30

/-! ## Scopes, R250 -/

def Agent.isWg : Agent → Bool
  | .wg .. => true
  | _ => false

def Agent.isEngine : Agent → Bool
  | .copy .. | .encode .. | .walker _ => true
  | _ => false

/-- The scope `sc` around agent x contains agent y. -/
def inScope (x : AgentAt) (sc : Scp) (y : AgentAt) : Bool :=
  x.ag == y.ag ||
  match sc with
  | .system => true
  | .module => y.ag.isWg || y.ag.isEngine || y.ag == .firmware
  | .die => x.die.isSome && x.die == y.die && (y.ag.isWg || y.ag.isEngine)
  | .cluster => x.die.isSome && x.clu.isSome && x.die == y.die && x.clu == y.clu && y.ag.isWg

/-- The wider of two scopes: cluster ⊂ die ⊂ module ⊂ system (R165). -/
def scpRank : Scp → Nat
  | .cluster => 0 | .die => 1 | .module => 2 | .system => 3

def scpMax (a b : Scp) : Scp := if scpRank a < scpRank b then b else a

/-- The workgroup as an agent, where it stands. -/
def State.agentOf (s : State) (lid wg : Nat) : AgentAt :=
  { ag := .wg lid wg, die := some (s.wg lid wg).die, clu := some ((s.wg lid wg).site / 4) }

/-! ## The order, R252, and acquires, R254 -/

/-- A release that carries a write reaches the acquire: R254, the cumulative case included (the release is then the
carrying agent's). -/
def pubReaches (p : Pub) (a : Acq) : Bool :=
  p.stamp < a.stamp && inScope p.by_ p.scope a.by_ && inScope a.by_ a.scope p.by_

/-- A write is guaranteed to an acquire: a release that carries it reaches the acquire, or it is the workgroup's own atomic
(R256) from before it; or the access reads a published range, and a swap before the acquire included the write (R259).
(DEDUCED, log entry 50) -/
def guaranteed (w : WriteRec) (a : Acq) : Bool :=
  (w.pubs.any fun p => pubReaches p a) || (w.atom && w.by_.ag == a.by_.ag && w.entered < a.stamp) ||
    (a.pub && w.swapped.any fun x => x < a.stamp)

def WriteRec.has (w : WriteRec) (loc : Nat) : Bool := w.bytes.any fun b => b.1 = loc

/-- The bytes of a write as the order keeps them: location, value before, value after. -/
def withOld (m : List Host.Cell) (bs : List (Nat × Byte)) : List (Nat × Byte × Byte) :=
  bs.map fun b => (b.1, memGet m b.1, b.2)

/-- The keys of the sectors of a write as they are kept before it. -/
def oldTags (tags : Tab Nat (Nat × Nat)) (bs : List (Nat × Byte)) : List (Nat × Option (Nat × Nat)) :=
  ((bs.map fun b => b.1 / 32).eraseDups).map fun k => (k, tget tags k)

/-- A write enters the order (R252): its bytes take effect at its place. -/
def State.enter (s : State) (by_ : AgentAt) (thread : Option TRef) (stamp : Nat) (pubs : List Pub) (atom : Bool)
    (bs : List (Nat × Byte)) : State :=
  { s with
    order := { seq := s.nextSeq, by_ := by_, thread := thread, stamp := stamp, bytes := withOld s.mem bs,
               tags := oldTags s.keyTag bs, pubs := pubs, entered := s.stamp, atom := atom } :: s.order
    nextSeq := s.nextSeq + 1
    mem := memSetAll s.mem bs }

/-- The next stamp: every issue event, release and acquire takes one. -/
def State.tick (s : State) : State := { s with stamp := s.stamp + 1 }

/-- A location's value after the first c writes of the order: later writes are undone, the newest first. -/
def valueAt : List WriteRec → Nat → Nat → Byte → Byte
  | [], _, _, cur => cur
  | w :: ws, c, loc, cur =>
    if w.seq < c then cur
    else valueAt ws c loc (match w.bytes.find? fun b => b.1 = loc with
      | some (_, old, _) => old
      | none => cur)

/-- A sector's key after the first c writes of the order, in the same way. -/
def tagAt : List WriteRec → Nat → Nat → Option (Nat × Nat) → Option (Nat × Nat)
  | [], _, _, cur => cur
  | w :: ws, c, k, cur =>
    if w.seq < c then cur
    else tagAt ws c k (match w.tags.find? fun x => x.1 = k with
      | some (_, old) => old
      | none => cur)

/-- The stores of threads that a write made to a location, the newest first: thread and issue stamp. -/
def WriteRec.writers (w : WriteRec) (loc : Nat) : List (TRef × Nat) :=
  if w.who.isEmpty then (w.thread.map fun t => (t, w.stamp)).toList
  else (w.who.filter fun x => x.1 = loc).map fun x => (x.2.1, x.2.2.1)

/-- The place after the latest guaranteed write to a location (w0 of R254), if there is one. -/
def w0Place (ord : List WriteRec) (a : Acq) (loc : Nat) : Option Nat :=
  (ord.find? fun w => w.has loc && guaranteed w a).map fun w => w.seq + 1

/-- What a load knew at issue: its stamp, the place that the order had reached, and the place at which its launch
started (R254, R255). -/
structure At where
  stamp : Nat
  seq : Nat
  start : Nat
  deriving DecidableEq, Repr

/-- The place after thread t's latest write to a location that was issued before the load (R29): whether it was issued before
the last acquire or after it, and released before or after that, the thread has seen it. -/
def ownPlace (ord : List WriteRec) (t : TRef) (at_ : At) (loc : Nat) : Option Nat :=
  (ord.find? fun w => w.has loc && (w.writers loc).any fun x => x.1 == t && x.2 < at_.stamp).map fun w => w.seq + 1

/-- Where a load's choice in the order begins for one byte (rows 2 and 3 of R255): after the latest guaranteed write, and after
the thread's own latest store. -/
def loPlace (ord : List WriteRec) (a : Acq) (t : Option TRef) (at_ : At) (loc : Nat) : Nat :=
  max ((t.bind fun t => ownPlace ord t at_ loc).getD 0) ((w0Place ord a loc).getD at_.start)

/-! ## The staging overlay of R255 -/

def Staged.has (e : Staged) (loc : Nat) : Bool := e.bytes.any fun b => b.1 = loc

/-- A store held under R267 since before the acquire: it counts as issued just after the acquire. -/
def Staged.heldBefore (e : Staged) (a : Acq) : Option Nat := e.held.filter fun h => h < a.stamp

/-- A staged store that counts as the thread's own: its own, issued before the load; or one held under R267 since before
the acquire. -/
def ownStaged (a : Acq) (t : TRef) (st : Nat) (e : Staged) : Bool :=
  (e.thread == t && e.stamp < st) || (e.heldBefore a).isSome

/-- Of two staged stores the second is the later for a load: those held since before the acquire come in the order in which their
releases were made, and before every other. -/
def laterOwn (a : Acq) (x y : Staged) : Bool :=
  match x.heldBefore a, y.heldBefore a with
  | some h, some k => h < k || (h == k && x.stamp ≤ y.stamp)
  | some _, none => true
  | none, some _ => false
  | none, none => x.stamp ≤ y.stamp

/-- A store of a workgroup as its staging holds it, or held it until it entered the order: then the moment at which it left, and the
place after it in the order. -/
structure Stay where
  e : Staged
  left : Option (Nat × Nat) := none
  deriving DecidableEq, Repr

/-- The stores of a workgroup that a write brought into the order, those that an atomic carried among them (R93). -/
def WriteRec.stays (w : WriteRec) (lid wg : Nat) : List Stay :=
  let mine (t : TRef) : Bool := t.lid == lid && t.wg == wg
  let stay (t : TRef) (stamp : Nat) (bs : List (Nat × Byte)) : Stay :=
    { e := { stamp := stamp, thread := t, va := 0, bytes := bs }, left := some (w.entered, w.seq + 1) }
  if w.who.isEmpty then
    match w.thread with
    | some t => if mine t && !w.atom then [stay t w.stamp (w.bytes.map fun b => (b.1, b.2.2))] else []
    | none => []
  else (w.who.filter fun x => mine x.2.1).map fun x => stay x.2.1 x.2.2.1 [(x.1, x.2.2.2)]

/-- The staging holds the store at a moment since the acquire, or now (`none`). -/
def Stay.at_ (x : Stay) (a : Acq) : Option Nat → Bool
  | none => x.left.isNone
  | some m => ((x.e.heldBefore a).isSome || x.e.stamp ≤ m) && x.left.all fun l => m < l.1

/-- The store counts for a load of thread t: as its own, or as one that another thread of its workgroup issued after the acquire. -/
def Stay.counts (x : Stay) (a : Acq) (t : TRef) (st : Nat) : Bool :=
  ownStaged a t st x.e || (x.e.thread != t && x.e.thread.wg == t.wg && a.stamp < x.e.stamp)

/-- The latest of some stores. -/
def latestStay (a : Acq) : List Stay → Option Stay
  | [] => none
  | x :: xs => match latestStay a xs with
    | some y => if laterOwn a x.e y.e then some y else some x
    | none => some x

/-- The store that overlays a byte for a load of thread t, under the staging as it stood at a moment. -/
def overlayAt (es : List Stay) (a : Acq) (t : TRef) (st : Nat) (m : Option Nat) (loc : Nat) : Option Stay :=
  latestStay a (es.filter fun x => x.e.has loc && x.at_ a m && x.counts a t st)

/-- The latest store to a byte that counts as the thread's own and is still staged (row 1 of R255). -/
def ownNow (es : List Stay) (a : Acq) (t : TRef) (st : Nat) (loc : Nat) : Option Stay :=
  latestStay a (es.filter fun x => x.e.has loc && x.left.isNone && ownStaged a t st x.e)

/-- The byte that a store has for a location. -/
def Staged.byteAt (e : Staged) (loc : Nat) : Option Byte := (e.bytes.find? fun b => b.1 = loc).map Prod.snd

/-- The staging a load of a workgroup meets: its own, and under deterministic operation the held stores of the other
members of its unit (R267). -/
def State.stagingFor (s : State) (lid wg : Nat) : List Staged :=
  let own := (s.wg lid wg).staging
  if (s.launch lid).det = 0 then own
  else own ++ ((s.inst lid (s.wg lid wg).inst).members.filter (· ≠ wg)).flatMap fun m =>
    (s.wg lid m).staging.filter fun e => e.held.isSome

/-! ## Keys of sectors, R377 -/

/-- The value of a byte of a sector with a tag, read under a key: what another key encrypted, and what was lost when a write
under this key re-encrypted the sector, reads as a free value. -/
def State.under (s : State) (tag : Option (Nat × Nat)) (key loc : Nat) (v : Byte) : Byte :=
  match tag with
  | none => v
  | some (k, m) => if k = key && m.testBit (loc % 32) then v else Config.cipher s.freeCtr loc

/-- The value of a sector's byte read under a key, as the sector stands. -/
def State.decrypt (s : State) (key loc : Nat) (v : Byte) : Byte := s.under (tget s.keyTag (loc / 32)) key loc v

/-- The byte that an older place of the order shows under a key: under the key that the sector had then (R1, R377). -/
def State.decryptAt (s : State) (place key loc : Nat) : Byte :=
  s.under (tagAt s.order place (loc / 32) (tget s.keyTag (loc / 32))) key loc (valueAt s.order place loc (s.byte loc))

/-- A sector's tag after a write of its byte i under a key: the key's own bytes stay readable, and those that another key
encrypted are lost. A sector that nothing has written yet has nothing to lose. (DEDUCED, log entry 117) -/
def tagByte (key i : Nat) : Option (Nat × Nat) → Nat × Nat
  | none => (key, 2 ^ 32 - 1)
  | some (k, m) => (key, (if k = key then m else 0) ||| 2 ^ i)

/-- The sectors of the written locations belong to the key from now on. -/
def State.tagKeys (s : State) (key : Nat) (locs : List Nat) : State :=
  { s with keyTag := locs.foldl (fun t l =>
      if l < hostBase then tset t (l / 32) (tagByte key (l % 32) (tget t (l / 32))) else t) s.keyTag }

/-- The HDM map's entry of an HBM page marks it host-managed (R375): some valid entry names it. -/
def State.hdmEntry (s : State) (i : Nat) : Nat :=
  bytesToNat ((List.range 8).map fun k => s.byte (s.hdmBase + 8 * i + k))

/-- The page that granule i of the HDM-DB range maps to: valid and well formed, backed memory (R362, R375). -/
def State.hdmPage (s : State) (i : Nat) : Option Nat :=
  let e := s.hdmEntry i
  if i < s.hdmCnt && e % 2 == 1 && e / 2 % 2 ^ 15 == 0 && e / 2 ^ 52 == 0 && backed (e / 2 ^ 16 * 2 ^ 16) then
    some (e / 2 ^ 16 * 2 ^ 16) else none

def State.hostManaged (s : State) (pa : Nat) : Bool :=
  (List.range s.hdmCnt).any fun i => s.hdmPage i == some (pa / 65536 * 65536)

/-- The key under which a context's access to a location works: host memory and host-managed pages have none (0). -/
def State.keyFor (s : State) (ctx loc : Nat) : Nat :=
  if hostBase ≤ loc || s.hostManaged loc then 0 else (s.ctx ctx).key

/-- A context's write of locations: each sector is tagged with the key that its page has. -/
def State.tagCtx (s : State) (ctx : Nat) (locs : List Nat) : State :=
  locs.foldl (fun s l => s.tagKeys (s.keyFor ctx l) [l]) s

/-! ## Free choice -/

/-- A number below n that nothing constrains (0 where there is no choice), and the state that has drawn it. -/
def State.choose (s : State) (n : Nat) : Nat × State := (if n ≤ 1 then 0 else Config.pick s.freeCtr % n, s.draw)

/-- A loose value (R19). -/
def State.loose (s : State) : DWord × State := (Config.loose s.freeCtr, s.draw)

/-! ## A read piece, R255 -/

/-- What a write left at a location is a store of another thread of the loading thread's workgroup, issued after the
workgroup's last acquire (R255). The write of an ATOM counts as such a store. (DESIGN CHOICE, log entry 142) -/
def WriteRec.sibling (w : WriteRec) (a : Acq) (t : TRef) (loc : Nat) : Bool :=
  (w.writers loc).head?.any fun x => x.1.lid == t.lid && x.1.wg == t.wg && x.1 != t && a.stamp < x.2

/-- The first place at which the order shows a byte as rows 2 and 3 of R255 admit: after the last write before the choice begins. -/
def State.basePlace (s : State) (a : Acq) (t : Option TRef) (at_ : At) (loc : Nat) : Nat :=
  let lo := loPlace s.order a t at_ loc
  ((s.order.find? fun w => w.seq < lo && w.has loc).map fun w => w.seq + 1).getD 0

/-- Rows 2 and 3 of R255 on the order alone: the place lies where the byte's choice begins or later, or the byte's latest write before
it is a store of another thread of the workgroup issued after the acquire. -/
def State.placeOk (s : State) (a : Acq) (t : Option TRef) (loc base p : Nat) : Bool :=
  base ≤ p || match s.order.find? fun w => w.seq < p && w.has loc with
    | some w => t.any fun t => w.sibling a t loc
    | none => false

/-- R255 lets a load of thread t show one byte as the order has it at place p, overlaid with the staging as it stood at a moment. -/
def State.mayShow (s : State) (es : List Stay) (a : Acq) (t : TRef) (st base p : Nat) (m : Option Nat) (loc : Nat) : Bool :=
  match overlayAt es a t st m loc, ownNow es a t st loc with
  | some x, some o => laterOwn a o.e x.e
  | some x, none => match x.left with
    | some l => x.e.thread != t || base ≤ l.2
    | none => true
  | none, some _ => false
  | none, none => s.placeOk a (some t) loc base p

/-- The stores of the thread's workgroup that its staging holds, or held at some moment since the acquire. -/
def State.stays (s : State) (stg : List Staged) (a : Acq) (t : TRef) (locs : List Nat) : List Stay :=
  (stg.map fun e => { e := e }) ++
    (s.order.filter fun w => a.stamp < w.entered && locs.any w.has).flatMap fun w => w.stays t.lid t.wg

/-- The places of the order, and the moments of the staging (now, and those at which it was another), at which R255 lets a load show
one piece: every byte as its row admits. -/
def State.shows (s : State) (stg : List Staged) (a : Acq) (t : Option TRef) (at_ : At) (locs : List Nat) :
    List (Nat × Option Nat) :=
  let bases := locs.map fun l => (l, s.basePlace a t at_ l)
  let ps := 0 :: (s.order.filter fun w => locs.any w.has).map fun w => w.seq + 1
  match t with
  | none => (ps.filter fun p => bases.all fun x => s.placeOk a none x.1 x.2 p).map fun p => (p, none)
  | some t =>
    let es := s.stays stg a t locs
    let es1 := es.filter fun x => locs.any x.e.has
    let ms := none :: (((a.stamp :: es1.flatMap fun x => x.e.stamp :: (x.left.map Prod.fst).toList).filter fun m =>
      a.stamp ≤ m && es1.any fun x => x.at_ a (some m) != x.at_ a none).eraseDups.map some)
    ms.flatMap fun m =>
      (ps.filter fun p => bases.all fun x => s.mayShow es a t at_.stamp x.2 p m x.1).map fun p => (p, m)

/-- The bytes of a piece at a place of the order, overlaid with the staging as it stood at a moment. -/
def State.shown (s : State) (stg : List Staged) (a : Acq) (t : Option TRef) (at_ : At) (ctx : Nat) (locs : List Nat)
    (x : Nat × Option Nat) : List Byte :=
  locs.map fun l =>
    ((t.bind fun t => overlayAt (s.stays stg a t locs) a t at_.stamp x.2 l).bind fun y => y.e.byteAt l).getD
      (s.decryptAt x.1 (s.keyFor ctx l) l)

/-- The bytes that a load shows for one piece (the locations of one sector): the sector as it stood after one write of the
order, overlaid with the staging as it stood at one moment; both chosen freely among those R255 allows. -/
def State.readPiece (s : State) (stg : List Staged) (a : Acq) (t : Option TRef) (at_ : At) (ctx : Nat)
    (locs : List Nat) : List Byte × State :=
  let l := s.shows stg a t at_ locs
  let (k, s) := s.choose l.length
  (s.shown stg a t at_ ctx locs (l.getD k (s.nextSeq, none)), s.draw)

def State.readPieces (s : State) (stg : List Staged) (a : Acq) (t : Option TRef) (at_ : At) (ctx : Nat) :
    List (List Nat) → List Byte × State
  | [] => ([], s)
  | p :: ps =>
    let (b, s) := s.readPiece stg a t at_ ctx p
    let (bs, s) := State.readPieces s stg a t at_ ctx ps
    (b ++ bs, s)

/-- Locations cut into pieces, one per sector (R91). -/
def pieces : List Nat → List (List Nat)
  | [] => []
  | l :: ls =>
    match pieces ls with
    | (x :: xs) :: ps => if x / 32 = l / 32 then (l :: x :: xs) :: ps else [l] :: (x :: xs) :: ps
    | ps => [l] :: ps

/-! ## Translation -/

/-- The 8-byte table entry at a physical address, read from HBM. -/
def State.tableEntry (s : State) (pa : Nat) : Nat := bytesToNat ((List.range 8).map fun k => s.byte (pa + k))

/-- Addresses of the entries of a table, or of the HDM map, that memory lists something of; the others are not valid. -/
def State.listedEntries (s : State) (base n : Nat) : List Nat :=
  ((s.mem.filter fun b => base ≤ b.1 && b.1 < base + 8 * n).map fun b => b.1 / 8 * 8).eraseDups

/-- What a walk finds: a mapping, or a fault with DET2's level and malformed bits (R350). -/
inductive WalkRes where
  | hit (e : TlbEnt)
  | fault (det : Nat)
  deriving DecidableEq, Repr

/-- DET2 bits of a faulting walk (R350). -/
def walkDet (level : Nat) (malformed : Bool) : Nat := level * 2 ^ 12 + (if malformed then 2 ^ 14 else 0)

/-- Reserved bits of an entry are zero (R349). -/
def entryMbz (e : Nat) : Bool := e / 2 ^ 5 % 2 ^ 11 == 0 && e / 2 ^ 52 == 0

def entryPa (e : Nat) : Nat := e / 2 ^ 16 % 2 ^ 36 * 2 ^ 16

/-- The tables that the pointers of a table name. -/
def State.tablesBelow (s : State) (base : Nat) : List Nat :=
  (s.listedEntries base 4096).filterMap fun a =>
    let e := s.tableEntry a
    if e % 4 == 3 && entryMbz e && backed (entryPa e) then some (entryPa e) else none

/-- Every entry of every context's tables, with its level (R349). -/
def State.allEntries (s : State) : List (Nat × Nat) :=
  (s.contexts.flatMap fun c =>
    let l1 := c.2.tableBase.toNat
    let l2 := s.tablesBelow l1
    let at_ (lev : Nat) (bases : List Nat) : List (Nat × Nat) :=
      bases.flatMap fun b => (s.listedEntries b 4096).map fun a => (lev, a)
    at_ 1 [l1] ++ at_ 2 l2 ++ at_ 3 (l2.flatMap s.tablesBelow)).eraseDups

/-- A block or page of a context: host memory or backed HBM (R349, R362). -/
def mapping (ctx level page pages e : Nat) : WalkRes :=
  let h := e / 16 % 2 == 1
  if !h && !(backed (entryPa e)) then .fault (walkDet level true)
  else .hit { ctx := ctx, page := page, pages := pages, pa := entryPa e + (if h then hostBase else 0),
              w := e / 4 % 2 == 1, s := e / 8 % 2 == 1, h := h }

/-- A page that the driver mapped of its own accord: writable, and not supervisor-only (R25, R36). -/
def DriverMap.entry (m : DriverMap) (ctx key page : Nat) : Option TlbEnt :=
  if m.page ≤ page && page < m.page + m.pages then
    some { ctx := ctx, page := page, pages := 1, pa := driverBase + key * 2 ^ 52 + page * 65536, w := true, s := false,
           h := false }
  else none

/-- A walk of the context's tables for a 64 KiB page number (R349, R350), as the tables stand in HBM. -/
def State.walkHbm (s : State) (ctx page : Nat) : WalkRes :=
  let e1 := s.tableEntry ((s.ctx ctx).tableBase.toNat + 8 * (page / 2 ^ 24 % 4096))
  if e1 % 2 = 0 then .fault (walkDet 1 false)
  else if e1 / 2 % 2 = 0 || !entryMbz e1 || !backed (entryPa e1) then .fault (walkDet 1 true)
  else
    let e2 := s.tableEntry (entryPa e1 + 8 * (page / 2 ^ 12 % 4096))
    if e2 % 2 = 0 then .fault (walkDet 2 false)
    else if !entryMbz e2 then .fault (walkDet 2 true)
    else if e2 / 2 % 2 = 0 then
      if entryPa e2 % 2 ^ 28 = 0 then mapping ctx 2 (page / 4096 * 4096) 4096 e2 else .fault (walkDet 2 true)
    else if !backed (entryPa e2) then .fault (walkDet 2 true)
    else
      let e3 := s.tableEntry (entryPa e2 + 8 * (page % 4096))
      if e3 % 2 = 0 then .fault (walkDet 3 false)
      else if e3 / 2 % 2 = 0 || !entryMbz e3 then .fault (walkDet 3 true)
      else mapping ctx 3 page 1 e3

/-- A walk: the driver's own mappings, which it keeps in the same tables, and the rest of the tables. -/
def State.walkTable (s : State) (ctx page : Nat) : WalkRes :=
  match (s.ctx ctx).drv.findSome? fun m => m.entry ctx (s.ctx ctx).key page with
  | some e => .hit e
  | none => s.walkHbm ctx page

/-- A range of page numbers that the tables of a context do not use: the level-1 entries are tried in turn from the driver's
starting point, and in the first one that maps nothing, and that no published range of the context lies in, the lowest gap
between the driver's own ranges. (DESIGN CHOICE, log entry 20) -/
def State.driverPage (s : State) (ctx pages : Nat) : Nat :=
  let c := s.ctx ctx
  let need := pages + Config.driverGap s.freeCtr % 4096
  let published (i : Nat) : Bool := s.dies.toList.any fun d => d.pubs.any fun p => p.2.ctx == ctx &&
    p.2.pub.toNat / 2 ^ 40 ≤ i && i ≤ (p.2.pub.toNat + p.2.size) / 2 ^ 40
  let gap (i : Nat) : Option Nat :=
    if s.tableEntry (c.tableBase.toNat + 8 * i) % 2 == 1 || published i then none
    else
      let mine := c.drv.filter fun m => m.page / 2 ^ 24 == i
      ((i * 2 ^ 24) :: mine.map fun m => m.page + m.pages).find? fun p =>
        p + need ≤ (i + 1) * 2 ^ 24 && mine.all fun m => p + need ≤ m.page || m.page + m.pages ≤ p
  (((List.range 4095).findSome? fun i => gap ((i + Config.driverStart ctx) % 4095)).getD 0) +
    Config.driverGap s.freeCtr % 4096

def TlbEnt.covers (e : TlbEnt) (ctx page : Nat) : Bool := e.ctx == ctx && e.page ≤ page && page < e.page + e.pages

/-- The location of an address under an entry. -/
def TlbEnt.loc (e : TlbEnt) (va : Nat) : Nat := e.pa + (va - e.page * 65536)

/-- A translation entry that the core or its die holds for a page (R351). -/
def tlbFind (d : Die) (site ctx page : Nat) : Option TlbEnt :=
  d.tlb.find? fun e => e.covers ctx page && (e.core == none || e.core == some site)

/-- The identity page's number (R364). -/
def identPage : Nat := 0xFFFFFFFFF

/-- What an access of one byte comes to. -/
inductive Tr where
  | loc (l : Nat)
  /-- no translation entry: the page -/
  | miss (page : Nat)
  /-- a fault, with the bits it adds to DET2 (cause, level) -/
  | fault (code : FaultCode) (det : Nat)
  deriving DecidableEq, Repr

/-- Cause codes of DET2[11:10] (R95, R259): 1 host atomic, 2 published range. -/
def cause (n : Nat) : Nat := n * 2 ^ 10

/-- The publish entry of a context on a die whose published range holds an address. -/
def pubOf (d : Die) (ctx va : Nat) : Option (Nat × PubEnt) :=
  d.pubs.find? fun p => p.2.ctx == ctx && p.2.pub.toNat ≤ va && va < p.2.pub.toNat + p.2.size

/-- The version base, V0 or V1. -/
def PubEnt.ver (p : PubEnt) (v : Bool) : Nat := if v then p.v1.toNat else p.v0.toNat

/-- The publish entry whose version v holds an address. -/
def pubVer (d : Die) (ctx va : Nat) : Option (Nat × PubEnt × Bool) :=
  d.pubs.findSome? fun p =>
    if p.2.ctx != ctx then none
    else if p.2.v0.toNat ≤ va && va < p.2.v0.toNat + p.2.size then some (p.1, p.2, false)
    else if p.2.v1.toNat ≤ va && va < p.2.v1.toNat + p.2.size then some (p.1, p.2, true)
    else none

/-- The address after publication: a load of a published range goes to the selected version (R259, R302). -/
def pubRedirect (d : Die) (ctx va : Nat) (sel : Tab Nat Bool) : Nat :=
  match pubOf d ctx va with
  | some (i, p) => p.ver ((tget sel i).getD p.cur) + (va - p.pub.toNat)
  | none => va

/-- n bytes lie in one published range. -/
def inPub (d : Die) (ctx va n : Nat) : Bool :=
  (pubOf d ctx va).any fun p => va + n ≤ p.2.pub.toNat + p.2.size

/-- Access kinds of R95: 0 load, 1 store, 2 atomic. -/
abbrev AKind := Nat

/-- One byte of a thread's access at its die and core (R28, R95 checks 4 and 5, R94, R259, R302, R349, R364). -/
def trByte (d : Die) (site ctx level : Nat) (sel : Tab Nat Bool) (k : AKind) (va : Nat) : Tr :=
  if va / 65536 = identPage then
    if k = 0 then .loc (identBase + va % 65536) else .fault .protection 0
  else if k ≠ 0 && ((pubOf d ctx va).isSome ||
      match pubVer d ctx va with
      | some (_, p, v) => p.cur == v
      | none => false) then .fault .protection (cause 2)
  else
    let va := pubRedirect d ctx va sel
    match tlbFind d site ctx (va / 65536) with
    | none => .miss (va / 65536)
    | some e =>
      if k = 2 && e.h then .fault .protection (cause 1)
      else if e.s && level = 0 then .fault .protection 0
      else if k ≠ 0 && !e.w then .fault .protection 0
      else .loc (e.loc va)

/-- Translation for an engine, the firmware or the device's own writes of a context: the walk is made at once. -/
def State.trCtx (s : State) (ctx : Nat) (write : Bool) (va : Nat) : Except FaultCode Nat :=
  if 2 ^ 52 ≤ va then .error .translation
  else if va / 65536 = identPage then (if write then .error .protection else .ok (identBase + va % 65536))
  else match s.walkTable ctx (va / 65536) with
    | .fault _ => .error .translation
    | .hit e => if write && !e.w then .error .protection else .ok (e.loc va)

/-- Locations of n bytes from an address, or the first failure. -/
def State.trRange (s : State) (ctx : Nat) (write : Bool) (va : Nat) : Nat → Except FaultCode (List Nat)
  | 0 => .ok []
  | n + 1 => do
    let l ← s.trCtx ctx write va
    let ls ← State.trRange s ctx write (va + 1) n
    pure (l :: ls)

/-- Bytes of a context's memory as they stand now: what the firmware and the driver read. -/
def State.readNow (s : State) (ctx : Nat) (locs : List Nat) : List Byte :=
  locs.map fun l => s.decrypt (s.keyFor ctx l) l (s.byte l)

def State.readVa (s : State) (ctx va n : Nat) : Except FaultCode (List Byte) :=
  (s.trRange ctx false va n).map fun ls => s.readNow ctx ls

/-- A write of the firmware at a scope: it enters the order as a release of the firmware (R198, R367, R370). -/
def State.fwEnter (s : State) (scope : Scp) (bs : List (Nat × Byte)) : State :=
  let s := s.tick
  s.enter { ag := .firmware } none 0 [{ by_ := { ag := .firmware }, scope := scope, stamp := s.stamp }] false bs

/-- A write of the firmware in a context's memory. -/
def State.fwWrite (s : State) (scope : Scp) (ctx : Nat) (bs : List (Nat × Byte)) : State :=
  (s.fwEnter scope bs).tagCtx ctx (bs.map Prod.fst)

/-- A write of the firmware to memory that no context's key covers: host memory and translation tables. -/
def State.fwPlain (s : State) (scope : Scp) (bs : List (Nat × Byte)) : State :=
  (s.fwEnter scope bs).tagKeys 0 (bs.map Prod.fst)

/-- A write of the firmware to a context's address; dropped where the address is not mapped writable. -/
def State.fwWriteVa (s : State) (scope : Scp) (ctx va : Nat) (bytes : List Byte) : State :=
  match s.trRange ctx true va bytes.length with
  | .ok ls => s.fwWrite scope ctx (ls.zip bytes)
  | .error _ => s

/-! ## Scratch bytes -/

/-- A scratch byte: what was stored last, or else a loose value drawn from zero and the values that earlier workgroups of
the context left in the core's memory (R210). -/
def scByte (b : Scratch) (left : List Byte) (free : Nat) (off : Nat) : Byte :=
  match cellGet b off with
  | some x => x
  | none => (0 :: left).getD (Config.pick2 free off % (left.length + 1)) 0

def scPut (b : Scratch) (off : Nat) : List Byte → Scratch
  | [] => b
  | x :: xs => scPut (cellPut b off x) (off + 1) xs

end Sys2Proof.Machine
end

