-- ==== Sys2Proof/Machine/Flags.lean ====
section
/-! DEFINITION. The sticky flags of a wave, %fpflags (R27, R68), and their delivery test (R342). Which flags an operation
sets stands with the operation (Machine/Float.lean, Machine/Sfu.lean). -/

namespace Sys2Proof.Machine

/-- SetFlag for each flag of a set: the wave's flags are sticky (R27). -/
def State.setFlags (s : State) (t : TRef) (fl : BitVec 7) : State :=
  if fl = 0 then s else s.updWave t fun w => { w with fp := w.fp ||| fl }

/-- The flags named are cleared (the write form of MOVS, R87; TRAPRET SKIP, R339). -/
def State.clearFlags (s : State) (t : TRef) (fl : BitVec 7) : State :=
  s.updWave t fun w => { w with fp := w.fp &&& ~~~fl }

/-- E(t) of R342: the enabled flags that stand in the thread's wave. -/
def State.enabledFlags (s : State) (t : TRef) : BitVec 7 := (s.wave t).fp &&& (s.launchOf t).fpen

end Sys2Proof.Machine
end

