-- ==== Sys2Proof/Machine/Issue.lean ====
section
/-! DEFINITION. How a group issues an instruction: retirement, the records of faults (R331, R333, R53), the checks 8 to 10
of R52, the address checks of R95, page walks (R351), and event counters (R284). -/

namespace Sys2Proof.Machine

/-- A fault that an instruction raises, with its detail words. -/
structure Flt where
  code : FaultCode
  d0 : Word := 0
  d1 : Word := 0
  d2 : Word := 0
  d3 : Word := 0
  deriving DecidableEq, Repr

def w32 (n : Nat) : Word := BitVec.ofNat 32 n

/-! ## Event counters, R283, R284 -/

/-- A counter passes to a context: to another one, with nothing left of the former (R1). (DEDUCED, log entry 137) -/
def Counter.passTo (c : Counter) (ctx : BitVec 12) : Counter := if c.ctx = ctx then c else { ctx := ctx }

/-- A counter counts n events of a source for a launch and a thread, where its context is the event's (`own`). An event of a
workgroup that no thread of it makes, as an engine's, passes the thread filter by its workgroup. (DEDUCED, log entry 140) -/
def Counter.addEv (c : Counter) (own : Bool) (src : Nat) (lid wg tid : Option Nat) (n : Nat) : Counter :=
  let launchOk := !c.fl || lid == some c.flaunch.toNat
  let rangeOk := !c.fr || match wg, tid with
    | some g, some t => c.wgLo.toNat ≤ g && g ≤ c.wgHi.toNat && c.tidLo.toNat ≤ t && t ≤ c.tidHi.toNat
    | some g, none => c.wgLo.toNat ≤ g && g ≤ c.wgHi.toNat
    | none, _ => false
  if c.en && own && c.src.toNat == src && launchOk && rangeOk then
    { c with count := c.count + BitVec.ofNat 48 n, ovf := c.ovf || 2 ^ 48 ≤ c.count.toNat + n }
  else c

/-- A counter's context is the event's. An event with no context is the driver's alone: it counts where CTX names no live
context, so that no tenant reads it (R284). (DEDUCED, log entry 11) -/
def State.ownsEvent (s : State) (ctx : Option Nat) (c : Counter) : Bool :=
  match ctx with
  | some x => c.ctx.toNat == x
  | none => (tget s.contexts c.ctx.toNat).isNone

/-- n events of a source, of a context or of none, at a core of a die, at the die and at the hub: each counts where its
counters stand. -/
def State.count (s : State) (die : Nat) (site : Option Nat) (src : Nat) (ctx lid wg tid : Option Nat) (n : Nat) : State :=
  let add (c : Counter) : Counter := c.addEv (s.ownsEvent ctx c) src lid wg tid n
  let s := s.updDie die fun d =>
    { d with
      ctrs := d.ctrs.map add
      cores := match site with
        | some i => vupd d.cores i fun k => { k with ctrs := k.ctrs.map add }
        | none => d.cores }
  { s with hubCtrs := s.hubCtrs.map add }

/-- One event at the hub. -/
def State.countHub (s : State) (src : Nat) (ctx : Option Nat) : State :=
  { s with hubCtrs := s.hubCtrs.map fun c => c.addEv (s.ownsEvent ctx c) src none none none 1 }

/-- One event of a source that has no context, counted once at every core and die in service and at the hub. -/
def State.countModule (s : State) (src : Nat) : State :=
  let add (c : Counter) : Counter := c.addEv (s.ownsEvent none c) src none none none 1
  { s with
    dies := s.dies.map fun d =>
      if d.online then { d with ctrs := d.ctrs.map add, cores := d.cores.map fun k => { k with ctrs := k.ctrs.map add } } else d
    hubCtrs := s.hubCtrs.map add }

/-- An event of a thread. -/
def State.countT (s : State) (t : TRef) (src n : Nat) : State :=
  let g := s.wgOf t
  s.count g.die (some g.site) src (some (s.ctxOf t)) (some t.lid) (some t.wg) (some (s.tid t)) n

/-! ## Retirement and faults -/

/-- The instruction retires: the PC advances by its length (R38) and %icount counts it (R44). -/
def Thread.retire (th : Thread) (len : Nat) : Thread :=
  { th with pc := th.pc + len, icount := th.icount + 1, walkFault := none }

def State.retire (s : State) (len : Nat) (t : TRef) : State := s.updThr t fun th => th.retire len

def State.retireAll (s : State) (len : Nat) (ts : List TRef) : State := ts.foldl (fun s t => s.retire len t) s

/-- A region boundary has taken effect: RE := npc, at level 0 only (R328). -/
def Thread.bound (th : Thread) : Thread := if th.level = 0 then { th with re := th.pc } else th

/-- Retirement of a region boundary: RE becomes npc. -/
def State.retireBound (s : State) (len : Nat) (t : TRef) : State := s.updThr t fun th => (th.retire len).bound

def State.retireBoundAll (s : State) (len : Nat) (ts : List TRef) : State :=
  ts.foldl (fun s t => s.retireBound len t) s

/-- MASK of R333: bit k is slot k of the group. -/
def maskOf (group faulting : List TRef) : DWord :=
  BitVec.ofNat 64 ((group.zipIdx.filter fun p => faulting.contains p.1).foldl (fun n p => n + 2 ^ p.2) 0)

/-- The record of a precise fault at the thread's instruction (R333); RPC is RE. -/
def recOf (th : Thread) (mask : DWord) (f : Flt) : TrapRec :=
  { code := f.code, fpc := th.pc, rpc := th.re, mask := mask, det0 := f.d0, det1 := f.d1, det2 := f.d2, det3 := f.d3 }

/-- The threads stop before the instruction with a record of the fault; a trap entry follows (R331). -/
def State.raise (s : State) (ts : List TRef) (f : Flt) : State :=
  let mask := maskOf s.cur.threads ts
  ts.foldl (fun s t => s.updThr t fun th => { th with trap := some (recOf th mask f), walkFault := none }) s

/-- What walks have reported is used up by the instruction that met it. -/
def State.forgetWalks (s : State) (ts : List TRef) : State :=
  ts.foldl (fun s t => s.updThr t fun th => { th with walkFault := none }) s

/-- Active threads: those whose guard is true (R44). -/
def State.active (s : State) (p : Pred) : List TRef := s.cur.threads.filter fun t => predTrue (s.thr t) p

def State.inactive (s : State) (p : Pred) : List TRef := s.cur.threads.filter fun t => !predTrue (s.thr t) p

/-- Some active threads raise a fault: the threads of the group that take no part in the instruction retire, the others outside
the mask stay (R331). -/
def State.stopWith (s : State) (len : Nat) (p : Pred) (idle ts : List TRef) (f : Flt) : State :=
  ((s.retireAll len idle).forgetWalks (s.active p)).raise ts f

/-- The same where no thread whose guard is false takes part (R44). -/
def State.stop (s : State) (len : Nat) (p : Pred) (ts : List TRef) (f : Flt) : State := s.stopWith len p (s.inactive p) ts f

/-! ## Checks 8 to 10 of R52 -/

/-- What an instruction needs of the checks that the words alone do not decide. -/
structure Need where
  /-- the FEATURES bit it belongs to (R34) -/
  feat : Option Nat := none
  /-- not admitted above level 0 (R121) -/
  userOnly : Bool := false
  /-- privileged (R51) -/
  priv : Bool := false
  /-- displacements of its direct targets, which must lie in [0, CODESZ) -/
  disps : List Int := []
  /-- the kinds of its operand fields -/
  d : OpKind := .unused
  a : OpKind := .unused
  b : OpKind := .unused
  c : OpKind := .unused
  /-- its class keeps word 2 as the immediate -/
  imm : Bool := false
  /-- the literal of A holds the two displacements of HPUSH (R120) -/
  handlers : Option DWord := none
  /-- its wave's register count must be at least this for the register it writes (PERFORM, R121) -/
  count : Nat := 0
  deriving DecidableEq, Repr

/-- CAPS (R34, R373): what the device offers and the driver has accepted of bits 0 to 9; bit 0 is always set, and the reserved
bits are clear. -/
def State.caps (s : State) : BitVec 128 := ((s.devfeat &&& s.drvfeat).setWidth 128 &&& 0x3FF) ||| 1

/-- The level of the issuing group, which its threads share (R136). -/
def State.grpLevel (s : State) : Nat := s.cur.level

/-- CODESZ at the level of a thread: the kernel's, or the trap image's (R327). -/
def State.codeSize (s : State) (t : TRef) : Nat :=
  if (s.thr t).level = 0 then (s.launchOf t).hdr.codesz else 4 * ((s.launchOf t).trapCode.getD []).length

/-- Feature bit k is offered to the code at the thread's level: FEATURES, or CAPS at level 1 (R327). -/
def State.hasFeat (s : State) (t : TRef) (k : Nat) : Bool :=
  if (s.thr t).level = 0 then (s.launchOf t).hdr.features.getLsbD k else s.caps.getLsbD k

def noRef : TRef := { lid := 0, wg := 0, wave := 0, lane := 0 }

/-- Checks 8 and 9: the same for every thread of the group. Of several breaches of check 8 the detail names the field's value (7)
before the level (8), and the level before the feature (0xA). (DESIGN CHOICE, log entry 131) -/
def State.groupFault (s : State) (n : Need) : Option Flt :=
  let t := s.cur.threads.headD noRef
  let pc : Int := (s.thr t).pc
  let ill (d0 : Word) : Option Flt := some { code := .illegalInstruction, d0 := d0, d1 := s.curW0, d2 := s.curW1 }
  if n.disps.any fun d => pc + d < 0 || (s.codeSize t : Int) ≤ pc + d then ill 7
  else if n.userOnly && (s.thr t).level != 0 then ill 8
  else if (match n.feat with
      | some k => !s.hasFeat t k
      | none => false) then ill 0xA
  else if n.priv && (s.thr t).level == 0 then
    some { code := .privilege, d0 := 0, d1 := s.curW0, d2 := s.curW1 }
  else none

/-- A register is allocated to a thread (R23, R187, R327). -/
def State.alloc (s : State) (t : TRef) (n : Nat) : Bool := allocated (s.thr t).level (s.wave t).c n

/-- A displacement of HPUSH's literal is admitted (R120). -/
def hpushDisp (pc codesz : Nat) (d : Word) : Bool :=
  d.toNat % 4 == 0 && 0 ≤ (pc : Int) + d.toInt && (pc : Int) + d.toInt < codesz

/-- The displacements in A's literal are admitted for a thread, where A holds some. -/
def State.handlersOk (s : State) (n : Need) (t : TRef) : Bool :=
  match n.handlers with
  | none => true
  | some x => hpushDisp (s.thr t).pc (s.codeSize t) (lo32 x) && hpushDisp (s.thr t).pc (s.codeSize t) (hi32 x)

/-- The operand code of field k (D, A, B, C) is not admitted for some active thread: its detail words, and the threads that the
record masks (check 10, R53): every active one, but for the register count of PERFORM those whose wave's count is too low
(R121). That count is examined before D's own code. (DESIGN CHOICE, log entry 131) -/
def State.operandFault (s : State) (n : Need) (d a b c : Operand) (hasLit : Bool) (act : List TRef) :
    Option (Flt × List TRef) :=
  let few := act.filter fun t => (s.wave t).c < n.count
  if !few.isEmpty then some ({ code := .illegalOperand, d0 := 0, d1 := 8, d2 := s.curW0 }, few)
  else
    [(n.d, d), (n.a, a), (n.b, b), (n.c, c)].zipIdx.findSome? fun x =>
      if act.any fun t => !opOk (s.alloc t) n.imm hasLit x.1.1 x.1.2 || (x.2 == 1 && !s.handlersOk n t) then
        some ({ code := .illegalOperand, d0 := w32 x.2, d1 := w32 x.1.2.code, d2 := s.curW0 }, act)
      else none

/-- ILLEGAL_OPERAND of a field by its value (R183, R232, R235, R238, R239): detail word 1 is the code. -/
def State.operandFlt (s : State) (field : Nat) (o : Operand) : Flt :=
  { code := .illegalOperand, d0 := w32 field, d1 := w32 o.code, d2 := s.curW0 }

/-- The length of a long and of a short form (R38). -/
def hlen (h : Hdr) : Nat := if h.lit.isSome then 20 else 12

def slen (f : Short) : Nat := if f.lit.isSome then 12 else 4

/-- A long form issues: checks 8 to 10, then the body on the active threads; `idle` are the threads that take no part, and retire
where others stop. (DEDUCED, log entry 24) -/
def State.issueWith (s : State) (h : Hdr) (n : Need) (idle : List TRef) (body : List TRef → State → State) : State :=
  match s.groupFault n with
  | some f => s.raise s.cur.threads f
  | none =>
    let act := s.active h.pred
    match s.operandFault n h.d h.a h.b h.c h.lit.isSome act with
    | some (f, ts) => s.stopWith (hlen h) h.pred idle ts f
    | none => body act s

/-- The same where no thread whose guard is false takes part (R44). -/
def State.issue (s : State) (h : Hdr) (n : Need) (body : List TRef → State → State) : State :=
  s.issueWith h n (s.inactive h.pred) body

/-- The long form of a short-map form (R48): no guard, the type, no rounding or saturation, C unused. -/
def Short.hdr (f : Short) (ty : Ty) : Hdr :=
  { d := f.d, a := f.a, b := f.b, c := .v 0, pred := .always, ty := ty, rnd := .rne, sat := false, lit := f.lit }

/-- A short form issues. -/
def State.issueShort (s : State) (f : Short) (n : Need) (body : List TRef → State → State) : State :=
  match s.groupFault n with
  | some flt => s.raise s.cur.threads flt
  | none =>
    match s.operandFault n f.d f.a f.b (.v 0) f.lit.isSome s.cur.threads with
    | some (flt, ts) => s.raise ts flt
    | none => body s.cur.threads s

/-- What the operands of a form read for a thread. -/
def State.rd (s : State) (t : TRef) (imm : Word) (lit : Option DWord) : Rd :=
  { th := s.thr t, wave := s.wave t, imm := imm, lit := lit.getD 0 }

/-- Each active thread acts alone, then the group retires. -/
def State.each (s : State) (len : Nat) (act : List TRef) (eff : TRef → State → State) : State :=
  (act.foldl (fun s t => eff t s) s).retireAll len s.cur.threads

/-- What a meaning answers. -/
abbrev Out := Host.Outcome State Fault Refusal

/-- What happens only while the module has power (R3). -/
def State.powered (s : State) (f : State → State) : Out := .next (if s.power then f s else s)

/-- The kinds of a source and of a destination by the type (R42, R75, R96). -/
def srcK (ty : Ty) : OpKind :=
  match ty with
  | .f64 => .srcF64
  | .i64 | .n64 | .b64 => .srcW
  | _ => .src

/-- A type of 64 bits. -/
def tyWide (ty : Ty) : Bool := ty.bits == 64

def dstK (ty : Ty) : OpKind := if tyWide ty then .dstW else .dst

/-- Width w of R75. -/
def tyW (ty : Ty) : Nat := if tyWide ty then 64 else 32

/-- The FEATURES bit of an f64 form (R34 bit 1). -/
def f64Feat (ty : Ty) : Option Nat := if ty == .f64 then some 1 else none

/-- An active thread writes D with a value of its own reads; flags join the wave's (R75, R96). -/
def State.put (wide : Bool) (d : Operand) (imm : Word) (lit : Option DWord) (val : Rd → Nat × BitVec 7) (t : TRef)
    (s : State) : State :=
  let x := val (s.rd t imm lit)
  (s.updThr t fun th => th.setD wide d x.1).setFlags t x.2

/-- A long form whose only effect on each active thread is a value in D and flags. -/
def State.alu (s : State) (h : Hdr) (imm : Word) (n : Need) (wide : Bool) (val : Rd → Nat × BitVec 7) : State :=
  s.issue h n fun act s => s.each (hlen h) act (State.put wide h.d imm h.lit val)

/-- The same for a short-map form (R48). -/
def State.aluShort (s : State) (f : Short) (n : Need) (wide : Bool) (val : Rd → Nat × BitVec 7) : State :=
  s.issueShort f n fun act s => s.each (slen f) act (State.put wide f.d 0 f.lit val)

/-! ## Faults of an instruction's own entry -/

/-- The faults of the active threads: each thread's rank and fault, in slot order. -/
def faultsOf (act : List TRef) (chk : TRef → Option (Nat × Flt)) : List (TRef × Nat × Flt) :=
  act.filterMap fun t => (chk t).map fun x => (t, x.1, x.2)

/-- The fault that the record carries: that of the lowest rank, of the first thread that has it. -/
def firstRank (l : List (TRef × Nat × Flt)) : Option (Nat × Flt) :=
  l.foldl (fun best x => match best with
    | none => some x.2
    | some b => if x.2.1 < b.1 then some x.2 else some b) none

/-- The group stops when an active thread faults. The record carries the fault of lowest rank and masks the threads that
have that rank (`all` false, R95) or every faulting thread (`all` true, R113, R122, R203). -/
def State.guardFaults (s : State) (len : Nat) (p : Pred) (act : List TRef) (all : Bool)
    (chk : TRef → Option (Nat × Flt)) (k : State → State) : State :=
  let l := faultsOf act chk
  match firstRank l with
  | none => k s
  | some (r, f) => s.stop len p ((l.filter fun x => all || x.2.1 == r).map Prod.fst) f

/-! ## Addresses, R95 -/

/-- What an access of a thread comes to. -/
inductive Acc where
  /-- the locations of its bytes -/
  | ok (locs : List Nat)
  /-- pages without a translation entry -/
  | miss (pages : List Nat)
  | fault (rank : Nat) (f : Flt)
  /-- a write to a retired published version waits (R261) -/
  | shadow (entry : Nat)
  deriving DecidableEq, Repr

/-- The stack region at the thread's level: B and S (R25, R327). -/
def State.stackRegion (s : State) (t : TRef) : Nat × Nat :=
  let th := s.thr t
  if th.level = 0 then (th.stackB.toNat, th.stackS)
  else ((s.ctx (s.ctxOf t)).trapBase.toNat + 16384 * th.slot.getD 0 + 15360, 1024)

def accFlt (code : FaultCode) (ea : DWord) (n : Nat) (k : AKind) (bits : Nat) : Flt :=
  { code := code, d0 := lo32 ea, d1 := hi32 ea, d2 := w32 (n % 2 ^ 8 + k * 2 ^ 8 + bits) }

/-- Workgroups on the die, but for one, that still select a version of a publish entry, or engine commands that read it (R261). -/
def State.versionBusyBut (s : State) (but : Option (Nat × Nat)) (die entry : Nat) (v : Bool) : Bool :=
  (s.wgs.any fun g => some g.1 != but && g.2.die == die && g.2.st != .ended && tget g.2.sel entry == some v) ||
  ((s.die die).copyQ.toList.any fun q => q.any fun c => c.started && c.pubR.contains (entry, v)) ||
  ((s.die die).encQ.toList.any fun q => q.any fun c => c.started && c.pubR.contains (entry, v))

/-- Any of them. -/
def State.versionBusy (s : State) (die entry : Nat) (v : Bool) : Bool := s.versionBusyBut none die entry v

/-- A thread's access of n bytes at ea: the checks of R95 in their order. `align`: an atomic's alignment; `stack`: the base
is w63 (R25). (DESIGN CHOICE, log entry 108) -/
def State.access (s : State) (t : TRef) (k : AKind) (ea : DWord) (n : Nat) (align stack : Bool) : Acc :=
  let th := s.thr t
  let g := s.wgOf t
  let d := s.die g.die
  let ctx := s.ctxOf t
  let a := ea.toNat
  if 2 ^ 52 ≤ a then .fault 1 (accFlt .badAddress ea n k 0)
  else if (align && a % n != 0) || (stack && th.sp.toNat % 16 != 0) then .fault 2 (accFlt .misaligned ea n k 0)
  else if stack && !((s.stackRegion t).1 ≤ a && a + n ≤ (s.stackRegion t).1 + (s.stackRegion t).2) then
    .fault 3 (accFlt .stackLimit ea n k 0)
  else
    let trs := (List.range n).map fun i => trByte d g.site ctx th.level g.sel k ((a + i) % 2 ^ 52)
    let pages := trs.filterMap fun x => match x with
      | .miss p => some p
      | _ => none
    match pages.find? fun p => (th.walkFault.map Prod.fst) == some p with
    | some _ => .fault 4 (accFlt .translation ea n k ((th.walkFault.map Prod.snd).getD 0))
    | none =>
      if pages ≠ [] then .miss pages.eraseDups
      else
        match trs.findSome? fun x => match x with
          | .fault c b => some (c, b)
          | _ => none with
        | some (c, b) => .fault 5 (accFlt c ea n k b)
        | none =>
          let locs := trs.filterMap fun x => match x with
            | .loc l => some l
            | _ => none
          match (if k = 0 then none else (List.range n).findSome? fun i => match pubVer d ctx ((a + i) % 2 ^ 52) with
              | some (e, p, v) => if v != p.cur && s.versionBusy g.die e v then some e else none
              | none => none) with
          | some e => .shadow e
          | none => .ok locs

def Acc.rank? : Acc → Option (Nat × Flt)
  | .fault r f => some (r, f)
  | _ => none

/-- A walk of a page is in progress or queued on a die. -/
def Die.walking (d : Die) (ctx page : Nat) : Bool := d.walks.any fun w => w.ctx == ctx && w.page == page

/-- The 128 walkers of a die and the queue of 4,096 misses before them have room (R351). -/
def Die.walkRoom (d : Die) : Bool := d.walks.length < 128 + 4096

/-- A miss of a thread on a page: it joins the walk in progress, or starts or queues one; where the queue is full, the memory
slot of its core stalls (R351). -/
def State.askWalk (s : State) (t : TRef) (page : Nat) : State :=
  let g := s.wgOf t
  let ctx := s.ctxOf t
  let d := s.die g.die
  if d.walking ctx page then
    s.updDie g.die fun d => { d with walks := d.walks.map fun w =>
      if w.ctx == ctx && w.page == page then { w with joined := (w.joined ++ [t]).eraseDups } else w }
  else if d.walkRoom then s.updDie g.die fun d => { d with walks := d.walks ++ [{ ctx := ctx, page := page, joined := [t] }] }
  else s.updCore g.die g.site fun k => { k with stalled := true }

/-- The issue group waits as a whole, and issues its instruction again as one group. -/
def State.holdGroup (s : State) (w : Wait) : State :=
  s.cur.threads.foldl (fun s t => s.updThr t fun th => { th with wait := w }) s

/-- The group waits for the walk of a page that one of its threads has missed. -/
def State.parkWalk (s : State) (t : TRef) (page : Nat) : State :=
  let ctx := s.ctxOf t
  (s.updDie (s.wgOf t).die fun d => { d with walks := d.walks.map fun w =>
    if w.ctx == ctx && w.page == page then { w with groups := w.groups ++ [s.cur] } else w }).holdGroup (.walk page)

/-- What a group must wait for before its instruction can be checked: the walks of the pages that its threads miss, and retired
versions. The whole group waits, so that the checks of R95 are made on all of its threads together. `none` when nothing is
waited for. (DEDUCED, log entry 25) -/
def State.stall (s : State) (acc : List (TRef × Acc)) : Option State :=
  let misses := acc.flatMap fun x => match x.2 with
    | .miss ps => ps.map fun p => (x.1, p)
    | _ => []
  let shadow := acc.findSome? fun x => match x.2 with
    | .shadow e => some e
    | _ => none
  if misses.isEmpty && shadow.isNone then none
  else
    let s := misses.foldl (fun s x => s.askWalk x.1 x.2) s
    some (match misses.find? fun x => (s.die (s.wgOf x.1).die).walking (s.ctxOf x.1) x.2, shadow with
      | some x, _ => s.parkWalk x.1 x.2
      | none, some e => if misses.isEmpty then s.holdGroup (.shadow e) else s
      | none, none => s)

/-- The locations of an access that passed. -/
def Acc.locs : Acc → List Nat
  | .ok l => l
  | _ => []

/-- An outstanding load of the thread reads some of the locations: a store or an atomic of the thread waits (R21). -/
def State.loadBusy (s : State) (t : TRef) (locs : List Nat) : Bool :=
  s.loads.any fun l => l.thread == t && l.pieces.any fun p => p.any locs.contains

/-- The bytes that the accesses write are free of the threads' own outstanding loads; until then the group issues again. -/
def State.whenClear (s : State) (acc : List (TRef × Acc)) (k : State → State) : State :=
  if acc.any fun x => s.loadBusy x.1 x.2.locs then s else k s

/-- A group's accesses: waits first, then faults by R95, then the rest of the instruction. (DEDUCED, log entry 25) -/
def State.withAccess (s : State) (len : Nat) (p : Pred) (act : List TRef) (acc : TRef → Acc) (k : State → State) : State :=
  match s.stall (act.map fun t => (t, acc t)) with
  | some s' => s'
  | none => s.guardFaults len p act false (fun t => (acc t).rank?) k

end Sys2Proof.Machine
end

