-- ==== Sys2Proof/Machine/Int.lean ====
section
/-! DEFINITION. The INT class (R77 to R79) and its short-map forms (R48). -/

namespace Sys2Proof.Machine

/-- The inputs of an INT instruction: the patterns and the values read as TYPE (R76). -/
structure IntIn where
  ty : Ty
  a : Nat
  b : Nat
  c : Nat
  /-- B at 32 bits, for the shifts -/
  s : Nat

def IntIn.va (i : IntIn) : Int := tyVal i.ty i.a
def IntIn.vb (i : IntIn) : Int := tyVal i.ty i.b
def IntIn.vc (i : IntIn) : Int := tyVal i.ty i.c
def IntIn.w (i : IntIn) : Nat := tyW i.ty

/-! ## x of R78, before the clamp -/

def xAdd (i : IntIn) : Int := i.va + i.vb
def xSub (i : IntIn) : Int := i.va - i.vb
def xMul (i : IntIn) : Int := i.va * i.vb
/-- The high w bits of the exact product: the floor of the quotient. -/
def xMulh (i : IntIn) : Int := Int.fdiv (i.va * i.vb) (2 ^ i.w)
def xMad (i : IntIn) : Int := i.va * i.vb + i.vc
def xMin (i : IntIn) : Int := min i.va i.vb
def xMax (i : IntIn) : Int := max i.va i.vb
def xAbs (i : IntIn) : Int := if i.va < 0 then -i.va else i.va
def xNeg (i : IntIn) : Int := -i.va
def xAnd (i : IntIn) : Int := (i.a &&& i.b : Nat)
def xOr (i : IntIn) : Int := (i.a ||| i.b : Nat)
def xXor (i : IntIn) : Int := (i.a ^^^ i.b : Nat)
def xAndn (i : IntIn) : Int := (i.a &&& (2 ^ i.w - 1 - i.b) : Nat)
def xNot (i : IntIn) : Int := (2 ^ i.w - 1 - i.a : Nat)
def xShl (i : IntIn) : Int := if i.w ≤ i.s then 0 else (i.a * 2 ^ i.s : Nat)
def xShr (i : IntIn) : Int := if i.w ≤ i.s then 0 else (i.a / 2 ^ i.s : Nat)
def xSar (i : IntIn) : Int := Int.fdiv (signed i.w i.a) (2 ^ min i.s (i.w - 1))

/-- The inputs that a thread reads. -/
def intIn (ty : Ty) (a b c : Operand) (r : Rd) : IntIn :=
  let w := tyWide ty
  { ty := ty, a := r.rw w a, b := r.rw w b, c := r.rw w c, s := (r.r32 b).toNat }

/-- D := x (R76), clamped first where SAT acts (R78). No flag (R75). -/
def intOut (ty : Ty) (sat : Bool) (x : Int) : Nat × BitVec 7 :=
  (wrap (tyW ty) (if sat then clampTy ty x else x), 0)

/-! ## The operand fields of R77 -/

def needA (ty : Ty) : Need := { d := dstK ty, a := srcK ty, imm := true }
def needAB (ty : Ty) : Need := { d := dstK ty, a := srcK ty, b := srcK ty, imm := true }
def needABC (ty : Ty) : Need := { d := dstK ty, a := srcK ty, b := srcK ty, c := srcK ty, imm := true }
/-- The shifts read B at 32 bits. -/
def needShift (ty : Ty) : Need := { d := dstK ty, a := srcK ty, b := .src, imm := true }

/-- An INT long form; `clamps` where SAT acts. -/
def State.int (s : State) (h : Hdr) (imm : Word) (n : Need) (clamps : Bool) (x : IntIn → Int) : State :=
  s.alu h imm n (tyWide h.ty) fun r => intOut h.ty (clamps && h.sat) (x (intIn h.ty h.a h.b h.c r))

/-- An INT short form: no saturation. -/
def State.intShort (s : State) (f : Short) (ty : Ty) (n : Need) (x : IntIn → Int) : State :=
  s.aluShort f { n with imm := false } (tyWide ty) fun r => intOut ty false (x (intIn ty f.a f.b (.v 0) r))

def execAdd (h : Hdr) (imm : Word) (s : State) : Out := .next (s.int h imm (needAB h.ty) true xAdd)
def execSub (h : Hdr) (imm : Word) (s : State) : Out := .next (s.int h imm (needAB h.ty) true xSub)
def execMul (h : Hdr) (imm : Word) (s : State) : Out := .next (s.int h imm (needAB h.ty) true xMul)
def execMulh (h : Hdr) (imm : Word) (s : State) : Out := .next (s.int h imm (needAB h.ty) false xMulh)
def execMad (h : Hdr) (imm : Word) (s : State) : Out := .next (s.int h imm (needABC h.ty) true xMad)
def execMin (h : Hdr) (imm : Word) (s : State) : Out := .next (s.int h imm (needAB h.ty) false xMin)
def execMax (h : Hdr) (imm : Word) (s : State) : Out := .next (s.int h imm (needAB h.ty) false xMax)
def execAbs (h : Hdr) (imm : Word) (s : State) : Out := .next (s.int h imm (needA h.ty) true xAbs)
def execNeg (h : Hdr) (imm : Word) (s : State) : Out := .next (s.int h imm (needA h.ty) true xNeg)
def execAnd (h : Hdr) (imm : Word) (s : State) : Out := .next (s.int h imm (needAB h.ty) false xAnd)
def execOr (h : Hdr) (imm : Word) (s : State) : Out := .next (s.int h imm (needAB h.ty) false xOr)
def execXor (h : Hdr) (imm : Word) (s : State) : Out := .next (s.int h imm (needAB h.ty) false xXor)
def execAndn (h : Hdr) (imm : Word) (s : State) : Out := .next (s.int h imm (needAB h.ty) false xAndn)
def execNot (h : Hdr) (imm : Word) (s : State) : Out := .next (s.int h imm (needA h.ty) false xNot)
def execShl (h : Hdr) (imm : Word) (s : State) : Out := .next (s.int h imm (needShift h.ty) false xShl)
def execShr (h : Hdr) (imm : Word) (s : State) : Out := .next (s.int h imm (needShift h.ty) false xShr)
def execSar (h : Hdr) (imm : Word) (s : State) : Out := .next (s.int h imm (needShift h.ty) false xSar)

/-! ## Short-map forms, R48 -/

def execAddShort (f : Short) (s : State) : Out := .next (s.intShort f .i32 (needAB .i32) xAdd)
def execSubShort (f : Short) (s : State) : Out := .next (s.intShort f .i32 (needAB .i32) xSub)
def execMulShort (f : Short) (s : State) : Out := .next (s.intShort f .i32 (needAB .i32) xMul)
def execMulhI32Short (f : Short) (s : State) : Out := .next (s.intShort f .i32 (needAB .i32) xMulh)
def execMulhN32Short (f : Short) (s : State) : Out := .next (s.intShort f .n32 (needAB .n32) xMulh)
def execAndShort (f : Short) (s : State) : Out := .next (s.intShort f .b32 (needAB .b32) xAnd)
def execOrShort (f : Short) (s : State) : Out := .next (s.intShort f .b32 (needAB .b32) xOr)
def execXorShort (f : Short) (s : State) : Out := .next (s.intShort f .b32 (needAB .b32) xXor)
def execAndnShort (f : Short) (s : State) : Out := .next (s.intShort f .b32 (needAB .b32) xAndn)
def execShlShort (f : Short) (s : State) : Out := .next (s.intShort f .b32 (needShift .b32) xShl)
def execShrShort (f : Short) (s : State) : Out := .next (s.intShort f .b32 (needShift .b32) xShr)
def execSarShort (f : Short) (s : State) : Out := .next (s.intShort f .b32 (needShift .b32) xSar)
def execMinI32Short (f : Short) (s : State) : Out := .next (s.intShort f .i32 (needAB .i32) xMin)
def execMaxI32Short (f : Short) (s : State) : Out := .next (s.intShort f .i32 (needAB .i32) xMax)
def execMinN32Short (f : Short) (s : State) : Out := .next (s.intShort f .n32 (needAB .n32) xMin)
def execMaxN32Short (f : Short) (s : State) : Out := .next (s.intShort f .n32 (needAB .n32) xMax)
def execAddw (f : Short) (s : State) : Out := .next (s.intShort f .i64 (needAB .i64) xAdd)
def execSubw (f : Short) (s : State) : Out := .next (s.intShort f .i64 (needAB .i64) xSub)

end Sys2Proof.Machine
end

