-- ==== Sys2Proof/Machine/Bit.lean ====
section
/-! DEFINITION. The BIT class (R80, R81). -/

namespace Sys2Proof.Machine

/-- Zero bits above the highest one bit of a w-bit pattern. -/
def clzN (w a : Nat) : Nat := if a = 0 then w else w - 1 - Nat.log2 a

/-- Zero bits below the lowest one bit, looking at bits from i on. -/
def ctzGo (a : Nat) : Nat → Nat → Nat
  | 0, _ => 0
  | k + 1, i => if Nat.testBit a i then 0 else 1 + ctzGo a k (i + 1)

def ctzN (w a : Nat) : Nat := ctzGo a w 0

def popcN (w a : Nat) : Nat := ((List.range w).filter fun i => Nat.testBit a i).length

def brevN (w a : Nat) : Nat :=
  (List.range w).foldl (fun n k => if Nat.testBit a (w - 1 - k) then n + 2 ^ k else n) 0

def rotN (w a s : Nat) : Nat := (a * 2 ^ (s % w) + a / 2 ^ (w - s % w)) % 2 ^ w

/-- Position and length of a field control word (R81). -/
def fieldCtl (w f : Nat) : Nat × Nat :=
  let pos := f % 2 ^ 8
  let len := f / 2 ^ 8 % 2 ^ 8
  (pos, if w ≤ pos then 0 else min len (w - pos))

def bfxN (w : Nat) (sgn : Bool) (a f : Nat) : Nat :=
  let (pos, len) := fieldCtl w f
  if len = 0 then 0
  else
    let x := a / 2 ^ pos % 2 ^ len
    if sgn then wrap w (signed len x) else x

def bfiN (w a b f : Nat) : Nat :=
  let (pos, len) := fieldCtl w f
  if len = 0 then b
  else b / 2 ^ (pos + len) * 2 ^ (pos + len) + a % 2 ^ len * 2 ^ pos + b % 2 ^ pos

/-- The byte that a PRMT selector gives. -/
def prmtByte (a b sel : Nat) : Nat :=
  let fill (x i : Nat) : Nat := if Nat.testBit x i then 0xFF else 0
  match sel with
  | 8 => 0x00
  | 9 => 0xFF
  | 10 => fill a 31
  | 11 => fill b 31
  | 12 => fill a 15
  | 13 => fill b 15
  | 14 => fill a 7
  | 15 => fill b 7
  | k => if k < 4 then a / 2 ^ (8 * k) % 2 ^ 8 else b / 2 ^ (8 * (k - 4)) % 2 ^ 8

def prmtN (a b c : Nat) : Nat :=
  (List.range 4).foldl (fun n k => n + prmtByte a b (c / 2 ^ (4 * k) % 2 ^ 4) * 2 ^ (8 * k)) 0

/-- The result of a count: 32 bits wide. -/
def needCount (ty : Ty) : Need := { d := .dst, a := srcK ty, imm := true }

def execClz (h : Hdr) (imm : Word) (s : State) : Out :=
  .next (s.alu h imm (needCount h.ty) false fun r => (clzN (tyW h.ty) (r.rw (tyWide h.ty) h.a), 0))

def execCtz (h : Hdr) (imm : Word) (s : State) : Out :=
  .next (s.alu h imm (needCount h.ty) false fun r => (ctzN (tyW h.ty) (r.rw (tyWide h.ty) h.a), 0))

def execPopc (h : Hdr) (imm : Word) (s : State) : Out :=
  .next (s.alu h imm (needCount h.ty) false fun r => (popcN (tyW h.ty) (r.rw (tyWide h.ty) h.a), 0))

def execBrev (h : Hdr) (imm : Word) (s : State) : Out :=
  .next (s.alu h imm (needA h.ty) (tyWide h.ty) fun r => (brevN (tyW h.ty) (r.rw (tyWide h.ty) h.a), 0))

def execBfx (h : Hdr) (imm : Word) (s : State) : Out :=
  .next (s.alu h imm (needShift h.ty) (tyWide h.ty) fun r =>
    (bfxN (tyW h.ty) (h.ty == .i32 || h.ty == .i64) (r.rw (tyWide h.ty) h.a) (r.r32 h.b).toNat, 0))

def execBfi (h : Hdr) (imm : Word) (s : State) : Out :=
  .next (s.alu h imm { needAB h.ty with c := .src } (tyWide h.ty) fun r =>
    (bfiN (tyW h.ty) (r.rw (tyWide h.ty) h.a) (r.rw (tyWide h.ty) h.b) (r.r32 h.c).toNat, 0))

def execRot (h : Hdr) (imm : Word) (s : State) : Out :=
  .next (s.alu h imm (needShift h.ty) (tyWide h.ty) fun r =>
    (rotN (tyW h.ty) (r.rw (tyWide h.ty) h.a) (r.r32 h.b).toNat, 0))

def execPrmt (h : Hdr) (imm : Word) (s : State) : Out :=
  .next (s.alu h imm (needABC h.ty) false fun r =>
    (prmtN (r.r32 h.a).toNat (r.r32 h.b).toNat (r.r32 h.c).toNat, 0))

end Sys2Proof.Machine
end

