-- ==== Sys2Proof/Machine/Cmp.lean ====
section
/-! DEFINITION. The CMP class (R82 to R84). -/

namespace Sys2Proof.Machine

/-- R83 on the values read as TYPE. -/
def cndHolds (c : Cnd) (a b : Int) : Bool :=
  match c with
  | .eq => a == b
  | .ne => a != b
  | .lt => a < b
  | .le => a ≤ b
  | .gt => b < a
  | .ge => b ≤ a

/-- A source predicate, inverted where PSN or PTN says so. -/
def Thread.srcP (th : Thread) (ps : BitVec 3) (inv : Bool) : Bool := th.getP ps.toNat != inv

/-- BOP of R84: t combined with u. -/
def combine (o : Bop) (t u : Bool) : Bool :=
  match o with
  | .set => t
  | .and => t && u
  | .or => t || u
  | .xor => t != u

/-- A form whose effect on each active thread is a predicate and flags. -/
def State.predForm (s : State) (h : Hdr) (n : Need) (pd : BitVec 3) (val : Rd → Bool × BitVec 7) : State :=
  s.issue h n fun act s => s.each (hlen h) act fun t s =>
    let x := val (s.rd t 0 h.lit)
    (s.updThr t fun th => th.setP pd.toNat x.1).setFlags t x.2

def execSetp (h : Hdr) (x : SetpX) (s : State) : Out :=
  .next (s.predForm h { a := srcK h.ty, b := srcK h.ty } x.pd fun r =>
    let t := cndHolds x.cnd (tyVal h.ty (r.rw (tyWide h.ty) h.a)) (tyVal h.ty (r.rw (tyWide h.ty) h.b))
    (combine x.bop t (r.th.srcP x.ps x.psn), 0))

def execSel (h : Hdr) (ps : BitVec 3) (psn : Bool) (s : State) : Out :=
  .next (s.alu h 0 { d := dstK h.ty, a := srcK h.ty, b := srcK h.ty } (tyWide h.ty) fun r =>
    (r.rw (tyWide h.ty) (if r.th.srcP ps psn then h.a else h.b), 0))

def execPlop (h : Hdr) (x : PlopX) (s : State) : Out :=
  .next (s.predForm h {} x.pd fun r => (combine x.bop (r.th.srcP x.ps x.psn) (r.th.srcP x.pt x.ptn), 0))

end Sys2Proof.Machine
end

