-- ==== Sys2Proof/Machine/Mov.lean ====
section
/-! DEFINITION. The MOV class (R85 to R87), the special registers (R26) and the short MOV (R48). -/

namespace Sys2Proof.Machine

/-! ## Logical numbers, R363 -/

/-- The logical core number of a site. -/
def Die.logical (d : Die) (site : Nat) : Nat := d.sites.idxOf site

def State.logicalDie (s : State) (d : Nat) : Nat := s.onlineDies.idxOf d

/-- The logical numbers of a core and its die: as the launch's tables have them, which a change of the module's cores leaves as
they are (R379). A static launch whose unit stands on another core than its own, since that one is in service no longer, and a
die that the launch's tables do not have, go by the current tables (R381). -/
def State.logicalNames (s : State) (l : Launch) (die site : Nat) (current : Bool) : Nat × Nat :=
  match l.tables.find? fun x => x.1 == die with
  | some x => (if current || !x.2.contains site then (s.die die).logical site else x.2.idxOf site,
               (l.tables.map Prod.fst).idxOf die)
  | none => ((s.die die).logical site, s.logicalDie die)

/-! ## Special registers, R26 -/

/-- Width in bits of a special register (R26). -/
def sriWide : Sri → Bool
  | .launch | .inseq | .clk | .icount | .now | .dline | .slack => true
  | _ => false

/-- %slack: the deadline less the time, clamped; the maximum without a deadline. -/
def slackOf (dline : Option DWord) (now : DWord) : Nat :=
  match dline with
  | none => 2 ^ 63 - 1
  | some d => wrap 64 (max (-2 ^ 63) (min (2 ^ 63 - 1) ((d.toNat : Int) - now.toNat)))

/-- The value of a special register for a thread. -/
def State.special (s : State) (t : TRef) (r : Sri) : Nat :=
  let g := s.wgOf t
  let l := s.launchOf t
  let th := s.thr t
  match r with
  | .tid => s.tid t
  | .lane => t.lane
  | .wave => t.wave
  | .wg => t.wg
  | .width => l.hdr.width
  | .role => (s.wave t).role
  | .gang => if l.gang = 0 then 0xFFFFFFFF else g.inst
  | .core => g.lcore
  | .die => g.ldie
  | .launch => t.lid
  | .ctx => l.ctx
  | .inseq => g.inseq.toNat
  | .brick => g.brick.getD 0xFFFFFFFF
  | .clk => if l.det = 2 then th.icount else s.cycle
  | .icount => th.icount
  | .now => s.now.toNat
  | .dline => (l.dline.getD 0xFFFFFFFFFFFFFFFF).toNat
  | .slack => slackOf l.dline s.now
  | .fpflags => (s.wave t).fp.toNat

/-! ## Meanings -/

def execMov (h : Hdr) (imm : Word) (s : State) : Out :=
  .next (s.alu h imm (needA h.ty) (tyWide h.ty) fun r => (r.rw (tyWide h.ty) h.a, 0))

def execMovShort (f : Short) (s : State) : Out :=
  .next (s.aluShort f { d := .dst, a := .src } false fun r => ((r.r32 f.a).toNat, 0))

/-- LI: the immediate, sign-extended for i64 and zero-extended for n64. -/
def execLi (h : Hdr) (imm : Word) (s : State) : Out :=
  .next (s.alu h imm { d := dstK h.ty, a := .immOnly, imm := true } (tyWide h.ty) fun _ =>
    (if h.ty == .i64 then wrap 64 (signed 32 imm.toNat) else imm.toNat, 0))

def execMovs (h : Hdr) (sri : Sri) (s : State) : Out :=
  .next (s.issue h { d := if sriWide sri then .dstW else .dst } fun act s =>
    s.each (hlen h) act fun t s => s.updThr t fun th => th.setD (sriWide sri) h.d (s.special t sri))

/-- The write form: a one in bit k of A clears flag k of %fpflags. -/
def execMovsWrite (h : Hdr) (s : State) : Out :=
  .next (s.issue h { a := .src } fun act s =>
    s.each (hlen h) act fun t s => s.clearFlags t (((s.rd t 0 h.lit).r32 h.a).setWidth 7))

def execMovpRead (h : Hdr) (s : State) : Out :=
  .next (s.alu h 0 { d := .dst } false fun r =>
    ((List.range 8).foldl (fun n k => if r.th.getP k then n + 2 ^ k else n) 0, 0))

def execMovpWrite (h : Hdr) (mask : BitVec 8) (s : State) : Out :=
  .next (s.issue h { a := .src } fun act s => s.each (hlen h) act fun t s =>
    let a := (s.rd t 0 h.lit).r32 h.a
    s.updThr t fun th => (List.range 8).foldl (fun th k =>
      if mask.getLsbD k then th.setP k (a.getLsbD k) else th) th)

/-- LEA: A + b·2^SH + SignExt(C); no address check. -/
def execLea (h : Hdr) (sh : BitVec 3) (x : Bool) (s : State) : Out :=
  .next (s.alu h 0 { d := .dstW, a := .srcW, b := .src, c := .src } true fun r =>
    let b32 := (r.r32 h.b).toNat
    let b : Int := if x then b32 else signed 32 b32
    (wrap 64 ((r.r64 h.a).toNat + b * 2 ^ sh.toNat + signed 32 (r.r32 h.c).toNat), 0))

end Sys2Proof.Machine
end

