-- ==== Sys2Proof/Machine/Flt.lean ====
section
/-! DEFINITION. The FLT class (R96 to R101) and its short-map forms (R48). -/

namespace Sys2Proof.Machine

/-- The format of f32 or f64. -/
def vecFmt (ty : Ty) : Fmt := if ty == .f64 then fmtF64 else fmtF32

/-! ## Values -/

/-- FMIN and FMAX (R99): bit for bit; one NaN gives the other operand; −0 < +0. -/
def Fmt.minmax (f : Fmt) (isMax : Bool) (a b : Nat) : Nat × BitVec 7 :=
  let x := f.decode a
  let y := f.decode b
  let nv := flagIf (x.isSnan || y.isSnan) fNV
  if x.isNan && y.isNan then ((f.nanOf [a, b]).map Prod.fst |>.getD 0, nv)
  else if x.isNan then (b, nv)
  else if y.isNan then (a, nv)
  else
    let c := fcmp x y
    let aFirst := if c = 0 then x.neg || !y.neg else c < 0
    (if isMax then (if aFirst then b else a) else (if aFirst then a else b), 0)

/-- FRINT (R98): rounded to an integral value, the sign kept. -/
def Fmt.frint (f : Fmt) (r : Rnd) (a : Nat) : Nat × BitVec 7 :=
  match f.nanOf [a] with
  | some x => x
  | none =>
    match f.decode a with
    | .fin neg m e =>
      let (k, inexact) := roundInt r neg m e
      ((f.roundTo .rne neg k 0).1, flagIf inexact fNX)
    | _ => (a, 0)

/-- FSCALE (R98). A count beyond ±5000 has the effect of ±5000: every finite value has left the range there. -/
def Fmt.fscale (f : Fmt) (r : Rnd) (a : Nat) (k : Int) : Nat × BitVec 7 :=
  match f.nanOf [a] with
  | some x => x
  | none =>
    match f.decode a with
    | .fin neg m e => f.roundTo r neg m (e + max (-5000) (min 5000 k))
    | _ => (a, 0)

/-- FCLASS (R100). -/
def Fmt.fclass (f : Fmt) (a : Nat) : Nat :=
  let ex := a / 2 ^ f.fw % 2 ^ f.ew
  match f.decode a with
  | .nan _ _ q => if q then 2 ^ 9 else 2 ^ 8
  | .inf n => if n then 2 ^ 0 else 2 ^ 7
  | .fin n m _ =>
    if m = 0 then (if n then 2 ^ 3 else 2 ^ 4)
    else if ex = 0 then (if n then 2 ^ 2 else 2 ^ 5)
    else (if n then 2 ^ 1 else 2 ^ 6)

/-- FSETP (R101): the mask bit of the relation that holds, and NV. -/
def Fmt.fsetp (f : Fmt) (mask : BitVec 4) (sig : Bool) (a b : Nat) : Bool × BitVec 7 :=
  let x := f.decode a
  let y := f.decode b
  let nv := flagIf (x.isSnan || y.isSnan || (sig && (x.isNan || y.isNan))) fNV
  if x.isNan || y.isNan then (mask.getLsbD 3, nv)
  else
    let c := fcmp x y
    (if c < 0 then mask.getLsbD 0 else if c = 0 then mask.getLsbD 1 else mask.getLsbD 2, nv)

/-! ## Operand fields -/

def needF1 (ty : Ty) : Need := { needA ty with feat := f64Feat ty }
def needF2 (ty : Ty) : Need := { needAB ty with feat := f64Feat ty }
def needF3 (ty : Ty) : Need := { needABC ty with feat := f64Feat ty }

/-- A float form of one, two or three sources. -/
def State.flt1 (s : State) (h : Hdr) (imm : Word) (f : Fmt → Nat → Nat × BitVec 7) : State :=
  s.alu h imm (needF1 h.ty) (tyWide h.ty) fun r => f (vecFmt h.ty) (r.rw (tyWide h.ty) h.a)

def State.flt2 (s : State) (h : Hdr) (imm : Word) (f : Fmt → Nat → Nat → Nat × BitVec 7) : State :=
  s.alu h imm (needF2 h.ty) (tyWide h.ty) fun r =>
    f (vecFmt h.ty) (r.rw (tyWide h.ty) h.a) (r.rw (tyWide h.ty) h.b)

/-- A short float form: f32, rne. -/
def State.fltShort (s : State) (f : Short) (val : Nat → Nat → Nat × BitVec 7) : State :=
  s.aluShort f { needAB .f32 with imm := false } false fun r => val (r.r32 f.a).toNat (r.r32 f.b).toNat

def execFadd (h : Hdr) (imm : Word) (s : State) : Out := .next (s.flt2 h imm fun f => f.add h.rnd)
def execFsub (h : Hdr) (imm : Word) (s : State) : Out := .next (s.flt2 h imm fun f => f.sub h.rnd)
def execFmul (h : Hdr) (imm : Word) (s : State) : Out := .next (s.flt2 h imm fun f => f.mul h.rnd)
def execFmin (h : Hdr) (imm : Word) (s : State) : Out := .next (s.flt2 h imm fun f => f.minmax false)
def execFmax (h : Hdr) (imm : Word) (s : State) : Out := .next (s.flt2 h imm fun f => f.minmax true)

def execFfma (h : Hdr) (imm : Word) (s : State) : Out :=
  .next (s.alu h imm (needF3 h.ty) (tyWide h.ty) fun r =>
    (vecFmt h.ty).fma h.rnd (r.rw (tyWide h.ty) h.a) (r.rw (tyWide h.ty) h.b) (r.rw (tyWide h.ty) h.c))

/-- FABS and FNEG act on the pattern alone (R99). -/
def execFabs (h : Hdr) (imm : Word) (s : State) : Out :=
  .next (s.flt1 h imm fun f a => (a % 2 ^ (f.ew + f.fw), 0))

def execFneg (h : Hdr) (imm : Word) (s : State) : Out := .next (s.flt1 h imm fun f a => (f.flipSign a, 0))

def execFsetp (h : Hdr) (x : FsetpX) (s : State) : Out :=
  .next (s.predForm h { a := srcK h.ty, b := srcK h.ty, feat := f64Feat h.ty } x.pd fun r =>
    let (t, fl) := (vecFmt h.ty).fsetp x.mask x.sig (r.rw (tyWide h.ty) h.a) (r.rw (tyWide h.ty) h.b)
    (combine x.bop t (r.th.srcP x.ps x.psn), fl))

def execFclass (h : Hdr) (imm : Word) (s : State) : Out :=
  .next (s.alu h imm { needF1 h.ty with d := .dst } false fun r =>
    ((vecFmt h.ty).fclass (r.rw (tyWide h.ty) h.a), 0))

def execFrint (h : Hdr) (imm : Word) (s : State) : Out := .next (s.flt1 h imm fun f => f.frint h.rnd)

/-- FSCALE reads B as i32 at 32 bits. -/
def execFscale (h : Hdr) (imm : Word) (s : State) : Out :=
  .next (s.alu h imm { needF1 h.ty with b := .src } (tyWide h.ty) fun r =>
    (vecFmt h.ty).fscale h.rnd (r.rw (tyWide h.ty) h.a) (signed 32 (r.r32 h.b).toNat))

/-! ## Short-map forms -/

def execFaddShort (f : Short) (s : State) : Out := .next (s.fltShort f (fmtF32.add .rne))
def execFsubShort (f : Short) (s : State) : Out := .next (s.fltShort f (fmtF32.sub .rne))
def execFmulShort (f : Short) (s : State) : Out := .next (s.fltShort f (fmtF32.mul .rne))
def execFminShort (f : Short) (s : State) : Out := .next (s.fltShort f (fmtF32.minmax false))
def execFmaxShort (f : Short) (s : State) : Out := .next (s.fltShort f (fmtF32.minmax true))

end Sys2Proof.Machine
end

