-- ==== Sys2Proof/Machine/Sync.lean ====
section
/-! DEFINITION. Releases and acquires of a workgroup (R251 to R257), how its writes enter the order, their digest and
journal (R272, R273, R335), stores held before the unit's turn (R267, R360), and bytes carried with an atomic (R93). -/

namespace Sys2Proof.Machine

/-! ## CRC-64/ECMA-182, R272 -/

def crcPoly : DWord := 0x42F0E1EBA9EA3693

/-- One bit of the CRC, the highest first. -/
def crcBit (c : DWord) : DWord := if c.getLsbD 63 then (c <<< 1) ^^^ crcPoly else c <<< 1

def crcByte (c : DWord) (b : Byte) : DWord :=
  (List.range 8).foldl (fun c _ => crcBit c) (c ^^^ (b.setWidth 64 <<< 56))

def crc64 (c : DWord) (l : List Byte) : DWord := l.foldl crcByte c

/-- The 44-byte record of a piece (R272): the sector's address, its 32 bytes with zero where nothing was written, the mask. -/
def digestRec (va : DWord) (bs : List (Nat × Byte)) : List Byte :=
  let at_ (i : Nat) : Option Byte := (bs.find? fun b => b.1 % 32 = i).map Prod.snd
  natToBytes 8 (va.toNat % 2 ^ 52 / 32 * 32) ++ (List.range 32).map (fun i => (at_ i).getD 0) ++
    natToBytes 4 ((List.range 32).foldl (fun n i => if (at_ i).isSome then n + 2 ^ i else n) 0)

/-! ## A write of a workgroup enters the order -/

/-- The journal record of a sector as it stood (R273), kept to be rolled back and written to the save area: what the launch's context
reads there (R1, R377). -/
def State.journalRec (s : State) (lid : Nat) (va : DWord) (loc : Nat) : State :=
  let l := s.launch lid
  let base := loc / 32 * 32
  let locs := (List.range 32).map fun i => base + i
  let place := l.journalAt.toNat + 64 * l.journal.length
  let shown := s.readNow l.ctx locs
  let bytes := natToBytes 8 (va.toNat % 2 ^ 52 / 32 * 32) ++ List.replicate 24 0 ++ shown
  let s := s.updLaunch lid fun l => { l with journal := l.journal ++ [(va, locs.zip shown)] }
  match s.trRange l.ctx true place 64 with
  | .ok ls => (s.enter { ag := .firmware } none 0 [] false (ls.zip bytes)).tagCtx l.ctx ls
  | .error _ => s

/-- A piece is folded into its workgroup's digest (R272), and into the launch's where the workgroup has ended before its held
stores enter. -/
def State.foldDigest (s : State) (lid wg : Nat) (va : DWord) (bs : List (Nat × Byte)) : State :=
  let g := s.wg lid wg
  let d := crc64 g.digest (digestRec va bs)
  let s := s.updWg lid wg fun g => { g with digest := d }
  if g.st == .ended then s.updLaunch lid fun l => { l with digests := tset l.digests wg d } else s

/-- A piece of a workgroup's write enters the order (R252), neither journalled nor folded. -/
def State.enterPlain (s : State) (lid wg : Nat) (thread : TRef) (stamp : Nat) (bs : List (Nat × Byte)) (pubs : List Pub)
    (atom : Bool) : State :=
  (s.enter (s.agentOf lid wg) (some thread) stamp pubs atom bs).tagKeys
    (s.keyFor (s.launch lid).ctx ((bs.map Prod.fst).headD 0)) (bs.map Prod.fst)

/-- A piece of a workgroup's write enters the order (R252), journalled and folded into the digest. A write that finds no
room in the journal does not enter, and no write of the launch after it does (R273). -/
def State.enterWg (s : State) (lid wg : Nat) (thread : TRef) (stamp : Nat) (va : DWord) (bs : List (Nat × Byte))
    (pubs : List Pub) (atom : Bool) : State :=
  let l := s.launch lid
  if l.journalFull then s
  else if l.journalOn && l.journalSz < 64 * (l.journal.length + 1) then
    s.updLaunch lid fun l => { l with journalFull := true }
  else
    let s := if l.journalOn then s.journalRec lid va ((bs.map Prod.fst).headD 0) else s
    (s.foldDigest lid wg va bs).enterPlain lid wg thread stamp bs pubs atom

/-! ## Releases -/

/-- The unit's turn is open (R267): outside deterministic operation, and for a standing update, it always is. -/
def State.turnOpen (s : State) (lid wg : Nat) : Bool :=
  let l := s.launch lid
  l.det == 0 || l.kind == .standing || (s.wg lid wg).inst ≤ l.turn

/-- The key order of R268 and R360 between two staged stores: icount, gang position, %tid, and the order of issue. -/
def stagedLt (s : State) (x y : Staged) : Bool :=
  let k (e : Staged) : Nat × Nat × Nat × Nat := (e.icount, (s.wgOf e.thread).pos, s.tid e.thread, e.stamp)
  let a := k x
  let b := k y
  a.1 < b.1 || (a.1 == b.1 && (a.2.1 < b.2.1 || (a.2.1 == b.2.1 && (a.2.2.1 < b.2.2.1 ||
    (a.2.2.1 == b.2.2.1 && a.2.2.2 ≤ b.2.2.2)))))

/-- Insertion at the place that an order gives. -/
def insertBy {α : Type} (lt : α → α → Bool) (a : α) : List α → List α
  | [] => [a]
  | b :: t => if lt a b then a :: b :: t else b :: insertBy lt a t

def sortBy {α : Type} (lt : α → α → Bool) : List α → List α
  | [] => []
  | a :: t => insertBy lt a (sortBy lt t)

/-- A launch has armed race reports. -/
def State.racesArmed (s : State) : Bool := s.launches.any fun l => l.2.race.isSome && !l.2.ended

/-- A synchronising operation of an agent is kept for race reports (R277), whether or not a launch that runs now has armed them: a
later one may. Of a release, the moment at which it began is kept too. -/
def State.logSyncBy (s : State) (by_ : AgentAt) (rel : Bool) (scope : Scp) (cover : Nat) : State :=
  { s with sync := { rel := rel, by_ := by_, scope := scope, stamp := s.stamp, cover := cover } :: s.sync }

/-- One of a workgroup. -/
def State.logSync (s : State) (lid wg : Nat) (rel : Bool) (scope : Scp) (cover : Nat) : State :=
  s.logSyncBy (s.agentOf lid wg) rel scope cover

/-- The members of a workgroup's unit. -/
def State.unitOf (s : State) (lid wg : Nat) : List Nat := (s.inst lid (s.wg lid wg).inst).members

/-- A release of a workgroup is held before its unit's turn (R267): until it enters it orders accesses of the unit's members alone
(R271, R277). (DEDUCED, log entry 135) -/
def State.logHeld (s : State) (lid wg : Nat) (scope : Scp) (cover : Nat) : State :=
  { s with sync := { rel := true, by_ := s.agentOf lid wg, scope := scope, stamp := s.stamp, cover := cover
                     unit := some (lid, s.unitOf lid wg) } :: s.sync }

/-- A held release enters the order. -/
def State.logEntry (s : State) (lid wg : Nat) (r : HeldRel) : State :=
  { s with sync := { rel := true, by_ := s.agentOf lid wg, scope := r.scope, stamp := s.stamp, cover := r.cover
                     after := some r.stamp } :: s.sync }

/-- Staged stores enter the order as the release completes that was made at stamp `at_`, and it carries what was guaranteed to
the workgroup at its last acquire before it (R253, R254), and the atomics that the workgroup made before it: each counts as
guaranteed at an acquire of its own moment (R256). (DEDUCED, log entry 50) -/
def State.enterStaged (s : State) (lid wg : Nat) (scope : Scp) (at_ : Nat) (a : Acq) (es : List Staged) : State :=
  let p : Pub := { by_ := s.agentOf lid wg, scope := scope, stamp := at_ }
  let own (w : WriteRec) : Bool := w.atom && w.by_.ag == p.by_.ag && w.entered < at_
  let s := { s with order := s.order.map fun w => if guaranteed w a || own w then { w with pubs := w.pubs ++ [p] } else w }
  (es.foldl (fun s e =>
    if e.quiet then (if (s.launch lid).journalFull then s else s.enterPlain lid wg e.thread e.stamp e.bytes [p] false)
    else s.enterWg lid wg e.thread e.stamp e.va e.bytes [p] false) s).tick

/-- Phase(scope) release of a workgroup: it covers the stores staged before `upTo` (R253). Before the unit's turn they stay
staged and are held (R267). -/
def State.release (s : State) (lid wg : Nat) (scope : Scp) (upTo : Nat) : State :=
  let g := s.wg lid wg
  let s := s.count g.die (some g.site) 0x102 (some (s.launch lid).ctx) (some lid) (some wg) none 1
  if s.turnOpen lid wg then
    let cover := g.staging.filter fun e => e.stamp < upTo
    let cover := if (s.launch lid).det = 0 then cover else sortBy (stagedLt s) cover
    let s := (s.updWg lid wg fun g => { g with staging := g.staging.filter (fun e => upTo ≤ e.stamp) }).tick
    (s.enterStaged lid wg scope s.stamp g.acq cover).logSync lid wg true scope upTo
  else
    let s := s.tick
    ((s.updWg lid wg fun g =>
      { g with
        staging := g.staging.map (fun e => if e.stamp < upTo && e.held.isNone then { e with held := some s.stamp } else e)
        heldRels := g.heldRels ++ [{ stamp := s.stamp, scope := scope, acq := g.acq, cover := upTo }] }).logHeld lid wg scope upTo).tick

/-- A release of all that is staged now. -/
def State.releaseAll (s : State) (lid wg : Nat) (scope : Scp) : State := s.release lid wg scope (s.stamp + 1)

/-- A held release of a workgroup enters: the stores that it was the first to cover, by the key of R360, and what it carries
besides. -/
def State.enterRel (s : State) (lid wg : Nat) (r : HeldRel) : State :=
  let es := sortBy (stagedLt s) ((s.wg lid wg).staging.filter fun e => e.held == some r.stamp)
  let s := s.updWg lid wg fun g =>
    { g with staging := g.staging.filter (fun e => e.held != some r.stamp), heldRels := g.heldRels.filter (fun x => x != r) }
  ((s.enterStaged lid wg r.scope r.stamp r.acq es).logEntry lid wg r).tick

/-- The held releases of a unit's members enter in the order in which they were made (R267). -/
def State.enterHeld (s : State) (lid : Nat) (ms : List Nat) : State :=
  let rs := sortBy (fun (a b : Nat × HeldRel) => a.2.stamp ≤ b.2.stamp) (ms.flatMap fun m => (s.wg lid m).heldRels.map fun r => (m, r))
  rs.foldl (fun s x => s.enterRel lid x.1 x.2) s

/-! ## Acquires -/

/-- Phase(scope) acquire of a workgroup (R254): what is guaranteed is fixed now, and so is the version of every publish
entry that its loads read (R259). -/
def State.acquire (s : State) (lid wg : Nat) (scope : Scp) : State :=
  let s := s.tick
  let at_ := s.agentOf lid wg
  let d := s.die (s.wg lid wg).die
  let ctx := (s.launch lid).ctx
  let s := s.updWg lid wg fun g =>
    { g with
      acq := { by_ := at_, scope := scope, stamp := s.stamp }
      sel := (d.pubs.filter fun p => p.2.ctx == ctx).map fun p => (p.1, p.2.cur) }
  (s.logSync lid wg false scope 0).tick

/-! ## R93 -/

/-- What an atomic at the locations carries: the stores staged to them, the newest first; under deterministic operation by the
key of R360. -/
def State.carried (s : State) (lid wg : Nat) (locs : List Nat) : List Staged :=
  let es := (s.wg lid wg).staging.filter fun e => locs.any e.has
  (if (s.launch lid).det = 0 then es else sortBy (stagedLt s) es).reverse

/-- The byte that the first of some stores has for a location. -/
def carriedByte (es : List Staged) (loc : Nat) : Option Byte :=
  es.findSome? fun e => e.byteAt loc

/-- The newest write names the stores that were staged to its bytes. -/
def nameWriters (who : List (Nat × TRef × Nat × Byte)) : List WriteRec → List WriteRec
  | [] => []
  | w :: ws => { w with who := who } :: ws

/-- The staged bytes that an atomic touches enter the order just before it, as one store piece (R272), and leave the staging; the
other bytes of the same stores stay staged. -/
def State.carry (s : State) (lid wg : Nat) (locs : List Nat) : State :=
  match s.carried lid wg locs with
  | [] => s
  | e :: es =>
    let bs := locs.filterMap fun l => (carriedByte (e :: es) l).map fun x => (l, x)
    let who := (e :: es).flatMap fun x => locs.filterMap fun l => (x.byteAt l).map fun b => (l, x.thread, x.stamp, b)
    let s := s.updWg lid wg fun g =>
      let rest := g.staging.map fun x => { x with bytes := x.bytes.filter (fun b => !locs.contains b.1) }
      { g with staging := rest.filter (fun x => !x.bytes.isEmpty) }
    let n := s.nextSeq
    let s := s.enterWg lid wg e.thread e.stamp e.va bs [] true
    if s.nextSeq = n then s else { s with order := nameWriters who s.order }

/-! ## Race reports, R277, R278 -/

/-- A logical name (R279): %launch, %wg, %tid. -/
def State.nameBytes (s : State) (t : TRef) : List Byte :=
  natToBytes 8 t.lid ++ natToBytes 4 t.wg ++ natToBytes 4 (s.tid t)

/-- What a chain of releases and acquires has reached: agents that have acquired, and releases that carry on. -/
structure Reach where
  agents : List Agent
  rels : List SyncEv

/-- A release may carry on to an acquire: each lies in the other's scope, and of one that is held the acquire is the unit's own. -/
def SyncEv.reaches (x e : SyncEv) : Bool :=
  inScope x.by_ x.scope e.by_ && inScope e.by_ e.scope x.by_ && x.unit.all fun u => match e.by_.ag with
    | .wg l g => l == u.1 && u.2.contains g
    | _ => false

/-- One synchronising event after the earlier access by `a0` at stamp `st`: a release of `a0` that began after the access covers
it (R253), and one that an agent makes which has been reached carries on; a held one that did so does it again as it enters. -/
def Reach.step (a0 : Agent) (st : Nat) (r : Reach) (e : SyncEv) : Reach :=
  if e.stamp ≤ st then r
  else if e.rel then
    let covers : Bool := match e.after with
      | some h => r.rels.any fun x => x.stamp == h && x.by_.ag == e.by_.ag
      | none => (e.by_.ag == a0 && st < e.cover) || r.agents.contains e.by_.ag
    if covers then { r with rels := e :: r.rels } else r
  else if r.rels.any fun x => x.reaches e then { r with agents := e.by_.ag :: r.agents }
  else r

/-- Who made an access: the engine, or the thread's workgroup. -/
def Access.agent (x : Access) : Agent := x.eng.getD (.wg x.thread.lid x.thread.wg)

/-- The earlier access happens before a later one of another thread (R277). -/
def happensBefore (sync : List SyncEv) (a b : Access) : Bool :=
  let r := (sync.filter fun e => e.stamp < b.stamp).foldr (fun e r => Reach.step a.agent a.stamp r e) { agents := [], rels := [] }
  r.agents.contains b.agent

/-- Two accesses race (R277): they touch a common byte of memory, by whichever address each names it. -/
def races (sync : List SyncEv) (a b : Access) : Bool :=
  (a.thread != b.thread || a.eng != b.eng) && (a.kind == 1 || b.kind == 1) && (b.locs.any fun l => a.locs.contains l) &&
    !happensBefore sync a b

/-- ADDR (R278): the lowest common byte, by the address at which the later access names it. (DESIGN CHOICE, log entry 150) -/
def commonVa (a b : Access) : Nat := b.va.toNat + b.locs.findIdx fun l => a.locs.contains l

/-- The 64-byte race record (R278). -/
def State.raceBytes (s : State) (a b : Access) : List Byte :=
  natToBytes 8 (commonVa a b) ++ natToBytes 4 a.pc ++ natToBytes 4 b.pc ++ s.nameBytes a.thread ++
    s.nameBytes b.thread ++ natToBytes 16 (a.kind + 4 * b.kind)

/-- A race is written to the launch's report ring, or counted when its 256 records are full. -/
def State.reportRace (s : State) (lid : Nat) (ring : DWord) (a b : Access) : State :=
  let l := s.launch lid
  if l.racePos < 256 then
    (s.fwWriteVa .system l.ctx (ring.toNat + 64 * l.racePos) (s.raceBytes a b)).updLaunch lid fun l =>
      { l with racePos := l.racePos + 1 }
  else s.updLaunch lid fun l => { l with raceovf := l.raceovf + 1 }

/-- The launch of a pair of accesses, the later first, that reports it: the first that has armed reports and has not ended. -/
def State.reporter (s : State) (b a : Nat) : Option (Nat × DWord) :=
  [b, a].findSome? fun lid =>
    let l := s.launch lid
    if l.ended then none else l.race.map fun ring => (lid, ring)

/-- An access is checked for races with those before it of the threads of every launch of its context, where one has armed
reports; a pair is reported once. -/
def State.checkRaces (s : State) (ctx : Nat) (b : Access) : State :=
  if !s.racesArmed then s
  else
    let earlier := (s.launches.filter fun x => x.2.ctx == ctx).flatMap fun x => x.2.accesses.reverse
    (earlier.filter fun a => races s.sync a b).foldl (fun s a => match s.reporter b.thread.lid a.thread.lid with
      | some (lid, ring) => s.reportRace lid ring a b
      | none => s) s

/-- A global access in the name of a thread, by itself or by an engine for its workgroup: checked for races, and kept for those to
come. (DEDUCED, log entry 135) -/
def State.noteAccess (s : State) (t : TRef) (eng : Option Agent) (kind : Nat) (va : DWord) (locs : List Nat) : State :=
  let s := s.tick
  let b : Access := { stamp := s.stamp, thread := t, eng := eng, pc := (s.thr t).pc, kind := kind, va := va, locs := locs }
  (s.checkRaces (s.launchOf t).ctx b).updLaunch t.lid fun l => { l with accesses := b :: l.accesses }

/-- A global access of a thread: counted (R284), and checked for races. -/
def State.logAccess (s : State) (t : TRef) (kind : Nat) (va : DWord) (locs : List Nat) : State :=
  (s.countT t (match kind with
    | 0 => 0x100
    | 1 => 0x101
    | _ => 0x103) 1).noteAccess t none kind va locs

/-! ## Staging of a store, R251, R91 -/

/-- The staging entries of a store, one for each sector piece, the lower first. -/
def State.entriesOf (s : State) (t : TRef) (va : DWord) (locs : List Nat) (bytes : List Byte) : List Staged :=
  (pieces locs).foldl (fun (acc : List Staged × Nat) p =>
    (acc.1 ++ [{ stamp := s.stamp, icount := (s.thr t).icount, thread := t, va := va + BitVec.ofNat 64 acc.2,
                 bytes := p.zip (bytes.drop acc.2) }], acc.2 + p.length)) ([], 0) |>.1

/-- A store's bytes enter the staging. -/
def State.stage (s : State) (t : TRef) (va : DWord) (locs : List Nat) (bytes : List Byte) : State :=
  let s := (s.logAccess t 1 va locs).tick
  let es := s.entriesOf t va locs bytes
  s.updWg t.lid t.wg fun g => { g with staging := g.staging ++ es }

/-! ## Synchronising operations under deterministic operation, R268 -/

/-- A thread waits, after its own arrival, in an operation that R268 exempts; an RTEST waits as RWAIT does (R275). -/
def Wait.exempt : Wait → Bool
  | .bar | .sbar _ | .rwait .. | .rtest .. | .mask _ | .setRedux _ | .mma _ | .owntake .. | .rarrive .. => true
  | _ => false

/-- The threads, not ended, of the unit of a thread. -/
def State.unitLive (s : State) (t : TRef) : List TRef :=
  (s.inst t.lid (s.wgOf t).inst).members.flatMap fun m => s.wgLive t.lid m

/-- Whether a thread's synchronising operation may be performed now (R267, R268): the threads of the group that perform
theirs with it and before it are passed in `with_`. `atom` says that the operation needs the unit's turn. -/
def State.detMay (s : State) (with_ : List TRef) (atom : Bool) (t : TRef) : Bool :=
  if (s.launchOf t).det = 0 then true
  else
    let key (u : TRef) : Nat × Nat := ((s.wgOf u).pos, s.tid u)
    let c := (s.thr t).icount
    let later (u : TRef) : Bool :=
      let k := key u
      let m := key t
      (s.thr u).icount == c && (m.1 < k.1 || (m.1 == k.1 && m.2 < k.2))
    (!atom || s.turnOpen t.lid t.wg) &&
      (s.unitLive t).all fun u => u == t || c < (s.thr u).icount || later u || (s.thr u).wait.exempt ||
        (with_.contains u && (s.thr u).icount == c)

/-- The threads whose unit's turn is not open wait for it. -/
def State.awaitTurn (s : State) (act : List TRef) : State :=
  (act.filter fun t => !s.turnOpen t.lid t.wg).foldl (fun s t => s.updThr t fun th => { th with wait := .turn }) s

/-- A form that reaches beyond its unit waits, under deterministic operation, for its unit's turn, so that what the unit has released
is in the order for whoever acts on it (R265, R267). (DEDUCED, log entry 143) -/
def State.atTurn (s : State) (act : List TRef) (k : State → State) : State :=
  if act.all fun t => s.turnOpen t.lid t.wg then k s else s.awaitTurn act

/-- A synchronising operation of a group: threads that may not perform theirs yet wait for their turn, and the group issues
again without them. (DEDUCED, log entry 26) -/
def State.ordered (s : State) (act : List TRef) (atom : Bool) (k : State → State) : State :=
  let may := act.filter fun t => s.detMay (act.filter (· ≠ t)) atom t
  if may.length = act.length then k s
  else (act.filter fun t => !may.contains t).foldl (fun s t => s.updThr t fun th => { th with wait := .turn }) s

end Sys2Proof.Machine
end

