-- ==== Sys2Proof/Machine/Coll.lean ====
section
/-! DEFINITION. Waits that end (R328), collectives at rejoin masks and their results (R153 to R155, R158, R160, R161), set
reductions (R162), barriers (R165), and path signatures (R280, R281). -/

namespace Sys2Proof.Machine

/-! ## The end of a wait -/

/-- The waiting instruction takes effect: the thread goes on at npc, and a boundary moves RE (R328). -/
def Thread.finish (th : Thread) : Thread :=
  let th := { th.retire th.wlen with wait := .none }
  if th.wbound then th.bound else th

def State.finish (s : State) (t : TRef) : State := s.updThr t Thread.finish

/-- The thread waits in an instruction of a length; `bound` where it is a region boundary. -/
def Thread.park (th : Thread) (w : Wait) (len : Nat) (bound : Bool) : Thread :=
  { th with wait := w, wlen := len, wbound := bound }

def State.park (s : State) (w : Wait) (len : Nat) (bound : Bool) (t : TRef) : State :=
  s.updThr t fun th => th.park w len bound

/-! ## Path signatures and branch trace, R280, R281 -/

/-- A folding transfer to a target other than npc: the signature, and a trace record where the launch keeps one. -/
def State.foldPath (s : State) (t : TRef) (src len target : Nat) : State :=
  if target = src + len then s
  else
    let s := s.updThr t fun th => { th with sig := th.sig.rotateLeft 7 ^^^ BitVec.ofNat 64 target }
    let l := s.launchOf t
    match l.trace with
    | some (va, sz) =>
      if l.tracePos * 16 + 16 ≤ sz then
        let bytes := natToBytes 4 t.wg ++ natToBytes 4 (s.tid t) ++ natToBytes 4 src ++ natToBytes 4 target
        (s.fwWriteVa .system l.ctx (va.toNat + 16 * l.tracePos) bytes).updLaunch t.lid fun l =>
          { l with tracePos := l.tracePos + 1 }
      else s
    | none => s

/-! ## Combine, R161 -/

/-- The identity of an operation. -/
def xopId (op : XOp) (ty : Ty) : Nat :=
  match op with
  | .add | .or | .xor => 0
  | .and => 2 ^ tyW ty - 1
  | .min => wrap (tyW ty) (tyHigh ty)
  | .max => wrap (tyW ty) (tyLow ty)
  | .fadd => 0
  | .fmin => (vecFmt ty).withSign false (vecFmt ty).infPat
  | .fmax => (vecFmt ty).withSign true (vecFmt ty).infPat

/-- The exact sum of floats, rounded once. Where a NaN stands beside infinities of both signs, the result is the first NaN as R67
gives it, and the infinities set no NV. (DESIGN CHOICE, log entry 132) -/
def Fmt.sumAll (f : Fmt) (r : Rnd) (l : List Nat) : Nat × BitVec 7 :=
  match f.nanOf l with
  | some x => x
  | none =>
    let vs := l.map f.decode
    let pos := vs.any fun v => v == .inf false
    let neg := vs.any fun v => v == .inf true
    if pos && neg then (f.nanPat, fNV)
    else if pos || neg then (f.withSign neg f.infPat, 0)
    else
      let (m, e) := dySum (vs.filterMap fun v => match v with
        | .fin n m e => some (toDy n m e)
        | _ => none)
      let zneg := if vs.all fun v => v.isZero && v.neg then true
        else if vs.all fun v => v.isZero && !v.neg then false
        else r == .rdn
      f.roundDy r zneg m e

/-- Pairwise FMIN or FMAX in order (R99). A single value is returned as it is, a signalling NaN too, and sets no flag.
(DESIGN CHOICE, log entry 132) -/
def Fmt.minmaxAll (f : Fmt) (isMax : Bool) : List Nat → Nat × BitVec 7
  | [] => (f.withSign isMax f.infPat, 0)
  | a :: l => l.foldl (fun (acc : Nat × BitVec 7) b =>
      let x := f.minmax isMax acc.1 b
      (x.1, acc.2 ||| x.2)) (a, 0)

/-- Combine: a value of the type's width, and flags. -/
def combineX (op : XOp) (ty : Ty) (r : Rnd) (sat : Bool) (l : List Nat) : Nat × BitVec 7 :=
  let w := tyW ty
  if l.isEmpty then (xopId op ty, 0)
  else match op with
    | .add =>
      let x := l.foldl (fun n a => n + tyVal ty a) 0
      (wrap w (if sat then clampTy ty x else x), 0)
    | .min => (wrap w (l.foldl (fun n a => min n (tyVal ty a)) (tyHigh ty)), 0)
    | .max => (wrap w (l.foldl (fun n a => max n (tyVal ty a)) (tyLow ty)), 0)
    | .and => (l.foldl (· &&& ·) (2 ^ w - 1), 0)
    | .or => (l.foldl (· ||| ·) 0, 0)
    | .xor => (l.foldl (· ^^^ ·) 0, 0)
    | .fadd => (vecFmt ty).sumAll r l
    | .fmin => (vecFmt ty).minmaxAll false l
    | .fmax => (vecFmt ty).minmaxAll true l

/-! ## Results of a collective at a mask, R160 -/

/-- A lane's recorded values: lane, A, B and whether its predicate was true. -/
abbrev Lane := Nat × DWord × DWord × Bool

/-- The recorded A of a contributor's lane. -/
def laneA (c : List Lane) (j : Nat) : Option Nat := (c.find? fun x => x.1 == j).map fun x => x.2.1.toNat

/-- The value a lane receives from lane j, or the fill (zero, or its own A). -/
def shufVal (c : List Lane) (x : Lane) (own : Bool) (j : Nat) : Nat :=
  (laneA c j).getD (if own then x.2.1.toNat else 0)

/-- The ballot of the recorded votes. -/
def ballotOf (c : List Lane) : Nat := c.foldl (fun n x => if x.2.1 = 0 then n else n + 2 ^ x.1) 0

/-- What a completed collective writes for a contributor. -/
inductive XRes where
  | none
  | val (x : Nat)
  | pred (pd : BitVec 3) (b : Bool)
  deriving DecidableEq, Repr

/-- The result for contributor x among the contributors c in lane order, and the flags. -/
def collRes (i : Instr) (w : Nat) (c : List Lane) (x : Lane) : XRes × BitVec 7 :=
  let b (y : Lane) : Nat := (lo32 y.2.2.1).toNat
  match i with
  | .shflIdx _ _ own => (.val (shufVal c x own (b x % w)), 0)
  | .shflUp _ _ own => (.val (shufVal c x own ((x.1 + w - b x % w) % w)), 0)
  | .shflDown _ _ own => (.val (shufVal c x own ((x.1 + b x) % w)), 0)
  | .shflXor _ _ own => (.val (shufVal c x own (x.1 ^^^ (b x % w))), 0)
  | .bcast _ _ own => (.val (shufVal c x own (b (c.headD x) % w)), 0)
  | .voteAny _ _ _ _ pd => (.pred pd (c.any fun y => y.2.1 ≠ 0), 0)
  | .voteAll _ _ _ _ pd => (.pred pd (c.all fun y => y.2.1 ≠ 0), 0)
  | .voteBallot .. => (.val (ballotOf c), 0)
  | .redux h _ op =>
    let r := combineX op h.ty h.rnd h.sat (c.map fun y => y.2.1.toNat)
    (.val r.1, r.2)
  | .scan h _ op excl =>
    let r := combineX op h.ty h.rnd h.sat
      ((c.filter fun y => y.1 < x.1 || (!excl && y.1 == x.1)).map fun y => y.2.1.toNat)
    (.val r.1, r.2)
  | _ => (.none, 0)

/-- The destination field and width of a collective form. -/
def collDst : Instr → Operand × Bool
  | .shflIdx h _ _ | .shflUp h _ _ | .shflDown h _ _ | .shflXor h _ _ | .bcast h _ _ | .voteBallot h _ _ _
  | .redux h _ _ | .scan h _ _ _ | .reduxSet h _ _ => (h.d, tyWide h.ty)
  | _ => (.v 0, false)

/-- A wave's copy of an s register, or of a pair, is written (R163). -/
def State.setS (s : State) (lid wg wave : Nat) (n : Nat) (wide : Bool) (x : Nat) : State :=
  { s with waves := tupd s.waves (lid, wg, wave) fun v =>
      let q := vset v.s n (BitVec.ofNat 32 x)
      { v with s := if wide then vset q (n + 1) (BitVec.ofNat 32 (x / 2 ^ 32)) else q } }

/-- A contributor's destination is written: its v register, or its wave's s register. -/
def State.writeRes (s : State) (t : TRef) (d : Operand) (wide : Bool) (r : XRes) : State :=
  match r with
  | .none => s
  | .val x =>
    match d with
    | .s n => s.setS t.lid t.wg t.wave n.toNat wide x
    | _ => s.updThr t fun th => th.setD wide d x
  | .pred pd b => s.updThr t fun th => th.setP pd.toNat b

/-! ## Complete(k), R155 -/

def laneMask (l : List Nat) : DWord := BitVec.ofNat 64 (l.foldl (fun n i => n + 2 ^ i) 0)

def State.mask (s : State) (t : TRef) (k : Nat) : Mask := vget (s.wave t).k {} k

def State.updMask (s : State) (t : TRef) (k : Nat) (f : Mask → Mask) : State :=
  s.updWave t fun w => { w with k := vupd w.k k f }

/-- What a completed KMOV.ballot does to the mask it writes: the ballot is its enrolment, and its arrivals are cleared, so that
Complete of it, which runs then, finds none and does nothing (R155, R158). Threads that waited there wait on.
(DEDUCED, log entry 128) -/
def State.writeBallot (s : State) (t : TRef) (k ballot : Nat) : State :=
  s.updMask t k fun _ => { enr := BitVec.ofNat 64 ballot }

/-- Complete(k) for the wave of t. The contributors write in lane order: an s register that each would fill with a value of its own
keeps the highest lane's. (DESIGN CHOICE, log entry 134) -/
def State.complete (s : State) (t : TRef) (k : Nat) : State :=
  let m := s.mask t k
  if m.arr = 0 ∨ m.enr &&& ~~~m.arr ≠ 0 then s
  else match m.rec_ with
    | none => s
    | some r =>
      let w := (s.launchOf t).hdr.width
      let parts := sortBy (fun (a b : Lane) => a.1 < b.1) r.vals
      let c := parts.filter fun x => x.2.2.2
      let s := s.updMask t k fun m => { m with arr := 0, rec_ := none }
      let d := collDst r.instr
      let lane (x : Lane) : TRef := { t with lane := x.1 }
      let s := c.foldl (fun s x =>
        let y := collRes r.instr w c x
        (s.writeRes (lane x) d.1 d.2 y.1).setFlags (lane x) y.2) s
      let s := parts.foldl (fun s x => s.finish (lane x)) s
      match r.instr with
      | .kmovBallot _ kd _ _ _ => s.writeBallot t kd.toNat (ballotOf c)
      | _ => s

/-- A thread leaves mask k: no enrolment and no arrival. -/
def State.leaveMask (s : State) (t : TRef) (k : Nat) : State :=
  s.updMask t k fun m =>
    let arr := m.arr &&& ~~~laneMask [t.lane]
    { enr := m.enr &&& ~~~laneMask [t.lane], arr := arr
      rec_ := if arr = 0 then none
        else m.rec_.map fun r => { r with vals := r.vals.filter (fun x => x.1 ≠ t.lane) } }

/-- The end of a thread leaves every mask (R114). -/
def State.leaveAll (s : State) (t : TRef) : State :=
  let s := (List.range 16).foldl (fun s k => s.leaveMask t k) s
  (List.range 16).foldl (fun s k => s.complete t k) s

/-! ## Sets, R146, R162 -/

/-- The member waves of a set of a unit: workgroup and wave, by (POS, wave). -/
def State.setWaves (s : State) (lid inst set : Nat) : List (Nat × Nat) :=
  let ms := (s.inst lid inst).members
  (sortBy (fun a b => a < b) ((tget (s.launch lid).sets set).getD [])).filterMap fun m =>
    (ms[m / 64]?).map fun g => (g, m % 64)

/-- The live threads of the member waves, by (POS, wave, lane). -/
def State.setThreads (s : State) (lid inst set : Nat) : List TRef :=
  (s.setWaves lid inst set).flatMap fun m =>
    sortBy (fun (a b : TRef) => a.lane < b.lane)
      ((tkeys s.threads).filter fun t => t.lid = lid ∧ t.wg = m.1 ∧ t.wave = m.2 ∧ s.live t)

def State.setSt (s : State) (lid inst set : Nat) : SetSt := (tget (s.inst lid inst).sets set).getD {}

def State.updSet (s : State) (lid inst set : Nat) (f : SetSt → SetSt) : State :=
  s.updInst lid inst fun x => { x with sets := tset x.sets set (f ((tget x.sets set).getD {})) }

/-- Every live participant of the set's pending collective has arrived. -/
def State.setReady (s : State) (lid inst set : Nat) : Bool :=
  let q := s.setSt lid inst set
  let ps := s.setThreads lid inst set
  q.instr.isSome && !ps.isEmpty && ps.all fun t => q.arr.any fun a => a.thread == t

/-- A set reduction that is ready completes (R162). -/
def State.completeSet (s : State) (lid inst set : Nat) : State :=
  let q := s.setSt lid inst set
  match q.instr with
  | some (.reduxSet h _ op) =>
    if s.setReady lid inst set then
      let ps := s.setThreads lid inst set
      let arrs := ps.filterMap fun t => q.arr.find? fun a => a.thread == t
      let c := arrs.filter fun a => a.pred
      let r := combineX op h.ty h.rnd h.sat (c.map fun a => a.a.toNat)
      let s := s.updSet lid inst set fun q => { q with pc := 0, instr := none, arr := [] }
      let s := if c.isEmpty then s
        else match h.d with
          | .s n => (s.setWaves lid inst set).foldl (fun s m => s.setS lid m.1 m.2 n.toNat (tyWide h.ty) r.1) s
          | _ => c.foldl (fun s a => s.writeRes a.thread h.d (tyWide h.ty) (.val r.1)) s
      let s := c.foldl (fun s a => s.setFlags a.thread r.2) s
      ps.foldl State.finish s
    else s
  | _ => s

/-! ## Barriers, R165 -/

/-- The widest scope that an arrival names. -/
def widest (l : List (TRef × Option Scp)) : Option Scp :=
  l.foldl (fun m a => match m, a.2 with
    | none, x => x
    | some y, some x => some (scpMax y x)
    | some y, none => some y) none

/-- The Phase of a barrier generation: every workgroup of the span releases, then every one acquires. -/
def State.barPhase (s : State) (lid : Nat) (wgs : List Nat) (scope : Option Scp) : State :=
  match scope with
  | none => s
  | some sc =>
    let s := wgs.foldl (fun s g => s.releaseAll lid g sc) s
    wgs.foldl (fun s g => s.acquire lid g sc) s

/-- BARRIER_COMPLETE of a workgroup's barrier, when every thread that has not ended has arrived. -/
def State.checkBar (s : State) (lid wg : Nat) : State :=
  let arr := (s.wg lid wg).bar
  let live := s.wgLive lid wg
  if !arr.isEmpty && live.all fun t => arr.any fun a => a.1 == t then
    let s := s.updWg lid wg fun g => { g with bar := [], barGen := g.barGen + 1 }
    live.foldl State.finish (s.barPhase lid [wg] (widest arr))
  else s

/-- The same for a set's barrier. -/
def State.checkSbar (s : State) (lid inst set : Nat) : State :=
  let arr := (s.setSt lid inst set).sbar
  let live := s.setThreads lid inst set
  if !arr.isEmpty && live.all fun t => arr.any fun a => a.1 == t then
    let s := s.updSet lid inst set fun q => { q with sbar := [] }
    let wgs := ((s.setWaves lid inst set).map Prod.fst).eraseDups
    live.foldl State.finish (s.barPhase lid wgs (widest arr))
  else s

/-- Collectives and barriers of the unit of a thread that has ended are checked again (R162, R165). -/
def State.recheck (s : State) (t : TRef) : State :=
  let inst := (s.wgOf t).inst
  let s := s.checkBar t.lid t.wg
  (tkeys (s.inst t.lid inst).sets).foldl (fun s k => (s.checkSbar t.lid inst k).completeSet t.lid inst k) s

/-! ## Floating-point exceptions and deferred faults at a delivery point, R316, R342, R343 -/

/-- The active threads whose deferred step fault is taken here stop with it; its RPC is the point. The others, or else the
threads whose wave holds an enabled flag, as R342 gives. `none` when the point takes effect. `idle` are the threads that retire
meanwhile. A delivery of flags waits for the special-function results of the waves of the active threads (R110, R247). -/
def State.deliver (s : State) (len : Nat) (idle : List TRef) (act : List TRef) (flags : Bool) (hit : TrapRec → Bool) :
    Option State :=
  if flags && act.any fun t => s.results.any fun r => r.thread.lid == t.lid && r.thread.wg == t.wg && r.thread.wave == t.wave
  then some s
  else
  let due (t : TRef) : Option TrapRec := (s.thr t).deferred.find? hit
  let d := act.filter fun t => (due t).isSome
  if !d.isEmpty then
    let s := s.retireAll len idle
    some (d.foldl (fun s t => match due t with
      | some r => s.updThr t fun th =>
          { th with trap := some { r with rpc := th.pc }, deferred := th.deferred.erase r }
      | none => s) s)
  else
    let e := if flags then act.filter fun t => s.enabledFlags t ≠ 0 else []
    if e.isEmpty then none
    else
      let mask := maskOf s.cur.threads e
      let s := s.retireAll len idle
      some (e.foldl (fun s t =>
        let r (th : Thread) : TrapRec :=
          { code := .fpException, fpc := th.pc, rpc := th.pc, mask := mask, det0 := (s.enabledFlags t).setWidth 32 }
        (s.countT t 0x501 1).updThr t fun th => { th with trap := some (r th) }) s)

end Sys2Proof.Machine
end

