-- ==== Sys2Proof/Machine/Brick.lean ====
section
/-! DEFINITION. Bricks of standing programs: residuals, contributions and the life of a brick (R189 to R196, R201, R203). -/

namespace Sys2Proof.Machine

/-! ## Residuals, R191 to R193 -/

/-- The format's largest key (R190). -/
def Prog.keyMax (p : Prog) : Word :=
  match p.rfmt with
  | 0 => 0xFFFF
  | 1 => 0xFFFFFFFF
  | _ => 0x7F800000

/-- Combine(r, m), R193. -/
def Prog.combine (p : Prog) (r m : Word) : Word :=
  if !p.sum then (if r.toNat < m.toNat then m else r)
  else if p.rfmt = 2 then BitVec.ofNat 32 (fmtF32.add .rup r.toNat m.toNat).1
  else BitVec.ofNat 32 (min p.keyMax.toNat (r.toNat + m.toNat))

/-- TYPE pairs with the program's format (R192). -/
def Prog.pairs (p : Prog) (ty : Ty) : Bool :=
  match p.rfmt with
  | 2 => ty == .f32
  | _ => ty == .b32 || ty == .n32 || ty == .i32

/-- The magnitude of an operand, and the flags (R192). -/
def Prog.mag (p : Prog) (ty : Ty) (x : Word) : Word × BitVec 7 :=
  let abs : Nat := if ty == .i32 then (signed 32 x.toNat).natAbs else x.toNat
  match p.rfmt with
  | 0 => (BitVec.ofNat 32 (min abs 0xFFFF), 0)
  | 1 => (BitVec.ofNat 32 abs, 0)
  | _ =>
    if (fmtF32.decode x.toNat).isNan then (0x7F800000, fNV) else (BitVec.ofNat 32 (x.toNat % 2 ^ 31), 0)

/-! ## Bricks -/

def State.prog (s : State) (lid : Nat) : Option Prog := (tget s.launches lid).bind Launch.prog

def State.updProg (s : State) (lid : Nat) (f : Prog → Prog) : State :=
  s.updLaunch lid fun l => { l with prog := l.prog.map f }

/-- The logical die and the local index of a brick id (R189). -/
def brickDie (id : Nat) : Nat := id / 2 ^ 20 % 2 ^ 8
def brickIdx (id : Nat) : Nat := id % 2 ^ 20

/-- The brick record of an id; `none` where it names no brick. -/
def Prog.brick? (p : Prog) (id : Nat) : Option Brick :=
  if id / 2 ^ 28 ≠ 0 then none else (p.dies[brickDie id]?).bind fun d => d.bricks[brickIdx id]?

def Prog.updBrick (p : Prog) (id : Nat) (f : Brick → Brick) : Prog :=
  { p with dies := lupd p.dies (brickDie id) fun d => { d with bricks := lupd d.bricks (brickIdx id) f } }

/-- The die's next eligibility stamp (R196). -/
def Prog.nextStamp (p : Prog) (id : Nat) : DWord := ((p.dies[brickDie id]?).map ProgDie.stamp).getD 0 + 1

/-- The brick becomes eligible: it takes the die's next stamp. -/
def Prog.makeEligible (p : Prog) (id : Nat) : Prog :=
  let st := p.nextStamp id
  let p := { p with dies := lupd p.dies (brickDie id) fun d => { d with stamp := st }, quiescent := false }
  p.updBrick id fun b => { b with st := 1, stamp := st }

/-- A contribution is applied (R194). -/
def Prog.contribute (p : Prog) (id : Nat) (m : Word) : Prog :=
  match p.brick? id with
  | none => p
  | some b =>
    let r := p.combine b.res m
    let p := p.updBrick id fun b => { b with res := r }
    if b.st = 0 ∧ p.tau.toNat < r.toNat then p.makeEligible id else p

/-- The brick in flight closes with residual y (BRKDONE, or the update's end, R194). -/
def Prog.close (p : Prog) (id : Nat) (y : Word) : Prog :=
  match p.brick? id with
  | none => p
  | some b =>
    let r := p.combine b.res y
    let p := { p.updBrick id (fun b => { b with res := r, lastRes := r, st := 0 }) with updates := p.updates + 1 }
    if p.tau.toNat < r.toNat then p.makeEligible id else p

/-- The pop of a brick (R194, R196): DRES := RES, and it is in flight. -/
def Prog.pop (p : Prog) (id : Nat) : Prog :=
  let p := p.updBrick id fun b => { b with dRes := b.res, res := 0, st := 2 }
  { p with
    dies := lupd p.dies (brickDie id) fun d => { d with pops := d.pops + 1 }
    quiescent := false }

/-- The key of R199: RES, and DRES for a brick in flight; its largest over the program. -/
def Prog.maxRes (p : Prog) : Word :=
  p.dies.foldl (fun m d => d.bricks.foldl (fun (m : Word) b =>
    let k := if b.st = 2 ∧ b.res.toNat < b.dRes.toNat then b.dRes else b.res
    if m.toNat < k.toNat then k else m) m) 0

/-! ## The iterate entry's residual slot, R200, R201 -/

/-- The publish entry that an id names on a die for a context (R302). -/
def Die.entry (d : Die) (ctx : Nat) (id : Word) : Option (Nat × PubEnt) :=
  let i := id.toNat % 2 ^ 10
  match tget d.pubs i with
  | some p => if p.ctx == ctx && p.gen == id.toNat / 2 ^ 10 % 2 ^ 12 && id.toNat / 2 ^ 22 == 0 then some (i, p) else none
  | none => none

/-- The iterate entry that covers a brick: its die, its index there and its record. -/
def State.slotEntry (s : State) (lid id : Nat) : Option (Nat × Nat × PubEnt) := do
  let p ← s.prog lid
  let d ← p.dies[brickDie id]?
  let e ← d.iter
  let (i, e) ← (s.die d.die).entry (s.launch lid).ctx e
  some (d.die, i, e)

/-- The brick's residual slot lies in a retired version that readers, but for one workgroup, still select: what closes the brick waits
(R201, R261). -/
def State.slotHeld (s : State) (but : Option (Nat × Nat)) (lid id : Nat) : Option Nat :=
  match s.slotEntry lid id with
  | some (die, i, e) => if s.versionBusyBut but die i (!e.cur) then some i else none
  | none => none

/-- LASTRES is written into the shadow's residual slot (R201). -/
def State.writeSlot (s : State) (lid id : Nat) : State :=
  match s.slotEntry lid id, (s.prog lid).bind fun p => p.brick? id with
  | some (_, _, e), some b =>
    s.fwWriteVa .module (s.launch lid).ctx (e.ver (!e.cur) + 64 + 4 * brickIdx id) (natToBytes 4 b.lastRes.toNat)
  | _, _ => s

/-! ## Sending -/

/-- The physical die of a brick. -/
def Prog.dieOf (p : Prog) (id : Nat) : Nat := ((p.dies[brickDie id]?).map ProgDie.die).getD 0

/-- A contribution is sent from a die: it is in transit to its brick's die. Between dies, the program is not quiescent
(R198). -/
def State.send (s : State) (die : Nat) (c : Contrib) : State :=
  { s.updProg c.prog (fun p => { p with quiescent := p.quiescent && p.dieOf c.brick == die }) with
    contribs := s.contribs ++ [c] }

/-! ## Quiescence, R198 -/

/-- No brick eligible, none in flight, no contribution in transit (R198). A workgroup may run on after its BRKDONE (R203). -/
def State.quiet (s : State) (lid : Nat) (p : Prog) : Bool :=
  (p.dies.all fun d => d.bricks.all fun b => b.st == 0) && s.contribs.all fun c => c.prog != lid

/-- The highest input sequence whose contributions have all been applied (R197, R198). -/
def State.absorbed (s : State) (lid : Nat) (p : Prog) : DWord :=
  let taken := p.inputs.takeWhile fun x => s.contribs.all fun c => c.prog != lid || c.inp != some x.seq
  (taken.getLast?.map Input.seq).getD (((p.dies.head?).map ProgDie.iseq).getD 0)

/-- The record of R198. -/
def State.convBytes (s : State) (lid : Nat) (p : Prog) (stopped : Bool) : List Byte :=
  natToBytes 8 lid ++ natToBytes 8 (s.absorbed lid p).toNat ++ natToBytes 8 p.updates.toNat ++ natToBytes 4 p.maxRes.toNat ++
    natToBytes 4 ((if stopped then 1 else 0) + (if p.noclose then 2 else 0)) ++ natToBytes 8 s.now.toNat ++
    natToBytes 4 (p.rseq + 1) ++ natToBytes 20 0

/-- The program is found quiescent, on a change to it: its record is taken as things stand, and is to be written (R198). A serial
run writes none (log entry 89). -/
def State.findQuiet (s : State) (lid : Nat) : State :=
  match s.prog lid with
  | none => s
  | some p =>
    if p.state == 2 || p.quiescent || (s.launch lid).serialRun || !s.quiet lid p then s
    else s.updProg lid fun q => { q with quiescent := true, rseq := q.rseq + 1, due := q.due ++ [s.convBytes lid p false] }

/-- A contribution or a closing takes effect now. -/
def State.applyContrib (s : State) (c : Contrib) : State :=
  match c.kind with
  | .add => s.updProg c.prog fun p => p.contribute c.brick c.m
  | .done => (s.updProg c.prog fun p => p.close c.brick c.m).writeSlot c.prog c.brick

/-- An update of the launch is in flight (R270). -/
def State.inFlight (s : State) (lid : Nat) : Bool :=
  s.wgs.any fun g => g.1.1 == lid && g.2.brick.isSome && g.2.st != .ended

/-- The update holds its own closing until it ends (R270). -/
def Wg.holdsDone (g : Wg) : Bool := g.held.any fun c => c.kind == .done

/-- The end of an update (R194, R270): what it held is applied in order, and a brick not closed closes with DRES; one that KILL
ends has closed by no BRKDONE that it still holds. (DEDUCED, log entry 112) -/
def State.endUpdate (s : State) (lid wg : Nat) (killed : Bool) : State :=
  let g := s.wg lid wg
  match g.brick with
  | none => s
  | some id =>
    let held := if killed then g.held.filter fun c => c.kind != .done else g.held
    let s := held.foldl (fun s c => if c.prog = lid then s.applyContrib c else s.send g.die c) s
    let s := s.updWg lid wg fun g => { g with held := [] }
    let s := if g.brkDone && !(killed && g.holdsDone) then s
      else
        s.updProg lid fun p =>
          { p.close id (((p.brick? id).map Brick.dRes).getD 0) with noclose := true }
    s.findQuiet lid

/-- The update's last threads end with a closing still held, whose residual slot lies in a retired version that readers still
select: they wait (R201, R261, R270). The update's own selection ends with it, and is not waited for. -/
def State.endHeld (s : State) (act : List TRef) (t : TRef) : Option Nat :=
  let g := s.wgOf t
  match g.brick with
  | none => none
  | some id => if g.holdsDone && (s.wgLive t.lid t.wg).all act.contains then s.slotHeld (some (t.lid, t.wg)) t.lid id else none

end Sys2Proof.Machine
end

