-- ==== Sys2Proof/Machine/Scratch.lean ====
section
/-! DEFINITION. On-chip storage: scratch places (R207, R209, R210), tile slots (R224 to R226), the copies of TMOV, TLOAD and
TSTORE (R232, R239), and the buffers of a holder that ends (R213, R382). -/

namespace Sys2Proof.Machine

/-! ## Places -/

/-- The byte values left by earlier workgroups of a workgroup's context in the core where it was placed (R210). -/
def State.leftOf (s : State) (lid wg : Nat) : List Byte := (s.wg lid wg).left

/-- The bytes of a place from an offset, as they stand now; the caller draws after a read. (DESIGN CHOICE, log entry 14) -/
def State.scRead (s : State) (p : Place) (off n : Nat) : List Byte :=
  match p with
  | .core lid wg =>
    let b := (s.wg lid wg).core
    let left := s.leftOf lid wg
    (List.range n).map fun i => scByte b left s.freeCtr (off + i)
  | .slot lid wg k =>
    let b := ((tget (s.wg lid wg).slots k).getD {}).bytes
    let left := s.leftOf lid wg
    (List.range n).map fun i => scByte b left s.freeCtr (off + i)
  | .buf die id =>
    let b := ((tget (s.die die).bufs id).getD {}).bytes
    (List.range n).map fun i => (cellGet b (off + i)).getD (Config.looseByte s.freeCtr (off + i))

/-- Bytes stored at a place. A write to a draining slot is discarded (R224). -/
def State.scWrite (s : State) (p : Place) (off : Nat) (bs : List Byte) : State :=
  match p with
  | .core lid wg => s.updWg lid wg fun g => { g with core := scPut g.core off bs }
  | .slot lid wg k => s.updWg lid wg fun g =>
      { g with slots := tupd g.slots k fun x => if x.drain then x else { x with bytes := scPut x.bytes off bs } }
  | .buf die id => s.updDie die fun d =>
      { d with bufs := tupd d.bufs id fun b => { b with bytes := scPut b.bytes off bs } }

/-- The copy of R232: every source byte is read before any destination byte is written; the higher row's bytes remain. -/
def State.doMove (s : State) (m : Move) : State :=
  let rows := (List.range m.rows).map fun r => s.scRead m.src (m.sOff + r * m.sPitch) m.rlen
  rows.zipIdx.foldl (fun s r => s.scWrite m.dst (m.dOff + r.2 * m.dPitch) r.1) s.draw

/-! ## Slots, R224 -/

/-- The loops of a workgroup, on its core or parked while it is pre-empted. -/
def State.wgLoops (s : State) (lid wg : Nat) : List Loop :=
  ((s.core (s.wg lid wg).die (s.wg lid wg).site).loops ++ s.parked).filter fun l => l.lid == lid && l.wg == wg

/-- An operation on a slot is pending: a transfer, or a loop that reads or writes it. -/
def State.slotBusy (s : State) (lid wg n : Nat) : Bool :=
  (s.tileOps.any fun x => x.1 == lid && x.2.1 == wg && x.2.2.slot == n) ||
  (s.wgLoops lid wg).any fun l => l.slotC == n || l.slotA == some n || l.slotB == some n || l.slotM == some n

/-- The slot of a handle that has died drains, or is free at once. -/
def State.releaseSlot (s : State) (lid wg n : Nat) : State :=
  let busy := s.slotBusy lid wg n
  s.updWg lid wg fun g => { g with slots := tupd g.slots n fun x => { x with bound := none, drain := busy } }

/-- A draining slot whose last operation has ended is free. -/
def State.settleSlot (s : State) (lid wg n : Nat) : State :=
  if s.slotBusy lid wg n then s
  else s.updWg lid wg fun g =>
    { g with slots := tupd g.slots n fun x => if x.drain then { x with drain := false } else x }

def State.handle (s : State) (lid wg h : Nat) : Handle := vget (s.wg lid wg).h {} h

def State.updHandle (s : State) (lid wg h : Nat) (f : Handle → Handle) : State :=
  s.updWg lid wg fun g => { g with h := vupd g.h h f }

/-- The handle becomes DEAD; its slot drains. -/
def State.killHandle (s : State) (lid wg h : Nat) : State :=
  let x := s.handle lid wg h
  if x.st = .dead then s
  else
    (s.updHandle lid wg h fun x => { x with st := .dead, hold := 0, target := 0, pw := false, pr := false }).releaseSlot
      lid wg x.slot

/-- A wave ends (R226): the handles it holds, and those given to it, die. -/
def State.endWaveHandles (s : State) (lid wg wave : Nat) : State :=
  (List.range 64).foldl (fun s h =>
    let x := s.handle lid wg h
    if (x.st == .live && x.hold == wave) || (x.st == .given && x.target == wave) then s.killHandle lid wg h else s) s

/-! ## The scoreboard, R225 -/

/-- An earlier operation on a slot that an operation of a stamp must wait for: a write waits for reads and writes, a read
for writes. -/
def State.slotBlocked (s : State) (lid wg k : Nat) (write : Bool) (stamp : Nat) : Bool :=
  (s.tileOps.any fun x => x.1 == lid && x.2.1 == wg && x.2.2.slot == k && x.2.2.stamp < stamp && (write || x.2.2.load)) ||
  (s.wgLoops lid wg).any fun l => l.stamp < stamp &&
    (l.slotC == k || (write && (l.slotA == some k || l.slotB == some k || l.slotM == some k)))

/-- A workgroup that ends: its copies end first, but for transfers that wait for a running loop (R140, R225).
(DEDUCED, log entry 56) -/
def State.endCopies (s : State) (lid wg : Nat) : State :=
  let mine (m : Move) : Bool := m.thread.lid == lid && m.thread.wg == wg
  let s := (s.moves.filter mine).foldl State.doMove { s with moves := s.moves.filter fun m => !mine m }
  (s.tileOps.filter fun x => x.1 == lid && x.2.1 == wg).foldl (fun s x =>
    if s.slotBlocked lid wg x.2.2.slot x.2.2.load x.2.2.stamp then s
    else { s with tileOps := s.tileOps.erase x }.doMove x.2.2.mv) s

/-! ## Reads of a buffer that run on, R216, R300 -/

/-- A copy reads a buffer. -/
def Move.reads (m : Move) (die id : Nat) : Bool := m.src == .buf die id

def overlaps (a n b m : Nat) : Bool := a < b + m && b < a + n

/-- Bytes from the first to past the last that a copy reads, or writes. -/
def spanOf (rlen rows pitch : Nat) : Nat := if rows = 0 then 0 else (rows - 1) * pitch + rlen

def Move.writesAt (m : Move) (p : Place) (off n : Nat) : Bool :=
  m.dst == p && overlaps m.dOff (spanOf m.rlen m.rows m.dPitch) off n

def Move.readsAt (m : Move) (p : Place) (off n : Nat) : Bool :=
  m.src == p && overlaps m.sOff (spanOf m.rlen m.rows m.sPitch) off n

/-- The transfers of workgroups that run on. -/
def State.transfers (s : State) : List Move := s.moves ++ s.tileOps.map fun x => x.2.2.mv

/-- A started engine command of a die was admitted to read a SHARED buffer. -/
def State.engineReads (s : State) (die id : Nat) : Bool :=
  (s.die die).copyQ.toList.any fun q => q.any fun c => c.started && c.reads.contains id

/-- Reads of a cluster or die buffer that were admitted in SHARED have not returned (R216). -/
def State.readsOf (s : State) (die id : Nat) : Bool :=
  (s.transfers.any fun m => m.rows != 0 && m.reads die id) || s.engineReads die id

/-- Reads of n bytes of a workgroup's core scratch, where a core buffer lies, have not returned (R216). -/
def State.coreReads (s : State) (lid wg off n : Nat) : Bool := s.transfers.any fun m => m.readsAt (.core lid wg) off n

/-! ## What an OWNTAKE comes to, R236, and the waits that a change of ST ends, R268 -/

/-- The issuer as a workgroup or as its core. -/
def State.issuer (s : State) (t : TRef) : Tk → Holder
  | .core => .core (s.wgOf t).site
  | _ => .wg t.lid t.wg

/-- The buffer HELD by the taker. -/
def Buffer.taken (b : Buffer) (lid : Nat) (me : Holder) : Buffer :=
  { b with st := .held, hold := me, target := .none, shLid := lid }

/-- The issuer is in the holding launch, or maps the pinned session (R213). -/
def State.mayTake (s : State) (t : TRef) (b : Buffer) : Bool :=
  b.lid == some t.lid || (b.session.isSome && (s.launchOf t).session == b.session)

/-- What an OWNTAKE of a buffer comes to now. -/
inductive TakeRes where
  | take | drain | wait | fault
  deriving DecidableEq, Repr

/-- What it comes to. (DEDUCED, log entry 57) While a reclaim of a SHARED buffer drains, no thread counts as its holder: an OWNTAKE by
another thread of the workgroup that reclaims it gives OWNERSHIP. (DESIGN CHOICE, log entry 145) -/
def State.takeRes (s : State) (t : TRef) (tk : Tk) (w : Bool) (b : Buffer) : TakeRes :=
  let me := s.issuer t tk
  let mine (h : Holder) : Bool := h == me && (tk != .core || b.shLid == t.lid)
  let engine : Bool := match b.hold with
    | .matrix _ => true
    | _ => false
  match b.st with
  | .free => if s.mayTake t b then .take else .fault
  | .given => if mine b.target then .take else if w then .wait else .fault
  | .shared => if mine b.hold then .drain else .fault
  | .held => if engine && mine b.target then .take else if w && !mine b.hold then .wait else .fault

/-- A thread's wait is over: it goes back to its instruction, and the step that it stood in waits for it no longer. -/
def State.rejoin (s : State) (t : TRef) : State :=
  let s := s.updThr t fun th => { th with wait := .none }
  if (s.launchOf t).inStep.isEmpty then s
  else s.updLaunch t.lid fun l => { l with inStep := l.inStep.filter fun x => x.1 != t }

/-- An OWNTAKE of a thread waits for a change of this buffer, and finds one that it does not wait for. -/
def State.turnsFor (s : State) (die id : Nat) (b : Buffer) (t : TRef) (w : Wait) : Bool :=
  match w with
  | .owntake i tk false none => i == id && (s.wgOf t).die == die && s.ctxOf t == b.ctx && s.takeRes t tk true b != .wait
  | _ => false

/-- ST of a cluster or die buffer has changed: OWNTAKEs that wait for it see that in the same step (R236, R268). -/
def State.bufTurned (s : State) (die id : Nat) : State :=
  match tget (s.die die).bufs id with
  | none => s
  | some b => (s.threads.filter fun x => s.turnsFor die id b x.1 x.2.wait).foldl (fun s x => s.rejoin x.1) s

/-! ## Buffers of a holder that ends, R213, R216, R382 -/

/-- The reads that transfers of workgroups make of a buffer return their data now (R216): each runs to its end, but for a transfer
that still waits for earlier operations on its slot (R225). The transfers themselves stay listed until their own completion, with
nothing left to copy. -/
def State.drainReads (s : State) (die id : Nat) : State :=
  let due (x : Nat × Nat × TileOp) : Bool :=
    x.2.2.mv.reads die id && !s.slotBlocked x.1 x.2.1 x.2.2.slot x.2.2.load x.2.2.stamp
  let r := (s.moves.filter fun m => m.reads die id).foldl State.doMove s
  let r := (s.tileOps.filter due).foldl (fun r x => r.doMove x.2.2.mv) r
  { r with
    moves := r.moves.map fun m => if m.reads die id then { m with rows := 0 } else m
    tileOps := r.tileOps.map fun x => if due x then (x.1, x.2.1, { x.2.2 with mv := { x.2.2.mv with rows := 0 } }) else x }

/-- The holder ends, or the target of a GIVEN buffer, the giver of a buffer that a matrix engine holds, or the workgroup
or core that reclaims a SHARED one (its `target` while the reads drain): FREE. -/
def Buffer.endsWith (b : Buffer) (w : Holder) : Bool :=
  match b.st with
  | .held => b.hold == w || (match b.hold with
    | .matrix _ => b.target == w
    | _ => false)
  | .shared => b.hold == w || b.target == w
  | .given => b.target == w
  | .free => false

/-- FREE. -/
def Buffer.freed (b : Buffer) : Buffer := { b with st := .free, hold := .none, target := .none }

/-- A SHARED buffer whose holder has ended, or reclaims it, and which still drains: it admits no read. -/
def Buffer.draining (b : Buffer) : Buffer := { b with hold := .none, shClu := 9 }

/-- A buffer whose holder has ended goes to FREE once no engine command and no transfer reads it any more. -/
def State.freeBuf (s : State) (die id : Nat) : State :=
  let busy := s.readsOf die id
  (s.updDie die fun d => { d with bufs := tupd d.bufs id fun b =>
    if busy && b.st == .shared then { b.draining with target := .none } else b.freed }).bufTurned die id

def State.endHolder (s : State) (die : Nat) (w : Holder) : State :=
  ((s.die die).bufs.filter fun b => b.2.endsWith w).foldl (fun s b => (s.drainReads die b.1).freeBuf die b.1) s

/-- A draining buffer that no one reclaims is FREE when its last read has returned. -/
def State.freeDrained (s : State) (die id : Nat) : State :=
  match tget (s.die die).bufs id with
  | some b => if b.st == .shared && b.hold == .none && b.target == .none && !s.readsOf die id then s.freeBuf die id else s
  | none => s

/-- The buffer that a copy has read may have drained with it. -/
def State.freeSource (s : State) (m : Move) : State :=
  match m.src with
  | .buf die id => s.freeDrained die id
  | _ => s

/-! ## Handles given up, R224 -/

def handleFlt (h reason : Nat) : Flt := { code := .handleDead, d0 := w32 h, d2 := w32 reason }

/-- A TTAKE waits while another wave holds the handle. -/
def State.ttakeWaits (s : State) (hn : Nat) (t : TRef) : Bool :=
  let x := s.handle t.lid t.wg hn
  x.st == .live && x.hold != t.wave

def State.ttakeChk (hn : Nat) (t : TRef) (s : State) : Except (Nat × Flt) State :=
  let x := s.handle t.lid t.wg hn
  match x.st with
  | .dead => .error (0, handleFlt hn (if x.ever then 2 else 1))
  | .live => .ok s
  | .given =>
    if x.target = t.wave then .ok (s.updHandle t.lid t.wg hn fun x => { x with st := .live, hold := t.wave, target := 0 })
    else .error (0, handleFlt hn 3)

/-- A TTAKE that waits for a handle which, as it now stands (`at_`), it need wait for no longer takes it, or stops with its fault, in
the same step. -/
def State.takeNow (at_ : State) (hn : Nat) (s : State) (t : TRef) : State :=
  if at_.ttakeWaits hn t then s
  else match State.ttakeChk hn t at_ with
    | .ok _ => (match State.ttakeChk hn t s with
      | .ok s => s
      | .error _ => s).finish t
    | .error (_, f) =>
      let same := (s.waveThreads t).filter fun u =>
        (s.thr u).wait == .ttake hn || ((s.thr u).trap.map TrapRec.code == some f.code && (s.thr u).pc == (s.thr t).pc)
      s.updThr t fun th => { th with wait := .none, trap := some (recOf th (maskOf same same) f) }

/-- The state of a handle has changed: the TTAKEs that wait for it are examined again, all as the change finds them (R224). -/
def State.settleTakes (s : State) (lid wg hn : Nat) : State :=
  ((s.wgThreads lid wg).filter fun t => s.live t && (s.thr t).wait == .ttake hn).foldl (s.takeNow hn) s

/-- A wave has ended, and its handles with it. -/
def State.settleAllTakes (s : State) (lid wg : Nat) : State :=
  (List.range 64).foldl (fun s h => s.settleTakes lid wg h) s

end Sys2Proof.Machine
end

