-- ==== Sys2Proof/Machine/End.lean ====
section
/-! DEFINITION. How threads, workgroups and units end (R114, R140, R184, R257, R280, R345, R358), signals to graph nodes
(R293), the end of engine commands (R301), and the end of a launch whose journal is full (R273). -/

namespace Sys2Proof.Machine

/-! ## Graph nodes and engine commands -/

/-- The live node that an id names for a context on a die (R290). -/
def Die.node? (d : Die) (ctx : Nat) (id : Word) : Option Node :=
  match tget d.nodes (ctx, id.toNat % 2 ^ 16) with
  | some n => if n.gen == id.toNat / 2 ^ 16 % 2 ^ 12 && id.toNat / 2 ^ 28 == 0 then some n else none
  | none => none

/-- A signal is on its way to a node of the die's walker, as one of the list that a finish at stamp `src` sends (R295). -/
def State.signalFrom (s : State) (src die ctx : Nat) (id : Word) (failing : Bool) : State :=
  s.updDie die fun d => { d with signals := d.signals ++ [(ctx, id, failing, src)] }

/-- One by itself. -/
def State.signalNode (s : State) (die ctx : Nat) (id : Word) (failing : Bool) : State := s.signalFrom 0 die ctx id failing

/-- The work of a FIRED node ends with a status. -/
def State.workEnds (s : State) (die ctx : Nat) (id : Word) (status : Nat) : State :=
  if ((s.die die).node? ctx id).isSome then
    s.updDie die fun d => { d with nodes := tupd d.nodes (ctx, id.toNat % 2 ^ 16) fun n => { n with workDone := some status } }
  else s

/-- The NODE field of a command record: bits 63 to 32. -/
def cmdNode (rec_ : List Word) : Word := rec_.getD 1 0xFFFFFFFF

/-- A command ends with a status: its node is signalled; a failing command that names no node counts in its launch record
(R289, R301). A command that a graph node issued ends that node's work too. -/
def State.cmdEnds (s : State) (die : Nat) (c : Cmd) (status : Nat) : State :=
  let id := cmdNode c.rec_
  let s := if id ≠ 0xFFFFFFFF then s.signalNode die c.ctx id (status != 0)
    else if status = 0 then s
    else match c.lid with
      | some l => s.updLaunch l fun l =>
          { l with engcode := if l.engerr = 0 then status else l.engcode, engerr := l.engerr + 1 }
      | none => s
  match c.node with
  | some n => s.workEnds die c.ctx n status
  | none => s

/-- The elements of a workgroup's engine queues end with status 10 (R301). -/
def State.abortElems (s : State) (lid wg : Nat) : State :=
  let g := s.wg lid wg
  let ctx := (s.launch lid).ctx
  let epk (q : Queue) : Nat := q.cw.toNat / 2 ^ 24 % 16
  let eng (q : Queue) : Bool := epk q == 2 || epk q == 3
  let cmd (e : List Byte) : Cmd := { rec_ := bytesToWords e, ctx := ctx, lid := some lid, wg := some wg }
  let s := g.q.toList.foldl (fun s q =>
    if eng q then q.elems.foldl (fun s e => s.cmdEnds g.die (cmd e) 10) s else s) s
  s.updWg lid wg fun g => { g with q := g.q.map fun q => if eng q then { q with elems := [], pushed := [] } else q }

/-- Commands of a die that no engine has started end with status 10 (R301). -/
def State.abortIssued (s : State) (die : Nat) (mine : Cmd → Bool) : State :=
  let gone (c : Cmd) : Bool := mine c && !c.started
  let d := s.die die
  let s := (d.copyQ.toList ++ d.encQ.toList).foldl (fun s q =>
    (q.filter gone).foldl (fun s c => s.cmdEnds die c 10) s) s
  s.updDie die fun d =>
    { d with copyQ := d.copyQ.map fun q => q.filter fun c => !gone c, encQ := d.encQ.map fun q => q.filter fun c => !gone c }

/-- What a killed workgroup has pushed and had issued, not yet started, ends with status 10. -/
def State.abortCmds (s : State) (lid wg : Nat) : State :=
  (s.abortElems lid wg).abortIssued (s.wg lid wg).die fun c => c.lid == some lid && c.wg == some wg && !c.gone

/-- So does all of a launch that has ended by KILL, whichever of its workgroups it came from (R289, R301). -/
def State.abortLaunch (s : State) (lid : Nat) : State :=
  let ms := (s.wgs.filter fun g => g.1.1 == lid).map fun g => g.1.2
  (List.range 24).foldl (fun s d => s.abortIssued d fun c => c.lid == some lid) (ms.foldl (fun s m => s.abortElems lid m) s)

/-- Commands outlive the workgroup that pushed them (R301): before its name passes to another, what its queues still hold goes to the
engines that they name, and what the engines have of it is no longer the new one's. (DEDUCED, log entry 141) -/
def State.outlive (s : State) (lid wg : Nat) : State :=
  let g := s.wg lid wg
  let ctx := (s.launch lid).ctx
  let cmd (e : List Byte) (stamp : Nat) : Cmd :=
    { rec_ := bytesToWords e, ctx := ctx, lid := some lid, wg := some wg, gone := true, stamp := stamp }
  let leave (c : Cmd) : Cmd := if c.lid == some lid && c.wg == some wg then { c with gone := true } else c
  let s := { s with dies := s.dies.map fun d => { d with copyQ := d.copyQ.map fun q => q.map leave, encQ := d.encQ.map fun q => q.map leave } }
  g.q.toList.foldl (fun s q =>
    let epn := q.cw.toNat / 2 ^ 28 % 16
    match q.cw.toNat / 2 ^ 24 % 16 with
    | 2 => s.updDie g.die fun d => { d with copyQ := vupd d.copyQ epn fun l => l ++ q.elems.map fun e => cmd e 0 }
    | 3 => s.updDie g.die fun d => { d with encQ := vupd d.encQ epn fun l => l ++ (q.elems.zip q.pushed).map fun e => cmd e.1 e.2 }
    | 4 => q.elems.foldl (fun s e => s.signalNode g.die ctx (BitVec.ofNat 32 (bytesToNat e)) false) s
    | _ => s) s

/-- Of every workgroup of the launch that passes a test. -/
def State.outliveAll (s : State) (lid : Nat) (which : Nat → Bool) : State :=
  ((s.wgs.filter fun g => g.1.1 == lid && which g.1.2).map fun g => g.1.2).foldl (fun s m => s.outlive lid m) s

/-! ## Path sums, R280 -/

def mixPath (i : Nat) (sig : DWord) : DWord :=
  let x := sig ^^^ (BitVec.ofNat 64 i * 0x9E3779B97F4A7C15)
  let x := (x ^^^ (x >>> 30)) * 0xBF58476D1CE4E5B9
  let x := (x ^^^ (x >>> 27)) * 0x94D049BB133111EB
  x ^^^ (x >>> 31)

def State.pathSum (s : State) (lid wg : Nat) : DWord :=
  (s.wgThreads lid wg).foldl (fun n t => n + mixPath (s.tid t) (s.thr t).sig) 0

/-! ## The end of a unit -/

/-- Every member has ended: the unit has, and its threads' trap slots free (R335). -/
def State.endInst (s : State) (lid i : Nat) : State :=
  let x := s.inst lid i
  if x.ended || !(x.members.all fun m => (s.wg lid m).st == .ended) then s
  else
    let slots := (x.members.flatMap fun m => s.wgThreads lid m).filterMap fun t => (s.thr t).slot
    let s := s.updCtx (s.launch lid).ctx fun c => { c with slots := c.slots.filter fun k => !slots.contains k }
    s.updInst lid i fun x => { x with ended := true, lost := x.softLost, released := true }

/-! ## WORKGROUP_END -/

/-- The byte values that the workgroup leaves in its core's memory (R210). -/
def Wg.leaves (g : Wg) : List Byte :=
  ((g.core.map Prod.snd) ++ (g.slots.flatMap fun x => x.2.bytes.map Prod.snd) ++
    (g.q.toList.flatMap fun q => q.elems.flatten)).eraseDups

/-- What a killed workgroup has staged is discarded, but for what an earlier release holds until the unit's turn (R267, R345). -/
def State.discard (s : State) (lid wg : Nat) : State :=
  s.updWg lid wg fun g => { g with staging := g.staging.filter fun e => e.held.isSome }

/-- The end of a task tells the nodes that wait for it (R184, R294). -/
def State.endSignals (s : State) (lid wg : Nat) : State :=
  let g := s.wg lid wg
  let ctx := (s.launch lid).ctx
  let s := match g.node with
    | some (d, n) => s.signalNode d ctx n false
    | none => s
  match g.nodeWork with
  | some (d, n) => s.workEnds d ctx n 0
  | none => s

/-- The last thread has ended: the end release at module scope, which in a killed workgroup covers no store, the update's end, and the return of buffers,
handles and slots (R140, R194, R213, R226, R257); a core buffer becomes FREE as every other does whose holder or giver ends (R213,
R382). The digest and the path sum join the launch's (R272, R280). A unit that ends before its turn holds what it released, and the
nodes hear of its end when its turn opens (R265, R295). (DEDUCED, log entries 110 and 143) -/
def State.finishWg (s : State) (lid wg : Nat) (killed : Bool) : State :=
  let s := (if killed then s.discard lid wg else s).releaseAll lid wg .module
  let s := (s.endUpdate lid wg killed).endCopies lid wg
  let g := s.wg lid wg
  let ctx := (s.launch lid).ctx
  let s := (List.range 64).foldl (fun s h => s.killHandle lid wg h) s
  let s := (List.range 24).foldl (fun s d => s.endHolder d (.wg lid wg)) s
  let s := if killed then s.abortCmds lid wg else s
  let s := s.updLaunch lid fun l =>
    { l with digests := tset l.digests wg g.digest, pathsum := l.pathsum + s.pathSum lid wg }
  let s := s.updCore g.die g.site fun k =>
    { k with
      left := tset k.left ctx (((tget k.left ctx).getD [] ++ g.leaves).eraseDups)
      prefetch := k.prefetch.erase (lid, wg) }
  let s := s.updWg lid wg fun g =>
    { g with st := .ended, killed := killed, coreBufs := g.coreBufs.map fun b => (b.1, b.2.freed) }
  let s := { s with results := s.results.filter fun r => !(r.thread.lid == lid && r.thread.wg == wg) }
  (if s.turnOpen lid wg then s.endSignals lid wg else s).endInst lid g.inst

/-! ## EXIT, R114 -/

/-- The thread itself ends: its outstanding loads and special-function results come to nothing (R114), flags included, since
a result that is not written takes no effect (R110). -/
def State.markEnded (s : State) (t : TRef) : State :=
  { s.updThr t (fun th =>
      { th with ended := true, endPc := th.pc, held := [], deep := [], wait := .none, trap := none, async := none,
                deferred := [] }) with
    loads := s.loads.filter fun l => l.thread != t
    results := s.results.filter fun r => r.thread != t }

/-- The end of a thread: it leaves every mask, its wave's handles die with the wave, collectives and barriers are checked
again, and the workgroup ends with its last thread. (DEDUCED, log entry 111) -/
def State.endThread (s : State) (t : TRef) : State :=
  let s := (s.markEnded t).leaveAll t
  let s := if (s.waveThreads t).all fun u => (s.thr u).ended then
      ((s.endWaveHandles t.lid t.wg t.wave).settleAllTakes t.lid t.wg).updWg t.lid t.wg fun g =>
        { g with claims := g.claims.filter fun u => u.wave != t.wave }
    else s
  let s := s.recheck t
  if (s.wgLive t.lid t.wg).isEmpty && (s.wgOf t).st != .ended then s.finishWg t.lid t.wg ((s.wgOf t).killed) else s

/-! ## A wait that is abandoned, R331, R357 -/

/-- The wait that a thread is in is abandoned: its arrival is taken back, and it stands at the waiting instruction. -/
def State.abandonWait (s : State) (t : TRef) : State :=
  let inst := (s.wgOf t).inst
  let s : State := match (s.thr t).wait with
    | .mask k => s.updMask t k fun m =>
        let arr := m.arr &&& ~~~laneMask [t.lane]
        { m with
          arr := arr
          rec_ := if arr = 0 then none
            else m.rec_.map fun r => { r with vals := r.vals.filter (fun x => x.1 ≠ t.lane) } }
    | .setRedux k | .mma k => s.updSet t.lid inst k fun q =>
        let arr := q.arr.filter fun a => a.thread != t
        if arr.isEmpty then { q with arr := [], instr := none, pc := 0 } else { q with arr := arr }
    | .bar => s.updWg t.lid t.wg fun g => { g with bar := g.bar.filter fun a => a.1 != t }
    | .sbar k => s.updSet t.lid inst k fun q => { q with sbar := q.sbar.filter fun a => a.1 != t }
    | .rclaim _ => s.updWg t.lid t.wg fun g => { g with claims := g.claims.filter fun u => u != t }
    | .release _ => { s with releases := s.releases.map fun r => { r with waiters := r.waiters.filter fun u => u != t } }
    | .walk _ => s.updDie (s.wgOf t).die fun d =>
        { d with walks := d.walks.map fun w => { w with joined := w.joined.filter fun u => u != t } }
    | _ => s
  s.updThr t fun th => { th with wait := .none }

/-! ## KILL, R345, R358 -/

/-- Every thread of a workgroup ends at once, and the workgroup ends as KILL ends it. -/
def State.killWg (s : State) (lid wg : Nat) : State :=
  if (s.wg lid wg).st == .ended then s
  else
    let ts := s.wgLive lid wg
    let s := s.updWg lid wg fun g => { g with bar := [], claims := [], killed := true }
    let s := ts.foldl State.markEnded s
    let s := { s with
      releases := s.releases.filter fun r => !(r.lid == lid && r.wg == wg)
      moves := s.moves.filter fun m => !(m.thread.lid == lid && m.thread.wg == wg)
      tileOps := s.tileOps.filter fun x => !(x.1 == lid && x.2.1 == wg)
      parked := s.parked.filter fun l => !(l.lid == lid && l.wg == wg) }
    let g := s.wg lid wg
    let s := s.updCore g.die g.site fun k => { k with loops := k.loops.filter fun l => !(l.lid == lid && l.wg == wg) }
    let s := s.finishWg lid wg true
    match ts with
    | t :: _ => s.recheck t
    | [] => s

/-- GANG_LOST reaches a thread of another member (R344, R358). -/
def gangLost (th : Thread) : TrapRec :=
  { code := .gangLost, asy := true, fpc := th.pc, rpc := th.re }

/-- The thread waits in TRAPRET RETRY. -/
def Wait.isRetry : Wait → Bool
  | .retry _ => true
  | _ => false

/-- What the KILL of a gang does to a thread of another member: a TRAPRET that waits acts as KILL too (R358). -/
def State.killOther (s : State) (t : TRef) : State :=
  let th := s.thr t
  if th.wait.isRetry then s.endThread t
  else if th.ended || th.level ≠ 0 || th.trap.isSome then s
  else if th.async.isSome then s.endThread t
  else (s.abandonWait t).updThr t fun th => { th with async := some (gangLost th) }

/-- KILL of the unit of a workgroup, with the record that the launch keeps: the first KILL of a unit counts; a later one
finds it ending and changes nothing (R358). -/
def State.killUnit (s : State) (lid wg : Nat) (rec_ : Option (List Byte)) : State :=
  let i := (s.wg lid wg).inst
  let x := s.inst lid i
  if x.ended || x.killer.isSome then s
  else
    let s := s.updInst lid i fun x => { x with killer := some wg }
    let s := s.updLaunch lid fun l =>
      { l with killed := l.killed + 1, frec := if l.frec.isSome then l.frec else rec_ }
    let others := x.members.filter (· ≠ wg)
    let s := others.foldl (fun s m => (s.updWg lid m fun g => { g with killed := true })) s
    let s := s.killWg lid wg
    others.foldl (fun s m => (s.wgLive lid m).foldl State.killOther s) s

/-- A unit that the module itself ends, every member at once (R273). -/
def State.killWhole (s : State) (lid i : Nat) : State :=
  let x := s.inst lid i
  if x.ended then s
  else
    let s := s.updLaunch lid fun l => { l with killed := l.killed + 1 }
    x.members.foldl (fun s m => s.killWg lid m) s

/-- A gang lost to a soft error that the launch places once more (R344). -/
def Inst.mayRestart (l : Launch) (x : Inst) : Bool :=
  x.gang && x.ended && x.softLost && !x.restarted && l.restart && l.status != .journalFull && l.status != .taskLimit

/-! ## The journal, R273 -/

/-- The journal is rolled back in reverse order. -/
def State.rollback (s : State) (lid : Nat) : State :=
  let l := s.launch lid
  let s := l.journal.reverse.foldl (fun s e => s.fwWrite .system l.ctx e.2) s
  s.updLaunch lid fun l => { l with journal := [] }

/-- The units of a launch that is ending are placed no more: a TASK node whose task was to be placed yet ends with status NO_LAUNCH
(R289, R294). (DESIGN CHOICE, log entry 147) -/
def State.dropPending (s : State) (lid : Nat) : State :=
  let l := s.launch lid
  let s := (l.pending.filter fun p => !p.preempted).foldl (fun s p => match p.nodeWork with
    | some (d, n) => s.workEnds d l.ctx n 11
    | none => s) s
  s.updLaunch lid fun l => { l with pending := [] }

/-- JOURNAL_FULL: the launch is ended at the moment at which a write found no room. -/
def State.journalStop (s : State) (lid : Nat) : State :=
  let s := (s.dropPending lid).updLaunch lid fun l =>
    { l with status := .journalFull, prog := l.prog.map fun p => { p with state := 2 } }
  let units := (s.insts.filter fun x => x.1.1 == lid).map fun x => x.1.2
  let s := units.foldl (fun s i => s.killWhole lid i) s
  let s := (s.rollback lid).abortLaunch lid
  s.updLaunch lid fun l => { l with digest := 0, journalOn := false }

/-- Every launch whose journal has filled in this step ends with it. -/
def State.settle (s : State) : State :=
  (s.launches.filter fun l => l.2.journalFull && l.2.status != .journalFull).foldl (fun s l => s.journalStop l.1) s

end Sys2Proof.Machine
end

