-- ==== Sys2Proof/Machine/Ops.lean ====
section
/-! DEFINITION. Taking an exception, as one operation (R331 to R335, R357), and the return from one (R339, R340, R358). -/

namespace Sys2Proof.Machine

/-! ## The trap record, R333, R336 -/

/-- The fault codes of R336. -/
def faultNum : FaultCode → Nat
  | .illegalInstruction => 0x01 | .illegalOperand => 0x02 | .privilege => 0x03 | .badLanding => 0x04
  | .misaligned => 0x05 | .translation => 0x06 | .protection => 0x07 | .badAddress => 0x08 | .scratchBounds => 0x09
  | .ownership => 0x0A | .handleDead => 0x0B | .handleShape => 0x0C | .formatDivergence => 0x0D | .formatInvalid => 0x0E
  | .sparseMeta => 0x0F | .tokenDead => 0x10 | .tokenReuse => 0x11 | .effectUnhandled => 0x12 | .captureLimit => 0x13
  | .stackLimit => 0x14 | .spawnDepth => 0x15 | .rendezvousMisuse => 0x16 | .watchdogRendezvous => 0x17
  | .fpException => 0x18 | .queueConfig => 0x19 | .digestMismatch => 0x1A | .userTrap => 0x1B | .breakpoint => 0x1C
  | .uncorrectable => 0x1D | .gangLost => 0x1E | .zeroWord => 0x1F | .publishConflict => 0x20 | .nodeInvalid => 0x21
  | .brickInvalid => 0x22

/-- The 64 bytes of the record. -/
def State.recBytes (s : State) (t : TRef) (r : TrapRec) : List Byte :=
  natToBytes 4 (faultNum r.code + b2n r.def_ * 2 ^ 16 + b2n r.asy * 2 ^ 17) ++ natToBytes 4 r.fpc ++ natToBytes 4 r.rpc ++
    s.nameBytes t ++ natToBytes 8 r.mask.toNat ++ natToBytes 4 r.det0.toNat ++ natToBytes 4 r.det1.toNat ++
    natToBytes 4 r.det2.toNat ++ natToBytes 4 r.det3.toNat ++ natToBytes 4 r.tseq ++ List.replicate 8 0

/-- The 32 bytes of a wave entry (R357). -/
def entryBytes (e : WaveEntry) : List Byte :=
  natToBytes 8 e.name.lid ++ natToBytes 4 e.name.wg ++ natToBytes 4 e.tid ++ natToBytes 4 e.pc ++
    natToBytes 4 (e.state + e.live * 2 ^ 8) ++ List.replicate 8 0

/-! ## Trap entry, R332 -/

/-- A load of the thread, or a special-function result of its wave, is outstanding. -/
def State.pendingOf (s : State) (t : TRef) : Bool :=
  (s.loads.any fun l => l.thread == t) ||
  (s.results.any fun r => r.thread.lid == t.lid && r.thread.wg == t.wg && r.thread.wave == t.wave)

/-- The lowest free trap slot of a context. -/
def Context.freeSlot (c : Context) : Option Nat := (List.range (c.slots.length + 1)).find? fun k =>
  k < c.tslots && !c.slots.contains k

/-- The record and its wave entries are written into the slot: a release at system scope, which counts for the trapping
thread as its own writes (R335). -/
def State.writeRecord (s : State) (t : TRef) (slot : Nat) (r : TrapRec) : State :=
  let ctx := s.ctxOf t
  let bytes := s.recBytes t r ++ r.entries.flatMap entryBytes
  match s.trRange ctx true ((s.ctx ctx).trapBase.toNat + 16384 * slot) bytes.length with
  | .ok ls =>
    let s := s.tick
    let by_ := s.agentOf t.lid t.wg
    ((s.enter by_ (some t) s.stamp [{ by_ := by_, scope := .system, stamp := s.stamp }] false (ls.zip bytes)).tagCtx ctx ls).tick
  | .error _ => s

/-- Bytes of a trap slot of the thread's context, as memory holds them; `own` where the context's tables have come not to map
them. (DESIGN CHOICE, log entry 123) -/
def State.slotBytes (s : State) (t : TRef) (slot off n : Nat) (own : List Byte) : List Byte :=
  match s.readVa (s.ctxOf t) ((s.ctx (s.ctxOf t)).trapBase.toNat + 16384 * slot + off) n with
  | .ok b => b
  | .error _ => own

/-- 256 bytes of a record with its first six wave entries (R370). -/
def keptRecord (rec_ entries : List Byte) : List Byte :=
  rec_ ++ entries.take 192 ++ List.replicate (192 - entries.length) 0

/-- The record that the thread handles, with its wave entries, copied from its slot (R334, R335, R345). -/
def State.slotRecord (s : State) (t : TRef) : Option (List Byte) :=
  match (s.thr t).handling with
  | none => none
  | some r =>
    let k := (s.thr t).slot.getD 0
    let e := (r.entries.take 6).flatMap entryBytes
    some (keptRecord (s.slotBytes t k 0 64 (s.recBytes t r)) (s.slotBytes t k 64 e.length e))

/-- The level-1 bank at handler entry (R327): zero, with w63 at the top of the slot's trap stack. -/
def State.entryBank (s : State) (t : TRef) (slot : Nat) : Bank :=
  { w63 := (s.ctx (s.ctxOf t)).trapBase + BitVec.ofNat 64 (16384 * slot + 16384) }

/-- Taking the exception of record r: the trap slot holds the record, the status goes to level 1 with a fresh bank, and
the PC to the trap image's ENTRY. -/
def State.enterHandler (s : State) (t : TRef) (slot : Nat) (r : TrapRec) : State :=
  let r := { r with tseq := (s.thr t).tseq + 1 }
  let ctx := s.ctxOf t
  let s := s.writeRecord t slot r
  let s := s.updCtx ctx fun c => { c with slots := c.slots ++ [slot] }
  let bank := s.entryBank t slot
  let pc := (s.launchOf t).trapEntry
  let s := s.countT t 0x500 1
  s.updThr t fun th =>
    { th with trap := none, handling := some r, slot := some slot, tseq := r.tseq, level := 1, bank := bank, pc := pc }

/-- The launch takes a unit status, if none stands (R334, R369). -/
def State.setStatus (s : State) (lid : Nat) (st : Status) : State :=
  s.updLaunch lid fun l => { l with status := if l.status == .ok then st else l.status }

/-- Two records of one group: it shares the record's words, but for the exceptions of FP_EXCEPTION, which are each wave's own
(R342). -/
def sameGroup (q r : TrapRec) : Bool :=
  q.code == r.code && q.mask == r.mask && q.fpc == r.fpc &&
    (r.code == .fpException || (q.det0 == r.det0 && q.det1 == r.det1 && q.det2 == r.det2))

/-- The lowest thread in slot order of a thread's unit that stopped in the same group with the same fault (R358): on the same core, at
the same level. -/
def State.groupFirst (s : State) (t : TRef) (r : TrapRec) : TRef :=
  let g := s.wgOf t
  let same (u : TRef) : Bool :=
    u.lid == t.lid && (s.wgOf u).inst == g.inst && (s.wgOf u).die == g.die && (s.wgOf u).site == g.site &&
      (s.thr u).level == (s.thr t).level && (s.thr u).trap.any fun q => sameGroup q r
  ((tkeys s.threads).filter same).foldl (fun b u =>
    if u.wg < b.wg || (u.wg == b.wg && s.tid u < s.tid b) then u else b) t

/-- The thread's unit is a gang that a KILL is ending (R358). -/
def State.dying (s : State) (t : TRef) : Bool := (s.inst t.lid (s.wgOf t).inst).killer.isSome

/-- The thread's workgroup runs, and its picker has not stopped for a save (R347). -/
def State.afoot (s : State) (t : TRef) : Bool :=
  let g := s.wgOf t
  g.st == .running && !s.acked g.die t.lid g.inst (.picker g.site)

/-- Trap entry of a thread with a record pending (R332, R334). It waits while its unit is stopped or saved, while results are
outstanding, and while no slot is free. A fault at level 1, or without a trap image, ends the unit as KILL does, with the record of
the group's lowest thread; in a gang that a KILL is ending it ends the thread alone (R358). (DEDUCED, log entry 115) -/
def State.takeTrap (s : State) (t : TRef) : State :=
  let th := s.thr t
  match th.trap with
  | none => s
  | some r =>
    let u := s.groupFirst t r
    let r1 := { ((s.thr u).trap.getD r) with tseq := (s.thr u).tseq + 1 }
    if !s.afoot t then s
    else if th.level ≠ 0 then
      if s.dying t then s.endThread t
      else
        let s := s.setStatus t.lid .doubleFault
        let s := s.updLaunch t.lid fun l => { l with frec1 := if l.frec1.isSome then l.frec1 else some (s.recBytes u r1) }
        s.killUnit u.lid u.wg (s.slotRecord u)
    else if (s.launchOf t).trapCode.isNone then
      if s.dying t then s.endThread t
      else (s.setStatus t.lid .fault).killUnit u.lid u.wg
        (some (keptRecord (s.recBytes u r1) ((r1.entries.take 6).flatMap entryBytes)))
    else if s.pendingOf t then s
    else match (s.ctx (s.ctxOf t)).freeSlot with
      | none => s
      | some slot => s.enterHandler t slot r

/-! ## The return, R339, R340, R358 -/

/-- The thread's trap slot is free again (R335). -/
def State.giveSlot (s : State) (t : TRef) : State :=
  let slot := (s.thr t).slot
  (s.updCtx (s.ctxOf t) fun c => { c with slots := c.slots.filter fun k => slot != some k }).updThr t fun th =>
    { th with slot := none }

/-- The thread leaves its handler: level 0 at the resume point; the bank and the trap slot are given up. In a gang that a
KILL is ending, the return acts as KILL. -/
def State.leaveHandler (s : State) (t : TRef) (pc : Nat) : State :=
  let s := (s.giveSlot t).updThr t fun th => { th with level := 0, bank := {}, handling := none, pc := pc, wait := .none }
  if s.dying t then s.endThread t else s

/-- TRAPRET KILL: the unit ends, with the record of the trap (R345). -/
def State.killReturn (s : State) (t : TRef) : State :=
  if s.dying t then s.endThread t else (s.setStatus t.lid .fault).killUnit t.lid t.wg (s.slotRecord t)

/-- An asynchronous fault is pending that the thread takes: no thread at level 1 takes GANG_LOST (R358). -/
def Thread.asyncDue (th : Thread) : Bool := th.async.any fun r => th.level == 0 || r.code != .gangLost

/-- Asynchronous faults of the group's threads are taken in place of the instruction (R331, R357): the threads that have
one leave the group with their record, whose MASK marks them. -/
def State.takeAsync (s : State) : State :=
  let hit := s.cur.threads.filter fun t => (s.thr t).asyncDue
  if hit.isEmpty then s
  else
    let mask := maskOf s.cur.threads hit
    let s := hit.foldl (fun s t => s.updThr t fun th =>
      { th with trap := th.async.map fun r => { r with mask := mask, fpc := th.pc, rpc := th.re }, async := none }) s
    { s with cur := { s.cur with threads := s.cur.threads.filter fun t => !hit.contains t } }

/-! ## The entry for a fetched word that is no instruction, R52, R53 -/

/-- Checks 1 to 7 fail: every thread of the group stops. -/
def State.undecoded (s : State) (code : FaultCode) (d0 d1 d2 : Word) : State :=
  s.raise s.cur.threads { code := code, d0 := d0, d1 := d1, d2 := d2 }

/-- ENCODING_NOT_INSTRUCTION. -/
def execEncodingNotInstruction (code : FaultCode) (det0 det1 det2 : Word) (s : State) : Out :=
  .next (s.undecoded code det0 det1 det2)

/-- TRAP_ENTRY. -/
def execTrapEntry (t : TRef) (s : State) : Out := .next (s.takeTrap t).settle

end Sys2Proof.Machine
end

