-- ==== Sys2Proof/Machine/Save.lean ====
section
/-! DEFINITION. What a save area holds of a workgroup (R170, R223, R227, R317, R324, R335, R348): core memory, and the state
beside it that steps 4 and 5 of a switch save. -/

namespace Sys2Proof.Machine

/-! ## Words that the spec lays out -/

/-- The state word of a handle (R223). -/
def Handle.word (x : Handle) : Nat :=
  let st : Nat := match x.st with
    | .dead => 0
    | .live => 1
    | .given => 2
  st + x.hold % 64 * 2 ^ 2 + x.target % 64 * 2 ^ 8 + (if x.ever then 2 ^ 14 else 0) + x.shape.toNat * 2 ^ 16 +
    x.slot % 64 * 2 ^ 48 + (if x.pw then 2 ^ 54 else 0) + (if x.pr then 2 ^ 55 else 0)

/-- The 64 bytes of a loop state (R317). -/
def LoopSt.bytes (x : LoopSt) : List Byte :=
  let tail := x.kdone % 2 ^ 13 + (if x.run then 2 ^ 13 else 0) + (if x.flt then 2 ^ 14 else 0) + (if x.skip then 2 ^ 15 else 0)
  natToBytes 4 x.fmtw.toNat ++ natToBytes 4 x.loopw.toNat ++ natToBytes 4 x.w2.toNat ++
    ((List.range 9).flatMap fun k => natToBytes 4 (x.block.getD k 0).toNat) ++ natToBytes 16 tail

/-- The state word of a rendezvous point (R166). -/
def Point.word (x : Point) : Nat :=
  x.count % 2 ^ 13 + (if x.init then 2 ^ 13 else 0) + (if x.par then 2 ^ 14 else 0) + x.arrived % 2 ^ 13 * 2 ^ 16

/-- The gate latch (R324). -/
def Latch.code : Latch → Nat
  | .none => 0
  | .exact => 1
  | .skip => 2

/-! ## The image of a workgroup -/

/-- ENR, ARR and what REC records of a mask's first arrival, PC and MIN (R153, R170). -/
def Mask.bytes (m : Mask) : List Byte :=
  let min_ (r : CollRec) : Nat := ((longParts r.instr).map fun x => x.2.1).getD 0
  natToBytes 8 m.enr.toNat ++ natToBytes 8 m.arr.toNat ++ natToBytes 4 ((m.rec_.map CollRec.pc).getD 0) ++
    natToBytes 4 ((m.rec_.map min_).getD 0)

/-- The scope of a `.phase` arrival. -/
def scopeCode : Option Scp → Nat
  | none => 0
  | some .cluster => 1
  | some .die => 2
  | some .module => 3
  | some .system => 4

/-- The 24 bytes of an arrival: its kind, the set or mask, the scope, the predicate and the two values. -/
def arrivalBytes (kind k scope : Nat) (p : Bool) (a b : DWord) : List Byte :=
  natToBytes 1 kind ++ natToBytes 1 k ++ natToBytes 1 scope ++ natToBytes 5 (if p then 1 else 0) ++ natToBytes 8 a.toNat ++
    natToBytes 8 b.toNat

/-- Where a thread has arrived and waits (R170): at a barrier (1), a set barrier (2), a set collective (3) or a mask (4). -/
def State.arrivalOf (s : State) (t : TRef) : List Byte :=
  let g := s.wgOf t
  let sets := (s.inst t.lid g.inst).sets
  let bar := (g.bar.find? fun a => a.1 == t).map fun a => arrivalBytes 1 0 (scopeCode a.2) false 0 0
  let sbar := sets.findSome? fun k => (k.2.sbar.find? fun a => a.1 == t).map fun a => arrivalBytes 2 k.1 (scopeCode a.2) false 0 0
  let set := sets.findSome? fun k => (k.2.arr.find? fun a => a.thread == t).map fun a => arrivalBytes 3 k.1 0 a.pred a.a a.b
  let mask := (List.range 16).findSome? fun k => ((vget (s.wave t).k {} k).rec_.bind fun r =>
    r.vals.find? fun x => x.1 == t.lane).map fun x => arrivalBytes 4 k 0 x.2.2.2 x.2.1 x.2.2.1
  (((bar.or sbar).or set).or mask).getD (arrivalBytes 0 0 0 false 0 0)

/-- The 80 bytes of a staged store (step 3): its order, its thread, when a release held it, its address and the bytes of its sector. -/
def Staged.record (e : Staged) : List Byte :=
  let at_ (i : Nat) : Option Byte := (e.bytes.find? fun b => b.1 % 32 = i).map Prod.snd
  natToBytes 8 e.stamp ++ natToBytes 8 e.icount ++ natToBytes 2 e.thread.wave ++ natToBytes 2 e.thread.lane ++
    natToBytes 4 ((if e.held.isSome then 1 else 0) + if e.quiet then 2 else 0) ++ natToBytes 8 (e.held.getD 0) ++
    natToBytes 8 e.va.toNat ++ natToBytes 8 ((List.range 32).foldl (fun n i => if (at_ i).isSome then n + 2 ^ i else n) 0) ++
    (List.range 32).map fun i => (at_ i).getD 0

/-- How many bytes it is. -/
def stagedSize : Nat := 80

/-- The loop state of a handle: of a loop that stands parked, or on its core, as it has got there. -/
def State.loopOf (s : State) (lid wg h : Nat) : LoopSt :=
  let g := s.wg lid wg
  let x := vget g.h {} h
  match (s.parked ++ (s.core g.die g.site).loops).find? fun l => l.lid == lid && l.wg == wg && x.st != .dead && l.slotC == x.slot with
  | some l => l.ls
  | none => x.ls

/-- The bytes that hold the state of steps 3 to 5: handle words, loop states, queues' control words and fill, points, gate
latches and the PCs of sets' collectives, the barrier, the masks of each wave, the arrival of each thread, and the staged stores.
(DESIGN CHOICE, log entry 127) -/
def State.stateBytes (s : State) (lid wg waves width : Nat) : List Byte :=
  let g := s.wg lid wg
  let i := s.inst lid g.inst
  ((List.range 64).flatMap fun h => natToBytes 8 (vget g.h {} h).word) ++
    ((List.range 64).flatMap fun h => (s.loopOf lid wg h).bytes) ++
    ((List.range 8).flatMap fun q => natToBytes 8 (vget g.q {} q).cw.toNat ++ natToBytes 8 (vget g.q {} q).elems.length) ++
    ((List.range 24).flatMap fun p => natToBytes 4 (vget i.points {} p).word) ++
    ((List.range 256).flatMap fun k => natToBytes 1 ((tget i.sets k).getD {}).latch.code) ++
    ((List.range 256).flatMap fun k => natToBytes 4 ((tget i.sets k).getD {}).pc) ++
    natToBytes 4 g.barGen ++ natToBytes 28 g.bar.length ++
    ((List.range waves).flatMap fun w => (List.range 16).flatMap fun k =>
      (vget (s.wave { lid := lid, wg := wg, wave := w, lane := 0 }).k {} k).bytes) ++
    ((List.range waves).flatMap fun w => (List.range width).flatMap fun j =>
      s.arrivalOf { lid := lid, wg := wg, wave := w, lane := j }) ++
    g.staging.flatMap Staged.record

/-- How many bytes they are, but for the staged stores. -/
def stateSize (waves width : Nat) : Nat := 6144 + 384 * waves + 24 * (waves * width)

/-- Bytes of core memory of a workgroup, as the save area holds them: its private scratch with its core buffers, its tile slots of
16 KiB, then the contents of its queues. -/
def Wg.image (g : Wg) (scratch tiles : Nat) : List Host.Cell :=
  let q := (List.range 8).flatMap fun q => (vget g.q {} q).elems.flatten
  g.core ++ (g.slots.flatMap fun x => x.2.bytes.map fun b => (scratch + 16384 * x.1 + b.1, b.2)) ++
    q.zipIdx.map fun b => (scratch + 16384 * tiles + b.2, b.1)

end Sys2Proof.Machine
end

