-- ==== Sys2Proof/Machine/Accept.lean ====
section
/-! DEFINITION. Packets (R366, R368), kernel objects (R32, R33, R148 to R150, R206, R245), and the acceptance of a launch
(R151, R152, R171, R189, R380, R384). -/

namespace Sys2Proof.Machine

/-! ## Packets, R366, R368 -/

/-- A field of a packet: its id, its M bit and its body. -/
structure Field where
  id : Nat
  m : Bool
  body : List Word
  deriving DecidableEq, Repr

/-- The fields in the words after the header; `none` where one runs past the packet. -/
def parseFields : Nat → List Word → Option (List Field)
  | _, [] => some []
  | 0, _ => none
  | fuel + 1, w :: ws =>
    let n := w.toNat / 2 ^ 16
    if ws.length < n then none
    else (parseFields fuel (ws.drop n)).map fun l =>
      { id := w.toNat % 2 ^ 15, m := w.getLsbD 15, body := ws.take n } :: l

/-- The ids that a packet type defines. -/
def typeIds : Nat → List Nat
  | 0x01 => (List.range 26).map (· + 1)
  | 0x02 => [1, 4, 5, 6, 7] ++ (List.range 16).map (· + 11) ++ [40, 41, 42, 43, 44]
  | 0x03 => [50]
  | 0x04 => [50, 51, 52, 53]
  | 0x05 => [60, 16, 13]
  | 0x06 => [60]
  | 0x07 => [70, 71, 13]
  | 0x08 => [80, 13]
  | 0x09 => [90, 91, 92, 93, 94, 95, 96, 97, 98, 100, 101]
  | 0x0A => [90]
  | 0x0B => [50, 110, 111]
  | 0x0C => [120, 121, 122]
  | 0x0D => [90, 99]
  | _ => []

/-- The mandatory ids of a type. -/
def typeMust : Nat → List Nat
  | 0x01 => [1, 2, 3, 26]
  | 0x02 => [1, 26, 40]
  | 0x03 => [50]
  | 0x04 => [50, 51]
  | 0x05 => [60, 16, 13]
  | 0x06 => [60]
  | 0x07 => [70, 71]
  | 0x08 => [80, 13]
  | 0x09 => [90, 91, 92, 100, 101]
  | 0x0A => [90]
  | 0x0B => [50, 110, 111]
  | 0x0C => [120, 122]
  | 0x0D => [90, 99]
  | _ => []

/-- The body length of a field is allowed. -/
def fieldLenOk (id n : Nat) : Bool :=
  match id with
  | 1 | 6 | 10 | 17 | 18 | 22 | 23 | 24 | 26 | 40 | 50 | 51 | 60 | 91 | 92 | 93 | 111 | 122 => n == 2
  | 2 | 3 | 4 | 5 | 7 | 9 | 12 | 13 | 14 | 15 | 41 | 44 | 71 | 80 | 90 | 94 | 95 | 96 | 97 | 98 | 120 => n == 1
  | 8 | 21 => n % 2 == 0 && n ≤ 16
  | 11 => n ≤ 62
  | 16 => n % 3 == 0
  | 19 | 20 | 25 | 100 | 101 => n == 3
  | 42 | 53 | 110 => n % 2 == 0
  | 43 => n % 5 == 0
  | 52 => 2 ≤ n
  | 70 => n == 16
  | 99 => n % 4 == 0 && n ≤ 1024
  | 121 => n == 8
  | _ => true

def typeKnown (t : Nat) : Bool := 1 ≤ t && t ≤ 0x0D

/-- Checks 1 to 3 of R366 on a whole packet: its fields, or the status it ends with. -/
def parsePacket (ws : List Word) : Except Status (List Field) :=
  let w := (ws.headD 0).toNat
  let ty := w % 2 ^ 8
  if !typeKnown ty || w / 2 ^ 26 ≠ 0 || 1024 < ws.length then .error .badPacket
  else match parseFields ws.length ws.tail with
    | none => .error .badPacket
    | some fs =>
      let ids := fs.map Field.id
      let known (f : Field) : Bool := (typeIds ty).contains f.id
      if !(decide ids.Nodup) || fs.any fun f => known f && !fieldLenOk f.id f.body.length then .error .badPacket
      else if fs.any fun f => !known f && f.m then .error .unknownMandatory
      else if (typeMust ty).any fun i => !ids.contains i then .error .badPacket
      else .ok (fs.filter known)

/-- The body of a field. -/
def fbody (fs : List Field) (id : Nat) : Option (List Word) := (fs.find? fun f => f.id = id).map Field.body

/-- A field of one word, and of two words. -/
def f1 (fs : List Field) (id d : Nat) : Nat := ((fbody fs id).map fun b => (b.getD 0 0).toNat).getD d

def pair64 (b : List Word) (i : Nat) : DWord := join64 (b.getD i 0) (b.getD (i + 1) 0)

def f2? (fs : List Field) (id : Nat) : Option DWord := (fbody fs id).map fun b => pair64 b 0

def f2 (fs : List Field) (id : Nat) (d : DWord) : DWord := (f2? fs id).getD d

/-- The words of a body taken n at a time. -/
def chunks (n : Nat) (b : List Word) : List (List Word) :=
  (List.range (b.length / n)).map fun i => (b.drop (n * i)).take n

/-! ## Kernel objects -/

/-- A standing entry (R206). -/
structure StandEntry where
  rfmt : Nat
  sum : Bool
  epb : Nat
  tau : Word
  /-- data offset and MCNT of each brick -/
  bricks : List (Nat × Nat)
  mortar : List Word
  deriving DecidableEq, Repr

/-- What a launch takes from an object. -/
structure Obj where
  hdr : Header := {}
  code : List Word := []
  waves : Nat := 0
  gang : Nat := 0
  roles : List Nat := []
  sets : Tab Nat (List Nat) := []
  queues : List (Nat × DWord) := []
  standing : List StandEntry := []
  deriving DecidableEq, Repr

/-- The header, where R32 and R33 hold. -/
def parseHeader (b : List Byte) : Option Header :=
  let x : Header :=
    { features := BitVec.ofNat 128 (numAt b 8 16), codesz := numAt b 24 4, entry := numAt b 28 4, width := numAt b 32 1
      regs := numAt b 33 1, tiles := numAt b 34 1, argw := numAt b 35 1, cscratch := numAt b 36 4, stack := numAt b 40 4
      datasz := numAt b 44 4, sectab := numAt b 48 4 }
  if numAt b 0 4 = 0x4C414353 && numAt b 4 2 = 1 && numAt b 6 2 = 0 && numAt b 52 12 = 0 &&
      4 ≤ x.codesz && x.codesz ≤ 1048576 && x.codesz % 4 = 0 && x.entry % 4 = 0 && x.entry < x.codesz &&
      (x.width = 16 || x.width = 32 || x.width = 64) && 2 ≤ x.regs && x.regs ≤ 128 && x.regs % 2 = 0 && x.tiles ≤ 64 &&
      x.argw ≤ 62 && x.features.getLsbD 0
  then some x else none

/-- The entries of the section table: kind and bytes (R148). -/
def parseSections (rd : Nat → Nat → Option (List Byte)) : Nat → Nat → Option (List (Nat × List Byte))
  | 0, _ => none
  | fuel + 1, off => do
    let b ← rd off 4
    let kind := numAt b 0 1
    let len := numAt b 1 3
    if kind = 0 then some []
    else if 4 < kind || len % 4 ≠ 0 || len < 4 then none
    else
      let e ← rd off len
      let rest ← parseSections rd fuel (off + len)
      some ((kind, e) :: rest)

/-- The shape entry (R149): WAVES, GANG and the roles' counts. -/
def parseShape (b : List Byte) : Option (Nat × Nat × List Nat) :=
  let waves := numAt b 4 1
  let g := numAt b 5 1
  let n := numAt b 6 1
  let pad := (n + 3) / 4 * 4
  let counts := (b.drop 8).take n |>.map BitVec.toNat
  if b.length = 8 + pad && waves ≤ 64 && g ≤ 4 && n ≤ 16 && numAt b 7 1 = 0 && counts.all (fun c => 1 ≤ c && c ≤ 64) &&
      (n = 0 || counts.sum = waves) && ((b.drop (8 + n)).all fun x => x = 0)
  then some (waves, g, counts) else none

/-- A set entry (R150): index and members. -/
def parseSet (b : List Byte) : Option (Nat × List Nat) :=
  let n := numAt b 5 3
  let ms := (b.drop 8).take n |>.map BitVec.toNat
  if 1 ≤ n && n ≤ 256 && b.length = 8 + (n + 3) / 4 * 4 && decide ms.Nodup then some (numAt b 4 1, ms) else none

/-- A queue entry (R245). -/
def parseQueue (b : List Byte) : Option (Nat × DWord) :=
  let q := numAt b 4 4
  if b.length = 16 && q < 8 then some (q, BitVec.ofNat 64 (numAt b 8 8)) else none

/-- The largest threshold of a residual format (R191). -/
def tauOk (rfmt tau : Nat) : Bool :=
  match rfmt with
  | 0 => tau ≤ 0xFFFF
  | 1 => true
  | 2 => tau < 0x7F800000 || tau == 0x80000000
  | _ => false

/-- A standing entry (R206). -/
def parseStanding (b : List Byte) : Option StandEntry :=
  let rfmt := numAt b 4 1 % 4
  let nb := numAt b 12 4
  let nm := numAt b 16 4
  let br := (List.range nb).map fun i => (numAt b (20 + 8 * i) 4, numAt b (24 + 8 * i) 2)
  let tau := numAt b 8 4
  if 20 ≤ b.length && nb ≤ 65536 && b.length = 20 + 8 * nb + 4 * nm && numAt b 4 2 / 8 = 0 && 1 ≤ numAt b 6 2 &&
      tauOk rfmt tau && (List.range nb).all (fun i => numAt b (26 + 8 * i) 2 = 0) && (br.map Prod.snd).sum = nm
  then some { rfmt := rfmt, sum := (numAt b 4 1).testBit 2, epb := numAt b 6 2
              tau := if rfmt = 2 && tau = 0x80000000 then 0 else BitVec.ofNat 32 tau
              bricks := br, mortar := bytesToWords (b.drop (20 + 8 * nb)) }
  else none

/-- The sets of an object obey R147: an index once, no wave in five sets, positions within the gang. -/
def setsOk (gang : Nat) (sets : List (Nat × List Nat)) : Bool :=
  let all := sets.flatMap Prod.snd
  decide (sets.map Prod.fst).Nodup && all.all (fun m => m / 64 < max gang 1) && all.all fun m => all.count m ≤ 4

/-- Where the data image begins in an object: after the word that ends the section table (R31's order of parts). -/
def imageAt (h : Header) (es : List (Nat × List Byte)) : Nat := h.sectab + (es.map fun e => e.2.length).sum + 4

/-- How many entries a section table is read for: all that the address space could hold. -/
def sectionFuel : Nat := 2 ^ 50

/-- The object that a launch names (R33, R34, R148 to R150, R206). (DEDUCED, log entry 39) -/
def parseObj (rd : Nat → Nat → Option (List Byte)) : Option Obj := do
  let h ← (rd 0 64).bind parseHeader
  let code ← rd 64 h.codesz
  let es ← parseSections rd sectionFuel h.sectab
  let shapes ← (es.filter fun e => e.1 = 2).mapM fun e => parseShape e.2
  let sets ← (es.filter fun e => e.1 = 3).mapM fun e => parseSet e.2
  let qs ← (es.filter fun e => e.1 = 1).mapM fun e => parseQueue e.2
  let st ← (es.filter fun e => e.1 = 4).mapM fun e => parseStanding e.2
  let sh := shapes.headD (0, 0, [])
  if 1 < shapes.length || !setsOk sh.2.1 sets || (sh.2.1 ≠ 0 && !h.features.getLsbD 8) ||
      (!st.isEmpty && !h.features.getLsbD 9) then none
  else some { hdr := h, code := bytesToWords code, waves := sh.1, gang := sh.2.1, roles := sh.2.2, sets := sets,
              queues := qs, standing := st }

/-- The object at an address of a context, as the driver loaded it (R32). -/
def State.loaded (s : State) (ctx : Nat) (va : DWord) : Option LoadedObj := tget s.objs (ctx, va.toNat)

/-- Bytes of an object of a context: the header as the driver read it, the rest as memory holds it. -/
def State.objBytes (s : State) (ctx : Nat) (va : DWord) (off n : Nat) : Option (List Byte) :=
  match (if off == 0 && n == 64 then s.loaded ctx va else none) with
  | some o => some o.hdr
  | none => match s.readVa ctx (va.toNat + off) n with
    | .ok b => some b
    | .error _ => none

/-- What a trap image gives (R327): its code and ENTRY. -/
def State.trapImage (s : State) (ctx : Nat) (va : DWord) : Option (List Word × Nat) := do
  let b ← s.objBytes ctx va 0 64
  let n := numAt b 24 4
  let e := numAt b 28 4
  if numAt b 0 4 ≠ 0x4C414353 || numAt b 4 2 ≠ 1 || n < 4 || 65536 < n || n % 4 ≠ 0 || e % 4 ≠ 0 || n ≤ e then none
  else
    let c ← s.objBytes ctx va 64 n
    some (bytesToWords c, e)

/-- The trap image staged with a launch of a context (R327): as it stands in memory now, or where it is none any more, as it was
when the context was created. (DEDUCED, log entry 124) -/
def State.stagedTrap (s : State) (ctx : Nat) : Option (List Word × Nat) :=
  let c := s.ctx ctx
  (c.trapImg.bind (s.trapImage ctx)).or (c.trapCode.map fun w => (w, c.trapEntry))

/-! ## The driver's mappings, R25 and R36 -/

/-- The driver maps pages of a context for itself, and draws where. -/
def State.mapDriver (s : State) (ctx pages : Nat) (lid : Option Nat) : Nat × State :=
  let p := s.driverPage ctx pages
  (p, (s.updCtx ctx fun c => { c with drv := c.drv ++ [{ page := p, pages := pages, lid := lid }] }).draw)

/-- The copy of a data image: 64-byte aligned, writable (R36). -/
def State.placeImage (s : State) (ctx : Nat) (img : List Byte) : DWord × State :=
  let (p, s) := s.mapDriver ctx ((img.length + 65535) / 65536 + 1) none
  let va := p * 65536 + 64 * (Config.dataSkip s.freeCtr % 1024)
  (BitVec.ofNat 64 va, s.draw.fwWriteVa .system ctx va img)

/-- The driver loads the object at an address when a launch first names it: it reads the header, and copies the data image
(R32, R36). An object whose header or image cannot be read is not loaded. (DEDUCED, log entry 124) -/
def State.loadObject (s : State) (ctx : Nat) (va : DWord) : State :=
  let put (s : State) (ls : List Nat) (b : List Byte) (data : DWord) : State :=
    { s with objs := tset s.objs (ctx, va.toNat) { locs := ls, hdr := b, data := data } }
  if (s.loaded ctx va).isSome then s
  else match s.trRange ctx false va.toNat 64 with
    | .error _ => s
    | .ok ls =>
      let b := s.readNow ctx ls
      match parseHeader b with
      | none => s
      | some h =>
        if h.datasz = 0 then put s ls b 0
        else match (parseSections (s.objBytes ctx va) sectionFuel h.sectab).bind fun es =>
            s.objBytes ctx va (imageAt h es) h.datasz with
          | none => s
          | some img =>
            let (data, s) := s.placeImage ctx img
            put s ls b data

/-- What the driver writes over a loaded header is another object, to be loaded anew. -/
def State.unload (s : State) (locs : List Nat) : State :=
  if s.objs.any fun o => o.2.locs.any locs.contains then
    { s with objs := s.objs.filter fun o => !o.2.locs.any locs.contains }
  else s

/-- The stack slots that the driver reserves for a launch: one for each workgroup of a grid, and for the others as many as
the module could hold at once many times over. (DESIGN CHOICE, log entry 20) -/
def Launch.stackSlots (l : Launch) : Nat := if l.kind == .grid then l.count else 131072

/-- Pages that the regions of that many slots take. -/
def Launch.stackPages (l : Launch) : Nat := l.stackSlots * (l.waves * l.hdr.width) * l.stack / 65536 + 1

/-- Every slot's regions are reserved: there are pages enough. -/
def Launch.stackAll (l : Launch) : Bool := l.stackPages ≤ 2 ^ 24 - 4096

/-- The stack regions of a launch's threads are reserved and mapped (R25). -/
def State.reserveStacks (s : State) (lid : Nat) (l : Launch) : Launch × State :=
  let (p, s) := s.mapDriver l.ctx (min (2 ^ 24 - 4096) l.stackPages) (some lid)
  ({ l with stackVa := BitVec.ofNat 64 (p * 65536) }, s)

/-- The mappings that a launch's end gives up leave the tables and the caches. -/
def State.unmapStacks (s : State) (lid : Nat) : State :=
  let ctx := (s.launch lid).ctx
  let mine := (s.ctx ctx).drv.filter fun m => m.lid == some lid
  let hit (e : TlbEnt) : Bool := e.ctx == ctx && mine.any fun m => m.page ≤ e.page && e.page < m.page + m.pages
  let s := s.updCtx ctx fun c => { c with drv := c.drv.filter fun m => m.lid != some lid }
  (List.range 24).foldl (fun s d => s.updDie d fun x => { x with tlb := x.tlb.filter fun e => !hit e }) s

/-! ## Dependent launches, R177 -/

/-- The launch has a unit that is not placed: it has not begun to offer its units, or one is pending, a pre-empted one
included. -/
def Launch.unplaced (l : Launch) : Bool := !l.ended && (!l.dispatchable || !l.pending.isEmpty)

/-- A launch waits on one of its producers. -/
def State.waitsFor (s : State) (l : Launch) (p : Nat) : Bool :=
  (s.launch p).unplaced || (l.depmode == 0 && !(s.launch p).ended)

/-- A launch waits on its producers: none of its units is placed. -/
def State.waitsOn (s : State) (l : Launch) : Bool := l.prod.any (s.waitsFor l)

/-- The launch has a unit to place: one that is not placed yet, or a program's next update. -/
def Launch.hasUnits (l : Launch) : Bool :=
  l.unplaced || l.prog.any fun p => p.state != 2 && p.dies.any fun d => d.bricks.any fun b => b.st == 1

/-- The effective level of a launch's units: the most urgent of its own and of its consumers' that wait on it. A consumer whose units
are all placed waits for nothing (R177). -/
def State.effLevel (s : State) (lid : Nat) : Nat :=
  s.launches.foldl (fun n c =>
    if c.2.prod.contains lid && !c.2.ended && c.2.hasUnits && s.waitsFor c.2 lid then min n c.2.level else n) (s.launch lid).level

/-! ## The launch that a packet describes, R171 -/

/-- Argument words, producer ids. -/
def words64 (b : List Word) : List DWord := (chunks 2 b).map fun c => pair64 c 0

/-- The domain's physical dies by the mask of logical dies (R363). -/
def State.domainOf (s : State) (mask : Nat) : List Nat :=
  (s.onlineDies.zipIdx.filter fun x => mask.testBit x.2).map Prod.fst

/-- The mask that names every online die. -/
def State.allDies (s : State) : Nat := 2 ^ s.onlineDies.length - 1

/-- The launch as the packet's fields and the object say it, before any check. (DEDUCED, log entry 38) -/
def State.launchOfFields (s : State) (ctx : Nat) (standing : Bool) (fs : List Field) (o : Obj) (mask : Nat) : Launch :=
  let dims := ((fbody fs 10).getD [0, 0])
  let d0 := (dims.getD 0 0).toNat
  let d1 := (dims.getD 1 0).toNat
  let det := f1 fs 14 0
  let mode := d1 / 2 ^ 16 % 4
  let dom := s.domainOf mask
  { ctx := ctx
    kind := if standing then .standing else if f1 fs 2 0 = 0 then .grid else .task
    code := o.code, hdr := o.hdr
    data := if o.hdr.datasz = 0 then 0 else ((s.loaded ctx (f2 fs 1 0)).map LoadedObj.data).getD 0
    args := (fbody fs 11).getD []
    count := f1 fs 3 1
    waves := if o.waves ≠ 0 then o.waves else f1 fs 4 1
    gang := o.gang, roles := o.roles, sets := o.sets, queues := o.queues
    level := f1 fs 5 6
    dline := (f2? fs 6).bind fun x => if x = 0xFFFFFFFFFFFFFFFF then none else some x
    reserve := f1 fs 7 0
    prod := (words64 ((fbody fs 8).getD [])).map BitVec.toNat
    depmode := f1 fs 9 0
    mode := if det % 4 ≠ 0 && mode = 0 then 2 else mode
    dx := d0 % 2 ^ 16 + 1, dy := d0 / 2 ^ 16 + 1, dz := d1 % 2 ^ 16 + 1
    det := det % 4, restart := det.testBit 8
    stack := f1 fs 12 o.hdr.stack
    fpen := BitVec.ofNat 7 (f1 fs 15 0)
    gateLo := BitVec.ofNat 32 (((fbody fs 18).map fun b => (b.getD 0 0).toNat).getD 0xFF800000)
    gateHi := BitVec.ofNat 32 (((fbody fs 18).map fun b => (b.getD 1 0).toNat).getD 0xFF800000)
    skipLog := (fbody fs 19).map fun b => (pair64 b 0, (b.getD 2 0).toNat)
    gateReplay := (fbody fs 20).map fun b => (pair64 b 0, (b.getD 2 0).toNat)
    prelogIn := words64 ((fbody fs 21).getD [])
    digestIn := f2? fs 22
    journalSz := (f2 fs 23 0).toNat
    race := f2? fs 24
    trace := (fbody fs 25).map fun b => (pair64 b 0, (b.getD 2 0).toNat)
    record := f2? fs 26
    session := f2? fs 17
    domain := dom
    cores := dom.flatMap fun d => (s.die d).sites.map fun i => (d, i)
    tables := s.onlineDies.map fun d => (d, (s.die d).sites)
    acceptSeq := s.nextSeq }

/-! ## Checks 2 to 6 of R384 -/

def featuresOk (s : State) (l : Launch) : Bool :=
  l.hdr.features &&& ~~~s.caps == 0 && (l.det == 0 || l.hdr.features.getLsbD 6)

/-- The gate range of R323: both bounds finite with τlo ≤ τhi, or both −∞. -/
def gateOk (lo hi : Word) : Bool :=
  (lo == 0xFF800000 && hi == 0xFF800000) ||
    match fmtF32.decode lo.toNat, fmtF32.decode hi.toNat with
    | .fin n m e, .fin n' m' e' =>
      let v (n : Bool) (m : Nat) (e : Int) : Rat := (if n then -1 else 1) * (m : Rat) * (2 : Rat) ^ e
      v n m e ≤ v n' m' e'
    | _, _ => false

/-- The parameters of R171, STACK and the gate range included. -/
def State.paramsOk (s : State) (standing : Bool) (fs : List Field) (l : Launch) (dimsMode : Nat) : Bool :=
  f1 fs 2 0 ≤ 1 && (standing || l.kind == .grid || (1 ≤ l.count && l.count ≤ 65536)) && l.level ≤ 11 && l.depmode ≤ 1 &&
    dimsMode ≤ 2 && l.det ≤ 2 && l.stack % 16 == 0 && l.stack ≤ 65536 && gateOk l.gateLo l.gateHi &&
    l.prod.all fun p => match tget s.launches p with
      | some x => x.ctx == l.ctx && x.kind != .standing
      | none => false

/-- The shape (R151, R266, R380). -/
def shapeOk (o : Obj) (packetWaves : Option Nat) (l : Launch) : Bool :=
  (o.waves == 0 || match packetWaves with
    | some v => v == 0 || v == o.waves
    | none => true) &&
  1 ≤ l.waves && l.waves ≤ 64 && l.waves * l.hdr.width ≤ 1024 && (l.kind != .task || l.waves == 1) &&
  (l.gang == 0 || l.kind == .grid) &&
  (l.kind != .grid || (1 ≤ l.count && l.count ≤ l.cores.length && (l.gang == 0 || l.count % l.gang == 0))) &&
  (l.sets.all fun x => x.2.all fun m => m % 64 < l.waves) &&
  (l.kind != .standing || l.det == 0 || l.domain.length ≤ 1)

/-- Register lines, core scratch and core memory of one workgroup (R133, R152). -/
def Launch.lines (l : Launch) : Nat := l.waves * min (l.hdr.regs + 2) 128 * l.hdr.width / 16

def Launch.scratch (l : Launch) : Nat := (l.hdr.cscratch + 4095) / 4096 * 4096

/-- Bytes of a queue by its control word, rounded up to 64; a depth or an element size that is not allowed counts all the same.
(DESIGN CHOICE, log entry 146) -/
def queueBytes (cw : DWord) : Nat :=
  (2 ^ (cw.toNat / 2 ^ 16 % 16) * (4 * 2 ^ (cw.toNat / 2 ^ 20 % 8)) + 63) / 64 * 64

/-- The size of the queue area (R209). -/
def Launch.queueArea (l : Launch) : Nat := (l.queues.map fun q => queueBytes q.2).sum

def Launch.coreMem (l : Launch) : Nat := l.scratch + l.queueArea + l.hdr.tiles * 16384

/-- What a save of a workgroup takes of a save area (R335): its core memory, its state, and its staging with the handler entries that
the save stages (R118). -/
def State.saveSize (s : State) (lid wg : Nat) : Nat :=
  let l := s.launch lid
  l.coreMem + stateSize l.waves l.hdr.width +
    stagedSize * ((s.wg lid wg).staging.length + 2 * ((s.wgThreads lid wg).map fun t => (s.thr t).held.length).sum)

/-- What a save of a unit takes. -/
def State.unitSize (s : State) (u : Nat × Nat) : Nat := ((s.inst u.1 u.2).members.map (s.saveSize u.1)).sum

/-- The need fits an empty core (R152). -/
def sizeOk (l : Launch) : Bool :=
  l.lines ≤ 8192 && l.waves * l.hdr.width ≤ 2048 && l.scratch ≤ 4194304 && l.hdr.tiles ≤ 64 && l.coreMem ≤ 5242880

/-! ## The buffer list, R384 step 7 -/

/-- One entry of a buffer list. -/
structure BufReq where
  id : Nat
  lvl : Nat
  clu : Nat
  die : Nat
  size : Nat
  off : Nat
  deriving DecidableEq, Repr

def bufReq (c : List Word) : BufReq :=
  let w := (c.getD 0 0).toNat
  { id := w % 2 ^ 14, lvl := w / 2 ^ 14 % 4, clu := w / 2 ^ 16 % 16, die := w / 2 ^ 20 % 2 ^ 8
    size := (c.getD 1 0).toNat, off := (c.getD 2 0).toNat }

def lvlOf : Nat → Lvl
  | 0 => .core | 1 => .cluster | _ => .die

/-- The buffers of a level of a die, of one cluster for the cluster level: base and size. -/
def Die.space (d : Die) (lvl : Lvl) (clu : Nat) : List (Nat × Nat) :=
  (d.bufs.filter fun b => b.2.lvl == lvl && (lvl != .cluster || b.2.clu == clu)).map fun b => (b.2.base, b.2.size)

/-- The lowest base at which a size fits among buffers that lie in a space of `cap` bytes. -/
def firstFit (cap size : Nat) (l : List (Nat × Nat)) : Option Nat :=
  let ok (b : Nat) : Bool := b + size ≤ cap && l.all fun x => b + size ≤ x.1 || x.1 + x.2 ≤ b
  let cand := 0 :: l.map fun x => x.1 + x.2
  cand.foldl (fun (m : Option Nat) b => if ok b then some (match m with
    | some y => min y b
    | none => b) else m) none

def lvlCap : Lvl → Nat
  | .core => 4194304 | .cluster => 16 * 2 ^ 20 | .die => 128 * 2 ^ 20

/-- Bytes of the brick records of a program on a die (R190). -/
def Prog.recordBytes (p : Prog) (die : Nat) : Nat :=
  ((p.dies.filter fun d => d.die == die).map fun d => 32 * d.bricks.length).sum

/-- Bytes of die scratch that records take: those of the bricks of programs that have not stopped (R190), and those of nodes,
88 bytes each (R290). They lie at its top. (DESIGN CHOICE, log entry 125) -/
def State.recordBytes (s : State) (die : Nat) : Nat :=
  (s.launches.map fun l => match l.2.prog with
    | some p => if p.state == 2 then 0 else p.recordBytes die
    | none => 0).sum + 88 * (s.die die).nodes.length

/-- Die scratch has room for n more bytes of records. -/
def State.recordRoom (s : State) (die n : Nat) : Bool :=
  s.recordBytes die + n ≤ lvlCap .die && ((s.die die).space .die 0).all fun x => x.1 + x.2 + s.recordBytes die + n ≤ lvlCap .die

/-- Where a new buffer of a level fits on a die, besides `extra` bytes of new records. -/
def State.bufBase (s : State) (die : Nat) (lvl : Lvl) (clu size extra : Nat) : Option Nat :=
  let records := if lvl = .die then s.recordBytes die + extra else 0
  firstFit (lvlCap lvl - records) size ((s.die die).space lvl clu)

/-- A cluster of a die has a live core. -/
def Die.clusterLive (d : Die) (c : Nat) : Bool := d.sites.any fun i => i / 4 == c

/-- A buffer id is live on a die: in its table, or saved with a context that is switched out. -/
def State.bufLive (s : State) (die id : Nat) : Bool :=
  (tget (s.die die).bufs id).isSome || s.contexts.any fun c => c.2.savedBufs.any fun b => b.1 == die && b.2.1 == id

/-- An entry of the list that has been made: its level, die and cluster, its size, and its place there. -/
abbrev BufDone := Nat × Nat × Nat × Nat × Nat

/-- The buffers of a list are checked and made, entry by entry; `tot` are the entries made so far. Core entries lie at their
own offsets in the private scratch of every workgroup, so two of them overlap where their offsets do (R384). The dies of the domain are `dom`, in rank order; `pin` makes buffers of a pinned region. -/
def State.makeBufs (ctx lid : Nat) (pin : Option DWord) (cscratch : Nat) (dom logical : List Nat) :
    List BufDone → List BufReq → State → Except Status State
  | _, [], s => .ok s
  | tot, r :: rs, s =>
    let c := s.ctx ctx
    let die := s.onlineDies.getD r.die 24
    let lvl := lvlOf r.lvl
    let clu := if lvl = .cluster then r.clu else 0
    if r.id < c.bufFirst || c.bufFirst + c.bufCount ≤ r.id || r.id = 0 || r.lvl = 3 || !logical.contains r.die ||
        (lvl == .cluster && (8 < r.clu || !(s.die die).clusterLive r.clu)) then .error .badPacketTarget
    else if r.size % 64 ≠ 0 || r.size < 64 || 134217728 < r.size || (lvl == .core && cscratch < r.off + r.size) then
      .error .badShape
    else
      let same := tot.filter fun t => t.1 == r.lvl && (lvl == .core || t.2.1 == die) && t.2.2.1 == clu
      if lvlCap lvl < r.size + (same.map fun t => t.2.2.2.1).sum then .error .tooLarge
      else
        let dies := if lvl = .core then dom else [die]
        let clear := same.all fun t => r.off + r.size ≤ t.2.2.2.2 || t.2.2.2.2 + t.2.2.2.1 ≤ r.off
        let base := if lvl = .core then (if clear then some r.off else none) else s.bufBase die lvl clu r.size 0
        match base with
        | none => .error .busy
        | some base =>
          if dies.any fun d => s.bufLive d r.id then .error .busy
          else
            let b : Buffer := { size := r.size, base := base, lvl := lvl, ctx := ctx, clu := clu, pin := pin.isSome,
                                lid := if pin.isSome then none else some lid, session := pin }
            State.makeBufs ctx lid pin cscratch dom logical ((r.lvl, die, clu, r.size, base) :: tot) rs
              (dies.foldl (fun s d => s.updDie d fun x => { x with bufs := tset x.bufs r.id b }) s)

/-! ## Standing programs, R189, R190, R200 -/

/-- Bricks from data addresses and counts: the mortar offsets run on where `moff` is not given. -/
def mkBricks (p : Prog) (l : List (DWord × Nat × Nat)) : List Brick :=
  l.map fun x => { res := p.keyMax, data := x.1, mcnt := x.2.1, moff := x.2.2 }

/-- Running offsets of lists laid one after the other. -/
def offsets : Nat → List Nat → List Nat
  | _, [] => []
  | o, n :: t => o :: offsets (o + n) t

/-- The home die's bricks from the object's standing entry. -/
def entryBricks (p : Prog) (e : StandEntry) (data : DWord) : List Brick :=
  let moff := offsets 0 (e.bricks.map Prod.snd)
  mkBricks p (e.bricks.zip moff |>.map fun x => (data + BitVec.ofNat 64 x.1.1, x.1.2, x.2))

/-- The bricks of another die, by an entry of BRICKS: rank and NB in word 0, then the table's and the mortar area's
addresses. (DESIGN CHOICE, log entry 44) -/
def State.tableBricks (s : State) (ctx : Nat) (p : Prog) (c : List Word) : Option (Nat × List Brick × List Word) :=
  let w := (c.getD 0 0).toNat
  let nb := w / 2 ^ 8
  match s.readVa ctx (pair64 c 1).toNat (16 * nb) with
  | .error _ => none
  | .ok b =>
    let br := mkBricks p ((List.range nb).map fun i =>
      (BitVec.ofNat 64 (numAt b (16 * i) 8), numAt b (16 * i + 8) 2, numAt b (16 * i + 12) 4))
    let n := br.foldl (fun n x => max n (x.moff + x.mcnt)) 0
    match s.readVa ctx (pair64 c 3).toNat (4 * n) with
    | .error _ => none
    | .ok m => if 1048576 < nb then none else some (w % 2 ^ 8, br, bytesToWords m)

/-- The words of a brick's mortar list. -/
def ProgDie.mortarOf (d : ProgDie) (b : Brick) : List Word := (d.mortar.drop b.moff).take b.mcnt

/-- Every mortar list of a die names bricks of the program (R190). -/
def Prog.mortarsOk (p : Prog) (d : ProgDie) : Bool :=
  d.bricks.all fun b => (d.mortarOf b).all fun w => (p.brick? w.toNat).isSome

/-- The program of a standing launch, with the bricks of every die; `none` where a BRICKS table is bad.
(DESIGN CHOICE, log entry 13) -/
def State.mkProg (s : State) (l : Launch) (e : StandEntry) (fs : List Field) : Option Prog :=
  let p : Prog := { rfmt := e.rfmt, sum := e.sum, tau := e.tau, epb := e.epb, convRec := f2 fs 40 0,
                    convNode := (fbody fs 41).map fun b => b.getD 0 0 }
  let iter (r : Nat) : Option Word :=
    ((chunks 2 ((fbody fs 42).getD [])).find? fun c => (c.getD 0 0).toNat = r).map fun c => c.getD 1 0
  match (chunks 5 ((fbody fs 43).getD [])).mapM (s.tableBricks l.ctx p) with
  | none => none
  | some ts =>
    let dies := l.domain.zipIdx.map fun x =>
      if x.2 = 0 then
        ({ die := x.1, bricks := entryBricks p e l.data, mortar := e.mortar, iter := iter 0 } : ProgDie)
      else match ts.find? fun t => t.1 = x.2 with
        | some t => { die := x.1, bricks := t.2.1, mortar := t.2.2, iter := iter x.2 }
        | none => { die := x.1, iter := iter x.2 }
    let p := { p with dies := dies }
    let ranks : List Nat := ts.map Prod.fst
    if decide (List.Nodup (α := Nat) ranks) && ranks.all (fun r => 1 ≤ r && r < l.domain.length) && (p.dies.drop 1).all p.mortarsOk then some p
    else none

/-- A program slot is free for a context on every die of a domain. -/
def State.slotFree (s : State) (ctx : Nat) (dom : List Nat) (k : Nat) : Bool :=
  !(s.launches.any fun l => l.2.ctx == ctx && match l.2.prog with
    | some p => p.slot == k && p.state != 2 && p.dies.any fun d => dom.contains d.die
    | none => false)

/-- The slot: the one asked for, or the lowest free one (R189). (DESIGN CHOICE, log entry 42) -/
def State.pickSlot (s : State) (ctx : Nat) (dom : List Nat) (ask : Option Nat) : Option Nat :=
  match ask with
  | some k => if k < 64 && s.slotFree ctx dom k then some k else none
  | none => (List.range 64).find? (s.slotFree ctx dom)

/-- The lowest free buffer id of a context on a die. (DESIGN CHOICE, log entry 129) -/
def State.freeBufId (s : State) (ctx die : Nat) : Option Nat :=
  let c := s.ctx ctx
  ((List.range c.bufCount).map (· + c.bufFirst)).find? fun i => i ≠ 0 && !s.bufLive die i

/-- The program's mortar buffers are taken, one on each die (R205), beside its brick records (R190). -/
def State.takeMortars (ctx lid : Nat) : List ProgDie → State → Option (List ProgDie × State)
  | [], s => some ([], s)
  | d :: ds, s => do
    let id ← s.freeBufId ctx d.die
    let size := max 64 ((4 * d.mortar.length + 63) / 64 * 64)
    guard (s.recordRoom d.die (32 * d.bricks.length))
    let base ← s.bufBase d.die .die 0 size (32 * d.bricks.length)
    let b : Buffer := { size := size, base := base, st := .shared, hold := .queueUnit, ctx := ctx, lid := some lid,
                        shLid := lid, bytes := scPut [] 0 (wordsToBytes d.mortar) }
    let (l, s) ← State.takeMortars ctx lid ds (s.updDie d.die fun x => { x with bufs := tset x.bufs id b })
    some ({ d with mortarBuf := id } :: l, s)

/-! ## Acceptance, R384 -/

/-- The units of an accepted launch, pending once it becomes dispatchable: gangs or workgroups of a grid, the initial
tasks. -/
def Launch.units (l : Launch) : List Pending :=
  match l.kind with
  | .grid => (List.range (if l.gang = 0 then l.count else l.count / l.gang)).map fun i => { idx := i, entry := l.hdr.entry }
  | .task => (List.range l.count).map fun i => { idx := i, entry := l.hdr.entry }
  | .standing => []

/-- Checks 2 to 6, which need only the launch. -/
def State.staticStatus (s : State) (standing : Bool) (fs : List Field) (o : Obj) (l : Launch) (mask : Nat) : Status :=
  let dimsMode := (((fbody fs 10).getD []).getD 1 0).toNat / 2 ^ 16 % 4
  if standing && o.standing.length ≠ 1 then .badObject
  else if !featuresOk s l then .missingFeature
  else if !s.paramsOk standing fs l dimsMode then .badShape
  else if s.onlineDies.length ≤ 24 && mask / 2 ^ s.onlineDies.length ≠ 0 then .badPacketTarget
  else if mask = 0 then .badShape
  else if !shapeOk o ((fbody fs 4).map fun b => (b.getD 0 0).toNat) l then .badShape
  else if !sizeOk l then .tooLarge
  else .ok

/-- What a saved workgroup takes: its handler entries stand among its staged stores. -/
def State.savedSize (s : State) (lid wg : Nat) : Nat :=
  let l := s.launch lid
  l.coreMem + stateSize l.waves l.hdr.width + stagedSize * (s.wg lid wg).staging.length

/-- Bytes of a context's save area that hold pre-empted units and switched-out buffers (R335, R348).
(DEDUCED, log entry 49) -/
def State.savedBytes (s : State) (ctx : Nat) : Nat :=
  ((s.wgs.filter fun g => g.2.st == .preempted && (s.launch g.1.1).ctx == ctx).map fun g => s.savedSize g.1.1 g.1.2).sum +
    ((s.ctx ctx).savedBufs.map fun b => b.2.2.size).sum

/-- The journals of a context that stand, each by how far below the top of the save area it begins, and its size (R335). -/
def State.journalsOf (s : State) (ctx : Nat) : List (Nat × Nat) :=
  let c := s.ctx ctx
  (s.launches.filter fun l => l.2.ctx == ctx && l.2.journalOn && !l.2.recorded).map fun l =>
    (c.saveBase.toNat + c.svsize * 65536 - l.2.journalAt.toNat - l.2.journalSz, l.2.journalSz)

/-- How far down the journals of a context reach from the top of its save area. -/
def State.journalReach (s : State) (ctx : Nat) : Nat := (s.journalsOf ctx).foldl (fun n x => max n (x.1 + x.2)) 0

/-- Checks 7 to 10 and the journal: the state with everything the launch takes, and its program.
(DEDUCED, log entries 40 and 43) -/
def State.takeAll (s : State) (lid : Nat) (standing : Bool) (fs : List Field) (o : Obj) (l : Launch) (mask : Nat) :
    Except Status (Launch × State) := do
  let logical := (List.range 24).filter fun i => mask.testBit i
  let s ← State.makeBufs l.ctx lid none l.hdr.cscratch l.domain logical []
    ((chunks 3 ((fbody fs 16).getD [])).map bufReq) s
  match l.session with
  | some x =>
    if !(l.domain.all fun d => (s.die d).pins.any fun p => p.session == x && p.ctx == l.ctx) then throw .badSession
  | none => pure ()
  let (l, s) ←
    if standing then
      match o.standing.head? with
      | none => throw .badObject
      | some e =>
        match s.mkProg l e fs with
        | none => throw .badPacketTarget
        | some p =>
          match s.pickSlot l.ctx l.domain ((fbody fs 44).map fun b => (b.getD 0 0).toNat) with
          | none => throw .busy
          | some k =>
            match State.takeMortars l.ctx lid p.dies s with
            | none => throw .busy
            | some (ds, s) => pure ({ l with prog := some { p with slot := k, dies := ds } }, s)
    else pure (l, s)
  if l.digestIn.isSome then
    let c := s.ctx l.ctx
    match firstFit (c.svsize * 65536 - s.savedBytes l.ctx) l.journalSz (s.journalsOf l.ctx) with
    | none => throw .journalFull
    | some k =>
      let s := s.updCtx l.ctx fun c => { c with journals := max (s.journalReach l.ctx) (k + l.journalSz) }
      pure (s.reserveStacks lid
        { l with journalOn := true, journalAt := c.saveBase + BitVec.ofNat 64 (c.svsize * 65536 - k - l.journalSz) })
  else pure (s.reserveStacks lid l)

/-- A launch is accepted with the next %launch: it runs, or ends with the first failing check's status. `force` is the die
of a LAUNCH instruction, `floor` its issuer's level (R186). (DESIGN CHOICE, log entry 7) -/
def State.accept (s : State) (ctx : Nat) (standing : Bool) (queue : Option (Nat × Nat)) (fs : List Field)
    (force : Option Nat) (floor : Nat) : State :=
  let lid := s.nextLid
  let va := f2 fs 1 0
  let mask := match force with
    | some d => 2 ^ s.logicalDie d
    | none => f1 fs 13 s.allDies
  let s := ({ s with nextLid := lid + 1 }).loadObject ctx va
  let fail (l : Launch) (st : Status) : State :=
    let l := { l with status := st, ended := true, queue := queue, accepted := lid, prog := none }
    { s with launches := tset s.launches lid l }
  match parseObj (s.objBytes ctx va) with
  | none => fail (s.launchOfFields ctx standing fs {} mask) .badObject
  | some o =>
    let l := s.launchOfFields ctx standing fs o mask
    let l := { l with level := max l.level floor, queue := queue, accepted := lid }
    let bad := match o.standing.head? with
      | some e => standing && !(e.mortar.all fun w => w.toNat < e.bricks.length)
      | none => false
    let bad := bad || (o.hdr.datasz ≠ 0 && (s.loaded ctx va).isNone)
    match (if bad then Status.badObject else s.staticStatus standing fs o l mask) with
    | .ok =>
      match s.takeAll lid standing fs o l mask with
      | .error st => fail l st
      | .ok (l, s) =>
        let trap := s.stagedTrap ctx
        let l := { l with
          pending := l.units
          nextTask := if standing then 0 else l.count
          trapCode := trap.map Prod.fst
          trapEntry := (trap.map Prod.snd).getD 0 }
        { s with launches := tset s.launches lid l }
    | st => fail l st

end Sys2Proof.Machine
end

