-- ==== Sys2Proof/Machine/Ctl.lean ====
section
/-! DEFINITION. The CTL class (R111 to R115) and the short NOP and LAND. -/

namespace Sys2Proof.Machine

/-! ## Jumps -/

/-- The thread goes to a target; its path signature folds it (R280). -/
def State.transfer (s : State) (len target : Nat) (t : TRef) : State :=
  (s.foldPath t (s.thr t).pc len target).updThr t fun th => { th with pc := target, icount := th.icount + 1 }

/-- Threads whose guard is false retire; each active thread sets its own PC. -/
def State.eachOwn (s : State) (len : Nat) (p : Pred) (act : List TRef) (eff : TRef → State → State) : State :=
  act.foldl (fun s t => eff t s) (s.retireAll len (s.inactive p))

/-- PC + DISP of a thread, for a displacement whose target was checked at decode. -/
def dispTarget (th : Thread) (disp : Int) : Nat := ((th.pc : Int) + disp).toNat

/-! ## Own stack bytes -/

/-- The acquire under which a thread reads n bytes: its workgroup's last, with what the swaps of a published range add
(R255, R259). -/
def State.acqAt (s : State) (t : TRef) (va : DWord) (n : Nat) : Acq :=
  { (s.wgOf t).acq with pub := inPub (s.die (s.wgOf t).die) (s.ctxOf t) va.toNat n }

/-- The bytes at an address that a load of the thread shows now (R29, R255). -/
def State.peek (s : State) (t : TRef) (va : DWord) (locs : List Nat) : List Byte × State :=
  s.readPieces (s.stagingFor t.lid t.wg) (s.acqAt t va locs.length) (some t)
    { stamp := s.stamp + 1, seq := s.nextSeq, start := (s.launchOf t).acceptSeq }
    (s.ctxOf t) (pieces locs)

/-- A plan for each thread in turn, where making one draws free values. -/
def State.plans {α : Type} (s : State) (f : TRef → State → α × State) : List TRef → List α × State
  | [] => ([], s)
  | t :: ts =>
    let (a, s) := f t s
    let (l, s) := State.plans s f ts
    (a :: l, s)

/-! ## Code targets, R113 -/

/-- The code image at a thread's level. -/
def State.codeOf (s : State) (t : TRef) : List Word :=
  if (s.thr t).level = 0 then (s.launchOf t).code else (s.launchOf t).trapCode.getD []

/-- The word at an offset selects LAND. -/
def selectsLand (code : List Word) (codesz t : Nat) : Bool :=
  let w := code.getD (t / 4) 0
  let len := fieldN w 0 2
  let maj := fieldN w 2 6
  if len % 2 = 0 then maj == 0x1A
  else maj == 0x08 && t + 4 < codesz && fieldN (code.getD (t / 4 + 1) 0) 0 10 == 1

/-- The faults of rank 1 to 3 of a target, as the bits of detail word 1. BAD_LANDING is examined for a target that is
aligned and inside. -/
def State.targetBits (s : State) (t : TRef) (landing : Bool) (x : Nat) : Nat :=
  let mis := x % 4 ≠ 0
  let out := s.codeSize t ≤ x
  (if mis then 1 else 0) + (if out then 2 else 0) +
    (if landing && !mis && !out && !selectsLand (s.codeOf t) (s.codeSize t) x then 4 else 0)

/-- What an active thread finds: its target, the bits of its target faults, and its stack access. -/
structure Jump where
  t : TRef
  target : Nat
  bits : Nat
  acc : Option Acc

def Jump.stackFlt (j : Jump) : Option (Nat × Flt) := j.acc.bind Acc.rank?

/-- The lowest-ranked fault of any thread, and the fault record's words. -/
def jumpFault (js : List Jump) : Option Flt :=
  let union := js.foldl (fun n j => n ||| j.bits) 0
  let stack := js.filterMap fun j => j.stackFlt
  let d1 := w32 (union + (if stack.isEmpty then 0 else 8))
  let first (bit : Nat) : Word := w32 (((js.find? fun j => Nat.testBit j.bits bit).map Jump.target).getD 0)
  if Nat.testBit union 0 then some { code := .misaligned, d0 := first 0, d1 := d1, d2 := 0x300 }
  else if Nat.testBit union 1 then some { code := .translation, d0 := first 1, d1 := d1, d2 := 0xB00 }
  else if Nat.testBit union 2 then some { code := .badLanding, d0 := first 2, d1 := d1, d2 := 0x300 }
  else (stack.foldl (fun (best : Option (Nat × Flt)) x => match best with
    | none => some x
    | some b => if x.1 < b.1 then some x else some b) none).map Prod.snd

/-- The jump of a group: walks first, then the faults of R113 over all active threads, then the effect; `wr` says that the accesses
are stores, which wait for the threads' own loads of the same bytes (R21). -/
def State.jumpForm (s : State) (h : Hdr) (wr : Bool) (js : List Jump) (eff : Jump → State → State) : State :=
  match s.stall (js.filterMap fun j => j.acc.map fun a => (j.t, a)) with
  | some s' => s'
  | none =>
    match jumpFault js with
    | some f => s.stop (hlen h) h.pred ((js.filter fun j => j.bits ≠ 0 || j.stackFlt.isSome).map Jump.t) f
    | none => s.whenClear (if wr then js.filterMap fun j => j.acc.map fun a => (j.t, a) else []) fun s =>
        js.foldl (fun s j => eff j s) (s.retireAll (hlen h) (s.inactive h.pred))

/-- Where Frame stores: the 16 bytes below w63 (R112), an access by w63 (R115). -/
def State.frameAcc (s : State) (t : TRef) : Acc := s.access t 1 ((s.thr t).sp - 16) 16 false true

/-- Frame(r), R112. -/
def State.frame (s : State) (j : Jump) (r : Nat) : State :=
  let sp := (s.thr j.t).sp - 16
  (s.stage j.t sp ((j.acc.map Acc.locs).getD []) (natToBytes 4 r ++ List.replicate 12 0)).updThr j.t fun th => th.setSp sp

/-! ## Meanings -/

def execNop (h : Hdr) (s : State) : Out := .next (s.issue h {} fun _ s => s.retireAll (hlen h) s.cur.threads)

def execNopShort (f : Short) (s : State) : Out := .next (s.issueShort f {} fun _ s => s.retireAll (slen f) s.cur.threads)

def execLand (h : Hdr) (s : State) : Out := .next (s.issue h {} fun _ s => s.retireAll (hlen h) s.cur.threads)

def execLandShort (f : Short) (s : State) : Out := .next (s.issueShort f {} fun _ s => s.retireAll (slen f) s.cur.threads)

def execBr (h : Hdr) (disp : Word) (s : State) : Out :=
  .next (s.issue h { disps := [disp.toInt] } fun act s =>
    s.eachOwn (hlen h) h.pred act fun t s => s.transfer (hlen h) (dispTarget (s.thr t) disp.toInt) t)

def execJmpi (h : Hdr) (s : State) : Out :=
  .next (s.issue h { a := .reg } fun act s =>
    s.jumpForm h false
      (act.map fun t =>
        let x := ((s.rd t 0 h.lit).r32 h.a).toNat
        { t := t, target := x, bits := s.targetBits t true x, acc := none })
      (fun j s => s.transfer (hlen h) j.target j.t))

def execCall (h : Hdr) (disp : Word) (s : State) : Out :=
  .next (s.issue h { disps := [disp.toInt] } fun act s =>
    s.jumpForm h true
      (act.map fun t => { t := t, target := dispTarget (s.thr t) disp.toInt, bits := 0, acc := some (s.frameAcc t) })
      (fun j s => (s.frame j ((s.thr j.t).pc + hlen h)).transfer (hlen h) j.target j.t))

/-- CALLI: a thread whose target faults is not checked for its frame's stack access. (DESIGN CHOICE, log entry 133) -/
def execCalli (h : Hdr) (s : State) : Out :=
  .next (s.issue h { a := .reg } fun act s =>
    s.jumpForm h true
      (act.map fun t =>
        let x := ((s.rd t 0 h.lit).r32 h.a).toNat
        let bits := s.targetBits t true x
        { t := t, target := x, bits := bits, acc := if bits = 0 then some (s.frameAcc t) else none })
      (fun j s => (s.frame j ((s.thr j.t).pc + hlen h)).transfer (hlen h) j.target j.t))

/-- RET reads 4 bytes at w63; its target is checked once they are known. -/
def execRet (h : Hdr) (s : State) : Out :=
  .next (s.issue h {} fun act s =>
    let (js, s) := s.plans (fun t s =>
      let acc := s.access t 0 (s.thr t).sp 4 false true
      match acc with
      | .ok ls =>
        let (b, s') := s.peek t (s.thr t).sp ls
        let x := bytesToNat b
        ({ t := t, target := x, bits := s.targetBits t false x, acc := some acc }, s')
      | _ => ({ t := t, target := 0, bits := 0, acc := some acc }, s)) act
    s.jumpForm h false js fun j s =>
      let acc := s.access j.t 0 (s.thr j.t).sp 4 false true
      ((s.logAccess j.t 0 (s.thr j.t).sp acc.locs).updThr j.t fun th => th.setSp (th.sp + 16)).transfer (hlen h) j.target j.t)

/-- EXIT ends each active thread. It is a delivery point of deferred faults (R316). The last threads of an update wait while a
reader still selects the version that its held closing writes (R261, R270). (DEDUCED, log entry 30) -/
def execExit (h : Hdr) (s : State) : Out :=
  .next (s.issue h {} fun act s =>
    match s.deliver (hlen h) (s.inactive h.pred) act false (fun _ => true) with
    | some s' => s'
    | none => match act.findSome? (s.endHeld act) with
      | some e => s.holdGroup (.shadow e)
      | none => s.eachOwn (hlen h) h.pred act fun t s =>
          (s.updThr t fun th => { th with icount := th.icount + 1 }).endThread t).settle

/-- TRAP raises USER_TRAP in every active thread. -/
def execTrap (h : Hdr) (code : BitVec 16) (s : State) : Out :=
  .next (s.issue h {} fun act s =>
    if act.isEmpty then s.retireAll (hlen h) s.cur.threads
    else s.stop (hlen h) h.pred act { code := .userTrap, d0 := code.setWidth 32 })

end Sys2Proof.Machine
end

