-- ==== Sys2Proof/Machine/Glob.lean ====
section
/-! DEFINITION. The MEM class (R88 to R95, R251, R255, R256), and LOAD_RETURN. -/

namespace Sys2Proof.Machine

/-! ## Addresses, R89 -/

/-- The effective address. -/
def effAddr (r : Rd) (a : Operand) (off : BitVec 24) : DWord := r.r64 a + off.signExtend 64

/-- The base is w63 (R25). -/
def spBase (a : Operand) : Bool := a == .v 126

/-- Bytes of an access. -/
def tyBytes (ty : Ty) : Nat := ty.bits / 8

/-- What D takes from the bytes of a load (R90). -/
def loadVal (ty : Ty) (x : Nat) : Nat :=
  match ty with
  | .i8 => wrap 32 (signed 8 x)
  | .i16 => wrap 32 (signed 16 x)
  | _ => x

/-- A thread's access by a MEM form. -/
def State.memAcc (s : State) (h : Hdr) (off : BitVec 24) (k : AKind) (t : TRef) : Acc :=
  s.access t k (effAddr (s.rd t 0 h.lit) h.a off) (tyBytes h.ty) (k == 2) (spBase h.a)

/-! ## LD and ST, R90 -/

/-- The load of a thread stands outstanding, with what R255 lets it show. -/
def State.queueLoad (s : State) (h : Hdr) (off : BitVec 24) (t : TRef) : State :=
  let ea := effAddr (s.rd t 0 h.lit) h.a off
  let ls := (s.memAcc h off 0 t).locs
  let s := (s.logAccess t 0 ea ls).tick
  { s with loads := s.loads ++
      [{ thread := t, dst := Operand.vnum h.d, ty := h.ty, level := (s.thr t).level, pieces := pieces ls,
         acq := s.acqAt t ea ls.length, stamp := s.stamp, startSeq := (s.launchOf t).acceptSeq, issueSeq := s.nextSeq }] }

def execLd (h : Hdr) (off : BitVec 24) (s : State) : Out :=
  .next (s.issue h { d := dstK h.ty, a := .addr } fun act s =>
    s.withAccess (hlen h) h.pred act (s.memAcc h off 0) fun s =>
      s.each (hlen h) act fun t s => s.queueLoad h off t)

def execSt (h : Hdr) (off : BitVec 24) (s : State) : Out :=
  .next (s.issue h { a := .addr, b := srcK h.ty } fun act s =>
    s.withAccess (hlen h) h.pred act (s.memAcc h off 1) fun s =>
      s.whenClear (act.map fun t => (t, s.memAcc h off 1 t)) fun s => s.each (hlen h) act fun t s =>
        let r := s.rd t 0 h.lit
        s.stage t (effAddr r h.a off) (s.memAcc h off 1 t).locs (natToBytes (tyBytes h.ty) (r.rw (tyWide h.ty) h.b)))

/-- A value arrives at the level at which its load issued; a bank that has gone takes nothing. -/
def Thread.arrive (th : Thread) (level : Nat) (wide : Bool) (n x : Nat) : Thread :=
  { ({ th with level := level }.setD wide (.v (BitVec.ofNat 7 n)) x) with level := th.level }

/-- The i-th outstanding load reads its pieces and writes its destination (R21, R255). -/
def State.loadReturn (s : State) (i : Nat) : State :=
  match s.loads[i]? with
  | none => s
  | some l =>
    let t := l.thread
    let (bytes, s) := match l.bytes with
      | some b => (b, s)
      | none => s.readPieces (s.stagingFor t.lid t.wg) l.acq (some t)
          { stamp := l.stamp, seq := l.issueSeq, start := l.startSeq } (s.ctxOf t) l.pieces
    { s with loads := s.loads.eraseIdx i }.updThr t fun th =>
      th.arrive l.level (tyWide l.ty) l.dst (loadVal l.ty (bytesToNat bytes))

/-- LOAD_RETURN. -/
def execLoadReturn (i : Nat) (s : State) : Out := .next (s.loadReturn i)

/-! ## Atomics, R92 -/

/-- The new value of an atomic: old, b, c as bit patterns of the type; and the flags. -/
def atomVal (i : Instr) (h : Hdr) (old b c : Nat) : Nat × BitVec 7 :=
  let w := tyW h.ty
  match i with
  | .atomAdd .. =>
    let x := tyVal h.ty old + tyVal h.ty b
    (wrap w (if h.sat then clampTy h.ty x else x), 0)
  | .atomMin .. => (if tyVal h.ty old ≤ tyVal h.ty b then old else b, 0)
  | .atomMax .. => (if tyVal h.ty old ≤ tyVal h.ty b then b else old, 0)
  | .atomAnd .. => (old &&& b, 0)
  | .atomOr .. => (old ||| b, 0)
  | .atomXor .. => (old ^^^ b, 0)
  | .atomExch .. => (b, 0)
  | .atomCas .. => (if old = c then b else old, 0)
  | .atomFadd .. => fmtF32.add h.rnd old b
  | _ => (old, 0)

def ordRel : Ord4 → Bool
  | .rel | .ar => true
  | _ => false

def ordAcq : Ord4 → Bool
  | .acq | .ar => true
  | _ => false

/-- One thread's atomic at its home stack: what is staged of its bytes goes first (R93), it reads the order's latest value
and its write takes the next place. A CAS that fails writes nothing (R272). -/
def State.atomOne (s : State) (i : Instr) (h : Hdr) (x : AtomX) (t : TRef) : State :=
  let r := s.rd t 0 h.lit
  let ea := effAddr r h.a x.off
  let ls := (s.memAcc h x.off 2 t).locs
  let s := (s.carry t.lid t.wg ls).tick
  let old := bytesToNat (s.readNow (s.ctxOf t) ls)
  let v := atomVal i h old (r.rw (tyWide h.ty) h.b) (r.rw (tyWide h.ty) h.c)
  let fails : Bool := match i with
    | .atomCas .. => old != r.rw (tyWide h.ty) h.c
    | _ => false
  let s := if fails then s else s.enterWg t.lid t.wg t s.stamp ea (ls.zip (natToBytes (tyBytes h.ty) v.1)) [] true
  ((s.logAccess t 2 ea ls).setFlags t v.2).tick.updThr t fun th => th.setD (tyWide h.ty) h.d old

/-- The workgroups of the active threads, once each. -/
def wgsOf (act : List TRef) : List (Nat × Nat) := (act.map fun t => (t.lid, t.wg)).eraseDups

/-- A release, or an acquire, of the group's workgroups. -/
def State.relAll (s : State) (act : List TRef) (scope : Scp) : State :=
  (wgsOf act).foldl (fun s g => s.releaseAll g.1 g.2 scope) s

def State.acqAll (s : State) (act : List TRef) (scope : Scp) : State :=
  (wgsOf act).foldl (fun s g => s.acquire g.1 g.2 scope) s

/-- Phase(scope) of the group's workgroups: the release, and then the acquire (R18, R247). -/
def State.phaseAll (s : State) (act : List TRef) (scope : Scp) : State := (s.relAll act scope).acqAll act scope

/-- An ATOM: `.rel` makes Phase(scope) before the atomics, `.acq` after them, `.ar` both, and each Phase is PHASE's release and
acquire (R92, R18). It is a region boundary (R329). (DEDUCED, log entry 118) -/
def State.atom (s : State) (i : Instr) (h : Hdr) (x : AtomX) (c : OpKind) : State :=
  (s.issue h { d := dstK h.ty, a := .addr, b := srcK h.ty, c := c } fun act s =>
    s.withAccess (hlen h) h.pred act (s.memAcc h x.off 2) fun s =>
      s.whenClear (act.map fun t => (t, s.memAcc h x.off 2 t)) fun s => s.ordered act true fun s =>
        let s := if ordRel x.ord && !act.isEmpty then s.phaseAll act x.scp else s
        let s := act.foldl (fun s t => s.atomOne i h x t) s
        let s := if ordAcq x.ord && !act.isEmpty then s.phaseAll act x.scp else s
        (s.retireAll (hlen h) (s.cur.threads.filter fun t => !act.contains t)).retireBoundAll (hlen h) act).settle

def execAtomAdd (h : Hdr) (x : AtomX) (s : State) : Out := .next (s.atom (.atomAdd h x) h x .unused)
def execAtomMin (h : Hdr) (x : AtomX) (s : State) : Out := .next (s.atom (.atomMin h x) h x .unused)
def execAtomMax (h : Hdr) (x : AtomX) (s : State) : Out := .next (s.atom (.atomMax h x) h x .unused)
def execAtomAnd (h : Hdr) (x : AtomX) (s : State) : Out := .next (s.atom (.atomAnd h x) h x .unused)
def execAtomOr (h : Hdr) (x : AtomX) (s : State) : Out := .next (s.atom (.atomOr h x) h x .unused)
def execAtomXor (h : Hdr) (x : AtomX) (s : State) : Out := .next (s.atom (.atomXor h x) h x .unused)
def execAtomExch (h : Hdr) (x : AtomX) (s : State) : Out := .next (s.atom (.atomExch h x) h x .unused)
def execAtomCas (h : Hdr) (x : AtomX) (s : State) : Out := .next (s.atom (.atomCas h x) h x (srcK h.ty))
def execAtomFadd (h : Hdr) (x : AtomX) (s : State) : Out := .next (s.atom (.atomFadd h x) h x .unused)

end Sys2Proof.Machine
end

