-- ==== Sys2Proof/Machine/Eff.lean ====
section
/-! DEFINITION. The EFF class (R116 to R131). -/

namespace Sys2Proof.Machine

/-! ## Records, R116 -/

/-- CHK of a record. -/
def chkOf (gen : BitVec 12) (hsp : BitVec 52) : BitVec 12 := gen ^^^ hsp.extractLsb' 4 12

/-- A record as a number of 256 bits. -/
def HEntry.toNum (e : HEntry) : Nat :=
  e.eid.toNat + b2n e.many * 2 ^ 12 + b2n e.run * 2 ^ 13 + b2n e.act * 2 ^ 14 + e.hpc.toNat * 2 ^ 16 + e.xpc.toNat * 2 ^ 36 +
    e.hsp.toNat * 2 ^ 64 + e.gen.toNat * 2 ^ 116 + e.psp.toNat * 2 ^ 128 + (chkOf e.gen e.hsp).toNat * 2 ^ 180 +
    e.rpc.toNat * 2 ^ 192

def HEntry.bytes (e : HEntry) : List Byte := natToBytes 32 e.toNum

/-- Bits of a number, as a field. -/
def bits (x lo n : Nat) : BitVec n := BitVec.ofNat n (x / 2 ^ lo)

/-- The entry that a record's number says. -/
def HEntry.ofNum (x : Nat) : HEntry :=
  { eid := bits x 0 12, many := x.testBit 12, run := x.testBit 13, act := x.testBit 14, hpc := bits x 16 20
    xpc := bits x 36 20, hsp := bits x 64 52, gen := bits x 116 12, psp := bits x 128 52, rpc := bits x 192 20 }

/-- A record read at an address meets R118: its own address, zero fields, the check word. -/
def recordOk (x : Nat) (va : DWord) : Bool := x == (HEntry.ofNum x).toNum && (HEntry.ofNum x).hsp.toNat == va.toNat

/-! ## Plans -/

/-- What an active thread comes to, before anything takes effect: a wait (for translation, or for its own loads), a fault with its
rank (R122), or an effect. -/
inductive Plan where
  | wait (a : Acc)
  | fault (rank : Nat) (f : Flt)
  | go (eff : State → State)

/-- The ranks of R122. -/
def rkToken : Nat := 1
def rkUnhandled : Nat := 2
def rkCapture : Nat := 3
def rkDead : Nat := 4
def rkAccess : Nat := 5

/-- The current depth: the number of live entries. -/
def Thread.depth (th : Thread) : Nat := th.held.length + th.deep.length

/-- A fault of a token, an effect or a capture (R122). -/
def effFlt (code : FaultCode) (d0 : Word) (th : Thread) (reason : Nat) : Flt :=
  { code := code, d0 := d0, d1 := w32 th.depth, d2 := w32 reason }

/-- How an access of an EFF instruction meets the stack checks of R25: by w63; of stack bytes whose address is not taken from w63,
which must lie in the region too (R122); or with none of them: by another base than w63, or of a record already placed,
which was checked at its own HPUSH. -/
inductive StackUse where
  | sp | bytes | other
  deriving DecidableEq, Repr

/-- By the base of an address operand. -/
def stackUse (a : Operand) : StackUse := if spBase a then .sp else .other

/-- The access with its stack checks, STACK_LIMIT in its place among the faults of R95. -/
def State.stackAccess (s : State) (t : TRef) (k : AKind) (va : DWord) (n : Nat) (u : StackUse) : Acc :=
  let a := s.access t k va n false (u == .sp)
  let early : Bool := match a with
    | .fault r _ => r < 3
    | _ => false
  let r := s.stackRegion t
  if u == .bytes && !early && !(r.1 ≤ va.toNat && va.toNat + n ≤ r.1 + r.2) then .fault 3 (accFlt .stackLimit va n k 0) else a

/-- A checked store: what follows takes its locations. -/
def State.planStore (s : State) (t : TRef) (va : DWord) (n : Nat) (u : StackUse)
    (k : List Nat → State → Plan × State) : Plan × State :=
  match s.stackAccess t 1 va n u with
  | .ok ls => k ls s
  | .fault r f => (.fault (rkAccess + r) f, s)
  | a => (.wait a, s)

/-- Bytes that the thread is to store to must be free of its own outstanding loads (R21). -/
def State.planClear (s : State) (t : TRef) (ls : List Nat) (k : State → Plan × State) : Plan × State :=
  if s.loadBusy t ls then (.wait (.ok ls), s) else k s

/-- What a plan does, with more done first once it takes effect. -/
def Plan.after (p : Plan × State) (f : State → State) : Plan × State :=
  match p with
  | (.go eff, s) => (.go fun s => eff (f s), s)
  | x => x

/-- A checked read: what follows takes its bytes. -/
def State.planPeek (s : State) (t : TRef) (va : DWord) (n : Nat) (u : StackUse)
    (k : List Byte → State → Plan × State) : Plan × State :=
  match s.stackAccess t 0 va n u with
  | .ok ls =>
    let (b, s) := s.peek t va ls
    k b s
  | .fault r f => (.fault (rkAccess + r) f, s)
  | a => (.wait a, s)

/-- A checked load of the thread (R118): it counts as one when the instruction takes effect. -/
def State.planLoad (s : State) (t : TRef) (va : DWord) (n : Nat) (u : StackUse)
    (k : List Byte → State → Plan × State) : Plan × State :=
  s.planPeek t va n u fun b s => Plan.after (k b s) fun x => x.logAccess t 0 va (s.stackAccess t 0 va n u).locs

/-- A record cannot be read (rank r of an access fault): what the others come to is the plan where it is a fault that R122 ranks
before access faults, or a wait for a walk of a page that is mapped. -/
def State.unread (s : State) (t : TRef) (r : Nat) (f : Flt) (p : Plan × State) : Plan × State :=
  match p.1 with
  | .fault r' _ => if r' < rkAccess then p else (.fault (rkAccess + r) f, s)
  | .wait (.miss ps) => if ps.all fun x => match s.walkTable (s.ctxOf t) x with
      | .hit _ => true
      | .fault _ => false
    then p else (.fault (rkAccess + r) f, s)
  | _ => (.fault (rkAccess + r) f, s)

/-- Deeper records, read from the topmost down. One that cannot be read hides no bad record below it (R122), and none of the faults
that what follows finds with its address alone (`look`). Detail word 0 of TOKEN_DEAD with reason 3 or 4, for which R122 gives
none, is 0. (DESIGN CHOICE, log entry 119) -/
def State.planDeep (s : State) (t : TRef) (look : Bool) (k : List HEntry → State → Plan × State) : List DWord → Plan × State
  | [] => k [] s
  | va :: vas =>
    match s.stackAccess t 0 va 32 .other with
    | .fault r f =>
      let k' (es : List HEntry) (s : State) : Plan × State :=
        if look then k ({ hsp := va.setWidth 52 } :: es) s else (.fault (rkAccess + r) f, s)
      s.unread t r f (State.planDeep s t look k' vas)
    | _ => s.planLoad t va 32 .other fun b s =>
      let x := bytesToNat b
      if !recordOk x va then (.fault rkDead (effFlt .tokenDead 0 (s.thr t) 4), s)
      else State.planDeep s t look (fun es s => k (HEntry.ofNum x :: es) s) vas

/-! ## The form -/

def Plan.waits : Plan → Bool
  | .wait _ => true
  | _ => false

/-- Every active thread is examined first; if any faults, the instruction takes effect for none. Otherwise `pre` acts once
for the group, and then the effects in slot order; each effect moves its thread's PC. -/
def State.planForm (s : State) (h : Hdr) (act : List TRef) (all : Bool) (plan : TRef → State → Plan × State)
    (pre : State → State) : State :=
  let (ps, s) := s.plans plan act
  let l := act.zip ps
  match s.stall (l.filterMap fun x => match x.2 with
    | .wait a => some (x.1, a)
    | _ => none) with
  | some s' => s'
  | none =>
    let fs := l.filterMap fun x => match x.2 with
      | .fault r f => some (x.1, r, f)
      | _ => none
    match firstRank fs with
    | some (r, f) => s.stop (hlen h) h.pred ((fs.filter fun x => all || x.2.1 == r).map Prod.fst) f
    | none => if ps.any Plan.waits then s else ps.foldl (fun s p => match p with
        | .go e => e s
        | _ => s) (pre (s.retireAll (hlen h) (s.inactive h.pred)))

/-- An EFF instruction: if any active thread faults, the record masks every faulting thread (R122). -/
def State.effForm (s : State) (h : Hdr) (n : Need) (plan : TRef → State → Plan × State) : State :=
  s.issue h n fun act s => s.planForm h act true plan id

/-! ## The handler stack, R118, R119 -/

/-- E is visible with the entries below it (R119). -/
def visible (e : HEntry) (below : List HEntry) : Bool :=
  !e.run && !(below.any fun t => t.run && !t.act && t.psp.toNat ≤ e.hsp.toNat)

/-- The index from the top of the top-most visible entry with an effect id. (DESIGN CHOICE, log entry 31) -/
def findVisible (eid : BitVec 12) : List HEntry → Option Nat
  | [] => none
  | e :: es => if e.eid == eid && visible e es then some 0 else (findVisible eid es).map (· + 1)

/-- Entries stay on the handler stack after some are popped: the held ones and as many deeper records as fit in 8 are held,
the others are deep. `es` holds every entry known; the rest is deep. -/
def Thread.restack (th : Thread) (es : List HEntry) (rest : List DWord) : Thread :=
  { th with held := es.take 8, deep := (es.drop 8).map (fun e => e.hsp.setWidth 64) ++ rest }

/-- The first entries popped: the ones that stay, with as many deeper records as fill the handler stack read back. `es` are
the entries that stay among those known, `rest` the deeper records not read. -/
def State.planBack (s : State) (t : TRef) (es : List HEntry) (rest : List DWord)
    (k : List HEntry → List DWord → State → Plan × State) : Plan × State :=
  let n := 8 - es.length
  s.planDeep t false (fun more s => k (es ++ more) (rest.drop n) s) (rest.take n)

/-- An entry that lies in memory is written where it changed (R116): the entries from place 8 on. -/
def State.planWrites (s : State) (t : TRef) (k : List (List Nat × HEntry) → State → Plan × State) :
    List HEntry → Plan × State
  | [] => k [] s
  | e :: es =>
    s.planStore t (e.hsp.setWidth 64) 32 .other fun ls s => s.planClear t ls fun s =>
      State.planWrites s t (fun l s => k ((ls, e) :: l) s) es

def State.doWrites (s : State) (t : TRef) (l : List (List Nat × HEntry)) : State :=
  l.foldl (fun s x => s.stage t (x.2.hsp.setWidth 64) x.1 x.2.bytes) s

/-! ## HPUSH and HEND, R123 -/

/-- The entry that HPUSH pushes. -/
def pushEntry (th : Thread) (eid : BitVec 12) (many : Bool) (lit : DWord) : HEntry :=
  { eid := eid, many := many
    hpc := BitVec.ofNat 20 ((th.pc : Int) + (lo32 lit).toInt).toNat
    xpc := BitVec.ofNat 20 ((th.pc : Int) + (hi32 lit).toInt).toNat
    hsp := (th.sp - 32).setWidth 52, gen := th.gen + 1 }

/-- What HPUSH does in one thread: the place of its own record is checked before the place of the entry that it spills.
(DESIGN CHOICE, log entry 121) -/
def State.planHpush (len : Nat) (eid : BitVec 12) (many : Bool) (lit : DWord) (t : TRef) (s : State) : Plan × State :=
  let th := s.thr t
  let e := pushEntry th eid many lit
  let sp := th.sp - 32
  s.planStore t sp 32 .sp fun _ s =>
    s.planWrites t (fun ws s =>
      (.go fun s => (s.doWrites t ws).updThr t fun th =>
        ({ ({ th with gen := e.gen }.setSp sp).restack (e :: th.held) th.deep with
            pc := th.pc + len, icount := th.icount + 1 }), s)) ((e :: th.held).drop 8)

/-- HPUSH: a system effect id at level 0 gives PRIVILEGE (R121). -/
def execHpush (h : Hdr) (eid : BitVec 12) (many : Bool) (s : State) : Out :=
  .next (s.effForm h
    { a := .litOnly, userOnly := true, feat := if many then some 2 else none, priv := eid.toNat < 0x100
      handlers := some (h.lit.getD 0) }
    (State.planHpush (hlen h) eid many (h.lit.getD 0)))

/-- The bytes that a capture or a resume record begins with: v0 to v127 with unallocated registers as zero, then the
predicates (R124). -/
def regBytes (th : Thread) (c : Nat) : List Byte :=
  ((List.range 128).flatMap fun k => natToBytes 4 (if allocated 0 c k then (vget th.v 0 k).toNat else 0)) ++
    [th.p ||| 1]

/-- The registers and predicates that such bytes say. -/
def Thread.setRegs (th : Thread) (b : List Byte) : Thread :=
  { th with v := Vector.ofFn fun (i : Fin 128) => BitVec.ofNat 32 (numAt b (4 * i.val) 4), p := byteAt b 512 ||| 1 }

/-- The address of a place relative to a stack pointer, which may lie on either side. -/
def vaOf (x : Int) : DWord := BitVec.ofInt 64 x

/-- HSP and PSP as numbers. (DEDUCED, log entry 32) -/
def HEntry.seg (e : HEntry) : Int := (e.hsp.toNat : Int) - e.psp.toNat
def HEntry.cap (e : HEntry) : Int := (e.psp.toNat : Int) - 528 - e.seg

/-- CopyEnd, R127: the handler's registers come back from the resume record, and the PC that the record holds is taken as it
stands. (DESIGN CHOICE, log entry 120) -/
def State.planCopyEnd (len : Nat) (e : HEntry) (t : TRef) (s : State) : Plan × State :=
  s.planLoad t (vaOf (e.cap + 520)) 8 .bytes fun b s =>
    s.planLoad t (BitVec.ofNat 64 (bytesToNat b)) 520 .bytes fun r s =>
      let target := numAt r 516 4
      (.go fun s =>
        let pc := (s.thr t).pc
        (s.foldPath t pc len target).updThr t fun th =>
          let v0 := vget th.v 0 0
          let held := match th.held with
            | x :: xs => { x with act := false } :: xs
            | [] => []
          { (th.setRegs r).setV 0 v0 with held := held, pc := target, icount := th.icount + 1 }, s)

/-- HEND reads every deeper record to know whether the top entry is visible, so that a bad record (reason 4) ranks before an entry
that is not visible (reason 3); detail word 0 is 0. (DESIGN CHOICE, log entries 31 and 119) -/
def State.planHend (len : Nat) (t : TRef) (s : State) : Plan × State :=
  let th := s.thr t
  let dead := effFlt .tokenDead 0 th 3
  match th.held with
  | [] => (.fault rkDead dead, s)
  | e :: es =>
    if e.run && e.act then s.planCopyEnd len e t
    else if e.run then (.fault rkDead dead, s)
    else
      s.planDeep t true (fun ds s =>
        if !visible e (es ++ ds) then (.fault rkDead dead, s)
        else (.go fun s => s.updThr t fun th =>
          { (th.restack (es ++ ds) []).setSp (e.hsp.setWidth 64 + 32) with
            pc := th.pc + len, icount := th.icount + 1 }, s)) th.deep

def execHend (h : Hdr) (s : State) : Out :=
  .next (s.effForm h { userOnly := true } (State.planHend (hlen h)))

/-! ## PERFORM, R124 -/

/-- The token of a dispatch (R117). -/
def tokenOf (gen : BitVec 12) (many : Bool) (depth : Nat) : Word :=
  w32 (gen.toNat + b2n many * 2 ^ 12 + depth * 2 ^ 16)

/-- The dispatch to entry i of `es`, once its bytes are known. -/
def State.dispatch (s : State) (t : TRef) (len : Nat) (es : List HEntry) (i : Nat) (sp : Option DWord)
    (ws : List (List Nat × HEntry)) : State :=
  let th := s.thr t
  let gen := th.gen + 1
  let e := es.getD i {}
  let s := s.doWrites t ws
  let s := s.foldPath t th.pc len e.hpc.toNat
  s.updThr t fun th =>
    let th := { th.restack es [] with gen := gen }.setV 8 (tokenOf gen e.many (es.length - i))
    let th := match sp with
      | some x => th.setSp x
      | none => th
    { th with re := th.pc + len, pc := e.hpc.toNat, icount := th.icount + 1 }

/-- What PERFORM does in one thread (R122). Detail word 2 of EFFECT_UNHANDLED, for which no rule gives a reason, is 0 (DESIGN
CHOICE, log entry 119). Of several faulting accesses the record carries the store of the capture before the load
of the segment. (DESIGN CHOICE, log entries 33 and 121) -/
def State.planPerform (len : Nat) (eid : BitVec 12) (t : TRef) (s : State) : Plan × State :=
  let th := s.thr t
  let P := th.sp
  s.planDeep t false (fun ds s =>
    let es := th.held ++ ds
    match findVisible eid es with
    | none => (.fault rkUnhandled (effFlt .effectUnhandled (eid.setWidth 32) th 0), s)
    | some i =>
      let e := es.getD i {}
      let seg : Int := (e.hsp.toNat : Int) - P.toNat
      let e' := { e with run := true, gen := th.gen + 1, psp := P.setWidth 52, rpc := BitVec.ofNat 20 (th.pc + len) }
      let es' := es.set i e'
      let deepWrites := if i < 8 then [] else [e']
      if !e.many then
        if P.toNat % 16 ≠ 0 then (.fault (rkAccess + 2) (accFlt .misaligned P 0 1 0), s)
        else s.planWrites t (fun ws s => (.go fun s => s.dispatch t len es' i none ws, s)) deepWrites
      else if i ≠ 0 then (.fault rkCapture (effFlt .captureLimit (BitVec.ofInt 32 seg) th 2), s)
      else if 4096 < seg then (.fault rkCapture (effFlt .captureLimit (BitVec.ofInt 32 seg) th 1), s)
      else
        let cap := vaOf ((P.toNat : Int) - 528 - seg)
        let n := 528 + seg.toNat
        s.planStore t cap n .sp fun ls s => s.planClear t ls fun s =>
          s.planLoad t P seg.toNat .sp fun sb s =>
            (.go fun s =>
              let b := regBytes (s.thr t) (s.wave t).c ++ List.replicate 15 0 ++ sb
              (s.stage t cap ls b).dispatch t len es' i (some cap) [], s)) th.deep

/-- The record of an unhandled effect resumes after its PERFORM (R341). -/
def State.resumeAfter (s : State) (len : Nat) (ts : List TRef) : State :=
  ts.foldl (fun s t => s.updThr t fun th =>
    { th with trap := th.trap.map fun r => if r.code == .effectUnhandled then { r with rpc := r.fpc + len } else r }) s

/-- PERFORM: v8 must be allocated and the count at least 10 (R121). -/
def execPerform (h : Hdr) (eid : BitVec 12) (s : State) : Out :=
  .next ((s.effForm h { userOnly := true, count := 10 } (State.planPerform (hlen h) eid)).resumeAfter (hlen h) s.cur.threads)

/-! ## RESUME and ABORT, R125 to R128 -/

/-- The token checks of R125 on the entry that the token names, and what stops the instruction by that entry and its index from the
top alone (`chk`); then the records above it that lie in memory are read and checked, though they are to be popped. What follows
takes the entries from the top down to the named one and the rest of the held ones, the deeper records not read, and the named
entry's index from the top. (DESIGN CHOICE, log entry 31) -/
def State.planToken (s : State) (t : TRef) (k : Word) (chk : Nat → HEntry → Option (Nat × Flt))
    (go : List HEntry → List DWord → Nat → HEntry → State → Plan × State) : Plan × State :=
  let th := s.thr t
  let d := k.toNat / 2 ^ 16
  let bad (code : FaultCode) (reason : Nat) (s : State) : Plan × State := (.fault rkToken (effFlt code k th reason), s)
  if k.toNat / 2 ^ 13 % 8 ≠ 0 || d == 0 || th.depth < d then bad .tokenDead 1 s
  else
    let i := th.depth - d
    let named (e : HEntry) (next : State → Plan × State) (s : State) : Plan × State :=
      if e.gen.toNat ≠ k.toNat % 2 ^ 12 || e.many != k.getLsbD 12 then bad .tokenDead 2 s
      else if !e.run then bad .tokenReuse 1 s
      else if e.act then bad .tokenReuse 2 s
      else match chk i e with
        | some (r, f) => (.fault r f, s)
        | none => next s
    match th.held[i]? with
    | some e => named e (go th.held th.deep i e) s
    | none =>
      let j := i - th.held.length
      s.planDeep t false (fun l s => match l with
        | [e] => named e (fun s => s.planDeep t true (fun ds s => go (th.held ++ ds ++ [e]) (th.deep.drop (j + 1)) i e s)
            (th.deep.take j)) s
        | _ => bad .tokenDead 1 s) ((th.deep.drop j).take 1)

/-- The thread goes to a code offset by a boundary. -/
def State.effJump (s : State) (t : TRef) (len target : Nat) (f : Thread → Thread) : State :=
  let pc := (s.thr t).pc
  (s.foldPath t pc len target).updThr t fun th =>
    { f th with re := pc + len, pc := target, icount := th.icount + 1 }

/-- RESUME of a ONCE token, R126. -/
def State.planOnce (s : State) (t : TRef) (len : Nat) (v : Word) (es : List HEntry) (rest : List DWord) (i : Nat)
    (e : HEntry) : Plan × State :=
  let up := (es.take i).filter fun x => e.psp.toNat ≤ x.hsp.toNat
  let es' := up ++ { e with run := false } :: es.drop (i + 1)
  s.planBack t es' rest fun all more s =>
    s.planWrites t (fun ws s =>
      (.go fun s => (s.doWrites t ws).effJump t len e.rpc.toNat fun th =>
        ((th.restack all more).setSp (e.psp.setWidth 64)).setV 0 v, s))
      (if up.length < 8 then [] else [{ e with run := false }])

/-- Bytes read at an address, with what has been written since to other addresses. -/
def overlayVa (base : DWord) (img : List Byte) (at_ : DWord) (new : List Byte) : List Byte :=
  img.zipIdx.map fun x =>
    let d := (base + BitVec.ofNat 64 x.2 - at_).toNat
    if d < new.length then byteAt new d else x.1

/-- RESUME of a MANY token, R127: what it stores, in the order of the rule, shows in what it reads of the capture after that. Of
several faulting accesses the record carries the stores below w63 first, then the one at cap + 520, then the load of the
capture. (DESIGN CHOICE, log entry 121) -/
def State.planMany (s : State) (t : TRef) (len : Nat) (v : Word) (e : HEntry) : Plan × State :=
  let th := s.thr t
  let seg := e.seg
  let cap := e.cap
  let n := seg.toNat
  let RR : Int := (th.sp.toNat : Int) - 528
  let low := vaOf (RR - seg)
  s.planStore t (vaOf (RR - n)) (528 + n) .sp fun ls s => s.planClear t ls fun s =>
    s.planStore t (vaOf (cap + 520)) 8 .bytes fun lr s => s.planClear t lr fun s =>
      s.planLoad t (vaOf cap) (528 + n) .bytes fun img s =>
        (.go fun s =>
          let th := s.thr t
          let rec_ := regBytes th (s.wave t).c ++ List.replicate 3 0 ++ natToBytes 4 (th.pc + len) ++ List.replicate 8 0
          let img := overlayVa (vaOf cap) img (vaOf RR) rec_
          let img := overlayVa (vaOf cap) img (vaOf (cap + 520)) (natToBytes 8 (vaOf RR).toNat)
          let seg := img.drop 528
          let img := overlayVa (vaOf cap) img (vaOf (RR - n)) seg
          let s := s.stage t (vaOf RR) (ls.drop n) rec_
          let s := s.stage t (vaOf (cap + 520)) lr (natToBytes 8 (vaOf RR).toNat)
          let s := if n = 0 then s else s.stage t (vaOf (RR - n)) (ls.take n) seg
          s.effJump t len e.rpc.toNat fun th =>
            let th := ((th.setRegs img).setV 0 v).setSp low
            { th with held := match th.held with
                | x :: xs => { x with act := true } :: xs
                | [] => [] }, s)

/-- A MANY token of an entry that is not the top one: CAPTURE_LIMIT, reason 3 (R127). -/
def manyAbove (th : Thread) (i : Nat) (e : HEntry) : Option (Nat × Flt) :=
  if e.many && i ≠ 0 then some (rkCapture, effFlt .captureLimit (BitVec.ofInt 32 e.seg) th 3) else none

def State.planResume (h : Hdr) (t : TRef) (s : State) : Plan × State :=
  let r := s.rd t 0 h.lit
  s.planToken t (r.r32 h.a) (manyAbove (s.thr t)) fun es rest i e s =>
    if e.many then s.planMany t (hlen h) (r.r32 h.b) e else s.planOnce t (hlen h) (r.r32 h.b) es rest i e

def execResume (h : Hdr) (s : State) : Out :=
  .next (s.effForm h { userOnly := true, a := .reg, b := .src } (State.planResume h))

/-- ABORT pops the entry and every entry above it (R128). -/
def State.planAbort (h : Hdr) (t : TRef) (s : State) : Plan × State :=
  let r := s.rd t 0 h.lit
  s.planToken t (r.r32 h.a) (fun _ _ => none) fun es rest i e s =>
    s.planBack t (es.drop (i + 1)) rest fun all more s =>
      (.go fun s => s.effJump t (hlen h) e.xpc.toNat fun th =>
        ((th.restack all more).setSp (e.hsp.setWidth 64 + 32)).setV 0 (r.r32 h.b), s)

def execAbort (h : Hdr) (s : State) : Out :=
  .next (s.effForm h { userOnly := true, a := .reg, b := .src } (State.planAbort h))

end Sys2Proof.Machine
end

