-- ==== Sys2Proof/Machine/Tsk.lean ====
section
/-! DEFINITION. The TSK class (R182 to R188), and RCLAIM_GRANT. -/

namespace Sys2Proof.Machine

/-! ## Retirement of a boundary form -/

/-- Threads whose guard is false retire; the active ones retire past a region boundary (R328). -/
def State.retireForm (s : State) (h : Hdr) (act : List TRef) : State :=
  (s.retireAll (hlen h) (s.cur.threads.filter fun t => !act.contains t)).retireBoundAll (hlen h) act

/-! ## SPAWN, R183, R184, R269 -/

/-- Status TASK_LIMIT: no further unit is placed, and every unit that runs ends as KILL ends it.
(DEDUCED, log entry 46) -/
def State.taskLimit (s : State) (lid : Nat) : State :=
  let s := (s.dropPending lid).updLaunch lid fun l =>
    { l with limited := true, status := if l.status = .ok then .taskLimit else l.status }
  ((s.insts.filter fun x => x.1.1 == lid).map fun x => x.1.2).foldl (fun s i => s.killWhole lid i) s

/-- Children of a task take the next task indices, in order; a launch that has come to TASK_LIMIT or JOURNAL_FULL makes no more. -/
def State.makeTasks (s : State) (lid n : Nat) (mk : Nat → Pending) : State :=
  let l := s.launch lid
  if l.limited || l.journalFull then s
  else if 0xFFFFFFFE < l.nextTask + n - 1 && n ≠ 0 then s.taskLimit lid
  else s.updLaunch lid fun l =>
    { l with
      pending := l.pending ++ (List.range n).map fun j => { mk j with idx := l.nextTask + j }
      nextTask := l.nextTask + n }

/-- The child number j of a SPAWN (R183). -/
def childOf (depth entry : Nat) (arg : Word) (node : Option (Nat × Word)) (j : Nat) : Pending :=
  { idx := 0, entry := entry, depth := depth + 1, v0 := arg, v1 := w32 j, node := node }

/-- A node's predecessor count rises (R184). -/
def State.raiseNode (s : State) (die ctx : Nat) (id : Word) (n : Nat) : State :=
  s.updDie die fun d => { d with nodes := tupd d.nodes (ctx, id.toNat % 2 ^ 16) fun x => { x with count := x.count + n } }

/-- NODE_INVALID (R297). -/
def nodeFlt (id : Word) (reason : Nat) : Flt := { code := .nodeInvalid, d0 := id, d2 := w32 reason }

/-- The first check of SPAWN that a thread fails. (DESIGN CHOICE, log entry 48) -/
def State.spawnFault (s : State) (h : Hdr) (node : Bool) (t : TRef) : Option (Nat × Flt) :=
  let g := s.wgOf t
  let r := s.rd t 0 h.lit
  let n := (r.r32 h.a).toNat
  if (s.launchOf t).kind != .task then some (0, { code := .illegalInstruction, d0 := 9, d1 := s.curW0, d2 := s.curW1 })
  else if 65536 < n then some (1, s.operandFlt 1 h.a)
  else if 0 < n && g.depth == 8 then some (2, { code := .spawnDepth })
  else if node && ((s.die g.die).node? (s.ctxOf t) (r.r32 h.c)).isNone then some (3, nodeFlt (r.r32 h.c) 1)
  else none

/-- One thread's children: made now, or at the close of the turn under deterministic operation. -/
def State.spawnOne (s : State) (h : Hdr) (dw : BitVec 20) (node : Bool) (t : TRef) : State :=
  let g := s.wgOf t
  let r := s.rd t 0 h.lit
  let n := (r.r32 h.a).toNat
  let nd := if node then some (g.die, r.r32 h.c) else none
  let s := if node then s.raiseNode g.die (s.ctxOf t) (r.r32 h.c) n else s
  let entry := dispTarget (s.thr t) (4 * dw.toInt)
  if (s.launchOf t).det = 0 then s.makeTasks t.lid n (childOf g.depth entry (r.r32 h.b) nd)
  else s.updWg t.lid t.wg fun g => { g with spawns := g.spawns ++
    [{ icount := (s.thr t).icount, tid := s.tid t, n := n, entry := entry, arg := r.r32 h.b, node := nd.map Prod.snd }] }

def execSpawn (h : Hdr) (dw : BitVec 20) (node : Bool) (s : State) : Out :=
  .next (s.issue h { a := .src, b := .src, c := if node then .src else .unused, disps := [4 * dw.toInt] } fun act s =>
    s.guardFaults (hlen h) h.pred act false (s.spawnFault h node) fun s =>
      s.ordered act false fun s =>
        let s := if act.isEmpty then s else s.relAll act .module
        (act.foldl (fun s t => s.spawnOne h dw node t) s).retireForm h act).settle

/-! ## FETCH, R181, R185 -/

/-- The next tile of a workgroup, if one is left. -/
def Launch.nextTile (l : Launch) (wg : Nat) : Option Nat :=
  let t := if l.mode = 0 then l.tileNext else wg + l.count * (tget l.tileOf wg).getD 0
  if l.kind == .grid && t < l.dx * l.dy * l.dz then some t else none

/-- The tile has been handed out. -/
def Launch.takeTile (l : Launch) (wg : Nat) : Launch :=
  if l.mode = 0 then { l with tileNext := l.tileNext + 1 }
  else { l with tileOf := tset l.tileOf wg ((tget l.tileOf wg).getD 0 + 1) }

/-- x + y·2^16 + z·2^32 of tile t. -/
def Launch.tileWord (l : Launch) (t : Nat) : Nat :=
  t % l.dx + t / l.dx % l.dy * 2 ^ 16 + t / (l.dx * l.dy) * 2 ^ 32

def State.fetchOne (s : State) (d : Operand) (pd : BitVec 3) (t : TRef) : State :=
  let l := s.launchOf t
  match l.nextTile t.wg with
  | some x => (s.updLaunch t.lid fun l => l.takeTile t.wg).updThr t fun th => (th.setD true d (l.tileWord x)).setP pd.toNat true
  | none => s.updThr t fun th => th.setP pd.toNat false

def execFetch (h : Hdr) (pd : BitVec 3) (s : State) : Out :=
  .next (s.issue h { d := .dstW } fun act s =>
    (act.foldl (fun s t => s.fetchOne h.d pd t) s).retireForm h act)

/-! ## LAUNCH, R186 -/

/-- The header names a LAUNCH of an allowed length. -/
def launchHdrOk (w : Nat) : Bool := w % 2 ^ 8 == 1 && 1 ≤ w / 2 ^ 8 % 2 ^ 16 && w / 2 ^ 8 % 2 ^ 16 ≤ 1024

/-- A launch that ends with a status before it begins. -/
def State.failLaunch (s : State) (ctx : Nat) (queue : Option (Nat × Nat)) (record : Option DWord) (st : Status) : State :=
  let l : Launch := { ctx := ctx, status := st, ended := true, queue := queue, record := record, accepted := s.nextLid }
  { s with launches := tset s.launches s.nextLid l, nextLid := s.nextLid + 1 }

/-- RECORD of a packet that fails, where its fields can be told apart. -/
def packetRecord (ws : List Word) : Option DWord :=
  (parseFields ws.length ws.tail).bind fun fs => (fs.find? fun f => f.id = 26 ∧ f.body.length = 2).map fun f => pair64 f.body 0

/-- The packet is submitted; D is the new %launch. -/
def State.submit (s : State) (h : Hdr) (ws : List Word) (t : TRef) : State :=
  let lid := s.nextLid
  let ctx := s.ctxOf t
  let s := if !launchHdrOk (ws.headD 0).toNat then s.failLaunch ctx none none .badPacket
    else match parsePacket ws with
      | .error st => s.failLaunch ctx none (packetRecord ws) st
      | .ok fs => s.accept ctx false none fs (some (s.wgOf t).die) (s.effLevel t.lid)
  (s.updThr t fun th => th.setD true h.d lid).retireBound (hlen h) t

/-- The loads of a packet: its header, then its words. -/
def State.planLaunch (h : Hdr) (t : TRef) (s : State) : Plan × State :=
  let a := (s.rd t 0 h.lit).r64 h.a
  if a.toNat < 2 ^ 52 && a.toNat % 4 ≠ 0 then (.fault (rkAccess + 2) (accFlt .misaligned a 4 0 0), s)
  else
    s.planPeek t a 4 (stackUse h.a) fun b s =>
      let w := bytesToNat b
      if launchHdrOk w then
        s.planLoad t a (4 * (w / 2 ^ 8 % 2 ^ 16)) (stackUse h.a) fun p s =>
          (.go fun s => s.submit h (bytesToWords p) t, s)
      else (.go fun s => s.submit h (bytesToWords b) t, s)

/-- LAUNCH; it waits while the identity page's GEN is odd (R380), and for its unit's turn (R265). -/
def execLaunch (h : Hdr) (s : State) : Out :=
  .next (if s.idGen.getLsbD 0 then s
    else (s.issue h { d := .dstW, a := .regW } fun act s => s.atTurn act fun s =>
      s.planForm h act false (State.planLaunch h) fun s => if act.isEmpty then s else s.relAll act .module).settle)

/-! ## RGIVE and RCLAIM, R187 -/

/-- Lines that a change of the count by n needs. -/
def State.linesFor (s : State) (t : TRef) (n : Nat) : Nat := n * (s.launchOf t).hdr.width / 16

def State.giveLines (s : State) (k : Nat) (t : TRef) : State :=
  let c := (s.wave t).c
  if k < c then
    (s.updWg t.lid t.wg fun g => { g with pool := g.pool + s.linesFor t (c - k) }).updWave t fun w => { w with c := k }
  else s

def execRgive (h : Hdr) (cnt : BitVec 8) (s : State) : Out :=
  .next (s.issue h {} fun act s =>
    (act.foldl (fun s t => s.giveLines (min cnt.toNat 126) t) s).retireForm h act)

/-- The lines are taken: the new registers are zero in every thread of the wave. -/
def State.takeLines (s : State) (k : Nat) (t : TRef) : State :=
  let c := (s.wave t).c
  let s := s.updWg t.lid t.wg fun g => { g with pool := g.pool - s.linesFor t (k - c) }
  let s := (s.waveThreads t).foldl (fun s u => s.updThr u fun th =>
    { th with v := (List.range (k - c)).foldl (fun v i => vset v (c + i) 0) th.v }) s
  s.updWave t fun w => { w with c := k }

/-- The pool holds the lines that a claim needs. (DEDUCED, log entry 47) -/
def State.canClaim (s : State) (k : Nat) (t : TRef) : Bool := s.linesFor t (k - (s.wave t).c) ≤ (s.wgOf t).pool

/-- A claim takes its lines at once, or begins to wait behind the claims that wait already. -/
def State.claimOne (s : State) (len k : Nat) (t : TRef) : State :=
  if k ≤ (s.wave t).c then s.retireBound len t
  else if (s.wgOf t).claims.isEmpty && s.canClaim k t then (s.takeLines k t).retireBound len t
  else (s.park (.rclaim k) len true t).updWg t.lid t.wg fun g => { g with claims := g.claims ++ [t] }

def execRclaim (h : Hdr) (cnt : BitVec 8) (s : State) : Out :=
  .next (s.issue h {} fun act s =>
    act.foldl (fun s t => s.claimOne (hlen h) (min cnt.toNat 126) t) (s.retireAll (hlen h) (s.inactive h.pred)))

def Wait.claim : Wait → Option Nat
  | .rclaim k => some k
  | _ => Option.none

/-- The claim that waits longest belongs to a wave and can be met. -/
def State.claimDue (s : State) (lid wg wave : Nat) : Option (TRef × Nat) :=
  match (s.wg lid wg).claims with
  | [] => none
  | t :: _ =>
    match (s.thr t).wait.claim with
    | some k => if s.runs lid wg ∧ t.wave = wave ∧ s.canClaim k t then some (t, k) else none
    | none => none

/-- RCLAIM_GRANT: the oldest claim takes its lines, and every waiting thread of the wave that asked for no more goes on. -/
def execRclaimGrant (lid wg wave : Nat) (s : State) : Out :=
  .next (match s.claimDue lid wg wave with
    | none => s
    | some (t, k) =>
      let s := if k ≤ (s.wave t).c then s else s.takeLines k t
      let met (u : TRef) : Bool := u.wave == wave && match (s.thr u).wait.claim with
        | some j => j ≤ (s.wave t).c
        | none => true
      let us := (s.wg lid wg).claims.filter met
      us.foldl State.finish (s.updWg lid wg fun g => { g with claims := g.claims.filter fun u => !us.contains u }))

end Sys2Proof.Machine
end

