-- ==== Sys2Proof/Machine/Std.lean ====
section
/-! DEFINITION. The STD class (R202 to R205). -/

namespace Sys2Proof.Machine

/-- BRICK_INVALID (R203). (DESIGN CHOICE, log entry 45) -/
def brickFlt (d0 : Word) (reason : Nat) : Flt := { code := .brickInvalid, d0 := d0, d2 := w32 reason }

/-- The program in a slot of a context that runs on a die. -/
def State.progInSlot (s : State) (ctx die slot : Nat) : Option Nat :=
  (s.launches.find? fun l => l.2.ctx == ctx && match l.2.prog with
    | some p => p.slot == slot && p.state != 2 && p.dies.any fun d => d.die == die
    | none => false).map Prod.fst

/-- The launch of the program that a form names for a thread: its own, or the one in slot C. -/
def State.progNamed (s : State) (h : Hdr) (own : Bool) (t : TRef) : Option Nat :=
  if own then (if (s.prog t.lid).isSome then some t.lid else none)
  else s.progInSlot (s.ctxOf t) (s.wgOf t).die ((s.rd t 0 h.lit).r32 h.c).toNat

/-- The checks of R203 on one thread; `extra` are the checks of one form, on the program. -/
def State.stdFault (s : State) (h : Hdr) (own : Bool) (extra : Prog → TRef → Option Flt) (t : TRef) : Option (Nat × Flt) :=
  if own && (s.wgOf t).brick.isNone then some (0, brickFlt 0 5)
  else match (s.progNamed h own t).bind s.prog with
    | none => some (0, brickFlt (if own then w32 ((s.wgOf t).brick.getD 0) else (s.rd t 0 h.lit).r32 h.c) 2)
    | some p =>
      if !p.pairs h.ty then some (0, brickFlt (w32 (h.ty.code)) 4) else (extra p t).map fun f => (0, f)

/-- A contribution of an update is sent, or held until the update's end under deterministic operation (R270). -/
def State.contribute (s : State) (t : TRef) (c : Contrib) : State :=
  if (s.launchOf t).det ≠ 0 && (s.wgOf t).brick.isSome then s.updWg t.lid t.wg fun g => { g with held := g.held ++ [c] }
  else if c.kind == .done then (s.applyContrib c).findQuiet c.prog
  else s.send (s.wgOf t).die c

/-- A closing that is held until its update's end is released there too, with the residual slot, so that a PUBLISH falls wholly
before or wholly after both (R201, R270). (DEDUCED, log entry 138) -/
def State.lateRelease (s : State) (t : TRef) : Bool := (s.launchOf t).det ≠ 0 && (s.wgOf t).brick.isSome

/-- A form of R203: checks on every active thread, a wait for a retired version (`hold`), of a form that names another program the
wait for its unit's turn (R265), the release, but for the threads whose release comes with their update's end (`late`), the
contributions in slot order. (DEDUCED, log entry 143) -/
def State.stdForm (s : State) (h : Hdr) (n : Need) (own : Bool) (extra : List TRef → State → Prog → TRef → Option Flt)
    (hold : State → TRef → Option Nat) (late : State → TRef → Bool) (eff : TRef → Nat → Prog → State → State) : State :=
  (s.issue h { n with feat := some 9 } fun act s =>
    s.guardFaults (hlen h) h.pred act true (s.stdFault h own (extra act s)) fun s =>
      match act.findSome? (hold s) with
      | some e => s.holdGroup (.shadow e)
      | none => s.atTurn (if own then [] else act) fun s =>
          let now := act.filter fun t => !late s t
          let s := if now.isEmpty then s else s.relAll now .module
          let s := act.foldl (fun s t => match s.progNamed h own t with
            | some lid => match s.prog lid with
              | some p => eff t lid p s
              | none => s
            | none => s) s
          s.retireForm h act).settle

def execResid (h : Hdr) (self : Bool) (s : State) : Out :=
  .next (s.stdForm h { a := .src, b := .src, c := if self then .unused else .src } self
    (fun _ s p t =>
      let id := (s.rd t 0 h.lit).r32 h.a
      if (p.brick? id.toNat).isNone then some (brickFlt id 1) else none)
    (fun _ _ => none) (fun _ _ => false) fun t lid p s =>
      let r := s.rd t 0 h.lit
      let m := p.mag h.ty (r.r32 h.b)
      (s.contribute t { prog := lid, brick := (r.r32 h.a).toNat, m := m.1 }).setFlags t m.2)

/-- The mortar list of a brick. -/
def Prog.mortarList (p : Prog) (id : Nat) : List Word :=
  match p.dies[brickDie id]?, p.brick? id with
  | some d, some b => d.mortarOf b
  | _, _ => []

def execResidm (h : Hdr) (s : State) : Out :=
  .next (s.stdForm h { b := .src } true (fun _ _ _ _ => none) (fun _ _ => none) (fun _ _ => false) fun t lid p s =>
    let m := p.mag h.ty ((s.rd t 0 h.lit).r32 h.b)
    let ids := p.mortarList ((s.wgOf t).brick.getD 0)
    (ids.foldl (fun s id => s.contribute t { prog := lid, brick := id.toNat, m := m.1 }) s).setFlags t m.2)

/-- The active threads of a thread's workgroup before it in slot order. -/
def before (act : List TRef) (t : TRef) : List TRef :=
  (act.takeWhile fun u => u != t).filter fun u => u.lid == t.lid && u.wg == t.wg

def execBrkdone (h : Hdr) (s : State) : Out :=
  .next (s.stdForm h { a := .src } true
    (fun act s p t =>
      let g := s.wgOf t
      let id := g.brick.getD 0
      let flying := match p.brick? id with
        | some b => b.st == 2
        | none => false
      if !flying || g.brkDone || !(before act t).isEmpty then some (brickFlt (w32 id) 3) else none)
    (fun s t => if s.lateRelease t then none else s.slotHeld none t.lid ((s.wgOf t).brick.getD 0)) State.lateRelease fun t lid p s =>
      let y := p.mag h.ty ((s.rd t 0 h.lit).r32 h.a)
      let id := (s.wgOf t).brick.getD 0
      ((s.contribute t { prog := lid, brick := id, m := y.1, kind := .done }).updWg t.lid t.wg fun g =>
        { g with brkDone := true }).setFlags t y.2)

/-! ## LDIT, R204 -/

/-- VOFF of R200. -/
def voff (nb : Nat) : Nat := (64 + 4 * nb + 63) / 64 * 64

/-- The iterate entry that an id names for a context on a die: the publish entry and the die's part of its program. -/
def State.iterEntry (s : State) (ctx die : Nat) (id : Word) : Option (Nat × PubEnt × Prog × ProgDie) := do
  let (i, e) ← (s.die die).entry ctx id
  let (p, d) ← s.launches.findSome? fun l =>
    if l.2.ctx != ctx then none
    else l.2.prog.bind fun p => (p.dies.find? fun d => d.die == die && d.iter == some id && p.state != 2).map fun d => (p, d)
  some (i, e, p, d)

def State.planLdit (h : Hdr) (t : TRef) (s : State) : Plan × State :=
  let r := s.rd t 0 h.lit
  let g := s.wgOf t
  let id := r.r32 h.a
  let b := (r.r32 h.b).toNat
  match s.iterEntry (s.ctxOf t) g.die id with
  | none => (.fault 0 (brickFlt id 6), s)
  | some (_, e, p, d) =>
    let nb := d.bricks.length
    if nb * p.epb ≤ b then (.fault 0 (brickFlt id 6), s)
    else
      let v := e.pub.toNat
      s.planLoad t (BitVec.ofNat 64 v) 16 .other fun hd s =>
        s.planLoad t (BitVec.ofNat 64 (v + 64 + 4 * (b / p.epb))) 4 .other fun rs s =>
          s.planLoad t (BitVec.ofNat 64 (v + voff nb + 4 * b)) 4 .other fun x s =>
            (.go fun s => (s.updThr t fun th =>
              let n := Operand.vnum h.d
              let th := (th.setV n (w32 (bytesToNat x))).setV (n + 1) (w32 (bytesToNat rs))
              let th := (th.setV (n + 2) (w32 (numAt hd 4 4))).setV (n + 3) (w32 (numAt hd 0 4))
              th.setW (n + 4) (BitVec.ofNat 64 (numAt hd 8 8))).retire (hlen h) t, s)

def execLdit (h : Hdr) (s : State) : Out :=
  .next (s.issue h { d := .dstN 6, a := .src, b := .src, feat := some 9 } fun act s =>
    s.planForm h act false (State.planLdit h) id)

/-! ## BRKINFO, R205 -/

/-- The field of the issuing update's brick. -/
def State.brkField (s : State) (t : TRef) (fld : Fld) : Nat :=
  let g := s.wgOf t
  let id := g.brick.getD 0
  match s.prog t.lid with
  | none => 0
  | some p =>
    let b := (p.brick? id).getD {}
    match p.dies[brickDie id]? with
    | none => 0
    | some d =>
      match fld with
      | .id => id
      | .dres => b.dRes.toNat
      | .data => b.data.toNat
      | .mortar => 4 * b.moff + d.mortarBuf * 2 ^ 32
      | .mcnt => b.mcnt
      | .iter => match d.iter.bind fun e => (s.die d.die).entry (s.ctxOf t) e with
        | some (_, e) => e.ver (!e.cur) + voff d.bricks.length + 4 * p.epb * brickIdx id
        | none => 0

def execBrkinfo (h : Hdr) (fld : Fld) (s : State) : Out :=
  .next (s.issue h { d := .dstW, feat := some 9 } fun act s =>
    s.guardFaults (hlen h) h.pred act false
      (fun t => if (s.wgOf t).brick.isNone then some (0, brickFlt 0 5) else none) fun s =>
        s.each (hlen h) act fun t s => s.updThr t fun th => th.setD true h.d (s.brkField t fld))

end Sys2Proof.Machine
end

