-- ==== Sys2Proof/Machine/Spd.lean ====
section
/-! DEFINITION. The SPD class (R207, R208, R214, R229 to R233), and TMOV_DONE. -/

namespace Sys2Proof.Machine

/-! ## Scratch pointers, R207 -/

def ptrOff (p : DWord) : Nat := p.toNat % 2 ^ 32
def ptrBuf (p : DWord) : Nat := p.toNat / 2 ^ 32 % 2 ^ 14
def ptrPeer (p : DWord) : Nat := p.toNat / 2 ^ 46 % 2 ^ 4
def ptrMbz (p : DWord) : Nat := p.toNat / 2 ^ 50

/-- Detail words 0 and 1 of R208, and detail word 2. -/
def scFlt (code : FaultCode) (p : DWord) (off d2 : Nat) : Flt :=
  { code := code, d0 := w32 off, d1 := w32 (p.toNat / 2 ^ 32 % 2 ^ 18), d2 := w32 d2 }

/-- State codes of R213. -/
def bufCode : BufState → Nat
  | .free => 0 | .held => 1 | .given => 2 | .shared => 3

/-- The buffer of a context on a die that an id names. -/
def State.bufNamed (s : State) (die ctx id : Nat) : Option Buffer :=
  match tget (s.die die).bufs id with
  | some b => if b.ctx = ctx then some b else none
  | none => none

/-! ## Admission, R212, R214 -/

/-- The holder covers a workgroup: it is that workgroup, or the logical core that it stands on, for the holding launch; or,
for a stream of the core's matrix engine (`eng`), that engine (R315). -/
def Buffer.heldBy (b : Buffer) (lid wg site : Nat) (eng : Bool) : Bool :=
  match b.hold with
  | .matrix i => eng && i == site
  | .wg l g => l == lid && g == wg
  | .core i => i == site && b.shLid == lid
  | .queueUnit => b.lid == some lid
  | _ => false

/-- An access by a workgroup on a core is admitted. -/
def Buffer.admits (b : Buffer) (lid wg site : Nat) (write eng : Bool) : Bool :=
  match b.st with
  | .held => b.heldBy lid wg site eng
  | .shared => !write && (b.heldBy lid wg site eng || (b.hold != .queueUnit && b.shLid == lid && b.shClu == site / 4))
  | _ => false

/-- The instance of a core buffer that a thread reaches on a core: its own workgroup's there, else the first that admits the
read, else the first, of the context's workgroups on the core. (DEDUCED, log entry 36) -/
def State.coreInstance (s : State) (t : TRef) (die site id : Nat) : Option (Nat × Nat × Buffer) :=
  let g := s.wgOf t
  let all := s.wgs.filterMap fun x =>
    if x.2.die = die ∧ x.2.site = site ∧ x.2.st = .running ∧ (s.launch x.1.1).ctx = s.ctxOf t then
      (tget x.2.coreBufs id).map fun b => (x.1.1, x.1.2, b)
    else none
  match all.find? fun x => x.1 == t.lid && x.2.1 == t.wg with
  | some x => some x
  | none => ((all.find? fun x => x.2.2.admits t.lid t.wg g.site false false).or all.head?)

/-! ## The checks of R208 -/

/-- A range of n bytes from `off` under a pointer, at a level: where it lies, or the fault. A stream's offset may be negative. -/
def State.scratch (s : State) (t : TRef) (lv : Lvl) (write eng : Bool) (p : DWord) (ofs : Int) (n : Nat) :
    Except Flt (Place × Nat) :=
  let off := wrap 32 ofs
  let g := s.wgOf t
  let d := s.die g.die
  let b? := s.bufNamed g.die (s.ctxOf t) (ptrBuf p)
  let bounds (r : Nat) : Except Flt (Place × Nat) := .error (scFlt .scratchBounds p off r)
  let own (b : BufState) : Except Flt (Place × Nat) := .error (scFlt .ownership p off (bufCode b))
  if ptrMbz p ≠ 0 then bounds 1
  else if ptrBuf p = 0 then
    if lv ≠ .core || ptrPeer p ≠ 0 then bounds 1
    else if ofs < 0 || ((s.launchOf t).scratch : Int) < ofs + n then bounds 2
    else .ok (.core t.lid t.wg, off)
  else match b? with
    | none => bounds 1
    | some b =>
      if b.lvl ≠ lv || (lv ≠ .core && ptrPeer p ≠ 0) then bounds 1
      else if ofs < 0 || (b.size : Int) < ofs + n then bounds 2
      else match lv with
        | .die => if b.admits t.lid t.wg g.site write eng then .ok (.buf g.die (ptrBuf p), off) else own b.st
        | .cluster =>
          if b.clu ≠ g.site / 4 then bounds 3
          else if b.admits t.lid t.wg g.site write eng then .ok (.buf g.die (ptrBuf p), off) else own b.st
        | .core =>
          let peer := ptrPeer p
          let site := if peer = 0 then g.site else g.site / 4 * 4 + (peer - 1)
          if 4 < peer || !d.sites.contains site then bounds 3
          else
            let x := if peer = 0 then (tget g.coreBufs (ptrBuf p)).map fun b => (t.lid, t.wg, b)
              else s.coreInstance t g.die site (ptrBuf p)
            match x with
            | none => own .free
            | some (lid, wg, b) =>
              if (write && peer ≠ 0) || !b.admits t.lid t.wg g.site write eng then own b.st
              else .ok (.core lid wg, b.base + off)

/-! ## Format words, R69, R70 -/

def fwA (w : Word) : Nat := w.toNat % 2 ^ 4
def fwB (w : Word) : Nat := w.toNat / 2 ^ 4 % 2 ^ 4
def fwC (w : Word) : Nat := w.toNat / 2 ^ 8 % 2 ^ 2
def fwSp (w : Word) : Bool := w.getLsbD 10
def fwGt (w : Word) : Bool := w.getLsbD 11
/-- AX + BX (R71). -/
def fwScale (w : Word) : Int := signed 8 (w.toNat / 2 ^ 16 % 2 ^ 8) + signed 8 (w.toNat / 2 ^ 24 % 2 ^ 8)

def fwTernary (w : Word) : Bool := fwA w == 5

/-- A row of R70 admits the word. -/
def fwValid (w : Word) : Bool :=
  w.toNat / 2 ^ 12 % 2 ^ 4 == 0 &&
    ((fwA w ≤ 1 && fwB w ≤ 1 && fwC w == 0) ||
     ((fwA w == 2 || fwA w == 3) && fwB w == fwA w && fwC w == 0 && !fwSp w) ||
     (fwA w == 5 && fwB w == 4 && fwC w == 1 && !fwSp w && !fwGt w && w.toNat / 2 ^ 16 == 0))

/-- Ks, Kl and the stream bytes of A and B of a step (R308). -/
def fwKs (w : Word) : Nat := if fwA w ≤ 1 then 16 else if fwTernary w then 32 else 8
def fwKl (w : Word) : Nat := if fwSp w then 32 else fwKs w
def fwABytes (w : Word) : Nat := if fwTernary w then 512 else 1024
def fwBBytes (w : Word) : Nat := if fwSp w || fwTernary w then 2048 else 1024

/-! ## Streams of the matrix engine, R315 -/

/-- A stream's bytes at a step from an offset within it: where they lie, or the fault. A buffer that an OWNTAKE took back while the
loop ran fails check 4 (R216, R382). -/
def State.streamAt (s : State) (l : Loop) (lo hi inc : Word) (step rel n : Nat) : Except Flt (Place × Nat) :=
  let p := join64 lo hi
  let t := l.parts.headD noRef
  let off : Int := (ptrOff p : Int) + inc.toInt * step + rel
  let b := s.bufNamed (s.wgOf t).die (s.ctxOf t) (ptrBuf p)
  let lv : Lvl := if ptrBuf p = 0 then .core else (b.map Buffer.lvl).getD .core
  match s.scratch t lv false true p off n with
  | .error f => .error f
  | .ok x =>
    if l.lost.contains (ptrBuf p) then .error (scFlt .ownership p (wrap 32 off) (bufCode ((b.map Buffer.st).getD .free))) else .ok x

/-- A stream of a loop is still to read some of n bytes of a place, in a step that has not been made. -/
def State.streamsAt (s : State) (l : Loop) (p : Place) (off n : Nat) : Bool :=
  let w := l.ls.fmtw
  let blk (i : Nat) : Word := l.ls.block.getD i 0
  let hits (lo hi inc : Word) (k m : Nat) : Bool := match s.streamAt l lo hi inc k 0 m with
    | .ok (q, o) => q == p && overlaps o m off n
    | .error _ => false
  ((List.range (l.ls.loopw.toNat % 2 ^ 13)).drop l.ls.kdone).any fun k =>
    (l.x.ask && hits (blk 0) (blk 1) (blk 6) k (fwABytes w)) || (l.x.bsk && hits (blk 2) (blk 3) (blk 7) k (fwBBytes w)) ||
      (l.x.msk && hits (blk 4) (blk 5) (blk 8) k 256)

/-! ## Waits for the thread's own copies and loops, R21, R232 -/

/-- The copies of a thread that run on. -/
def State.copiesOf (s : State) (t : TRef) : List Move :=
  (s.moves.filter fun m => m.thread == t) ++ (s.tileOps.map fun x => x.2.2.mv).filter fun m => m.thread == t

/-- The loops of a thread's own that run on at its core. -/
def State.loopsOf (s : State) (t : TRef) : List Loop :=
  let g := s.wgOf t
  (s.core g.die g.site).loops.filter fun l => !l.ls.flt && l.parts.contains t

/-- A thread's access must wait for one of its own copies, and a write for the steps of its own loops that are still to read the
bytes (R21). -/
def State.scBusy (s : State) (t : TRef) (write : Bool) (p : Place) (off n : Nat) : Bool :=
  ((s.copiesOf t).any fun m => m.writesAt p off n || (write && m.readsAt p off n)) ||
    (write && (s.loopsOf t).any fun l => s.streamsAt l p off n)

/-! ## Loads and stores, R230, R231 -/

/-- Where a load or a store of n bytes goes for a thread: MISALIGNED ranks before the checks of R208. -/
def State.scAcc (s : State) (h : Hdr) (off : BitVec 24) (lv : Lvl) (write : Bool) (t : TRef) : Except (Nat × Flt) (Place × Nat) :=
  let p := (s.rd t 0 h.lit).r64 h.a
  let q : Int := (ptrOff p : Int) + off.toInt
  let n := tyBytes h.ty
  if q < 0 || 2 ^ 32 ≤ q || q % n ≠ 0 then .error (0, scFlt .misaligned p (wrap 32 q) n)
  else match s.scratch t lv write false p q.toNat n with
    | .ok x => .ok x
    | .error f => .error (1, f)

/-- A form of R230: the checks on every active thread; then the instruction waits while a copy of a thread overlaps. -/
def State.spdForm (s : State) (h : Hdr) (n : Need) (off : BitVec 24) (lv : Lvl) (write : Bool)
    (eff : TRef → Place × Nat → State → State) : State :=
  s.issue h n fun act s =>
    let acc := s.scAcc h off lv write
    s.guardFaults (hlen h) h.pred act true (fun t => match acc t with
      | .error x => some x
      | .ok _ => none) fun s =>
      if act.any fun t => match acc t with
        | .ok x => s.scBusy t write x.1 x.2 (tyBytes h.ty)
        | .error _ => false then s
      else s.each (hlen h) act fun t s => match acc t with
        | .ok x => eff t x s
        | .error _ => s

/-- A load stands outstanding with the bytes that it read (R21, R231). -/
def State.spdLoad (s : State) (h : Hdr) (off : BitVec 24) (lv : Lvl) : State :=
  s.spdForm h { d := dstK h.ty, a := .addr } off lv false fun t x s =>
    let b := s.scRead x.1 x.2 (tyBytes h.ty)
    { s.draw with loads := s.loads ++
        [{ thread := t, dst := Operand.vnum h.d, ty := h.ty, level := (s.thr t).level, bytes := some b }] }

def State.spdStore (s : State) (h : Hdr) (off : BitVec 24) (lv : Lvl) : State :=
  s.spdForm h { a := .addr, b := srcK h.ty } off lv true fun t x s =>
    s.scWrite x.1 x.2 (natToBytes (tyBytes h.ty) ((s.rd t 0 h.lit).rw (tyWide h.ty) h.b))

def execLdl (h : Hdr) (off : BitVec 24) (s : State) : Out := .next (s.spdLoad h off .core)
def execStl (h : Hdr) (off : BitVec 24) (s : State) : Out := .next (s.spdStore h off .core)
def execLdc (h : Hdr) (off : BitVec 24) (s : State) : Out := .next (s.spdLoad h off .cluster)
def execStc (h : Hdr) (off : BitVec 24) (s : State) : Out := .next (s.spdStore h off .cluster)
def execLdd (h : Hdr) (off : BitVec 24) (s : State) : Out := .next (s.spdLoad h off .die)
def execStd (h : Hdr) (off : BitVec 24) (s : State) : Out := .next (s.spdStore h off .die)

/-! ## TMOV, R232 -/

/-- The copy that a thread's TMOV names, or the fault. Word 2 of MISALIGNED is the 4 that R232 asks of OFF, and where both pointers
fail a check the record carries the destination's fault. (DESIGN CHOICE, log entry 148) -/
def State.tmovOf (s : State) (h : Hdr) (x : TmovX) (t : TRef) : Except (Nat × Flt) Move :=
  let r := s.rd t 0 h.lit
  let d := r.r64 h.a
  let p := r.r64 h.b
  let g := (r.r32 h.c).toNat
  let rlen := g % 2 ^ 16
  let rows := g / 2 ^ 16
  let dp := if x.dstr = 0 then rlen else 16 * x.dstr.toNat
  let sp := if x.sstr = 0 then rlen else 16 * x.sstr.toNat
  if rlen % 4 ≠ 0 || rlen < 4 || rows = 0 then .error (0, s.operandFlt 3 h.c)
  else if ptrOff d % 4 ≠ 0 then .error (1, scFlt .misaligned d (ptrOff d) 4)
  else if ptrOff p % 4 ≠ 0 then .error (1, scFlt .misaligned p (ptrOff p) 4)
  else match s.scratch t x.dlv true false d (ptrOff d) (spanOf rlen rows dp) with
    | .error f => .error (2, f)
    | .ok (dst, dOff) =>
      match s.scratch t x.slv false false p (ptrOff p) (spanOf rlen rows sp) with
      | .error f => .error (2, f)
      | .ok (src, sOff) =>
        .ok { thread := t, dst := dst, dOff := dOff, dPitch := dp, src := src, sOff := sOff, sPitch := sp
              rlen := rlen, rows := rows }

/-- A copy must wait for an earlier one of its thread (R21, R232). -/
def State.moveBusy (s : State) (m : Move) : Bool :=
  s.scBusy m.thread true m.dst m.dOff (spanOf m.rlen m.rows m.dPitch) ||
    s.scBusy m.thread false m.src m.sOff (spanOf m.rlen m.rows m.sPitch)

def execTmov (h : Hdr) (x : TmovX) (s : State) : Out :=
  .next (s.issue h { a := .addr, b := .addr, c := .src } fun act s =>
    let ms := s.tmovOf h x
    s.guardFaults (hlen h) h.pred act true (fun t => match ms t with
      | .error x => some x
      | .ok _ => none) fun s =>
      if act.any fun t => match ms t with
        | .ok m => s.moveBusy m
        | .error _ => false then s
      else s.each (hlen h) act fun t s => match ms t with
        | .ok m => { s with moves := s.moves ++ [m] }
        | .error _ => s)

/-- TMOV_DONE: the i-th running TMOV reads and writes its bytes. The copies of one group's threads are issued in slot order and
finish in any order. (DESIGN CHOICE, log entry 148) -/
def execTmovDone (i : Nat) (s : State) : Out :=
  .next (match s.moves[i]? with
    | none => s
    | some m => ({ s with moves := s.moves.eraseIdx i }.doMove m).freeSource m)

end Sys2Proof.Machine
end

