-- ==== Sys2Proof/Machine/Own.lean ====
section
/-! DEFINITION. The OWN class (R212 to R217, R234 to R236, R382), and OWNTAKE_DRAIN_END. -/

namespace Sys2Proof.Machine

/-! ## The buffer that A names -/

/-- The record that a thread's transfers act on: the workgroup's instance of a core buffer, else the die's entry. A core
buffer of which the workgroup has no instance counts as FREE and of no launch. -/
def State.ownBuf (s : State) (t : TRef) (id : Nat) : Option Buffer :=
  let g := s.wgOf t
  match s.bufNamed g.die (s.ctxOf t) id with
  | none => none
  | some b => if b.lvl = .core then some ((tget g.coreBufs id).getD { b with st := .free, lid := none, session := none })
    else some b

def State.updOwnBuf (s : State) (t : TRef) (id : Nat) (f : Buffer → Buffer) : State :=
  let g := s.wgOf t
  match s.bufNamed g.die (s.ctxOf t) id with
  | none => s
  | some b =>
    if b.lvl = .core then s.updWg t.lid t.wg fun g => { g with coreBufs := tupd g.coreBufs id f }
    else s.updDie g.die fun d => { d with bufs := tupd d.bufs id f }

/-- Detail words of an ownership form: no offset, the buffer id in bits [17:0], the reason or state code.
(DESIGN CHOICE, log entry 54) -/
def ownFlt (code : FaultCode) (id d2 : Nat) : Flt := { code := code, d1 := w32 (id % 2 ^ 18), d2 := w32 d2 }

/-- Check 1 of R236 on buffer A: R234, and R208 checks 1 and 3. -/
def State.ownNamed (s : State) (t : TRef) (id : Nat) : Option Flt :=
  if 2 ^ 14 ≤ id then some (ownFlt .scratchBounds id 1)
  else match s.ownBuf t id with
    | none => some (ownFlt .scratchBounds id 1)
    | some b => if b.lvl = .cluster ∧ b.clu ≠ (s.wgOf t).site / 4 then some (ownFlt .scratchBounds id 3) else none

/-! ## Targets and issuers, R235 -/

/-- The workgroup count of a launch: its packet's, or the tasks or updates created so far. -/
def Launch.wgCount (l : Launch) : Nat := if l.kind = .grid then l.count else l.nextTask

/-- The target that B names under TK. -/
def State.ownTarget (s : State) (t : TRef) (tk : Tk) (b : Nat) : Option Holder :=
  let d := s.die (s.wgOf t).die
  let idx := b / 2 ^ 8 % 2 ^ 8
  match tk with
  | .workgroup => if b < (s.launchOf t).wgCount then some (.wg t.lid b) else none
  | .core => (d.sites[b]?).map Holder.core
  | .engine =>
    if 2 ^ 16 ≤ b then none
    else match b % 2 ^ 8 with
      | 0 => if idx < 8 then some (.copy idx) else none
      | 1 => if idx < 2 then some (.encode idx) else none
      | 2 => (d.sites[idx]?).map Holder.matrix
      | _ => none

/-- The issuer holds the buffer, as the kind that HK records. -/
def State.holds (s : State) (t : TRef) (b : Buffer) : Bool :=
  b.hold == .wg t.lid t.wg || (b.hold == .core (s.wgOf t).site && b.shLid == t.lid)

/-- Check 2 of R236 for OWNGIVE: B, and the rule for core buffers. -/
def State.giveFault (s : State) (h : Hdr) (tk : Tk) (t : TRef) : Option (Nat × Flt) :=
  let r := s.rd t 0 h.lit
  let id := (r.r32 h.a).toNat
  match s.ownNamed t id with
  | some f => some (0, f)
  | none =>
    match s.ownTarget t tk (r.r32 h.b).toNat, s.ownBuf t id with
    | none, _ => some (1, s.operandFlt 2 h.b)
    | some tg, some b =>
      if b.lvl = .core ∧ tg ≠ .matrix (s.wgOf t).site then some (2, ownFlt .ownership id (bufCode b.st)) else none
    | some _, none => none

/-! ## Copies that run on in a buffer -/

/-- A copy reads or writes bytes of a buffer that a thread names. -/
def State.bufBusy (s : State) (t : TRef) (id : Nat) : Bool :=
  match s.ownBuf t id with
  | none => false
  | some b =>
    let p : Place := if b.lvl = .core then .core t.lid t.wg else .buf (s.wgOf t).die id
    let off := if b.lvl = .core then b.base else 0
    s.transfers.any fun m => m.writesAt p off b.size || m.readsAt p off b.size

/-! ## The second loop of R236: in slot order, with the effects of the threads before a faulting one -/

inductive OwnRes where
  | done (s : State)
  | wait (s : State)
  | fault (f : Flt)

/-- The threads after one that waits in its OWNTAKE wait for it, and then make their own. -/
def State.parkBehind (s : State) (len : Nat) (t : TRef) (ts : List TRef) : State :=
  match (s.thr t).wait with
  | .owntake id tk _ _ => ts.foldl (fun s u => s.park (.owntake id tk false (some t)) len true u) s
  | _ => s

def State.ownLoop (len : Nat) (act : TRef → State → OwnRes) : List TRef → State → State
  | [], s => s
  | t :: ts, s =>
    match act t s with
    | .done s => State.ownLoop len act ts (s.retireBound len t)
    | .wait s => s.parkBehind len t ts
    | .fault f => s.raise [t] f

/-! ## Waits in OWNTAKE that are over -/

def Wait.isTake : Wait → Bool
  | .owntake .. => true
  | _ => false

/-- A waiting OWNTAKE that waits no longer issues again (R236): its buffer has changed, or the thread before it in slot order
waits no longer. (DEDUCED, log entry 57) -/
def State.takeAgain (s : State) (t : TRef) : Bool :=
  match (s.thr t).wait with
  | .owntake _ _ _ (some u) => !(s.thr u).wait.isTake
  | .owntake id tk false none => match s.ownBuf t id with
    | some b => s.takeRes t tk true b != .wait
    | none => true
  | _ => false

/-- They rejoin in the step that releases them (R268). -/
def State.rejoinTakers (s : State) : State :=
  let s := ((tkeys s.threads).filter s.takeAgain).foldl State.rejoin s
  ((tkeys s.threads).filter s.takeAgain).foldl State.rejoin s

/-! ## OWNGIVE and OWNSHARE -/

/-- The target has ended. -/
def State.targetEnded (s : State) : Holder → Bool
  | .wg l g => match tget s.wgs (l, g) with
    | some x => x.st == .ended
    | none => false
  | _ => false

/-- The buffer after OWNGIVE. A matrix engine holds it at once (R382). -/
def State.given (s : State) (t : TRef) (tg : Holder) (b : Buffer) : Buffer :=
  match tg with
  | .matrix _ => { b with st := .held, hold := tg, target := b.hold, shLid := t.lid }
  | _ => if s.targetEnded tg then { b with st := .free, hold := .none, target := .none }
    else { b with st := .given, hold := .none, target := tg, shLid := t.lid }

def State.giveOne (s : State) (h : Hdr) (tk : Tk) (t : TRef) : OwnRes :=
  let r := s.rd t 0 h.lit
  let id := (r.r32 h.a).toNat
  match s.ownBuf t id, s.ownTarget t tk (r.r32 h.b).toNat with
  | some b, some tg =>
    if b.st ≠ .held || !s.holds t b then .fault (ownFlt .ownership id (bufCode b.st))
    else .done (s.updOwnBuf t id (s.given t tg))
  | _, _ => .done s

def State.shareOne (s : State) (h : Hdr) (t : TRef) : OwnRes :=
  let id := ((s.rd t 0 h.lit).r32 h.a).toNat
  match s.ownBuf t id with
  | some b =>
    if b.st ≠ .held || !s.holds t b then .fault (ownFlt .ownership id (bufCode b.st))
    else .done (s.updOwnBuf t id fun b =>
      { b with st := .shared, shLid := t.lid, shClu := if b.lvl = .cluster then b.clu else (s.wgOf t).site / 4 })
  | none => .done s

/-- A holder outside a thread's unit. -/
def State.outside (s : State) (t : TRef) : Holder → Bool
  | .wg lid wg => lid != t.lid || !(s.unitOf t.lid t.wg).contains wg
  | .matrix _ | .none => false
  | _ => true

/-- OWNGIVE names a target outside the unit. -/
def State.giveOut (s : State) (h : Hdr) (tk : Tk) (t : TRef) : Bool :=
  (s.ownTarget t tk ((s.rd t 0 h.lit).r32 h.b).toNat).any (s.outside t)

/-- OWNSHARE admits other units: a core buffer is the workgroup's own. -/
def State.shareOut (s : State) (h : Hdr) (t : TRef) : Bool :=
  (s.ownBuf t ((s.rd t 0 h.lit).r32 h.a).toNat).any fun b => b.lvl != .core

/-- The common form: the checks, the order of R268, for a transfer that reaches beyond the unit (`out`) its turn, the release of
R215 (not for OWNTAKE), the loop. (DEDUCED, log entries 53 and 143) -/
def State.ownForm (s : State) (h : Hdr) (n : Need) (chk : State → TRef → Option (Nat × Flt)) (rel : Bool)
    (out : State → TRef → Bool) (act1 : TRef → State → OwnRes) : State :=
  (s.issue h n fun act s =>
    s.guardFaults (hlen h) h.pred act true (chk s) fun s =>
      if rel && act.any fun t => s.bufBusy t ((s.rd t 0 h.lit).r32 h.a).toNat then s
      else s.ordered act (act.any (out s)) fun s =>
        let s := s.retireAll (hlen h) (s.inactive h.pred)
        let s := if rel && !act.isEmpty then s.relAll act .die else s
        (State.ownLoop (hlen h) act1 act s).rejoinTakers).settle

def execOwngive (h : Hdr) (tk : Tk) (s : State) : Out :=
  .next (s.ownForm h { a := .src, b := .src } (fun s t => s.giveFault h tk t) true (fun s t => s.giveOut h tk t)
    fun t s => s.giveOne h tk t)

def execOwnshare (h : Hdr) (s : State) : Out :=
  .next (s.ownForm h { a := .src }
    (fun s t => (s.ownNamed t ((s.rd t 0 h.lit).r32 h.a).toNat).map fun f => (0, f)) true (fun s t => s.shareOut h t)
    fun t s => s.shareOne h t)

/-! ## OWNTAKE -/

/-- Reads of a buffer of a thread's workgroup that were admitted in SHARED have not returned (R216). -/
def State.readsLeft (s : State) (t : TRef) (id : Nat) : Bool :=
  match s.ownBuf t id with
  | none => false
  | some b => if b.lvl = .core then s.coreReads t.lid t.wg b.base b.size else s.readsOf (s.wgOf t).die id

/-- The loops of the launch that run on the die, or stand parked there, read the buffer as its own no longer: an OWNTAKE has reached
the table (R216, R382). Of a core buffer they are those of the taking workgroup. -/
def State.barLoops (s : State) (t : TRef) (id : Nat) (lv : Lvl) : State :=
  let die := (s.wgOf t).die
  let bar (l : Loop) : Loop :=
    if l.lid == t.lid && (s.wg l.lid l.wg).die == die && (lv != .core || l.wg == t.wg) && !l.lost.contains id then
      { l with lost := l.lost ++ [id] }
    else l
  { (s.updDie die fun d => { d with cores := d.cores.map fun k => { k with loops := k.loops.map bar } }) with
    parked := s.parked.map bar }

/-- DEDUCED, log entry 55. -/
def State.takeOne (s : State) (h : Hdr) (tk : Tk) (w : Bool) (t : TRef) : OwnRes :=
  let id := ((s.rd t 0 h.lit).r32 h.a).toNat
  match s.ownBuf t id with
  | none => .done s
  | some b =>
    let take (s : State) : OwnRes :=
      .done ((s.updOwnBuf t id fun b => b.taken t.lid (s.issuer t tk)).acquire t.lid t.wg .die)
    match s.takeRes t tk w b with
    | .take => take (if b.st == .held then s.barLoops t id b.lvl else s)
    | .drain =>
      let s := s.barLoops t id b.lvl
      if s.readsLeft t id then
        .wait ((s.updOwnBuf t id fun b => { b.draining with target := b.hold }).park
          (.owntake id tk true none) (hlen h) true t)
      else take s
    | .wait => .wait (s.park (.owntake id tk false none) (hlen h) true t)
    | .fault => .fault (ownFlt .ownership id (bufCode b.st))

def execOwntake (h : Hdr) (tk : Tk) (w : Bool) (s : State) : Out :=
  .next (s.ownForm h { a := .src }
    (fun s t => (s.ownNamed t ((s.rd t 0 h.lit).r32 h.a).toNat).map fun f => (0, f)) false (fun _ _ => false)
    fun t s => s.takeOne h tk w t)

/-- The reclaim of a thread that drains, with nothing left to return. -/
def State.drained (s : State) (t : TRef) : Option (Nat × Tk) :=
  match (s.thr t).wait with
  | .owntake id tk true _ => if !s.runs t.lid t.wg || s.readsLeft t id then none else some (id, tk)
  | _ => none

/-- OWNTAKE_DRAIN_END. -/
def execOwntakeDrainEnd (t : TRef) (s : State) : Out :=
  .next (match s.drained t with
    | none => s
    | some (id, tk) =>
      (((s.updOwnBuf t id fun b => b.taken t.lid (s.issuer t tk)).acquire t.lid t.wg .die).finish t).rejoinTakers)

end Sys2Proof.Machine
end

