-- ==== Sys2Proof/Machine/Til.lean ====
section
/-! DEFINITION. The TIL class (R222 to R226, R237 to R239), TALLOC_GRANT and TILE_TRANSFER_DONE. -/

namespace Sys2Proof.Machine

/-! ## Shapes, R222 -/

def shFmt (w : Word) : Nat := w.toNat % 2 ^ 4
def shRows (w : Word) : Nat := w.toNat / 2 ^ 4 % 2 ^ 9
def shCols (w : Word) : Nat := w.toNat / 2 ^ 13 % 2 ^ 14

/-- The element width b. -/
def shBits (w : Word) : Nat :=
  match shFmt w with
  | 0 | 1 | 4 => 8
  | 2 | 3 => 16
  | 5 => 2
  | _ => 32

def shapeValid (w : Word) : Bool :=
  shFmt w ≤ 8 && 1 ≤ shRows w && shRows w ≤ 256 && 1 ≤ shCols w && shCols w ≤ 8192 && w.toNat / 2 ^ 27 == 0 &&
    shRows w * shCols w * shBits w ≤ 131072

/-! ## Handles -/

def shapeFlt (h reason : Nat) : Flt := { code := .handleShape, d0 := w32 h, d2 := w32 reason }

/-- A use by wave w of a handle that must be LIVE and held by one of some waves (R224). -/
def handleUse (x : Handle) (h : Nat) (by_ : Nat → Bool) : Option Flt :=
  match x.st with
  | .dead => some (handleFlt h (if x.ever then 2 else 1))
  | .live => if by_ x.hold then none else some (handleFlt h 3)
  | .given => some (handleFlt h 3)

/-- PW and PR are the pending operations on the bound slot (R223). -/
def State.refresh (s : State) (lid wg h : Nat) : State :=
  let k := (s.handle lid wg h).slot
  let ops := (s.tileOps.filter fun x => x.1 == lid && x.2.1 == wg && x.2.2.slot == k).map fun x => x.2.2
  let loops := s.wgLoops lid wg
  s.updHandle lid wg h fun x =>
    if x.st = .dead then x
    else { x with
      pw := ops.any TileOp.load || loops.any fun l => l.slotC == k
      pr := (ops.any fun o => !o.load) || loops.any fun l => l.slotA == some k || l.slotB == some k || l.slotM == some k }

/-- The lowest free slot of a workgroup. (DESIGN CHOICE, log entry 129) -/
def Wg.freeSlot (g : Wg) : Option Nat := (g.slots.find? fun x => x.2.bound.isNone && !x.2.drain).map Prod.fst

/-- The handle is bound to a slot, LIVE and held by the wave (R223, R224). -/
def State.bind (s : State) (t : TRef) (h : Nat) (shape : Word) (k : Nat) : State :=
  (s.updHandle t.lid t.wg h fun _ =>
    { st := .live, hold := t.wave, ever := true, shape := shape, slot := k }).updWg t.lid t.wg fun g =>
      { g with slots := tupd g.slots k fun x => { x with bound := some h } }

/-! ## The form of R238: checked as if the threads executed one at a time; if any faults, none acts -/

/-- The checks in slot order: `chk` answers the state that the thread's step would leave, as far as later checks read it. -/
def checkRun (chk : TRef → State → Except (Nat × Flt) State) : List TRef → State → List (TRef × Nat × Flt)
  | [], _ => []
  | t :: ts, s => match chk t s with
    | .ok s => checkRun chk ts s
    | .error x => (t, x.1, x.2) :: checkRun chk ts s

def State.tilForm (s : State) (h : Hdr) (n : Need) (hn : Nat) (chk : TRef → State → Except (Nat × Flt) State)
    (busy : TRef → State → Bool) (eff : TRef → State → State) : State :=
  s.issue h n fun act s =>
    match s.deliver (hlen h) (s.inactive h.pred) act false (fun r => r.names.contains hn) with
    | some s' => s'
    | none =>
      let l := checkRun chk act s
      match firstRank l with
      | some (_, f) => s.stop (hlen h) h.pred (l.map Prod.fst) f
      | none =>
        if act.any fun t => busy t s then s
        else act.foldl (fun s t => eff t s) (s.retireAll (hlen h) (s.inactive h.pred))

def never (_ : TRef) (_ : State) : Bool := false

/-! ## TALLOC -/

/-- The shape that a thread's TALLOC names. -/
def State.tallocShape (s : State) (h : Hdr) (t : TRef) : Word := (s.rd t 0 h.lit).r32 h.a

def State.tallocChk (h : Hdr) (hn : Nat) (t : TRef) (s : State) : Except (Nat × Flt) State :=
  let x := s.handle t.lid t.wg hn
  if x.st ≠ .dead then .error (0, handleFlt hn 4)
  else if (s.launchOf t).hdr.tiles = 0 then .error (0, handleFlt hn 5)
  else if !shapeValid (s.tallocShape h t) then .error (0, shapeFlt hn 1)
  else .ok (s.updHandle t.lid t.wg hn fun x => { x with st := .live, hold := t.wave })

def execTalloc (h : Hdr) (hn : BitVec 6) (s : State) : Out :=
  .next (s.tilForm h { a := .src } hn.toNat (State.tallocChk h hn.toNat) never fun t s =>
    match (s.wgOf t).freeSlot with
    | some k => (s.bind t hn.toNat (s.tallocShape h t) k).retireBound (hlen h) t
    | none => s.park (.talloc hn.toNat (s.tallocShape h t)) (hlen h) true t)

/-- A waiting TALLOC, with a slot for it. -/
def State.tallocDue (s : State) (t : TRef) : Option (Nat × Word × Nat) :=
  match (if s.runs t.lid t.wg then (s.thr t).wait else .none), (s.wgOf t).freeSlot with
  | .talloc h shape, some k => some (h, shape, k)
  | _, _ => none

/-- The thread stops alone with a fault in the instruction that it waits in. -/
def State.raiseOne (s : State) (t : TRef) (f : Flt) : State :=
  s.updThr t fun th => { th with wait := .none, trap := some (recOf th 1 f) }

/-- TALLOC_GRANT: the handle is bound, or found bound meanwhile (reason 4). -/
def execTallocGrant (t : TRef) (s : State) : Out :=
  .next (match s.tallocDue t with
    | none => s
    | some (h, shape, k) =>
      if (s.handle t.lid t.wg h).st ≠ .dead then s.raiseOne t (handleFlt h 4)
      else (s.bind t h shape k).finish t)

/-! ## TLOAD and TSTORE, R239 -/

/-- The slot image: its rows, bytes in a row, and the scratch pitch; `none` for a pitch that breaks R239. -/
def imageOf (shape : Word) (b : Nat) : Option (Nat × Nat × Nat) :=
  let row := shCols shape * shBits shape
  if b = 0 then
    let n := 4 * ((shRows shape * row + 31) / 32)
    some (1, n, n)
  else if row % 32 ≠ 0 then none
  else some (shRows shape, row / 8, b)

/-- The copy of a thread, or its fault; word 2 of MISALIGNED is 4. (DESIGN CHOICE, log entry 148) -/
def State.tileMove (s : State) (h : Hdr) (hn : Nat) (lv : Lvl) (load : Bool) (t : TRef) : Except (Nat × Flt) Move :=
  let r := s.rd t 0 h.lit
  let p := r.r64 h.a
  let off := ptrOff p
  let x := s.handle t.lid t.wg hn
  let mis : Nat × Flt := (1, scFlt .misaligned p off 4)
  match handleUse x hn (· == t.wave) with
  | some f => .error (if off % 4 ≠ 0 then mis else (3, f))
  | none =>
    match imageOf x.shape (r.r32 h.b).toNat with
    | none => .error (0, s.operandFlt 2 h.b)
    | some (rows, rlen, pitch) =>
      if off % 4 ≠ 0 then .error mis
      else match s.scratch t lv (!load) false p off (spanOf rlen rows pitch) with
        | .error f => .error (2, f)
        | .ok (pl, o) =>
          let sl : Place := .slot t.lid t.wg x.slot
          .ok (if load then { thread := t, dst := sl, dOff := 0, dPitch := rlen, src := pl, sOff := o, sPitch := pitch,
                              rlen := rlen, rows := rows }
               else { thread := t, dst := pl, dOff := o, dPitch := pitch, src := sl, sOff := 0, sPitch := rlen,
                      rlen := rlen, rows := rows })

def State.tileForm (s : State) (h : Hdr) (hn : Nat) (lv : Lvl) (load : Bool) : State :=
  s.tilForm h { a := .addr, b := .src } hn
    (fun t s => match s.tileMove h hn lv load t with
      | .error x => .error x
      | .ok _ => .ok s)
    (fun t s => match s.tileMove h hn lv load t with
      | .error _ => false
      | .ok m => if load then s.scBusy t false m.src m.sOff (spanOf m.rlen m.rows m.sPitch)
        else s.scBusy t true m.dst m.dOff (spanOf m.rlen m.rows m.dPitch))
    fun t s => match s.tileMove h hn lv load t with
      | .error _ => s
      | .ok m =>
        let s := s.tick
        let op : TileOp := { load := load, h := hn, slot := (s.handle t.lid t.wg hn).slot, mv := m, stamp := s.stamp }
        (({ s with tileOps := s.tileOps ++ [(t.lid, t.wg, op)] }).refresh t.lid t.wg hn).retire (hlen h) t

def execTload (h : Hdr) (hn : BitVec 6) (lv : Lvl) (s : State) : Out := .next (s.tileForm h hn.toNat lv true)
def execTstore (h : Hdr) (hn : BitVec 6) (lv : Lvl) (s : State) : Out := .next (s.tileForm h hn.toNat lv false)

/-! ## The scoreboard, R225 -/

/-- TILE_TRANSFER_DONE: the i-th transfer moves its bytes when nothing earlier on its slot is pending; a draining slot may
become free. One of a pre-empted workgroup, saved behind a faulted loop, waits (R227). -/
def execTileTransferDone (i : Nat) (s : State) : Out :=
  .next (match s.tileOps[i]? with
    | none => s
    | some (lid, wg, op) =>
      if (s.wg lid wg).st == .preempted || s.slotBlocked lid wg op.slot op.load op.stamp then s
      else
        let s := ({ s with tileOps := s.tileOps.eraseIdx i }.doMove op.mv).freeSource op.mv
        (s.settleSlot lid wg op.slot).refresh lid wg op.h)

/-! ## TGIVE, TTAKE, TFREE -/

def State.waveEnded (s : State) (t : TRef) (w : Nat) : Bool := (s.waveThreads { t with wave := w }).all fun u => !s.live u

def State.tgiveChk (h : Hdr) (hn : Nat) (t : TRef) (s : State) : Except (Nat × Flt) State :=
  let u := ((s.rd t 0 h.lit).r32 h.a).toNat
  if (s.launchOf t).waves ≤ u then .error (0, s.operandFlt 1 h.a)
  else match handleUse (s.handle t.lid t.wg hn) hn (· == t.wave) with
    | some f => .error (1, f)
    | none => .ok (if s.waveEnded t u then s.killHandle t.lid t.wg hn
        else s.updHandle t.lid t.wg hn fun x => { x with st := .given, target := u })

/-- A form whose check answers its effect; TTAKEs that wait for the handle see the change at once (R224). -/
def State.handleForm (s : State) (h : Hdr) (n : Need) (hn : Nat) (chk : TRef → State → Except (Nat × Flt) State) : State :=
  s.tilForm h n hn chk never fun t s => match chk t s with
    | .ok s => (s.settleTakes t.lid t.wg hn).retireBound (hlen h) t
    | .error _ => s

def execTgive (h : Hdr) (hn : BitVec 6) (s : State) : Out :=
  .next (s.handleForm h { a := .src } hn.toNat (State.tgiveChk h hn.toNat))

def execTtake (h : Hdr) (hn : BitVec 6) (s : State) : Out :=
  .next (s.tilForm h {} hn.toNat (State.ttakeChk hn.toNat) never fun t s =>
    if s.ttakeWaits hn.toNat t then s.park (.ttake hn.toNat) (hlen h) true t
    else match State.ttakeChk hn.toNat t s with
      | .ok s => s.retireBound (hlen h) t
      | .error _ => s)

def State.tfreeChk (hn : Nat) (t : TRef) (s : State) : Except (Nat × Flt) State :=
  match handleUse (s.handle t.lid t.wg hn) hn (· == t.wave) with
  | some f => .error (0, f)
  | none => .ok (s.killHandle t.lid t.wg hn)

def execTfree (h : Hdr) (hn : BitVec 6) (s : State) : Out := .next (s.handleForm h {} hn.toNat (State.tfreeChk hn.toNat))

end Sys2Proof.Machine
end

