-- ==== Sys2Proof/Machine/Ord.lean ====
section
/-! DEFINITION. The ORD class (R246 to R248), and PHASE_COMPLETE. -/

namespace Sys2Proof.Machine

/-- Phase(scope) of one workgroup begins: its threads wait until it completes. Under deterministic operation it completes
at its turn (R268). -/
def State.phaseOne (s : State) (len : Nat) (scope : Scp) (ts : List TRef) (g : Nat × Nat) : State :=
  let us := ts.filter fun t => t.lid == g.1 && t.wg == g.2
  if (s.launch g.1).det ≠ 0 then ((s.releaseAll g.1 g.2 scope).acquire g.1 g.2 scope).retireBoundAll len us
  else
    let s := s.tick
    let r : Release := { id := s.stamp, lid := g.1, wg := g.2, scope := scope, stamp := s.stamp, waiters := us, acquire := true }
    us.foldl (fun s t => s.park (.release r.id) len true t) { s with releases := s.releases ++ [r] }

def execPhase (h : Hdr) (scp : Scp) (s : State) : Out :=
  .next (s.issue h {} fun act s =>
    match s.deliver (hlen h) (s.inactive h.pred) act true (fun _ => true) with
    | some s' => s'
    | none => s.ordered act false fun s =>
      (sortBy (fun a b => a.2 ≤ b.2) (wgsOf act)).foldl (fun s g => s.phaseOne (hlen h) scp act g)
        (s.retireAll (hlen h) (s.inactive h.pred))).settle

/-- PHASE_COMPLETE: the i-th release in progress completes. Stores staged since it began fall on either side: where it cuts is
a free choice. Then the acquire, and the threads go on. -/
def execPhaseComplete (i : Nat) (s : State) : Out :=
  .next (match s.releases[i]? with
    | none => s
    | some r =>
      if !s.runs r.lid r.wg then s
      else
        let s := { s with releases := s.releases.eraseIdx i }
        let (k, s) := s.choose (s.stamp + 1 - r.stamp + 1)
        let s := s.release r.lid r.wg r.scope (r.stamp + k)
        let s := if r.acquire then s.acquire r.lid r.wg r.scope else s
        (r.waiters.foldl State.finish s).settle)

/-- Something that FENCE waits for is pending in the wave of a thread (R248): of a push, only an element that has not entered its
queue. -/
def State.fenceBusy (s : State) (t : TRef) : Bool :=
  let us := s.waveThreads t
  us.any fun u => !(s.copiesOf u).isEmpty || (s.loads.any fun l => l.thread == u && l.bytes.isSome) ||
    match (s.thr u).wait with
    | .push _ b _ => !b.isEmpty
    | _ => false

/-- The wave of a thread has an outstanding special-function result. -/
def State.sfuOfWave (s : State) (t : TRef) : Bool :=
  s.results.any fun r => r.thread.lid == t.lid && r.thread.wg == t.wg && r.thread.wave == t.wave

/-- Each wave of the group waits for itself, and goes on when nothing of its own is pending. -/
def execFence (h : Hdr) (s : State) : Out :=
  .next (s.issue h {} fun act s =>
    let go := act.filter fun t => !s.fenceBusy t && !s.sfuOfWave t
    match s.deliver (hlen h) (s.inactive h.pred) go true (fun _ => true) with
    | some s' => s'
    | none => s.retireAll (hlen h) (s.inactive h.pred ++ go))

end Sys2Proof.Machine
end

