-- ==== Sys2Proof/Machine/Que.lean ====
section
/-! DEFINITION. The QUE class (R220, R240 to R245, R288), and QUEUE_WAIT_RESUME. -/

namespace Sys2Proof.Machine

/-! ## Control words, R220 -/

def cwBase (w : DWord) : Nat := 64 * (w.toNat % 2 ^ 16)
def cwDepth (w : DWord) : Nat := 2 ^ (w.toNat / 2 ^ 16 % 2 ^ 4)
def cwEsz (w : DWord) : Nat := w.toNat / 2 ^ 20 % 2 ^ 3
def cwEpk (w : DWord) : Nat := w.toNat / 2 ^ 24 % 2 ^ 4
def cwEpn (w : DWord) : Nat := w.toNat / 2 ^ 28 % 2 ^ 8
def cwDir (w : DWord) : Bool := w.getLsbD 36

/-- Registers of an element. -/
def cwRegs (w : DWord) : Nat := 2 ^ cwEsz w

/-- Every field holds an allowed value, and an engine's queue has the shape of R288. -/
def cwFieldsOk (w : DWord) : Bool :=
  w.toNat / 2 ^ 16 % 2 ^ 4 ≤ 12 && cwEsz w ≤ 4 && !w.getLsbD 23 && cwEpk w ≤ 5 && w.toNat / 2 ^ 37 == 0 &&
    (match cwEpk w with
    | 1 => !cwDir w
    | 2 | 3 => cwEsz w == 4 && !cwDir w
    | 4 => cwEsz w == 0 && !cwDir w
    | _ => true)

/-- EPN names a declared role or an existing engine. (DESIGN CHOICE, log entry 51) -/
def cwEpnOk (roles : Nat) (w : DWord) : Bool :=
  match cwEpk w with
  | 1 => cwEpn w < max roles 1
  | 2 => cwEpn w < 8
  | 3 => cwEpn w < 2
  | 4 | 5 => cwEpn w == 0
  | _ => true

/-- The first reason of R241 for word w in queue q of a workgroup of a launch, in the order 1, 9, 2, 3, 4, 5. -/
def queueReason (feat : Bool) (l : Launch) (qs : Vector Queue 8) (q : Nat) (w : DWord) : Option Nat :=
  let lo := cwBase w
  let n := queueBytes w
  let me := vget qs {} q
  let other (k : Nat) : Bool :=
    let c := (vget qs {} k).cw
    k != q && c != 0 && overlaps (cwBase c) (queueBytes c) lo n
  if !cwFieldsOk w then some 1
  else if cwEpk w = 3 && !feat then some 9
  else if l.queueArea < lo + n then some 2
  else if (List.range 8).any other then some 3
  else if !cwEpnOk l.roles.length w then some 4
  else if !me.elems.isEmpty || me.xfer then some 5
  else none

def queueFlt (q reason : Nat) : Flt := { code := .queueConfig, d0 := w32 q, d2 := w32 reason }

def State.queue (s : State) (lid wg q : Nat) : Queue := vget (s.wg lid wg).q {} q

def State.updQueue (s : State) (lid wg q : Nat) (f : Queue → Queue) : State :=
  s.updWg lid wg fun g => { g with q := vupd g.q q f }

def execQcfg (h : Hdr) (q : BitVec 3) (s : State) : Out :=
  .next (s.issue h { a := .srcW } fun act s =>
    s.guardFaults (hlen h) h.pred act true
      (fun t => (queueReason (s.hasFeat t 7) (s.launchOf t) (s.wgOf t).q q.toNat ((s.rd t 0 h.lit).r64 h.a)).map fun r =>
        (0, queueFlt q.toNat r)) fun s =>
      let s := act.foldl (fun s t =>
        s.updQueue t.lid t.wg q.toNat fun _ => { cw := (s.rd t 0 h.lit).r64 h.a }) s
      (s.retireAll (hlen h) (s.inactive h.pred)).retireBoundAll (hlen h) act)

/-- The status word of R242. (DESIGN CHOICE, log entry 52) -/
def Queue.status (x : Queue) : Nat :=
  let n := x.elems.length
  let f (b : Bool) (k : Nat) : Nat := if b then 2 ^ k else 0
  n % 2 ^ 13 + f (n == cwDepth x.cw) 13 + f (n == 0) 14 + f x.xfer 15 + cwEpk x.cw * 2 ^ 16

def execQstat (h : Hdr) (q : BitVec 3) (s : State) : Out :=
  .next (s.issue h { d := .dst } fun act s => s.each (hlen h) act fun t s =>
    s.updThr t fun th => th.setD false h.d (s.queue t.lid t.wg q.toNat).status)

/-! ## PUSH and POP, R243, R244 -/

/-- The register run of an element is admitted. -/
def State.runOk (s : State) (t : TRef) (q : Nat) (o : Operand) : Bool :=
  let n := cwRegs (s.queue t.lid t.wg q).cw
  Operand.vnum o % n == 0 && (List.range n).all fun i => s.alloc t (Operand.vnum o + i)

/-- The checks of PUSH and POP. -/
def State.queueChk (s : State) (q : Nat) (push : Bool) (field : Nat) (o : Operand) (t : TRef) : Option (Nat × Flt) :=
  let w := (s.queue t.lid t.wg q).cw
  if !s.runOk t q o then some (0, s.operandFlt field o)
  else if cwEpk w = 0 then some (1, queueFlt q 6)
  else if (push && cwDir w) || (!push && !cwDir w && cwEpk w != 1) then some (1, queueFlt q 7)
  else if !push && cwEpk w == 1 && (s.wave t).role != cwEpn w then some (1, queueFlt q 8)
  else none

/-- The element of a thread has moved, or the thread waits no longer. -/
def Wait.moved : Wait → Bool
  | .push _ b _ => b.isEmpty
  | .pop _ _ m _ => m
  | _ => true

/-- The group that a waiting PUSH or POP belongs to. -/
def Wait.grp : Wait → List TRef
  | .push _ _ g => g
  | .pop _ _ _ g => g
  | _ => []

/-- The earlier threads of a thread's group have moved their elements. -/
def State.inTurn (s : State) (t : TRef) (g : List TRef) : Bool :=
  (g.takeWhile fun u => u != t).all fun u => (s.thr u).wait.moved

/-- An element joins a queue; of an encode engine's queue, the moment is kept too (R307). -/
def Queue.push (x : Queue) (b : List Byte) (stamp : Nat) : Queue :=
  { x with elems := x.elems ++ [b], pushed := if cwEpk x.cw = 3 then x.pushed ++ [stamp] else x.pushed }

/-- A thread's element moves where it can: its turn in slot order has come, and the queue is not full, or not empty. -/
def State.moveElem (s : State) (t : TRef) : State :=
  match (s.thr t).wait with
  | .push q b g =>
    let x := s.queue t.lid t.wg q
    if b.isEmpty || !s.inTurn t g || cwDepth x.cw ≤ x.elems.length then s
    else (s.tick.updQueue t.lid t.wg q fun x => x.push b s.stamp).updThr t fun th =>
      { th with wait := .push q [] g }
  | .pop q d m g =>
    match (s.queue t.lid t.wg q).elems with
    | [] => s
    | e :: es =>
      if m || !s.inTurn t g then s
      else (s.updQueue t.lid t.wg q fun x => { x with elems := es }).updThr t fun th =>
        { ((bytesToWords e).zipIdx.foldl (fun (th : Thread) w => th.setV (d + w.2) w.1) th) with wait := .pop q d true g }
  | _ => s

/-- The group goes on when every thread has moved its element. -/
def State.groupMoved (s : State) (g : List TRef) : State :=
  if g.all fun t => (s.thr t).wait.moved then
    (g.filter fun t => !(s.thr t).wait.grp.isEmpty).foldl State.finish s
  else s

/-- The element in the run that begins at an operand. -/
def State.element (s : State) (t : TRef) (q : Nat) (o : Operand) : List Byte :=
  (List.range (cwRegs (s.queue t.lid t.wg q).cw)).flatMap fun i =>
    natToBytes 4 ((s.thr t).getV (Operand.vnum o + i)).toNat

def State.queueForm (s : State) (h : Hdr) (q : Nat) (push : Bool) (o : Operand) (field : Nat) (n : Need)
    (wait : List TRef → TRef → State → Wait) : State :=
  s.issue h n fun act s =>
    s.guardFaults (hlen h) h.pred act true (s.queueChk q push field o) fun s =>
      if push && act.any fun t => !(s.copiesOf t).isEmpty then s
      else
        let s := s.retireAll (hlen h) (s.inactive h.pred)
        let s := act.foldl (fun s t => s.park (wait act t s) (hlen h) true t) s
        (act.foldl State.moveElem s).groupMoved act

def execPush (h : Hdr) (q : BitVec 3) (s : State) : Out :=
  .next (s.queueForm h q.toNat true h.a 1 { a := .vregs 1 } fun act t s => .push q.toNat (s.element t q.toNat h.a) act)

def execPop (h : Hdr) (q : BitVec 3) (s : State) : Out :=
  .next (s.queueForm h q.toNat false h.d 0 { d := .vregs 1 } fun act _ _ => .pop q.toNat (Operand.vnum h.d) false act)

/-- A waiting thread moves its element where it can, and its group goes on when all have. -/
def State.queueResume (s : State) (t : TRef) : State :=
  if s.runs t.lid t.wg then (s.moveElem t).groupMoved (s.thr t).wait.grp else s

/-- QUEUE_WAIT_RESUME. -/
def execQueueWaitResume (t : TRef) (s : State) : Out := .next (s.queueResume t)

end Sys2Proof.Machine
end

