-- ==== Sys2Proof/Machine/Div.lean ====
section
/-! DEFINITION. The DIV class (R153 to R158), and arrival at a mask (R154). -/

namespace Sys2Proof.Machine

/-- MIN of a collective form (R156, R159, R311, R321). -/
def collMin : Instr → Nat
  | .shflIdx .. => 0 | .shflUp .. => 1 | .shflDown .. => 2 | .shflXor .. => 3 | .voteAny .. => 4 | .voteAll .. => 5
  | .voteBallot .. => 6 | .redux .. | .reduxSet .. => 7 | .scan .. => 8 | .bcast .. => 9
  | .waitj .. => 2 | .kmovBallot .. => 4 | .mloop .. => 0 | .mgate .. => 4
  | _ => 0x3FF

def misuse (d0 d1 : Nat) (reason : Nat) : Flt := { code := .rendezvousMisuse, d0 := w32 d0, d1 := w32 d1, d2 := w32 reason }

/-- The thread is enrolled in mask k. -/
def State.enrolled (s : State) (k : Nat) (t : TRef) : Bool := (s.mask t k).enr.getLsbD t.lane

/-- Threads whose guard is false and that take no part in an arrival at mask k. -/
def State.idleAt (s : State) (k : Nat) (p : Pred) : List TRef := (s.inactive p).filter fun t => !s.enrolled k t

/-- The fault of a thread of the group that arrives at mask k (R154). (DEDUCED, log entry 35) -/
def State.maskFault (s : State) (k : Nat) (i : Instr) (act : List TRef) (t : TRef) : Option Flt :=
  let m := s.mask t k
  if !m.enr.getLsbD t.lane then (if act.contains t then some (misuse k 0 4) else none)
  else if m.arr = 0 then none
  else match m.rec_ with
    | some r => if r.pc = (s.thr t).pc ∧ collMin r.instr = collMin i then none else some (misuse k r.pc 3)
    | none => none

/-- One thread arrives at mask k and waits. -/
def State.arriveOne (s : State) (k len : Nat) (i : Instr) (act : List TRef) (vals : TRef → State → DWord × DWord)
    (t : TRef) : State :=
  let x := vals t s
  let pc := (s.thr t).pc
  let s := s.updMask t k fun m =>
    let old := match m.rec_ with
      | some r => r
      | none => { pc := pc, instr := i, vals := [] }
    { m with arr := m.arr ||| laneMask [t.lane]
             rec_ := some { old with vals := old.vals ++ [(t.lane, x.1, x.2, act.contains t)] } }
  s.park (.mask k) len true t

/-- A group arrives at mask k: the check over the whole group first; then every enrolled thread arrives, and the mask of
each wave completes if it can (R154, R155). Where a thread of the group faults, the enrolled threads that do not, those whose
guard is false among them, stand at the instruction and issue it again; those that do all carry the fault of the first of them in
slot order. (DEDUCED, log entry 35) -/
def State.arriveMask (s : State) (k len : Nat) (p : Pred) (i : Instr) (act : List TRef)
    (vals : TRef → State → DWord × DWord) : State :=
  let idle := s.idleAt k p
  let bad := s.cur.threads.filterMap fun t => (s.maskFault k i act t).map fun f => (t, f)
  match bad with
  | (_, f) :: _ => (s.retireAll len idle).raise (bad.map Prod.fst) f
  | [] =>
    let parts := s.cur.threads.filter (s.enrolled k)
    let s := s.retireAll len idle
    let s := parts.foldl (fun s t => s.arriveOne k len i act vals t) s
    parts.foldl (fun s t => s.complete t k) s

/-! ## Meanings, R157, R158 -/

def execJoin (h : Hdr) (k : BitVec 4) (s : State) : Out :=
  .next (s.issue h {} fun act s => s.each (hlen h) act fun t s =>
    s.updMask t k.toNat fun m => { m with enr := m.enr ||| laneMask [t.lane] })

def execLeave (h : Hdr) (k : BitVec 4) (s : State) : Out :=
  .next (s.issue h {} fun act s => s.each (hlen h) act fun t s => (s.leaveMask t k.toNat).complete t k.toNat)

/-- WAITJ is a delivery point (R316, R342). -/
def execWaitj (h : Hdr) (k : BitVec 4) (s : State) : Out :=
  .next (s.issueWith h {} (s.idleAt k.toNat h.pred) fun act s =>
    match s.deliver (hlen h) (s.idleAt k.toNat h.pred) act true (fun _ => true) with
    | some s' => s'
    | none => s.arriveMask k.toNat (hlen h) h.pred (.waitj h k) act fun _ _ => (0, 0))

/-- The masks KLO to KHI. -/
def maskRange (klo khi : BitVec 4) : List Nat := (List.range 16).filter fun k => klo.toNat ≤ k && k ≤ khi.toNat

def execBrk (h : Hdr) (klo khi : BitVec 4) (dw : BitVec 24) (s : State) : Out :=
  .next (s.issue h { disps := [4 * dw.toInt] } fun act s =>
    s.eachOwn (hlen h) h.pred act fun t s =>
      let s := (maskRange klo khi).foldl (fun s k => s.leaveMask t k) s
      let s := (maskRange klo khi).foldl (fun s k => s.complete t k) s
      s.transfer (hlen h) (dispTarget (s.thr t) (4 * dw.toInt)) t)

/-- The low W bits. -/
def State.lanes (s : State) (t : TRef) (x : Nat) : DWord := BitVec.ofNat 64 (x % 2 ^ (s.launchOf t).hdr.width)

def execKmovSet (h : Hdr) (k : BitVec 4) (s : State) : Out :=
  .next (s.issue h { a := if tyWide h.ty then .sconstW else .sconst } fun act s =>
    s.each (hlen h) act fun t s =>
      let x := (s.rd t 0 h.lit).rw (tyWide h.ty) h.a
      (s.updMask t k.toNat fun m => { m with enr := s.lanes t x }).complete t k.toNat)

def execKmovBallot (h : Hdr) (k kp : BitVec 4) (pb : BitVec 3) (pbn : Bool) (s : State) : Out :=
  .next (s.issueWith h {} (s.idleAt kp.toNat h.pred) fun act s =>
    s.arriveMask kp.toNat (hlen h) h.pred (.kmovBallot h k kp pb pbn) act fun t s =>
      (if (s.thr t).srcP pb pbn then 1 else 0, 0))

def execKmovRead (h : Hdr) (k : BitVec 4) (s : State) : Out :=
  .next (s.issue h { d := dstK h.ty } fun act s =>
    s.each (hlen h) act fun t s =>
      s.updThr t fun th => th.setD (tyWide h.ty) h.d (s.mask t k.toNat).enr.toNat)

end Sys2Proof.Machine
end

