-- ==== Sys2Proof/Machine/Xln.lean ====
section
/-! DEFINITION. The XLN class (R159 to R163). -/

namespace Sys2Proof.Machine

/-- The kind of a collective destination by the type. -/
def cdstK (ty : Ty) : OpKind := if tyWide ty then .cdstW else .cdst

/-- An XLN form at mask k: it records A and B. -/
def State.xln (s : State) (h : Hdr) (k : BitVec 4) (i : Instr) (n : Need) (vals : Rd → DWord × DWord) : State :=
  s.issueWith h n (s.idleAt k.toNat h.pred) fun act s => s.arriveMask k.toNat (hlen h) h.pred i act fun t s => vals (s.rd t 0 h.lit)

/-- A as the type has it, and B as 32 bits. -/
def valsAB (h : Hdr) (b : Bool) (r : Rd) : DWord × DWord :=
  (BitVec.ofNat 64 (r.rw (tyWide h.ty) h.a), if b then (r.r32 h.b).setWidth 64 else 0)

def shflNeed (h : Hdr) : Need := { d := dstK h.ty, a := srcK h.ty, b := .src }

def execShflIdx (h : Hdr) (k : BitVec 4) (own : Bool) (s : State) : Out :=
  .next (s.xln h k (.shflIdx h k own) (shflNeed h) (valsAB h true))
def execShflUp (h : Hdr) (k : BitVec 4) (own : Bool) (s : State) : Out :=
  .next (s.xln h k (.shflUp h k own) (shflNeed h) (valsAB h true))
def execShflDown (h : Hdr) (k : BitVec 4) (own : Bool) (s : State) : Out :=
  .next (s.xln h k (.shflDown h k own) (shflNeed h) (valsAB h true))
def execShflXor (h : Hdr) (k : BitVec 4) (own : Bool) (s : State) : Out :=
  .next (s.xln h k (.shflXor h k own) (shflNeed h) (valsAB h true))

/-- A vote records the predicate as 0 or 1. -/
def valsVote (pv : BitVec 3) (pvn : Bool) (r : Rd) : DWord × DWord := (if r.th.srcP pv pvn then 1 else 0, 0)

def execVoteAny (h : Hdr) (k : BitVec 4) (pv : BitVec 3) (pvn : Bool) (pd : BitVec 3) (s : State) : Out :=
  .next (s.xln h k (.voteAny h k pv pvn pd) {} (valsVote pv pvn))
def execVoteAll (h : Hdr) (k : BitVec 4) (pv : BitVec 3) (pvn : Bool) (pd : BitVec 3) (s : State) : Out :=
  .next (s.xln h k (.voteAll h k pv pvn pd) {} (valsVote pv pvn))
def execVoteBallot (h : Hdr) (k : BitVec 4) (pv : BitVec 3) (pvn : Bool) (s : State) : Out :=
  .next (s.xln h k (.voteBallot h k pv pvn) { d := cdstK h.ty } (valsVote pv pvn))

def execRedux (h : Hdr) (k : BitVec 4) (op : XOp) (s : State) : Out :=
  .next (s.xln h k (.redux h k op) { d := cdstK h.ty, a := srcK h.ty, feat := f64Feat h.ty } (valsAB h false))
def execScan (h : Hdr) (k : BitVec 4) (op : XOp) (excl : Bool) (s : State) : Out :=
  .next (s.xln h k (.scan h k op excl) { d := dstK h.ty, a := srcK h.ty, feat := f64Feat h.ty } (valsAB h false))
def execBcast (h : Hdr) (k : BitVec 4) (own : Bool) (s : State) : Out :=
  .next (s.xln h k (.bcast h k own) { d := cdstK h.ty, a := srcK h.ty, b := .src } (valsAB h true))

/-! ## Sets, R162 -/

/-- The set of a thread's unit is empty: no member wave is named (R147). -/
def State.setEmpty (s : State) (set : Nat) (t : TRef) : Bool := ((tget (s.launchOf t).sets set).getD []).isEmpty

/-- The thread's wave is a member of a set of its unit. -/
def State.inSet (s : State) (set : Nat) (t : TRef) : Bool :=
  (s.setWaves t.lid (s.wgOf t).inst set).any fun m => m.1 == t.wg && m.2 == t.wave

/-- Threads whose guard is false and that are no members of the set that they name: they take no part in its collective. -/
def State.idleIn (s : State) (setOf : TRef → Nat) (p : Pred) : List TRef := (s.inactive p).filter fun t => !s.inSet (setOf t) t

/-- The active threads stop where the set that they name admits no arrival: ILLEGAL_OPERAND on the set operand (R147). -/
def State.guardSet (s : State) (h : Hdr) (idle : List TRef) (field : Nat) (o : Operand) (bad : TRef → Bool) (act : List TRef)
    (k : State → State) : State :=
  match act.filter bad with
  | [] => k s
  | e => s.stopWith (hlen h) h.pred idle e (s.operandFlt field o)

/-- The fault of a thread that arrives at the collective of a set (R154, R162, R312, R322). -/
def State.setFault (s : State) (set : Nat) (i : Instr) (act : List TRef) (t : TRef) : Option Flt :=
  let q := s.setSt t.lid (s.wgOf t).inst set
  if !s.inSet set t then (if act.contains t then some (misuse set 0 5) else none)
  else match q.instr with
    | some j => if q.pc = (s.thr t).pc ∧ collMin j = collMin i then none else some (misuse set q.pc 3)
    | none => none

/-- One thread arrives at the collective of a set and waits. -/
def State.arriveSetOne (s : State) (set len : Nat) (w : Wait) (i : Instr) (act : List TRef)
    (vals : TRef → State → DWord × DWord) (t : TRef) : State :=
  let x := vals t s
  let pc := (s.thr t).pc
  let s := s.updSet t.lid (s.wgOf t).inst set fun q =>
    { q with
      pc := if q.instr.isSome then q.pc else pc
      instr := some (q.instr.getD i)
      arr := q.arr ++ [{ thread := t, pred := act.contains t, a := x.1, b := x.2 }] }
  s.park w len true t

/-- A group arrives at the collectives of sets, as R154 gives for a mask: the check over the whole group first. Threads
whose guard is false and that are no members take no part. -/
def State.arriveSet (s : State) (setOf : TRef → Nat) (len : Nat) (p : Pred) (w : Nat → Wait) (i : Instr) (act : List TRef)
    (vals : TRef → State → DWord × DWord) (k : State → State) : State :=
  let idle := s.idleIn setOf p
  let bad := s.cur.threads.filterMap fun t => (s.setFault (setOf t) i act t).map fun f => (t, f)
  match bad with
  | (_, f) :: _ => (s.retireAll len idle).raise (bad.map Prod.fst) f
  | [] =>
    let parts := s.cur.threads.filter fun t => s.inSet (setOf t) t
    let s := s.retireAll len idle
    k (parts.foldl (fun s t => s.arriveSetOne (setOf t) len (w (setOf t)) i act vals t) s)

/-- The units of the group's threads. -/
def State.unitsOf (s : State) (ts : List TRef) : List (Nat × Nat) := (ts.map fun t => (t.lid, (s.wgOf t).inst)).eraseDups

def execReduxSet (h : Hdr) (set : BitVec 8) (op : XOp) (s : State) : Out :=
  .next (s.issueWith h { d := cdstK h.ty, a := srcK h.ty, feat := f64Feat h.ty } (s.idleIn (fun _ => set.toNat) h.pred) fun act s =>
    s.guardSet h (s.idleIn (fun _ => set.toNat) h.pred) 1 h.a (s.setEmpty set.toNat) act fun s =>
      s.arriveSet (fun _ => set.toNat) (hlen h) h.pred .setRedux (.reduxSet h set op) act
        (fun t s => valsAB h false (s.rd t 0 h.lit)) fun s =>
          (s.unitsOf s.cur.threads).foldl (fun s u => s.completeSet u.1 u.2 set.toNat) s)

end Sys2Proof.Machine
end

