-- ==== Sys2Proof/Machine/Syn.lean ====
section
/-! DEFINITION. The SYN class (R164 to R169): barriers and rendezvous points, with WATCHDOG_RENDEZVOUS (R168, R357). -/

namespace Sys2Proof.Machine

/-! ## Barriers, R165 -/

def phScope (ph : Bool) (scp : Scp) : Option Scp := if ph then some scp else none

/-- A synchronising operation under R268 where it has `.phase`. -/
def State.orderedIf (s : State) (ph : Bool) (act : List TRef) (k : State → State) : State :=
  if ph then s.ordered act false k else k s

/-- A TMOV, TLOAD or TSTORE of one of the workgroups runs on (R233). -/
def State.copying (s : State) (wgs : List (Nat × Nat)) : Bool :=
  (s.moves.any fun m => wgs.contains (m.thread.lid, m.thread.wg)) || s.tileOps.any fun x => wgs.contains (x.1, x.2.1)

def execBar (h : Hdr) (ph : Bool) (scp : Scp) (s : State) : Out :=
  .next (s.issue h {} fun act s =>
    match s.deliver (hlen h) (s.inactive h.pred) act true (fun _ => true) with
    | some s' => s'
    | none => if s.copying (wgsOf act) then s else s.orderedIf ph act fun s =>
      let s := s.retireAll (hlen h) (s.inactive h.pred)
      let s := act.foldl (fun s t => (s.park .bar (hlen h) true t).updWg t.lid t.wg fun g =>
        { g with bar := g.bar ++ [(t, phScope ph scp)] }) s
      (wgsOf act).foldl (fun s g => s.checkBar g.1 g.2) s).settle

/-- SBAR. The fault of an empty set names field A. (DESIGN CHOICE, log entry 63) -/
def execSbar (h : Hdr) (set : BitVec 8) (ph : Bool) (scp : Scp) (s : State) : Out :=
  .next (s.issue h {} fun act s =>
    s.guardSet h (s.inactive h.pred) 1 h.a (s.setEmpty set.toNat) act fun s =>
      match s.deliver (hlen h) (s.inactive h.pred) act true (fun _ => true) with
      | some s' => s'
      | none =>
        s.guardFaults (hlen h) h.pred act true
          (fun t => if s.inSet set.toNat t then none else some (0, misuse set.toNat 0 5)) fun s =>
          if s.copying (wgsOf act) then s else s.orderedIf ph act fun s =>
            let s := s.retireAll (hlen h) (s.inactive h.pred)
            let s := act.foldl (fun s t =>
              (s.park (.sbar set.toNat) (hlen h) true t).updSet t.lid (s.wgOf t).inst set.toNat fun q =>
                { q with sbar := q.sbar ++ [(t, phScope ph scp)] }) s
            (s.unitsOf act).foldl (fun s u => s.checkSbar u.1 u.2 set.toNat) s).settle

/-! ## Rendezvous points, R166, R167 -/

/-- The point that a thread names, of its gang or workgroup (R145). -/
def State.point (s : State) (t : TRef) (pt : Nat) : Point := vget (s.inst t.lid (s.wgOf t).inst).points {} pt

def State.updPoint (s : State) (t : TRef) (pt : Nat) (f : Point → Point) : State :=
  s.updInst t.lid (s.wgOf t).inst fun x => { x with points := vupd x.points pt f }

/-- A point's parity has turned away from `par`. -/
def Point.turned (p : Point) (par : Bool) : Bool := p.init && p.par != par

/-- The acquire of an RWAIT, and its end. -/
def State.rwaitEnd (s : State) (ph : Bool) (scp : Scp) (t : TRef) : State :=
  (if ph then s.acquire t.lid t.wg scp else s).finish t

/-- Threads of the unit whose wait at a point has ended go on. -/
def State.wakePoint (s : State) (u : TRef) (pt : Nat) : State :=
  (s.unitLive u).foldl (fun s t => match (s.thr t).wait with
    | .rwait q par ph scp => if q = pt ∧ (s.point t pt).turned par then s.rwaitEnd ph scp t else s
    | .rtest q par pd =>
      if q = pt ∧ (s.point t pt).turned par then (s.updThr t fun th => th.setP pd true).finish t else s
    | _ => s) s

/-- One arrival: D takes the parity of the phase in progress; the last arrival turns it. The watchdog starts again. -/
def State.arrive (s : State) (pt : Nat) (d : Operand) (t : TRef) : State :=
  let p := s.point t pt
  let s := s.updThr t fun th => th.setD false d (b2n p.par)
  let last := p.arrived + 1 = p.count
  let s := s.updPoint t pt fun p =>
    { p with arrived := if last then 0 else p.arrived + 1, par := if last then !p.par else p.par, wd := 0 }
  if last then s.wakePoint t pt else s

/-- The key (c, j, %tid) of R268 and R360. -/
def State.detKey (s : State) (t : TRef) : Nat × Nat × Nat := ((s.thr t).icount, (s.wgOf t).pos, s.tid t)

def keyLt (a b : Nat × Nat × Nat) : Bool :=
  a.1 < b.1 || (a.1 == b.1 && (a.2.1 < b.2.1 || (a.2.1 == b.2.1 && a.2.2 < b.2.2)))

/-- The arrivals held for INIT at a point are performed: in slot order (R167), or under deterministic operation in increasing key
(R268). -/
def State.performHeld (s : State) (u : TRef) (pt : Nat) : State :=
  let key (t : TRef) : Nat × Nat × Nat := if (s.launchOf u).det = 0 then (0, (s.wgOf t).pos, s.tid t) else s.detKey t
  let held := sortBy (fun a b => keyLt (key a) (key b)) ((s.unitLive u).filter fun t =>
    match (s.thr t).wait with
    | .rarrive q _ => q == pt
    | _ => false)
  held.foldl (fun s t => match (s.thr t).wait with
    | .rarrive _ d => (s.arrive pt d t).finish t
    | _ => s) s

/-- RINIT takes effect, which ends the waits for INIT of RWAIT; the held arrivals follow in the same step. (DEDUCED, log entry 34) -/
def execRinit (h : Hdr) (pt : BitVec 5) (s : State) : Out :=
  .next (s.issue h { feat := some 8, a := .src } fun act s =>
    let n := pt.toNat
    let count (t : TRef) : Nat := ((s.rd t 0 h.lit).r32 h.a).toNat
    let peers (t : TRef) : Nat := (act.filter fun u => u.lid == t.lid && (s.wgOf u).inst == (s.wgOf t).inst).length
    s.guardFaults (hlen h) h.pred act true
      (fun t =>
        if (s.point t n).init || 1 < peers t then some (0, misuse n 0 1)
        else if count t = 0 || 4096 < count t then some (1, misuse n 0 2)
        else none) fun s =>
      let s := act.foldl (fun s t =>
        let s := s.updPoint t n fun p => { p with count := count t, init := true, arrived := 0 }
        (s.wakePoint t n).performHeld t n) s
      (s.retireAll (hlen h) (s.inactive h.pred)).retireBoundAll (hlen h) act).settle

def execRarrive (h : Hdr) (pt : BitVec 5) (ph : Bool) (scp : Scp) (s : State) : Out :=
  .next (s.issue h { feat := some 8, d := .dst } fun act s =>
    s.orderedIf ph act fun s =>
      let s := if ph && !act.isEmpty then s.relAll act scp else s
      let s := s.retireAll (hlen h) (s.inactive h.pred)
      act.foldl (fun s t =>
        if (s.point t pt.toNat).init then (s.arrive pt.toNat h.d t).retireBound (hlen h) t
        else s.park (.rarrive pt.toNat h.d) (hlen h) true t) s).settle

def execRwait (h : Hdr) (pt : BitVec 5) (ph : Bool) (scp : Scp) (s : State) : Out :=
  .next (s.issue h { feat := some 8, a := .src } fun act s =>
    match s.deliver (hlen h) (s.inactive h.pred) act true (fun _ => true) with
    | some s' => s'
    | none => s.orderedIf ph act fun s =>
      let s := s.retireAll (hlen h) (s.inactive h.pred)
      act.foldl (fun s t =>
        let par := ((s.rd t 0 h.lit).r32 h.a).getLsbD 0
        let turned := (s.point t pt.toNat).turned par
        let s := s.park (.rwait pt.toNat par ph scp) (hlen h) true t
        if turned then s.rwaitEnd ph scp t else s) s).settle

/-- RTEST never waits, but in deterministic scheduling mode it waits as RWAIT does and then writes 1 (R275). -/
def execRtest (h : Hdr) (pt : BitVec 5) (pd : BitVec 3) (s : State) : Out :=
  .next (s.issue h { feat := some 8, a := .src } fun act s =>
    let s := s.retireAll (hlen h) (s.inactive h.pred)
    act.foldl (fun s t =>
      let par := ((s.rd t 0 h.lit).r32 h.a).getLsbD 0
      let turned := (s.point t pt.toNat).turned par
      if (s.launchOf t).det = 2 && !turned then s.park (.rtest pt.toNat par pd.toNat) (hlen h) false t
      else (s.updThr t fun th => th.setP pd.toNat turned).retire (hlen h) t) s)

/-! ## WATCHDOG_RENDEZVOUS, R168, R357 -/

/-- The thread waits at a point. -/
def Wait.atPoint (pt : Nat) : Wait → Bool
  | .rwait q .. => q == pt
  | .rtest q .. => q == pt
  | .rarrive q _ => q == pt
  | _ => false

/-- A trap entry of the thread waits for a free slot of its context (R335). -/
def State.slotWait (s : State) (t : TRef) : Bool :=
  (s.thr t).trap.isSome && (s.thr t).level == 0 && (s.ctx (s.ctxOf t)).freeSlot.isNone

/-- The state code of a thread (R168); `slot` says that its trap entry waits for a slot. (DESIGN CHOICE, log entry 126) -/
def Thread.stateCode (th : Thread) (slot : Bool) : Nat :=
  if th.ended then 6
  else if th.halted then 5
  else if slot then 4
  else match th.wait with
    | .none | .turn | .walk _ | .shadow _ => 0
    | .rwait .. | .rtest .. | .rarrive .. => 1
    | .mask _ | .setRedux _ | .mma _ => 2
    | .bar | .sbar _ => 3
    | _ => 4

/-- The wave entries of a point's trap: one for each wave of the unit with no thread waiting at the point. -/
def State.waveEntries (s : State) (lid inst pt : Nat) : List WaveEntry :=
  (s.inst lid inst).members.flatMap fun m =>
    (List.range (s.launch lid).waves).filterMap fun v =>
      let ts := (s.wgThreads lid m).filter fun t => t.wave = v
      if ts.any fun t => (s.thr t).wait.atPoint pt then none
      else
        let live := ts.filter s.live
        let l0 : TRef := { lid := lid, wg := m, wave := v, lane := 0 }
        let low (l : List TRef) : TRef := (sortBy (fun (a b : TRef) => a.lane < b.lane) l).headD l0
        let t := if live.isEmpty then l0 else low live
        some { name := t, tid := s.tid t, pc := if live.isEmpty then (s.thr t).endPc else (s.thr t).pc,
               state := (s.thr t).stateCode (s.slotWait t), live := live.length }

/-- The record that each thread waiting at the point receives. -/
def State.watchdogRec (s : State) (lid inst pt : Nat) : TrapRec :=
  let p := vget (s.inst lid inst).points {} pt
  let es := s.waveEntries lid inst pt
  { code := .watchdogRendezvous, asy := true, det0 := w32 (pt + p.count * 2 ^ 8)
    det1 := w32 (p.arrived + b2n p.par * 2 ^ 13 + b2n p.init * 2 ^ 14), det2 := w32 es.length, entries := es }

/-- The threads of a unit that wait at a point. -/
def State.waitersAt (s : State) (lid inst pt : Nat) : List TRef :=
  ((s.inst lid inst).members.flatMap fun m => s.wgLive lid m).filter fun t => (s.thr t).wait.atPoint pt

/-- The watchdog of a point is due: its count has reached the context's period. -/
def State.watchdogDue (s : State) (lid inst pt : Nat) : Bool :=
  2 ^ (s.ctx (s.launch lid).ctx).twd ≤ (vget (s.inst lid inst).points {} pt).wd && !(s.waitersAt lid inst pt).isEmpty

def execWatchdogRendezvous (lid inst pt : Nat) (s : State) : Out :=
  .next (
    if s.watchdogDue lid inst pt then
      let r := s.watchdogRec lid inst pt
      let s' := (s.waitersAt lid inst pt).foldl (fun s t =>
        (s.abandonWait t).updThr t fun th => { th with async := some r }) s
      s'.updInst lid inst fun x => { x with points := vupd x.points pt fun p => { p with wd := 0 } }
    else s)

end Sys2Proof.Machine
end

