-- ==== Sys2Proof/Machine/Eng.lean ====
section
/-! DEFINITION. The ENG class (R290 to R297, R302 to R304), GWAIT_RETURN, and the walker's work: signals, firing and
finishing of nodes (R293 to R295), publication (R201, R260, R304). -/

namespace Sys2Proof.Machine

/-! ## Nodes, R290 to R292 -/

def descKind (d : List Word) : Nat := (d.getD 0 0).toNat % 2 ^ 4
def descSuccs (d : List Word) : Nat := (d.getD 0 0).toNat / 2 ^ 8 % 2 ^ 3
def descEng (d : List Word) : Nat := (d.getD 0 0).toNat / 2 ^ 12 % 2 ^ 4
def descInit (d : List Word) : Nat := (d.getD 0 0).toNat / 2 ^ 16
def descSucc (d : List Word) (k : Nat) : Word := d.getD (2 + k) 0
/-- Word k of the payload. -/
def descPay (d : List Word) (k : Nat) : Word := d.getD (8 + k) 0
def descAddr (d : List Word) : DWord := join64 (descPay d 0) (descPay d 1)

/-- Words of the payload from the k-th on are zero. -/
def payZero (d : List Word) (k : Nat) : Bool := (d.drop (8 + k)).all fun w => w == 0

/-- A descriptor obeys R291 and R292, and its successors are live. -/
def State.descOk (s : State) (t : TRef) (d : List Word) : Bool :=
  let w := (d.getD 0 0).toNat
  let die := s.die (s.wgOf t).die
  let ctx := s.ctxOf t
  let n := descSuccs d
  let p := fun k => (descPay d k).toNat
  w / 2 ^ 4 % 2 ^ 4 == 0 && w / 2 ^ 11 % 2 == 0 && n ≤ 6 && d.getD 1 0 == 0 &&
    ((List.range 6).all fun k => if k < n then (die.node? ctx (descSucc d k)).isSome else descSucc d k == 0) &&
    (match descKind d with
    | 0 => descEng d == 0 && payZero d 0
    | 1 => descEng d ≤ 7 && p 0 % 64 == 0 && payZero d 2
    | 2 => descEng d == 0 && payZero d 4 &&
      match tget s.launches (descAddr d).toNat with
      | some l => l.ctx == ctx && l.kind == .task && p 2 % 4 == 0 && p 2 < l.hdr.codesz
      | none => false
    | 3 => descEng d ≤ 1 && p 0 % 64 == 0 && payZero d 2 && s.hasFeat t 7
    | 4 => descEng d == 0 && payZero d 1
    | 5 => descEng d == 0 && p 0 % 32 == 0 && p 4 / 2 ^ 12 == 0 && payZero d 5
    | _ => false)

/-- The lowest free node index of a context on a die. -/
def Die.freeNode (d : Die) (ctx : Nat) : Option Nat :=
  let used := (d.nodes.filter fun n => n.1.1 == ctx).map fun n => n.1.2
  if 65536 ≤ used.length then none else (List.range (used.length + 1)).find? fun i => !used.contains i

def nodeId (idx gen : Nat) : Word := w32 (idx + gen * 2 ^ 16)

def State.updNode (s : State) (die ctx idx : Nat) (f : Node → Node) : State :=
  s.updDie die fun d => { d with nodes := tupd d.nodes (ctx, idx) f }

/-! ## Command records, R298, R306 -/

def cbits (r : List Word) (w lo n : Nat) : Nat := (r.getD w 0).toNat / 2 ^ lo % 2 ^ n
def cOp (r : List Word) : Nat := cbits r 0 0 4
def cSk (r : List Word) : Nat := cbits r 0 4 4
def cDk (r : List Word) : Nat := cbits r 0 8 4
def cRty (r : List Word) : Nat := cbits r 0 12 2
def cPeer (r : List Word) : Nat := cbits r 0 16 8
def cSrc (r : List Word) : DWord := pair64 r 2
def cDst (r : List Word) : DWord := pair64 r 4
def cLen (r : List Word) : Nat := (r.getD 6 0).toNat
def cRows (r : List Word) : Nat := cbits r 7 0 16
def cPlanes (r : List Word) : Nat := cbits r 7 16 16
def cIdx (r : List Word) : DWord := pair64 r 12

/-- Bytes of a gather element and of a reduce-add element. -/
def cGesz (r : List Word) : Nat :=
  match cbits r 0 14 2 with
  | 0 => 4 | 1 => 8 | 2 => 16 | _ => 64

def cElem (r : List Word) : Nat := if cRty r = 3 then 2 else 4

/-- A row pitch or a plane pitch that the command uses: word k, for rows or for planes. -/
def cPitch (r : List Word) (k : Nat) (plane : Bool) : Nat :=
  if (if plane then cOp r == 2 else cOp r == 1 || cOp r == 2) then (r.getD k 0).toNat else 0

/-- BAD_RECORD (R299). (DEDUCED, log entries 69 and 70) -/
def copyBad (r : List Word) : Bool :=
  let op := cOp r
  let scratch (k : Nat) : Bool := 1 ≤ k && k ≤ 3
  5 ≤ op || 5 ≤ cSk r || 5 ≤ cDk r || cbits r 0 24 8 ≠ 0 || r.getD 14 0 != 0 || r.getD 15 0 != 0 || cLen r = 0 ||
    cRows r = 0 || cPlanes r = 0 || (cRows r ≠ 1 && op ≠ 1 && op ≠ 2) || (cPlanes r ≠ 1 && op ≠ 2) ||
    (cIdx r).toNat % 4 ≠ 0 || (op = 3 && cLen r % cGesz r ≠ 0) ||
    (op = 4 && ((cSrc r).toNat % cElem r ≠ 0 || (cDst r).toNat % cElem r ≠ 0 || cLen r % cElem r ≠ 0)) ||
    ((op = 3 || op = 4) && 2 < cSk r) || (op = 4 && 2 < cDk r) || (op ≠ 0 && (cSk r = 4 || cDk r = 4)) ||
    (scratch (cSk r) && (cPitch r 8 false ≠ 0 || cPitch r 9 true ≠ 0)) ||
    (scratch (cDk r) && (cPitch r 10 false ≠ 0 || cPitch r 11 true ≠ 0))

def eOp (r : List Word) : Nat := cbits r 0 0 4
def eSes (r : List Word) : Nat := cbits r 0 4 2
def eKey (r : List Word) : Bool := cbits r 0 6 1 == 1
def eWnode (r : List Word) : Word := r.getD 2 0xFFFFFFFF
def eW (r : List Word) : Nat := cbits r 3 0 16
def eH (r : List Word) : Nat := cbits r 3 16 16
def eLuma (r : List Word) : Nat := (pair64 r 4).toNat
def eChroma (r : List Word) : Nat := (pair64 r 6).toNat
def ePitch (r : List Word) : Nat := (r.getD 8 0).toNat
def eOut (r : List Word) : Nat := (pair64 r 9).toNat
def eOcap (r : List Word) : Nat := (r.getD 11 0).toNat
def eStat (r : List Word) : Nat := (pair64 r 12).toNat

/-- A configure command's fields break R306: unnamed bits of its range, or a value not allowed. -/
def configureBad (r : List Word) : Bool :=
  cbits r 4 2 6 ≠ 0 || cbits r 4 18 14 ≠ 0 || cbits r 5 16 16 ≠ 0 || cbits r 8 16 16 ≠ 0 || eW r % 8 ≠ 0 || eW r < 64 ||
    3840 < eW r || eH r % 8 ≠ 0 || eH r < 64 || 2160 < eH r || cbits r 4 8 8 = 0 || 60 < cbits r 4 8 8 || 2 < cbits r 4 16 2

/-- BAD_RECORD of a record by itself. -/
def encodeBad (r : List Word) : Bool :=
  2 < eOp r || cbits r 0 7 25 ≠ 0 || r.getD 14 0 != 0 || r.getD 15 0 != 0 || (eOp r = 0 && configureBad r) ||
    (eOp r = 2 && (List.range 5).any fun k => r.getD (4 + k) 0 != 0)

/-! ## Shadows that commands write, R260, R302 -/

/-- The rows of global memory that a copy command writes: address and length. -/
def copyRows (r : List Word) : List (Nat × Nat) :=
  if cDk r ≠ 0 || copyBad r then []
  else (List.range (cPlanes r)).flatMap fun p => (List.range (cRows r)).map fun k =>
    (((cDst r).toNat + p * cPitch r 11 true + k * cPitch r 10 false) % 2 ^ 64, cLen r)

/-- The ranges that an encode command may write: its unit and its status record. -/
def encodeRows (r : List Word) : List (Nat × Nat) :=
  (if eOp r = 1 && !encodeBad r then [(eOut r, eOcap r)] else []) ++
    if 1 < eOp r || eStat r = 0 then [] else [(eStat r, 16)]

/-- The entries of a context on a die in whose shadow some of the ranges lie: in the published range, which a destination
names it by (R299), or at the shadow's own address. -/
def Die.shadowHits (d : Die) (ctx : Nat) (rows : List (Nat × Nat)) : List Nat :=
  (d.pubs.filter fun p => p.2.ctx == ctx && rows.any fun x =>
    overlaps x.1 x.2 p.2.pub.toNat p.2.size || overlaps x.1 x.2 (p.2.ver (!p.2.cur)) p.2.size).map Prod.fst

/-- Records that no engine has started, of a context on a die: issued by nodes and packets, or still in a queue. -/
def State.idleRecs (s : State) (die ctx : Nat) (copy : Bool) : List (List Word) :=
  let d := s.die die
  let issued := (if copy then d.copyQ.toList.flatten else d.encQ.toList.flatten).filter fun c => c.ctx == ctx && !c.started
  issued.map Cmd.rec_ ++ (s.wgs.filter fun g => g.2.die == die && (s.launch g.1.1).ctx == ctx).flatMap fun g =>
    (g.2.q.toList.filter fun q => cwEpk q.cw == if copy then 2 else 3).flatMap fun q => q.elems.map bytesToWords

/-- A command that has not started will write the shadow of an entry. -/
def State.shadowDue (s : State) (die i : Nat) (e : PubEnt) : Bool :=
  ((s.idleRecs die e.ctx true).any fun r => ((s.die die).shadowHits e.ctx (copyRows r)).contains i) ||
    (s.idleRecs die e.ctx false).any fun r => ((s.die die).shadowHits e.ctx (encodeRows r)).contains i

/-! ## What an agent without staging reads and writes, R255, R258 -/

/-- An acquire that an agent makes now: its last one from now on. -/
def State.acqBy (s : State) (by_ : AgentAt) (scope : Scp) : Acq × State :=
  let s := s.tick
  let a : Acq := { by_ := by_, scope := scope, stamp := s.stamp }
  (a, { s.logSyncBy by_ false scope 0 with agentAcq := tset s.agentAcq by_.ag a }.tick)

/-- Bytes of a context's memory that an agent reads under an acquire; `start` is where its launch started in the order (R254). -/
def State.agentRead (s : State) (start ctx : Nat) (a : Acq) (va n : Nat) : Except FaultCode (List Byte × State) :=
  match s.trRange ctx false va n with
  | .error c => .error c
  | .ok ls => .ok (s.readPieces [] a none { stamp := s.stamp, seq := s.nextSeq, start := start } ctx (pieces ls))

/-- A piece of global memory is written by an engine: it enters the order, unreleased (R258). -/
def State.engEnter (s : State) (by_ : AgentAt) (ctx : Nat) (bs : List (Nat × Byte)) : Nat × State :=
  let seq := s.nextSeq
  let s := s.tick
  (seq, (s.enter by_ none 0 [] false bs).tagKeys (s.keyFor ctx ((bs.map Prod.fst).headD 0)) (bs.map Prod.fst))

/-- Writes of an engine or of the walker are released: each carries the release from now on, and so does what was guaranteed to
the agent at its last acquire, whichever of its commands made that (R254, R258). -/
def State.engRelease (s : State) (by_ : AgentAt) (scope : Scp) (seqs : List Nat) : State :=
  let s := s.tick
  let p : Pub := { by_ := by_, scope := scope, stamp := s.stamp }
  let sure (w : WriteRec) : Bool := (tget s.agentAcq by_.ag).any fun a => guaranteed w a
  ({ s with order := s.order.map fun (w : WriteRec) =>
      if seqs.contains w.seq || sure w then { w with pubs := w.pubs ++ [p] } else w }.logSyncBy by_ true scope s.stamp).tick

/-- A write of an agent, released by it at a scope at once, with all that was guaranteed to it. -/
def State.agentWrite (s : State) (by_ : AgentAt) (scope : Scp) (ctx va : Nat) (bytes : List Byte) :
    Except FaultCode State :=
  match s.trRange ctx true va bytes.length with
  | .error c => .error c
  | .ok ls =>
    let (seqs, s) := (pieces ls).foldl (fun (x : List Nat × Nat × State) p =>
      let (seq, s) := x.2.2.engEnter by_ ctx (p.zip (bytes.drop x.2.1))
      (x.1 ++ [seq], x.2.1 + p.length, s)) ([], 0, s) |> fun x => (x.1, x.2.2)
    .ok (s.engRelease by_ scope seqs)

/-- Status codes of R289 for a failing translation. -/
def trStatus : FaultCode → Nat
  | .protection => 2
  | _ => 1

/-! ## Publication, R201, R260, R304 -/

/-- The header that the queue unit writes at the swap of a program's iterate entry: GEN + 1, MAXRES and ISEQ (R201). -/
def State.swapHeader (s : State) (die : Nat) (e : PubEnt) : State :=
  match (e.prog.bind s.prog).filter fun p => p.state != 2 with
  | none => s
  | some p =>
    let iseq := ((p.dies.find? fun d => d.die == die).map ProgDie.iseq).getD 0
    let gen := match s.readVa e.ctx (e.ver e.cur) 4 with
      | .ok b => bytesToNat b
      | .error _ => 0
    s.fwWriteVa .module e.ctx (e.ver (!e.cur))
      (natToBytes 4 (gen + 1) ++ natToBytes 4 p.maxRes.toNat ++ natToBytes 8 iseq.toNat)

/-- The swap includes the writes to the shadow whose releases have completed: whoever reads the published range from now on has
them (R259). -/
def State.markSwapped (s : State) (e : PubEnt) : State :=
  let pages := (List.range (e.size / 65536)).filterMap fun k =>
    match s.walkTable e.ctx ((e.ver (!e.cur)) / 65536 + k) with
    | .hit t => some (t.loc (e.ver (!e.cur) / 65536 * 65536 + k * 65536) / 65536)
    | .fault _ => none
  { s with order := s.order.map fun (w : WriteRec) =>
      if w.swapped.isNone && !w.pubs.isEmpty && w.bytes.any fun b => pages.contains (b.1 / 65536) then
        { w with swapped := some s.stamp } else w }.tick

/-- The swap of an entry. -/
def State.swap (s : State) (die i : Nat) : State :=
  match tget (s.die die).pubs i with
  | none => s
  | some e =>
    ((s.swapHeader die e).markSwapped e).updDie die fun d =>
      { d with pubs := tupd d.pubs i fun e => { e with cur := !e.cur, swaps := e.swaps + 1 } }

/-- PUBLISH_CONFLICT. -/
def pubFlt (d0 : Word) (reason : Nat) : Flt := { code := .publishConflict, d0 := d0, d2 := w32 reason }

/-- An engine command that writes the shadow has not finished: one that has started (WCMD), or one that has not (R260). -/
def State.shadowBusy (s : State) (die i : Nat) (e : PubEnt) : Bool := e.wcmd != 0 || s.shadowDue die i e

/-- What stops a swap now: a command that writes the shadow, or another PUBLISH. -/
def State.conflict (s : State) (die i : Nat) (e : PubEnt) : Option Nat :=
  if s.shadowBusy die i e then some 1 else if e.busy then some 2 else none

/-! ## Firing, R293, R294 -/

def walkerAt (die : Nat) : AgentAt := { ag := .walker die, die := some die, clu := none }

/-- The record of a COPY or ENCODE node, read as the node fires, goes to its engine. -/
def State.issueNode (s : State) (die ctx idx : Nat) (n : Node) : State :=
  let (a, s) := s.acqBy (walkerAt die) .module
  match s.agentRead (s.launch n.creator).acceptSeq ctx a (descAddr n.desc).toNat 64 with
  | .error c => s.updNode die ctx idx fun n => { n with workDone := some (trStatus c) }
  | .ok (b, s) =>
    let c : Cmd := { rec_ := bytesToWords b, ctx := ctx, lid := some n.creator, wg := some n.cwg
                     node := some (nodeId idx n.gen), fromNode := true, stamp := s.stamp }
    s.tick.updDie die fun d =>
      if descKind n.desc = 1 then { d with copyQ := vupd d.copyQ (descEng n.desc) fun q => q ++ [c] }
      else { d with encQ := vupd d.encQ (descEng n.desc) fun q => q ++ [c] }

/-- The task of a TASK node. A launch that is ending with TASK_LIMIT or JOURNAL_FULL, or comes to its limit with this task, runs it
no more: the node ends as one that names no running launch. (DESIGN CHOICE, log entry 147) -/
def State.taskNode (s : State) (die ctx idx : Nat) (n : Node) : State :=
  let lid := (descAddr n.desc).toNat
  let l := s.launch lid
  if (tget s.launches lid).isNone || l.ctx ≠ ctx || l.kind ≠ .task || l.ended then
    s.updNode die ctx idx fun n => { n with workDone := some 11 }
  else
    let s := s.makeTasks lid 1 fun _ =>
      { idx := 0, entry := (descPay n.desc 2).toNat, v0 := descPay n.desc 3, nodeWork := some (die, nodeId idx n.gen) }
    if l.journalFull || (s.launch lid).limited then s.updNode die ctx idx fun n => { n with workDone := some 11 } else s

/-- The completion record of a HOST node (R294), and its interrupt. -/
def State.hostNode (s : State) (die ctx idx : Nat) (n : Node) (status : Nat) : State :=
  let bytes := natToBytes 8 (join64 (descPay n.desc 2) (descPay n.desc 3)).toNat ++ natToBytes 4 (nodeId idx n.gen).toNat ++
    natToBytes 4 status ++ natToBytes 8 s.now.toNat ++ natToBytes 8 0
  let x := (descPay n.desc 4).toNat
  let s := (s.acqBy (walkerAt die) .module).2
  match s.agentWrite (walkerAt die) .system ctx (descAddr n.desc).toNat bytes with
  | .error c => s.updNode die ctx idx fun n => { n with workDone := some (if status = 0 then trStatus c else status) }
  | .ok s =>
    let s := if x.testBit 11 then { s with irqs := s.irqs ++ [x % 2 ^ 11] } else s
    s.updNode die ctx idx fun n => { n with workDone := some status }

/-- A PUBLISH node's PUBLISH is in progress at its entry from now on, unless another is (R260). -/
def State.beginPublish (s : State) (die ctx idx : Nat) (n : Node) : State :=
  match (s.die die).entry ctx (descPay n.desc 0) with
  | none => s
  | some (i, e) =>
    if e.busy || n.publishing then s
    else (s.updDie die fun d => { d with pubs := tupd d.pubs i fun e => { e with busy := true } }).updNode die ctx idx fun n =>
      { n with publishing := true }

/-- A node fires when it is ARMED with COUNT at or below 0. The walker checks after every event at the node.
(DEDUCED, log entry 58) -/
def State.tryFire (s : State) (die ctx idx : Nat) : State :=
  match tget (s.die die).nodes (ctx, idx) with
  | none => s
  | some n =>
    if n.st ≠ .armed || 0 < n.count then s
    else
      let s := s.updNode die ctx idx fun n =>
        { n with st := .fired, ovr := n.count < 0, fail := false, workDone := none }
      if descKind n.desc = 5 then s.hostNode die ctx idx n (if n.fail then 9 else 0)
      else if n.fail then s.updNode die ctx idx fun n => { n with workDone := some 9 }
      else match descKind n.desc with
        | 0 => s.updNode die ctx idx fun n => { n with workDone := some 0 }
        | 1 | 3 => s.issueNode die ctx idx n
        | 2 => s.taskNode die ctx idx n
        | _ => s.beginPublish die ctx idx n

/-- SIGNAL: the i-th signal on its way, over the dies in order, reaches its node (R293); those of one finish go in list order
(R295). One to a freed node is dropped. -/
def State.signalAt (s : State) (die i : Nat) : State :=
  match (s.die die).signals[i]? with
  | none => s
  | some (ctx, id, failing, src) =>
    let blocked := s.ctxBlocked die ctx .walker ||
      (src != 0 && ((s.die die).signals.take i).any fun x => x.2.2.2 == src)
    let s := if blocked then s else s.updDie die fun d => { d with signals := d.signals.eraseIdx i }
    if blocked || ((s.die die).node? ctx id).isNone then s
    else
      let idx := id.toNat % 2 ^ 16
      (s.updNode die ctx idx fun n => { n with count := n.count - 1, fail := n.fail || failing }).tryFire die ctx idx

/-- The die of the i-th signal and its place there. -/
def signalPlace : List (Nat × Nat) → Nat → Option (Nat × Nat)
  | [], _ => none
  | (die, n) :: l, i => if i < n then some (die, i) else signalPlace l (i - n)

def execSignal (i : Nat) (s : State) : Out :=
  .next (match signalPlace ((List.range 24).map fun d => (d, (s.die d).signals.length)) i with
    | some (die, k) => s.signalAt die k
    | none => s)

/-- A PUBLISH node makes its swap as soon as nothing stops it; an entry that is gone ends it with status 5. -/
def State.publishNode (s : State) (die ctx idx : Nat) (n : Node) : State :=
  match (s.die die).entry ctx (descPay n.desc 0) with
  | none => s.updNode die ctx idx fun n => { n with workDone := some 5 }
  | some (i, e) =>
    let s := s.beginPublish die ctx idx n
    let mine := n.publishing || !e.busy
    if !mine || s.shadowBusy die i e then s
    else
      ((s.swap die i).updDie die fun d => { d with pubs := tupd d.pubs i fun e => { e with busy := false } }).updNode die ctx idx
        fun n => { n with workDone := some 0, publishing := false }

/-- A node's finish is a release of its work, which carries what its predecessors released: at module scope, and at system scope
for a HOST node, whether or not its record could be written (R257, R295). -/
def State.nodeRelease (s : State) (die : Nat) (n : Node) : State :=
  (s.acqBy (walkerAt die) .module).2.engRelease (walkerAt die) (if descKind n.desc = 5 then .system else .module) []

/-- A node's finish: the release; then its STATUS is written and its successors are signalled in list order (R295). -/
def State.finishNode (s : State) (die ctx idx : Nat) (n : Node) (status : Nat) : State :=
  let s := s.nodeRelease die n
  let s := s.count die none 0x301 ctx (some n.creator) (some n.cwg) none 1
  let s := s.updNode die ctx idx fun n => { n with st := .done, status := status, fires := n.fires + 1, workDone := none }
  let src := s.stamp
  (List.range (descSuccs n.desc)).foldl (fun s k => s.signalFrom src die ctx (descSucc n.desc k) (status != 0)) s.tick

/-- NODE_FINISH. -/
def execNodeFinish (die ctx idx : Nat) (s : State) : Out :=
  .next (
    if s.ctxBlocked die ctx .walker then s
    else
    let pub (n : Node) : Bool := n.st == .fired && n.workDone.isNone && descKind n.desc == 4
    let s := match tget (s.die die).nodes (ctx, idx) with
      | some n => if pub n then s.publishNode die ctx idx n else s
      | none => s
    match tget (s.die die).nodes (ctx, idx) with
    | some n => match n.st, n.workDone with
      | .fired, some st => s.finishNode die ctx idx n st
      | _, _ => s
    | none => s)

/-! ## GNODE -/

/-- A new node with the lowest free index. -/
def State.newNode (s : State) (t : TRef) (d : List Word) : Word × State :=
  let die := (s.wgOf t).die
  let ctx := s.ctxOf t
  let idx := ((s.die die).freeNode ctx).getD 0
  let gen := (tget (s.die die).nodeGen (ctx, idx)).getD 0
  let n : Node := { gen := gen, desc := d, count := descInit d, creator := t.lid, cwg := t.wg }
  (nodeId idx gen, s.updDie die fun x => { x with nodes := tset x.nodes (ctx, idx) n })

def State.planGnode (h : Hdr) (t : TRef) (s : State) : Plan × State :=
  let a := (s.rd t 0 h.lit).r64 h.a
  if a.toNat < 2 ^ 52 && a.toNat % 64 ≠ 0 then (.fault (rkAccess + 2) (accFlt .misaligned a 64 0 0), s)
  else
    s.planLoad t a 64 (stackUse h.a) fun b s =>
      let d := bytesToWords b
      if !s.descOk t d then (.fault (rkAccess + 6) (nodeFlt (lo32 a) 3), s)
      else if ((s.die (s.wgOf t).die).freeNode (s.ctxOf t)).isNone || !s.recordRoom (s.wgOf t).die 88 then (.fault (rkAccess + 7) (nodeFlt (lo32 a) 4), s)
      else
        let (id, s) := s.newNode t d
        (.go fun s => (s.updThr t fun th => th.setD false h.d id.toNat).retireBound (hlen h) t, s)

/-- Every thread passes. -/
def allGo : List Plan → Bool
  | [] => true
  | .go _ :: ps => allGo ps
  | _ :: _ => false

/-- A form whose threads make records of a die, nodes or entries: each is checked with the records of the threads before it in
slot order in place; if any faults or waits, none is made. (DEDUCED, log entry 59) -/
def State.makeForm (s : State) (h : Hdr) (act : List TRef) (plan : TRef → State → Plan × State) : State :=
  let r := s.planForm h act true plan id
  if allGo (s.plans plan act).1 then r
  else
    let die := (act.head?.map fun t => (s.wgOf t).die).getD 0
    r.updDie die fun d => { d with nodes := (s.die die).nodes, pubs := (s.die die).pubs }

def execGnode (h : Hdr) (s : State) : Out :=
  .next (s.issue h { d := .dst, a := .addr } fun act s => s.makeForm h act (State.planGnode h))

/-! ## GARM -/

/-- A form on nodes or entries: every thread is checked as its turn in slot order finds them; if any faults, none acts. One that
may fire a node (`fires`) waits for its unit's turn under deterministic operation. -/
def State.garmForm (s : State) (h : Hdr) (fires : Bool) (pre : List TRef → State → State)
    (chk : TRef → State → Except (Nat × Flt) State) : State :=
  (s.issue h { a := .src } fun act s =>
    let l := checkRun chk act s
    match firstRank l with
    | some (_, f) => s.stop (hlen h) h.pred (l.map Prod.fst) f
    | none => s.atTurn (if fires then act else []) fun s =>
      act.foldl (fun s t => match chk t s with
        | .ok s => s.retireBound (hlen h) t
        | .error _ => s) (pre act (s.retireAll (hlen h) (s.inactive h.pred)))).settle

/-- The live node that A names for a thread: its index and record, or reason 1. -/
def State.nodeArg (s : State) (h : Hdr) (t : TRef) : Except (Nat × Flt) (Nat × Node) :=
  let id := (s.rd t 0 h.lit).r32 h.a
  match (s.die (s.wgOf t).die).node? (s.ctxOf t) id with
  | some n => .ok (id.toNat % 2 ^ 16, n)
  | none => .error (0, nodeFlt id 1)

/-- GARM `.arm`. (DEDUCED, log entry 59) -/
def State.armChk (h : Hdr) (t : TRef) (s : State) : Except (Nat × Flt) State := do
  let die := (s.wgOf t).die
  let ctx := s.ctxOf t
  let (idx, n) ← s.nodeArg h t
  match n.st with
  | .built => .ok ((s.updNode die ctx idx fun n => { n with st := .armed }).tryFire die ctx idx)
  | .done => .ok ((s.updNode die ctx idx fun n =>
      { n with st := .armed, count := n.count + descInit n.desc, fail := false }).tryFire die ctx idx)
  | _ => .error (0, nodeFlt ((s.rd t 0 h.lit).r32 h.a) 2)

/-- GARM `.free`: the index's generation goes up. -/
def State.freeChk (h : Hdr) (t : TRef) (s : State) : Except (Nat × Flt) State := do
  let die := (s.wgOf t).die
  let ctx := s.ctxOf t
  let (idx, n) ← s.nodeArg h t
  if n.st = .fired then .error (0, nodeFlt ((s.rd t 0 h.lit).r32 h.a) 2)
  else .ok (s.updDie die fun d =>
    { d with nodes := terase d.nodes (ctx, idx), nodeGen := tset d.nodeGen (ctx, idx) ((n.gen + 1) % 2 ^ 12) })

def State.sigChk (h : Hdr) (t : TRef) (s : State) : Except (Nat × Flt) State := do
  let _ ← s.nodeArg h t
  .ok (s.signalNode (s.wgOf t).die (s.ctxOf t) ((s.rd t 0 h.lit).r32 h.a) false)

def execGarm (h : Hdr) (s : State) : Out := .next (s.garmForm h true (fun _ s => s) (State.armChk h))
def execGarmSig (h : Hdr) (s : State) : Out :=
  .next (s.garmForm h true (fun act s => if act.isEmpty then s else s.relAll act .module) (State.sigChk h))
def execGarmFree (h : Hdr) (s : State) : Out := .next (s.garmForm h false (fun _ s => s) (State.freeChk h))

/-! ## GWAIT and GTEST -/

/-- The node of an id is DONE for a thread. -/
def State.nodeDone (s : State) (t : TRef) (id : Word) : Option Node :=
  match (s.die (s.wgOf t).die).node? (s.ctxOf t) id with
  | some n => if n.st = .done then some n else none
  | none => none

def Node.word (n : Node) : Nat := n.status % 2 ^ 8 + (if n.ovr then 2 ^ 8 else 0)

def State.nodeFault (s : State) (h : Hdr) (t : TRef) : Option (Nat × Flt) :=
  match s.nodeArg h t with
  | .error x => some x
  | .ok _ => none

/-- A waiting thread finds its node DONE: the acquire, and the result. -/
def State.gwaitEnd (s : State) (t : TRef) (n : Node) : State :=
  match (s.thr t).wait with
  | .gwait _ d => ((s.acquire t.lid t.wg .module).updThr t fun th => th.setD false d n.word).finish t
  | .gtest _ pd => ((s.acquire t.lid t.wg .module).updThr t fun th => th.setP pd true).finish t
  | _ => s

/-- The thread parks, and goes on at once where its node is DONE. -/
def State.gwaitOne (s : State) (len : Nat) (id : Word) (w : Wait) (t : TRef) : State :=
  let s := s.park w len false t
  match s.nodeDone t id with
  | some n => s.gwaitEnd t n
  | none => s

def execGwait (h : Hdr) (s : State) : Out :=
  .next (s.issue h { d := .dst, a := .src } fun act s =>
    s.guardFaults (hlen h) h.pred act true (s.nodeFault h) fun s =>
      s.ordered act false fun s =>
        act.foldl (fun s t =>
          let id := (s.rd t 0 h.lit).r32 h.a
          s.gwaitOne (hlen h) id (.gwait id h.d) t) (s.retireAll (hlen h) (s.inactive h.pred)))

/-- GTEST never waits, but in deterministic scheduling mode it waits as GWAIT does and then writes 1 (R275). -/
def execGtest (h : Hdr) (pd : BitVec 3) (s : State) : Out :=
  .next (s.issue h { a := .src } fun act s =>
    s.guardFaults (hlen h) h.pred act true (s.nodeFault h) fun s =>
      s.orderedIf (act.any fun t => (s.launchOf t).det == 2) act fun s =>
        act.foldl (fun s t =>
          let id := (s.rd t 0 h.lit).r32 h.a
          if (s.launchOf t).det = 2 then s.gwaitOne (hlen h) id (.gtest id pd.toNat) t
          else
            let done := (s.nodeDone t id).isSome
            let s := if done then s.acquire t.lid t.wg .module else s
            (s.updThr t fun th => th.setP pd.toNat done).retire (hlen h) t) (s.retireAll (hlen h) (s.inactive h.pred)))

/-- The id of the node that a thread waits for. -/
def Wait.node : Wait → Option Word
  | .gwait id _ => some id
  | .gtest id _ => some id
  | _ => Option.none

/-- GWAIT_RETURN: the node is DONE; or it has been freed, and the thread stops (R293). -/
def execGwaitReturn (t : TRef) (s : State) : Out :=
  .next (match (if s.runs t.lid t.wg then (s.thr t).wait.node else none) with
    | none => s
    | some id =>
      match (s.die (s.wgOf t).die).node? (s.ctxOf t) id with
      | none => s.raiseOne t (nodeFlt id 1)
      | some n => if n.st = .done then s.gwaitEnd t n else s)

/-! ## SHADOW, R302, R303 -/

/-- Pages of 64 KiB in a range, and what each maps to. -/
def State.rangeWalks (s : State) (ctx va n : Nat) : List WalkRes :=
  (List.range (n / 65536)).map fun k => s.walkTable ctx (va / 65536 + k)

/-- The descriptor obeys R302. -/
def State.shadowOk (s : State) (die ctx : Nat) (b : List Byte) : Bool :=
  let pub := numAt b 0 8
  let v0 := numAt b 8 8
  let v1 := numAt b 16 8
  let n := numAt b 24 4
  let hbm (va : Nat) : Bool := va + n ≤ 2 ^ 52 && (s.rangeWalks ctx va n).all fun w => match w with
    | .hit e => e.w && !e.h
    | .fault _ => false
  numAt b 28 4 == 0 && pub % 65536 == 0 && v0 % 65536 == 0 && v1 % 65536 == 0 && n % 65536 == 0 && 65536 ≤ n &&
    n ≤ 268435456 &&
    ((s.rangeWalks ctx pub n).all fun w => match w with
    | .hit _ => false
    | .fault _ => true) && hbm v0 && hbm v1 &&
    !overlaps pub n v0 n && !overlaps pub n v1 n && !overlaps v0 n v1 n &&
    (s.die die).pubs.all fun e => e.2.ctx != ctx ||
      [pub, v0, v1].all fun a => [e.2.pub.toNat, e.2.v0.toNat, e.2.v1.toNat].all fun x => !overlaps a n x e.2.size

/-- The lowest free entry index of a context on a die. (DESIGN CHOICE, log entry 129) -/
def State.freeEntry (s : State) (die ctx : Nat) : Option Nat :=
  let c := s.ctx ctx
  (List.range c.pubCount).findSome? fun k =>
    if (tget (s.die die).pubs (c.pubFirst + k)).isNone then some (c.pubFirst + k) else none

def State.newEntry (s : State) (t : TRef) (b : List Byte) : Nat × State :=
  let die := (s.wgOf t).die
  let i := (s.freeEntry die (s.ctxOf t)).getD 0
  let gen := (tget (s.die die).pubGen i).getD 0
  let e : PubEnt :=
    { gen := gen, pub := BitVec.ofNat 64 (numAt b 0 8), v0 := BitVec.ofNat 64 (numAt b 8 8)
      v1 := BitVec.ofNat 64 (numAt b 16 8), size := numAt b 24 4, ctx := s.ctxOf t }
  (i + gen * 2 ^ 10, s.updDie die fun d => { d with pubs := tset d.pubs i e })

/-- A workgroup of the context on the die made its last acquire before any swap of a new entry: its reads stay with version 0
until its next acquire (R259). (DEDUCED, log entry 116) -/
def State.selectNew (s : State) (die ctx i : Nat) : State :=
  { s with wgs := s.wgs.map fun g =>
      if g.2.die == die && (s.launch g.1.1).ctx == ctx && g.2.st != .ended then (g.1, { g.2 with sel := tset g.2.sel i false })
      else g }

def State.planShadow (h : Hdr) (t : TRef) (s : State) : Plan × State :=
  let a := (s.rd t 0 h.lit).r64 h.a
  let die := (s.wgOf t).die
  s.planLoad t a 32 (stackUse h.a) fun b s =>
    if !s.shadowOk die (s.ctxOf t) b then (.fault (rkAccess + 6) (pubFlt (lo32 a) 3), s)
    else if (s.freeEntry die (s.ctxOf t)).isNone then (.fault (rkAccess + 7) (pubFlt (lo32 a) 5), s)
    else
      let (id, s) := s.newEntry t b
      (.go fun s => ((s.selectNew die (s.ctxOf t) (id % 2 ^ 10)).updThr t fun th => th.setD false h.d id).retireBound (hlen h) t,
        s)

def execShadowNew (h : Hdr) (s : State) : Out :=
  .next (s.issue h { d := .dst, a := .addr } fun act s => s.makeForm h act (State.planShadow h))

/-- The entry that A names for a thread. -/
def State.entryArg (s : State) (h : Hdr) (t : TRef) : Option (Nat × PubEnt) :=
  (s.die (s.wgOf t).die).entry (s.ctxOf t) ((s.rd t 0 h.lit).r32 h.a)

def State.entryFault (s : State) (h : Hdr) (t : TRef) : Option (Nat × Flt) :=
  if (s.entryArg h t).isSome then none else some (0, pubFlt ((s.rd t 0 h.lit).r32 h.a) 4)

def execShadowAddr (h : Hdr) (s : State) : Out :=
  .next (s.issue h { d := .dstW, a := .src } fun act s =>
    s.guardFaults (hlen h) h.pred act true (s.entryFault h) fun s =>
      s.each (hlen h) act fun t s => match s.entryArg h t with
        | some (_, e) => s.updThr t fun th => th.setD true h.d (e.ver (!e.cur))
        | none => s)

def State.shadowFreeChk (h : Hdr) (t : TRef) (s : State) : Except (Nat × Flt) State :=
  match s.entryArg h t with
  | none => .error (0, pubFlt ((s.rd t 0 h.lit).r32 h.a) 4)
  | some (i, e) =>
    if (s.conflict (s.wgOf t).die i e).isSome then .error (1, pubFlt ((s.rd t 0 h.lit).r32 h.a) 6)
    else .ok (s.updDie (s.wgOf t).die fun d =>
      { d with pubs := terase d.pubs i, pubGen := tset d.pubGen i ((e.gen + 1) % 2 ^ 12) })

def execShadowFree (h : Hdr) (s : State) : Out := .next (s.garmForm h false (fun _ s => s) (State.shadowFreeChk h))

/-! ## PUBLISH, R304 -/

def State.publishOne (s : State) (h : Hdr) (t : TRef) : OwnRes :=
  match s.entryArg h t with
  | none => .fault (pubFlt ((s.rd t 0 h.lit).r32 h.a) 4)
  | some (i, e) =>
    match s.conflict (s.wgOf t).die i e with
    | some r => .fault (pubFlt ((s.rd t 0 h.lit).r32 h.a) r)
    | none => .done (s.swap (s.wgOf t).die i)

/-- In slot order, the release, the conflicts and the swap. A release that precedes a conflict stands. -/
def State.publishLoop (h : Hdr) : List TRef → State → State
  | [], s => s
  | t :: ts, s =>
    let s := s.releaseAll t.lid t.wg .module
    match s.publishOne h t with
    | .done s => State.publishLoop h ts (s.retireBound (hlen h) t)
    | .wait s => s
    | .fault f => s.raise [t] f

/-- The checks on every thread for reason 4; then the swaps. Under deterministic operation a PUBLISH waits for its unit's turn,
so that what it releases has entered the order when it swaps (R259, R267). (DEDUCED, log entry 136) -/
def execPublish (h : Hdr) (s : State) : Out :=
  .next (s.issue h { a := .src } fun act s =>
    s.guardFaults (hlen h) h.pred act true (s.entryFault h) fun s =>
      s.ordered act true fun s => State.publishLoop h act (s.retireAll (hlen h) (s.inactive h.pred))).settle

end Sys2Proof.Machine
end

