-- ==== Sys2Proof/Machine/Cvt.lean ====
section
/-! DEFINITION. The CVT class (R102 to R104). -/

namespace Sys2Proof.Machine

/-- Element e of a source of type ty, from the pattern that A reads (R60, R103). -/
def elemOf (ty : Ty) (x e : Nat) : Nat := if ty.bits < 32 then x / 2 ^ (ty.bits * e) % 2 ^ ty.bits else x

/-- A narrow pattern placed in a register (R60): sign fill for i8 and i16, zeros otherwise. -/
def placeTy (ty : Ty) (x : Nat) : Nat :=
  match ty with
  | .i8 => wrap 32 (signed 8 x)
  | .i16 => wrap 32 (signed 16 x)
  | _ => x

/-- A word with the element e of a type replaced. -/
def insertElem (ty : Ty) (x e y : Nat) : Nat :=
  let lo := ty.bits * e
  x / 2 ^ (lo + ty.bits) * 2 ^ (lo + ty.bits) + y % 2 ^ ty.bits * 2 ^ lo + x % 2 ^ lo

/-- The FEATURES bit of a conversion with f64 on either side (R34 bit 1). -/
def cvtFeat (a b : Ty) : Option Nat := if a == .f64 || b == .f64 then some 1 else none

def execCvt (h : Hdr) (sty : Ty) (epos : BitVec 4) (s : State) : Out :=
  .next (s.alu h 0 { d := dstK h.ty, a := srcK sty, feat := cvtFeat h.ty sty } (tyWide h.ty) fun r =>
    let (y, fl) := convert sty h.ty h.rnd h.sat (elemOf sty (r.rw (tyWide sty) h.a) epos.toNat)
    (placeTy h.ty y, fl))

def execCvtins (h : Hdr) (sty : Ty) (epos : BitVec 4) (s : State) : Out :=
  .next (s.alu h 0 { d := .dst, a := srcK sty, feat := cvtFeat h.ty sty } false fun r =>
    let (y, fl) := convert sty h.ty h.rnd h.sat (elemOf sty (r.rw (tyWide sty) h.a) 0)
    (insertElem h.ty (r.r32 h.d).toNat epos.toNat y, fl))

end Sys2Proof.Machine
end

