-- ==== Sys2Proof/Machine/Mma.lean ====
section
/-! DEFINITION. The matrix engine (R69 to R74, R308 to R326): the MMA class, MLOOP_START, MATRIX_STEP and MGATE_DECISION. -/

namespace Sys2Proof.Machine

/-! ## Shapes, R308 -/

def shapeOf (fmt rows cols : Nat) : Word := w32 (fmt + rows * 2 ^ 4 + cols * 2 ^ 13)

/-- The accumulator's shape, and those of A, B and metadata handles for KS steps (R308). A count that no shape word can hold
gives no valid shape. -/
def accShape (w : Word) : Word := if fwC w = 0 then 0x00080406 else 0x00080407

def shapeA (w : Word) (ks : Nat) : Option Word :=
  if fwKs w * ks ≤ 8192 then some (shapeOf (fwA w) 64 (fwKs w * ks)) else none
def shapeB (w : Word) (ks : Nat) : Option Word :=
  if fwKl w * ks ≤ 256 then some (shapeOf (fwB w) (fwKl w * ks) 64) else none
def shapeM (ks : Nat) : Option Word := some (shapeOf 8 64 ks)

/-- The element format of a float code. -/
def codeFmt : Nat → Fmt
  | 0 => fmtE4m3 | 1 => fmtE5m2 | 2 => fmtBf16 | 3 => fmtF16 | _ => fmtF32

/-! ## One element of a step, R72, R74 -/

/-- The flags that a step may set. -/
def stepFlags : BitVec 7 := fNV ||| fOF ||| fBT

/-- c + 2^sc × Σ a × b, rounded once. -/
def stepFloat (fa fb : Fmt) (sc : Int) (c : Nat) (ps : List (Nat × Nat)) : Nat × BitVec 7 :=
  let cv := fmtF32.decode c
  let vs := ps.map fun p => (fa.decode p.1, fb.decode p.2)
  let nan := cv.isNan || vs.any fun v => v.1.isNan || v.2.isNan
  let snan := vs.any fun v => v.1.isSnan || v.2.isSnan
  let invalid := vs.any fun v => (v.1.isZero && v.2.isInf) || (v.1.isInf && v.2.isZero)
  let infs (neg : Bool) : Bool := (cv.isInf && cv.neg == neg) || vs.any fun v =>
    (v.1.isInf || v.2.isInf) && !v.1.isNan && !v.2.isNan && !v.1.isZero && !v.2.isZero && (v.1.neg != v.2.neg) == neg
  let both := infs true && infs false
  let nv := flagIf (invalid || both || snan) fNV
  if nan || invalid || both then (0x7FC00000, nv)
  else if infs true then (fmtF32.withSign true fmtF32.infPat, nv)
  else if infs false then (fmtF32.infPat, nv)
  else
    let terms := vs.filterMap fun v => match v with
      | (.fin n m e, .fin n' m' e') => some (n != n', m * m', e + e' + sc)
      | _ => none
    let (m, e) := dySum ((match cv with
      | .fin n m e => toDy n m e
      | _ => (0, 0)) :: terms.map fun t => toDy t.1 t.2.1 t.2.2)
    let zneg := cv.isZero && cv.neg && terms.all fun t => t.1 && t.2.1 == 0
    let r := fmtF32.roundDy .rne zneg m e
    (r.1, r.2 &&& stepFlags)

/-- min(max(c + Σ t × b, −2^31), 2^31 − 1). -/
def stepTernary (c : Nat) (ps : List (Nat × Nat)) : Nat × BitVec 7 :=
  let x := ps.foldl (fun x p => x + (t2Val p.1).1 * signed 8 p.2) (signed 32 c)
  let y := max (-2 ^ 31) (min (2 ^ 31 - 1) x)
  (wrap 32 y, flagIf (y != x) fOF ||| flagIf (ps.any fun p => (t2Val p.1).2) fBT)

/-! ## Set collectives, R312 -/

/-- The cores on which the member waves of a set stand. -/
def State.setCores (s : State) (lid inst set : Nat) : List (Nat × Nat) :=
  ((s.setWaves lid inst set).map fun m => ((s.wg lid m.1).die, (s.wg lid m.1).site)).eraseDups

/-- The set that a thread names is empty, or lies on more than one core (R147). (DESIGN CHOICE, log entry 63) -/
def State.mmaSetBad (s : State) (set : Nat) (t : TRef) : Bool :=
  s.setEmpty set t || 1 < (s.setCores t.lid (s.wgOf t).inst set).length

/-- Threads that fault at an event, each wave with its own mask. -/
def State.raiseAll (s : State) (ts : List TRef) (f : Flt) : State :=
  ts.foldl (fun s t =>
    let same := ts.filter fun u => u.wg == t.wg && u.wave == t.wave
    s.updThr t fun th => { th with wait := .none, trap := some (recOf th (maskOf same same) f) }) s

/-- An MMA collective is issued: a delivery point where it names handles, then the arrival. -/
def State.mmaForm (s : State) (h : Hdr) (n : Need) (names : List Nat) (setOf : State → TRef → Nat) (i : Instr)
    (vals : TRef → State → DWord × DWord) : State :=
  s.issueWith h n (s.idleIn (setOf s) h.pred) fun act s =>
    match s.deliver (hlen h) (s.idleIn (setOf s) h.pred) act false (fun r => r.names.any names.contains) with
    | some s' => s'
    | none =>
      s.guardSet h (s.idleIn (setOf s) h.pred) 2 h.b (fun t => s.mmaSetBad (setOf s t) t) act fun s =>
        s.arriveSet (setOf s) (hlen h) h.pred .mma i act vals id

/-- The handles that an MLOOP names: HC, HA, HB and HM, in that order. -/
def loopHandles (x : MloopX) : List Nat :=
  [x.hc.toNat] ++ (if x.ask then [] else [x.ha.toNat]) ++ (if x.bsk then [] else [x.hb.toNat]) ++
    (if x.mp && !x.msk then [x.hm.toNat] else [])

def loopStreams (x : MloopX) : Bool := x.ask || x.bsk || x.msk

def execMloop (h : Hdr) (x : MloopX) (s : State) : Out :=
  .next (s.mmaForm h { a := .src, b := .src, c := if loopStreams x then .dstN 1 else .unused } (loopHandles x)
    (fun s t => ((s.rd t 0 h.lit).r32 h.b).toNat / 2 ^ 13 % 2 ^ 8) (.mloop h x) fun t s =>
      let r := s.rd t 0 h.lit
      ((r.r32 h.a).setWidth 64, (r.r32 h.b).setWidth 64))

def execMgate (h : Hdr) (x : MgateX) (s : State) : Out :=
  .next (s.mmaForm h { a := if x.wen then .src else .unused, b := if x.wen then .src else .unused, feat := some 5 }
    [x.h.toNat] (fun _ _ => x.set.toNat) (.mgate h x) fun t s =>
      let r := s.rd t 0 h.lit
      (if x.wen then (r.r32 h.a).setWidth 64 else 0, if x.wen then (r.r32 h.b).setWidth 64 else 0))

/-- The earlier scratch accesses of the participants have finished (step 1 of R312). -/
def State.partsReady (s : State) (ts : List TRef) : Bool :=
  ts.all fun t => (s.copiesOf t).isEmpty && !s.loads.any fun l => l.thread == t && l.bytes.isSome

/-- A collective of a set whose participants have all arrived and may start: its instruction and the arrivals in
(wave, lane) order. -/
def State.mmaReady (s : State) (lid inst set : Nat) : Option (Instr × List SetArr) :=
  let q := s.setSt lid inst set
  let ps := s.setThreads lid inst set
  match q.instr with
  | some i =>
    if s.unitRuns lid inst && s.setReady lid inst set && s.partsReady ps then
      some (i, ps.filterMap fun t => q.arr.find? fun a => a.thread == t)
    else none
  | none => none

/-- The collective is over. -/
def State.clearSet (s : State) (lid inst set : Nat) : State :=
  s.updSet lid inst set fun q => { q with pc := 0, instr := none, arr := [] }

/-! ## MLOOP_START, R312, R313, R324 -/

/-- A register of the leader's stream block. -/
def blockReg (th : Thread) (c k : Nat) : Word := th.getV (c + k)

/-- The block registers that a loop reads, by number in the block. -/
def blockUsed (x : MloopX) : List Nat :=
  (if x.ask then [0, 1, 6] else []) ++ (if x.bsk then [2, 3, 7] else []) ++ (if x.msk then [4, 5, 8] else [])

/-- Member waves of a set in a workgroup. -/
def State.isMember (s : State) (lid inst set wg w : Nat) : Bool :=
  (s.setWaves lid inst set).any fun m => m.1 == wg && m.2 == w

/-- ILLEGAL_OPERAND of a field of the instruction at which a thread stands: detail word 2 is its word 0 (R53). -/
def State.operandAt (s : State) (t : TRef) (field : Nat) (o : Operand) : Flt :=
  { s.operandFlt field o with d2 := (s.codeOf t).getD ((s.thr t).pc / 4) 0 }

/-- The first check of R313 that a start fails. In row 5 the streams are examined in the order A, B, metadata, and the record
carries the pointer's OFF, its BUF or PEER, and the 4 of which OFF and INC should be multiples. (DESIGN CHOICE, log entry 37) -/
def State.loopFault (s : State) (inst set : Nat) (h : Hdr) (x : MloopX) (lead : SetArr) : Option Flt :=
  let t := lead.thread
  let w := lo32 lead.a
  let b := lo32 lead.b
  let ks := b.toNat % 2 ^ 13
  let c := Operand.vnum h.c
  let th := s.thr t
  let blk (k : Nat) : DWord := join64 (blockReg th c k) (blockReg th c (k + 1))
  let need : List (Nat × Option Word) := [(x.hc.toNat, some (accShape w))] ++
    (if x.ask then [] else [(x.ha.toNat, shapeA w ks)]) ++ (if x.bsk then [] else [(x.hb.toNat, shapeB w ks)]) ++
    (if x.mp && !x.msk then [(x.hm.toNat, shapeM ks)] else [])
  let streams := (if x.ask then [(blk 0, blockReg th c 6)] else []) ++ (if x.bsk then [(blk 2, blockReg th c 7)] else []) ++
    (if x.msk then [(blk 4, blockReg th c 8)] else [])
  if !fwValid w || (fwTernary w && !s.hasFeat t 3) || (fwSp w && !s.hasFeat t 4) || (fwGt w && !s.hasFeat t 5) || fwSp w != x.mp
  then some { code := .formatInvalid, d0 := w }
  else if ks = 0 || 4096 < ks || b.toNat / 2 ^ 21 ≠ 0 then some (s.operandAt t 2 h.b)
  else if (blockUsed x).any fun k => !s.alloc t (c + k) then some (s.operandAt t 3 h.c)
  else match need.findSome? fun n => handleUse (s.handle t.lid t.wg n.1) n.1 (s.isMember t.lid inst set t.wg) with
    | some f => some f
    | none =>
      match need.find? fun n => some (s.handle t.lid t.wg n.1).shape != n.2 with
      | some n => some (shapeFlt n.1 2)
      | none => (streams.find? fun p => ptrOff p.1 % 4 ≠ 0 || p.2.toNat % 4 ≠ 0).map fun p =>
          scFlt .misaligned p.1 (ptrOff p.1) 4

/-- The nine words of R317's BLOCK. -/
def blockWords (th : Thread) (c : Nat) (x : MloopX) : List Word :=
  (List.range 9).map fun k => if (blockUsed x).contains k then blockReg th c k else 0

/-- Word 2 of an MLOOP. -/
def mloopW2 (x : MloopX) : Word :=
  w32 (x.hc.toNat + (if x.ask then 2 ^ 6 else 0) + x.ha.toNat * 2 ^ 7 + (if x.bsk then 2 ^ 13 else 0) + x.hb.toNat * 2 ^ 14 +
    (if x.mp then 2 ^ 20 else 0) + (if x.msk then 2 ^ 21 else 0) + x.hm.toNat * 2 ^ 22)

/-- The loop of a start, with the slots bound now (R225). -/
def State.mkLoop (s : State) (inst set : Nat) (h : Hdr) (x : MloopX) (lead : SetArr) (parts : List TRef) : Loop :=
  let t := lead.thread
  let th := s.thr t
  let sl (h : BitVec 6) : Nat := (s.handle t.lid t.wg h.toNat).slot
  { lid := t.lid, wg := t.wg, inst := inst, set := set, pc := th.pc, x := x
    ls := { fmtw := lo32 lead.a, loopw := lo32 lead.b, w2 := mloopW2 x, block := blockWords th (Operand.vnum h.c) x, run := true }
    slotC := sl x.hc, slotA := if x.ask then none else some (sl x.ha), slotB := if x.bsk then none else some (sl x.hb)
    slotM := if x.mp && !x.msk then some (sl x.hm) else none
    parts := parts, stamp := s.stamp }

/-- The loop state that goes with the accumulator handle, while it still names the loop's slot. -/
def State.showLoop (s : State) (l : Loop) : State :=
  s.updHandle l.lid l.wg l.x.hc.toNat fun x =>
    if x.st ≠ .dead ∧ x.slot = l.slotC then { x with ls := l.ls } else x

/-- PW and PR of the handles of a workgroup, and its draining slots. -/
def State.refreshAll (s : State) (lid wg : Nat) : State :=
  let s := (tkeys (s.wg lid wg).slots).foldl (fun s k => s.settleSlot lid wg k) s
  (List.range 64).foldl (fun s h => s.refresh lid wg h) s

/-- The loop runs, or is skipped by the gate. -/
def State.startLoop (s : State) (inst set die site : Nat) (l : Loop) : State :=
  let q := s.setSt l.lid inst set
  let gated := fwGt l.ls.fmtw
  let s := if gated then s.updSet l.lid inst set fun q => { q with latch := .none } else s
  if gated && q.latch == .skip then
    let ks := l.ls.loopw.toNat % 2 ^ 13
    let s := s.showLoop { l with ls := { l.ls with kdone := ks, run := false, skip := true } }
    let s := s.updLaunch l.lid fun x => { x with skips := x.skips + 1 }
    s.count die (some site) 0x201 (some (s.launch l.lid).ctx) (some l.lid) (some l.wg) none 1
  else ((s.updCore die site fun c => { c with loops := c.loops ++ [l] }).showLoop l).refreshAll l.lid l.wg

/-- The slot of HC has a pending operation that a skipped loop must come after. (DEDUCED, log entry 62) -/
def State.loopHeld (s : State) (set inst die site : Nat) (l : Loop) : Bool :=
  if fwGt l.ls.fmtw && (s.setSt l.lid inst set).latch == .skip then s.slotBlocked l.lid l.wg l.slotC true (s.stamp + 1)
  else 4 ≤ ((s.core die site).loops.filter fun l => !l.ls.flt).length

/-- MLOOP_START: the vote, the checks, and the loop's place on the engine; a fifth loop waits (R310). -/
def execMloopStart (lid inst set : Nat) (s : State) : Out :=
  .next (match s.mmaReady lid inst set with
    | some (.mloop h x, arrs) =>
      let parts := arrs.map SetArr.thread
      let voters := arrs.filter SetArr.pred
      match voters with
      | [] => parts.foldl State.finish (s.clearSet lid inst set)
      | lead :: rest =>
        match rest.find? fun a => lo32 a.a != lo32 lead.a with
        | some a =>
          (s.clearSet lid inst set).raiseAll parts
            { code := .formatDivergence, d0 := w32 set, d1 := lo32 lead.a, d2 := lo32 a.a }
        | none =>
          match s.loopFault inst set h x lead with
          | some f => (s.clearSet lid inst set).raiseAll parts f
          | none =>
            let s' := s.tick
            let l := s'.mkLoop inst set h x lead parts
            let g := s.wgOf lead.thread
            if s'.loopHeld set inst g.die g.site l then s
            else parts.foldl State.finish (((s'.clearSet lid inst set).startLoop inst set g.die g.site l))
    | _ => s)

/-! ## Steps, R314, R315, R309 -/

/-- Element k of a row of packed elements of b bits. -/
def elemAt (row : List Byte) (b k : Nat) : Nat := bytesToNat (row.drop (k * b / 8) |>.take ((b + 7) / 8)) / 2 ^ (k * b % 8) % 2 ^ b

/-- The rows of an operand at a step: `rows` rows of n bytes, from its handle's slot or its stream. -/
def State.loopRows (s : State) (l : Loop) (slot : Option Nat) (hoff : Nat → Nat) (st : Option (Place × Nat)) (rows n : Nat) :
    List (List Byte) :=
  (List.range rows).map fun r =>
    match slot, st with
    | some k, _ => s.scRead (.slot l.lid l.wg k) (hoff r) n
    | none, some (p, off) => s.scRead p (off + r * n) n
    | none, none => List.replicate n 0

/-- The first group of a metadata word that is not valid makes the word invalid (R309). -/
def metaOk (w : Nat) : Bool := (List.range 8).all fun g => w / 2 ^ (4 * g) % 4 < w / 2 ^ (4 * g + 2) % 4

/-- The logical position of stored element k under a metadata word. -/
def metaPos (w k : Nat) : Nat := 4 * (k / 2) + w / 2 ^ (2 * k) % 4

/-- What a step finds before it acts: the operands' rows, or the fault with its source. -/
structure StepIn where
  a : List (List Byte)
  b : List (List Byte)
  m : List Nat

def State.stepIn (s : State) (l : Loop) : Except (Nat × Flt) StepIn :=
  let w := l.ls.fmtw
  let k := l.ls.kdone
  let ks := l.ls.loopw.toNat % 2 ^ 13
  let blk (i : Nat) : Word := l.ls.block.getD i 0
  let eb (c : Nat) : Nat := shBits (w32 c)
  let na := fwABytes w / 64
  let nb := fwBBytes w / fwKl w
  let stA : Except Flt (Option (Place × Nat)) :=
    if l.x.ask then (s.streamAt l (blk 0) (blk 1) (blk 6) k 0 (fwABytes w)).map some else .ok none
  match stA with
  | .error f => .error (0, f)
  | .ok stA =>
    let stM : Except Flt (Option (Place × Nat)) :=
      if l.x.msk then (s.streamAt l (blk 4) (blk 5) (blk 8) k 0 256).map some else .ok none
    match stM with
    | .error f => .error (2, f)
    | .ok stM =>
      let m := if l.x.mp then (s.loopRows l l.slotM (fun r => (r * ks + k) * 4) stM 64 4).map bytesToNat else []
      match m.zipIdx.find? fun x => !metaOk x.1 with
      | some x => .error (2, { code := .sparseMeta, d0 := w32 k, d1 := w32 x.2, d2 := w32 x.1 })
      | none =>
        let kept : List Nat := if fwSp w then (List.range 32).filter fun p => m.any fun x => (List.range 16).any fun i => metaPos x i == p
          else List.range (fwKl w)
        let chkB : Option Flt :=
          if !l.x.bsk then none
          else if fwSp w then kept.findSome? fun p => match s.streamAt l (blk 2) (blk 3) (blk 7) k (p * nb) nb with
            | .error f => some f
            | .ok _ => none
          else match s.streamAt l (blk 2) (blk 3) (blk 7) k 0 (fwBBytes w) with
            | .error f => some f
            | .ok _ => none
        match chkB with
        | some f => .error (1, f)
        | none =>
          let rowB (p : Nat) : List Byte :=
            if l.x.bsk then
              if kept.contains p then match s.streamAt l (blk 2) (blk 3) (blk 7) k (p * nb) nb with
                | .ok (pl, off) => s.scRead pl off nb
                | .error _ => []
              else []
            else s.scRead (.slot l.lid l.wg (l.slotB.getD 0)) ((k * fwKl w + p) * 64 * eb (fwB w) / 8) nb
          .ok { a := s.loopRows l l.slotA (fun r => (r * (fwKs w * ks) + k * fwKs w) * eb (fwA w) / 8) stA 64 na
                b := (List.range (fwKl w)).map rowB
                m := m }

/-- The accumulator after a step, and the flags. -/
def State.stepOut (s : State) (l : Loop) (i : StepIn) : List Byte × BitVec 7 :=
  let w := l.ls.fmtw
  let ba := shBits (w32 (fwA w))
  let bb := shBits (w32 (fwB w))
  let acc := s.scRead (.slot l.lid l.wg l.slotC) 0 16384
  (List.range 64).foldl (fun (out : List Byte × BitVec 7) r =>
    let ra := i.a.getD r []
    let mw := i.m.getD r 0
    (List.range 64).foldl (fun (out : List Byte × BitVec 7) c =>
      let ps := (List.range (fwKs w)).map fun k =>
        (elemAt ra ba k, elemAt (i.b.getD (if fwSp w then metaPos mw k else k) []) bb c)
      let old := numAt acc ((r * 64 + c) * 4) 4
      let x := if fwTernary w then stepTernary old ps
        else stepFloat (codeFmt (fwA w)) (codeFmt (fwB w)) (fwScale w) old ps
      (out.1 ++ natToBytes 4 x.1, out.2 ||| x.2)) out) ([], 0)

/-- The step waits for earlier operations on its handles. -/
def State.loopBlocked (s : State) (l : Loop) : Bool :=
  s.slotBlocked l.lid l.wg l.slotC true l.stamp ||
    [l.slotA, l.slotB, l.slotM].any fun k => match k with
      | some k => s.slotBlocked l.lid l.wg k false l.stamp
      | none => false

/-- Stop(L, f): the loop stays with FLT, and each participant that has not ended has the fault deferred (R316). A loop whose
workgroup has ended goes with it. (DEDUCED, log entry 41) -/
def State.stopLoop (s : State) (die site : Nat) (l : Loop) (src : Nat) (f : Flt) : State :=
  let l := { l with ls := { l.ls with run := false, flt := true }, lost := [] }
  if (s.wg l.lid l.wg).st == .ended then s.refreshAll l.lid l.wg
  else
    let s := ((s.updCore die site fun c => { c with loops := c.loops ++ [l] }).showLoop l)
    let live := l.parts.filter s.live
    live.foldl (fun s t =>
      let same := live.filter fun u => u.wg == t.wg && u.wave == t.wave
      let r : TrapRec :=
        { code := f.code, def_ := true, fpc := l.pc, mask := maskOf same same, det0 := f.d0, det1 := f.d1, det2 := f.d2
          det3 := w32 (l.ls.kdone + src * 2 ^ 14), names := loopHandles l.x }
      s.updThr t fun th => { th with deferred := th.deferred ++ [r] }) s

/-- One step of a loop, which has been taken off the rotation: it goes to the end of it, or is over. -/
def State.loopStep (s : State) (die site : Nat) (l : Loop) : State :=
  match s.stepIn l with
  | .error (src, f) => s.stopLoop die site l src f
  | .ok i =>
    let (bytes, fl) := s.stepOut l i
    let s := (s.scWrite (.slot l.lid l.wg l.slotC) 0 bytes).draw
    let s := (s.setWaves l.lid l.inst l.set).foldl (fun s m =>
      s.setFlags { lid := l.lid, wg := m.1, wave := m.2, lane := 0 } fl) s
    let s := s.count die (some site) 0x200 (some (s.launch l.lid).ctx) (some l.lid) (some l.wg) none 1
    let done := l.ls.kdone + 1 = l.ls.loopw.toNat % 2 ^ 13
    let l := { l with ls := { l.ls with kdone := l.ls.kdone + 1, run := !done } }
    let s := if done then s else s.updCore die site fun c => { c with loops := c.loops ++ [l] }
    let s := s.showLoop l
    if done then s.refreshAll l.lid l.wg else s

/-- Loops that a core runs: neither stopped by a fault nor waiting for a place. -/
def Core.running (k : Core) : Nat := (k.loops.filter fun l => !l.ls.flt && !l.wait).length

/-- Loops that were restored or restarted while four ran take the places that have become free (R310). -/
def Core.seat (k : Core) : Core :=
  let go := ((k.loops.filter fun l => l.wait && !l.ls.flt).take (4 - k.running)).map Loop.stamp
  { k with loops := k.loops.map fun l => if go.contains l.stamp then { l with wait := false } else l }

/-- A loop that goes on at a core waits for a place where four run there. -/
def Core.resume (k : Core) (l : Loop) : Loop := { l with wait := 4 ≤ k.running }

/-- MATRIX_STEP: the next loop in rotation that can step does. -/
def execMatrixStep (die site : Nat) (s : State) : Out :=
  .next (
    let s := s.updCore die site Core.seat
    match (s.core die site).loops.find? fun l =>
      !l.ls.flt && !l.wait && !s.loopBlocked l && !s.acked die l.lid l.inst (.matrix site) with
    | none => s
    | some l => (s.updCore die site fun c => { c with loops := c.loops.erase l }).loopStep die site l)

/-- TRAPRET FIX or RETRY of a deferred fault: the stopped loop goes on at KDONE, once (R316). -/
def State.restartLoop (s : State) (t : TRef) (r : TrapRec) : State :=
  let g := s.wgOf t
  let hit (l : Loop) : Bool := l.ls.flt && l.parts.contains t && l.pc == r.fpc && loopHandles l.x == r.names
  match (s.core g.die g.site).loops.find? hit with
  | none => s
  | some l =>
    let l' := (s.core g.die g.site).resume { l with ls := { l.ls with flt := false, run := true } }
    (s.updCore g.die g.site fun c => { c with loops := c.loops.map fun x => if x == l then l' else x }).showLoop l'

/-! ## MZERO, MREAD and MCVT, R318 to R320 -/

/-- The first active thread of a thread's wave: it acts for the wave, and its pointer A and pitch B are those of an MREAD with DK 0
(R319). (DESIGN CHOICE, log entry 149) -/
def leadOf (act : List TRef) (t : TRef) : TRef :=
  (act.find? fun u => u.lid == t.lid && u.wg == t.wg && u.wave == t.wave).getD t

/-- The threads that act, one for each wave, in wave order. -/
def leads (act : List TRef) : List TRef :=
  sortBy (fun (a b : TRef) => a.wg < b.wg || (a.wg == b.wg && a.wave ≤ b.wave)) (act.filter fun t => leadOf act t == t)

/-- A form of R318: a delivery point for its handles; checks for each wave; it waits for what is pending on the handles that
it reads and writes; then it acts once for each wave. -/
def State.waveForm (s : State) (h : Hdr) (n : Need) (rd wr : List Nat) (chk : List TRef → TRef → State → Option (Nat × Flt))
    (busy : TRef → State → Bool) (eff : TRef → State → State) (each : TRef → State → State) : State :=
  s.issue h n fun act s =>
    match s.deliver (hlen h) (s.inactive h.pred) act false (fun r => r.names.any (rd ++ wr).contains) with
    | some s' => s'
    | none =>
      s.guardFaults (hlen h) h.pred act true (fun t => chk act (leadOf act t) s) fun s =>
        let held (t : TRef) : Bool :=
          let slot (h : Nat) : Nat := (s.handle t.lid t.wg h).slot
          (rd.any fun h => s.slotBlocked t.lid t.wg (slot h) false (s.stamp + 1)) ||
            (wr.any fun h => s.slotBlocked t.lid t.wg (slot h) true (s.stamp + 1)) || busy t s
        if (leads act).any held then s
        else
          let s := (leads act).foldl (fun s t => eff t s) s
          (act.foldl (fun s t => each t s) s).retireAll (hlen h) s.cur.threads

/-- The use of a handle by a thread's wave. -/
def State.useOf (s : State) (t : TRef) (h : Nat) : Option Flt := handleUse (s.handle t.lid t.wg h) h (· == t.wave)

def State.slotPlace (s : State) (t : TRef) (h : Nat) : Place := .slot t.lid t.wg (s.handle t.lid t.wg h).slot

def shapeBytes (w : Word) : Nat := (shRows w * shCols w * shBits w + 7) / 8

def execMzero (h : Hdr) (hn : BitVec 6) (s : State) : Out :=
  .next (s.waveForm h {} [] [hn.toNat] (fun _ t s => (s.useOf t hn.toNat).map fun f => (0, f)) never
    (fun t s =>
      let n := shapeBytes (s.handle t.lid t.wg hn.toNat).shape
      (s.scWrite (s.slotPlace t hn.toNat) 0 (List.replicate n 0)).updHandle t.lid t.wg hn.toNat fun x =>
        { x with ls := { x.ls with kdone := 0, flt := false, skip := false } })
    fun _ s => s)

def isAcc (w : Word) : Bool := w == 0x00080406 || w == 0x00080407

/-- The pitch of an MREAD to scratch. -/
def mreadPitch (b : Nat) : Option Nat := if b = 0 then some 256 else if b % 4 = 0 ∧ 256 ≤ b then some b else none

/-- Where a wave's MREAD goes in scratch. -/
def State.mreadAt (s : State) (h : Hdr) (x : MreadX) (t : TRef) : Except (Nat × Flt) (Place × Nat × Nat) :=
  let r := s.rd t 0 h.lit
  let p := r.r64 h.a
  match mreadPitch (r.r32 h.b).toNat with
  | none => .error (0, s.operandFlt 2 h.b)
  | some pitch =>
    if ptrOff p % 4 ≠ 0 then .error (1, scFlt .misaligned p (ptrOff p) 4)
    else match s.scratch t x.lv true false p (ptrOff p) (spanOf 256 64 pitch) with
      | .error f => .error (2, f)
      | .ok (pl, off) => .ok (pl, off, pitch)

/-- The first fault of an MREAD, ranked as R239 ranks; the shape comes last. -/
def State.mreadChk (h : Hdr) (x : MreadX) (t : TRef) (s : State) : Option (Nat × Flt) :=
  let hs := s.handle t.lid t.wg x.h.toNat
  let shape : Option (Nat × Flt) := if isAcc hs.shape then none else some (4, shapeFlt x.h.toNat 2)
  match s.useOf t x.h.toNat with
  | some f =>
    let p := (s.rd t 0 h.lit).r64 h.a
    if !x.dk && ptrOff p % 4 ≠ 0 then some (1, scFlt .misaligned p (ptrOff p) 4) else some (3, f)
  | none =>
    if x.dk then match s.useOf t x.hd.toNat with
      | some f => some (3, f)
      | none => if isAcc hs.shape then
          if (s.handle t.lid t.wg x.hd.toNat).shape == hs.shape then none else some (4, shapeFlt x.hd.toNat 2)
        else shape
    else match s.mreadAt h x t with
      | .error e => some e
      | .ok _ => shape

/-- The status word of MREAD (R319). -/
def LoopSt.status (l : LoopSt) : Nat :=
  l.kdone % 2 ^ 13 + (if l.skip then 2 ^ 15 else 0) + l.loopw.toNat % 2 ^ 13 * 2 ^ 16

/-- DEDUCED, log entry 61. -/
def execMread (h : Hdr) (x : MreadX) (s : State) : Out :=
  .next (s.waveForm h
    { d := .dst, a := if x.dk then .unused else .addr, b := if x.dk then .unused else .src }
    [x.h.toNat] (if x.dk then [x.hd.toNat] else []) (fun _ t s => s.mreadChk h x t)
    (fun t s => !x.dk && match s.mreadAt h x t with
      | .ok (p, off, pitch) => (s.waveThreads t).any fun u => s.scBusy u true p off (spanOf 256 64 pitch)
      | .error _ => false)
    (fun t s =>
      let b := s.scRead (s.slotPlace t x.h.toNat) 0 16384
      let s := s.draw
      if x.dk then s.scWrite (s.slotPlace t x.hd.toNat) 0 b
      else match s.mreadAt h x t with
        | .ok (p, off, pitch) => (List.range 64).foldl (fun s r => s.scWrite p (off + r * pitch) ((b.drop (256 * r)).take 256)) s
        | .error _ => s)
    fun t s => s.updThr t fun th => th.setD false h.d (s.handle t.lid t.wg x.h.toNat).ls.status)

/-- The format code of MCVT's TYPE in HD's shape. -/
def mcvtCode : Ty → Nat
  | .e4m3 => 0 | .e5m2 => 1 | .bf16 => 2 | .f16 => 3 | .f32 => 6 | _ => 4

/-- c × scale as a value, and NV for 0 × ∞ (R320). Where both are NaN, the accumulator's counts as the first operand.
(DESIGN CHOICE, log entry 122) -/
def mcvtIn (i32 : Bool) (c : Nat) (sc : Option Nat) : FVal × BitVec 7 :=
  let cv : FVal := if i32 then .fin (signed 32 c < 0) (signed 32 c).natAbs 0 else fmtF32.decode c
  match sc with
  | none => (cv, 0)
  | some q =>
    let sv := fmtF32.decode q
    let nv := flagIf (cv.isSnan || sv.isSnan) fNV
    match cv, sv with
    | .nan .., _ => (cv, nv)
    | _, .nan .. => (sv, nv)
    | .fin n m e, .fin n' m' e' => (.fin (n != n') (m * m') (e + e'), 0)
    | x, y => if x.isZero || y.isZero then (.nan false (2 ^ 22) true, fNV) else (.inf (x.neg != y.neg), 0)

/-- The element that MCVT writes, and its flags: every TYPE is clamped (R320), so an infinity becomes the largest finite
value of a float TYPE, f32 included, with SN (R63). `ints`: from an integer accumulator without a scale to i8, where
saturation sets SN alone (R68). -/
def mcvtOut (ty : Ty) (r : Rnd) (ints : Bool) (v : FVal) : Nat × BitVec 7 :=
  match tyFmt? ty with
  | some f => match v with
    | .nan neg frac quiet => (nanConv fmtF32 f neg frac, flagIf (!quiet) fNV)
    | .inf neg => (f.withSign neg f.maxPat, fSN)
    | .fin neg m e => f.satTo r neg m e
  | none => match v with
    | .nan .. => (0, fNV)
    | .inf neg => (wrap 8 (if neg then -128 else 127), fSN)
    | .fin neg m e =>
      let (k, inexact) := roundInt r neg m e
      let i : Int := if neg then -(k : Int) else k
      let c := clampTy .i8 i
      (wrap 8 c, flagIf (inexact || (c != i && !ints)) fNX ||| flagIf (c != i) fSN)

def State.mcvtChk (h : Hdr) (x : McvtX) (t : TRef) (s : State) : Option (Nat × Flt) :=
  let hs := x.hs.toNat
  let hd := x.hd.toNat
  let hr := x.hr.toNat
  let sh (h : Nat) : Word := (s.handle t.lid t.wg h).shape
  match (s.useOf t hs).or ((s.useOf t hd).or (if x.sc then s.useOf t hr else none)) with
  | some f => some (0, f)
  | none =>
    if !isAcc (sh hs) then some (1, shapeFlt hs 2)
    else if sh hd != shapeOf (mcvtCode h.ty) 64 64 || (hs = hd && h.ty != .f32) then some (1, shapeFlt hd 2)
    else if x.sc && sh hr != 0x00002406 then some (1, shapeFlt hr 2)
    else none

/-- The elements of HD, and the flags. -/
def State.mcvtAll (s : State) (h : Hdr) (x : McvtX) (t : TRef) : List Byte × BitVec 7 :=
  let i32 := (s.handle t.lid t.wg x.hs.toNat).shape == 0x00080407
  let b := s.scRead (s.slotPlace t x.hs.toNat) 0 16384
  let sc := if x.sc then some (s.scRead (s.slotPlace t x.hr.toNat) 0 256) else none
  (List.range 64).foldl (fun (out : List Byte × BitVec 7) r =>
    (List.range 64).foldl (fun (out : List Byte × BitVec 7) c =>
      let v := mcvtIn i32 (numAt b ((r * 64 + c) * 4) 4) (sc.map fun q => numAt q (4 * r) 4)
      let y := mcvtOut h.ty h.rnd (i32 && !x.sc) v.1
      (out.1 ++ natToBytes (h.ty.bits / 8) y.1, out.2 ||| v.2 ||| y.2)) out) ([], 0)

def execMcvt (h : Hdr) (x : McvtX) (s : State) : Out :=
  .next (s.waveForm h {} ([x.hs.toNat] ++ if x.sc then [x.hr.toNat] else []) [x.hd.toNat]
    (fun _ t s => s.mcvtChk h x t) never
    (fun t s =>
      let r := s.mcvtAll h x t
      ((s.scWrite (s.slotPlace t x.hd.toNat) 0 r.1).draw).setFlags t r.2)
    fun _ s => s)

/-! ## MGATE_DECISION, R321 to R325 -/

/-- The larger of two finite or infinite values. -/
def fvalLt (x y : FVal) : Bool := fcmp x y < 0

/-- The counted scores of a tile. -/
def State.gateScores (s : State) (t : TRef) (x : MgateX) (pos win : Word) : List FVal :=
  let sh := (s.handle t.lid t.wg x.h.toNat).shape
  let eb := shBits sh
  let b := s.scRead (s.slotPlace t x.h.toNat) 0 (shapeBytes sh)
  let row0 : Int := pos.toNat % 2 ^ 16
  let col0 : Int := pos.toNat / 2 ^ 16
  let wlo := signed 16 (win.toNat % 2 ^ 16)
  let whi := signed 16 (win.toNat / 2 ^ 16)
  (List.range (shRows sh)).flatMap fun (r : Nat) => (List.range (shCols sh)).filterMap fun (c : Nat) =>
    let d : Int := row0 + (r : Int) - (col0 + (c : Int))
    if !x.wen || (wlo ≤ d && d ≤ whi) then
      some ((codeFmt (shFmt sh)).decode (numAt b ((r * shCols sh + c) * eb / 8) (eb / 8)))
    else none

/-- M and whether a counted score was a NaN. -/
def gateMax (l : List FVal) : Option FVal :=
  l.foldl (fun m v => match m with
    | none => some v
    | some y => if fvalLt y v then some v else some y) none

/-- τg by R323: rule 5 is computed exactly before its one rounding. -/
def gateRamp (lo hi : Word) (reserve : Nat) (slack : Int) : Word :=
  match fmtF32.decode lo.toNat, fmtF32.decode hi.toNat with
  | .fin n m e, .fin n' m' e' =>
    let l := toDy n m e
    let d := dyAdd (toDy n' m' e') (-l.1, l.2)
    let (k, e) := dyAdd (l.1 * reserve, l.2) (d.1 * ((reserve : Int) - slack), d.2)
    let x := if k = 0 then 0 else (fmtF32.quot .rup (k < 0) k.natAbs reserve e).1
    if fvalLt (fmtF32.decode hi.toNat) (fmtF32.decode x) then hi else w32 x
  | _, _ => lo

/-- τg of a replay log: the record with the same workgroup, set and number. -/
def State.gateLog (s : State) (ctx : Nat) (log : DWord × Nat) (wg set seq : Nat) : Option Word :=
  (List.range log.2).findSome? fun i =>
    match s.readVa ctx (log.1.toNat + 32 * i) 32 with
    | .ok b => if numAt b 0 4 = wg ∧ numAt b 4 1 = set ∧ numAt b 8 4 = seq then some (w32 (numAt b 12 4)) else none
    | .error _ => none

def State.gateTau (s : State) (t : TRef) (set seq : Nat) : Word :=
  let l := s.launchOf t
  let slack := signed 64 (slackOf l.dline s.now)
  let lo := fmtF32.decode l.gateLo.toNat
  let hi := fmtF32.decode l.gateHi.toNat
  if l.det ≠ 0 || (!fvalLt lo hi && !fvalLt hi lo) then l.gateLo
  else match l.gateReplay with
    | some log => (s.gateLog l.ctx log t.wg set seq).getD l.gateLo
    | none =>
      if (l.reserve : Int) ≤ slack then l.gateLo
      else if slack < 0 then l.gateHi
      else gateRamp l.gateLo l.gateHi l.reserve slack

/-- The record of R325. -/
def gateBytes (t : TRef) (set seq : Nat) (skip : Bool) (tau mx pos : Word) (now : DWord) : List Byte :=
  natToBytes 4 t.wg ++ natToBytes 4 (set + if skip then 2 ^ 8 else 0) ++ natToBytes 4 seq ++ natToBytes 4 tau.toNat ++
    natToBytes 4 mx.toNat ++ natToBytes 4 pos.toNat ++ natToBytes 8 now.toNat

def State.logGate (s : State) (lid : Nat) (b : List Byte) : State :=
  let l := s.launch lid
  match l.skipLog with
  | none => s
  | some (va, n) =>
    if l.logPos < n then
      (s.fwWriteVa .system l.ctx (va.toNat + 32 * l.logPos) b).updLaunch lid fun l => { l with logPos := l.logPos + 1 }
    else s.updLaunch lid fun l => { l with loglost := l.loglost + 1 }

/-- The decision on the leader's words. -/
def State.gateDecide (s : State) (inst set : Nat) (x : MgateX) (lead : SetArr) (parts : List TRef) (voters : List SetArr) : State :=
  let t := lead.thread
  let seq := (s.wgOf t).mgateSeq
  let pos := lo32 lead.a
  let sc := s.gateScores t x pos (lo32 lead.b)
  let s := s.draw
  let tau := s.gateTau t set seq
  let nan := sc.any FVal.isNan
  let m := gateMax (sc.filter fun v => !v.isNan)
  let skip := !nan && match m with
    | none => true
    | some v => fvalLt v (fmtF32.decode tau.toNat)
  let mx : Word := if nan then 0x7FC00000 else match m with
    | none => 0xFF800000
    | some (.inf neg) => if neg then 0xFF800000 else 0x7F800000
    | some (.fin neg m e) => w32 (fmtF32.roundTo .rne neg m e).1
    | some (.nan ..) => 0x7FC00000
  let s := s.logGate t.lid (gateBytes t set seq skip tau mx (if x.wen then pos else 0) s.now)
  let s := s.updWg t.lid t.wg fun g => { g with mgateSeq := g.mgateSeq + 1 }
  let s := s.updSet t.lid inst set fun q => { q with latch := if skip then .skip else .exact }
  let s := voters.foldl (fun s a => s.updThr a.thread fun th => th.setP x.pd.toNat (!skip)) s
  parts.foldl State.finish s

/-- MGATE_DECISION. -/
def execMgateDecision (lid inst set : Nat) (s : State) : Out :=
  .next (match s.mmaReady lid inst set with
    | some (.mgate _ x, arrs) =>
      let parts := arrs.map SetArr.thread
      let voters := arrs.filter SetArr.pred
      match voters with
      | [] => parts.foldl State.finish (s.clearSet lid inst set)
      | lead :: _ =>
        let t := lead.thread
        let hx := s.handle t.lid t.wg x.h.toNat
        match handleUse hx x.h.toNat (s.isMember lid inst set t.wg) with
        | some f => (s.clearSet lid inst set).raiseAll parts f
        | none =>
          if !([2, 3, 6].contains (shFmt hx.shape)) then
            (s.clearSet lid inst set).raiseAll parts (shapeFlt x.h.toNat 2)
          else if s.slotBlocked lid t.wg hx.slot false (s.stamp + 1) then s
          else (s.clearSet lid inst set).gateDecide inst set x lead parts voters
    | _ => s)

end Sys2Proof.Machine
end

