-- ==== Sys2Proof/Machine/Sys.lean ====
section
/-! DEFINITION. The SYS class (R327 to R330, R337 to R341, R353). -/

namespace Sys2Proof.Machine

/-- REGION sets RE to npc (R328); it is no boundary itself. -/
def execRegion (h : Hdr) (s : State) : Out :=
  .next (s.issue h {} fun act s => (s.retireAll (hlen h) (s.inactive h.pred)).retireBoundAll (hlen h) act)

/-! ## TRAPRET, R339, R340 -/

inductive Act where
  | fix | skip | retry | kill
  deriving DecidableEq, Repr

/-- The record that a thread at level 1 handles. -/
def Thread.record (th : Thread) : TrapRec := th.handling.getD { code := .illegalInstruction }

/-- The record admits only KILL: GANG_LOST, an uncorrectable error in on-chip storage, or one in a gang; and every record of
a gang that such an error has struck (R339, R344). -/
def State.onlyKill (s : State) (t : TRef) (r : TrapRec) : Bool :=
  r.code == .gangLost || (s.inst t.lid (s.wgOf t).inst).softLost || (r.code == .uncorrectable && (r.det2 != 4 || (s.launchOf t).gang != 0))

/-- The action is admitted for the record's code; in a gang that a KILL is ending every action acts as KILL (R358). -/
def State.actOk (s : State) (a : Act) (t : TRef) : Bool :=
  let r := (s.thr t).record
  s.dying t || match a with
  | .kill => true
  | .skip => !s.onlyKill t r && (r.code == .userTrap || r.code == .breakpoint || r.code == .fpException)
  | _ => !s.onlyKill t r

/-- An action that is not admitted: ILLEGAL_INSTRUCTION at level 1. -/
def State.actFault (s : State) (a : Act) (t : TRef) : Option (Nat × Flt) :=
  if s.actOk a t then none else some (0, { code := .illegalInstruction, d0 := 0xB, d1 := s.curW0, d2 := s.curW1 })

/-- The length of the instruction at a code offset of the kernel (R38). -/
def State.lenAt (s : State) (t : TRef) (pc : Nat) : Nat :=
  4 * lenWords (((s.launchOf t).code.getD (pc / 4) 0).toNat % 4)

/-- The return of a thread to level 0; a deferred step fault restarts its loop (R316). -/
def State.resumeAt (s : State) (t : TRef) (pc : Nat) (restart : Bool) : State :=
  let r := (s.thr t).record
  let s := s.updThr t fun th => { th with icount := th.icount + 1 }
  let s := s.leaveHandler t pc
  if restart && r.def_ then s.restartLoop t r else s

/-- SKIP: the flags that a record carries are acknowledged; otherwise the instruction at FPC is passed over. -/
def State.skipReturn (s : State) (t : TRef) : State :=
  let r := (s.thr t).record
  if r.code = .fpException then (s.clearFlags t (r.det0.setWidth 7)).resumeAt t r.fpc false
  else s.resumeAt t (r.fpc + s.lenAt t r.fpc) false

/-- A ticket that has not completed. -/
def State.ticketOpen (s : State) (ctx : Nat) (id : Nat) : Bool :=
  match tget (s.ctx ctx).tickets id with
  | some k => !k.done
  | none => false

def State.retryReturn (s : State) (h : Hdr) (t : TRef) : State :=
  let id := ((s.rd t 0 h.lit).r32 h.a).toNat
  if s.ticketOpen (s.ctxOf t) id then s.park (.retry id) (hlen h) false t
  else s.resumeAt t (s.thr t).record.rpc true

/-- One thread returns, unless the KILL of another thread of the group has ended it; in a gang that a KILL is ending, the return
acts as KILL (R358). A thread that the return has ended holds its trap slot no longer (R335). -/
def State.returnOne (s : State) (eff : TRef → State → State) (t : TRef) : State :=
  let s := if (s.thr t).ended then s else if s.dying t then s.killReturn t else eff t s
  if (s.thr t).ended then s.giveSlot t else s

/-- A TRAPRET form: the action's admission for every active thread, then each returns. -/
def State.trapret (s : State) (h : Hdr) (a : Act) (n : Need) (eff : TRef → State → State) : State :=
  (s.issue h { n with priv := true } fun act s =>
    s.guardFaults (hlen h) h.pred act true (s.actFault a) fun s =>
      act.foldl (fun s t => s.returnOne eff t) (s.retireAll (hlen h) (s.inactive h.pred))).settle

def execTrapretFix (h : Hdr) (s : State) : Out :=
  .next (s.trapret h .fix {} fun t s => s.resumeAt t (s.thr t).record.rpc true)
def execTrapretSkip (h : Hdr) (s : State) : Out := .next (s.trapret h .skip {} fun t s => s.skipReturn t)
def execTrapretRetry (h : Hdr) (s : State) : Out :=
  .next (s.trapret h .retry { a := .src } fun t s => s.retryReturn h t)
def execTrapretKill (h : Hdr) (s : State) : Out := .next (s.trapret h .kill {} fun t s => s.killReturn t)

/-! ## RDTRAP and WRTRAP, R338 -/

/-- Status of the ticket that the thread's latest PGREQ returned. -/
def State.ticketStatus (s : State) (t : TRef) : Word :=
  match (s.thr t).ticket with
  | none => 0xFFFFFFFF
  | some id => match tget (s.ctx (s.ctxOf t)).tickets id with
    | some k => if k.done then (if k.refused then 1 else 0) else 0xFFFFFFFF
    | none => 0xFFFFFFFF

/-- Word i of the index space: a record word as the trap slot holds it (R335). (DEDUCED, log entry 27) -/
def State.trapWord (s : State) (t : TRef) (i : Nat) : Word :=
  let th := s.thr t
  if i < 16 then
    w32 (numAt (s.slotBytes t (th.slot.getD 0) (4 * i) 4 (((s.recBytes t th.record).drop (4 * i)).take 4)) 0 4)
  else if i < 32 then vget th.v 0 (i - 16)
  else if i = 32 then (th.p ||| 1).setWidth 32
  else if i = 33 then vget th.v 0 126
  else if i = 34 then vget th.v 0 127
  else s.ticketStatus t

/-- The thread's own register of an index from 16 to 34 is written. -/
def Thread.setTrapWord (th : Thread) (i : Nat) (x : Word) : Thread :=
  if i = 32 then { th with p := x.setWidth 8 ||| 1 }
  else { th with v := vset th.v (if i = 33 then 126 else if i = 34 then 127 else i - 16) x }

def State.trapIndex (s : State) (h : Hdr) (t : TRef) : Nat := ((s.rd t 0 h.lit).r32 h.a).toNat

/-- An index outside the admitted range. -/
def State.indexFault (s : State) (h : Hdr) (lo hi : Nat) (t : TRef) : Option (Nat × Flt) :=
  let i := s.trapIndex h t
  if lo ≤ i && i ≤ hi then none else some (0, s.operandFlt 1 h.a)

def execRdtrap (h : Hdr) (s : State) : Out :=
  .next (s.issue h { d := .dst, a := .src, priv := true } fun act s =>
    s.guardFaults (hlen h) h.pred act true (s.indexFault h 0 35) fun s =>
      s.each (hlen h) act fun t s => s.updThr t fun th => th.setD false h.d (s.trapWord t (s.trapIndex h t)).toNat)

def execWrtrap (h : Hdr) (s : State) : Out :=
  .next (s.issue h { a := .src, b := .src, priv := true } fun act s =>
    s.guardFaults (hlen h) h.pred act true (s.indexFault h 16 34) fun s =>
      s.each (hlen h) act fun t s =>
        s.updThr t fun th => th.setTrapWord (s.trapIndex h t) ((s.rd t 0 h.lit).r32 h.b))

/-! ## PGREQ, R353 -/

/-- Ticket(ctx, page): the incomplete request for the page, or a new one. -/
def State.ticketFor (s : State) (ctx page : Nat) : Nat × State :=
  let c := s.ctx ctx
  match c.tickets.find? fun k => k.2.page == page && !k.2.done with
  | some k => (k.1, s)
  | none => (c.nextTicket, s.updCtx ctx fun c =>
      { c with tickets := tset c.tickets c.nextTicket { page := page }, nextTicket := c.nextTicket % (2 ^ 32 - 1) + 1 })

def execPgreq (h : Hdr) (s : State) : Out :=
  .next (s.issue h { d := .dst, a := .addr, priv := true } fun act s =>
    s.guardFaults (hlen h) h.pred act true (fun t =>
      let a := (s.rd t 0 h.lit).r64 h.a
      if 2 ^ 52 ≤ a.toNat then some (0, accFlt .badAddress a 0 0 0) else none) fun s =>
      s.each (hlen h) act fun t s =>
        let (id, s) := s.ticketFor (s.ctxOf t) (((s.rd t 0 h.lit).r64 h.a).toNat / 65536)
        s.updThr t fun th => { th.setD false h.d id with ticket := some id })

end Sys2Proof.Machine
end

