-- ==== Sys2Proof/Machine/Dbg.lean ====
section
/-! DEFINITION. The DBG class (R354 to R356), event counters as instructions see them (R283, R355), and halts (R285). -/

namespace Sys2Proof.Machine

/-- A wait that the rotation of R274 passes over: a waiting instruction, as against a completion that the picker itself awaits. -/
def Wait.passed : Wait → Bool
  | .none | .walk _ | .release _ | .retry _ => false
  | _ => true

/-- The launch is in deterministic scheduling mode: its threads issue by DET_STEP. -/
def State.stepped (s : State) (lid : Nat) : Bool := (s.launch lid).det == 2

/-- Threads of the last step that have not issued: a page walk, or a copy, held them (R274 ends a step only when every core
has issued its group). -/
def State.unissued (s : State) (lid : Nat) : List TRef :=
  ((s.launch lid).inStep.filter fun x =>
    let th := s.thr x.1
    s.live x.1 && th.trap.isNone && !th.wait.passed && th.icount == x.2.1 && th.pc == x.2.2.1 && th.level == x.2.2.2).map
    Prod.fst

/-- A step boundary: the launch's last step has ended. -/
def State.atBoundary (s : State) (lid : Nat) : Bool := !s.stepped lid || (s.unissued lid).isEmpty

/-- Every thread of a unit halts, or goes on (R285). -/
def State.setHalt (s : State) (lid inst : Nat) (b : Bool) : State :=
  ((s.inst lid inst).members.flatMap fun m => s.wgLive lid m).foldl (fun s t =>
    s.updThr t fun th => { th with halted := b }) s

/-- A unit halts: at once, but a launch in deterministic scheduling mode stops at a step boundary (R285).
(DEDUCED, log entry 107) -/
def State.haltUnit (s : State) (lid inst : Nat) : State :=
  if s.atBoundary lid then s.setHalt lid inst true
  else s.updLaunch lid fun l => { l with haltDue := if l.haltDue.contains inst then l.haltDue else l.haltDue ++ [inst] }

/-- The halts that waited for a launch's step boundary take place. -/
def State.haltsOf (s : State) (lid : Nat) : State :=
  let due := (s.launch lid).haltDue
  if due.isEmpty || !s.atBoundary lid then s
  else (due.foldl (fun s i => s.setHalt lid i true) s).updLaunch lid fun l => { l with haltDue := [] }

/-- The halted unit goes on, and one that was to halt does not. -/
def State.resumeUnit (s : State) (lid inst : Nat) : State :=
  (s.setHalt lid inst false).updLaunch lid fun l => { l with haltDue := l.haltDue.filter fun i => i != inst }

/-- BKPT halts the unit with the thread at npc where a debugger has armed halts; otherwise it raises BREAKPOINT. -/
def execBkpt (h : Hdr) (code : BitVec 16) (s : State) : Out :=
  .next (s.issue h {} fun act s =>
    let stop := act.filter fun t => !(s.launchOf t).bkHalt
    if stop.isEmpty then
      let s := s.retireAll (hlen h) s.cur.threads
      (act.map fun t => (t.lid, (s.wgOf t).inst)).eraseDups.foldl (fun s u => s.haltUnit u.1 u.2) s
    else s.stop (hlen h) h.pred stop { code := .breakpoint, d0 := code.setWidth 32 })

/-! ## Counters -/

/-- The counter that a form names for a thread. -/
def State.counter (s : State) (x : CntX) (t : TRef) : Counter :=
  let g := s.wgOf t
  let i := x.idx.toNat
  match x.scope with
  | .core => vget (s.core g.die g.site).ctrs {} i
  | .die => vget (s.die g.die).ctrs {} i
  | .hub => vget s.hubCtrs {} i

def State.updCounter (s : State) (x : CntX) (t : TRef) (f : Counter → Counter) : State :=
  let g := s.wgOf t
  let i := x.idx.toNat
  match x.scope with
  | .core => s.updCore g.die g.site fun k => { k with ctrs := vupd k.ctrs i f }
  | .die => s.updDie g.die fun d => { d with ctrs := vupd d.ctrs i f }
  | .hub => { s with hubCtrs := vupd s.hubCtrs i f }

/-- Slice k of the control register (R283). -/
def Counter.slice (c : Counter) (k : Nat) : Nat :=
  let b (x : Bool) (n : Nat) : Nat := if x then 2 ^ n else 0
  match k with
  | 0 => c.src.toNat + b c.en 12 + b c.ovf 13 + b c.fl 14 + b c.fr 15 + c.ctx.toNat * 2 ^ 16 + c.tidLo.toNat * 2 ^ 28 +
      c.tidHi.toNat * 2 ^ 38
  | 1 => c.flaunch.toNat
  | _ => c.wgLo.toNat + c.wgHi.toNat * 2 ^ 32

/-- The RW fields of a slice are written; OVF is cleared by a one; CTX stays. -/
def Counter.setSlice (c : Counter) (k : Nat) (a : DWord) : Counter :=
  match k with
  | 0 => { c with
      src := a.extractLsb' 0 12, en := a.getLsbD 12, ovf := c.ovf && !a.getLsbD 13, fl := a.getLsbD 14, fr := a.getLsbD 15
      tidLo := a.extractLsb' 28 10, tidHi := a.extractLsb' 38 10 }
  | 1 => { c with flaunch := a }
  | _ => { c with wgLo := lo32 a, wgHi := hi32 a }

/-- PROTECTION with cause 0b11 where the counter is another context's. -/
def State.counterFault (s : State) (x : CntX) (t : TRef) : Option (Nat × Flt) :=
  if (s.counter x t).ctx.toNat = s.ctxOf t then none else some (0, { code := .protection, d2 := w32 (cause 3) })

def execCntrd (h : Hdr) (x : CntX) (s : State) : Out :=
  .next (s.issue h { d := .dstW } fun act s =>
    s.guardFaults (hlen h) h.pred act true (s.counterFault x) fun s =>
      s.each (hlen h) act fun t s =>
        let c := s.counter x t
        s.updThr t fun th => th.setD true h.d (if x.rsel = 0 then c.count.toNat else c.slice (x.rsel.toNat - 1)))

def execCntwr (h : Hdr) (x : CntX) (s : State) : Out :=
  .next (s.issue h { a := .srcW } fun act s =>
    let a (t : TRef) : DWord := (s.rd t 0 h.lit).r64 h.a
    s.guardFaults (hlen h) h.pred act true (fun t => match s.counterFault x t with
      | some f => some f
      | none => if x.rsel = 0 && a t != 0 then some (1, s.operandFlt 1 h.a) else none) fun s =>
      s.each (hlen h) act fun t s => s.updCounter x t fun c =>
        if x.rsel = 0 then { c with count := 0 } else c.setSlice (x.rsel.toNat - 1) (a t))

end Sys2Proof.Machine
end

