-- ==== Sys2Proof/Machine/Picker.lean ====
section
/-! DEFINITION. Fetch (R30, R327), readiness of threads and the picker (R134 to R138), deterministic scheduling steps (R274)
and sampling (R282): SAMPLE_TAG. -/

namespace Sys2Proof.Machine

/-! ## Fetch -/

/-- The words at a thread's PC that lie before CODESZ, at most five. -/
def State.fetchWords (s : State) (t : TRef) : List Word :=
  (((s.codeOf t).take (s.codeSize t / 4)).drop ((s.thr t).pc / 4)).take 5

/-- A thread's next instruction. -/
def State.nextOf (s : State) (t : TRef) : Instr := (decodeWords (s.fetchWords t)).1

/-! ## Registers that an instruction reads or writes -/

/-- The operand kinds of a long form; the effect instructions are not here, since they use every register. -/
def instrKinds : Instr → Need
  | .add h _ | .sub h _ | .mul h _ | .mulh h _ | .min h _ | .max h _ | .and h _ | .or h _ | .xor h _ | .andn h _
  | .fadd h _ | .fsub h _ | .fmul h _ | .fmin h _ | .fmax h _ | .fdiv h _ | .div h _ | .rem h _ | .sel h _ _ => needAB h.ty
  | .mad h _ | .prmt h _ | .ffma h _ => needABC h.ty
  | .abs h _ | .neg h _ | .not h _ | .brev h _ | .mov h _ | .fabs h _ | .fneg h _ | .frint h _ | .rcp h _ | .rsq h _
  | .sqrt h _ | .exp2 h _ | .log2 h _ | .sin h _ | .cos h _ | .tanh h _ => needA h.ty
  | .shl h _ | .shr h _ | .sar h _ | .bfx h _ | .rot h _ | .fscale h _ | .shflIdx h _ _ | .shflUp h _ _ | .shflDown h _ _
  | .shflXor h _ _ | .bcast h _ _ => needShift h.ty
  | .clz h _ | .ctz h _ | .popc h _ | .fclass h _ => needCount h.ty
  | .bfi h _ => { needAB h.ty with c := .src }
  | .setp h _ | .fsetp h _ => { a := srcK h.ty, b := srcK h.ty }
  | .li h _ | .kmovRead h _ | .voteBallot h _ _ _ => { d := dstK h.ty }
  | .movs _ r => { d := if sriWide r then .dstW else .dst }
  | .movsWrite _ | .movpWrite _ _ | .rinit _ _ | .rwait _ _ _ _ | .rtest _ _ _ | .brkdone _ | .ownshare _ | .owntake _ _ _
  | .talloc _ _ | .tgive _ _ | .garm _ | .garmSig _ | .garmFree _ | .gtest _ _ | .shadowFree _ | .publish _
  | .trapretRetry _ | .jmpi _ | .calli _ => { a := .src }
  | .movpRead _ | .rarrive _ _ _ _ | .qstat _ _ => { d := .dst }
  | .lea _ _ _ => { d := .dstW, a := .srcW, b := .src, c := .src }
  | .cvt h sty _ => { d := dstK h.ty, a := srcK sty }
  | .cvtins _ sty _ => { d := .dst, a := srcK sty }
  | .ld h _ | .ldl h _ | .ldc h _ | .ldd h _ => { d := dstK h.ty, a := .addr }
  | .st h _ | .stl h _ | .stc h _ | .std h _ => { a := .addr, b := srcK h.ty }
  | .atomAdd h _ | .atomMin h _ | .atomMax h _ | .atomAnd h _ | .atomOr h _ | .atomXor h _ | .atomExch h _
  | .atomFadd h _ => { d := dstK h.ty, a := .addr, b := srcK h.ty }
  | .atomCas h _ => { d := dstK h.ty, a := .addr, b := srcK h.ty, c := srcK h.ty }
  | .redux h _ _ | .reduxSet h _ _ | .scan h _ _ _ => { d := dstK h.ty, a := srcK h.ty }
  | .spawn _ _ node => { a := .src, b := .src, c := if node then .src else .unused }
  | .fetch _ _ | .brkinfo _ _ | .cntrd _ _ => { d := .dstW }
  | .launch _ => { d := .dstW, a := .regW }
  | .resid _ self => { a := .src, b := .src, c := if self then .unused else .src }
  | .residm _ => { b := .src }
  | .ldit _ => { d := .dstN 6, a := .src, b := .src }
  | .tmov _ _ => { a := .addr, b := .addr, c := .src }
  | .owngive _ _ | .wrtrap _ => { a := .src, b := .src }
  | .tload _ _ _ | .tstore _ _ _ => { a := .addr, b := .src }
  | .qcfg _ _ | .cntwr _ _ => { a := .srcW }
  | .gnode _ | .shadowNew _ | .pgreq _ => { d := .dst, a := .addr }
  | .gwait _ | .rdtrap _ => { d := .dst, a := .src }
  | .shadowAddr _ => { d := .dstW, a := .src }
  | .mloop _ x => { a := .src, b := .src, c := if loopStreams x then .dstN 9 else .unused }
  | .mgate _ x => { a := if x.wen then .src else .unused, b := if x.wen then .src else .unused }
  | .mread _ x => { d := .dst, a := if x.dk then .unused else .addr, b := if x.dk then .unused else .src }
  | _ => {}

/-- v registers of an operand: first and how many. -/
def OpKind.regs (k : OpKind) (o : Operand) : List (Nat × Nat) :=
  match k, o with
  | .unused, _ => []
  | .dstW, .v n | .cdstW, .v n | .srcW, .v n | .srcF64, .v n | .regW, .v n | .addr, .v n | .sconstW, .v n => [(n.toNat, 2)]
  | .dstN m, .v n | .vregs m, .v n => [(n.toNat, m)]
  | _, .v n => [(n.toNat, 1)]
  | _, _ => []

/-- The v registers that an instruction reads or writes for a thread (R21, R135). Calls use w63; the effect instructions
carry every register, and a thread that gives or claims lines, or ends, does so with nothing outstanding.
(DEDUCED, log entry 29) -/
def State.regsOf (s : State) (t : TRef) (i : Instr) : List (Nat × Nat) :=
  match i with
  | .call .. => [(126, 2)]
  | .calli h => (126, 2) :: OpKind.regs .src h.a
  | .ret .. => [(126, 2)]
  | .hpush .. | .hend .. | .perform .. | .resume .. | .abort .. | .rgive .. | .rclaim .. => [(0, 128)]
  | .push h q => OpKind.regs (.vregs (cwRegs (s.queue t.lid t.wg q.toNat).cw)) h.a
  | .pop h q => OpKind.regs (.vregs (cwRegs (s.queue t.lid t.wg q.toNat).cw)) h.d
  | _ =>
    match i.hdr?, i.short? with
    | some h, _ =>
      let n := instrKinds i
      n.d.regs h.d ++ n.a.regs h.a ++ n.b.regs h.b ++ n.c.regs h.c
    | none, some f =>
      match i with
      | .nopShort _ | .landShort _ => []
      | .movShort _ => OpKind.regs .dst f.d ++ OpKind.regs .src f.a
      | .addw _ | .subw _ => OpKind.regs .dstW f.d ++ OpKind.regs .srcW f.a ++ OpKind.regs .srcW f.b
      | _ => OpKind.regs .dst f.d ++ OpKind.regs .src f.a ++ OpKind.regs .src f.b
    | none, none => []

/-- Special-function results of a thread. -/
def State.sfuOf (s : State) (t : TRef) : List Result := s.results.filter fun r => r.thread == t

/-- Registers of a thread that an outstanding load or result will write. -/
def State.awaited (s : State) (t : TRef) : List (Nat × Nat) :=
  ((s.loads.filter fun l => l.thread == t).map fun l => (l.dst, if tyWide l.ty then 2 else 1)) ++
    (s.sfuOf t).map fun r => (r.dst, r.vals.length)

/-! ## Slots, R134 -/

/-- The slot an instruction issues in: 0 vector, 1 memory, 2 engine. Words that are no instruction go to the vector slot.
(DEDUCED, log entry 28) -/
def instrSlot (i : Instr) : Nat :=
  match longParts i with
  | some (maj, _, _) =>
    if maj = 0x0A || (0x10 ≤ maj && maj ≤ 0x13) then 1 else if 0x14 ≤ maj && maj ≤ 0x16 then 2 else 0
  | none => 0

/-- An instruction of the special-function unit. -/
def isSfu (i : Instr) : Bool :=
  match longParts i with
  | some (maj, _, _) => maj == 0x07
  | none => false

/-- An f64 form of the FLT class. -/
def isF64 (i : Instr) : Bool :=
  match longParts i, i.hdr? with
  | some (maj, _, _), some h => maj == 0x05 && h.ty == .f64
  | _, _ => false

/-! ## Readiness, R135 -/

/-- The thread stands at an instruction that it may execute: it runs, and nothing stops it. -/
def State.standing (s : State) (t : TRef) : Bool :=
  let th := s.thr t
  let g := s.wgOf t
  g.st == .running && !th.ended && th.wait == .none && th.trap.isNone && !th.halted &&
    !s.acked g.die t.lid g.inst (.picker g.site)

/-- A loop of the thread's runs: its steps may still set flags (R21). -/
def State.loopRuns (s : State) (t : TRef) : Bool := (s.loopsOf t).any fun l => !l.ls.flt

/-- What an instruction waits for has arrived (R21, R110, R247): a read or a clearing of %fpflags waits for all that the thread has
begun and that may set them, results of special functions and steps of an MLOOP. -/
def State.arrived (s : State) (t : TRef) (i : Instr) : Bool :=
  let aw := s.awaited t
  (s.regsOf t i).all (fun r => aw.all fun x => !overlaps r.1 r.2 x.1 x.2) &&
    (!isSfu i || (s.sfuOf t).length < 8) &&
    match i with
    | .movs _ .fpflags | .movsWrite _ => (s.sfuOf t).isEmpty && !s.loopRuns t
    | .bar .. | .sbar .. | .rwait .. | .waitj .. | .phase .. => !s.sfuOfWave t
    | _ => true

/-- A thread that the picker may take, with its next instruction. -/
structure Cand where
  t : TRef
  i : Instr
  last : Nat
  tid : Nat
  level : Nat
  pc : Nat

def State.cand (s : State) (t : TRef) : Cand :=
  let th := s.thr t
  { t := t, i := s.nextOf t, last := th.last, tid := s.tid t, level := th.level, pc := th.pc }

/-- The key of R136. -/
def candLt (a b : Cand) : Bool :=
  a.t.lid < b.t.lid || (a.t.lid == b.t.lid && (a.t.wg < b.t.wg || (a.t.wg == b.t.wg && a.tid ≤ b.tid)))

def oldest (a b : Cand) : Bool := a.last < b.last || (a.last == b.last && candLt a b)

/-- The threads of the workgroups that run on a core. -/
def State.onCore (s : State) (die site : Nat) : List TRef :=
  (tkeys s.threads).filter fun t => (s.wgOf t).die == die && (s.wgOf t).site == site && s.standing t

/-! ## Forming the groups of one cycle, R136 -/

/-- Groups formed so far in a cycle at a core, and until when its pipes and its special-function unit are occupied. -/
structure Picked where
  groups : List (List Cand) := []
  pipe0 : Nat
  pipe1 : Nat
  sfu : Nat

/-- One group out of the candidates: t0's launch, level and PC, the 64 that issued longest ago, in slot order (R137). -/
def takeGroup (c : List Cand) : List Cand :=
  match sortBy oldest c with
  | [] => []
  | t0 :: ts =>
    sortBy candLt ((t0 :: ts).filter (fun x => x.t.lid == t0.t.lid && x.level == t0.level && x.pc == t0.pc) |>.take 64)

def notIn (gs : List (List Cand)) (x : Cand) : Bool := gs.all fun g => g.all fun y => y.t != x.t

/-- A group takes a vector pipe, the first or the second, and what it occupies stays so (R134). -/
def Picked.vector (p : Picked) (cycle : Nat) (first : Bool) (g : List Cand) : Picked :=
  let n := (g.length + 15) / 16
  let busy := cycle + if g.any fun x => isF64 x.i then n else 1
  { groups := p.groups ++ [g]
    pipe0 := if first then busy else p.pipe0
    pipe1 := if first then p.pipe1 else busy
    sfu := if g.any fun x => isSfu x.i then cycle + n else p.sfu }

/-- A vector pipe takes a group. -/
def pickVector (cycle : Nat) (c : List Cand) (first : Bool) (p : Picked) : Picked :=
  let until_ := if first then p.pipe0 else p.pipe1
  if cycle < until_ then p
  else match takeGroup (c.filter fun x => instrSlot x.i == 0 && notIn p.groups x && (!isSfu x.i || p.sfu ≤ cycle)) with
    | [] => p
    | g => p.vector cycle first g

/-- The memory or the engine slot takes a group. -/
def pickSlotGroup (c : List Cand) (slot : Nat) (p : Picked) : Picked :=
  match takeGroup (c.filter fun x => instrSlot x.i == slot && notIn p.groups x) with
  | [] => p
  | g => { p with groups := p.groups ++ [g] }

/-- Vector groups, then the memory group, then the engine group. -/
def pickCore (cycle : Nat) (k : Core) (c : List Cand) : Picked :=
  pickSlotGroup c 2 (pickSlotGroup c 1 (pickVector cycle c false (pickVector cycle c true
    { pipe0 := k.pipe0, pipe1 := k.pipe1, sfu := k.sfu })))

/-- The level that serves a scratch pointer (R282): the core, the cluster for another core of it, or the die. -/
def State.scServing (s : State) (t : TRef) (p : DWord) : Nat :=
  match s.bufNamed (s.wgOf t).die (s.ctxOf t) (ptrBuf p) with
  | some b => match b.lvl with
    | .core => if ptrPeer p = 0 then 2 else 3
    | .cluster => 3
    | .die => 4
  | none => if ptrPeer p = 0 then 2 else 3

/-- The level that serves a global access: host memory, or HBM. -/
def Acc.serving (a : Acc) : Nat := if a.locs.any hostLoc then 6 else 5

def State.memServing (s : State) (h : Hdr) (off : BitVec 24) (k : AKind) (t : TRef) : Nat := (s.memAcc h off k t).serving

/-- The level that serves 4 bytes of the thread's stack at an address. -/
def State.stackServing (s : State) (t : TRef) (va : DWord) : Nat := (s.access t 0 va 4 false false).serving

/-- No memory serves an instruction: a register cache, the register space or none does, freely. (DESIGN CHOICE, log entry 17) -/
def State.regServing (s : State) : Nat := [0, 1, 15].getD (Config.pick s.freeCtr % 3) 15

/-- The serving level that a sample record shows for a thread's instruction (R282): of frames, captures and the records of
handlers, that of the thread's stack; of queues and tile slots, that of the core, in whose memory they lie (R209). -/
def State.serving (s : State) (t : TRef) (i : Instr) : Nat :=
  match i with
  | .ld h off => s.memServing h off 0 t
  | .st h off => s.memServing h off 1 t
  | .atomAdd h x | .atomMin h x | .atomMax h x | .atomAnd h x | .atomOr h x | .atomXor h x | .atomExch h x
  | .atomCas h x | .atomFadd h x => s.memServing h x.off 2 t
  | .ldit h => match (s.die (s.wgOf t).die).entry (s.ctxOf t) ((s.rd t 0 h.lit).r32 h.a) with
    | some (_, e) => (s.access t 0 e.pub 4 false false).serving
    | none => s.regServing
  | .gnode h | .shadowNew h | .launch h => (s.access t 0 ((s.rd t 0 h.lit).r64 h.a) 4 false false).serving
  | .call .. | .calli .. => s.stackServing t ((s.thr t).sp - 16)
  | .ret .. | .perform .. | .resume .. | .abort .. => s.stackServing t (s.thr t).sp
  | .hpush .. => if (s.thr t).held.length < 8 then s.regServing else s.stackServing t ((s.thr t).sp - 32)
  | .hend .. => match (s.thr t).deep with
    | va :: _ => s.stackServing t va
    | [] => s.regServing
  | .ldl h _ | .stl h _ | .ldc h _ | .stc h _ | .ldd h _ | .std h _ | .tload h _ _ | .tstore h _ _ =>
    s.scServing t ((s.rd t 0 h.lit).r64 h.a)
  | .tmov h _ => s.scServing t ((s.rd t 0 h.lit).r64 h.b)
  | .mread h x => if x.dk then 2 else s.scServing t ((s.rd t 0 h.lit).r64 h.a)
  | .push .. | .pop .. => 2
  | _ => s.regServing

/-- The groups stand ready to issue; their threads carry this cycle (R136), and the events of R284 count them. -/
def State.sendGroups (s : State) (die site : Nat) (gs : List (List Cand)) : State :=
  let s := gs.foldl (fun s g => match g with
    | [] => s
    | x :: _ =>
      let s := g.foldl (fun s x => (s.updThr x.t fun th => { th with last := s.cycle }).countT x.t 0x002 1) s
      let s := (s.countT x.t 0x001 1).countT x.t 0x104 (Config.lineFills s.cycle (36 * die + site))
      { s with issueQ := s.issueQ ++ [{ threads := g.map Cand.t, level := x.level, pc := x.pc }] }) s
  s.updCore die site fun k => { k with lastGroup := (gs.headD []).head?.map fun x =>
    (x.t, x.pc, (s.fetchWords x.t).headD 0, (gs.headD []).length, s.serving x.t x.i) }

/-- A memory slot that a full walk queue has stalled goes on once the queue has room (R351). -/
def State.unstall (s : State) (die site : Nat) : State :=
  if (s.core die site).stalled && (s.die die).walkRoom then s.updCore die site fun k => { k with stalled := false } else s

/-- Four loops run on a core and a fifth may start: the engine slot holds its group, and takes none, until one ends (R310). -/
def State.engineHeld (s : State) (die site : Nat) : Bool :=
  4 ≤ (s.core die site).running && s.insts.any fun x => !x.2.ended &&
    (x.2.members.any fun m => s.runs x.1.1 m && (s.wg x.1.1 m).die == die && (s.wg x.1.1 m).site == site) &&
    x.2.sets.any fun k => match s.mmaReady x.1.1 x.1.2 k.1 with
      | some (.mloop .., _) => (s.setThreads x.1.1 x.1.2 k.1).any fun t => (s.wgOf t).die == die && (s.wgOf t).site == site
      | _ => false

/-- A core's slot takes groups at all: a stalled memory slot and a held engine slot do not. -/
def State.slotOpen (s : State) (die site slot : Nat) : Bool :=
  !(slot == 1 && (s.core die site).stalled && !(s.die die).walkRoom) && !(slot == 2 && s.engineHeld die site)

/-- The slot of an instruction can accept a group at a core in a cycle: a vector group needs a pipe, one of special functions
their unit too (R134, R135). -/
def State.accepts (s : State) (die site cyc : Nat) (i : Instr) : Bool :=
  let k := s.core die site
  s.slotOpen die site (instrSlot i) && (instrSlot i != 0 ||
    ((k.pipe0 ≤ cyc || k.pipe1 ≤ cyc) && (!isSfu i || k.sfu ≤ cyc)))

/-- The threads of a core that are ready in a cycle, but for those of launches in deterministic scheduling mode (R135). -/
def State.readyAt (s : State) (die site cyc : Nat) : List Cand :=
  let c := ((s.onCore die site).filter fun t => !s.stepped t.lid).map s.cand
  c.filter fun x => s.arrived x.t x.i && s.accepts die site cyc x.i

/-- The picker of one core in this cycle. -/
def State.pickAt (s : State) (die site : Nat) : State :=
  let s := s.unstall die site
  let p := pickCore s.cycle (s.core die site) (s.readyAt die site s.cycle)
  let s := s.updCore die site fun k => { k with pipe0 := p.pipe0, pipe1 := p.pipe1, sfu := p.sfu }
  s.sendGroups die site p.groups

/-- No thread is ready on a core in this cycle (R135), of whichever launch. -/
def State.noneReady (s : State) (die site : Nat) : Bool :=
  (s.onCore die site).all fun t => !(s.arrived t (s.nextOf t) && s.accepts die site s.cycle (s.nextOf t))

/-- The counter is set to cycles with no ready thread (R284). -/
def Counter.idle (c : Counter) : Bool := c.src == 0x003

/-- The live cores on which no thread is ready in this cycle, as far as a counter of the core, of its die or of the hub asks. -/
def State.idleCores (s : State) : List (Nat × Nat) :=
  let hub := s.hubCtrs.toList.any Counter.idle
  (List.range 24).flatMap fun d =>
    let x := s.die d
    if !x.online then []
    else
      let die := hub || x.ctrs.toList.any Counter.idle
      (x.sites.filter fun i => (die || (s.core d i).ctrs.toList.any Counter.idle) && s.noneReady d i).map fun i => (d, i)

/-- Cycles with no ready thread, event 0x003 (R284). -/
def State.countIdle (s : State) : State :=
  s.idleCores.foldl (fun s c => s.count c.1 (some c.2) 0x003 none none none none 1) s

/-- Cores that hold a running workgroup. -/
def State.busyCores (s : State) : List (Nat × Nat) :=
  ((s.wgs.filter fun g => g.2.st == .running).map fun g => (g.2.die, g.2.site)).eraseDups

/-! ## Waits that end when what they wait for has come -/

/-- The next instruction is an atomic, a PUBLISH, or an ownership transfer beyond the unit, which need their unit's turn (R265,
R267). -/
def State.needsTurn (s : State) (t : TRef) : Instr → Bool
  | .atomAdd .. | .atomMin .. | .atomMax .. | .atomAnd .. | .atomOr .. | .atomXor .. | .atomExch .. | .atomCas ..
  | .atomFadd .. | .publish .. => true
  | .owngive h tk => s.giveOut h tk t
  | .ownshare h => s.shareOut h t
  | _ => false

/-- The instruction waits for its unit's turn, and for no order among the unit's threads. -/
def turnOnly : Instr → Bool
  | .garm .. | .garmSig .. | .launch .. | .resid _ false => true
  | _ => false

/-- A version that has retired is free of readers: a write to it waits no longer (R261). The end of an update does not wait for what
the update itself selects. -/
def State.shadowClear (s : State) (t : TRef) (e : Nat) : Bool :=
  let but := match s.nextOf t with
    | .exit .. => some (t.lid, t.wg)
    | _ => none
  match tget (s.die (s.wgOf t).die).pubs e with
  | some p => !s.versionBusyBut but (s.wgOf t).die e (!p.cur)
  | none => true

/-- The threads of a wave that wait for their turn at one instruction. -/
def State.companions (s : State) (t : TRef) : List TRef :=
  let a := s.thr t
  (s.waveThreads t).filter fun u =>
    let b := s.thr u
    u != t && s.live u && b.wait == .turn && b.pc == a.pc && b.level == a.level

/-- The thread's wait is over, and it issues its instruction again. -/
def State.waitOver (s : State) (t : TRef) : Bool :=
  match (s.thr t).wait with
  | .turn =>
    let i := s.nextOf t
    if turnOnly i then s.turnOpen t.lid t.wg else s.detMay (s.companions t) (s.needsTurn t i) t
  | .owntake .. => s.takeAgain t
  | .shadow e => s.shadowClear t e
  | _ => false

/-- Threads whose wait is over go back to their instruction. -/
def State.wake (s : State) : State :=
  ((tkeys s.threads).filter s.waitOver).foldl State.rejoin s

/-! ## Device time and the cycle -/

/-- A point's watchdog counts: a thread waits there, and neither a halt, a pre-emption nor a switch-out suspends it
(R168). -/
def State.watchdogRuns (s : State) (lid : Nat) (inst : Nat) (pt : Nat) : Bool :=
  let ms := (s.inst lid inst).members
  !(s.ctx (s.launch lid).ctx).out && (ms.all fun m => (s.wg lid m).st != .preempted) &&
    ((ms.flatMap fun m => s.wgLive lid m).all fun t => !(s.thr t).halted) && !(s.waitersAt lid inst pt).isEmpty

/-- Device time passes: %now and the watchdogs. -/
def State.pass (s : State) (ns : Nat) : State :=
  let ws := s.insts.flatMap fun x =>
    if x.2.ended then []
    else ((List.range 24).filter fun pt => s.watchdogRuns x.1.1 x.1.2 pt).map fun pt => (x.1, pt)
  ws.foldl (fun s w => s.updInst w.1.1 w.1.2 fun x =>
      { x with points := vupd x.points w.2 fun p => { p with wd := p.wd + ns } })
    { s with now := s.now + BitVec.ofNat 64 ns }

/-- A cycle begins: time passes, and waits that are over end. (DEDUCED, log entry 64) -/
def State.nextCycle (s : State) : State :=
  let s := (s.pass (Config.tick s.freeCtr)).draw
  let s := { s with cycle := s.cycle + 1 }
  (tkeys s.launches).foldl State.haltsOf (s.countModule 0x000).wake

/-! ## Deterministic scheduling mode, R274 -/

/-- What a core does in a step: nothing, a wave's group, or the step cannot yet be made. -/
inductive DetPick where
  | idle
  | group (g : List Cand)
  | notYet

/-- The waves of a launch on a core, in (%wg, %wave) order. -/
def State.ring (s : State) (lid die site : Nat) : List (Nat × Nat) :=
  let ws := (s.waves.filter fun w => w.1.1 == lid && (s.wg lid w.1.2.1).die == die && (s.wg lid w.1.2.1).site == site &&
    (s.wg lid w.1.2.1).st == .running).map fun w => w.1.2
  sortBy (fun a b => a.1 < b.1 || (a.1 == b.1 && a.2 ≤ b.2)) ws

/-- The ring, from the wave after the one last issued from. -/
def rotateFrom (l : List (Nat × Nat)) : Option (Nat × Nat) → List (Nat × Nat)
  | none => l
  | some p =>
    let after (a : Nat × Nat) : Bool := p.1 < a.1 || (p.1 == a.1 && p.2 < a.2)
    l.filter after ++ l.filter fun a => !after a

/-- The group of a core in a step of a launch. -/
def State.detPick (s : State) (lid die site : Nat) : DetPick :=
  let live (w : Nat × Nat) : List TRef :=
    (s.waveThreads { lid := lid, wg := w.1, wave := w.2, lane := 0 }).filter fun t =>
      s.live t && !(s.thr t).wait.passed
  match (rotateFrom (s.ring lid die site) (tget (s.launch lid).rot (die, site))).find? fun w => !(live w).isEmpty with
  | none => .idle
  | some w =>
    match sortBy (fun (a b : TRef) => a.lane ≤ b.lane) (live w) with
    | [] => .idle
    | t0 :: ts =>
      let x0 := s.cand t0
      let g := ((t0 :: ts).map s.cand).filter fun x => x.pc == x0.pc && x.level == x0.level
      if g.all fun x => s.standing x.t && s.arrived x.t x.i then .group g else .notYet

/-- The cores that hold running units of a launch. -/
def State.coresOf (s : State) (lid : Nat) : List (Nat × Nat) :=
  ((s.wgs.filter fun g => g.1.1 == lid && g.2.st == .running).map fun g => (g.2.die, g.2.site)).eraseDups

/-- Entries of the recorded pre-emption log that are still ahead. (DEDUCED, log entry 84) -/
def Launch.logAhead (l : Launch) : List Nat :=
  ((l.prelogIn.drop l.prelogUsed).map BitVec.toNat).filter fun n => l.step - 1 ≤ n

/-- A stop of a launch in deterministic scheduling mode may be made at this boundary: after the last logged one at any,
before it only at the next logged one. -/
def Launch.boundaryOk (l : Launch) : Bool :=
  l.det != 2 || l.stopped || match l.logAhead with
    | [] => true
    | n :: _ => l.step - 1 == n

/-- A stop of a unit or of the context of a launch waits for pickers. -/
def State.stopAsked (s : State) (lid : Nat) : Bool :=
  s.dies.toList.any fun d => d.stops.any fun r =>
    ((r.unit.map Prod.fst) == some lid || r.ctx == some (s.launch lid).ctx) && r.waiting.any fun k => match k with
      | .picker _ => true
      | _ => false

/-- A step of the launch can be made: it runs, no thread of it is halted or is to be, no stop is to be made at this boundary
(R276, R285, R359), and every core has its group. -/
def State.detReady (s : State) (lid : Nat) : Bool :=
  let l := s.launch lid
  s.stepped lid && !l.stopped && !l.ended && !(s.ctx l.ctx).out && (s.unissued lid).isEmpty && l.haltDue.isEmpty &&
    !(s.stopAsked lid && l.boundaryOk) &&
    ((tkeys s.threads).all fun t => t.lid != lid || !(s.thr t).halted || !s.live t) &&
    (s.coresOf lid).all fun c => match s.detPick lid c.1 c.2 with
      | .notYet => false
      | .group _ => true
      | .idle => true

/-- The candidate of a list that issued longest ago. -/
def eldest : List Cand → Option Cand
  | [] => none
  | x :: xs => match eldest xs with
    | some y => if oldest y x then some y else some x
    | none => some x

/-- The threads of a launch's step that have not issued on a core. -/
def State.unissuedAt (s : State) (lid : Nat) (c : Nat × Nat) : List Cand :=
  ((s.unissued lid).filter fun t => (s.wgOf t).die == c.1 && (s.wgOf t).site == c.2).map s.cand

/-- The group of a launch's step that stands ready on a core: of a step that has begun, the threads that have not issued there,
else those of the step that can be made. -/
def State.stepGroup (s : State) (lid : Nat) (c : Nat × Nat) : List Cand :=
  if !(s.unissued lid).isEmpty then
    let xs := s.unissuedAt lid c
    if xs.all fun x => s.standing x.t && s.arrived x.t x.i then xs else []
  else if !s.detReady lid then []
  else match s.detPick lid c.1 c.2 with
    | .group g => g
    | _ => []

/-- The threads that are ready on a core in a cycle as members of a step of another launch than the one given. -/
def State.otherSteps (s : State) (lid cyc : Nat) (c : Nat × Nat) : List Cand :=
  (tkeys s.launches).flatMap fun o => if o == lid || !s.stepped o then []
    else (s.stepGroup o c).filter fun x => s.accepts c.1 c.2 cyc x.i

/-- The next cycle may carry the launch's group on a core: the slot accepts it, and no thread is ready there that issued longer
ago, of an ordinary launch or of another one's step (R141). (DEDUCED, log entry 65) -/
def State.coreGo (s : State) (lid : Nat) (c : Nat × Nat) : Bool :=
  let cyc := s.cycle + 1
  match eldest (s.stepGroup lid c) with
  | none => false
  | some x => s.accepts c.1 c.2 cyc x.i &&
    match eldest (s.readyAt c.1 c.2 cyc ++ s.otherSteps lid cyc c) with
    | some y => !oldest y x
    | none => true

/-- The cores on which the next cycle may carry the launch's step. -/
def State.goCores (s : State) (lid : Nat) : List (Nat × Nat) := (s.coresOf lid).filter (s.coreGo lid)

/-- Cores on which some launch's step is to be made before an ordinary group issues. -/
def State.stepCores (s : State) : List (Nat × Nat) := (tkeys s.launches).flatMap s.goCores

/-- A launch whose step the next cycle may carry, the cores on which it may, and which thread of those groups issued longest ago. -/
def State.stepOf (s : State) (lid : Nat) : Option (Nat × List (Nat × Nat) × Cand) :=
  (eldest ((s.goCores lid).flatMap (s.stepGroup lid))).map fun x => (lid, s.goCores lid, x)

/-- Launches one after another, each taken where its cores are apart from those of the ones taken before it. -/
def State.apart (s : State) : List (Nat × List (Nat × Nat) × Cand) → List (Nat × Nat) → List (Nat × List (Nat × Nat))
  | [], _ => []
  | x :: xs, busy =>
    if (s.coresOf x.1).any busy.contains then s.apart xs busy else (x.1, x.2.1) :: s.apart xs (busy ++ s.coresOf x.1)

/-- The launches whose steps the next cycle carries, each with the cores on which it does: no two have a core in common (R274), and
the one whose thread issued longest ago comes first (R141). (DEDUCED, log entry 65) -/
def State.stepsNext (s : State) : List (Nat × List (Nat × Nat)) :=
  s.apart (sortBy (fun a b => oldest a.2.2 b.2.2) ((tkeys s.launches).filterMap s.stepOf)) []

/-- A step's group issues at a core and occupies what R134 says. -/
def State.sendStep (s : State) (c : Nat × Nat) (g : List Cand) : State :=
  let s := s.unstall c.1 c.2
  let s := s.updCore c.1 c.2 fun k =>
    if (g.head?.map fun x => instrSlot x.i) == some 0 then
      let p := ({ pipe0 := k.pipe0, pipe1 := k.pipe1, sfu := k.sfu : Picked }).vector s.cycle (k.pipe0 ≤ s.cycle) g
      { k with pipe0 := p.pipe0, pipe1 := p.pipe1, sfu := p.sfu }
    else k
  s.sendGroups c.1 c.2 [g]

/-- One core's group of a step that begins, and the rotation point: the group is to issue. -/
def State.detAt (s : State) (lid : Nat) (c : Nat × Nat) : State :=
  match s.detPick lid c.1 c.2 with
  | .group (x :: xs) => s.updLaunch lid fun l =>
      { l with
        rot := tset l.rot c (x.t.wg, x.t.wave)
        inStep := l.inStep ++ (x :: xs).map fun y => (y.t, (s.thr y.t).icount, y.pc, y.level) }
  | _ => s

/-- A step of a launch begins: its number, and the group of every core. -/
def State.beginStep (s : State) (lid : Nat) : State :=
  (s.coresOf lid).foldl (fun s c => s.detAt lid c) (s.updLaunch lid fun l => { l with step := l.step + 1, inStep := [] })

/-- What has not issued of a step on a core issues. -/
def State.sendRest (s : State) (lid : Nat) (c : Nat × Nat) : State :=
  match s.unissuedAt lid c with
  | [] => s
  | g => s.sendStep c g

/-! ## Issue of a formed group -/

/-- The threads of a formed group that still stand at its instruction. -/
def State.stillIn (s : State) (g : Group) : List TRef :=
  g.threads.filter fun t => s.standing t && (s.thr t).pc == g.pc && (s.thr t).level == g.level

/-! ## Sampling, R282 -/

/-- x^16 + x^14 + x^13 + x^11 + 1. -/
def lfsrNext (x : BitVec 16) : BitVec 16 :=
  let b := ((x.getLsbD 0 != x.getLsbD 2) != x.getLsbD 3) != x.getLsbD 5
  (x >>> 1) ||| (if b then 0x8000 else 0)

/-- The number of the cycle, or of the step of a launch in deterministic scheduling mode. -/
def State.sampleTime (s : State) (t : TRef) : Nat := if s.stepped t.lid then (s.launchOf t).step - 1 else s.cycle

/-- The cycle or step from which a core's next interval begins. -/
def State.sampleFrom (s : State) (die site : Nat) (t : TRef) : Nat :=
  if s.stepped t.lid then (tget (s.core die site).stepNext t.lid).getD 0 else (s.core die site).sampleNext

/-- The core's next interval begins at n, in cycles or in the steps of the thread's launch. -/
def State.sampleUntil (s : State) (die site : Nat) (t : TRef) (n : Nat) : State :=
  s.updCore die site fun k =>
    { k with
      lfsr := lfsrNext k.lfsr
      lastGroup := none
      sampleNext := if s.stepped t.lid then k.sampleNext else n
      stepNext := if s.stepped t.lid then tset k.stepNext t.lid n else k.stepNext }

/-- A sample record (R282). Its timing stages are the implementation's. -/
def State.sampleBytes (s : State) (x : TRef × Nat × Word × Nat × Nat) : List Byte :=
  let c := s.freeCtr
  let stage (k : Nat) : List Byte := natToBytes 2 (min 0xFFFF (Config.stageCycles (c + k)))
  s.nameBytes x.1 ++ natToBytes 4 x.2.1 ++ natToBytes 4 x.2.2.1.toNat ++ stage 0 ++ stage 1 ++ stage 2 ++ stage 3 ++
    stage 4 ++ natToBytes 30 (x.2.2.2.2 % 16 + (x.2.2.2.1 - 1) % 64 * 2 ^ 4)

/-- The context that samples a core's interval: which one is not given, so it is any live one. (DESIGN CHOICE, log entry 17) -/
def State.samplingCtx (s : State) (die site : Nat) : Nat :=
  let cs := tkeys s.contexts
  cs.getD (Config.pick2 (s.core die site).sampleNext (36 * die + site) % cs.length) 0

/-- SAMPLE_TAG: in the cycle whose offset in the interval equals the LFSR's low bits, the group that the core's picker
issued is tagged, once an interval. One of another context is discarded unrecorded (R1). In an interval in whose chosen cycle no group
issues nothing is tagged, and the LFSR does not step. (DESIGN CHOICE, log entry 17) -/
def execSampleTag (die site : Nat) (s : State) : Out :=
  .next (
    let k := s.core die site
    match k.lastGroup with
    | none => s
    | some x =>
      let ctx := s.samplingCtx die site
      let p := 2 ^ (s.ctx ctx).sampleK
      let n := s.sampleTime x.1
      if (s.thr x.1).last != s.cycle || n < s.sampleFrom die site x.1 || n % p != k.lfsr.toNat % p then s
      else
        let s := if s.ctxOf x.1 = ctx then
            s.updCtx ctx fun c => { c with sampleRing := c.sampleRing ++ [s.sampleBytes x] }
          else s
        s.draw.sampleUntil die site x.1 ((n / p + 1) * p))

end Sys2Proof.Machine
end

