-- ==== Sys2Proof/Machine/Sched.lean ====
section
/-! DEFINITION. Scheduling from launch to start (R144, R152, R171 to R181, R195, R196, R381): LAUNCH_DISPATCHABLE, PLACE_UNIT,
HOLD_TIME_EXPIRY, PICKER_CYCLE, DET_STEP, UNIT_START, DEADLINE_MISS, TURN_OPEN. -/

namespace Sys2Proof.Machine

/-! ## LAUNCH_DISPATCHABLE, R177 -/

def execLaunchDispatchable (lid : Nat) (s : State) : Out :=
  .next (match tget s.launches lid with
    | none => s
    | some l =>
      if l.ended || l.dispatchable || s.waitsOn l then s else s.updLaunch lid fun l => { l with dispatchable := true })

/-! ## What a core has free, R152 -/

/-- The workgroups that hold resources of a core: placed, and not pre-empted or ended. -/
def State.residents (s : State) (die site : Nat) : List ((Nat × Nat) × Wg) :=
  s.wgs.filter fun g => g.2.die == die && g.2.site == site && (g.2.st == .running || g.2.st == .prefetched)

/-- Tile slots of ended workgroups of a core that still drain: they return to the core with the last operation on them (R226). -/
def State.draining (s : State) (die site : Nat) : Nat :=
  ((s.wgs.filter fun g => g.2.die == die && g.2.site == site && g.2.st == .ended).map fun g =>
    (g.2.slots.filter fun x => x.2.drain && s.slotBusy g.1.1 g.1.2 x.1).length).sum

/-- A workgroup of the launch fits beside the given ones and some draining slots. -/
def State.fitsBeside (s : State) (l : Launch) (rs : List ((Nat × Nat) × Wg)) (drains : Nat) : Bool :=
  let sum (f : Launch → Nat) : Nat := f l + (rs.map fun r => f (s.launch r.1.1)).sum
  sum Launch.lines ≤ 8192 && sum (fun x => x.waves * x.hdr.width) ≤ 2048 && sum (fun _ => 1) ≤ 32 &&
    sum Launch.scratch ≤ 4194304 && sum (fun x => x.hdr.tiles) + drains ≤ 64 && sum Launch.coreMem + 16384 * drains ≤ 5242880

/-- Free core memory of a core. -/
def State.freeMem (s : State) (die site : Nat) : Nat :=
  5242880 - (((s.residents die site).map fun r => (s.launch r.1.1).coreMem).sum + 16384 * s.draining die site)

/-! ## Units on offer, R172, R173 -/

/-- A unit that a die's queue unit may offer: a pending one, or the next update of a standing program. -/
structure Offer where
  lid : Nat
  lev : Nat
  ctx : Nat
  dline : Nat
  acc : Nat
  idx : Nat
  p : Option Pending

def State.offerOf (s : State) (lid : Nat) (p : Option Pending) : Offer :=
  let l := s.launch lid
  { lid := lid, lev := s.effLevel lid, ctx := l.ctx, dline := (l.dline.map BitVec.toNat).getD (2 ^ 64), acc := l.accepted
    idx := match p with
      | some x => x.idx
      | none => l.nextTask
    p := p }

/-- Units of the launch that have been placed and have not ended. -/
def State.unitsOut (s : State) (lid : Nat) : Bool := s.insts.any fun x => x.1.1 == lid && !x.2.ended

/-- Eligible bricks of a program on a die: local index and record. -/
def Prog.eligible (p : Prog) (die : Nat) : List (Nat × Brick) :=
  match p.dies.find? fun d => d.die == die with
  | none => []
  | some d => (d.bricks.zipIdx.filter fun x => x.1.st == 1).map fun x => (x.2, x.1)

/-- An update of the launch is in flight on a die (R270). -/
def State.inFlightOn (s : State) (lid die : Nat) : Bool :=
  s.wgs.any fun g => g.1.1 == lid && g.2.die == die && g.2.brick.isSome && g.2.st != .ended

/-- The units of a launch that a die may offer: a dependent one waits for its producers (R177); a serial rerun offers one
at a time, the lowest first (R273), of a standing program as many updates as the first run had (log entry 89); deterministic
updates go one at a time on a die (R270). (DEDUCED, log entry 66) -/
def State.offersOf (s : State) (die lid : Nat) : List Offer :=
  let l := s.launch lid
  if l.ended || !l.dispatchable || !l.domain.contains die || s.ctxBlocked die l.ctx .queueUnit || s.waitsOn l then []
  else
    let ps := if !l.serialRun then l.pending
      else if s.unitsOut lid then []
      else (sortBy (fun (a b : Pending) => a.idx ≤ b.idx) l.pending).take 1
    let pops (p : Prog) : Bool :=
      if l.serialRun then p.state == 1 && l.nextTask < l.count && !s.unitsOut lid
      else p.state == 0 && (l.det == 0 || !s.inFlightOn lid die)
    let pop : List Offer := match l.prog with
      | some p => if pops p && !(p.eligible die).isEmpty then [s.offerOf lid none] else []
      | none => []
    ps.map (fun p => s.offerOf lid (some p)) ++ pop

/-- The distance of a context from the rotation pointer (R174). -/
def cyc (ptr c : Nat) : Nat := (c + 4096 - ptr) % 4096

/-- The order of R173 at a die. -/
def offerLt (rot : Vector Nat 12) (a b : Offer) : Bool :=
  let k (x : Offer) : List Nat := [x.lev, cyc (vget rot 0 x.lev) x.ctx, x.dline, x.acc, x.idx]
  decide (k a ≤ k b)

def State.offers (s : State) (die : Nat) : List Offer :=
  sortBy (offerLt (s.die die).rot) ((tkeys s.launches).flatMap fun lid => s.offersOf die lid)

/-! ## Where a unit fits now, R144, R175, R179, R181, R381 -/

/-- The workgroups of a unit: %wg of each member. -/
def Offer.members (o : Offer) (l : Launch) : List Nat :=
  if l.gang = 0 then [o.idx] else (List.range l.gang).map fun j => o.idx * l.gang + j

/-- What names a unit while it waits for its place: the index of a pending one; a program's next update has none yet. -/
def Offer.key (o : Offer) : Nat × Option Nat := (o.lid, o.p.map Pending.idx)

/-- A core that is being retired, or whose die is being evacuated, accepts no unit (R379). -/
def State.leaving (s : State) (die site : Nat) : Bool :=
  match s.change with
  | some (.coreRetire, e) => e.die == die && e.site == site
  | some (.dieEvacuate, e) => e.die == die
  | _ => false

/-- A core that pre-emption chose for a unit of a launch, or for a gang a core of the cluster chosen, still serves: its die is
online, and the core, or enough cores of the cluster, are neither retired nor being retired (R379). -/
def State.serves (s : State) (l : Launch) (x : Nat × Nat) : Bool :=
  let live := (s.die x.1).sites.filter fun i => !s.leaving x.1 i
  (s.die x.1).online &&
    if l.gang = 0 then live.contains x.2 else l.gang ≤ (live.filter fun i => i / 4 == x.2 / 4).length

/-- The core of a statically placed workgroup: logical core %wg of the domain, or, where that core has been retired, the
lowest site of its die that holds no workgroup of the launch (R381). -/
def State.staticCore (s : State) (o : Offer) : Option (Nat × Nat) :=
  (s.launch o.lid).cores[o.idx]?.bind fun c =>
    if (s.die c.1).sites.contains c.2 then some c
    else ((s.die c.1).sites.find? fun i => !((s.residents c.1 i).any fun r => r.1.1 == o.lid)).map fun i => (c.1, i)

/-- A unit of the launch is placed statically: by MODE 1, without gangs (R181). -/
def Launch.static (l : Launch) : Bool := l.kind == .grid && l.gang == 0 && l.mode == 1

/-- The core that pre-emption chose for a pending unit (R179), while it serves, and is that which the launch's tables give a
statically placed one (R381). -/
def State.pendingCore (s : State) (lid : Nat) (p : Pending) : Option (Nat × Nat) :=
  let l := s.launch lid
  p.core.filter fun x => s.serves l x && (!l.static || s.staticCore (s.offerOf lid (some p)) == some x)

/-- A program's next update stands on offer on a die: it may be popped there, and a brick is eligible. -/
def State.popsOn (s : State) (lid die : Nat) (p : Prog) : Bool :=
  p.state == (if (s.launch lid).serialRun then 1 else 0) && !(p.eligible die).isEmpty

/-- The core that pre-emption chose on a die for the next update of a program that offers one there. -/
def State.popCore (s : State) (lid die : Nat) : Option (Nat × Nat) := do
  let p ← s.prog lid
  let d ← p.dies.find? fun d => d.die == die
  let i ← d.core
  if s.popsOn lid die p && s.serves (s.launch lid) (die, i) then some (die, i) else none

/-- The core that pre-emption chose for a unit, as a die's queue unit sees it: of a program's update, on its own die (R179). -/
def State.chosenCore (s : State) (die : Nat) (o : Offer) : Option (Nat × Nat) :=
  match o.p with
  | some p => s.pendingCore o.lid p
  | none => s.popCore o.lid die

/-- A core that some other unit waits for accepts no unit but that one (R175, R179). -/
def State.heldFor (s : State) (o : Offer) (die site : Nat) : Bool :=
  let coreAt (x : Option (Nat × Nat)) (l : Launch) : Bool :=
    x.any fun x => x.1 == die && if l.gang = 0 then x.2 == site else x.2 / 4 == site / 4
  s.leaving die site ||
  (match (s.core die site).only with
    | some k => k != o.key && match k.2 with
      | some idx => (s.launch k.1).pending.any fun p => p.idx == idx
      | none => (s.prog k.1).any (s.popsOn k.1 die)
    | none => false) ||
  s.launches.any fun l =>
    (l.2.pending.any fun p => (l.1, some p.idx) != o.key && coreAt (s.pendingCore l.1 p) l.2) ||
    ((l.1, none) != o.key && coreAt (s.popCore l.1 die) l.2)

/-- A live core takes a workgroup of the unit now. -/
def State.coreTakes (s : State) (o : Offer) (die site : Nat) : Bool :=
  let l := s.launch o.lid
  let rs := s.residents die site
  (s.core die site).prefetch.length < 2 && !s.heldFor o die site &&
    (match s.chosenCore die o with
      | some x => x.1 == die && if l.gang = 0 then x.2 == site else x.2 / 4 == site / 4
      | none => true) &&
    (l.kind != .grid || !(rs.any fun r => r.1.1 == o.lid)) && s.fitsBeside l rs (s.draining die site)

/-- The sites on a die that take the unit now, one for each member; `none` where it fits none. -/
def State.spots (s : State) (o : Offer) (die : Nat) : Option (List Nat) :=
  let l := s.launch o.lid
  let d := s.die die
  if l.gang ≠ 0 then
    (List.range 9).findSome? fun c =>
      let fit := d.sites.filter fun i => i / 4 == c && s.coreTakes o die i
      if l.gang ≤ fit.length then some (fit.take l.gang) else none
  else if l.kind == .grid && l.mode = 1 then
    match s.staticCore o with
    | some c => if c.1 = die ∧ s.coreTakes o die c.2 then some [c.2] else none
    | none => none
  else (d.sites.find? fun i => s.coreTakes o die i).map fun i => [i]

/-- The next unit in order that fits now, with its sites. -/
def State.nextUnit (s : State) (die : Nat) : Option (Offer × List Nat) :=
  if !(s.die die).online then none
  else (s.offers die).findSome? fun o => (s.spots o die).map fun x => (o, x)

/-! ## PLACE_UNIT -/

/-- The brick that a pop takes (R196): its local index, and whether it is a sweep slot. -/
def Prog.popChoice (p : Prog) (die : Nat) : Option (Nat × Bool) :=
  let e := p.eligible die
  let n := ((p.dies.find? fun d => d.die == die).map ProgDie.pops).getD 0 + 1
  let sweep := n % 16 == 0
  let better (a b : Nat × Brick) : Bool :=
    if sweep then a.2.stamp.toNat < b.2.stamp.toNat || (a.2.stamp == b.2.stamp && a.1 ≤ b.1)
    else b.2.res.toNat < a.2.res.toNat || (a.2.res == b.2.res && a.1 ≤ b.1)
  ((sortBy better e).head?).map fun x => (x.1, sweep)

/-- The brick id of a local index on a die of the program. -/
def Prog.brickId (p : Prog) (die i : Nat) : Nat := (p.dies.findIdx fun d => d.die == die) * 2 ^ 20 + i

/-- The instances of a launch's core buffers that a workgroup holds from its placement (R213). -/
def State.coreBufsOf (s : State) (lid wg die : Nat) : Tab Nat Buffer :=
  ((s.die die).bufs.filter fun b => b.2.lvl == .core && b.2.lid == some lid).map fun b =>
    (b.1, { b.2 with st := .held, hold := .wg lid wg, shLid := lid })

/-- The stack slot of a workgroup that is placed (R25): a grid's own where the regions of all its workgroups are reserved, else
the lowest that no workgroup of the launch has. (DESIGN CHOICE, log entry 20) -/
def State.stackSlotFor (s : State) (lid wg : Nat) : Nat :=
  let l := s.launch lid
  if l.kind == .grid && l.stackAll then wg
  else
    let used := (s.wgs.filter fun g => g.1.1 == lid && g.1.2 != wg && g.2.st != .ended).map fun g => g.2.stackSlot
    ((List.range (used.length + 1)).find? fun k => !used.contains k).getD 0

/-- %core and %die of a workgroup that stands on a core: by the launch's tables, but for a statically placed one whose own core
is in service no longer (R379, R381). -/
def State.namesFor (s : State) (lid unit die site : Nat) : Nat × Nat :=
  let l := s.launch lid
  let moved := l.kind == .grid && l.mode == 1 && (l.cores[unit]?).any fun c => c != (die, site)
  s.logicalNames l die site moved

/-- One member takes its place in the prefetch buffer of a core, with its reservation (R176). -/
def State.placeWg (s : State) (lid unit wg pos die site : Nat) (p : Pending) (brick : Option Nat) (inseq : DWord) : State :=
  let l := s.launch lid
  let names := s.namesFor lid unit die site
  let g : Wg :=
    { die := die, site := site, inst := unit, pos := pos, lcore := names.1, ldie := names.2
      stackSlot := s.stackSlotFor lid wg, left := (tget (s.core die site).left l.ctx).getD []
      placed := s.cycle, order := s.placements, entry := p.entry
      arg0 := p.v0, arg1 := p.v1, depth := p.depth, node := p.node, nodeWork := p.nodeWork, brick := brick, inseq := inseq
      coreBufs := s.coreBufsOf lid wg die, slots := (List.range l.hdr.tiles).map fun k => (k, {}) }
  { s with wgs := tset s.wgs (lid, wg) g }.updCore die site fun k => { k with prefetch := k.prefetch ++ [(lid, wg)] }

/-- A die's cores are kept for a unit no longer (R175). -/
def Die.unkept (d : Die) (k : Nat × Option Nat) : Die :=
  { d with cores := d.cores.map fun c => if c.only == some k then { c with only := none } else c }

/-- What a placement does whatever the unit: the rotation, the cores that were kept for it, of a pending unit on every die and of a
program's update on its own, the time of the first placement, the count (R174, R175, R284, R370). -/
def State.placedAt (s : State) (die : Nat) (o : Offer) : State :=
  let s := if o.p.isSome then { s with dies := s.dies.map fun d => d.unkept o.key } else s.updDie die fun d => d.unkept o.key
  let s := s.updDie die fun d => { d with rot := vset d.rot o.lev ((o.ctx + 1) % 4096) }
  let s := { s with placements := s.placements + 1 }
  let s := s.updLaunch o.lid fun l => { l with tstart := some (l.tstart.getD s.now) }
  s.count die none 0x400 (some o.ctx) (some o.lid) none none 1

/-- A pending unit is placed: its bank gives it up, and every member is placed in the same step. Of a gang that is placed again, the
commands pushed before go on (R301), and what its members had released before their turn stays held (R267, R345). -/
def State.placePending (s : State) (die : Nat) (o : Offer) (p : Pending) (sites : List Nat) : State :=
  let l := s.launch o.lid
  let ms := o.members l
  let s := s.updLaunch o.lid fun l => { l with pending := l.pending.filter fun q => q.idx != p.idx }
  let old := s.inst o.lid o.idx
  let before := s.wgs
  let s := s.outliveAll o.lid ms.contains
  let x : Inst := { members := ms, gang := l.gang != 0, restarted := old.restarted }
  let s := { s with insts := tset s.insts (o.lid, o.idx) x }
  let s := { s with
    wgs := s.wgs.filter fun g => !(g.1.1 == o.lid && ms.contains g.1.2)
    waves := s.waves.filter fun g => !(g.1.1 == o.lid && ms.contains g.1.2.1)
    threads := s.threads.filter fun t => !(t.1.lid == o.lid && ms.contains t.1.wg) }
  (ms.zip sites).zipIdx.foldl (fun s m => (s.placeWg o.lid o.idx m.1.1 m.2 die m.1.2 p none 0).updWg o.lid m.1.1 fun g =>
    match tget before (o.lid, m.1.1) with
    | some x => { g with staging := x.staging.filter fun e => e.held.isSome, heldRels := x.heldRels }
    | none => g) s

/-- A brick is popped, and its update placed (STANDING_POP). (DESIGN CHOICE, log entry 68) -/
def State.placeUpdate (s : State) (die : Nat) (o : Offer) (site : Nat) : State :=
  match s.prog o.lid with
  | none => s
  | some p =>
    match p.popChoice die with
    | none => s
    | some (i, sweep) =>
      let id := p.brickId die i
      let inseq := ((p.dies.find? fun d => d.die == die).map ProgDie.iseq).getD 0
      let s := s.updProg o.lid fun p => { p.pop id with dies := (p.pop id).dies.map fun d => if d.die == die then { d with first := none, core := none } else d }
      let s := s.updLaunch o.lid fun l => { l with nextTask := l.nextTask + 1 }
      let s := s.count die none (if sweep then 0x404 else 0x403) (some o.ctx) (some o.lid) none none 1
      let s := if sweep then s.count die none 0x403 (some o.ctx) (some o.lid) none none 1 else s
      let s := { s with insts := tset s.insts (o.lid, o.idx) { members := [o.idx] } }
      s.placeWg o.lid o.idx o.idx 0 die site { idx := o.idx, entry := (s.launch o.lid).hdr.entry } (some id) inseq

/-- PLACE_UNIT: the next unit in order that fits goes into a core's prefetch buffer. A pre-empted unit whose turn it is waits
for its restore. -/
def execPlaceUnit (die : Nat) (s : State) : Out :=
  .next (match s.nextUnit die with
    | none => s
    | some (o, sites) =>
      match o.p with
      | some p => if p.preempted then s else (s.placePending die o p sites).placedAt die o
      | none => (s.placeUpdate die o (sites.headD 0)).placedAt die o)

/-! ## HOLD_TIME_EXPIRY, R175 -/

/-- The unit that stands first in order at a level of a die, whether or not it fits. -/
def State.firstAt (s : State) (die level : Nat) : Option Offer := (s.offers die).find? fun o => o.lev == level

/-- Since when a unit stands first on a die. -/
def State.firstSince (s : State) (die : Nat) (o : Offer) : Option DWord :=
  match o.p with
  | some p => p.first
  | none => ((s.prog o.lid).bind fun p => p.dies.find? fun d => d.die == die).bind ProgDie.first

/-- Units that stand first begin to count, and the others count no longer; a program's next update counts on each die by
itself. -/
def State.markFirst (s : State) : State :=
  let fs := (List.range 24).flatMap fun d =>
    if (s.die d).online then (List.range 12).filterMap fun l => (s.firstAt d l).map fun o => (d, o.lid, o.p.map Pending.idx) else []
  let mark (on : Bool) (x : Option DWord) : Option DWord := if on then some (x.getD s.now) else none
  { s with launches := s.launches.map fun l => (l.1, { l.2 with
      pending := l.2.pending.map (fun p => { p with first := mark (fs.any fun f => f.2 == (l.1, some p.idx)) p.first })
      prog := l.2.prog.map (fun p => { p with dies := p.dies.map fun d =>
        { d with first := mark (fs.contains (d.die, l.1, none)) d.first } }) }) }

/-- The live cores that could take a workgroup of the unit when empty of others, and are kept for no other unit.
(DEDUCED, log entry 67) -/
def State.couldTake (s : State) (o : Offer) (die : Nat) : List Nat :=
  let l := s.launch o.lid
  (s.die die).sites.filter fun i => !s.heldFor o die i &&
    (l.kind != .grid || !((s.residents die i).any fun r => r.1.1 == o.lid)) &&
      (!l.static || s.staticCore o == some (die, i))

/-- The core, or the cores of the cluster, with the most free core memory; the lowest among equals. -/
def State.roomiest (s : State) (o : Offer) (die : Nat) : List Nat :=
  let l := s.launch o.lid
  let can := s.couldTake o die
  let best (c : List (Nat × List Nat)) : List Nat :=
    ((sortBy (fun (a b : Nat × List Nat) => b.1 ≤ a.1) c).headD (0, [])).2
  let mem (is : List Nat) : Nat := (is.map fun i => s.freeMem die i).sum
  if l.gang = 0 then best (can.map fun i => (mem [i], [i]))
  else
    let cs := (List.range 9).filterMap fun c =>
      let live := (s.die die).sites.filter fun i => i / 4 == c
      let mine := can.filter fun i => i / 4 == c
      if l.gang ≤ mine.length then some (mem live, mine) else none
    best cs

/-- HOLD_TIME_EXPIRY: the unit first in order has stood its context's hold time, and cores are kept for it. -/
def execHoldTimeExpiry (die level : Nat) (s : State) : Out :=
  .next (match s.firstAt die level with
    | none => s
    | some o =>
      match s.firstSince die o with
      | none => s
      | some since =>
        if s.now.toNat < since.toNat + (s.ctx o.ctx).hold ||
            (s.die die).sites.any fun i => (s.core die i).only == some o.key then s
        else (s.roomiest o die).foldl (fun s i => s.updCore die i fun k => { k with only := some o.key }) s)

/-! ## PICKER_CYCLE and DET_STEP -/

/-- PICKER_CYCLE: each core's picker forms the groups of one cycle, but for cores whose next group is a launch's step. Without
power nothing runs. -/
def execPickerCycle (s : State) : Out :=
  s.powered fun s =>
    let held := s.stepCores
    let s := s.markFirst.nextCycle.countIdle
    (s.busyCores.filter fun c => !held.contains c).foldl (fun s c => s.pickAt c.1 c.2) s

/-- A launch's step begins, or what has not issued of it issues, on the cores that may carry it. -/
def State.makeStep (s : State) (x : Nat × List (Nat × Nat)) : State :=
  let s := if (s.unissued x.1).isEmpty then s.beginStep x.1 else s
  x.2.foldl (fun s c => s.sendRest x.1 c) s

/-- DET_STEP: a cycle that carries a launch's step in deterministic scheduling mode, or the rest of a step that has not ended, and with
it those of every other launch whose cores are apart from its own: the groups issue on the cores that may carry them. No other launch's
group issues on the cores of these launches in that cycle; the cores on which yet another launch's step is due issue nothing, and the
others pick as in any cycle. (DEDUCED, log entry 65) -/
def execDetStep (lid : Nat) (s : State) : Out :=
  .next (
    let xs := s.wake.stepsNext
    if !(xs.any fun x => x.1 == lid) then s
    else
      let off := (xs.flatMap fun x => s.coresOf x.1) ++ s.wake.stepCores
      let s := xs.foldl State.makeStep s.markFirst.nextCycle.countIdle
      (s.busyCores.filter fun c => !off.contains c).foldl (fun s c => s.pickAt c.1 c.2) s)

/-! ## UNIT_START, R22 to R27, R31, R132, R139, R176, R241, R245 -/

/-- The role of a wave (R139). -/
def roleOf : List Nat → Nat → Nat
  | [], _ => 0
  | c :: cs, w => if w < c then 0 else 1 + roleOf cs (w - c)

/-- The s registers at launch (R24). -/
def Launch.sRegs (l : Launch) : Vector Word 64 :=
  let a := l.args.length
  let v : Vector Word 64 := Vector.ofFn fun (i : Fin 64) => if i.val < a ∧ i.val < 62 then l.args.getD i.val 0 else 0
  vset (vset v 62 (lo32 l.data)) 63 (hi32 l.data)

/-- A wave at its start. -/
def Launch.newWave (l : Launch) (w : Nat) : Wave := { c := min l.hdr.regs 126, role := roleOf l.roles w, s := l.sRegs }

/-- A thread at its start: at ENTRY, with its stack top in w63, and a task's arguments in v0 and v1. -/
def Launch.newThread (l : Launch) (g : Wg) (base : DWord) : Thread :=
  let v := vset (vset (Vector.replicate 128 0) 0 g.arg0) 1 g.arg1
  let top := base + BitVec.ofNat 64 l.stack
  { v := vset (vset v 126 (lo32 top)) 127 (hi32 top), pc := g.entry, re := g.entry, last := g.placed, stackB := base
    stackS := l.stack }

/-- The stack region of a thread: S bytes of its workgroup's stack slot, in the part of the context's address space that the
driver reserved and mapped for the launch (R25). -/
def State.stackBase (s : State) (t : TRef) : DWord :=
  let l := s.launchOf t
  l.stackVa + BitVec.ofNat 64 (l.stack * ((s.wgOf t).stackSlot * (l.waves * l.hdr.width) + s.tid t))

/-- The waves and threads of a workgroup. -/
def State.makeThreads (s : State) (lid wg : Nat) : State :=
  let l := s.launch lid
  let g := s.wg lid wg
  let ts := (List.range l.waves).flatMap fun w => (List.range l.hdr.width).map fun i : Nat =>
    ({ lid := lid, wg := wg, wave := w, lane := i } : TRef)
  { s with
    waves := s.waves ++ (List.range l.waves).map fun w => ((lid, wg, w), l.newWave w)
    threads := s.threads ++ ts.map fun t => (t, l.newThread g (s.stackBase t)) }

/-- The queues of the object's entries, each checked as QCFG checks it, in the entries' order: of two that overlap the later one fails
(DESIGN CHOICE, log entry 146). What fails stays unconfigured, with its reason. -/
def configQueues (l : Launch) : List (Nat × DWord) → Vector Queue 8 → Vector Queue 8 × List (Nat × Nat)
  | [], qs => (qs, [])
  | (q, w) :: rest, qs =>
    match queueReason (l.hdr.features.getLsbD 7) l qs q w with
    | none => configQueues l rest (vset qs q { cw := w })
    | some r =>
      let x := configQueues l rest qs
      (x.1, (q, r) :: x.2)

/-- The queue entries take effect; where one fails, every thread of wave 0 stops before its first instruction with
QUEUE_CONFIG for the lowest failing queue (R241, R245). -/
def State.startQueues (s : State) (lid wg : Nat) : State :=
  let l := s.launch lid
  let x := configQueues l l.queues (s.wg lid wg).q
  let s := s.updWg lid wg fun g => { g with q := x.1 }
  match sortBy (fun (a b : Nat × Nat) => a.1 ≤ b.1) x.2 with
  | [] => s
  | (q, r) :: _ =>
    let ts := (s.wgThreads lid wg).filter fun t => t.wave = 0
    let f := queueFlt q r
    ts.foldl (fun s t => s.updThr t fun th => { th with trap := some (recOf th (maskOf ts ts) f) }) s

/-- The scope of the acquire at a start (R195, R257): system for a grid workgroup or a task from a packet, module for a
child, a node's task and an update. -/
def startScope (l : Launch) (g : Wg) : Scp :=
  if l.kind == .standing || g.depth ≠ 0 || g.nodeWork.isSome then .module else .system

/-- A workgroup begins to run on a core while the pickers or the queue units of its context are still to stop: the request goes to its
core's engines too (R347, R359). -/
def State.joinStops (s : State) (ctx die site : Nat) : State :=
  let due : Bool := s.dies.toList.any fun d => d.stops.any fun r => r.ctx == some ctx && r.waiting.any fun k => match k with
    | .picker _ | .queueUnit => true
    | _ => false
  let add (r : StopReq) : StopReq :=
    if r.ctx == some ctx then
      { r with waiting := r.waiting ++ ([.picker site, .matrix site].filter fun k => !r.waiting.contains k) }
    else r
  if due then s.updDie die fun d => { d with stops := d.stops.map add } else s

/-- One member starts. -/
def State.startWg (s : State) (lid wg : Nat) : State :=
  let g := s.wg lid wg
  let s := s.updCore g.die g.site fun k => { k with prefetch := k.prefetch.erase (lid, wg) }
  let s := (s.makeThreads lid wg).updWg lid wg fun g => { g with st := .running }
  ((s.joinStops (s.launch lid).ctx g.die g.site).startQueues lid wg).acquire lid wg (startScope (s.launch lid) g)

/-- The unit stands at the head of every prefetch buffer that it is in. -/
def State.startDue (s : State) (lid unit : Nat) : Bool :=
  let ms := (s.inst lid unit).members
  !ms.isEmpty && ms.all fun m =>
    let g := s.wg lid m
    !s.ctxBlocked g.die (s.launch lid).ctx .queueUnit && g.st == .prefetched && (s.core g.die g.site).prefetch.head? == some (lid, m)

/-- UNIT_START: a prefetched unit starts, every member in the same step. (DEDUCED, log entry 114) -/
def execUnitStart (lid inst : Nat) (s : State) : Out :=
  .next (if s.startDue lid inst then
      (s.inst lid inst).members.foldl (fun s m => s.startWg lid m) s
    else s)

/-! ## DEADLINE_MISS, R180 -/

/-- A unit of the launch has not ended: one pends, one is placed, or the standing program may still offer one. -/
def State.unitLeft (s : State) (lid : Nat) (l : Launch) : Bool :=
  !l.pending.isEmpty || (s.insts.any fun x => x.1.1 == lid && !x.2.ended) ||
    (l.kind == .standing && (l.prog.map Prog.state) != some 2)

def execDeadlineMiss (lid : Nat) (s : State) : Out :=
  .next (match tget s.launches lid with
    | none => s
    | some l =>
      match l.dline with
      | none => s
      | some d =>
        if l.ended || l.dlmiss || s.now.toNat ≤ d.toNat || !s.unitLeft lid l then s
        else
          let s := s.updLaunch lid fun l => { l with dlmiss := true }
          s.count (l.domain.headD 0) none 0x402 (some l.ctx) (some lid) none none 1)

/-! ## TURN_OPEN, R267, R269 -/

/-- Children of the unit whose turn closes, in increasing (c, %tid, j), take the next task indices (R269). -/
def State.closeTurn (s : State) (lid unit : Nat) : State :=
  let ms := (s.inst lid unit).members
  let sp := ms.flatMap fun m => (s.wg lid m).spawns.map fun x => (m, x)
  let sp := sortBy (fun (a b : Nat × Spawn) =>
    a.2.icount < b.2.icount || (a.2.icount == b.2.icount && a.2.tid ≤ b.2.tid)) sp
  let s := sp.foldl (fun s x =>
    let g := s.wg lid x.1
    s.makeTasks lid x.2.n (childOf g.depth x.2.entry x.2.arg (x.2.node.map fun n => (g.die, n)))) s
  ms.foldl (fun s m => s.updWg lid m fun g => { g with spawns := [] }) s

/-- The unit with an index will not be placed: the launch places no more (R183, R273), and later units wait behind it. -/
def State.neverComes (s : State) (lid : Nat) (l : Launch) (i : Nat) : Bool :=
  (l.limited || l.journalFull) && (tget s.insts (lid, i)).isNone && s.insts.any fun x => x.1.1 == lid && i < x.1.2

/-- The turn that is open closes when its unit has ended and released, and is not to be placed again, and the next unit's opens:
what its members hold enters the order, and nodes hear of the tasks among them that have ended (log entry 143). -/
def State.turnDue (s : State) (lid : Nat) : Bool :=
  match tget s.launches lid with
  | none => false
  | some l =>
    let x := s.inst lid l.turn
    l.det != 0 && l.kind != .standing && !l.ended && (l.pending.all fun p => p.idx != l.turn) &&
      ((x.released && !x.mayRestart l) || s.neverComes lid l l.turn)

def execTurnOpen (lid : Nat) (s : State) : Out :=
  .next (if !s.turnDue lid then s
    else
      let u := (s.launch lid).turn
      let s := (s.closeTurn lid u).updLaunch lid fun l => { l with turn := u + 1 }
      let ms := (s.inst lid (u + 1)).members
      let s := s.enterHeld lid ms
      ((ms.filter fun m => (s.wg lid m).st == .ended).foldl (fun s m => s.endSignals lid m) s).settle)

end Sys2Proof.Machine
end

