-- ==== Sys2Proof/Machine/Copy.lean ====
section
/-! DEFINITION. The copy engines (R258, R260, R261, R264, R288, R289, R298 to R301, R346): COPY_1D, COPY_2D, COPY_3D, COPY_GATHER,
COPY_REDUCE_ADD, COPY_COMPLETE; and the finish of a packet (R385). -/

namespace Sys2Proof.Machine

/-- A packet of a host queue has finished (R385). -/
def State.finishPacket (s : State) : Option (Nat × Nat) → State
  | none => s
  | some (q, idx) =>
    { s with hqueues := tupd s.hqueues q fun h => { h with open_ := h.open_.filter fun x => x.1 ≠ idx } }

/-! ## Where a byte of a command lies -/

/-- A location of global memory, a byte of scratch, or a byte of a peer. -/
inductive BLoc where
  | mem (l : Nat)
  | sc (p : Place) (off : Nat)
  | peer (a : Nat)
  deriving DecidableEq, Repr

/-- The version of a publish entry that the command reads: the one current at its start. -/
def Cmd.version (c : Cmd) (i : Nat) (cur : Bool) : Bool := ((c.pubR.find? fun x => x.1 = i).map Prod.snd).getD cur

/-- The global byte at an address: a source in a published range reads the command's version, a destination in one writes
the shadow, and the current version's own address takes no write (R259, R299, R302).
(DESIGN CHOICE, log entry 75, DEDUCED, log entry 78) -/
def State.globByte (s : State) (die : Nat) (c : Cmd) (write : Bool) (va : Nat) : Except Nat BLoc :=
  let d := s.die die
  let tr (va : Nat) : Except Nat BLoc := match s.trCtx c.ctx write va with
    | .ok l => .ok (.mem l)
    | .error f => .error (trStatus f)
  match pubOf d c.ctx va with
  | some (i, p) => tr (p.ver (if write then !p.cur else c.version i p.cur) + (va - p.pub.toNat))
  | none =>
    match (if write then pubVer d c.ctx va else none) with
    | some (_, p, v) => if v == p.cur then .error 2 else tr va
    | none => tr va

/-- The scratch byte at an offset from a pointer, in a buffer of a level (R208). -/
def State.bufByte (s : State) (die : Nat) (c : Cmd) (lv : Lvl) (p : DWord) (off : Nat) : Except Nat BLoc :=
  match s.bufNamed die c.ctx (ptrBuf p) with
  | none => .error 4
  | some b =>
    if ptrMbz p ≠ 0 || ptrPeer p ≠ 0 || ptrBuf p = 0 || b.lvl ≠ lv || b.size ≤ ptrOff p + off then .error 4
    else .ok (.sc (.buf die (ptrBuf p)) (ptrOff p + off))

/-- The byte of the pushing workgroup's private core scratch (R300). -/
def State.coreByte (s : State) (c : Cmd) (p : DWord) (off : Nat) : Except Nat BLoc :=
  match c.lid, c.wg with
  | some lid, some wg =>
    if c.gone || ptrMbz p ≠ 0 || (s.launch lid).scratch ≤ ptrOff p + off || (s.wg lid wg).st == .ended then .error 4
    else .ok (.sc (.core lid wg) (ptrOff p + off))
  | _, _ => .error 3

/-- Byte `off` from the command's source or destination. -/
def State.epByte (s : State) (die : Nat) (c : Cmd) (write : Bool) (off : Nat) : Except Nat BLoc :=
  let p := if write then cDst c.rec_ else cSrc c.rec_
  match (if write then cDk c.rec_ else cSk c.rec_) with
  | 0 => s.globByte die c write ((p.toNat + off) % 2 ^ 64)
  | 1 => s.bufByte die c .die p off
  | 2 => s.bufByte die c .cluster p off
  | 3 => s.coreByte c p off
  | _ => .ok (.peer ((p.toNat + off) % 2 ^ 64))

/-! ## What a command does, byte by byte in its order -/

/-- The offsets from SRC and from DST of a 1-D, 2-D or 3-D command. -/
def blockOffs (r : List Word) : List (Nat × Nat) :=
  (List.range (cPlanes r)).flatMap fun p => (List.range (cRows r)).flatMap fun k => (List.range (cLen r)).map fun i =>
    (p * cPitch r 9 true + k * cPitch r 8 false + i, p * cPitch r 11 true + k * cPitch r 10 false + i)

/-- The addresses of the i-th index of a gather. -/
def idxVas (c : Cmd) (i : Nat) : List Nat := (List.range 4).map fun j => ((cIdx c.rec_).toNat + 4 * i + j) % 2 ^ 64

/-- The bytes of the i-th index of a gather. -/
def State.idxBytes (s : State) (die : Nat) (c : Cmd) (i : Nat) : Except Nat (List Nat) :=
  (idxVas c i).mapM fun va =>
    match s.globByte die c false va with
    | .ok (.mem l) => .ok l
    | .ok _ => .error 5
    | .error e => .error e

/-- What an engine knows of a read (R255, R258): it has no staging, and its launch's start bounds what it may show. A command of a
packet belongs to no launch: of a byte that no guaranteed write has, w0 is what the byte held before every write of the order.
(DESIGN CHOICE, log entry 144) -/
def State.engAt (s : State) (c : Cmd) : At :=
  { stamp := s.stamp, seq := s.nextSeq, start := (c.lid.map fun l => (s.launch l).acceptSeq).getD 0 }

/-- The command's acquire as it counts for a read of addresses: one of a published range has what the swaps before the start
included (R259). -/
def State.pubAcq (s : State) (die : Nat) (c : Cmd) (vas : List Nat) : Acq :=
  { c.acq with pub := !vas.isEmpty && vas.all fun va => inPub (s.die die) c.ctx va 1 }

/-- The indices of a gather, in order: each is a number, or the status that stops the command there. -/
def State.indices (die : Nat) (c : Cmd) : List Nat → State → List (Except Nat Nat) × State
  | [], s => ([], s)
  | i :: is, s =>
    match s.idxBytes die c i with
    | .error e =>
      let (r, s) := State.indices die c is s
      (.error e :: r, s)
    | .ok ls =>
      let (b, s) := s.readPieces [] (s.pubAcq die c (idxVas c i)) none (s.engAt c) c.ctx (pieces ls)
      let (r, s) := State.indices die c is s
      (.ok (bytesToNat b) :: r, s)

/-- The offsets of a command: from SRC, and from DST; a gather's depend on its indices. -/
def State.copyOffs (s : State) (die : Nat) (c : Cmd) : List (Except Nat (Nat × Nat)) × State :=
  let r := c.rec_
  if cOp r = 3 then
    let g := cGesz r
    let (ks, s) := State.indices die c (List.range (cLen r / g)) s
    (ks.zipIdx.flatMap fun k => match k.1 with
      | .error e => List.replicate g (.error e)
      | .ok x => (List.range g).map fun j => .ok (x * g + j, k.2 * g + j), s)
  else ((blockOffs r).map .ok, s)

/-- One byte's source and destination, or the status that stops the command there: the source is read first. -/
def State.bytePair (s : State) (die : Nat) (c : Cmd) : Except Nat (Nat × Nat) → Except Nat (BLoc × BLoc)
  | .error e => .error e
  | .ok (a, b) =>
    match s.epByte die c false a, s.epByte die c true b with
    | .ok x, .ok y => .ok (x, y)
    | .error e, _ => .error e
    | _, .error e => .error e

/-- The pairs before the first failing access, and its status (0 for none). -/
def untilFail : List (Except Nat (BLoc × BLoc)) → List (BLoc × BLoc) × Nat
  | [] => ([], 0)
  | .error e :: _ => ([], e)
  | .ok x :: l => (x :: (untilFail l).1, (untilFail l).2)

/-! ## Reading and writing -/

/-- A scratch or peer byte as it stands; a peer's is the outside world's. -/
def State.oneByte (s : State) : BLoc → Byte × State
  | .mem l => (s.byte l, s)
  | .sc p off => (byteAt (s.scRead p off 1) 0, s.draw)
  | .peer _ => (s.loose.1.setWidth 8, s.loose.2)

def BLoc.mem? : BLoc → Option Nat
  | .mem l => some l
  | _ => none

def State.eachByte : List BLoc → State → List Byte × State
  | [], s => ([], s)
  | x :: xs, s =>
    let (b, s) := s.oneByte x
    let (bs, s) := State.eachByte xs s
    (b :: bs, s)

/-- The bytes of sources of one kind: global memory under the command's acquire. -/
def State.srcBytes (s : State) (c : Cmd) (l : List BLoc) : List Byte × State :=
  match l with
  | .mem _ :: _ => s.readPieces [] c.acq none (s.engAt c) c.ctx (pieces (l.filterMap BLoc.mem?))
  | _ => State.eachByte l s

/-- Each destination byte that is a source byte too takes a loose value (R299). -/
def State.overlapped (srcs : List BLoc) : List (BLoc × Byte) → State → List (BLoc × Byte) × State
  | [], s => ([], s)
  | (d, b) :: l, s =>
    let (v, s) := if srcs.contains d then (s.loose.1.setWidth 8, s.loose.2) else (b, s)
    let (r, s) := State.overlapped srcs l s
    ((d, v) :: r, s)

/-- A copy engine as an agent. -/
def copyAt (die eng : Nat) : AgentAt := { ag := .copy die eng, die := some die, clu := none }

/-- Bytes in runs that are of one memory piece, or of one kind of other place. -/
def byteRuns : List (BLoc × Byte) → List (List (BLoc × Byte))
  | [] => []
  | x :: xs =>
    let same (a b : BLoc) : Bool := match a, b with
      | .mem l, .mem m => l / 32 == m / 32
      | .sc p _, .sc q _ => p == q
      | .peer _, .peer _ => true
      | _, _ => false
    match byteRuns xs with
    | (y :: ys) :: rs => if same x.1 y.1 then (x :: y :: ys) :: rs else [x] :: (y :: ys) :: rs
    | rs => [x] :: rs

/-- The flow that a copy engine's frames take. (DESIGN CHOICE, log entry 76) -/
def flowOf (die eng : Nat) : Nat := die * 8 + eng

/-- The port of a peer: the lowest of its mask whose link is up. -/
def State.peerPort (s : State) (p : Peer) : Option Nat :=
  (List.range 12).find? fun k => p.port.getLsbD k && !s.linksDown.contains k

/-- Frames of up to 4,096 bytes are sent to a peer, by its entry as it stood when the command started; where no port of its mask is up
any more, the command ends with status PEER (R289, R376). -/
def State.sendFrames (s : State) (die eng : Nat) (c : Cmd) (l : List (BLoc × Byte)) : Cmd × State :=
  match c.peer with
  | none => (c, s)
  | some p =>
    let fl := flowOf die eng
    (chunksOf 4096 l.length l).foldl (fun (x : Cmd × State) g => match (if x.1.status = 0 then x.2.peerPort p else none) with
    | none => ({ x.1 with status := if x.1.status = 0 then 6 else x.1.status }, x.2)
    | some port =>
      let f := (tget x.2.flows fl).getD {}
      let dest := match (g.map Prod.fst).head? with
        | some (.peer a) => a
        | _ => 0
      let fr : Frame :=
        { port := port, flow := fl, seq := f.next, dest := BitVec.ofNat 64 dest, ctx := p.remote.toNat
          keyTag := p.keyTag, data := g.map Prod.snd, mac := p.mac }
      ({ x.1 with frames := x.1.frames ++ [(fl, f.next)] },
        { x.2 with
          flows := tset x.2.flows fl { f with next := (f.next + 1) % 2 ^ 32, sent := f.sent ++ [fr] }
          linkOut := x.2.linkOut ++ [fr] })) (c, s)
where
  chunksOf (n : Nat) : Nat → List (BLoc × Byte) → List (List (BLoc × Byte))
    | 0, _ => []
    | _, [] => []
    | k + 1, l => l.take n :: chunksOf n k (l.drop n)

/-- One run of bytes is written. -/
def State.writeRun (s : State) (die eng : Nat) (c : Cmd) (l : List (BLoc × Byte)) : Cmd × State :=
  match l with
  | (.mem _, _) :: _ =>
    let (seq, s) := s.engEnter (copyAt die eng) c.ctx (l.filterMap fun x => x.1.mem?.map fun m => (m, x.2))
    ({ c with wrote := c.wrote ++ [seq] }, s)
  | (.sc .., _) :: _ => (c, l.foldl (fun s x => match x.1 with
      | .sc p off => s.scWrite p off [x.2]
      | _ => s) s)
  | (.peer _, _) :: _ => s.sendFrames die eng c l
  | [] => (c, s)

def State.writeBytes (s : State) (die eng : Nat) (c : Cmd) (l : List (BLoc × Byte)) : Cmd × State :=
  (byteRuns l).foldl (fun x r => x.2.writeRun die eng x.1 r) (c, s)

/-! ## Reduce-add, R299 -/

def addElem (rty d s : Nat) : Nat :=
  match rty with
  | 0 => (fmtF32.add .rne d s).1
  | 1 => (d + s) % 2 ^ 32
  | 2 => wrap 32 (max (-2 ^ 31) (min (2 ^ 31 - 1) (signed 32 d + signed 32 s)))
  | _ => (fmtBf16.add .rne d s).1

/-- The destination element as it stands at its place in the order. -/
def State.dstNow (s : State) (c : Cmd) (l : List BLoc) : List Byte × State :=
  match l with
  | .mem m :: _ => (s.readNow c.ctx (m :: l.tail.filterMap BLoc.mem?), s.draw)
  | _ => State.eachByte l s

/-- One element after the other, each indivisibly. -/
def State.reduce (die eng e : Nat) (srcs : List BLoc) : List (List (BLoc × BLoc)) → Cmd → State → Cmd × State
  | [], c, s => (c, s)
  | el :: els, c, s =>
    let (sb, s) := s.srcBytes c (el.map Prod.fst)
    let (db, s) := s.dstNow c (el.map Prod.snd)
    let v := natToBytes e (addElem (cRty c.rec_) (bytesToNat db) (bytesToNat sb))
    let (w, s) := State.overlapped srcs ((el.map Prod.snd).zip v) s
    let (c, s) := s.writeBytes die eng c w
    State.reduce die eng e srcs els c s

/-- Whole elements of a list of byte pairs. -/
def wholeElems (e : Nat) (l : List (BLoc × BLoc)) : List (List (BLoc × BLoc)) :=
  (List.range (l.length / e)).map fun i => (l.drop (e * i)).take e

/-! ## One chunk of a running command, R346 -/

/-- All bytes of the command have been copied. -/
def Cmd.total (c : Cmd) : Nat := cPlanes c.rec_ * cRows c.rec_ * cLen c.rec_

/-- The global addresses that a command reads and writes at the given offsets, as far as they are known. -/
def copyVas (c : Cmd) (write : Bool) (offs : List (Except Nat (Nat × Nat))) : List Nat :=
  let k := if write then cDk c.rec_ else cSk c.rec_
  let p := if write then cDst c.rec_ else cSrc c.rec_
  if k ≠ 0 then []
  else offs.filterMap fun x => match x with
    | .ok o => some ((p.toNat + (if write then o.2 else o.1)) % 2 ^ 64)
    | .error _ => none

/-- The runs of consecutive addresses in a list: first address and length. -/
def vaRuns : List Nat → List (Nat × Nat)
  | [] => []
  | a :: l => match vaRuns l with
    | (b, n) :: rs => if a + 1 = b then (a, n + 1) :: rs else (a, 1) :: (b, n) :: rs
    | [] => [(a, 1)]

/-- Where the bytes of a run of addresses lie for a command. -/
def State.runLocs (s : State) (die : Nat) (c : Cmd) (write : Bool) (r : Nat × Nat) : List Nat :=
  (List.range r.2).filterMap fun i => match s.globByte die c write (r.1 + i) with
    | .ok (.mem l) => some l
    | _ => none

/-- Accesses of an engine for a command, at addresses, are noted as the pushing workgroup's (R277). (DEDUCED, log entry 79) -/
def State.noteCmd (s : State) (die : Nat) (by_ : AgentAt) (c : Cmd) (kind : Nat) (vas : List Nat) : State :=
  match c.lid, c.wg with
  | some lid, some wg =>
    (vaRuns vas).foldl (fun s r =>
      s.noteAccess { lid := lid, wg := wg, wave := 0, lane := 0 } (some by_.ag) kind (BitVec.ofNat 64 r.1)
        (s.runLocs die c (kind != 0) r)) s
  | _, _ => s

/-- The accesses of a chunk: its indices, its sources and its destinations. -/
def State.noteCopy (s : State) (die eng : Nat) (c : Cmd) (offs : List (Except Nat (Nat × Nat))) : State :=
  let by_ := copyAt die eng
  let g := cGesz c.rec_
  let idx := if cOp c.rec_ = 3 then
      ((List.range ((c.done + offs.length + g - 1) / g)).drop (c.done / g)).flatMap (idxVas c) else []
  ((s.noteCmd die by_ c 0 idx).noteCmd die by_ c 0 (copyVas c false offs)).noteCmd die by_ c (if cOp c.rec_ = 4 then 2 else 1)
    (copyVas c true offs)

/-- CPYG as it applies to an engine's commands of a context: as it stood when a stop was requested that still waits for the
engine, else the register's (R346). -/
def State.cpygAt (s : State) (die eng ctx : Nat) : Nat :=
  match (s.die die).stops.find? fun r => r.ctx == some ctx && r.waiting.contains (.copy eng) with
  | some r => r.cpyg
  | none => (s.die die).cpyg

/-- The next chunk of a command: up to the next multiple of 2^(12 + CPYG) bytes, or up to its first failing access.
(DEDUCED, log entry 73) -/
def State.copyChunk (s : State) (die eng : Nat) (c : Cmd) : Cmd × State :=
  let size := 2 ^ (12 + s.cpygAt die eng c.ctx)
  let n := size - c.done % size
  let (offs, s) := s.copyOffs die c
  let all := offs.map (s.bytePair die c)
  let srcs := all.filterMap fun x => match x with
    | .ok p => some p.1
    | .error _ => none
  let (ps, st) := untilFail ((all.drop c.done).take n)
  let now := (offs.drop c.done).take ps.length
  let s := s.noteCopy die eng c now
  let acq := c.acq
  let c := { c with acq := s.pubAcq die c (copyVas c false now) }
  let (c, s) :=
    if cOp c.rec_ = 4 then State.reduce die eng (cElem c.rec_) srcs (wholeElems (cElem c.rec_) ps) c s
    else
      let (b, s) := s.srcBytes c (ps.map Prod.fst)
      let (w, s) := State.overlapped srcs ((ps.map Prod.snd).zip b) s
      s.writeBytes die eng c w
  let s := s.count die none 0x300 (some c.ctx) c.lid c.wg none ps.length
  ({ c with done := c.done + ps.length, status := if c.status = 0 then st else c.status, acq := acq }, s)

/-- The command has no byte left to copy, or has failed. -/
def Cmd.finished (c : Cmd) : Bool := c.started && (c.status ≠ 0 || c.total ≤ c.done)

/-! ## Start, R258, R260, R261, R300 -/

/-- Publish entries that the bytes of a list of addresses lie in: a published range, or a version. -/
def State.pubsOf (s : State) (die ctx : Nat) (vas : List Nat) : List (Nat × Bool × Bool) :=
  (vas.filterMap fun va => match pubOf (s.die die) ctx va with
    | some (i, p) => some (i, p.cur, true)
    | none => (pubVer (s.die die) ctx va).map fun x => (x.1, x.2.2, false)).eraseDups

/-- The command reaches the private scratch of a workgroup that stands pre-empted: it waits for its return (R300). -/
def State.kind3Away (s : State) (c : Cmd) : Bool :=
  !c.gone && (cSk c.rec_ == 3 || cDk c.rec_ == 3) && match c.lid, c.wg with
    | some lid, some wg => (s.wg lid wg).st == .preempted
    | _, _ => false

/-- Shadows have no readers left from before the swap (R261). -/
def State.shadowsFree (s : State) (die : Nat) (l : List Nat) : Bool :=
  l.all fun i => match tget (s.die die).pubs i with
    | some p => !s.versionBusy die i (!p.cur)
    | none => true

/-- A command that a unit pushed starts in the unit's turn, when what the unit has released is in the order (R258, R265, R267).
(DEDUCED, log entry 143) -/
def State.cmdTurn (s : State) (c : Cmd) : Bool :=
  c.fromNode || c.gone || match c.lid, c.wg with
    | some lid, some wg => s.turnOpen lid wg
    | _, _ => true

/-- The command can start. -/
def State.copyMay (s : State) (die : Nat) (c : Cmd) : Bool :=
  s.cmdTurn c && !s.kind3Away c && s.shadowsFree die ((s.die die).shadowHits c.ctx (copyRows c.rec_))

/-- A source page of the command is host memory, or it reads a peer. (DEDUCED, log entry 74) -/
def State.srcHost (s : State) (die : Nat) (c : Cmd) (offs : List (Except Nat (Nat × Nat))) : Bool :=
  let host (va : Nat) : Bool := match s.globByte die c false va with
    | .ok (.mem l) => hostLoc l
    | _ => false
  cSk c.rec_ == 4 || (copyVas c false offs).any host ||
    (cOp c.rec_ == 3 && (List.range (4 * (cLen c.rec_ / cGesz c.rec_))).any fun j => host ((cIdx c.rec_).toNat + j))

/-- The locations that the command has written. -/
def State.wroteLocs (s : State) (c : Cmd) : List Nat :=
  (s.order.filter fun (w : WriteRec) => c.wrote.contains w.seq).flatMap fun w => w.bytes.map Prod.fst

/-- One of them is host memory. -/
def State.wroteHost (s : State) (c : Cmd) : Bool := (s.wroteLocs c).any hostLoc

/-- The scratch endpoint of a side, where its pointer names a buffer of the right level. -/
def State.epBuf (s : State) (die : Nat) (c : Cmd) (write : Bool) : Option (Nat × Buffer) :=
  let p := if write then cDst c.rec_ else cSrc c.rec_
  let lv : Option Lvl := match (if write then cDk c.rec_ else cSk c.rec_) with
    | 1 => some .die
    | 2 => some .cluster
    | _ => none
  match s.bufNamed die c.ctx (ptrBuf p) with
  | some b => if lv == some b.lvl then some (ptrBuf p, b) else none
  | none => none

/-- Admission of one endpoint: the buffer is given to this engine, and is taken; or, for a source, it is SHARED (R300).
(DEDUCED, log entry 72) -/
def State.admitBuf (s : State) (die eng : Nat) (c : Cmd) (write : Bool) : Cmd × State :=
  match s.epBuf die c write with
  | none => (c, s)
  | some (id, b) =>
    if c.took.contains id then (c, s)
    else if b.st == .given && b.target == .copy eng then
      ({ c with took := c.took ++ [id] }, (s.updDie die fun d =>
        { d with bufs := tupd d.bufs id fun b => { b with st := .held, hold := .copy eng, target := .none } }).bufTurned die id)
    else if b.st == .shared && !write && b.hold != .queueUnit && b.hold != .none then ({ c with reads := c.reads ++ [id] }, s)
    else ({ c with status := 3 }, s)

/-- Kind 3 reaches only BUF 0, PEER 0 of a pushing workgroup, and a node's record does not name it.
(DESIGN CHOICE, log entry 71) -/
def kind3Bad (c : Cmd) : Bool :=
  let bad (k : Nat) (p : DWord) : Bool := k == 3 && (c.fromNode || c.wg.isNone || ptrBuf p ≠ 0 || ptrPeer p ≠ 0)
  bad (cSk c.rec_) (cSrc c.rec_) || bad (cDk c.rec_) (cDst c.rec_)

/-- The peer entry is unknown, or no port of it is up. -/
def State.peerBad (s : State) (c : Cmd) : Bool :=
  (cSk c.rec_ = 4 || cDk c.rec_ = 4) && match tget (s.ctx c.ctx).peers (cPeer c.rec_) with
    | some p => (s.peerPort p).isNone
    | none => true

/-- The start of a command: the acquire, the checks, the buffers, and the entries that it reads and writes. -/
def State.copyStart (s : State) (die eng : Nat) (c : Cmd) : Cmd × State :=
  let (a, s) := s.acqBy (copyAt die eng) .module
  let c := { c with started := true, acq := a }
  if copyBad c.rec_ then ({ c with status := 5 }, s)
  else if s.peerBad c then ({ c with status := 6 }, s)
  else if kind3Bad c then ({ c with status := 3 }, s)
  else
    let (c, s) := s.admitBuf die eng c false
    let (c, s) := if c.status = 0 then s.admitBuf die eng c true else (c, s)
    if c.status ≠ 0 then (c, s)
    else
      let (offs, s) := s.copyOffs die c
      let (a, s) := if s.srcHost die c offs then s.acqBy (copyAt die eng) .system else (a, s)
      let idx := if cOp c.rec_ = 3 then (List.range (cLen c.rec_ / cGesz c.rec_)).flatMap (idxVas c) else []
      let rd := (s.pubsOf die c.ctx (copyVas c false offs ++ idx)).map fun x => (x.1, x.2.1)
      let wr := (s.die die).shadowHits c.ctx (copyRows c.rec_)
      let peer := tget (s.ctx c.ctx).peers (cPeer c.rec_)
      ({ c with acq := a, pubR := rd, pubW := wr, peer := peer }, s.updDie die fun d =>
        { d with pubs := wr.foldl (fun t i => tupd t i fun p => { p with wcmd := p.wcmd + 1 }) d.pubs })

/-! ## Which command an engine starts, R288 -/

/-- Queues that name an engine, with elements, of workgroups that the engine may serve: launch, workgroup, queue, and the
oldest element. -/
def State.portQueues (s : State) (die epk epn : Nat) (k : EngineKind) : List ((Nat × Nat × Nat) × List Byte) :=
  s.wgs.flatMap fun g =>
    if g.2.die != die || !(g.2.st == .running || g.2.st == .ended) || s.ctxBlocked die (s.launch g.1.1).ctx k then []
    else (List.range 8).filterMap fun q =>
      let x := vget g.2.q {} q
      if cwEpk x.cw = epk && cwEpn x.cw = epn then x.elems.head?.map fun e => ((g.1.1, g.1.2, q), e) else none

def portLt (a b : Nat × Nat × Nat) : Bool :=
  a.1 < b.1 || (a.1 == b.1 && (a.2.1 < b.2.1 || (a.2.1 == b.2.1 && a.2.2 < b.2.2)))

/-- The queues in rotation, from the one after the last served. -/
def rotated (last : Option (Nat × Nat × Nat)) (l : List ((Nat × Nat × Nat) × List Byte)) :
    List ((Nat × Nat × Nat) × List Byte) :=
  let l := sortBy (fun a b => portLt a.1 b.1) l
  match last with
  | none => l
  | some x => (l.filter fun a => portLt x a.1) ++ l.filter fun a => !portLt x a.1

/-- The command in a queue element. -/
def State.cmdOf (s : State) (k : Nat × Nat × Nat) (e : List Byte) : Cmd :=
  { rec_ := bytesToWords e, ctx := (s.launch k.1).ctx, lid := some k.1, wg := some k.2.1 }

/-- The OP under which an event handles a record: 1-D takes the records with a bad OP too. (DEDUCED, log entry 77) -/
def opClass (r : List Word) : Nat := if 5 ≤ cOp r then 0 else cOp r

/-- The next element in rotation that can start. -/
def State.copyNext (s : State) (die eng : Nat) : Option ((Nat × Nat × Nat) × List Byte) :=
  (rotated (vget (s.die die).copyRot none eng) (s.portQueues die 2 eng (.copy eng))).find? fun x =>
    s.copyMay die (s.cmdOf x.1 x.2)

/-- Commands of an engine of an OP that may go on now: those issued to it, by index, which may start or are running. -/
def State.copyReady (s : State) (die eng op : Nat) : List Nat :=
  ((vget (s.die die).copyQ [] eng).zipIdx.filter fun x =>
    opClass x.1.rec_ = op && !x.1.finished && !s.ctxBlocked die x.1.ctx (.copy eng) && !s.kind3Away x.1 &&
      (x.1.started || s.copyMay die x.1)).map Prod.snd

/-- The next element, if it is of an OP. -/
def State.copyElem (s : State) (die eng op : Nat) : Option ((Nat × Nat × Nat) × List Byte) :=
  (s.copyNext die eng).bind fun x => if opClass (bytesToWords x.2) = op then some x else none

/-- A command starts, or goes on, with its next chunk. -/
def State.copyGo (s : State) (die eng : Nat) (c : Cmd) : Cmd × State :=
  let (c, s) := if c.started then (c, s) else s.copyStart die eng c
  if c.status ≠ 0 then (c, s) else s.copyChunk die eng c

/-- An engine takes up a command of an OP: any that may start or go on, freely (R301). -/
def State.copyStep (s : State) (die eng op : Nat) : State :=
  let l := s.copyReady die eng op
  let e := s.copyElem die eng op
  let n := l.length + (if e.isSome then 1 else 0)
  if n = 0 then s
  else
    let (k, s) := s.choose n
    match l[k]?, e with
    | some i, _ =>
      match (vget (s.die die).copyQ [] eng)[i]? with
      | none => s
      | some c =>
        let (c, s) := s.copyGo die eng c
        s.updDie die fun d => { d with copyQ := vupd d.copyQ eng fun q => lupd q i fun _ => c }
    | none, some (x, b) =>
      let s := s.updQueue x.1 x.2.1 x.2.2 fun q => { q with elems := q.elems.drop 1 }
      let (c, s) := s.copyGo die eng (s.cmdOf x b)
      s.updDie die fun d =>
        { d with copyQ := vupd d.copyQ eng (fun q => q ++ [c]), copyRot := vset d.copyRot eng (some x) }
    | none, none => s

def execCopy1d (die eng : Nat) (s : State) : Out := .next (s.copyStep die eng 0)
def execCopy2d (die eng : Nat) (s : State) : Out := .next (s.copyStep die eng 1)
def execCopy3d (die eng : Nat) (s : State) : Out := .next (s.copyStep die eng 2)
def execCopyGather (die eng : Nat) (s : State) : Out := .next (s.copyStep die eng 3)
def execCopyReduceAdd (die eng : Nat) (s : State) : Out := .next (s.copyStep die eng 4)

/-! ## COPY_COMPLETE -/

/-- The commands of a copy engine that are issued, or stand in the queues that name it. -/
def State.copyCmds (s : State) (die eng : Nat) : List Cmd :=
  vget (s.die die).copyQ [] eng ++ (s.wgs.filter fun g => g.2.die == die).flatMap fun g => (List.range 8).flatMap fun q =>
    let x := vget g.2.q {} q
    if cwEpk x.cw = 2 && cwEpn x.cw = eng then x.elems.map (s.cmdOf (g.1.1, g.1.2, q)) else []

/-- A command of a copy engine that has not completed names a buffer as an endpoint. -/
def State.copyNames (s : State) (die eng id : Nat) : Bool :=
  (s.copyCmds die eng).any fun c => [false, true].any fun w => (s.epBuf die c w).map Prod.fst == some id

/-- A pinned buffer GIVEN to a copy engine by a launch that has ended, which no command names any more, is FREE (R213, R382). -/
def State.freeStranded (s : State) (die eng : Nat) : State :=
  ((s.die die).bufs.filter fun b => b.2.session.isSome && b.2.st == .given && b.2.target == .copy eng &&
    (s.launch b.2.shLid).ended && !s.copyNames die eng b.1).foldl (fun s b => s.freeBuf die b.1) s

/-- A buffer that a command took is given to the issuer; one of an issuer that has ended becomes FREE (R300).
(DEDUCED, log entry 80) -/
def State.returnBuf (s : State) (die : Nat) (c : Cmd) (id : Nat) : State :=
  let iss : Option (Nat × Nat) := match c.lid, c.wg with
    | some lid, some wg => if c.gone || s.targetEnded (.wg lid wg) then none else some (lid, wg)
    | _, _ => none
  (s.updDie die fun d => { d with bufs := tupd d.bufs id fun b => match iss with
    | some (lid, wg) => { b with st := .given, hold := .none, target := .wg lid wg, shLid := lid }
    | none => b.freed }).bufTurned die id

/-- COPY_COMPLETE: the i-th command of an engine, with every write in its order and every frame acknowledged, releases,
returns its buffers and signals its node. -/
def execCopyComplete (die eng i : Nat) (s : State) : Out :=
  .next (match (vget (s.die die).copyQ [] eng)[i]? with
    | none => s
    | some c =>
      if !c.finished || !c.frames.isEmpty || s.ctxBlocked die c.ctx (.copy eng) then s
      else
        let sys := cDk c.rec_ == 4 || s.wroteHost c
        let s := s.engRelease (copyAt die eng) (if sys then .system else .module) c.wrote
        let s := s.updDie die fun d =>
          { d with
            copyQ := vupd d.copyQ eng fun q => q.eraseIdx i
            pubs := c.pubW.foldl (fun t k => tupd t k fun p => { p with wcmd := p.wcmd - 1 }) d.pubs }
        let s := c.took.foldl (fun s id => s.returnBuf die c id) s
        let s := (c.reads.foldl (fun s id => s.freeDrained die id) s).freeStranded die eng
        let s := if c.packet.isSome then s.unload (s.wroteLocs c) else s
        (s.cmdEnds die c c.status).finishPacket c.packet)

end Sys2Proof.Machine
end

