-- ==== Sys2Proof/Machine/Encode.lean ====
section
/-! DEFINITION. The video encode engines (R288, R305 to R307): ENCODE_CONFIGURE, ENCODE_FRAME, ENCODE_END_SESSION,
ENCODE_COMPLETE; and the graph walker's queue elements (R288, R293): GRAPH_QUEUE_ELEMENT. -/

namespace Sys2Proof.Machine

/-! ## Which command starts -/

/-- An encode engine as an agent. -/
def encodeAt (die eng : Nat) : AgentAt := { ag := .encode die eng, die := some die, clu := none }

/-- The session that a command is for: by engine and number, and by context. (DESIGN CHOICE, log entry 81) -/
def sesKey (eng : Nat) (c : Cmd) : Nat × Nat := (4 * eng + eSes c.rec_, c.ctx)

/-- A command of a queue element, with the moment at which it was pushed. -/
def State.encCmd (s : State) (x : Nat × Nat × Nat) (e : List Byte) (pushed : Nat) : Cmd :=
  { s.cmdOf x e with stamp := pushed }

def State.encList (s : State) (die eng : Nat) : List Cmd := vget (s.die die).encQ [] eng

/-- The commands that stand in the queues naming an encode engine of a die. -/
def State.encPushed (s : State) (die eng : Nat) : List Cmd :=
  (s.wgs.filter fun g => g.2.die == die).flatMap fun g => (List.range 8).flatMap fun q =>
    let x := vget g.2.q {} q
    if cwEpk x.cw = 3 && cwEpn x.cw = eng then
      (x.elems.zip x.pushed).map fun e => s.encCmd (g.1.1, g.1.2, q) e.1 e.2
    else []

/-- No command of the session that was pushed or issued before is still open (R301, R307), the node waited for is DONE (R306),
and the shadows that a write may reach have no readers left (R261). -/
def State.encMay (s : State) (die eng : Nat) (c : Cmd) : Bool :=
  let before (b : Cmd) : Bool := sesKey eng b == sesKey eng c && (b.started || b.stamp < c.stamp)
  s.cmdTurn c && !((s.encList die eng ++ s.encPushed die eng).any before) &&
    (eWnode c.rec_ == 0xFFFFFFFF || match (s.die die).node? c.ctx (eWnode c.rec_) with
      | some n => n.st == .done
      | none => false) &&
    s.shadowsFree die ((s.die die).shadowHits c.ctx (encodeRows c.rec_))

/-- The OP under which an event handles a record: configure takes the records with a bad OP too. -/
def encClass (r : List Word) : Nat := if 2 < eOp r then 0 else eOp r

/-- The command has nothing left to do but its completion: a frame once all its superblock rows have been read. -/
def Cmd.coded (c : Cmd) : Bool := c.started && (c.status ≠ 0 || eOp c.rec_ ≠ 1 || c.rows ≤ c.done)

/-- Issued commands of an OP that may start or go on, by index. -/
def State.encReady (s : State) (die eng op : Nat) : List Nat :=
  ((s.encList die eng).zipIdx.filter fun x =>
    encClass x.1.rec_ = op && !x.1.coded && !s.ctxBlocked die x.1.ctx (.encode eng) &&
      (x.1.started || s.encMay die eng x.1)).map Prod.snd

/-- The next queue element in rotation that can start, if it is of an OP. -/
def State.encElem (s : State) (die eng op : Nat) : Option ((Nat × Nat × Nat) × Cmd) :=
  (((rotated (vget (s.die die).encRot none eng) (s.portQueues die 3 eng (.encode eng))).map fun x =>
    (x.1, s.encCmd x.1 x.2 ((s.queue x.1.1 x.1.2.1 x.1.2.2).pushed.headD 0))).find? fun x =>
      s.encMay die eng x.2).bind fun x => if encClass x.2.rec_ = op then some x else none

/-- A command starts: its acquire (R258), and the entries whose shadow it may write count it (R302). -/
def State.encBegin (s : State) (die eng : Nat) (c : Cmd) : Cmd × State :=
  if c.started then (c, s)
  else
    let (a, s) := s.acqBy (encodeAt die eng) .module
    let wr := (s.die die).shadowHits c.ctx (encodeRows c.rec_)
    ({ c with started := true, acq := a, pubW := wr }, s.updDie die fun d =>
      { d with pubs := wr.foldl (fun t i => tupd t i fun p => { p with wcmd := p.wcmd + 1 }) d.pubs })

/-- An engine takes up a command of an OP: `go` does its work, of a frame one part. -/
def State.encStep (s : State) (die eng op : Nat) (go : Cmd → State → Cmd × State) : State :=
  match s.encReady die eng op, s.encElem die eng op with
  | i :: _, _ =>
    match (s.encList die eng)[i]? with
    | none => s
    | some c =>
      let (c, s) := s.encBegin die eng c
      let (c, s) := go c s
      s.updDie die fun d => { d with encQ := vupd d.encQ eng fun q => lupd q i fun _ => c }
  | [], some (x, c) =>
    let s := s.updQueue x.1 x.2.1 x.2.2 fun q => { q with elems := q.elems.drop 1, pushed := q.pushed.drop 1 }
    let (c, s) := s.encBegin die eng c
    let (c, s) := go c s
    s.updDie die fun d => { d with encQ := vupd d.encQ eng (fun q => q ++ [c]), encRot := vset d.encRot eng (some x) }
  | [], none => s

/-! ## Configure and end, R307 -/

/-- Samples per second of the other sessions of an engine. -/
def State.encLoad (s : State) (die eng : Nat) (key : Nat × Nat) : Nat :=
  ((s.die die).sessions.map fun x => if x.1.1 / 4 = eng && x.1 != key then x.2.w * x.2.h * x.2.fps else 0).sum

/-- The session that a configure record describes. -/
def sessionOf (c : Cmd) : Session :=
  let r := c.rec_
  { ctx := c.ctx, lid := c.lid, w := eW r, h := eH r, bd := cbits r 4 0 1 == 1, vbr := cbits r 4 1 1 == 1
    fps := cbits r 4 8 8, tcol := cbits r 4 16 2, qkey := BitVec.ofNat 8 (cbits r 5 0 8)
    qint := BitVec.ofNat 8 (cbits r 5 8 8), rate := r.getD 6 0, cap := r.getD 7 0, kint := cbits r 8 0 16
    hist := wordsToBytes r }

/-- Bytes 4 to 15 of a status record. -/
def statBytes (n frame : Nat) (q : Byte) (key : Bool) : List Byte :=
  natToBytes 4 n ++ natToBytes 4 frame ++ [q, if key then 1 else 0, 0, 0]

def State.configureGo (die eng : Nat) (c : Cmd) (s : State) : Cmd × State :=
  let c := { c with stat := statBytes 0 0 0 false }
  if encodeBad c.rec_ then ({ c with status := 5 }, s)
  else
    let x := sessionOf c
    if 497664000 < s.encLoad die eng (sesKey eng c) + x.w * x.h * x.fps || (x.vbr && x.cap.toNat * 256 < x.w * x.h + 1024 * 256) then
      ({ c with status := 7 }, s)
    else (c, s.updDie die fun d => { d with sessions := tset d.sessions (sesKey eng c) x })

def execEncodeConfigure (die eng : Nat) (s : State) : Out := .next (s.encStep die eng 0 (State.configureGo die eng))

def State.endGo (die eng : Nat) (c : Cmd) (s : State) : Cmd × State :=
  if encodeBad c.rec_ then ({ c with status := 5 }, s)
  else (c, s.updDie die fun d => { d with sessions := terase d.sessions (sesKey eng c) })

def execEncodeEndSession (die eng : Nat) (s : State) : Out := .next (s.encStep die eng 2 (State.endGo die eng))

/-! ## The bitstream's layout, R305 (PRESUMED, log entry 18: the AV1 specification's own syntax) -/

/-- The n low bits of a number, the highest first. -/
def bitsOf (n x : Nat) : List Bool := (List.range n).map fun i => x.testBit (n - 1 - i)

/-- Bits in bytes, the first highest, with zeros to a whole byte. -/
def packBits (l : List Bool) : List Byte :=
  (List.range ((l.length + 7) / 8)).map fun k =>
    BitVec.ofNat 8 ((List.range 8).foldl (fun n i => 2 * n + (if (l.drop (8 * k)).getD i false then 1 else 0)) 0)

/-- The same after a final 1. -/
def trailed (l : List Bool) : List Byte := packBits (l ++ [true])

/-- A number in seven-bit groups, the lowest first. -/
def leb128 : Nat → Nat → List Byte
  | 0, x => [BitVec.ofNat 8 (x % 128)]
  | k + 1, x => if x < 128 then [BitVec.ofNat 8 x] else BitVec.ofNat 8 (x % 128 + 128) :: leb128 k (x / 128)

/-- An OBU with its size field. -/
def obu (type : Nat) (payload : List Byte) : List Byte :=
  BitVec.ofNat 8 (8 * type + 2) :: leb128 4 payload.length ++ payload

/-- A level of Annex A, as a stream without reordering is held to it: its seq_level_idx, the largest frame in luma samples,
width and height, luma samples a second (every frame is shown), frame headers a second, bits a second (Main tier), and tile
columns. (PRESUMED, log entry 18) -/
structure Av1Level where
  idx : Nat
  pic : Nat
  wide : Nat
  high : Nat
  rate : Nat
  heads : Nat
  bits : Nat
  cols : Nat
  deriving DecidableEq, Repr

/-- The levels of Annex A up to 5.1. (PRESUMED, log entry 18) -/
def av1Levels : List Av1Level :=
  [⟨0, 147456, 2048, 1152, 4423680, 150, 1500000, 4⟩, ⟨1, 278784, 2816, 1584, 8363520, 150, 3000000, 4⟩,
    ⟨4, 665856, 4352, 2448, 19975680, 150, 6000000, 6⟩, ⟨5, 1065024, 5504, 3096, 31950720, 150, 10000000, 6⟩,
    ⟨8, 2359296, 6144, 3456, 70778880, 300, 12000000, 8⟩, ⟨9, 2359296, 6144, 3456, 141557760, 300, 20000000, 8⟩,
    ⟨12, 8912896, 8192, 4352, 267386880, 300, 30000000, 8⟩, ⟨13, 8912896, 8192, 4352, 534773760, 300, 40000000, 8⟩]

/-- Superblocks of 64 samples along an edge. -/
def sbs (n : Nat) : Nat := (n + 63) / 64

/-- The least k with n ≤ 2 ^ k, up to 6. -/
def tileLog2 (n : Nat) : Nat := ((List.range 7).find? fun k => n ≤ 2 ^ k).getD 6

/-- log2 of the tile columns of a session's frames, 1, 2 or 4: as TCOL says, as far as there are superblock columns for them. -/
def Session.colsLog2 (x : Session) : Nat := min x.tcol (Nat.log2 (sbs x.w))

/-- seq_level_idx: the smallest that holds the stream, at most 13. -/
def Session.level (x : Session) : Nat :=
  ((av1Levels.find? fun l => x.w * x.h ≤ l.pic && x.w ≤ l.wide && x.h ≤ l.high && x.w * x.h * x.fps ≤ l.rate &&
    x.fps ≤ l.heads && (!x.vbr || x.rate.toNat * 1000 ≤ l.bits) && 2 ^ x.colsLog2 ≤ l.cols).map (·.idx)).getD 13

/-- A field of a session's sequence header that R305 leaves to the engine. -/
def Session.seqFree (x : Session) (k : Nat) : Nat := Config.seqField (x.hist.take 64) k

/-- The bits of an order hint. -/
def Session.hintBits (x : Session) : Nat := x.seqFree 3 % 8 + 1

/-- The sequence header of a session: Main profile and tier, 64×64 superblocks, the tools of R305, BT.709 in limited range.
What R305 leaves to the engine is free. -/
def seqHeader (x : Session) : List Byte :=
  let free (k n : Nat) : List Bool := bitsOf n (x.seqFree k)
  let level := x.level
  trailed <|
    bitsOf 3 0 ++ [false, false, false, false] ++ bitsOf 5 0 ++ bitsOf 12 0 ++ bitsOf 5 level ++
    (if 7 < level then [false] else []) ++ bitsOf 4 11 ++ bitsOf 4 11 ++ bitsOf 12 (x.w - 1) ++ bitsOf 12 (x.h - 1) ++
    [false, false, true, true, false, false, false] ++ free 1 1 ++ [true, false] ++ free 2 1 ++ [false, false] ++ free 3 3 ++
    [false, true, true] ++ [x.bd, false, true] ++ bitsOf 8 1 ++ bitsOf 8 1 ++ bitsOf 8 1 ++ [false] ++ free 4 2 ++ free 5 1 ++
    [false]

/-- The references of an inter frame: every frame enters slot 0, so that LAST is the previous frame; none but a key frame, which
enters every slot, enters slot 1, so that GOLDEN is the latest key frame; of the other slots and references the engine decides. -/
def interRefs (free : Nat → Nat → List Bool) : List Bool :=
  free 16 6 ++ [false, true] ++ [false] ++ bitsOf 3 0 ++ free 17 3 ++ free 18 3 ++ bitsOf 3 1 ++ free 19 3 ++ free 20 3 ++ free 21 3

/-- x as one of n values, ns(n). -/
def nsBits (n x : Nat) : List Bool :=
  let w := Nat.log2 n + 1
  let m := 2 ^ w - n
  if x < m then bitsOf (w - 1) x else bitsOf w (x + m)

/-- Uniform spacing gives as many tiles along an edge of n superblocks as there are to be. -/
def uniformTiles (n k : Nat) : Bool :=
  let w := (n + k - 1) / k
  (n + w - 1) / w == k

/-- The widths of k tiles in a row of n superblocks, as nearly equal as can be. -/
def tileWidths (n k : Nat) : List Nat := (List.range k).map fun j => n / k + if j < n % k then 1 else 0

/-- Widths written one after another, each as one of what is left. -/
def widthBits : Nat → List Nat → List Bool
  | _, [] => []
  | left, w :: ws => nsBits left (w - 1) ++ widthBits (left - w) ws

/-- The frame header's tile columns and one tile row: in uniform spacing where that gives as many columns, else width by width. -/
def tileInfo (x : Session) (free : Nat → Nat → List Bool) : List Bool :=
  let cols := x.colsLog2
  let n := sbs x.w
  let m := sbs x.h
  (if uniformTiles n (2 ^ cols) then
    [true] ++ List.replicate cols true ++ (if cols < tileLog2 n then [false] else []) ++ if 1 < m then [false] else []
  else [false] ++ widthBits n (tileWidths n (2 ^ cols)) ++ nsBits m (m - 1)) ++
    if 0 < cols then free 22 cols ++ free 23 2 else []

/-- A quantiser offset of the engine's: none, or one of seven bits. -/
def deltaQ (free : Nat → Nat → List Bool) (k : Nat) : List Bool := if free k 1 = [true] then true :: free (k + 1) 7 else [false]

/-- The offset is zero. -/
def zeroDelta (l : List Bool) : Bool := l.tail.all fun b => !b

/-- The quantiser offsets after base_q_idx: of Y, of U, and of V where the sequence lets them differ and they do. -/
def deltaQs (x : Session) (free : Nat → Nat → List Bool) : List (List Bool) :=
  let apart : Bool := x.seqFree 5 % 2 = 1 && free 27 1 = [true]
  [deltaQ free 25, deltaQ free 28, deltaQ free 30] ++ if apart then [deltaQ free 32, deltaQ free 34] else []

/-- The frame is coded without loss: base_q_idx and every offset are zero. -/
def lossless (x : Session) (q : Byte) (free : Nat → Nat → List Bool) : Bool := q == 0 && (deltaQs x free).all zeroDelta

/-- The quantiser's part after base_q_idx: the offsets, no quantiser matrices; no segmentation, and no offsets by block. -/
def quantRest (x : Session) (q : Byte) (free : Nat → Nat → List Bool) : List Bool :=
  let d := deltaQs x free
  d.headD [] ++ (if x.seqFree 5 % 2 = 1 then free 27 1 else []) ++ d.tail.flatten ++ [false, false] ++ if q = 0 then [] else [false]

/-- The deblocking filter's levels, sharpness and offsets. -/
def deblock (free : Nat → Nat → List Bool) : List Bool :=
  let on : Bool := (free 40 6 ++ free 41 6).any id
  let update (k : Nat) : List Bool := if free k 1 = [true] then true :: free (k + 1) 7 else [false]
  free 40 6 ++ free 41 6 ++ (if on then free 42 6 ++ free 43 6 else []) ++ free 44 3 ++
    if free 45 1 = [true] then
      [true] ++ if free 46 1 = [true] then true :: (List.range 10).flatMap (fun k => update (50 + 2 * k)) else [false]
    else [false]

/-- CDEF: its damping, and its strengths of luma and chroma. -/
def cdefBits (free : Nat → Nat → List Bool) : List Bool :=
  let n := 2 ^ ((free 71 2).foldl (fun n b => 2 * n + if b then 1 else 0) 0)
  free 70 2 ++ free 71 2 ++ (List.range n).flatMap fun k =>
    free (72 + 4 * k) 4 ++ free (73 + 4 * k) 2 ++ free (74 + 4 * k) 4 ++ free (75 + 4 * k) 2

/-- Loop restoration: its kind in each plane, and the sizes of its units where it is used. -/
def restoration (free : Nat → Nat → List Bool) : List Bool :=
  let luma : Bool := (free 110 2).any id
  let chroma : Bool := (free 111 2 ++ free 112 2).any id
  free 110 2 ++ free 111 2 ++ free 112 2 ++
    (if luma || chroma then free 113 1 ++ if free 113 1 = [true] then free 114 1 else [] else []) ++
    if chroma then free 115 1 else []

/-- The frame header after base_q_idx: the quantiser, the filters, which a frame without loss has none of, the transforms; of an inter
frame no compound prediction, and for no reference global motion. -/
def headerRest (x : Session) (key : Bool) (q : Byte) (free : Nat → Nat → List Bool) : List Bool :=
  quantRest x q free ++
    (if lossless x q free then [] else deblock free ++ cdefBits free ++ restoration free ++ free 116 1) ++
    (if key then [] else [false]) ++ free 117 1 ++ if key then [] else List.replicate 7 false

/-- The frame header: no show_existing_frame, a key or an inter frame, shown, the frame's order hint, its references, no motion mode but
translation, its tiles, base_q_idx and what comes after it. `free` gives the fields that R305 leaves to the engine. -/
def frameHeader (x : Session) (key : Bool) (q : Byte) (free : Nat → Nat → List Bool) : List Bool :=
  let hint := bitsOf x.hintBits x.frame
  let cdf := free 10 1
  let refMvs := x.seqFree 2 % 2 = 1
  let kind := if key then cdf ++ [false] ++ hint ++ [false]
    else
      let filter := free 13 1
      [false] ++ cdf ++ [false] ++ hint ++ free 11 3 ++ interRefs free ++ [false] ++ free 12 1 ++ filter ++
        (if filter = [true] then [] else free 14 2) ++ [false] ++ if refMvs then free 15 1 else []
  [false] ++ bitsOf 2 (if key then 0 else 1) ++ [true] ++ kind ++ (if cdf = [true] then [] else free 24 1) ++ tileInfo x free ++
    bitsOf 8 q.toNat ++ headerRest x key q free

/-- The frame OBU's payload: the header, with zeros to a whole byte, and the tiles, which are the engine's. -/
def framePayload (x : Session) (key : Bool) (q : Byte) (hist : List Byte) : List Byte :=
  packBits (frameHeader x key q fun k n => bitsOf n (Config.seqField hist k)) ++ Config.encodeUnit hist

/-- How long a payload may be, where the unit with `base` bytes besides it and its size is at most `cap` long. -/
def payloadRoom (cap base : Nat) : Nat :=
  ((List.range 5).map fun k => min (cap - base - (k + 1)) (2 ^ (7 * (k + 1)) - 1)).foldl max 1

/-- The temporal unit of a frame: a temporal delimiter, before a key frame the sequence header, and one frame OBU. Of a VBR
session none is longer than CAP (R307). -/
def temporalUnit (x : Session) (key : Bool) (q : Byte) (hist : List Byte) : List Byte :=
  let head := obu 2 [] ++ if key then obu 1 (seqHeader x) else []
  let p := framePayload x key q hist
  head ++ obu 6 (if x.vbr then p.take (payloadRoom x.cap.toNat (head.length + 1)) else p)

/-! ## Frames -/

/-- The addresses of superblock row k of a frame's planes: up to 64 rows of Y, then the rows of Cb, Cr beside them. -/
def rowVas (x : Session) (r : List Word) (k : Nat) : List Nat :=
  let n := x.w * (if x.bd then 2 else 1)
  let rows (a first count : Nat) : List Nat :=
    (List.range count).flatMap fun j => (List.range n).map fun i => (a + (first + j) * ePitch r + i) % 2 ^ 64
  rows (eLuma r) (64 * k) (min 64 (x.h - 64 * k)) ++ rows (eChroma r) (32 * k) (min 32 (x.h / 2 - 32 * k))

/-- Superblock rows of a session's frames. -/
def Session.sbRows (x : Session) : Nat := sbs x.h

/-- A frame is a key frame: the first, a forced one, one that KINT makes due, and the next after one not coded. -/
def Session.isKey (x : Session) (c : Cmd) : Bool := x.needKey || eKey c.rec_ || (x.kint ≠ 0 && x.kint ≤ x.sinceKey)

/-- base_q_idx of a frame, by what the session has taken in up to it. -/
def Session.qOf (x : Session) (key : Bool) (hist : List Byte) : Byte :=
  if x.vbr then Config.encodeQ hist else if key then x.qkey else x.qint

/-- What the status record of a frame holds before the frame is coded. -/
def Session.statOf (x : Session) (c : Cmd) : List Byte :=
  statBytes 0 x.frame (x.qOf (x.isKey c) (x.hist ++ wordsToBytes c.rec_ ++ c.planes)) (x.isKey c)

/-- Locations of addresses that a command reads or writes, as far as they can be reached, and the status that stops it. -/
def State.reach (s : State) (die : Nat) (c : Cmd) (write : Bool) : List Nat → List Nat × Nat
  | [] => ([], 0)
  | va :: vas =>
    match s.globByte die c write va with
    | .ok (.mem l) => (l :: (State.reach s die c write vas).1, (State.reach s die c write vas).2)
    | .ok _ => ([], 5)
    | .error e => ([], e)

/-- Bytes written by an engine at locations, one write of the order for each sector piece. -/
def State.engWrite (s : State) (by_ : AgentAt) (ctx : Nat) (bs : List (Nat × Byte)) : List Nat × State :=
  (byteRuns (bs.map fun b => (.mem b.1, b.2))).foldl (fun x run =>
    let (seq, s) := x.2.engEnter by_ ctx (run.filterMap fun y => y.1.mem?.map fun m => (m, y.2))
    (x.1 ++ [seq], s)) ([], s)

/-- A frame is coded: the unit, or OVERFLOW, and the session after it. -/
def State.codeFrame (die eng : Nat) (x : Session) (c : Cmd) (s : State) : Cmd × State :=
  let key := x.isKey c
  let hist := x.hist ++ wordsToBytes c.rec_ ++ c.planes
  let q := x.qOf key hist
  let unit := temporalUnit x key q hist
  let put (x : Session) (s : State) : State := s.updDie die fun d => { d with sessions := tset d.sessions (sesKey eng c) x }
  if eOcap c.rec_ < unit.length then
    ({ c with status := 8, stat := x.statOf c }, put { x with hist := hist, needKey := true } s)
  else
    let vas := (List.range unit.length).map fun i => (eOut c.rec_ + i) % 2 ^ 64
    let (locs, st) := s.reach die c true vas
    let (seqs, s) := s.engWrite (encodeAt die eng) c.ctx (locs.zip unit)
    let s := s.count die none 0x302 (some c.ctx) c.lid c.wg none 1
    let s := s.noteCmd die (encodeAt die eng) c 1 (vas.take locs.length)
    ({ c with status := st, wrote := c.wrote ++ seqs, stat := statBytes locs.length x.frame q key },
      put { x with hist := hist, needKey := false, frame := x.frame + 1, sinceKey := if key then 1 else x.sinceKey + 1 } s)

/-- The start of a frame: the versions that it reads, and where a plane is host memory the acquire at system scope. -/
def State.frameStart (die eng : Nat) (x : Session) (c : Cmd) (s : State) : Cmd × State :=
  let vas := (List.range x.sbRows).flatMap (rowVas x c.rec_)
  let c := { c with rows := x.sbRows, pubR := (s.pubsOf die c.ctx vas).map fun y => (y.1, y.2.1) }
  if (s.reach die c false vas).1.any hostLoc then
    let (a, s) := s.acqBy (encodeAt die eng) .system
    ({ c with acq := a }, s)
  else (c, s)

/-- The next superblock row of a frame is read, up to its first failing access; after the last the frame is coded. -/
def State.frameRow (die eng : Nat) (x : Session) (c : Cmd) (s : State) : Cmd × State :=
  let vas := rowVas x c.rec_ c.done
  let (locs, st) := s.reach die c false vas
  let s := s.noteCmd die (encodeAt die eng) c 0 (vas.take locs.length)
  if st ≠ 0 then ({ c with status := st, stat := x.statOf c, planes := [] }, s)
  else
    let (b, s) := s.readPieces [] (s.pubAcq die c vas) none (s.engAt c) c.ctx (pieces locs)
    let c := { c with done := c.done + 1, planes := c.planes ++ b }
    if c.done < c.rows then (c, s)
    else
      let (c, s) := State.codeFrame die eng x c s
      ({ c with planes := [] }, s)

/-- ENCODE_FRAME: the start of a frame, or its next superblock row (R346). A record that is refused has its session's frame number
and base_q_idx in its status record; without a session there is neither. (DESIGN CHOICE, log entry 81) -/
def State.frameGo (die eng : Nat) (c : Cmd) (s : State) : Cmd × State :=
  match tget (s.die die).sessions (sesKey eng c) with
  | none => ({ c with status := 5, stat := statBytes 0 0 0 false }, s)
  | some x =>
    if encodeBad c.rec_ then ({ c with status := 5, stat := x.statOf c }, s)
    else
      let (c, s) := if c.rows = 0 then State.frameStart die eng x c s else (c, s)
      State.frameRow die eng x c s

def execEncodeFrame (die eng : Nat) (s : State) : Out := .next (s.encStep die eng 1 (State.frameGo die eng))

/-! ## ENCODE_COMPLETE -/

/-- The status record is written (R307): its own failure is the command's where nothing failed before. -/
def State.writeStat (s : State) (die eng : Nat) (c : Cmd) : Cmd × State :=
  if 1 < eOp c.rec_ || eStat c.rec_ = 0 then (c, s)
  else
    let vas := (List.range 16).map fun i => (eStat c.rec_ + i) % 2 ^ 64
    let (locs, st) := s.reach die c true vas
    let (seqs, s) := s.engWrite (encodeAt die eng) c.ctx (locs.zip (natToBytes 4 c.status ++ c.stat))
    let s := s.noteCmd die (encodeAt die eng) c 1 (vas.take locs.length)
    ({ c with wrote := c.wrote ++ seqs, status := if c.status = 0 then st else c.status }, s)

/-- ENCODE_COMPLETE: the first command of an engine that has done its work writes its status record, releases, and signals its node. -/
def execEncodeComplete (die eng : Nat) (s : State) : Out :=
  .next (match (s.encList die eng).zipIdx.find? fun x => x.1.coded && !s.ctxBlocked die x.1.ctx (.encode eng) with
    | none => s
    | some (c, i) =>
      let (c, s) := s.writeStat die eng c
      let s := s.engRelease (encodeAt die eng) (if s.wroteHost c then .system else .module) c.wrote
      let s := s.updDie die fun d =>
        { d with
          encQ := vupd d.encQ eng fun q => q.eraseIdx i
          pubs := c.pubW.foldl (fun t k => tupd t k fun p => { p with wcmd := p.wcmd - 1 }) d.pubs }
      s.cmdEnds die c c.status)

/-! ## GRAPH_QUEUE_ELEMENT -/

/-- The queue of a die from which the graph walker takes next: in rotation over those that name it and hold an element (R288), of
units whose turn is open. (DEDUCED, log entry 143) -/
def State.walkNext (s : State) (die : Nat) : Option (Nat × Nat × Nat) :=
  ((rotated (s.die die).walkRot (s.portQueues die 4 0 .walker)).find? fun x => s.turnOpen x.1.1 x.1.2.1).map Prod.fst

/-- The walker takes the oldest element of the queue that names it and whose turn it is, and signals the node without the
release of GARM `.sig`. -/
def execGraphQueueElement (lid wg q : Nat) (s : State) : Out :=
  .next (
    let die := (s.wg lid wg).die
    let x := s.queue lid wg q
    match x.elems with
    | [] => s
    | e :: es =>
      if s.walkNext die != some (lid, wg, q) then s
      else
        let s := (s.updQueue lid wg q fun x => { x with elems := es }).updDie die fun d => { d with walkRot := some (lid, wg, q) }
        s.signalNode die (s.launch lid).ctx (BitVec.ofNat 32 (bytesToNat e)) false)

end Sys2Proof.Machine
end

