-- ==== Sys2Proof/Machine/Preempt.lean ====
section
/-! DEFINITION. Pre-emption and context switches (R170, R176, R178, R179, R219, R227, R276, R335, R346 to R348, R359): PREEMPT,
ENGINE_STOP_ACK, PREEMPT_SAVE, UNIT_RESTORE, CONTEXT_SWITCH_OUT, CONTEXT_SWITCH_IN. -/

namespace Sys2Proof.Machine

/-! ## PREEMPT, R178 -/

/-- The launch's %slack is below RESERVE. -/
def State.slackShort (s : State) (l : Launch) : Bool :=
  match l.dline with
  | some d => d.toNat < s.now.toNat + l.reserve
  | none => false

/-- A stop of a unit has been requested somewhere. -/
def State.stopping (s : State) (lid unit : Nat) : Bool :=
  s.dies.toList.any fun d => d.stops.any fun r => r.unit == some (lid, unit) || r.ctx == some (s.launch lid).ctx

/-- The units that pre-emption may take at given sites of a die for an offer, in the order of R178. (DEDUCED, log entry 82) -/
def State.victims (s : State) (o : Offer) (die : Nat) (sites : List Nat) : List (Nat × Nat) :=
  let ok (g : (Nat × Nat) × Wg) : Bool :=
    g.2.die == die && sites.contains g.2.site && g.2.st == .running && o.lev < s.effLevel g.1.1 &&
      !(s.launch o.lid).prod.contains g.1.1 && !s.stopping g.1.1 g.2.inst
  let key (g : (Nat × Nat) × Wg) : Nat × Nat × Nat :=
    (s.effLevel g.1.1, (((s.launch g.1.1).dline).map BitVec.toNat).getD (2 ^ 64), g.2.order)
  let le (a b : (Nat × Nat) × Wg) : Bool :=
    let x := key a
    let y := key b
    y.1 < x.1 || (x.1 == y.1 && (y.2.1 < x.2.1 || (x.2.1 == y.2.1 && y.2.2 ≤ x.2.2)))
  ((sortBy le (s.wgs.filter ok)).map fun g => (g.1.1, g.2.inst)).eraseDups

/-- The unit would fit on a site without the given units. -/
def State.takesWithout (s : State) (o : Offer) (die : Nat) (vs : List (Nat × Nat)) (site : Nat) : Bool :=
  let l := s.launch o.lid
  let rs := (s.residents die site).filter fun r => !vs.contains (r.1.1, r.2.inst)
  (s.core die site).prefetch.length < 2 && !s.heldFor o die site &&
    (l.kind != .grid || !(rs.any fun r => r.1.1 == o.lid)) && s.fitsBeside l rs (s.draining die site)

/-- The fewest victims, in their order, without which the unit fits. -/
def leastVictims (fits : List (Nat × Nat) → Bool) (vs : List (Nat × Nat)) : Option (List (Nat × Nat)) :=
  ((List.range vs.length).map fun k => vs.take (k + 1)).find? fits

/-- The places where the unit could go, each a core (as the lowest core of a cluster for a gang) with its victims. -/
def State.preemptPlaces (s : State) (o : Offer) (die : Nat) : List (Nat × List (Nat × Nat)) :=
  let l := s.launch o.lid
  let d := s.die die
  if l.gang ≠ 0 then
    (List.range 9).filterMap fun c =>
      let is := d.sites.filter fun i => i / 4 == c
      (leastVictims (fun vs => l.gang ≤ (is.filter (s.takesWithout o die vs)).length) (s.victims o die is)).map fun v =>
        (is.headD 0, v)
  else
    d.sites.filterMap fun i =>
      if l.kind == .grid && l.mode == 1 && s.staticCore o != some (die, i) then none
      else (leastVictims (fun vs => s.takesWithout o die vs i) (s.victims o die [i])).map fun v => (i, v)

/-- The unit triggers pre-emption: it fits on no die of its domain, a program's next update on the die that offers it. -/
def State.triggers (s : State) (die : Nat) (o : Offer) : Bool :=
  let l := s.launch o.lid
  let dies := if o.p.isSome then l.domain else [die]
  s.slackShort l && (s.chosenCore die o).isNone && (dies.all fun d => (s.spots o d).isNone) &&
    match (s.offers die).find? fun x => x.lev == o.lev && x.ctx == o.ctx with
    | some x => x.lid == o.lid && x.idx == o.idx
    | none => false

/-- What the save of units takes fits in the save area of their contexts (R335). -/
def State.saveFits (s : State) (vs : List (Nat × Nat)) : Bool :=
  ((vs.map fun v => (s.launch v.1).ctx).eraseDups).all fun c =>
    s.savedBytes c + (s.ctx c).journals + ((vs.filter fun v => (s.launch v.1).ctx == c).map s.unitSize).sum ≤
      (s.ctx c).svsize * 65536

/-- The engines that hold state of a unit: the pickers and the matrix engines of its cores (R347). -/
def State.unitEngines (s : State) (lid unit : Nat) : List EngineKind :=
  let sites := ((s.inst lid unit).members.filter (s.runs lid)).map fun m => (s.wg lid m).site
  sites.eraseDups.flatMap fun i => [.picker i, .matrix i]

/-- The stop of a unit is requested on its die. -/
def State.requestStop (s : State) (v : Nat × Nat) : State :=
  let die := (s.wg v.1 ((s.inst v.1 v.2).members.headD 0)).die
  s.updDie die fun d =>
    { d with stops := d.stops ++ [{ unit := some v, waiting := s.unitEngines v.1 v.2, cpyg := d.cpyg, encg := d.encg }] }

/-- The core on which the unit takes the first prefetch entry freed (R179). -/
def State.chooseCore (s : State) (o : Offer) (c : Nat × Nat) : State :=
  match o.p with
  | some p => s.updLaunch o.lid fun l =>
      { l with pending := l.pending.map fun q => if q.idx == p.idx then { q with core := some c } else q }
  | none => s.updProg o.lid fun p =>
      { p with dies := p.dies.map fun d => if d.die == c.1 then { d with core := some c.2 } else d }

/-- PREEMPT: the first unit in order that triggers pre-emption takes its victims at the place with the fewest of them, the
lowest core among equals; nothing is pre-empted where no place qualifies or the save would not fit. -/
def execPreempt (die : Nat) (s : State) : Out :=
  .next (if !(s.die die).online then s
    else match (s.offers die).find? (s.triggers die) with
      | none => s
      | some o =>
        match sortBy (fun (a b : Nat × List (Nat × Nat)) => a.2.length < b.2.length ||
            (a.2.length == b.2.length && a.1 ≤ b.1)) (s.preemptPlaces o die) with
        | [] => s
        | (i, vs) :: _ =>
          if !s.saveFits vs then s else (vs.foldl State.requestStop s).chooseCore o (die, i))

/-! ## ENGINE_STOP_ACK, R276, R346, R347, R359 -/

/-- The launch is stopped at a step boundary, and the stop is logged (R276). -/
def Launch.halt (l : Launch) : Launch :=
  if l.det != 2 || l.stopped then l
  else
    { l with
      stopped := true
      prelogUsed := l.prelogIn.length - (l.logAhead.drop 1).length
      prelog := (l.prelog ++ [BitVec.ofNat 64 (l.step - 1)]).take 8 }

/-- The units on a site that a stop request is about. -/
def State.stopUnits (s : State) (die : Nat) (r : StopReq) (site : Nat) : List (Nat × Nat) :=
  let mine (g : (Nat × Nat) × Wg) : Bool := match r.unit with
    | some u => u == (g.1.1, g.2.inst)
    | none => r.ctx == some (s.launch g.1.1).ctx
  ((s.wgs.filter fun g => g.2.die == die && g.2.site == site && g.2.st == .running && mine g).map fun g =>
    (g.1.1, g.2.inst)).eraseDups

/-- A thread is about to enter its trap handler: it completes the entry first (R332). -/
def State.entering (s : State) (t : TRef) : Bool :=
  let th := s.thr t
  !th.ended && th.trap.isSome && (th.level == 1 || (s.ctx (s.ctxOf t)).slots.length < (s.ctx (s.ctxOf t)).tslots)

/-- A launch in deterministic scheduling mode has been placed and has not ended. -/
def Launch.stepping (l : Launch) : Bool := l.det == 2 && l.tstart.isSome && !l.ended

/-- Every launch of a context in deterministic scheduling mode stands where a stop may be made, those with no unit on any core too
(R359). -/
def State.stepsDone (s : State) (ctx : Option Nat) : Bool :=
  s.launches.all fun l => some l.2.ctx != ctx || !l.2.stepping || (l.2.boundaryOk && s.atBoundary l.1)

/-- The pickers have stopped for the same unit or context, on every die: what its threads wait for must still come until then,
or a step boundary would never be reached (R276, R347, R359). -/
def State.pickersDone (s : State) (r : StopReq) : Bool :=
  (s.dies.toList.all fun d => d.stops.all fun x => x.unit != r.unit || x.ctx != r.ctx || x.waiting.all fun k => match k with
    | .picker _ => false
    | _ => true) && s.stepsDone r.ctx

/-- Every launch of a context in deterministic scheduling mode is stopped, and the stop logged where none was (R276, R359). -/
def State.haltAll (s : State) : Option Nat → State
  | none => s
  | some ctx => (s.launches.filter fun l => l.2.ctx == ctx && l.2.stepping).foldl (fun s l => s.updLaunch l.1 Launch.halt) s

/-- A transfer that waits for a loop stopped by a fault: it is saved waiting. -/
def State.behindFault (s : State) (x : Nat × Nat × TileOp) : Bool :=
  let g := s.wg x.1 x.2.1
  s.slotBlocked x.1 x.2.1 x.2.2.slot x.2.2.load x.2.2.stamp && (s.core g.die g.site).loops.any fun l =>
    l.ls.flt && l.lid == x.1 && l.wg == x.2.1 && l.stamp < x.2.2.stamp &&
      (l.slotC == x.2.2.slot || (x.2.2.load && [l.slotA, l.slotB, l.slotM].contains (some x.2.2.slot)))

/-- No transfer of some units on the slots of a core waits for a running loop: it must finish first (R227). -/
def State.tilesFree (s : State) (us : List (Nat × Nat)) : Bool :=
  s.tileOps.all fun x => !us.contains (x.1, (s.wg x.1 x.2.1).inst) || s.behindFault x ||
    !s.slotBlocked x.1 x.2.1 x.2.2.slot x.2.2.load x.2.2.stamp

/-- An engine stands at its stopping unit (R346). (DEDUCED, log entry 83) -/
def State.atStop (s : State) (die : Nat) (r : StopReq) (k : EngineKind) : Bool :=
  match k with
  | .picker site => (s.stopUnits die r site).all fun u =>
      (s.launch u.1).boundaryOk && s.atBoundary u.1 && (s.inst u.1 u.2).members.all fun m => (s.wgLive u.1 m).all fun t => !s.entering t
  | .matrix site => s.pickersDone r && s.tilesFree (s.stopUnits die r site)
  | .copy eng => s.pickersDone r && (vget (s.die die).copyQ [] eng).all fun c =>
      some c.ctx != r.ctx || !c.started || c.finished || c.done % 2 ^ (12 + r.cpyg) == 0
  | .encode eng => s.pickersDone r && (!r.encg || (s.encList die eng).all fun c =>
      some c.ctx != r.ctx || !c.started || c.coded)
  | _ => s.pickersDone r

/-- ENGINE_STOP_ACK: the engine acknowledges the first request that waits for it. -/
def execEngineStopAck (die : Nat) (k : EngineKind) (s : State) : Out :=
  .next (match (s.die die).stops.zipIdx.find? fun r => r.1.waiting.contains k && s.atStop die r.1 k with
    | none => s
    | some (r, i) =>
      let s := s.updDie die fun d => { d with stops := lupd d.stops i fun r => { r with waiting := r.waiting.filter (· ≠ k) } }
      match k with
      | .picker site =>
        ((s.stopUnits die r site).map Prod.fst).eraseDups.foldl (fun s lid => s.updLaunch lid Launch.halt) s
      | .matrix site =>
        let us := s.stopUnits die r site
        ((s.core die site).loops.filter fun l => us.contains (l.lid, l.inst)).foldl (fun s l =>
          s.count die (some site) 0x202 (some (s.launch l.lid).ctx) (some l.lid) (some l.wg) none 1) (s.haltAll r.ctx)
      | _ => s.haltAll r.ctx)

/-! ## The save, R170, R227, R348 -/

/-- Nothing of a unit is outstanding: results, loads, and transfers on its slots and scratch, but for those behind a loop that a
fault has stopped. -/
def State.quietUnit (s : State) (lid unit : Nat) : Bool :=
  let mine (t : TRef) : Bool := t.lid == lid && (s.inst lid unit).members.contains t.wg
  (s.loads.all fun l => !mine l.thread) && (s.results.all fun r => !mine r.thread) &&
    (s.moves.all fun m => !mine m.thread) && s.tileOps.all fun x =>
      !(x.1 == lid && (s.inst lid unit).members.contains x.2.1) || s.behindFault x

/-- A pending entry of a unit that has been placed before. -/
def State.backInBank (s : State) (lid unit : Nat) : State :=
  let g := s.wg lid ((s.inst lid unit).members.headD 0)
  s.updLaunch lid fun l =>
    { l with pending := l.pending ++ [{ idx := unit, entry := g.entry, depth := g.depth, v0 := g.arg0, v1 := g.arg1,
                                        preempted := true }] }

/-- The held handler entries of a thread are written to their records (R118), as the latest stores of its own stack: staged behind
those that it has staged before, and neither journalled nor folded, so that a save changes no digest. (DESIGN CHOICE, log entry 127) -/
def State.writeHeld (s : State) (t : TRef) : State :=
  (s.thr t).held.foldl (fun s e => match s.trRange (s.ctxOf t) true e.hsp.toNat 32 with
    | .ok ls =>
      let s := s.tick
      let es := (s.entriesOf t (e.hsp.setWidth 64) ls e.bytes).map fun x => { x with quiet := true }
      s.updWg t.lid t.wg fun g => { g with staging := g.staging ++ es }
    | .error _ => s) s

/-- What a context's save area holds, each with its size: its pre-empted workgroups, each with its core memory and then its state
and its staging, then its buffers while it is switched out.
(DESIGN CHOICE, log entry 127) -/
def State.saved (s : State) (ctx : Nat) : List (List Host.Cell × Nat) :=
  ((s.wgs.filter fun g => g.2.st == .preempted && (s.launch g.1.1).ctx == ctx).map fun g =>
    let l := s.launch g.1.1
    (g.2.image l.scratch l.hdr.tiles ++
      ((s.stateBytes g.1.1 g.1.2 l.waves l.hdr.width).zipIdx.map fun b => (l.coreMem + b.2, b.1)), s.savedSize g.1.1 g.1.2)) ++
    (s.ctx ctx).savedBufs.map fun b => (b.2.2.bytes, b.2.2.size)

/-- The firmware lays what a context has saved out in its save area from the bottom upward (R335). -/
def State.writeSaves (s : State) (ctx : Nat) : State :=
  ((s.saved ctx).foldl (fun (x : Nat × State) y =>
    (x.1 + y.2, y.1.foldl (fun s b => s.fwWriteVa .system ctx (x.1 + b.1) [b.2]) x.2)) ((s.ctx ctx).saveBase.toNat, s)).2

/-- One workgroup is saved: its loops are parked, and it holds nothing of its core. It keeps the core's rotation point
(R276). -/
def State.saveWg (s : State) (lid wg : Nat) : State :=
  let g := s.wg lid wg
  if g.st == .ended then s
  else
    let mine (l : Loop) : Bool := l.lid == lid && l.wg == wg
    let ctx := (s.launch lid).ctx
    let s := (s.wgThreads lid wg).foldl State.writeHeld s
    let s := { s with parked := s.parked ++ (s.core g.die g.site).loops.filter mine }
    let s := s.updCore g.die g.site fun k =>
      { k with
        loops := k.loops.filter fun l => !mine l
        prefetch := k.prefetch.erase (lid, wg)
        left := tset k.left ctx (((tget k.left ctx).getD [] ++ g.leaves).eraseDups) }
    let s := s.updWg lid wg fun g => { g with st := .preempted, rotAt := tget (s.launch lid).rot (g.die, g.site) }
    if s.wgs.any fun x => x.1.1 == lid && x.2.die == g.die && x.2.site == g.site && x.2.st == .running then s
    else s.updLaunch lid fun l => { l with rot := terase l.rot (g.die, g.site) }

/-- A whole unit is saved, and is pending again. -/
def State.saveUnit (s : State) (lid unit : Nat) : State :=
  let s := (s.inst lid unit).members.foldl (fun s m => s.saveWg lid m) s
  (s.backInBank lid unit).writeSaves (s.launch lid).ctx

/-- The request to stop a unit, every engine having acknowledged it. -/
def State.stopDone (s : State) (lid unit : Nat) : Option Nat :=
  (List.range 24).find? fun d => (s.die d).stops.any fun r => r.unit == some (lid, unit) && r.waiting.isEmpty

/-- A unit of the launch stands pre-empted, or a stop of one is under way. -/
def State.stillStopped (s : State) (lid : Nat) : Bool :=
  (s.launch lid).pending.any (fun p => p.preempted) ||
    s.dies.toList.any fun d => d.stops.any fun r => (r.unit.map Prod.fst) == some lid || r.ctx == some (s.launch lid).ctx

/-- A launch in deterministic scheduling mode goes on with its next step once nothing of it stands stopped. -/
def State.goOn (s : State) (lid : Nat) : State :=
  if s.stillStopped lid then s else s.updLaunch lid fun l => { l with stopped := false }

/-- No unit waits any more for a core that was chosen for it beside a unit (R335). -/
def State.unchoose (s : State) (lid unit : Nat) : State :=
  let cs := ((s.inst lid unit).members.map fun m => ((s.wg lid m).die, (s.wg lid m).site)).eraseDups
  let there (l : Launch) (c : Nat × Nat) : Bool := cs.any fun x => x.1 == c.1 && if l.gang = 0 then x.2 == c.2 else x.2 / 4 == c.2 / 4
  { s with launches := s.launches.map fun l => (l.1, { l.2 with
      pending := l.2.pending.map (fun p => { p with core := p.core.filter fun c => !there l.2 c })
      prog := l.2.prog.map fun p => { p with dies := p.dies.map fun d =>
        { d with core := d.core.filter fun i => !there l.2 (d.die, i) } } }) }

/-- PREEMPT_SAVE. A unit that has ended in the meantime leaves nothing to save. One whose save has come not to fit goes on, and the unit
that was to have its core stays pending (R335). -/
def execPreemptSave (lid inst : Nat) (s : State) : Out :=
  .next (match s.stopDone lid inst with
    | none => s
    | some die =>
      if !s.quietUnit lid inst then s
      else
        let s := s.updDie die fun d => { d with stops := d.stops.filter fun r => r.unit != some (lid, inst) }
        if (s.inst lid inst).ended then s.goOn lid
        else if !s.saveFits [(lid, inst)] then (s.unchoose lid inst).goOn lid
        else (s.saveUnit lid inst).count die none 0x401 (some (s.launch lid).ctx) (some lid) none none 1)

/-! ## UNIT_RESTORE -/

/-- The versions that are current on a die, for a workgroup that comes to it. -/
def State.selOn (s : State) (lid die : Nat) : Tab Nat Bool :=
  ((s.die die).pubs.filter fun p => p.2.ctx == (s.launch lid).ctx).map fun p => (p.1, p.2.cur)

/-- A SHARED buffer of a holder that now stands in another cluster admits that cluster, and none where the holder stands on
another die (R214). -/
def Buffer.follow (b : Buffer) (lid wg clu : Nat) : Buffer :=
  if b.st == .shared && b.hold == .wg lid wg && b.lvl != .cluster then { b with shClu := clu } else b

/-- One member resumes on a core: its loops go on there; one that had never started takes its prefetch entry again.
(DEDUCED, log entry 85) -/
def State.restoreWg (s : State) (lid wg die site : Nat) : State :=
  let g := s.wg lid wg
  if g.st ≠ .preempted then s
  else
    let mine (l : Loop) : Bool := l.lid == lid && l.wg == wg
    let ls := s.parked.filter mine
    let started := !(s.wgThreads lid wg).isEmpty
    let sel := if g.die = die then g.sel else s.selOn lid die
    let s := { s with parked := s.parked.filter fun l => !mine l }
    let s := s.updCore die site fun k =>
      { ls.foldl (fun (k : Core) l => { k with loops := k.loops ++ [k.resume l] }) k with
        prefetch := if started then k.prefetch else k.prefetch ++ [(lid, wg)] }
    let s := if g.die = die then s
      else s.updDie g.die fun d => { d with bufs := d.bufs.map fun b => (b.1, b.2.follow lid wg 9) }
    let s := s.updDie die fun d => { d with bufs := d.bufs.map fun b => (b.1, b.2.follow lid wg (site / 4)) }
    let s := s.updLaunch lid fun l => match g.rotAt, tget l.rot (die, site) with
      | some r, none => { l with rot := tset l.rot (die, site) r }
      | _, _ => l
    let names := s.namesFor lid g.inst die site
    (if started then s.joinStops (s.launch lid).ctx die site else s).updWg lid wg fun g =>
      { g with
        die := die
        site := site
        lcore := names.1
        ldie := names.2
        rotAt := none
        coreBufs := g.coreBufs.map fun b => (b.1, b.2.follow lid wg (site / 4))
        order := s.placements
        sel := sel
        st := if started then .running else .prefetched }

/-- UNIT_RESTORE: a pre-empted unit whose turn it is in the order of some die, and that fits, resumes there (R179). -/
def execUnitRestore (lid inst : Nat) (s : State) : Out :=
  .next (
    let here (d : Nat) : Option (Nat × Offer × List Nat) := match s.nextUnit d with
      | some (o, sites) => if o.lid == lid && o.idx == inst && (o.p.any fun p => p.preempted) then some (d, o, sites) else none
      | none => none
    match (List.range 24).findSome? here with
    | none => s
    | some (die, o, sites) =>
      let s := s.updLaunch lid fun l => { l with pending := l.pending.filter fun p => p.idx != inst }
      let s := ((s.inst lid inst).members.zip sites).foldl (fun s m => s.restoreWg lid m.1 die m.2) s
      (s.placedAt die o).goOn lid)

/-! ## CONTEXT_SWITCH_OUT and CONTEXT_SWITCH_IN, R219, R335, R347, R348 -/

/-- The engines of a die that a switch-out stops. (DEDUCED, log entry 86) -/
def State.ctxEngines (s : State) (die ctx : Nat) : List EngineKind :=
  let sites := ((s.wgs.filter fun g => g.2.die == die && g.2.st == .running && (s.launch g.1.1).ctx == ctx).map fun g =>
    g.2.site).eraseDups
  (sites.flatMap fun i => [.picker i, .matrix i]) ++ ((List.range 8).map .copy) ++ ((List.range 2).map .encode) ++
    [.walker, .queueUnit]

/-- The units of a context that hold a place. -/
def State.ctxUnits (s : State) (ctx : Nat) : List (Nat × Nat) :=
  ((s.wgs.filter fun g => (g.2.st == .running || g.2.st == .prefetched) && (s.launch g.1.1).ctx == ctx).map fun g =>
    (g.1.1, g.2.inst)).eraseDups

/-- The cluster and die buffers of a context, pinned ones included. -/
def State.ctxBufs (s : State) (ctx : Nat) : List (Nat × Nat × Buffer) :=
  (List.range 24).flatMap fun d =>
    ((s.die d).bufs.filter fun b => b.2.ctx == ctx && b.2.lvl != .core).map fun b => (d, b.1, b.2)

/-- A request to stop a context stands on some die. -/
def State.ctxStopping (s : State) (ctx : Nat) : Bool := s.dies.toList.any fun d => d.stops.any fun r => r.ctx == some ctx

/-- Every engine of every die has acknowledged the stop of a context, and nothing of it is outstanding. -/
def State.ctxQuiet (s : State) (ctx : Nat) : Bool :=
  (s.dies.toList.all fun d => d.stops.all fun r => r.ctx != some ctx || r.waiting.isEmpty) &&
    (s.ctxUnits ctx).all fun u => s.quietUnit u.1 u.2

/-- The 64 KiB pages of HBM, numbered from die 0 on: the page number of the n-th. -/
def hbmPage (n : Nat) : Nat := n / 786432 * 2 ^ 20 + n % 786432

/-- What the tables of all contexts map or name, as first page and how many: tables, pages and blocks (R349). -/
def State.tablePages (s : State) : List (Nat × Nat) :=
  (s.contexts.map fun c => (c.2.tableBase.toNat / 65536, 1)) ++ s.allEntries.filterMap fun x =>
    let e := s.tableEntry x.2
    if e % 2 == 0 || (e / 16 % 2 == 1 && (x.1 == 3 || e / 2 % 2 == 0)) then none
    else some (entryPa e / 65536, if x.1 == 2 && e / 2 % 2 == 0 then 4096 else 1)

/-- A page of HBM that no one uses: memory lists nothing of it, no tables map it or lie in it, no context's register space and no entry
of the HDM map is there. -/
def State.pageFree (s : State) (page : Nat) : Bool :=
  (s.mem.all fun b => b.1 / 65536 != page) && (s.tablePages.all fun x => page < x.1 || x.1 + x.2 ≤ page) &&
    (s.contexts.all fun c => c.2.regBase.toNat / 65536 != page) && !s.hostManaged (65536 * page) &&
    (s.hdmBase / 65536 != page || s.hdmCnt == 0)

/-- The first page from the n-th on that passes a test, of at most k, round the end of HBM. -/
def pageFrom (ok : Nat → Bool) : Nat → Nat → Option Nat
  | 0, _ => none
  | k + 1, n => if ok (hbmPage (n % 18874368)) then some (hbmPage (n % 18874368)) else pageFrom ok k (n + 1)

/-- The context's register space lies elsewhere: the firmware changes its base (R221, R348 step 6), to 64 KiB of HBM that no one uses,
the first from a free choice on. (DESIGN CHOICE, log entry 127) -/
def State.rebase (s : State) (ctx : Nat) : State :=
  (match pageFrom s.pageFree 18874368 (Config.pick s.freeCtr) with
  | some page => s.updCtx ctx fun c => { c with regBase := BitVec.ofNat 64 (65536 * page) }
  | none => s).draw

/-- The switch-out's save: units, buffers, pinned regions, and the register space. -/
def State.saveCtx (s : State) (ctx : Nat) : State :=
  let bufs := s.ctxBufs ctx
  let s := (s.ctxUnits ctx).foldl (fun s u => s.saveUnit u.1 u.2) s
  let s := (List.range 24).foldl (fun s d => s.updDie d fun x =>
    { x with
      bufs := x.bufs.filter fun b => !(b.2.ctx == ctx && b.2.lvl != .core)
      pins := x.pins.map fun p => if p.ctx = ctx then { p with saved := true } else p }) s
  ((s.updCtx ctx fun c => { c with out := true, savedBufs := bufs }).writeSaves ctx).rebase ctx

def State.dropStops (s : State) (ctx : Nat) : State :=
  let s := (List.range 24).foldl (fun s d => s.updDie d fun x =>
    { x with stops := x.stops.filter fun r => r.ctx != some ctx }) s
  ((s.launches.filter fun l => l.2.ctx == ctx).map Prod.fst).foldl State.goOn s

/-- CONTEXT_SWITCH_OUT: first the stop is requested on every die; once every engine has acknowledged it, the context is saved.
A save that would not fit is not made, and the context stays resident. -/
def execContextSwitchOut (ctx : Nat) (s : State) : Out :=
  .next (
    if (tget s.contexts ctx).isNone || (s.ctx ctx).out then s
    else if !s.ctxStopping ctx then
      s.onlineDies.foldl (fun s d => s.updDie d fun x =>
        { x with stops := x.stops ++ [{ ctx := some ctx, waiting := s.ctxEngines d ctx, cpyg := x.cpyg, encg := x.encg }] }) s
    else if !s.ctxQuiet ctx then s
    else
      let need := ((s.ctxUnits ctx).map s.unitSize).sum +
        ((s.ctxBufs ctx).map fun b => b.2.2.size).sum
      let fits := s.savedBytes ctx + (s.ctx ctx).journals + need ≤ (s.ctx ctx).svsize * 65536
      if fits then (s.saveCtx ctx).dropStops ctx else s.dropStops ctx)

/-- A saved buffer comes back where it fits; `none` where there is no room. -/
def State.bufBack (s : State) (x : Nat × Nat × Buffer) : Option State :=
  (s.bufBase x.1 x.2.2.lvl x.2.2.clu x.2.2.size 0).map fun base =>
    s.updDie x.1 fun d => { d with bufs := tset d.bufs x.2.1 { x.2.2 with base := base } }

/-- CONTEXT_SWITCH_IN: the buffers and the pinned regions come back under their ids; the context's units resume after it. -/
def execContextSwitchIn (ctx : Nat) (s : State) : Out :=
  .next (
    if !(s.ctx ctx).out then s
    else match (s.ctx ctx).savedBufs.foldlM State.bufBack s with
      | none => s
      | some s =>
        let s := (List.range 24).foldl (fun s d => s.updDie d fun x =>
          { x with pins := x.pins.map fun p => if p.ctx = ctx then { p with saved := false } else p }) s
        (s.rebase ctx).updCtx ctx fun c => { c with out := false, savedBufs := [] })

end Sys2Proof.Machine
end

