-- ==== Sys2Proof/Machine/Standing.lean ====
section
/-! DEFINITION. Events of standing programs (R194, R196 to R199, R270, R383): CONTRIBUTION, ISEQ_ADVANCE,
CONVERGENCE_RECORD. -/

namespace Sys2Proof.Machine

/-- The program takes contributions: it exists and has not stopped. -/
def State.progLive (s : State) (lid : Nat) : Option Prog :=
  match tget s.launches lid with
  | some l => if l.ended then none else l.prog.bind fun p => if p.state = 2 then none else some p
  | none => none

/-- A contribution in transit may be applied now: its die's queue unit acts for the context; under deterministic operation
nothing of the program is in flight, and none that reached the die before it waits (R270). (DEDUCED, log entry 88) -/
def State.contribMay (s : State) (i : Nat) (c : Contrib) (p : Prog) : Bool :=
  !s.ctxBlocked (p.dieOf c.brick) (s.launch c.prog).ctx .queueUnit &&
    ((s.launch c.prog).det == 0 ||
      (!s.inFlight c.prog && (s.contribs.take i).all fun x => x.prog != c.prog))

/-- CONTRIBUTION: the i-th contribution in transit takes effect at its brick; one to a program that has stopped is dropped. -/
def execContribution (i : Nat) (s : State) : Out :=
  .next (match s.contribs[i]? with
    | none => s
    | some c =>
      let gone := { s with contribs := s.contribs.eraseIdx i }
      match s.progLive c.prog with
      | none => gone
      | some p => if s.contribMay i c p then (gone.applyContrib c).findQuiet c.prog else s)

/-- ISEQ_ADVANCE: every contribution of the oldest input has been applied, and its sequence becomes ISEQ on every die. -/
def execIseqAdvance (lid : Nat) (s : State) : Out :=
  .next (match s.progLive lid with
    | none => s
    | some p =>
      match p.inputs with
      | [] => s
      | x :: xs =>
        if (s.ctx (s.launch lid).ctx).out || s.contribs.any fun c => c.prog == lid && c.inp == some x.seq then s
        else
          let s := s.updProg lid fun p =>
            { p with inputs := xs, dies := p.dies.map fun d => { d with iseq := x.seq } }
          s.finishPacket (x.q.map fun q => (q, x.pkt)))

/-- A record is written and released at system scope, and its node is signalled. -/
def State.writeConv (s : State) (lid : Nat) (p : Prog) (rec_ : List Byte) : State :=
  let ctx := (s.launch lid).ctx
  let s := s.fwWriteVa .system ctx p.convRec.toNat rec_
  match p.convNode with
  | some n => s.signalNode (((p.dies.head?).map ProgDie.die).getD 0) ctx n false
  | none => s

/-- The program is stopped: its slot and its mortar buffers are given up, inputs not yet absorbed are too, and the
STANDING_STOP has finished (R205, R383, R385). -/
def State.stopProg (s : State) (lid : Nat) (p : Prog) : State :=
  let s := p.dies.foldl (fun s d => s.updDie d.die fun x => { x with bufs := terase x.bufs d.mortarBuf }) s
  let s := p.inputs.foldl (fun s x => s.finishPacket (x.q.map fun q => (q, x.pkt))) s
  let s := s.updProg lid fun p => { p with state := 2, inputs := [] }
  s.finishPacket p.stopPkt

/-- CONVERGENCE_RECORD: the oldest record of a change to quiescence is written; and, once the updates in flight of a stopping
program have ended, its last. A serial run writes none (log entry 89). (DEDUCED, log entry 87) -/
def execConvergenceRecord (lid : Nat) (s : State) : Out :=
  .next (match s.progLive lid with
    | none => s
    | some p =>
      if (s.launch lid).serialRun || s.ctxBlocked (((p.dies.head?).map ProgDie.die).getD 0) (s.launch lid).ctx .queueUnit then s
      else match p.due with
        | b :: bs => (s.writeConv lid p b).updProg lid fun p => { p with due := bs }
        | [] =>
          if p.state = 1 && !s.inFlight lid then
            ((s.writeConv lid p (s.convBytes lid p true)).updProg lid fun p => { p with rseq := p.rseq + 1 }).stopProg lid p
          else s)

end Sys2Proof.Machine
end

