-- ==== Sys2Proof/Machine/Final.lean ====
section
/-! DEFINITION. The end of a launch (R171, R213, R257, R272, R273, R280, R292, R369, R370, R385): LAUNCH_END. -/

namespace Sys2Proof.Machine

/-! ## The record, R369, R370 -/

/-- Status codes of R369. -/
def statusNum : Status → Nat
  | .ok => 0x00 | .unknownMandatory => 0x01 | .badPacket => 0x02 | .badObject => 0x03 | .missingFeature => 0x04
  | .badShape => 0x05 | .tooLarge => 0x06 | .taskLimit => 0x07 | .badSession => 0x08 | .busy => 0x09
  | .staleInput => 0x0A | .badBrick => 0x0B | .journalFull => 0x0C | .digestMismatch => 0x0D | .fault => 0x0E
  | .doubleFault => 0x0F | .notAdmin => 0x10 | .noContext => 0x11 | .badPacketTarget => 0x12

def flag (b : Bool) (k : Nat) : Nat := if b then 2 ^ k else 0

/-- The 512 bytes of the launch record. -/
def State.launchBytes (s : State) (lid : Nat) (l : Launch) : List Byte :=
  let pre := l.prelog.take 8
  natToBytes 4 (statusNum l.status) ++ natToBytes 4 (flag l.dlmiss 0 + flag l.serial 1 + l.mode * 2 ^ 2) ++ natToBytes 8 lid ++
    natToBytes 8 ((l.tstart.getD 0).toNat) ++ natToBytes 8 s.now.toNat ++ natToBytes 4 l.killed ++ natToBytes 4 l.skips ++
    natToBytes 4 l.loglost ++ natToBytes 1 l.engcode ++ natToBytes 3 l.engerr ++
    natToBytes 8 l.digest.toNat ++ natToBytes 8 ((l.digestIn.getD 0).toNat) ++
    natToBytes 8 l.pathsum.toNat ++ natToBytes 4 l.raceovf ++ natToBytes 4 pre.length ++
    (pre ++ List.replicate (8 - pre.length) 0).flatMap (fun (n : DWord) => natToBytes 8 n.toNat) ++
    (if l.status = .doubleFault then l.frec1.getD (List.replicate 64 0) else List.replicate 64 0) ++ natToBytes 8 l.sdigest.toNat ++
    natToBytes 40 0 ++ l.frec.getD (List.replicate 256 0)

/-! ## The launch digest, R272 -/

def launchDigest (l : Launch) : DWord :=
  (sortBy (fun (a b : Nat × DWord) => a.1 ≤ b.1) l.digests).foldl (fun c x =>
    crc64 c (natToBytes 4 x.1 ++ natToBytes 8 x.2.toNat)) 0

/-! ## The serial run, R273 -/

/-- The bricks of a standing program as they stood at its start (R190). -/
def Prog.fresh (p : Prog) : Prog :=
  { p with
    state := 1
    dies := p.dies.map fun d =>
      { d with stamp := 0, pops := 0, bricks := d.bricks.map fun b => { b with res := p.keyMax, lastRes := 0, dRes := 0, stamp := 0,
                                                                               st := 1 } } }

/-- The launch begins once more: its units are pending anew, one at a time; a standing program makes as many updates as in its
first run, from its first bricks. (DEDUCED, log entry 89) -/
def State.rerun (s : State) (lid : Nat) : State :=
  let s := s.outliveAll lid fun _ => true
  let s := match s.prog lid with
    | none => s
    | some p => match State.takeMortars (s.launch lid).ctx lid p.dies s with
      | some (ds, s) => s.updProg lid fun p => { p with dies := ds }
      | none => s
  let s := s.updLaunch lid fun l =>
    { l with
      status := .digestMismatch, digest := launchDigest l, journalOn := false, serialRun := true, pending := l.units
      count := if l.kind == .standing then l.nextTask else l.count
      nextTask := if l.kind == .standing then 0 else l.count
      prog := l.prog.map Prog.fresh
      tileNext := 0, tileOf := [], digests := [], pathsum := 0, turn := 0, rot := [], inStep := [] }
  { s with
    insts := s.insts.filter fun x => x.1.1 != lid
    wgs := s.wgs.filter fun x => x.1.1 != lid
    waves := s.waves.filter fun x => x.1.1 != lid
    threads := s.threads.filter fun x => x.1.lid != lid }

/-! ## When a launch ends -/

/-- A BUILT or ARMED TASK node of the context names the launch (R292). -/
def State.taskNamed (s : State) (lid : Nat) : Bool :=
  s.dies.toList.any fun d => d.nodes.any fun n =>
    n.1.1 == (s.launch lid).ctx && (n.2.st == .built || n.2.st == .armed) && descKind n.2.desc == 2 &&
      (descAddr n.2.desc).toNat == lid

/-- Every unit has ended and released; under deterministic operation every turn has closed, and nothing is held. -/
def State.unitsDone (s : State) (lid : Nat) (l : Launch) : Bool :=
  l.pending.isEmpty && (s.insts.all fun x => x.1.1 != lid || (x.2.ended && x.2.released)) &&
    (s.wgs.all fun g => g.1.1 != lid || g.2.staging.isEmpty) &&
    (l.det == 0 || l.kind == .standing || s.insts.all fun x => x.1.1 != lid || x.1.2 < l.turn)

/-- A launch whose units are placed no more: it has been dispatchable, or has failed. -/
def Launch.begun (l : Launch) : Bool := l.dispatchable || l.status != .ok

/-- The launch comes to its end now. -/
def State.endDue (s : State) (lid : Nat) (l : Launch) : Bool :=
  !(s.ctx l.ctx).out && l.begun && s.unitsDone lid l && (s.insts.all fun x => x.1.1 != lid || !x.2.mayRestart l) &&
    (match l.kind with
    | .grid => true
    | .task => !s.taskNamed lid
    | .standing => (l.prog.map Prog.state) == some 2 || (l.serialRun && (l.count ≤ l.nextTask ||
        l.prog.all fun p => p.dies.all fun d => (p.eligible d.die).isEmpty)))

/-! ## What the end gives up, R213, R257 -/

/-- The end release of the launch at system scope: it carries every write of its workgroups, and what was guaranteed to
them. (DEDUCED, log entry 89) -/
def State.endRelease (s : State) (lid : Nat) : State :=
  let s := s.tick
  let p : Pub := { by_ := { ag := .firmware }, scope := .system, stamp := s.stamp }
  let acqs := (s.wgs.filter fun g => g.1.1 == lid).map fun g => g.2.acq
  let mine (w : WriteRec) : Bool := match w.by_.ag with
    | .wg l _ => l == lid
    | _ => false
  { s with order := s.order.map fun (w : WriteRec) =>
      if mine w || acqs.any (guaranteed w) then { w with pubs := w.pubs ++ [p] } else w }.tick

/-- A pinned buffer is in the use of another running launch that maps its session, or of a copy engine whose command has taken it, or
names it: it comes back at the command's completion (R213, R300, R382). (DEDUCED, log entry 89) -/
def State.keptFor (s : State) (lid : Nat) (l : Launch) (d id : Nat) (b : Buffer) : Bool :=
  let other (o : Nat) : Bool := o != lid && match tget s.launches o with
    | some x => !x.ended && x.ctx == l.ctx && x.session == l.session
    | none => false
  let names (h : Holder) : Bool := match h with
    | .wg o _ => other o
    | .copy e => b.st == .held || s.copyNames d e id
    | _ => false
  other b.shLid || names b.hold || names b.target

/-- Pinned buffers that the launch mapped go to FREE. -/
def State.freePinned (s : State) (lid : Nat) (l : Launch) (d : Nat) : State :=
  if l.session.isNone then s
  else ((s.die d).bufs.filter fun b => b.2.ctx == l.ctx && b.2.session == l.session && b.2.st != .free &&
    !s.keptFor lid l d b.1 b.2).foldl (fun s b => (s.drainReads d b.1).freeBuf d b.1) s

/-- Buffers of the launch's own list go back to the driver; pinned ones that it mapped go to FREE; its loops and its claims
on cores end; its stack regions are mapped no longer. -/
def State.giveUp (s : State) (lid : Nat) (l : Launch) : State :=
  let s := { s with tileOps := s.tileOps.filter fun x => x.1 != lid, parked := s.parked.filter fun y => y.lid != lid }
  let s := (List.range 24).foldl (fun s d => (s.freePinned lid l d).updDie d fun x =>
    { x with
      bufs := x.bufs.filter fun b => b.2.lid != some lid
      cores := x.cores.map fun k =>
        { k with
          loops := k.loops.filter fun y => y.lid != lid
          only := if k.only.map Prod.fst == some lid then none else k.only } }) s
  s.unmapStacks lid

/-- The room of a journal that has ended is free (R335). -/
def State.fitJournals (s : State) (ctx : Nat) : State :=
  s.updCtx ctx fun c => { c with journals := s.journalReach ctx }

/-- The record is written, as a release at system scope, and the packet has finished. -/
def State.writeLaunch (s : State) (lid : Nat) : State :=
  let l := s.launch lid
  let s := match l.record with
    | some va => s.fwWriteVa .system l.ctx va.toNat (s.launchBytes lid l)
    | none => s
  let s := s.updLaunch lid fun l => { l with ended := true, recorded := true, prog := l.prog.map fun p => { p with state := 2 } }
  (if l.digestIn.isSome then s.fitJournals l.ctx else s).finishPacket
    (if l.kind == .standing && l.prog.isSome then none else l.queue)

/-- The digests of the end: the launch's own, or the serial run's. -/
def Launch.withDigest (l : Launch) : Launch :=
  if l.status == .journalFull then l
  else if l.serialRun then
    { l with sdigest := launchDigest l, serial := l.digestIn != some (launchDigest l) }
  else { l with digest := launchDigest l }

/-- The recorded digest differs from the first run's. -/
def Launch.mismatch (l : Launch) : Bool :=
  l.journalOn && l.digestIn.isSome && l.digestIn != some (launchDigest l)

/-- LAUNCH_END. A launch that ended at its acceptance only writes its record. Digests that differ bring the rollback and the
serial run (DIGEST_MISMATCH). Commands of a launch that ended by KILL that no engine has started end with status 10 (R301). -/
def execLaunchEnd (lid : Nat) (s : State) : Out :=
  .next (match tget s.launches lid with
    | none => s
    | some l =>
      if l.recorded then s
      else if l.ended then s.writeLaunch lid
      else if !s.endDue lid l then s
      else if l.mismatch then (((s.rollback lid).rerun lid).fitJournals l.ctx)
      else
        let s := if l.killed = 0 then s else s.abortLaunch lid
        let s := s.updLaunch lid Launch.withDigest
        ((s.endRelease lid).giveUp lid l).writeLaunch lid)

end Sys2Proof.Machine
end

