-- ==== Sys2Proof/Machine/TrapEvents.lean ====
section
/-! DEFINITION. Events of gangs, soft errors, walks and paging (R344, R351 to R353): GANG_RESTART, SOFT_ERROR, WALK_COMPLETE,
INVALIDATION_COMPLETE, PAGE_TICKET_COMPLETE. -/

namespace Sys2Proof.Machine

/-! ## R344 -/

/-- GANG_RESTART: a lost gang is pending once more, from ENTRY. -/
def execGangRestart (lid inst : Nat) (s : State) : Out :=
  .next (match tget s.launches lid, tget s.insts (lid, inst) with
    | some l, some x =>
      if l.ended || !x.mayRestart l then s
      else
        (s.updInst lid inst fun x => { x with restarted := true }).updLaunch lid fun l =>
          { l with pending := l.pending ++ [{ idx := inst, entry := l.hdr.entry }] }
    | _, _ => s)

/-- Detail words of UNCORRECTABLE. -/
def softFlt : SoftLoc → Flt
  | .register n => { code := .uncorrectable, d0 := w32 n, d2 := 1 }
  | .tile h => { code := .uncorrectable, d0 := w32 h, d2 := 2 }
  | .scratch p => { code := .uncorrectable, d0 := lo32 p, d1 := w32 (p.toNat / 2 ^ 32 % 2 ^ 18), d2 := 3 }
  | .hbm a => { code := .uncorrectable, d0 := lo32 a, d1 := hi32 a, d2 := 4 }

/-- The threads that consume the damaged data: the thread given; for a tile slot, the threads of the wave that holds the
handle (R227), and none for a handle that names no slot. (DESIGN CHOICE, log entry 92) -/
def State.softHit (s : State) (t : TRef) : SoftLoc → List TRef
  | .tile h =>
    let x := s.handle t.lid t.wg h
    if x.st = .dead then []
    else (s.waveThreads { t with wave := if x.st = .given then x.target else x.hold }).filter s.live
  | _ => if (tget s.threads t).isSome && s.live t then [t] else []

/-- A thread stops with a fault, whatever it waits for; `hit` are the threads of its group that the fault takes, which MASK
marks in slot order (R333). One that has stopped with a fault already keeps its record. -/
def State.stopThread (s : State) (f : Flt) (hit : List TRef) (t : TRef) : State :=
  if (s.thr t).trap.isSome then s
  else (s.abandonWait t).updThr t fun th => { th with trap := some (recOf th (maskOf hit hit) f), walkFault := none }

/-- A running loop of the thread's, whose next step meets the damaged data. -/
def State.softLoop (s : State) (t : TRef) : Option Loop := (s.loopsOf t).head?

/-- Which source of a loop the damaged data is: 0 A or the accumulator, 1 B, 2 metadata (R316). -/
def softSource (l : Loop) : SoftLoc → Nat
  | .tile h => if !l.x.bsk && l.x.hb.toNat = h then 1 else if l.x.mp && !l.x.msk && l.x.hm.toNat = h then 2 else 0
  | .scratch p =>
    let buf (i : Nat) : Nat := ptrBuf (join64 (l.ls.block.getD i 0) (l.ls.block.getD (i + 1) 0))
    if l.x.ask && buf 0 = ptrBuf p then 0 else if l.x.bsk && buf 2 = ptrBuf p then 1 else if l.x.msk then 2 else 0
  | _ => 0

/-- The step that meets damaged data stops its loop, and the fault is deferred (R316, R336). -/
def State.softStep (s : State) (l : Loop) (loc : SoftLoc) : State :=
  let g := s.wg l.lid l.wg
  (s.updCore g.die g.site fun k => { k with loops := k.loops.erase l }).stopLoop g.die g.site l (softSource l loc) (softFlt loc)

/-- The firmware will retire the HBM page that holds the damaged address (R344, R379). -/
def State.retireLater (s : State) (t : TRef) : SoftLoc → State
  | .hbm a =>
    let pa := match s.trCtx (s.ctxOf t) false a.toNat with
      | .ok loc => loc
      | .error _ => a.toNat
    { s with agenda := s.agenda ++ [(.hbmPageRetire, { s.ext with pa := pa / 65536 * 65536 })] }
  | _ => s

/-- GANG_LOST reaches a thread of another member. -/
def State.loseThread (s : State) (t : TRef) : State :=
  let th := s.thr t
  if th.ended || th.level ≠ 0 || th.trap.isSome then s
  else (s.abandonWait t).updThr t fun th => { th with async := some (gangLost th) }

/-- The other members of a gang lose it, unless a KILL of another cause is ending it already (R344, R358). -/
def State.loseGang (s : State) (t : TRef) : State :=
  let i := (s.wgOf t).inst
  let x := s.inst t.lid i
  if !x.gang || x.killer.isSome then s
  else
    let s := s.updInst t.lid i fun x => { x with softLost := true }
    ((x.members.filter (· ≠ t.wg)).flatMap fun m => s.wgLive t.lid m).foldl State.loseThread s

/-- SOFT_ERROR: `ext.thread` meets damaged data at `ext.loc`, or, with `ext.ok`, the next step of a loop of the thread's does. A gang
that a KILL of another cause is ending already is not lost to it (R358). -/
def execSoftError (s : State) : Out :=
  .next (
    let t := s.ext.thread
    let loc := s.ext.loc
    if s.ext.ok then
      match s.softLoop t with
      | none => s
      | some l => if !s.runs t.lid t.wg then s else ((s.retireLater t loc).softStep l loc).loseGang t
    else
      let hit := s.softHit t loc
      if hit.isEmpty || !s.runs t.lid t.wg then s
      else (hit.foldl (fun s u => s.stopThread (softFlt loc) hit u) (s.retireLater t loc)).loseGang t)

/-! ## Walks, R351 -/

/-- Translation entries kept: the newest 8,192 of the die, and the newest 512 of each core. (DESIGN CHOICE, log entry 90) -/
def tlbKeep (l : List TlbEnt) : List TlbEnt :=
  let die := (l.filter fun e => e.core.isNone).take 8192
  die ++ (List.range 36).flatMap fun i => (l.filter fun e => e.core == some i).take 512

/-- The cores of the accesses that joined a walk. -/
def State.walkCores (s : State) (w : Walk) : List Nat := (w.joined.map fun t => (s.wgOf t).site).eraseDups

/-- A walk's end reaches a thread that waits for walks: a fault of the walk is kept for its access, and the wait for this page is
over. -/
def State.walkReaches (s : State) (page : Nat) (fault : Option Nat) (t : TRef) : State :=
  match (s.thr t).wait with
  | .walk p => s.updThr t fun th =>
      { th with
        wait := if p = page then .none else th.wait
        walkFault := match fault with
          | some d => some (th.walkFault.getD (page, d))
          | none => th.walkFault }
  | _ => s

/-- A walk on a die ends: it fills the entries, or reports its fault to every access that joined; the groups that wait for it
issue again, each as it was. -/
def State.endWalk (s : State) (die i : Nat) (w : Walk) : State :=
  let r := s.walkTable w.ctx w.page
  let fills : List TlbEnt := match r with
    | .hit e => ({ e with core := none } : TlbEnt) :: (s.walkCores w).map fun c => { e with core := some c }
    | .fault _ => []
  let s := s.updDie die fun d =>
    { d with walks := d.walks.eraseIdx i, tlb := if fills.isEmpty then d.tlb else tlbKeep (fills ++ d.tlb) }
  let s : State := { s with inval := s.inval.map fun (x : Inval) => { x with walks := x.walks.filter fun y => y ≠ (die, w.ctx, w.page) } }
  let fault := match r with
    | .hit _ => none
    | .fault d => some d
  let s := w.joined.foldl (fun s t => s.walkReaches w.page fault t) s
  let s := (w.groups.flatMap Group.threads).foldl (fun s t => s.walkReaches w.page none t) s
  { s with issueQ := s.issueQ ++ w.groups }

/-- WALK_COMPLETE: the i-th walk, over the dies in order; the first 128 of a die are on its walkers, the others queue. -/
def execWalkComplete (i : Nat) (s : State) : Out :=
  .next (match signalPlace ((List.range 24).map fun d => (d, (s.die d).walks.length)) i with
    | none => s
    | some (die, k) =>
      match (s.die die).walks[k]? with
      | none => s
      | some w => if k < 128 then s.endWalk die k w else s)

/-! ## Invalidation, R352, and paging tickets, R353 -/

/-- The context's entries in a range leave every die, and the request waits for the walks that began before it. -/
def State.startInval (s : State) (ctx page count : Nat) (ticket : Option Nat) : State :=
  let hit (e : TlbEnt) : Bool := e.ctx == ctx && e.page < page + count && page < e.page + e.pages
  let s := (List.range 24).foldl (fun s d => s.updDie d fun x => { x with tlb := x.tlb.filter fun e => !hit e }) s
  let walks := (List.range 24).flatMap fun d => (s.die d).walks.map fun w => (d, w.ctx, w.page)
  { s with inval := s.inval ++ [{ ctx := ctx, page := page, count := count, walks := walks, ticket := ticket }] }

/-- A ticket completes, and the threads that wait on it in RETRY go on at RPC together. -/
def State.endTicket (s : State) (ctx id : Nat) (refused : Bool) : State :=
  let s := s.updCtx ctx fun c => { c with tickets := tupd c.tickets id fun k => { k with done := true, refused := refused } }
  ((tkeys s.threads).filter fun t => s.ctxOf t = ctx && (s.thr t).wait == .retry id).foldl (fun s t =>
    s.resumeAt t (s.thr t).record.rpc true) s

/-- INVALIDATION_COMPLETE: the i-th request has no earlier walk left. A driver's request counts in INVALDONE; the
firmware's completes its ticket with status 0. -/
def execInvalidationComplete (i : Nat) (s : State) : Out :=
  .next ((match s.inval[i]? with
    | none => s
    | some x =>
      if !x.walks.isEmpty then s
      else
        let s := { s with inval := s.inval.eraseIdx i }
        match x.ticket with
        | none => { s with invalDone := s.invalDone + 1 }
        | some k => s.endTicket x.ctx k false).settle)

/-- A table entry is written by the firmware. -/
def State.writeTable (s : State) (w : Nat × DWord) : State :=
  s.fwPlain .system (((List.range 8).map fun k => w.1 + k).zip (natToBytes 8 w.2.toNat))

/-- PAGE_TICKET_COMPLETE: the paging policy maps the page of an open ticket, and the invalidation begins; or it refuses. A
grant that does not map the page is none. -/
def execPageTicketComplete (s : State) : Out :=
  .next (
    let ctx := s.ext.ctx
    let id := s.ext.ticket
    match tget (s.ctx ctx).tickets id with
    | none => s
    | some k =>
      if k.done || s.inval.any fun x => x.ctx == ctx && x.ticket == some id then s
      else match s.ext.ws with
        | none => (s.endTicket ctx id true).settle
        | some ws =>
          let s' := ws.foldl State.writeTable s
          match s'.walkTable ctx k.page with
          | .hit _ => s'.startInval ctx k.page 1 (some id)
          | .fault _ => s)

end Sys2Proof.Machine
end

