-- ==== Sys2Proof/Machine/Packet.lean ====
section
/-! DEFINITION. Host queues and packets (R197, R200, R206, R218, R219, R262, R327, R335, R349, R363, R365 to R368, R371, R374,
R376 to R378, R383 to R385): the packet events, QUEUE_STOP, UNKNOWN_PACKET_TYPE, XMSS_TREE_ROLLOVER. -/

namespace Sys2Proof.Machine

/-! ## The host's view of memory, R374, R375 -/

/-- The granules of the HDM-DB range of 1,152 GiB (R374). -/
def hdmGranules : Nat := 18874368

/-- The location of a host address: through the HDM map in the HDM-DB range, where a granule without a valid entry has none,
else host memory. (DESIGN CHOICE, log entry 4) -/
def State.hostAddr (s : State) (a : Nat) : Option Nat :=
  if s.hdmWin ≤ a && a < s.hdmWin + hdmGranules * 65536 then
    (s.hdmPage ((a - s.hdmWin) / 65536)).map fun p => p + (a - s.hdmWin) % 65536
  else if a < hostBase then some (hostBase + a)
  else none

def State.hostLocs (s : State) (a n : Nat) : Option (List Nat) := (List.range n).mapM fun i => s.hostAddr (a + i)

/-- Bytes at a host address as they stand. (DESIGN CHOICE, log entry 97) -/
def State.hostRead (s : State) (a n : Nat) : Option (List Byte) := (s.hostLocs a n).map fun l => s.readNow 4096 l

/-- A write of the firmware to a host address: a release at system scope. -/
def State.hostWrite (s : State) (a : Nat) (b : List Byte) : State :=
  match s.hostLocs a b.length with
  | some l => s.fwPlain .system (l.zip b)
  | none => s

/-! ## Queues, R365 to R367 -/

/-- A queue descriptor. -/
structure QDesc where
  base : Nat
  log : Nat
  en : Bool
  admin : Bool
  ctx : Nat
  tail : Nat
  rdAddr : Nat
  cplBase : Nat
  cplLog : Nat
  deriving DecidableEq, Repr

def parseQDesc (b : List Byte) : QDesc :=
  let w := numAt b 8 4
  { base := numAt b 0 8, log := w % 2 ^ 5, en := w.testBit 5, admin := w.testBit 6, ctx := numAt b 12 4 % 2 ^ 12
    tail := numAt b 16 8, rdAddr := numAt b 24 8, cplBase := numAt b 32 8, cplLog := numAt b 40 1 % 2 ^ 4 }

def State.qdesc (s : State) (q : Nat) : Option QDesc := (s.hostRead (s.qtbase + 64 * q) 64).map parseQDesc

/-- DESIGN CHOICE, log entry 5. -/
def State.hqueue (s : State) (q : Nat) : HQueue := (tget s.hqueues q).getD {}

def State.setHq (s : State) (q : Nat) (f : HQueue → HQueue) : State :=
  { s with hqueues := tset s.hqueues q (f (s.hqueue q)) }

/-- Words of a ring from an absolute index. -/
def State.ringWords (s : State) (d : QDesc) (i n : Nat) : Option (List Word) :=
  (List.range n).mapM fun k =>
    (s.hostRead (d.base + 4 * ((i + k) % 2 ^ d.log)) 4).map fun b => BitVec.ofNat 32 (bytesToNat b)

/-- What stands at the read index of a queue. -/
inductive NextPkt where
  /-- nothing that can be taken up now -/
  | none
  /-- a packet of length 0 -/
  | stop
  | packet (ws : List Word)
  deriving DecidableEq, Repr

def State.nextPkt (s : State) (q : Nat) : NextPkt :=
  let h := s.hqueue q
  match s.qdesc q with
  | Option.none => .none
  | some d =>
    if !s.running || !d.en || h.err || h.tail ≤ h.rd then .none
    else match s.ringWords d h.rd 1 with
      | some [w] =>
        let n := w.toNat / 2 ^ 8 % 2 ^ 16
        if n = 0 then .stop
        else if h.tail < h.rd + n || (w.getLsbD 25 && !h.open_.isEmpty) then .none
        else match s.ringWords d h.rd n with
          | some ws => .packet ws
          | Option.none => .none
      | _ => .none

def pktType (ws : List Word) : Nat := (ws.headD 0).toNat % 2 ^ 8

/-- What a packet comes to: its status, the result and slot of its completion entry, whether it is still to finish, and the
state after it. -/
structure PktRes where
  st : Status := .ok
  result : Nat := 0
  slot : Nat := 0
  open_ : Bool := false
  s : State

def PktRes.fail (s : State) (st : Status) : PktRes := { st := st, s := s }

/-- The completion entry of R367. -/
def State.cplBytes (s : State) (idx : Nat) (ws : List Word) (r : PktRes) : List Byte :=
  natToBytes 8 idx ++ natToBytes 4 (statusNum r.st) ++ natToBytes 1 (pktType ws) ++ natToBytes 1 r.slot ++ natToBytes 2 0 ++
    natToBytes 8 r.result ++ natToBytes 8 s.now.toNat

/-- The read index passes the packet: it is written, and with CPL the completion entry. -/
def PktRes.pass (r : PktRes) (q idx : Nat) (d : QDesc) (ws : List Word) : State :=
  let s := r.s
  let w := ws.headD 0
  let rd := idx + ws.length
  let s := s.setHq q fun h =>
    { h with rd := rd, open_ := if r.open_ && r.st == .ok then h.open_ ++ [(idx, w)] else h.open_ }
  let s := s.hostWrite d.rdAddr (natToBytes 8 rd)
  let s := s.countHub 0x600 (some d.ctx)
  if w.getLsbD 24 then
    let k := (s.hqueue q).cpl
    (s.hostWrite (d.cplBase + 32 * (k % 2 ^ d.cplLog)) (s.cplBytes idx ws r)).setHq q fun h => { h with cpl := k + 1 }
  else s

/-- What a packet's own type does: its queue and index, the queue's context, its fields; `none` where it must wait. -/
abbrev PktGo := Nat × Nat → Nat → List Field → State → Option PktRes

/-- The packets that only an admin queue accepts. -/
def adminType (t : Nat) : Bool := t == 0x09 || t == 0x0A || t == 0x0D

/-- The checks of R366 in their order, and then the type's own. -/
def State.runPacket (s : State) (q : Nat) (d : QDesc) (ws : List Word) (go : PktGo) : Option PktRes :=
  match parsePacket ws with
  | .error st => some (.fail s st)
  | .ok fs =>
    let a := adminType (pktType ws)
    if a && !d.admin then some (.fail s .notAdmin)
    else if !a && (tget s.contexts d.ctx).isNone then some (.fail s .noContext)
    else go (q, (s.hqueue q).rd) d.ctx fs s

/-- The next packet of one queue is taken up, if it is of the kind and need not wait. -/
def State.tryPacket (s : State) (sel : List Word → Bool) (go : PktGo) (q : Nat) : Option State :=
  match s.nextPkt q, s.qdesc q with
  | .packet ws, some d =>
    if sel ws then (s.runPacket q d ws go).map fun r => r.pass q (s.hqueue q).rd d ws else none
  | _, _ => none

/-- Packets of different queues have no order among them: one of the queues whose next packet is of the kind. -/
def State.packetStep (s : State) (sel : List Word → Bool) (go : PktGo) : State :=
  match (tkeys s.hqueues).filterMap (s.tryPacket sel go) with
  | [] => s
  | l => (l.getD (s.choose l.length).1 s).draw

def ofType (t : Nat) (ws : List Word) : Bool := pktType ws == t

/-! ## UNKNOWN_PACKET_TYPE and QUEUE_STOP -/

/-- UNKNOWN_PACKET_TYPE: such a packet ends with BAD_PACKET, by check 1 of R366. -/
def execUnknownPacketType (s : State) : Out :=
  .next (s.packetStep (fun ws => !typeKnown (pktType ws)) fun _ _ _ s => some (.fail s .badPacket))

/-- A queue stops: ERR is set, in its descriptor too. -/
def State.stopQueue (s : State) (q : Nat) : State :=
  let s := s.setHq q fun h => { h with err := true }
  let a := s.qtbase + 64 * q + 8
  match s.hostRead a 1 with
  | some [b] => s.hostWrite a [b ||| 0x80]
  | _ => s

/-- QUEUE_STOP: the lowest queue at whose read index a packet of length 0 stands. -/
def execQueueStop (s : State) : Out :=
  .next (match (tkeys s.hqueues).find? fun q => s.nextPkt q = .stop with
    | some q => s.stopQueue q
    | none => s)

/-! ## LAUNCH and STANDING_START -/

def goLaunch : PktGo := fun k ctx fs s =>
  let lid := s.nextLid
  if s.idGen.getLsbD 0 then none
  else some { result := lid, open_ := true, s := s.accept ctx false (some k) fs none 0 }

def execLaunchPacket (s : State) : Out := .next (s.packetStep (ofType 0x01) goLaunch)

/-- The fixed part of an iterate version's header (R200): GEN 0, and the words from RFMT on. (DEDUCED, log entry 96) -/
def iterHeader (p : Prog) (nb : Nat) : List Byte :=
  natToBytes 2 p.rfmt ++ natToBytes 2 p.epb ++ natToBytes 4 nb ++ natToBytes 4 (voff nb) ++ natToBytes 36 0

/-- The iterate entry of one die is the program's: both versions carry the fixed header. -/
def State.bindIter (s : State) (ctx lid : Nat) (p : Prog) (d : ProgDie) : State :=
  match d.iter.bind fun id => (s.die d.die).entry ctx id with
  | none => s
  | some (i, e) =>
    let put (s : State) (v : Bool) : State :=
      (s.fwWriteVa .module ctx (e.ver v) (natToBytes 4 0)).fwWriteVa .module ctx (e.ver v + 16) (iterHeader p d.bricks.length)
    let s := put (put s false) true
    s.updDie d.die fun x => { x with pubs := tupd x.pubs i fun e => { e with prog := some lid } }

def goStanding : PktGo := fun k ctx fs s =>
  let lid := s.nextLid
  if s.idGen.getLsbD 0 then none
  else
    let s := s.accept ctx true (some k) fs none 0
    match s.prog lid with
    | some p =>
      some { result := lid, slot := p.slot, s := p.dies.foldl (fun s d => s.bindIter ctx lid p d) s }
    | none => some { st := if (s.launch lid).status == .busy then .busy else .ok, result := lid, open_ := true, s := s }

def execStandingStart (s : State) : Out := .next (s.packetStep (ofType 0x02) goStanding)

/-! ## STANDING_STOP, INPUT_POST and ITERATE_READ, R197, R204, R383 -/

/-- The running program of a context that PROGRAM names. -/
def State.running? (s : State) (ctx : Nat) (fs : List Field) : Option (Nat × Prog) :=
  let lid := (f2 fs 50 0).toNat
  match tget s.launches lid with
  | some l => if l.ctx ≠ ctx || l.ended then none else
      l.prog.bind fun p => if p.state = 0 then some (lid, p) else none
  | none => none

def goStop : PktGo := fun k ctx fs s =>
  match s.running? ctx fs with
  | none => some (.fail s .badPacketTarget)
  | some (lid, _) =>
    some { open_ := true, s := s.updProg lid fun p => { p with state := 1, stopPkt := some k } }

def execStandingStop (s : State) : Out := .next (s.packetStep (ofType 0x03) goStop)

/-- The pairs of an input as contributions. -/
def inputContribs (lid : Nat) (p : Prog) (sq : DWord) (fs : List Field) : List Contrib :=
  (chunks 2 ((fbody fs 53).getD [])).map fun c =>
    { prog := lid, brick := (c.getD 0 0).toNat, m := (p.mag (if p.rfmt = 2 then .f32 else .b32) (c.getD 1 0)).1, inp := some sq }

def goInput : PktGo := fun k ctx fs s =>
  match s.running? ctx fs with
  | none => some (.fail s .badPacketTarget)
  | some (lid, p) =>
    let sq := f2 fs 51 0
    let cs := inputContribs lid p sq fs
    if sq.toNat ≤ p.lastSeq.toNat then some (.fail s .staleInput)
    else if cs.any fun c => (p.brick? c.brick).isNone then some (.fail s .badBrick)
    else
      let s := match fbody fs 52 with
        | some b => s.fwWriteVa .system ctx (pair64 b 0).toNat (wordsToBytes (b.drop 2))
        | none => s
      let s := cs.foldl (State.send · (p.dieOf 0)) s
      some { open_ := true
             s := s.updProg lid fun p => { p with lastSeq := sq, inputs := p.inputs ++ [{ seq := sq, q := some k.1, pkt := k.2 }] } }

def execInputPost (s : State) : Out := .next (s.packetStep (ofType 0x04) goInput)

/-- One element as LDIT reads it: 24 bytes of the current version. -/
def State.iterElem (s : State) (ctx : Nat) (p : Prog) (rank e : Nat) : Option (List Byte) := do
  let d ← p.dies[rank]?
  let id ← d.iter
  let (_, x) ← (s.die d.die).entry ctx id
  let nb := d.bricks.length
  if nb * p.epb ≤ e then none
  else
    let v := x.ver x.cur
    let rd (a n : Nat) : List Byte := (match s.readVa ctx a n with
      | .ok b => b
      | .error _ => List.replicate n 0)
    some (rd (v + voff nb + 4 * e) 4 ++ rd (v + 64 + 4 * (e / p.epb)) 4 ++ rd (v + 4) 4 ++ rd v 4 ++ rd (v + 8) 8)

def goIterate : PktGo := fun _ ctx fs s =>
  match s.running? ctx fs with
  | none => some (.fail s .badPacketTarget)
  | some (_, p) =>
    match (chunks 2 ((fbody fs 110).getD [])).mapM fun c => s.iterElem ctx p (c.getD 0 0).toNat (c.getD 1 0).toNat with
    | none => some (.fail s .badPacketTarget)
    | some bs => some { s := s.fwWriteVa .system ctx (f2 fs 111 0).toNat bs.flatten }

def execIterateRead (s : State) : Out := .next (s.packetStep (ofType 0x0B) goIterate)

/-! ## PIN and UNPIN, R218, R219 -/

/-- DOMAIN of a packet: the mask, or the status it ends with (R363). -/
def State.domainMask (s : State) (fs : List Field) : Except Status Nat :=
  let mask := f1 fs 13 s.allDies
  if mask / 2 ^ s.onlineDies.length ≠ 0 then .error .badPacketTarget else if mask = 0 then .error .badShape else .ok mask

/-- DEDUCED, log entry 93. -/
def goPin : PktGo := fun _ ctx fs s =>
  let x := f2 fs 60 0
  let rs := (chunks 3 ((fbody fs 16).getD [])).map bufReq
  match s.domainMask fs with
  | .error st => some (.fail s st)
  | .ok mask =>
    let logical := (List.range 24).filter fun i => mask.testBit i
    let dom := s.domainOf mask
    let onDie (d : Nat) : List Nat := (rs.filter fun r => s.onlineDies.getD r.die 24 == d).map BufReq.id
    if rs.any (fun r => r.lvl ≠ 2) || dom.any fun d => (onDie d).isEmpty || 8 < (onDie d).length then
      some (.fail s .badShape)
    else if dom.any fun d => ((s.die d).pins.any fun p => p.session == x && p.ctx == ctx) || 4096 ≤ (s.die d).pins.length then
      some (.fail s .busy)
    else match State.makeBufs ctx 0 (some x) 0 dom logical [] rs s with
      | .error st => some (.fail s st)
      | .ok s =>
        some { s := dom.foldl (fun s d => s.updDie d fun y =>
          { y with pins := y.pins ++ [{ session := x, ctx := ctx, bufs := onDie d }] }) s }

def execPin (s : State) : Out := .next (s.packetStep (ofType 0x05) goPin)

def goUnpin : PktGo := fun _ ctx fs s =>
  let x := f2 fs 60 0
  let mine (p : Pin) : Bool := p.session == x && p.ctx == ctx
  if !(s.dies.toList.any fun d => d.pins.any mine) then some (.fail s .badSession)
  else if s.launches.any fun l => l.2.ctx == ctx && !l.2.ended && l.2.session == some x then some (.fail s .busy)
  else
    let ours (b : Buffer) : Bool := b.ctx == ctx && b.session == some x
    let s := (List.range 24).foldl (fun s d => s.updDie d fun y =>
      { y with pins := y.pins.filter fun p => !mine p, bufs := y.bufs.filter fun b => !ours b.2 }) s
    some { s := s.updCtx ctx fun c => { c with savedBufs := c.savedBufs.filter fun b => !ours b.2.2 } }

def execUnpin (s : State) : Out := .next (s.packetStep (ofType 0x06) goUnpin)

/-! ## COPY and NODE_SIGNAL -/

def goCopy : PktGo := fun k ctx fs s =>
  let r := (fbody fs 70).getD []
  let eng := f1 fs 71 0
  match s.domainMask fs with
  | .error st => some (.fail s st)
  | .ok mask =>
    if 1 < cSk r || 1 < cDk r then some (.fail s .badPacket)
    else if 7 < eng then some (.fail s .badPacketTarget)
    else
      let c : Cmd := { rec_ := r, ctx := ctx, packet := some k }
      some { open_ := true
             s := s.updDie ((s.domainOf mask).headD 0) fun d => { d with copyQ := vupd d.copyQ eng fun q => q ++ [c] } }

def execCopyPacket (s : State) : Out := .next (s.packetStep (ofType 0x07) goCopy)

/-- NODE_SIGNAL: the signal is applied at the node (R293); the packet has then finished. -/
def goSignal : PktGo := fun _ ctx fs s =>
  match s.domainMask fs with
  | .error st => some (.fail s st)
  | .ok mask =>
    let die := (s.domainOf mask).headD 0
    let id := BitVec.ofNat 32 (f1 fs 80 0)
    if ((s.die die).node? ctx id).isNone then some (.fail s .badPacketTarget)
    else if s.ctxBlocked die ctx .walker then none
    else
      let idx := id.toNat % 2 ^ 16
      some { s := (s.updNode die ctx idx fun n => { n with count := n.count - 1 }).tryFire die ctx idx }

def execNodeSignal (s : State) : Out := .next (s.packetStep (ofType 0x08) goSignal)

/-! ## CONTEXT_CREATE, CONTEXT_DESTROY, PEER_SET -/

/-- An area of a context lies in HBM pages that its tables map writable and supervisor-only (R335). -/
def State.areaOk (s : State) (ctx base n : Nat) : Bool :=
  base % 65536 == 0 && base + n ≤ 2 ^ 52 &&
    (List.range ((n + 65535) / 65536)).all fun k => match s.walkTable ctx (base / 65536 + k) with
      | .hit e => e.w && e.s && !e.h
      | .fault _ => false

/-- The context that a CONTEXT_CREATE describes. (DESIGN CHOICE, log entry 12) -/
def newContext (s : State) (fs : List Field) : Context :=
  let range (id d : Nat) : Nat × Nat := (f1 fs id d % 2 ^ 16, f1 fs id d / 2 ^ 16)
  let w3 (id : Nat) : DWord × Nat := let b := (fbody fs id).getD []
    (pair64 b 0, (b.getD 2 0).toNat)
  { tableBase := f2 fs 91 0, regBase := f2 fs 92 0, twd := f1 fs 94 27, hold := f1 fs 95 1048576, sampleK := f1 fs 96 8
    bufFirst := (range 97 0).1, bufCount := (range 97 0).2, pubFirst := (range 98 0).1, pubCount := (range 98 0).2
    trapBase := (w3 100).1, tslots := (w3 100).2, saveBase := (w3 101).1, svsize := (w3 101).2, key := s.nextKey }

/-- The fields of the packet hold allowed values. -/
def contextOk (c : Context) : Bool :=
  c.tableBase.toNat % 32768 == 0 && backed c.tableBase.toNat && c.regBase.toNat % 65536 == 0 && backed c.regBase.toNat &&
    20 ≤ c.twd && c.twd ≤ 34 && 8 ≤ c.sampleK && c.sampleK ≤ 24 && c.bufFirst + c.bufCount ≤ 16384 &&
    c.pubFirst + c.pubCount ≤ 1024 && 64 ≤ c.tslots && c.tslots ≤ 1048576

/-- The bytes of each trap slot between the wave entries and the trap stack are zero (R335): of what memory lists or has
encrypted there, nothing stays. -/
def State.clearSlots (s : State) (ctx : Nat) : State :=
  let c := s.ctx ctx
  let slots := (List.range c.tslots).filterMap fun k =>
    match s.trCtx ctx true (c.trapBase.toNat + 16384 * k) with
    | .ok l => some (l / 16384)
    | .error _ => none
  let known := s.mem.map Prod.fst ++ s.keyTag.flatMap fun k => (List.range 32).map fun i => 32 * k.1 + i
  let locs := (known.filter fun l => slots.contains (l / 16384) && 8256 ≤ l % 16384 && l % 16384 < 15360).eraseDups
  locs.foldl (fun s l => s.fwWrite .system ctx [(l, 0)]) s

/-- The counters of a context start anew as it comes into being and as it goes (R1). (DEDUCED, log entry 137) -/
def State.clearCounters (s : State) (ctx : Nat) : State :=
  let f (c : Counter) : Counter := if c.ctx.toNat = ctx then { ctx := c.ctx } else c
  { s with
    dies := s.dies.map fun d => { d with ctrs := d.ctrs.map f, cores := d.cores.map fun k => { k with ctrs := k.ctrs.map f } }
    hubCtrs := s.hubCtrs.map f }

def goCreate : PktGo := fun _ _ fs s =>
  let ctx := f1 fs 90 0
  if 4096 ≤ ctx then some (.fail s .badPacket)
  else if (tget s.contexts ctx).isSome then some (.fail s .busy)
  else
    let c := newContext s fs
    let s' := { s with contexts := tset s.contexts ctx c, nextKey := s.nextKey + 1 }
    if !contextOk c || !s'.areaOk ctx c.trapBase.toNat (16384 * c.tslots) || !s'.areaOk ctx c.saveBase.toNat (65536 * c.svsize) then
      some (.fail s .badPacket)
    else
      let s' := (s'.clearSlots ctx).clearCounters ctx
      match f2? fs 93 with
      | none => some { s := s' }
      | some va => match s'.trapImage ctx va with
        | none => some (.fail s .badObject)
        | some (code, e) => some { s := s'.updCtx ctx fun c => { c with trapImg := some va, trapCode := some code, trapEntry := e } }

def execContextCreate (s : State) : Out := .next (s.packetStep (ofType 0x09) goCreate)

/-- Something of the context still runs: a launch, or an engine command. -/
def State.ctxBusy (s : State) (ctx : Nat) : Bool :=
  (s.launches.any fun l => l.2.ctx == ctx && !l.2.recorded) ||
    s.dies.toList.any fun d => (d.copyQ.toList ++ d.encQ.toList).any fun q => q.any fun c => c.ctx == ctx

/-- What a die holds of a context is scrubbed. -/
def Die.scrub (d : Die) (ctx : Nat) : Die :=
  { d with
    bufs := d.bufs.filter fun b => b.2.ctx != ctx
    pins := d.pins.filter fun p => p.ctx != ctx
    pubs := d.pubs.filter fun p => p.2.ctx != ctx
    nodes := d.nodes.filter fun n => n.1.1 != ctx
    signals := d.signals.filter fun x => x.1 != ctx
    tlb := d.tlb.filter fun e => e.ctx != ctx
    sessions := d.sessions.filter fun x => x.1.2 != ctx
    stops := d.stops.filter fun r => r.ctx != some ctx
    cores := d.cores.map fun k => { k with left := terase k.left ctx } }

/-- CONTEXT_DESTROY waits until nothing of the context runs; then its state on every die and its key are gone. -/
def goDestroy : PktGo := fun _ _ fs s =>
  let ctx := f1 fs 90 0
  if (tget s.contexts ctx).isNone then some (.fail s .noContext)
  else if s.ctxBusy ctx then none
  else
    let s := s.clearCounters ctx
    some { s := { s with contexts := terase s.contexts ctx, objs := s.objs.filter fun o => o.1.1 != ctx
                         dies := s.dies.map fun d => d.scrub ctx
                         inval := s.inval.map fun x => if x.ctx = ctx then { x with ticket := none } else x } }

def execContextDestroy (s : State) : Out := .next (s.packetStep (ofType 0x0A) goDestroy)

/-- An entry of PEER_SET. -/
def peerOf (c : List Word) : Nat × Peer :=
  let w := c.getD 0 0
  let x := c.getD 2 0
  (w.toNat % 2 ^ 8, { port := BitVec.ofNat 12 (w.toNat / 2 ^ 8), remote := BitVec.ofNat 12 (w.toNat / 2 ^ 20)
                      mac := BitVec.ofNat 48 ((c.getD 1 0).toNat + x.toNat % 2 ^ 16 * 2 ^ 32)
                      keyTag := BitVec.ofNat 16 (x.toNat / 2 ^ 16) })

def goPeer : PktGo := fun _ _ fs s =>
  let ctx := f1 fs 90 0
  let es := chunks 4 ((fbody fs 99).getD [])
  if (tget s.contexts ctx).isNone then some (.fail s .noContext)
  else if es.any fun c => c.getD 3 0 != 0 then some (.fail s .badPacket)
  else some { s := s.updCtx ctx fun c => { c with peers := (es.map peerOf).foldl (fun t p => tset t p.1 p.2) c.peers } }

def execPeerSet (s : State) : Out := .next (s.packetStep (ofType 0x0D) goPeer)

/-! ## QUERY, R378 -/

/-- WHAT of a QUERY packet, read before its checks. -/
def queryWhat (ws : List Word) : Nat :=
  match parsePacket ws with
  | .ok fs => f1 fs 120 0
  | .error _ => 0

/-- The SHAKE256 digests of the images that the firmware cores run, each image once, in the order of the cores. -/
def State.imageDigests (s : State) : List Byte :=
  (s.fwImages.toList.filterMap id).eraseDups.flatMap fun i => (List.range 32).map (Config.imageDigest i)

/-- The report: nonce, digests of the images, DEVFEAT, DRVFEAT, leaf index, signature. (PRESUMED, log entry 94) -/
def State.reportBytes (s : State) (fs : List Field) : List Byte :=
  let free (n : Nat) (o : Nat) : List Byte := (List.range n).map fun i => Config.attest s.freeCtr (o + i)
  wordsToBytes ((fbody fs 121).getD (List.replicate 8 0)) ++ s.imageDigests ++ natToBytes 32 s.devfeat.toNat ++
    natToBytes 32 s.drvfeat.toNat ++ natToBytes 4 s.xmssLeaf ++ free 2820 0

/-- WHAT 0: the leaf index advances before the report leaves the block. -/
def goReport : PktGo := fun _ ctx fs s =>
  if f1 fs 120 0 ≠ 0 then some (.fail s .badPacket)
  else
    let s := { s with xmssLeaf := s.xmssLeaf + 1 }
    some { s := s.draw.fwWriteVa .system ctx (f2 fs 122 0).toNat (s.reportBytes fs) }

def execQueryAttestation (s : State) : Out :=
  .next (s.packetStep (fun ws => pktType ws == 0x0C && queryWhat ws != 1) goReport)

def goIdentity : PktGo := fun _ ctx fs s =>
  some { s := s.fwWriteVa .system ctx (f2 fs 122 0).toNat ((List.range 65536).map s.identByte) }

def execQueryIdentity (s : State) : Out :=
  .next (s.packetStep (fun ws => pktType ws == 0x0C && queryWhat ws == 1) goIdentity)

/-- XMSS_TREE_ROLLOVER: near the end of its leaves the block generates a successor tree, and signs its public key with the
current key, which takes a leaf; signatures then come from the successor. (DEDUCED, log entry 95) -/
def execXmssTreeRollover (s : State) : Out :=
  .next (if !s.power || s.xmssLeaf < 2 ^ 20 - 4096 then s else { s with xmssLeaf := 0, xmssTree := s.xmssTree + 1 })

end Sys2Proof.Machine
end

