-- ==== Sys2Proof/Machine/Mmio.lean ====
section
/-! DEFINITION. The host's registers and its memory port (R262, R263, R283, R346, R352, R365, R367, R372 to R375): INVAL, DRVFEAT,
REGISTER_WRITE, SUBMISSION_WRITE, LATCH_ENTRY, TAIL_RESCAN, HOST_MEM_READ, HOST_MEM_WRITE, HOST_SNOOP. -/

namespace Sys2Proof.Machine

/-! ## Registers, R373 -/

/-- INVAL: the three words are written; bit 63 of the third starts the request for the context and the range of pages.
(DEDUCED, log entry 91) -/
def execInval (s : State) : Out :=
  s.powered fun s =>
    let w0 := s.ext.w0.toNat
    let s' := { s with invalReg := (s.ext.w0, s.ext.w1, s.ext.w2) }
    if s.ext.w2.getLsbD 63 then s'.startInval (w0 % 2 ^ 12) (s.ext.w1.toNat / 2 ^ 16) (w0 / 2 ^ 12 % 2 ^ 20) none else s'

/-- DRVFEAT: unoffered bits are ignored, and while any context exists bits are set but not cleared. -/
def execDrvfeat (s : State) : Out :=
  s.powered fun s =>
    let x := s.ext.val &&& s.devfeat
    { s with drvfeat := if s.contexts.isEmpty then x else x ||| s.drvfeat }

/-- An MMIO register at an offset: HSTAT's LOVF is cleared by a one, read-only registers take nothing. -/
def State.mmioWrite (s : State) (off x : Nat) : State :=
  match off with
  | 0x50 => { s with lovf := s.lovf && !x.testBit 1 }
  | 0x58 => { s with qtbase := x % 2 ^ 64 }
  | 0x80 => if x % 64 = 0 && backed x then { s with hdmBase := x } else s
  | 0x88 => if x ≤ hdmGranules then { s with hdmCnt := x } else s
  | _ => s

/-- PREGRAN of a die (R346). -/
def Die.setPregran (d : Die) (x : Nat) : Die :=
  { d with cpyg := if x % 16 ≤ 8 then x % 16 else d.cpyg, encg := x.testBit 4 }

/-- The CTX field of a counter: of core `site` below 36, of the die at 36, of the hub above (R283). A counter that passes to
another context starts anew (R1). (DEDUCED, log entry 137) -/
def State.setCounterCtx (s : State) (die site i : Nat) (ctx : BitVec 12) : State :=
  let f (c : Counter) : Counter := c.passTo ctx
  if site < 36 then s.updCore die site fun k => { k with ctrs := vupd k.ctrs i f }
  else if site = 36 then s.updDie die fun d => { d with ctrs := vupd d.ctrs i f }
  else { s with hubCtrs := vupd s.hubCtrs i f }

/-- REGISTER_WRITE: `ext.q` names the kind of register, 0 of the MMIO table, 1 PREGRAN, 2 the CTX field of a counter.
(DESIGN CHOICE, log entry 98) -/
def execRegisterWrite (s : State) : Out :=
  s.powered fun s =>
    let x := s.ext.val.toNat
    match s.ext.q with
    | 0 => s.mmioWrite s.ext.off x
    | 1 => s.updDie s.ext.die fun d => d.setPregran x
    | 2 => s.setCounterCtx s.ext.die s.ext.site s.ext.link (BitVec.ofNat 12 x)
    | _ => s

/-! ## The submission latch, R372 -/

/-- SUBMISSION_WRITE: the write enters the latch; one that finds it full is dropped and sets LOVF. -/
def execSubmissionWrite (s : State) : Out :=
  s.powered fun s =>
    if 65536 ≤ s.ext.q then s
    else if 4096 ≤ s.latch.length then { s with lovf := true }.countHub 0x601 none
    else { s with latch := s.latch ++ [(s.ext.q, s.ext.tail)] }

/-- One entry is applied to its queue. -/
def State.applyTail (s : State) (q tail : Nat) : State :=
  let h := s.hqueue q
  if tail ≤ h.tail then s
  else match s.qdesc q with
    | none => s
    | some d => if h.rd + 2 ^ d.log < tail then s.stopQueue q else s.setHq q fun h => { h with tail := tail }

/-- LATCH_ENTRY: firmware applies the oldest entry. -/
def execLatchEntry (s : State) : Out :=
  .next (match s.running, s.latch with
    | true, (q, tail) :: l => { s with latch := l }.applyTail q tail
    | _, _ => s)

/-- TAIL_RESCAN: while LOVF is set, TAIL of every enabled descriptor is applied, and LOVF is then cleared. -/
def execTailRescan (s : State) : Out :=
  .next (if s.running && s.lovf then
      let s := (List.range 65536).foldl (fun (s : State) q => match s.qdesc q with
        | some d => if d.en then s.applyTail q d.tail else s
        | none => s) s
      { s with lovf := false }
    else s)

/-! ## The host's memory port, R262, R263, R374, R375 -/

/-- The host as an agent. -/
def hostAgent : AgentAt := { ag := .host }

/-- HOST_MEM_READ: `ext.tail` bytes at the host address `ext.off`, read by the host after an acquire at system scope. A
granule that is not mapped gives poisoned data. -/
def execHostMemRead (s : State) : Out :=
  s.powered fun s =>
    match s.hostLocs s.ext.off s.ext.tail with
    | none => { s with hostRd := none }
    | some ls =>
      let (a, s) := s.acqBy hostAgent .system
      let (b, s) := s.readPieces [] a none { stamp := s.stamp, seq := s.nextSeq, start := 0 } 4096 (pieces ls)
      { s with hostRd := some b }

/-- The host writes one piece: it enters the sector's order as a release of the host at system scope. -/
def State.hostEnter (s : State) (bs : List (Nat × Byte)) : State :=
  let s := s.tick
  (s.enter hostAgent none 0 [{ by_ := hostAgent, scope := .system, stamp := s.stamp }] false bs).tagKeys 0 (bs.map Prod.fst)

/-- Bytes at mapped locations; a write to a granule that is not mapped is dropped. -/
def State.hostPut (s : State) (a : Nat) (bs : List Byte) : State :=
  let xs := bs.zipIdx.filterMap fun x => (s.hostAddr (a + x.2)).map fun l => (l, x.1)
  (pieces (xs.map Prod.fst)).foldl (fun s p => s.hostEnter (xs.filter fun x => p.contains x.1)) (s.unload (xs.map Prod.fst))

/-- A stopped queue whose descriptor has been rewritten without ERR accepts packets again, from TAIL on (R367).
(DEDUCED, log entry 99) -/
def State.resumeQueues (s : State) (a n : Nat) : State :=
  ((tkeys s.hqueues).filter fun q => (s.hqueue q).err && a < s.qtbase + 64 * q + 64 && s.qtbase + 64 * q < a + n).foldl
    (fun s q => match s.hostRead (s.qtbase + 64 * q) 64 with
      | some b => if (numAt b 8 1).testBit 7 then s else
          s.setHq q fun h => { h with err := false, rd := numAt b 16 8, tail := numAt b 16 8 }
      | none => s) s

/-- HOST_MEM_WRITE: `ext.bytes` at the host address `ext.off`. -/
def execHostMemWrite (s : State) : Out :=
  s.powered fun s => (s.hostPut s.ext.off s.ext.bytes).resumeQueues s.ext.off s.ext.bytes.length

/-- HOST_SNOOP: the device caches no host line, and answers RspIHitI. -/
def execHostSnoop (s : State) : Out := s.powered fun s => { s with snoops := s.snoops + 1 }

end Sys2Proof.Machine
end

