-- ==== Sys2Proof/Machine/Service.lean ====
section
/-! DEFINITION. Power, firmware, live service and links (00_scope.md, R1, R3, R361 to R364, R371, R372, R376 to R379, R381):
POWER_UP, MODULE_UNPOWERED, FIRMWARE_UPDATE, FIRMWARE_RESTART, CORE_RETIRE, DIE_EVACUATE, DIE_RETURN, HBM_PAGE_RETIRE,
LANE_RECALIBRATION, CLOCK_RECALIBRATION, PEER_DATA_FRAME, PEER_ACK, PEER_NAK, PEER_RESEND_TIMEOUT, FLIT_CRC_FAIL, LINK_FAIL. -/

namespace Sys2Proof.Machine

/-! ## Power -/

/-- At most three fused sites: a die has at least 33 live cores of 36 (R2). -/
def fusesOf (x : BitVec 36) : BitVec 36 :=
  (((List.range 36).filter x.getLsbD).take 3).foldl (fun y i => y ||| (1#36 <<< i)) 0

/-- A die as the module comes up: in service, with its fuses, and its pickers' LFSRs seeded (R2, R364).
(DESIGN CHOICE, log entry 10) -/
def bootDie (i : Nat) : Die :=
  { harvest := fusesOf (Config.fuses i)
    cores := Vector.ofFn fun (k : Fin 36) => { lfsr := Config.lfsrSeed i k.val } }

/-- POWER_UP (R3): the host brings the module up and loads the firmware images, which run only where their signature has been
verified (`ext.ok`, R378). (DESIGN CHOICE, log entry 2) -/
def execPowerUp (s : State) : Out :=
  .next (if s.power then s
    else
      { s with power := true, running := s.ext.ok
               fwImages := Vector.replicate 12 (if s.ext.ok then some s.ext.image else none)
               dies := Vector.ofFn fun (i : Fin 24) => bootDie i.val })

/-- MODULE_UNPOWERED (R3): management and all running work stop. Host memory, the security block's protected storage and what
is still to come from outside are not the module's to lose. (DEDUCED, log entry 102) -/
def execModuleUnpowered (s : State) : Out :=
  .next { State.reset with
    mem := s.mem.filter fun c => hostBase ≤ c.1
    xmssLeaf := s.xmssLeaf
    xmssTree := s.xmssTree
    freeCtr := s.freeCtr
    agenda := s.agenda }

/-! ## Firmware -/

/-- FIRMWARE_UPDATE: the first step takes core 0 out of the event queue, for a verified image only; each further one lets the
core that is out load the image and rejoin, and takes the next out. The features of the new images are then offered.
(DESIGN CHOICE, log entry 101) -/
def execFirmwareUpdate (s : State) : Out :=
  s.powered fun s =>
    match s.fwOut with
    | none => if s.ext.ok then { s with updating := true, fwOut := some (0, s.ext.image, s.ext.val) } else s
    | some (k, img, feat) =>
      let s := { s with fwImages := vset s.fwImages k (some img) }
      if k < 11 then { s with fwOut := some (k + 1, img, feat) }
      else { s with fwOut := none, updating := false, devfeat := s.devfeat ||| feat }

/-- FIRMWARE_RESTART: firmware that runs stops; firmware that has stopped runs again, where its images are verified (R378). The
submission latch and every tail keep their contents. -/
def execFirmwareRestart (s : State) : Out :=
  s.powered fun s => { s with running := !s.running && s.fwImages.all Option.isSome }

/-! ## Changes of the identity page, R364, R379, R380 -/

/-- The page's GEN becomes odd, or even again. -/
def State.turnGen (s : State) (c : Option (Instr × ExtIn)) : State := { s with idGen := s.idGen + 1, change := c }

/-- The workgroups that run or stand prefetched on some sites of a die. -/
def State.occupants (s : State) (die : Nat) (at_ : Nat → Bool) : List ((Nat × Nat) × Wg) :=
  s.wgs.filter fun g => g.2.die == die && at_ g.2.site && (g.2.st == .running || g.2.st == .prefetched)

/-- The units there are pre-empted: the stop of a running one is requested, a prefetched one goes back to its bank. -/
def State.vacate (s : State) (die : Nat) (at_ : Nat → Bool) : State :=
  let us := ((s.occupants die at_).map fun g => (g.1.1, g.2.inst)).eraseDups
  let runs (u : Nat × Nat) : Bool := (s.inst u.1 u.2).members.any (s.runs u.1)
  us.foldl (fun s u =>
    if runs u then (if s.stopping u.1 u.2 then s else s.requestStop u) else s.saveUnit u.1 u.2) s

/-- A change of a die's cores: it begins with GEN odd and the pre-emption of the units there, and ends, once none is left,
with GEN even and the tables rewritten. Nothing begins where the save would not fit. (DEDUCED, log entry 100) -/
def State.service (s : State) (i : Instr) (ok : Bool) (at_ : Nat → Bool) (f : Die → Die) : State :=
  match s.change with
  | none =>
    let us := ((s.occupants s.ext.die at_).map fun g => (g.1.1, g.2.inst)).eraseDups
    if !ok || !s.saveFits us then s else (s.turnGen (some (i, s.ext))).vacate s.ext.die at_
  | some (j, e) =>
    let us := ((s.occupants s.ext.die at_).map fun g => (g.1.1, g.2.inst)).eraseDups
    if i != j || e != s.ext then s
    else if us.isEmpty then (s.updDie s.ext.die f).turnGen none
    else if s.saveFits us then s.vacate s.ext.die at_
    else s

/-- CORE_RETIRE: the site `ext.site` of die `ext.die`. -/
def execCoreRetire (s : State) : Out :=
  s.powered fun s =>
    let d := s.die s.ext.die
    s.service .coreRetire (d.online && d.sites.contains s.ext.site) (· == s.ext.site) fun d =>
      { d with offline := d.offline ||| (1#36 <<< s.ext.site) }

/-- DIE_EVACUATE: die `ext.die`. -/
def execDieEvacuate (s : State) : Out :=
  s.powered fun s => s.service .dieEvacuate (s.die s.ext.die).online (fun _ => true) fun d =>
    { d with online := false, away := true }

/-- DIE_RETURN: the evacuated die `ext.die`. -/
def execDieReturn (s : State) : Out :=
  s.powered fun s => s.service .dieReturn (s.die s.ext.die).away (fun _ => false) fun d =>
    { d with online := true, away := false }

/-! ## HBM_PAGE_RETIRE, R379 -/

/-- Where a location of the retired page now lies. -/
def movedLoc (pa newPa loc : Nat) : Nat := if loc / 65536 * 65536 = pa then newPa + loc % 65536 else loc

/-- Memory with one 64 KiB page moved. -/
def movePage (m : List Host.Cell) (pa newPa : Nat) : List Host.Cell :=
  let inPage (b : Nat) (c : Host.Cell) : Bool := c.1 / 65536 * 65536 == b
  memSetAll (m.filter fun c => !inPage pa c && !inPage newPa c) ((m.filter (inPage pa)).map fun c => (movedLoc pa newPa c.1, c.2))

/-- A level-2 block with one page elsewhere: the table that maps its pages one by one, written at `tbl`, and the pointer to it. -/
def State.splitBlock (s : State) (pa newPa tbl a : Nat) : State :=
  let e := s.tableEntry a
  let row (k : Nat) : List (Nat × Byte) :=
    let p := entryPa e + 65536 * k
    ((List.range 8).map fun j => tbl + 8 * k + j).zip (natToBytes 8 ((if p = pa then newPa else p) + e % 2 ^ 5 / 4 * 4 + 3))
  (s.fwPlain .system ((List.range 4096).flatMap row)).writeTable (a, BitVec.ofNat 64 (tbl + 3))

/-- The entry maps the page in a level-2 block of HBM. -/
def inBlock (lev e pa : Nat) : Bool :=
  lev == 2 && e % 4 == 1 && e / 16 % 2 == 0 && entryMbz e && entryPa e % 2 ^ 28 == 0 && entryPa e ≤ pa && pa < entryPa e + 2 ^ 28

/-- The entry names the page: a table pointer to it, or a page entry of HBM. -/
def namesPage (lev e pa : Nat) : Bool := e % 4 == 3 && entryPa e == pa && (lev != 3 || e / 16 % 2 == 0)

/-- The entries that map the retired page name the new one: a block that holds it is split, with tables from `tbl` upward, 64 KiB
apart; a valid entry of the HDM map follows too (R375, R379). `all` are the entries of every context's tables, where they stand now. -/
def State.moveEntries (s : State) (all : List (Nat × Nat)) (pa newPa tbl : Nat) : State :=
  let blocks := (all.filter fun x => inBlock x.1 (s.tableEntry x.2) pa).map Prod.snd
  let s' := (all.filter fun x => namesPage x.1 (s.tableEntry x.2) pa).foldl (fun s' x =>
    s'.writeTable (x.2, BitVec.ofNat 64 (s.tableEntry x.2 - pa + newPa))) s
  let s' := (blocks.zipIdx).foldl (fun s' x => s'.splitBlock pa newPa (tbl + 65536 * x.2) x.1) s'
  ((List.range s.hdmCnt).filter fun i => s.hdmPage i == some pa).foldl (fun s' i =>
    s'.writeTable (s.hdmBase + 8 * i, BitVec.ofNat 64 (newPa + 1))) s'

/-- Tables that the split of blocks needs lie in HBM that the driver gives. -/
def State.tablesGiven (s : State) (pa tbl : Nat) : Bool :=
  let n := (s.allEntries.filter fun x => inBlock x.1 (s.tableEntry x.2) pa).length
  (List.range n).all fun k => tbl % 65536 == 0 && backed (tbl + 65536 * k)

/-- Everything in the state that names a location of the page names the new one. (DESIGN CHOICE, log entry 103) -/
def State.rename (s : State) (pa newPa : Nat) : State :=
  let f := movedLoc pa newPa
  let g (w : WriteRec) : WriteRec :=
    { w with
      bytes := (w.bytes.filter fun b => b.1 / 65536 * 65536 ≠ newPa).map fun b => (f b.1, b.2)
      who := w.who.map fun x => (f x.1, x.2)
      tags := w.tags.map fun x => (f (x.1 * 32) / 32, x.2) }
  let st (e : Staged) : Staged := { e with bytes := e.bytes.map fun b => (f b.1, b.2) }
  let jr (l : Launch) : Launch :=
    { l with
      journal := l.journal.map fun e => (e.1, e.2.map fun b => (f b.1, b.2))
      accesses := l.accesses.map fun a => { a with locs := a.locs.map f } }
  let key (k : Nat) : Nat := f (k * 32) / 32
  let cx (c : Context) : Context :=
    { c with tableBase := BitVec.ofNat 64 (f c.tableBase.toNat), regBase := BitVec.ofNat 64 (f c.regBase.toNat) }
  { s with
    mem := movePage s.mem pa newPa
    order := s.order.map g
    keyTag := (s.keyTag.filter fun k => k.1 * 32 / 65536 * 65536 ≠ newPa).map fun k => (key k.1, k.2)
    wgs := s.wgs.map fun w => (w.1, { w.2 with staging := w.2.staging.map st })
    launches := s.launches.map fun l => (l.1, jr l.2)
    loads := s.loads.map fun l => { l with pieces := l.pieces.map fun p => p.map f }
    contexts := s.contexts.map fun c => (c.1, cx c.2)
    objs := s.objs.map fun o => (o.1, { o.2 with locs := o.2.locs.map f })
    hdmBase := f s.hdmBase
    dies := s.dies.map fun d => { d with tlb := d.tlb.filter fun e => !(e.pa ≤ pa && pa < e.pa + e.pages * 65536) } }

/-- HBM_PAGE_RETIRE: page `ext.pa` is copied to page `ext.newPa`; the entries of every context that map it are moved, those of tables
that lie in it too, and what the translation caches hold of it is invalidated. Tables for blocks that must be split lie at `ext.off`.
(DESIGN CHOICE, log entry 103) -/
def execHbmPageRetire (s : State) : Out :=
  s.powered fun s =>
    let pa := s.ext.pa
    let newPa := s.ext.newPa
    if pa % 65536 ≠ 0 || newPa % 65536 ≠ 0 || !backed pa || !backed newPa || pa = newPa || !s.tablesGiven pa s.ext.off then s
    else (s.rename pa newPa).moveEntries (s.allEntries.map fun x => (x.1, movedLoc pa newPa x.2)) pa newPa s.ext.off

/-- LANE_RECALIBRATION and CLOCK_RECALIBRATION change timing only. (DEDUCED, log entry 104) -/
def execLaneRecalibration (s : State) : Out := .next s
def execClockRecalibration (s : State) : Out := .next s

/-! ## Gwetin Link, R264, R376 -/

/-- A frame from a peer is applied: every byte must be mapped writable in the target context, whose key tag it must bear. -/
def State.takeFrame (s : State) (f : Frame) : Option State :=
  match tget s.contexts f.ctx with
  | none => none
  | some c =>
    if f.keyTag != BitVec.ofNat 16 c.key || 4096 < f.data.length then none
    else match s.trRange f.ctx true f.dest.toNat f.data.length with
      | .error _ => none
      | .ok ls =>
        let by_ : AgentAt := { ag := .peer f.flow }
        some ((pieces ls).foldl (fun s p =>
          let bs := (ls.zip f.data).filter fun x => p.contains x.1
          let s := s.tick
          (s.enter by_ none 0 [{ by_ := by_, scope := .system, stamp := s.stamp }] false bs).tagCtx f.ctx p) s)

/-- PEER_DATA_FRAME: `ext.frame`; it is acknowledged, or dropped and negatively acknowledged. -/
def execPeerDataFrame (s : State) : Out :=
  s.powered fun s =>
    let f := s.ext.frame
    match s.takeFrame f with
    | some s => { s with peerOut := s.peerOut ++ [(true, f.flow, f.seq)] }
    | none => { s with peerOut := s.peerOut ++ [(false, f.flow, f.seq)] }

/-- Commands of the copy engines, changed. -/
def State.mapCmds (s : State) (f : Cmd → Cmd) : State :=
  { s with dies := s.dies.map fun d => { d with copyQ := d.copyQ.map fun q => q.map f } }

/-- Frames of a flow, those that fail a test taken away. -/
def State.keepFrames (s : State) (keep : Frame → Bool) : State :=
  { s with flows := s.flows.map fun x => (x.1, { x.2 with sent := x.2.sent.filter keep }) }

/-- PEER_ACK: frame `ext.seq` of flow `ext.flow` has entered the peer's memory order. (DESIGN CHOICE, log entry 105) -/
def execPeerAck (s : State) : Out :=
  s.powered fun s =>
    let k := (s.ext.flow, s.ext.seq)
    (s.keepFrames fun f => (f.flow, f.seq) != k).mapCmds fun c => { c with frames := c.frames.filter fun x => x != k }

/-- The commands that wait for some frames end with status PEER, and their frames are not sent again. -/
def State.failFrames (s : State) (bad : Nat × Nat → Bool) : State :=
  let cs := (s.dies.toList.flatMap fun d => d.copyQ.toList.flatten).filter fun c => c.frames.any bad
  let gone := cs.flatMap Cmd.frames
  (s.keepFrames fun f => !gone.contains (f.flow, f.seq)).mapCmds fun c =>
    if c.frames.any bad then { c with status := if c.status = 0 then 6 else c.status, frames := [] } else c

/-- A flow sends again, in order, every frame from the first unacknowledged one on (R376). -/
def State.resend (s : State) (flow : Nat) : State :=
  { s with linkOut := s.linkOut ++ ((tget s.flows flow).map Flow.sent).getD [], linkResends := s.linkResends + 1 }

/-- PEER_NAK: a key tag that does not match (`ext.ok`) ends the command; else the flow sends again. -/
def execPeerNak (s : State) : Out :=
  s.powered fun s => if s.ext.ok then s.failFrames (· == (s.ext.flow, s.ext.seq)) else s.resend s.ext.flow

/-- PEER_RESEND_TIMEOUT: a flow with an unacknowledged frame sends from that on again. -/
def execPeerResendTimeout (s : State) : Out :=
  s.powered fun s =>
    if ((tget s.flows s.ext.flow).map Flow.sent).getD [] |>.isEmpty then s else s.resend s.ext.flow

/-- FLIT_CRC_FAIL: the link sends the flit again. -/
def execFlitCrcFail (s : State) : Out := s.powered fun s => { s with linkResends := s.linkResends + 1 }

/-- Another port for a frame: the one that its command's peer has left. -/
def State.otherPort (s : State) (f : Frame) : Option Nat :=
  match (s.dies.toList.flatMap fun d => d.copyQ.toList.flatten).find? fun c => c.frames.contains (f.flow, f.seq) with
  | some c => c.peer.bind s.peerPort
  | none => none

/-- LINK_FAIL: link `ext.link` is out of service, peer ports being links 0 to 11. Traffic goes round it: the frames of a port
go by another port of their peer, and a command without one ends with status PEER. -/
def execLinkFail (s : State) : Out :=
  s.powered fun s =>
    if s.linksDown.contains s.ext.link then s
    else
      let s := { s with linksDown := s.linksDown ++ [s.ext.link] }
      if 12 ≤ s.ext.link then s
      else
        let move (f : Frame) : Frame := if f.port = s.ext.link then { f with port := (s.otherPort f).getD f.port } else f
        let go (x : Nat × Flow) : Nat × Flow := (x.1, { x.2 with sent := x.2.sent.map move })
        let s : State := { s with flows := s.flows.map go }
        let dead : List Frame := (s.flows.flatMap fun x => x.2.sent).filter fun f => f.port = s.ext.link
        s.failFrames fun k => dead.any fun f => (f.flow, f.seq) == k

end Sys2Proof.Machine
end

