-- ==== Sys2Proof/Machine/Sfu.lean ====
section
/-! DEFINITION. The SFU class (R105 to R110). A result is known at issue and written later (SFU_RESULT). The functions of
R107 return a pattern that this implementation fixes (`Config.sfu`), held to the bound of R107 against a value computed
here to more than 200 bits beyond it. -/

namespace Sys2Proof.Machine

/-! ## Fixed point: a number x stands for x / 2^300 -/

def fxK : Nat := 300

/-- ln 2 and π, cut below: at 300 and at 512 bits. -/
def fxLn2 : Nat := 0xb17217f7d1cf79abc9e3b39803f2f6af40f343267298b62d8a0d175b8baafa2be7b876206de
def fxPi512 : Nat :=
  0x3243f6a8885a308d313198a2e03707344a4093822299f31d0082efa98ec4e6c89452821e638d01377be5466cf34e90c6cc0ac29b7c97c50dd3f84d5b5b5470917

/-- The series of e^x for x below 1: the terms from the i-th, and their sum. -/
def expGo (x : Nat) : Nat → Nat → Nat → Nat → Nat
  | 0, _, _, sum => sum
  | n + 1, i, term, sum =>
    let term := term * x / 2 ^ fxK / i
    expGo x n (i + 1) term (sum + term)

def expFix (x : Nat) : Nat :=
  let n := x / fxLn2
  expGo (x % fxLn2) 90 1 (2 ^ fxK) (2 ^ fxK) * 2 ^ n

/-- The series of atanh: the odd powers of z over their exponents. -/
def atanhGo (z2 : Nat) : Nat → Nat → Nat → Nat → Nat
  | 0, _, _, sum => sum
  | n + 1, i, pow, sum =>
    let pow := pow * z2 / 2 ^ fxK
    atanhGo z2 n (i + 2) pow (sum + pow / (i + 2))

/-- ln x for 1 ≤ x < 2. -/
def lnFix (x : Nat) : Nat :=
  let z := (x - 2 ^ fxK) * 2 ^ fxK / (x + 2 ^ fxK)
  2 * atanhGo (z * z / 2 ^ fxK) 100 1 z z

/-- Alternating series of sine and cosine at 512 bits, from a first term. -/
def trigGo (x2 : Nat) : Nat → Nat → Nat → Bool → Int → Int
  | 0, _, _, _, sum => sum
  | n + 1, i, term, neg, sum =>
    let term := term * x2 / 2 ^ 512 / (i * (i + 1))
    trigGo x2 n (i + 2) term (!neg) (if neg then sum - term else sum + term)

def sinFix (x : Nat) : Int := trigGo (x * x / 2 ^ 512) 70 2 x true x
def cosFix (x : Nat) : Int := trigGo (x * x / 2 ^ 512) 70 1 (2 ^ 512) true (2 ^ 512)

/-! ## The real results of R107, as dyadics (m, e) close beyond their bounds -/

/-- 1/√(m·2^e). -/
def rsqReal (m : Nat) (e : Int) : Int × Int :=
  let odd := e % 2 != 0
  let m' := if odd then 2 * m else m
  let e' := if odd then e - 1 else e
  ((isqrt (2 ^ 700 / m') : Nat), -350 - e' / 2)

/-- 2^x for x = ±m·2^e with |x| below 150. -/
def exp2Real (neg : Bool) (m : Nat) (e : Int) : Int × Int :=
  let x : Int := scaled neg m e (-fxK)
  let n := Int.fdiv x (2 ^ fxK)
  ((expFix ((x - n * 2 ^ fxK).toNat * fxLn2 / 2 ^ fxK) : Nat), n - fxK)

/-- log₂ of m·2^e, m not 0. -/
def log2Real (m : Nat) (e : Int) : Int × Int :=
  let l := Nat.log2 m
  let x := if l ≤ fxK then m * 2 ^ (fxK - l) else m / 2 ^ (l - fxK)
  ((e + l) * 2 ^ fxK + ((lnFix x * 2 ^ fxK / fxLn2 : Nat) : Int), -fxK)

/-- The sine or cosine of ±m·2^e. -/
def trigReal (cosine neg : Bool) (m : Nat) (e : Int) : Int × Int :=
  let x := (m * 2 ^ (e + 512).toNat) % (2 * fxPi512)
  if cosine then (cosFix x, -512) else (if neg then -sinFix x else sinFix x, -512)

/-- tanh of ±m·2^e with magnitude below 9.1. -/
def tanhReal (neg : Bool) (m : Nat) (e : Int) : Int × Int :=
  let t := expFix (m * 2 ^ (e + 1 + fxK).toNat)
  let y : Int := (t - 2 ^ fxK) * 2 ^ fxK / (t + 2 ^ fxK)
  (if neg then -y else y, -fxK)

/-! ## The bounds -/

/-- ulp(y) of R107 for a result near (m, e), as a power of two. -/
def ulpExp (y : Int × Int) : Int := max (y.2 + Nat.log2 y.1.natAbs) (-126) - 23

/-- A value lies within n·2^q of y (with the slop of the computed y, 2^-200 of the bound). -/
def withinDy (v y : Int × Int) (n q : Int) : Bool :=
  let d := dyAdd v (-y.1, y.2)
  !dyLt (dyAdd (n, q) (n, q - 200)) ((d.1.natAbs : Int), d.2)

/-- The pattern of function `fn` for input a whose real result is y: the implementation's where it lies within n·2^q of y,
else y rounded to nearest. -/
def bounded (fn : Nat) (a : Word) (y : Int × Int) (n q : Int) : Nat :=
  let p := (Config.sfu fn a).toNat
  match fmtF32.decode p with
  | .fin neg m e =>
    if withinDy (toDy neg m e) y n q then p else (fmtF32.roundDy .rne false y.1 y.2).1
  | _ => (fmtF32.roundDy .rne false y.1 y.2).1

def f32Nan : Nat := fmtF32.nanPat
def f32Inf (neg : Bool) : Nat := fmtF32.withSign neg fmtF32.infPat
def f32One (neg : Bool) : Nat := fmtF32.withSign neg 0x3F800000

/-- A NaN input gives R67's result in every function (R108). -/
def sfuNan (a : Word) (k : FVal → Nat × BitVec 7) : Nat × BitVec 7 :=
  match fmtF32.nanOf [a.toNat] with
  | some x => x
  | none => k (fmtF32.decode a.toNat)

/-- An inexact result with its flags: NX, and UF where the pattern delivered is tiny, its magnitude below 2^-126 (R68).
(DEDUCED, log entry 109) -/
def inexactFlags (p : Nat) : Nat × BitVec 7 := (p, fNX ||| flagIf (p % 2 ^ 31 < 2 ^ 23) fUF)

/-! ## Values, R106 to R109 -/

def rsqVal (a : Word) : Nat × BitVec 7 :=
  sfuNan a fun
    | .fin neg m e =>
      if m = 0 then (f32Inf neg, fDZ)
      else if neg then (f32Nan, fNV)
      else if m = 2 ^ Nat.log2 m && (e + Nat.log2 m) % 2 == 0 then
        (fmtF32.roundTo .rne false 1 (-((e + Nat.log2 m) / 2)))
      else
        let y := rsqReal m e
        (bounded 1 a y 1 (ulpExp y), fNX)
    | .inf neg => if neg then (f32Nan, fNV) else (0, 0)
    | _ => (f32Nan, 0)

/-- DEDUCED, log entry 109. -/
def exp2Val (a : Word) : Nat × BitVec 7 :=
  sfuNan a fun
    | .fin neg m e =>
      let x := toDy neg m e
      if !dyLt x (128, 0) then (f32Inf false, fOF ||| fNX)
      else if !dyLt (-150, 0) x then (0, fUF ||| fNX)
      else
        let (k, inexact) := roundInt .rtz neg m e
        if !inexact then fmtF32.roundTo .rne false 1 (if neg then -(k : Int) else k)
        else
          let y := exp2Real neg m e
          let p := bounded 3 a y 2 (ulpExp y)
          (p, fNX ||| flagIf (p < 2 ^ 23 || 2 ^ 31 ≤ p) fUF)
    | .inf neg => if neg then (0, 0) else (f32Inf false, 0)
    | _ => (f32Nan, 0)

def log2Val (a : Word) : Nat × BitVec 7 :=
  sfuNan a fun
    | .fin neg m e =>
      if m = 0 then (f32Inf true, fDZ)
      else if neg then (f32Nan, fNV)
      else if m = 2 ^ Nat.log2 m then
        let k := e + Nat.log2 m
        (fmtF32.roundDy .rne false k 0)
      else
        let y := log2Real m e
        let near := !dyLt (toDy false m e) (1, -1) && !dyLt (2, 0) (toDy false m e)
        inexactFlags (if near then bounded 4 a y 1 (-22) else bounded 4 a y 2 (ulpExp y))
    | .inf neg => if neg then (f32Nan, fNV) else (f32Inf false, 0)
    | _ => (f32Nan, 0)

def trigVal (cosine : Bool) (a : Word) : Nat × BitVec 7 :=
  sfuNan a fun
    | .fin neg m e =>
      if m = 0 then (if cosine then f32One false else a.toNat, 0)
      else inexactFlags (bounded (if cosine then 6 else 5) a (trigReal cosine neg m e) 1 (-21))
    | _ => (f32Nan, fNV)

def tanhVal (a : Word) : Nat × BitVec 7 :=
  sfuNan a fun
    | .fin neg m e =>
      if m = 0 then (a.toNat, 0)
      else if dyLt (toDy false m e) (1, -12) then inexactFlags a.toNat
      else if !dyLt (toDy false (10 * m) e) (91, 0) then (f32One neg, fNX)
      else
        let y := tanhReal neg m e
        inexactFlags (bounded 7 a y 2 (ulpExp y))
    | .inf neg => (f32One neg, 0)
    | _ => (f32Nan, 0)

/-- Quotient and remainder of R109, as integers of the type. -/
def divRem (ty : Ty) (sat : Bool) (a b : Int) : Int × Int :=
  if b = 0 then (-1, a)
  else if (ty == .i32 || ty == .i64) && a == tyLow ty && b == -1 then
    (if sat then tyHigh ty else tyLow ty, 0)
  else (Int.tdiv a b, Int.tmod a b)

/-! ## Issue and result, R110 -/

/-- A special-function form: the result of each active thread stands outstanding, and the threads go on. -/
def State.sfu (s : State) (h : Hdr) (imm : Word) (n : Need) (val : Rd → Nat × BitVec 7) : State :=
  s.issue h n fun act s =>
    s.each (hlen h) act fun t s =>
      let x := val (s.rd t imm h.lit)
      let vals := if tyWide h.ty then [BitVec.ofNat 32 x.1, BitVec.ofNat 32 (x.1 / 2 ^ 32)] else [BitVec.ofNat 32 x.1]
      { s with results := s.results ++ [{ thread := t, dst := Operand.vnum h.d, level := (s.thr t).level, vals := vals, flags := x.2 }] }

/-- A one-source f32 function. -/
def State.sfu32 (s : State) (h : Hdr) (imm : Word) (f : Word → Nat × BitVec 7) : State :=
  s.sfu h imm (needA h.ty) fun r => f (r.r32 h.a)

/-- RCP(a) is FDIV(1.0, a). -/
def execRcp (h : Hdr) (imm : Word) (s : State) : Out :=
  .next (s.sfu32 h imm fun a => fmtF32.div h.rnd (f32One false) a.toNat)

def execRsq (h : Hdr) (imm : Word) (s : State) : Out := .next (s.sfu32 h imm rsqVal)

def execSqrt (h : Hdr) (imm : Word) (s : State) : Out :=
  .next (s.sfu h imm (needF1 h.ty) fun r => (vecFmt h.ty).sqrt h.rnd (r.rw (tyWide h.ty) h.a))

def execExp2 (h : Hdr) (imm : Word) (s : State) : Out := .next (s.sfu32 h imm exp2Val)
def execLog2 (h : Hdr) (imm : Word) (s : State) : Out := .next (s.sfu32 h imm log2Val)
def execSin (h : Hdr) (imm : Word) (s : State) : Out := .next (s.sfu32 h imm (trigVal false))
def execCos (h : Hdr) (imm : Word) (s : State) : Out := .next (s.sfu32 h imm (trigVal true))
def execTanh (h : Hdr) (imm : Word) (s : State) : Out := .next (s.sfu32 h imm tanhVal)

def execFdiv (h : Hdr) (imm : Word) (s : State) : Out :=
  .next (s.sfu h imm (needF2 h.ty) fun r =>
    (vecFmt h.ty).div h.rnd (r.rw (tyWide h.ty) h.a) (r.rw (tyWide h.ty) h.b))

/-- The operands of DIV and REM. -/
def divIn (h : Hdr) (r : Rd) : Int × Int :=
  divRem h.ty h.sat (tyVal h.ty (r.rw (tyWide h.ty) h.a)) (tyVal h.ty (r.rw (tyWide h.ty) h.b))

def execDiv (h : Hdr) (imm : Word) (s : State) : Out :=
  .next (s.sfu h imm (needAB h.ty) fun r => (wrap (tyW h.ty) (divIn h r).1, 0))

def execRem (h : Hdr) (imm : Word) (s : State) : Out :=
  .next (s.sfu h imm (needAB h.ty) fun r => (wrap (tyW h.ty) (divIn h r).2, 0))

/-- Registers from n up receive the values in turn. -/
def Thread.setVs (th : Thread) (n : Nat) : List Word → Thread
  | [] => th
  | x :: xs => (th.setV n x).setVs (n + 1) xs

/-- The registers of one level receive the values: a bank that has gone takes nothing (R327). -/
def Thread.setVsAt (th : Thread) (level n : Nat) (vals : List Word) : Thread :=
  { ({ th with level := level }.setVs n vals) with level := th.level }

/-- The i-th outstanding result takes effect at the level at which its instruction issued, with its flags (R110). -/
def State.sfuReturn (s : State) (i : Nat) : State :=
  match s.results[i]? with
  | none => s
  | some r =>
    ({ s with results := s.results.eraseIdx i }.updThr r.thread fun th => th.setVsAt r.level r.dst r.vals).setFlags r.thread r.flags

/-- SFU_RESULT. -/
def execSfuResult (i : Nat) (s : State) : Out := .next (s.sfuReturn i)

end Sys2Proof.Machine
end

