-- ==== Sys2Proof/Machine/Debugger.lean ====
section
/-! DEFINITION. The debugger (R285 to R287, R356): HALT, DEBUG_RESUME, DEBUG_WRITE, DRAIN. -/

namespace Sys2Proof.Machine

/-- The debugger arms breakpoint halts for a launch, or disarms them (R356). (DESIGN CHOICE, log entry 60) -/
def State.arm (s : State) (lid : Nat) (b : Bool) : State := s.updLaunch lid fun l => { l with bkHalt := b }

/-- HALT: the unit `ext.inst` of launch `ext.lid`; `ext.ok` arms breakpoint halts. -/
def execHalt (s : State) : Out :=
  s.powered fun s => (s.haltUnit s.ext.lid s.ext.inst).arm s.ext.lid s.ext.ok

/-- DEBUG_RESUME: the unit's threads go on at their PCs. -/
def execDebugResume (s : State) : Out :=
  s.powered fun s => (s.resumeUnit s.ext.lid s.ext.inst).arm s.ext.lid s.ext.ok

/-- The threads that the debugger reports as "waiting on halted": they wait at a rendezvous point of a unit of which some thread
is halted (R168, R285). -/
def State.waitingOnHalted (s : State) (lid inst : Nat) : List TRef :=
  if ((s.inst lid inst).members.flatMap fun m => s.wgLive lid m).any fun t => (s.thr t).halted then
    (List.range 24).flatMap fun pt => s.waitersAt lid inst pt
  else []

/-- The destination of a thread's waiting POP, with its length. -/
def State.popDst (s : State) (t : TRef) : List (Nat × Nat) :=
  match (s.thr t).wait with
  | .pop q d false _ => [(d, cwRegs (s.queue t.lid t.wg q).cw)]
  | _ => []

/-- A write to a register of a halted thread: 1 PENDING, 2 REFUSED, 3 ACCEPTED. -/
def State.debugOutcome (s : State) (t : TRef) : DbgReg → Nat
  | .v n =>
    if ((s.awaited t) ++ s.popDst t).any fun x => overlaps n 1 x.1 x.2 then 1
    else if n < 128 && allocated (s.thr t).level (s.wave t).c n then 3 else 2
  | .p k => if 1 ≤ k && k ≤ 7 then 3 else 2
  | .s _ => 2

/-- The write itself. -/
def debugSet (th : Thread) (r : DbgReg) (x : Word) : Thread :=
  match r with
  | .v n => th.setV n x
  | .p k => th.setP k (x.getLsbD 0)
  | .s _ => th

/-- DEBUG_WRITE: `ext.word` to register `ext.reg` of the halted thread `ext.thread`. -/
def execDebugWrite (s : State) : Out :=
  s.powered fun s =>
    let t := s.ext.thread
    if !(s.thr t).halted || (tget s.threads t).isNone then s
    else
      let o := s.debugOutcome t s.ext.reg
      let s := { s with dbgOut := o }
      if o = 3 then s.updThr t fun th => debugSet th s.ext.reg s.ext.word else s

/-- The loads of some threads return, one after the other. -/
def State.drainLoads (mine : TRef → Bool) : Nat → State → State
  | 0, s => s
  | n + 1, s =>
    match s.loads.findIdx? fun l => mine l.thread with
    | some i => State.drainLoads mine n (s.loadReturn i)
    | none => s

/-- Their special-function results take effect, one after the other. -/
def State.drainResults (mine : TRef → Bool) : Nat → State → State
  | 0, s => s
  | n + 1, s =>
    match s.results.findIdx? fun r => mine r.thread with
    | some i => State.drainResults mine n (s.sfuReturn i)
    | none => s

/-- DRAIN: every outstanding result of the halted unit `ext.inst` of launch `ext.lid` is written; a POP whose element has come
takes it. (DEDUCED, log entry 106) -/
def execDrain (s : State) : Out :=
  s.powered fun s =>
    let ts := (s.inst s.ext.lid s.ext.inst).members.flatMap fun m => s.wgLive s.ext.lid m
    if !(ts.all fun t => (s.thr t).halted) then s
    else
      let mine (t : TRef) : Bool := ts.contains t
      let s := State.drainLoads mine s.loads.length s
      let s := State.drainResults mine s.results.length s
      (ts.filter fun t => !(s.popDst t).isEmpty).foldl State.queueResume s

end Sys2Proof.Machine
end

