-- ==== Sys2Proof/Machine/Dispatch.lean ====
section
/-! DEFINITION. One arm per constructor of `Instr`: which meaning it calls. -/

namespace Sys2Proof.Machine

open Sys2Proof

def exec (i : Instr) (s : State) : Host.Outcome State Fault Refusal :=
  match i with
  | .add h imm => Sys2Proof.Machine.execAdd h imm s
  | .sub h imm => Sys2Proof.Machine.execSub h imm s
  | .mul h imm => Sys2Proof.Machine.execMul h imm s
  | .mulh h imm => Sys2Proof.Machine.execMulh h imm s
  | .mad h imm => Sys2Proof.Machine.execMad h imm s
  | .min h imm => Sys2Proof.Machine.execMin h imm s
  | .max h imm => Sys2Proof.Machine.execMax h imm s
  | .abs h imm => Sys2Proof.Machine.execAbs h imm s
  | .neg h imm => Sys2Proof.Machine.execNeg h imm s
  | .and h imm => Sys2Proof.Machine.execAnd h imm s
  | .or h imm => Sys2Proof.Machine.execOr h imm s
  | .xor h imm => Sys2Proof.Machine.execXor h imm s
  | .andn h imm => Sys2Proof.Machine.execAndn h imm s
  | .not h imm => Sys2Proof.Machine.execNot h imm s
  | .shl h imm => Sys2Proof.Machine.execShl h imm s
  | .shr h imm => Sys2Proof.Machine.execShr h imm s
  | .sar h imm => Sys2Proof.Machine.execSar h imm s
  | .nopShort f => Sys2Proof.Machine.execNopShort f s
  | .movShort f => Sys2Proof.Machine.execMovShort f s
  | .addShort f => Sys2Proof.Machine.execAddShort f s
  | .subShort f => Sys2Proof.Machine.execSubShort f s
  | .mulShort f => Sys2Proof.Machine.execMulShort f s
  | .mulhI32Short f => Sys2Proof.Machine.execMulhI32Short f s
  | .mulhN32Short f => Sys2Proof.Machine.execMulhN32Short f s
  | .andShort f => Sys2Proof.Machine.execAndShort f s
  | .orShort f => Sys2Proof.Machine.execOrShort f s
  | .xorShort f => Sys2Proof.Machine.execXorShort f s
  | .andnShort f => Sys2Proof.Machine.execAndnShort f s
  | .shlShort f => Sys2Proof.Machine.execShlShort f s
  | .shrShort f => Sys2Proof.Machine.execShrShort f s
  | .sarShort f => Sys2Proof.Machine.execSarShort f s
  | .minI32Short f => Sys2Proof.Machine.execMinI32Short f s
  | .maxI32Short f => Sys2Proof.Machine.execMaxI32Short f s
  | .minN32Short f => Sys2Proof.Machine.execMinN32Short f s
  | .maxN32Short f => Sys2Proof.Machine.execMaxN32Short f s
  | .faddShort f => Sys2Proof.Machine.execFaddShort f s
  | .fsubShort f => Sys2Proof.Machine.execFsubShort f s
  | .fmulShort f => Sys2Proof.Machine.execFmulShort f s
  | .fminShort f => Sys2Proof.Machine.execFminShort f s
  | .fmaxShort f => Sys2Proof.Machine.execFmaxShort f s
  | .addw f => Sys2Proof.Machine.execAddw f s
  | .subw f => Sys2Proof.Machine.execSubw f s
  | .landShort f => Sys2Proof.Machine.execLandShort f s
  | .clz h imm => Sys2Proof.Machine.execClz h imm s
  | .ctz h imm => Sys2Proof.Machine.execCtz h imm s
  | .popc h imm => Sys2Proof.Machine.execPopc h imm s
  | .brev h imm => Sys2Proof.Machine.execBrev h imm s
  | .bfx h imm => Sys2Proof.Machine.execBfx h imm s
  | .bfi h imm => Sys2Proof.Machine.execBfi h imm s
  | .rot h imm => Sys2Proof.Machine.execRot h imm s
  | .prmt h imm => Sys2Proof.Machine.execPrmt h imm s
  | .setp h x => Sys2Proof.Machine.execSetp h x s
  | .sel h ps psn => Sys2Proof.Machine.execSel h ps psn s
  | .plop h x => Sys2Proof.Machine.execPlop h x s
  | .mov h imm => Sys2Proof.Machine.execMov h imm s
  | .li h imm => Sys2Proof.Machine.execLi h imm s
  | .movs h sri => Sys2Proof.Machine.execMovs h sri s
  | .movsWrite h => Sys2Proof.Machine.execMovsWrite h s
  | .movpRead h => Sys2Proof.Machine.execMovpRead h s
  | .movpWrite h mask => Sys2Proof.Machine.execMovpWrite h mask s
  | .lea h sh x => Sys2Proof.Machine.execLea h sh x s
  | .fadd h imm => Sys2Proof.Machine.execFadd h imm s
  | .fsub h imm => Sys2Proof.Machine.execFsub h imm s
  | .fmul h imm => Sys2Proof.Machine.execFmul h imm s
  | .ffma h imm => Sys2Proof.Machine.execFfma h imm s
  | .fmin h imm => Sys2Proof.Machine.execFmin h imm s
  | .fmax h imm => Sys2Proof.Machine.execFmax h imm s
  | .fabs h imm => Sys2Proof.Machine.execFabs h imm s
  | .fneg h imm => Sys2Proof.Machine.execFneg h imm s
  | .fsetp h x => Sys2Proof.Machine.execFsetp h x s
  | .fclass h imm => Sys2Proof.Machine.execFclass h imm s
  | .frint h imm => Sys2Proof.Machine.execFrint h imm s
  | .fscale h imm => Sys2Proof.Machine.execFscale h imm s
  | .cvt h sty epos => Sys2Proof.Machine.execCvt h sty epos s
  | .cvtins h sty epos => Sys2Proof.Machine.execCvtins h sty epos s
  | .rcp h imm => Sys2Proof.Machine.execRcp h imm s
  | .rsq h imm => Sys2Proof.Machine.execRsq h imm s
  | .sqrt h imm => Sys2Proof.Machine.execSqrt h imm s
  | .exp2 h imm => Sys2Proof.Machine.execExp2 h imm s
  | .log2 h imm => Sys2Proof.Machine.execLog2 h imm s
  | .sin h imm => Sys2Proof.Machine.execSin h imm s
  | .cos h imm => Sys2Proof.Machine.execCos h imm s
  | .tanh h imm => Sys2Proof.Machine.execTanh h imm s
  | .fdiv h imm => Sys2Proof.Machine.execFdiv h imm s
  | .div h imm => Sys2Proof.Machine.execDiv h imm s
  | .rem h imm => Sys2Proof.Machine.execRem h imm s
  | .sfuResult n => Sys2Proof.Machine.execSfuResult n s
  | .nop h => Sys2Proof.Machine.execNop h s
  | .land h => Sys2Proof.Machine.execLand h s
  | .br h disp => Sys2Proof.Machine.execBr h disp s
  | .jmpi h => Sys2Proof.Machine.execJmpi h s
  | .call h disp => Sys2Proof.Machine.execCall h disp s
  | .calli h => Sys2Proof.Machine.execCalli h s
  | .ret h => Sys2Proof.Machine.execRet h s
  | .exit h => Sys2Proof.Machine.execExit h s
  | .trap h code => Sys2Proof.Machine.execTrap h code s
  | .hpush h eid many => Sys2Proof.Machine.execHpush h eid many s
  | .hend h => Sys2Proof.Machine.execHend h s
  | .perform h eid => Sys2Proof.Machine.execPerform h eid s
  | .resume h => Sys2Proof.Machine.execResume h s
  | .abort h => Sys2Proof.Machine.execAbort h s
  | .ld h off => Sys2Proof.Machine.execLd h off s
  | .st h off => Sys2Proof.Machine.execSt h off s
  | .loadReturn n => Sys2Proof.Machine.execLoadReturn n s
  | .atomAdd h x => Sys2Proof.Machine.execAtomAdd h x s
  | .atomMin h x => Sys2Proof.Machine.execAtomMin h x s
  | .atomMax h x => Sys2Proof.Machine.execAtomMax h x s
  | .atomAnd h x => Sys2Proof.Machine.execAtomAnd h x s
  | .atomOr h x => Sys2Proof.Machine.execAtomOr h x s
  | .atomXor h x => Sys2Proof.Machine.execAtomXor h x s
  | .atomExch h x => Sys2Proof.Machine.execAtomExch h x s
  | .atomCas h x => Sys2Proof.Machine.execAtomCas h x s
  | .atomFadd h x => Sys2Proof.Machine.execAtomFadd h x s
  | .join h k => Sys2Proof.Machine.execJoin h k s
  | .leave h k => Sys2Proof.Machine.execLeave h k s
  | .waitj h k => Sys2Proof.Machine.execWaitj h k s
  | .brk h klo khi dw => Sys2Proof.Machine.execBrk h klo khi dw s
  | .kmovSet h k => Sys2Proof.Machine.execKmovSet h k s
  | .kmovBallot h k kp pb pbn => Sys2Proof.Machine.execKmovBallot h k kp pb pbn s
  | .kmovRead h k => Sys2Proof.Machine.execKmovRead h k s
  | .shflIdx h k own => Sys2Proof.Machine.execShflIdx h k own s
  | .shflUp h k own => Sys2Proof.Machine.execShflUp h k own s
  | .shflDown h k own => Sys2Proof.Machine.execShflDown h k own s
  | .shflXor h k own => Sys2Proof.Machine.execShflXor h k own s
  | .voteAny h k pv pvn pd => Sys2Proof.Machine.execVoteAny h k pv pvn pd s
  | .voteAll h k pv pvn pd => Sys2Proof.Machine.execVoteAll h k pv pvn pd s
  | .voteBallot h k pv pvn => Sys2Proof.Machine.execVoteBallot h k pv pvn s
  | .redux h k op => Sys2Proof.Machine.execRedux h k op s
  | .reduxSet h set op => Sys2Proof.Machine.execReduxSet h set op s
  | .scan h k op excl => Sys2Proof.Machine.execScan h k op excl s
  | .bcast h k own => Sys2Proof.Machine.execBcast h k own s
  | .bar h ph scp => Sys2Proof.Machine.execBar h ph scp s
  | .sbar h set ph scp => Sys2Proof.Machine.execSbar h set ph scp s
  | .rinit h pt => Sys2Proof.Machine.execRinit h pt s
  | .rarrive h pt ph scp => Sys2Proof.Machine.execRarrive h pt ph scp s
  | .rwait h pt ph scp => Sys2Proof.Machine.execRwait h pt ph scp s
  | .rtest h pt pd => Sys2Proof.Machine.execRtest h pt pd s
  | .watchdogRendezvous lid inst pt => Sys2Proof.Machine.execWatchdogRendezvous lid inst pt s
  | .spawn h dw node => Sys2Proof.Machine.execSpawn h dw node s
  | .fetch h pd => Sys2Proof.Machine.execFetch h pd s
  | .launch h => Sys2Proof.Machine.execLaunch h s
  | .rgive h cnt => Sys2Proof.Machine.execRgive h cnt s
  | .rclaim h cnt => Sys2Proof.Machine.execRclaim h cnt s
  | .rclaimGrant lid wg wave => Sys2Proof.Machine.execRclaimGrant lid wg wave s
  | .resid h self => Sys2Proof.Machine.execResid h self s
  | .residm h => Sys2Proof.Machine.execResidm h s
  | .brkdone h => Sys2Proof.Machine.execBrkdone h s
  | .ldit h => Sys2Proof.Machine.execLdit h s
  | .brkinfo h fld => Sys2Proof.Machine.execBrkinfo h fld s
  | .ldl h off => Sys2Proof.Machine.execLdl h off s
  | .stl h off => Sys2Proof.Machine.execStl h off s
  | .ldc h off => Sys2Proof.Machine.execLdc h off s
  | .stc h off => Sys2Proof.Machine.execStc h off s
  | .ldd h off => Sys2Proof.Machine.execLdd h off s
  | .std h off => Sys2Proof.Machine.execStd h off s
  | .tmov h x => Sys2Proof.Machine.execTmov h x s
  | .tmovDone n => Sys2Proof.Machine.execTmovDone n s
  | .owngive h tk => Sys2Proof.Machine.execOwngive h tk s
  | .owntake h tk w => Sys2Proof.Machine.execOwntake h tk w s
  | .owntakeDrainEnd t => Sys2Proof.Machine.execOwntakeDrainEnd t s
  | .ownshare h => Sys2Proof.Machine.execOwnshare h s
  | .talloc h hn => Sys2Proof.Machine.execTalloc h hn s
  | .tallocGrant t => Sys2Proof.Machine.execTallocGrant t s
  | .tload h hn lv => Sys2Proof.Machine.execTload h hn lv s
  | .tstore h hn lv => Sys2Proof.Machine.execTstore h hn lv s
  | .tileTransferDone n => Sys2Proof.Machine.execTileTransferDone n s
  | .tgive h hn => Sys2Proof.Machine.execTgive h hn s
  | .ttake h hn => Sys2Proof.Machine.execTtake h hn s
  | .tfree h hn => Sys2Proof.Machine.execTfree h hn s
  | .phase h scp => Sys2Proof.Machine.execPhase h scp s
  | .phaseComplete n => Sys2Proof.Machine.execPhaseComplete n s
  | .fence h => Sys2Proof.Machine.execFence h s
  | .qcfg h q => Sys2Proof.Machine.execQcfg h q s
  | .qstat h q => Sys2Proof.Machine.execQstat h q s
  | .push h q => Sys2Proof.Machine.execPush h q s
  | .pop h q => Sys2Proof.Machine.execPop h q s
  | .queueWaitResume t => Sys2Proof.Machine.execQueueWaitResume t s
  | .gnode h => Sys2Proof.Machine.execGnode h s
  | .garm h => Sys2Proof.Machine.execGarm h s
  | .garmSig h => Sys2Proof.Machine.execGarmSig h s
  | .garmFree h => Sys2Proof.Machine.execGarmFree h s
  | .gwait h => Sys2Proof.Machine.execGwait h s
  | .gwaitReturn t => Sys2Proof.Machine.execGwaitReturn t s
  | .gtest h pd => Sys2Proof.Machine.execGtest h pd s
  | .shadowNew h => Sys2Proof.Machine.execShadowNew h s
  | .shadowAddr h => Sys2Proof.Machine.execShadowAddr h s
  | .shadowFree h => Sys2Proof.Machine.execShadowFree h s
  | .publish h => Sys2Proof.Machine.execPublish h s
  | .mloop h x => Sys2Proof.Machine.execMloop h x s
  | .mloopStart lid inst set => Sys2Proof.Machine.execMloopStart lid inst set s
  | .matrixStep die site => Sys2Proof.Machine.execMatrixStep die site s
  | .mzero h hn => Sys2Proof.Machine.execMzero h hn s
  | .mread h x => Sys2Proof.Machine.execMread h x s
  | .mcvt h x => Sys2Proof.Machine.execMcvt h x s
  | .mgate h x => Sys2Proof.Machine.execMgate h x s
  | .mgateDecision lid inst set => Sys2Proof.Machine.execMgateDecision lid inst set s
  | .region h => Sys2Proof.Machine.execRegion h s
  | .trapretFix h => Sys2Proof.Machine.execTrapretFix h s
  | .trapretSkip h => Sys2Proof.Machine.execTrapretSkip h s
  | .trapretRetry h => Sys2Proof.Machine.execTrapretRetry h s
  | .trapretKill h => Sys2Proof.Machine.execTrapretKill h s
  | .rdtrap h => Sys2Proof.Machine.execRdtrap h s
  | .wrtrap h => Sys2Proof.Machine.execWrtrap h s
  | .pgreq h => Sys2Proof.Machine.execPgreq h s
  | .bkpt h code => Sys2Proof.Machine.execBkpt h code s
  | .cntrd h x => Sys2Proof.Machine.execCntrd h x s
  | .cntwr h x => Sys2Proof.Machine.execCntwr h x s
  | .detStep lid => Sys2Proof.Machine.execDetStep lid s
  | .sampleTag die site => Sys2Proof.Machine.execSampleTag die site s
  | .launchDispatchable lid => Sys2Proof.Machine.execLaunchDispatchable lid s
  | .placeUnit die => Sys2Proof.Machine.execPlaceUnit die s
  | .holdTimeExpiry die level => Sys2Proof.Machine.execHoldTimeExpiry die level s
  | .unitStart lid inst => Sys2Proof.Machine.execUnitStart lid inst s
  | .preempt die => Sys2Proof.Machine.execPreempt die s
  | .engineStopAck die k => Sys2Proof.Machine.execEngineStopAck die k s
  | .preemptSave lid inst => Sys2Proof.Machine.execPreemptSave lid inst s
  | .unitRestore lid inst => Sys2Proof.Machine.execUnitRestore lid inst s
  | .contextSwitchOut ctx => Sys2Proof.Machine.execContextSwitchOut ctx s
  | .contextSwitchIn ctx => Sys2Proof.Machine.execContextSwitchIn ctx s
  | .launchEnd lid => Sys2Proof.Machine.execLaunchEnd lid s
  | .turnOpen lid => Sys2Proof.Machine.execTurnOpen lid s
  | .deadlineMiss lid => Sys2Proof.Machine.execDeadlineMiss lid s
  | .contribution n => Sys2Proof.Machine.execContribution n s
  | .iseqAdvance lid => Sys2Proof.Machine.execIseqAdvance lid s
  | .convergenceRecord lid => Sys2Proof.Machine.execConvergenceRecord lid s
  | .signal n => Sys2Proof.Machine.execSignal n s
  | .graphQueueElement lid wg q => Sys2Proof.Machine.execGraphQueueElement lid wg q s
  | .nodeFinish die ctx idx => Sys2Proof.Machine.execNodeFinish die ctx idx s
  | .copy1d die eng => Sys2Proof.Machine.execCopy1d die eng s
  | .copy2d die eng => Sys2Proof.Machine.execCopy2d die eng s
  | .copy3d die eng => Sys2Proof.Machine.execCopy3d die eng s
  | .copyGather die eng => Sys2Proof.Machine.execCopyGather die eng s
  | .copyReduceAdd die eng => Sys2Proof.Machine.execCopyReduceAdd die eng s
  | .copyComplete die eng n => Sys2Proof.Machine.execCopyComplete die eng n s
  | .encodeConfigure die eng => Sys2Proof.Machine.execEncodeConfigure die eng s
  | .encodeFrame die eng => Sys2Proof.Machine.execEncodeFrame die eng s
  | .encodeEndSession die eng => Sys2Proof.Machine.execEncodeEndSession die eng s
  | .encodeComplete die eng => Sys2Proof.Machine.execEncodeComplete die eng s
  | .trapEntry t => Sys2Proof.Machine.execTrapEntry t s
  | .gangRestart lid inst => Sys2Proof.Machine.execGangRestart lid inst s
  | .walkComplete n => Sys2Proof.Machine.execWalkComplete n s
  | .invalidationComplete n => Sys2Proof.Machine.execInvalidationComplete n s
  | .encodingNotInstruction code det0 det1 det2 => Sys2Proof.Machine.execEncodingNotInstruction code det0 det1 det2 s
  | .pickerCycle => Sys2Proof.Machine.execPickerCycle s
  | .softError => Sys2Proof.Machine.execSoftError s
  | .pageTicketComplete => Sys2Proof.Machine.execPageTicketComplete s
  | .inval => Sys2Proof.Machine.execInval s
  | .drvfeat => Sys2Proof.Machine.execDrvfeat s
  | .registerWrite => Sys2Proof.Machine.execRegisterWrite s
  | .submissionWrite => Sys2Proof.Machine.execSubmissionWrite s
  | .latchEntry => Sys2Proof.Machine.execLatchEntry s
  | .tailRescan => Sys2Proof.Machine.execTailRescan s
  | .queueStop => Sys2Proof.Machine.execQueueStop s
  | .launchPacket => Sys2Proof.Machine.execLaunchPacket s
  | .standingStart => Sys2Proof.Machine.execStandingStart s
  | .standingStop => Sys2Proof.Machine.execStandingStop s
  | .inputPost => Sys2Proof.Machine.execInputPost s
  | .pin => Sys2Proof.Machine.execPin s
  | .unpin => Sys2Proof.Machine.execUnpin s
  | .copyPacket => Sys2Proof.Machine.execCopyPacket s
  | .nodeSignal => Sys2Proof.Machine.execNodeSignal s
  | .contextCreate => Sys2Proof.Machine.execContextCreate s
  | .contextDestroy => Sys2Proof.Machine.execContextDestroy s
  | .iterateRead => Sys2Proof.Machine.execIterateRead s
  | .queryAttestation => Sys2Proof.Machine.execQueryAttestation s
  | .queryIdentity => Sys2Proof.Machine.execQueryIdentity s
  | .peerSet => Sys2Proof.Machine.execPeerSet s
  | .xmssTreeRollover => Sys2Proof.Machine.execXmssTreeRollover s
  | .hostMemRead => Sys2Proof.Machine.execHostMemRead s
  | .hostMemWrite => Sys2Proof.Machine.execHostMemWrite s
  | .hostSnoop => Sys2Proof.Machine.execHostSnoop s
  | .peerDataFrame => Sys2Proof.Machine.execPeerDataFrame s
  | .peerAck => Sys2Proof.Machine.execPeerAck s
  | .peerNak => Sys2Proof.Machine.execPeerNak s
  | .peerResendTimeout => Sys2Proof.Machine.execPeerResendTimeout s
  | .flitCrcFail => Sys2Proof.Machine.execFlitCrcFail s
  | .linkFail => Sys2Proof.Machine.execLinkFail s
  | .firmwareUpdate => Sys2Proof.Machine.execFirmwareUpdate s
  | .firmwareRestart => Sys2Proof.Machine.execFirmwareRestart s
  | .coreRetire => Sys2Proof.Machine.execCoreRetire s
  | .dieEvacuate => Sys2Proof.Machine.execDieEvacuate s
  | .hbmPageRetire => Sys2Proof.Machine.execHbmPageRetire s
  | .laneRecalibration => Sys2Proof.Machine.execLaneRecalibration s
  | .clockRecalibration => Sys2Proof.Machine.execClockRecalibration s
  | .powerUp => Sys2Proof.Machine.execPowerUp s
  | .halt => Sys2Proof.Machine.execHalt s
  | .debugResume => Sys2Proof.Machine.execDebugResume s
  | .debugWrite => Sys2Proof.Machine.execDebugWrite s
  | .drain => Sys2Proof.Machine.execDrain s
  | .dieReturn => Sys2Proof.Machine.execDieReturn s
  | .moduleUnpowered => Sys2Proof.Machine.execModuleUnpowered s
  | .unknownPacketType => Sys2Proof.Machine.execUnknownPacketType s

end Sys2Proof.Machine
end

