-- ==== Sys2Proof/Machine/Run.lean ====
section
/-! DEFINITION. What a step of the module takes up next: a formed group with its fetched words (R30, R52, R136), or an event
that the module makes of its own accord. -/

namespace Sys2Proof.Machine

/-! ## A group issues -/

/-- The group's threads that still stand at its instruction, less those that an asynchronous fault takes (R331). -/
def State.beginGroup (s : State) (g : Group) (rest : List Group) : State :=
  let s := { s with issueQ := rest, cur := { g with threads := s.stillIn g } }
  s.takeAsync

/-- The instruction at the group's PC. -/
def State.fetched (s : State) : Instr := s.nextOf (s.cur.threads.headD noRef)

/-- The words that a fault's detail names (R53). -/
def State.latchWords (s : State) : State :=
  let ws := s.fetchWords (s.cur.threads.headD noRef)
  { s with curW0 := ws.getD 0 0, curW1 := ws.getD 1 0 }

/-! ## Events of the module's own -/

/-- Threads whose wait passes a test. -/
def State.waiting (s : State) (p : Wait → Bool) : List TRef := (s.threads.filter fun t => p t.2.wait).map Prod.fst

def Wait.isQueue : Wait → Bool
  | .push .. | .pop .. => true
  | _ => false

def Wait.isGwait : Wait → Bool
  | .gwait .. | .gtest .. => true
  | _ => false

def Wait.isTalloc : Wait → Bool
  | .talloc .. => true
  | _ => false

def Wait.isDrain : Wait → Bool
  | .owntake .. => true
  | _ => false

/-- Packets and queues. -/
def hostEvents : List Instr :=
  [.latchEntry, .tailRescan, .queueStop, .unknownPacketType, .launchPacket, .standingStart, .standingStop, .inputPost, .pin,
   .unpin, .copyPacket, .nodeSignal, .contextCreate, .contextDestroy, .iterateRead, .queryAttestation, .queryIdentity,
   .peerSet, .xmssTreeRollover]

/-- Completions of what threads have begun. -/
def State.threadEvents (s : State) : List Instr :=
  ((s.threads.filter fun t => t.2.trap.isSome).map fun t => .trapEntry t.1) ++
  (List.range s.results.length).map .sfuResult ++ (List.range s.loads.length).map .loadReturn ++
  (List.range s.moves.length).map .tmovDone ++ (List.range s.tileOps.length).map .tileTransferDone ++
  (List.range s.releases.length).map .phaseComplete ++ (List.range s.inval.length).map .invalidationComplete ++
  (List.range ((s.dies.toList.map fun d => d.walks.length).sum)).map .walkComplete ++
  (s.waiting Wait.isQueue).map .queueWaitResume ++ (s.waiting Wait.isGwait).map .gwaitReturn ++
  (s.waiting Wait.isTalloc).map .tallocGrant ++ (s.waiting Wait.isDrain).map .owntakeDrainEnd ++
  (s.wgs.flatMap fun g => g.2.claims.map fun t => .rclaimGrant t.lid t.wg t.wave)

/-- Collectives, watchdogs and starts of units; what becomes of launches. -/
def State.unitEvents (s : State) : List Instr :=
  (s.insts.filter fun x => !x.2.ended).flatMap (fun x =>
    x.2.sets.flatMap (fun k => [.mloopStart x.1.1 x.1.2 k.1, .mgateDecision x.1.1 x.1.2 k.1]) ++
    (List.range 24).map (fun pt => .watchdogRendezvous x.1.1 x.1.2 pt) ++
    [.unitStart x.1.1 x.1.2, .unitRestore x.1.1 x.1.2]) ++
  (s.dies.toList.flatMap fun d => d.stops.filterMap fun r => r.unit.map fun u => .preemptSave u.1 u.2) ++
  (s.insts.filter fun x => x.2.lost).map (fun x => .gangRestart x.1.1 x.1.2) ++
  s.launches.flatMap fun l =>
    [.launchDispatchable l.1, .turnOpen l.1, .deadlineMiss l.1, .iseqAdvance l.1, .convergenceRecord l.1, .launchEnd l.1]

/-- Engines, walkers and queue units of the dies. -/
def State.dieEvents (s : State) : List Instr :=
  (List.range s.contribs.length).map .contribution ++
  (List.range ((s.dies.toList.map fun d => d.signals.length).sum)).map .signal ++
  (s.wgs.flatMap fun g => ((List.range 8).filter fun q => !(vget g.2.q {} q).elems.isEmpty).map fun q =>
    .graphQueueElement g.1.1 g.1.2 q) ++
  s.onlineDies.flatMap fun d =>
    let x := s.die d
    let pushed := s.wgs.any fun g => g.2.die == d && g.2.q.toList.any fun q => !q.elems.isEmpty
    let copy := pushed || x.copyQ.toList.any fun q => !q.isEmpty
    let enc := pushed || x.encQ.toList.any fun q => !q.isEmpty
    (x.nodes.map fun n => .nodeFinish d n.1.1 n.1.2) ++
    (if copy then (List.range 8).flatMap fun e =>
      [.copy1d d e, .copy2d d e, .copy3d d e, .copyGather d e, .copyReduceAdd d e] ++
        (List.range (vget x.copyQ [] e).length).map fun i => .copyComplete d e i else []) ++
    (if enc then (List.range 2).flatMap fun e =>
      [.encodeConfigure d e, .encodeFrame d e, .encodeEndSession d e, .encodeComplete d e] else []) ++
    ((List.range 36).filter fun i => !(s.core d i).loops.isEmpty).map (fun i => .matrixStep d i) ++
    (x.stops.flatMap fun r => r.waiting.map fun k => .engineStopAck d k) ++
    ((List.range 36).filter fun i => (s.core d i).lastGroup.isSome).map (fun i => .sampleTag d i) ++
    [.placeUnit d] ++ (List.range 12).map (fun l => .holdTimeExpiry d l) ++ [.preempt d]

/-- Firmware that has stopped, or is being updated, goes on. -/
def State.firmwareEvents (s : State) : List Instr :=
  (if s.running then [] else [.firmwareRestart]) ++ if s.fwOut.isSome then [.firmwareUpdate] else []

/-- What the module may do of its own accord, with the data of the events that need some. -/
def State.candidates (s : State) : List (Instr × ExtIn) :=
  let own : List Instr := s.firmwareEvents ++ s.threadEvents ++ hostEvents ++ s.unitEvents ++ s.dieEvents ++
    (tkeys s.launches).map Instr.detStep
  s.change.toList ++ own.map fun i => (i, s.ext)

/-- An event with its data changes the state. -/
def State.effective (s : State) (e : Instr × ExtIn) : Bool :=
  let s := { s with ext := e.2 }
  match exec e.1 s with
  | .next s' => s' != s
  | _ => true

/-- The first event that can happen; where there is none, the pickers pick. -/
def State.ownEvent (s : State) : Instr × ExtIn := (s.candidates.find? s.effective).getD (.pickerCycle, s.ext)

/-! ## A state that issues one given instruction -/

/-- A launch of one workgroup of one thread, whose code is the words. -/
def probeLaunch (ws : List Word) : Launch :=
  { ctx := 1, code := ws, hdr := { features := BitVec.allOnes 128, codesz := 4 * ws.length, width := 1, regs := 126 }
    domain := [0], cores := [(0, 0)], dispatchable := true, nextTask := 1 }

def probeRef : TRef := { lid := 1, wg := 0, wave := 0, lane := 0 }

/-- The state with the module up, context 1 and launch 1 in it, and the launch's thread at the first of the words.
(DESIGN CHOICE, log entry 21) -/
def State.probe (s : State) (ws : List Word) : State :=
  let l := probeLaunch ws
  let d0 := 2 ^ 20
  { s with
    power := true
    running := true
    drvfeat := s.devfeat
    contexts := [(1, { key := 1 })]
    nextKey := 2
    nextLid := 2
    launches := [(1, l)]
    insts := [((1, 0), { members := [0] })]
    wgs := [((1, 0), { st := .running, coreBufs := [], pool := 0 })]
    waves := [((1, 0, 0), l.newWave 0)]
    threads := [(probeRef, l.newThread {} (BitVec.ofNat 64 d0))]
    issueQ := [{ threads := [probeRef], level := 0, pc := 0 }] }

end Sys2Proof.Machine
end

