-- ==== Sys2Proof/Machine/Step.lean ====
section
/-! DEFINITION. One step of the module. -/

namespace Sys2Proof.Machine

open Sys2Proof

/-- One step: a formed group issues; else the next event of the agenda happens; else an event of the module's own. Nothing
runs while the module is unpowered, and of what the outside world sends only the power reaches it (R3).
(DESIGN CHOICE, log entries 22 and 23) -/
def step (s : State) : Host.Outcome State Fault Refusal :=
  match s.issueQ with
  | g :: rest =>
    let s := s.beginGroup g rest
    if s.cur.threads.isEmpty then .next s else exec s.fetched s.latchWords
  | [] =>
    match s.agenda with
    | (i, e) :: rest =>
      if s.power || i == .powerUp then exec i { s with agenda := rest, ext := e, cur := {} }
      else .next { s with agenda := rest }
    | [] =>
      if s.power then
        let e := s.ownEvent
        exec e.1 { s with ext := e.2 }
      else .fault .unpowered

/-- The state whose next step fetches and runs the instruction of `nbits` bits w. -/
def State.withFetchWord (s : State) (nbits w : Nat) : State := s.probe (tableWords nbits w)

end Sys2Proof.Machine
end

