-- ==== Sys2Proof/Safety.lean ====
section
/-! DEFINITION. The terms in which claims about the module are stated: when a group stands ready to issue an instruction,
what "nothing else changes" means, and what a sound memory is. -/

namespace Sys2Proof.Machine

/-- The module stops only where it has no power and nothing is to come. -/
def State.mayStop (s : State) : Prop := s.issueQ = [] ∧ s.agenda = [] ∧ s.power = false

/-- The issuing group is a group of the module: its threads are distinct, and each has its record and its wave's. -/
def State.GroupOk (s : State) : Prop :=
  s.cur.threads.Nodup ∧ ∀ t ∈ s.cur.threads, t ∈ tkeys s.threads ∧ (t.lid, t.wg, t.wave) ∈ tkeys s.waves

/-- A long form passes checks 8 to 10 of R52. -/
def State.Admits (s : State) (n : Need) (h : Hdr) : Prop :=
  s.groupFault n = none ∧ s.operandFault n h.d h.a h.b h.c h.lit.isSome (s.active h.pred) = none

/-- A short form passes them. -/
def State.AdmitsShort (s : State) (n : Need) (f : Short) : Prop :=
  s.groupFault n = none ∧ s.operandFault n f.d f.a f.b (.v 0) f.lit.isSome s.cur.threads = none

/-- Threads outside the group are as they were. -/
def SameOthers (s t : State) : Prop := ∀ u, u ∉ s.cur.threads → t.thr u = s.thr u

/-- Two states differ at most in the threads' records: memory, waves, launches and every other register are the same. -/
def SameButThreads (s t : State) : Prop := t = { s with threads := t.threads }

/-- Two states differ at most in the threads' and the waves' records. -/
def SameButWaves (s t : State) : Prop := t = { s with threads := t.threads, waves := t.waves }

/-- The bytes of memory are the same. -/
def SameMemory (s t : State) : Prop := ∀ a, memGet t.mem a = memGet s.mem a

/-- The flags that a list of threads raises, taken together. -/
def orFlags (fl : TRef → BitVec 7) (l : List TRef) : BitVec 7 := l.foldl (fun x u => x ||| fl u) 0

/-- A wave with more flags standing. -/
def Wave.flagged (w : Wave) (fl : BitVec 7) : Wave := { w with fp := w.fp ||| fl }

/-- A wave with flags cleared. -/
def Wave.cleared (w : Wave) (fl : BitVec 7) : Wave := { w with fp := w.fp &&& ~~~fl }

/-- Two threads are of one wave. -/
def sameWave (x u : TRef) : Bool := x.lid == u.lid && x.wg == u.wg && x.wave == u.wave

/-- The effect of a form whose active threads change their own record and may raise flags: each active thread of the group
changes by `upd`, every thread of the group retires, the flags join those of the threads' waves, a wave of which no thread is in
the group is as it was, and nothing else changes. -/
def FormEffect (s t : State) (act : List TRef) (len : Nat) (upd : TRef → Thread → Thread) (fl : TRef → BitVec 7) : Prop :=
  (∀ u ∈ s.cur.threads, t.thr u = (if u ∈ act then upd u (s.thr u) else s.thr u).retire len) ∧ SameOthers s t ∧
    (∀ u ∈ s.cur.threads, t.wave u = (s.wave u).flagged (orFlags fl (act.filter fun x => sameWave x u))) ∧
    (∀ u, (∀ x ∈ s.cur.threads, sameWave x u = false) → t.wave u = s.wave u) ∧ SameButWaves s t

/-- The same of a form whose active threads write D: a value and flags for each. -/
def ValueEffect (s t : State) (act : List TRef) (len : Nat) (wide : Bool) (d : Operand) (val : TRef → Nat × BitVec 7) : Prop :=
  FormEffect s t act len (fun u th => th.setD wide d (val u).1) fun u => (val u).2

/-- The effect of a form that only changes the records of the group's threads, active or not. -/
def ThreadEffect (s t : State) (act : List TRef) (yes no : TRef → Thread → Thread) : Prop :=
  (∀ u ∈ s.cur.threads, t.thr u = (if u ∈ act then yes u else no u) (s.thr u)) ∧ SameOthers s t ∧ SameButThreads s t

/-! ## Conditions under which an instruction goes through -/

/-- Every active thread's access passes the checks of R95, and none waits for a page walk or a reader. -/
def AccessesOk (act : List TRef) (acc : TRef → Acc) : Prop := ∀ t ∈ act, ∃ ls, acc t = .ok ls

/-- No active thread's own outstanding load reads the bytes of its access (R21). -/
def State.LoadsClear (s : State) (act : List TRef) (acc : TRef → Acc) : Prop := ∀ t ∈ act, s.loadBusy t (acc t).locs = false

/-- No active thread has a fault of the instruction's own. -/
def NoneFaults {α : Type} (act : List TRef) (chk : TRef → Option α) : Prop := ∀ t ∈ act, chk t = none

/-- Every active thread may perform its synchronising operation now (R267, R268); outside deterministic operation each may. -/
def State.AllMay (s : State) (act : List TRef) (atom : Bool) : Prop :=
  ∀ t ∈ act, s.detMay (act.filter (· ≠ t)) atom t = true

/-- The turn of every active thread's unit is open (R267). -/
def State.TurnsOpen (s : State) (act : List TRef) : Prop := ∀ t ∈ act, s.turnOpen t.lid t.wg = true

/-- A delivery point has nothing to deliver to the active threads (R316, R342): no result of their waves is outstanding, no
deferred fault waits, and no enabled flag stands. -/
def State.Undisturbed (s : State) (act : List TRef) : Prop :=
  ∀ t ∈ act, (∀ r ∈ s.results, ¬(r.thread.lid = t.lid ∧ r.thread.wg = t.wg ∧ r.thread.wave = t.wave)) ∧
    (s.thr t).deferred = [] ∧ s.enabledFlags t = 0

end Sys2Proof.Machine
end

