-- ==== Sys2Proof/Certificates/Slice0/Obligations.lean ====
section
/-! DEFINITION. The statements for the provers, with the tables of instructions that they range over. -/

namespace Sys2Proof.Claims

open Sys2Proof.Machine

/-! ## Arithmetic forms that write D -/

/-- A long form that writes D: its header, immediate, checks, width of D, and the value and flags that a thread's operands
give. -/
structure ValueArm where
  h : Hdr
  imm : Word
  need : Need
  wide : Bool
  val : Rd → Nat × BitVec 7

/-- The arm's effect, for the group that issues it. -/
def ValueArm.Holds (A : ValueArm) (i : Instr) : Prop :=
  ∀ s : State, s.GroupOk → s.Admits A.need A.h → ∃ t, exec i s = .next t ∧
    ValueEffect s t (s.active A.h.pred) (hlen A.h) A.wide A.h.d fun u => A.val (s.rd u A.imm A.h.lit)

/-- An INT form (R76, R78): x of the operands, as patterns and as values of TYPE; SAT clamps it where the form clamps; the low
bits are written, and no flag is raised. -/
def intArm (h : Hdr) (imm : Word) (n : Need) (clamps : Bool) (x : IntIn → Int) : ValueArm where
  h := h
  imm := imm
  need := n
  wide := tyWide h.ty
  val r :=
    let y := x (intIn h.ty h.a h.b h.c r)
    (wrap (tyW h.ty) (if clamps && h.sat then clampTy h.ty y else y), 0)

/-- The INT class, R78: x of each form. -/
def intArms : Instr → Option ValueArm
  | .add h imm => some (intArm h imm (needAB h.ty) true fun i => i.va + i.vb)
  | .sub h imm => some (intArm h imm (needAB h.ty) true fun i => i.va - i.vb)
  | .mul h imm => some (intArm h imm (needAB h.ty) true fun i => i.va * i.vb)
  | .mulh h imm => some (intArm h imm (needAB h.ty) false fun i => (i.va * i.vb).fdiv (2 ^ i.w))
  | .mad h imm => some (intArm h imm (needABC h.ty) true fun i => i.va * i.vb + i.vc)
  | .min h imm => some (intArm h imm (needAB h.ty) false fun i => min i.va i.vb)
  | .max h imm => some (intArm h imm (needAB h.ty) false fun i => max i.va i.vb)
  | .abs h imm => some (intArm h imm (needA h.ty) true fun i => if i.va < 0 then -i.va else i.va)
  | .neg h imm => some (intArm h imm (needA h.ty) true fun i => -i.va)
  | .and h imm => some (intArm h imm (needAB h.ty) false fun i => ((i.a &&& i.b : Nat) : Int))
  | .or h imm => some (intArm h imm (needAB h.ty) false fun i => ((i.a ||| i.b : Nat) : Int))
  | .xor h imm => some (intArm h imm (needAB h.ty) false fun i => ((i.a ^^^ i.b : Nat) : Int))
  | .andn h imm => some (intArm h imm (needAB h.ty) false fun i => ((i.a &&& (2 ^ i.w - 1 - i.b) : Nat) : Int))
  | .not h imm => some (intArm h imm (needA h.ty) false fun i => ((2 ^ i.w - 1 - i.a : Nat) : Int))
  | .shl h imm => some (intArm h imm (needShift h.ty) false fun i => if i.w ≤ i.s then 0 else ((i.a * 2 ^ i.s : Nat) : Int))
  | .shr h imm => some (intArm h imm (needShift h.ty) false fun i => if i.w ≤ i.s then 0 else ((i.a / 2 ^ i.s : Nat) : Int))
  | .sar h imm => some (intArm h imm (needShift h.ty) false fun i => (signed i.w i.a).fdiv (2 ^ min i.s (i.w - 1)))
  | _ => none

/-- A form on the patterns of its operands, without flags. -/
def bitArm (h : Hdr) (imm : Word) (n : Need) (wide : Bool) (x : Rd → Nat) : ValueArm where
  h := h
  imm := imm
  need := n
  wide := wide
  val r := (x r, 0)

/-- The pattern of A at the width of TYPE. -/
def rdA (h : Hdr) (r : Rd) : Nat := r.rw (tyWide h.ty) h.a
def rdB (h : Hdr) (r : Rd) : Nat := r.rw (tyWide h.ty) h.b
def rdC (h : Hdr) (r : Rd) : Nat := r.rw (tyWide h.ty) h.c

/-- The BIT class, R80 and R81. -/
def bitArms : Instr → Option ValueArm
  | .clz h imm => some (bitArm h imm (needCount h.ty) false fun r => clzN (tyW h.ty) (rdA h r))
  | .ctz h imm => some (bitArm h imm (needCount h.ty) false fun r => ctzN (tyW h.ty) (rdA h r))
  | .popc h imm => some (bitArm h imm (needCount h.ty) false fun r =>
      ((List.range (tyW h.ty)).filter fun i => (rdA h r).testBit i).length)
  | .brev h imm => some (bitArm h imm (needA h.ty) (tyWide h.ty) fun r => brevN (tyW h.ty) (rdA h r))
  | .bfx h imm => some (bitArm h imm (needShift h.ty) (tyWide h.ty) fun r =>
      bfxN (tyW h.ty) (h.ty == .i32 || h.ty == .i64) (rdA h r) (r.r32 h.b).toNat)
  | .bfi h imm => some (bitArm h imm { needAB h.ty with c := .src } (tyWide h.ty) fun r =>
      bfiN (tyW h.ty) (rdA h r) (rdB h r) (r.r32 h.c).toNat)
  | .rot h imm => some (bitArm h imm (needShift h.ty) (tyWide h.ty) fun r => rotN (tyW h.ty) (rdA h r) (r.r32 h.b).toNat)
  | .prmt h imm => some (bitArm h imm (needABC h.ty) false fun r =>
      prmtN (r.r32 h.a).toNat (r.r32 h.b).toNat (r.r32 h.c).toNat)
  | _ => none

/-- Moves, selections and addresses, R84 to R87. -/
def movArms : Instr → Option ValueArm
  | .mov h imm => some (bitArm h imm (needA h.ty) (tyWide h.ty) (rdA h))
  | .li h imm => some (bitArm h imm { d := dstK h.ty, a := .immOnly, imm := true } (tyWide h.ty) fun _ =>
      if h.ty == .i64 then wrap 64 (signed 32 imm.toNat) else imm.toNat)
  | .movpRead h => some (bitArm h 0 { d := .dst } false fun r =>
      (List.range 8).foldl (fun n k => if r.th.getP k then n + 2 ^ k else n) 0)
  | .lea h sh x => some (bitArm h 0 { d := .dstW, a := .srcW, b := .src, c := .src } true fun r =>
      wrap 64 ((r.r64 h.a).toNat +
        (if x then (((r.r32 h.b).toNat : Nat) : Int) else signed 32 (r.r32 h.b).toNat) * 2 ^ sh.toNat + signed 32 (r.r32 h.c).toNat))
  | .sel h ps psn => some (bitArm h 0 { d := dstK h.ty, a := srcK h.ty, b := srcK h.ty } (tyWide h.ty) fun r =>
      r.rw (tyWide h.ty) (if r.th.srcP ps psn then h.a else h.b))
  | _ => none

/-- A float form: value and flags. -/
def fltArm (h : Hdr) (imm : Word) (n : Need) (wide : Bool) (x : Rd → Nat × BitVec 7) : ValueArm where
  h := h
  imm := imm
  need := n
  wide := wide
  val := x

/-- The FLT and CVT classes, R96 to R104, over the arithmetic of the formats (R54 to R67). -/
def fltArms : Instr → Option ValueArm
  | .fadd h imm => some (fltArm h imm (needF2 h.ty) (tyWide h.ty) fun r => (vecFmt h.ty).add h.rnd (rdA h r) (rdB h r))
  | .fsub h imm => some (fltArm h imm (needF2 h.ty) (tyWide h.ty) fun r => (vecFmt h.ty).sub h.rnd (rdA h r) (rdB h r))
  | .fmul h imm => some (fltArm h imm (needF2 h.ty) (tyWide h.ty) fun r => (vecFmt h.ty).mul h.rnd (rdA h r) (rdB h r))
  | .ffma h imm => some (fltArm h imm (needF3 h.ty) (tyWide h.ty) fun r =>
      (vecFmt h.ty).fma h.rnd (rdA h r) (rdB h r) (rdC h r))
  | .fmin h imm => some (fltArm h imm (needF2 h.ty) (tyWide h.ty) fun r => (vecFmt h.ty).minmax false (rdA h r) (rdB h r))
  | .fmax h imm => some (fltArm h imm (needF2 h.ty) (tyWide h.ty) fun r => (vecFmt h.ty).minmax true (rdA h r) (rdB h r))
  | .fabs h imm => some (fltArm h imm (needF1 h.ty) (tyWide h.ty) fun r =>
      (rdA h r % 2 ^ ((vecFmt h.ty).ew + (vecFmt h.ty).fw), 0))
  | .fneg h imm => some (fltArm h imm (needF1 h.ty) (tyWide h.ty) fun r => ((vecFmt h.ty).flipSign (rdA h r), 0))
  | .fclass h imm => some (fltArm h imm { needF1 h.ty with d := .dst } false fun r => ((vecFmt h.ty).fclass (rdA h r), 0))
  | .frint h imm => some (fltArm h imm (needF1 h.ty) (tyWide h.ty) fun r => (vecFmt h.ty).frint h.rnd (rdA h r))
  | .fscale h imm => some (fltArm h imm { needF1 h.ty with b := .src } (tyWide h.ty) fun r =>
      (vecFmt h.ty).fscale h.rnd (rdA h r) (signed 32 (r.r32 h.b).toNat))
  | .cvt h sty e => some (fltArm h 0 { d := dstK h.ty, a := srcK sty, feat := cvtFeat h.ty sty } (tyWide h.ty) fun r =>
      let x := convert sty h.ty h.rnd h.sat (elemOf sty (r.rw (tyWide sty) h.a) e.toNat)
      (placeTy h.ty x.1, x.2))
  | .cvtins h sty e => some (fltArm h 0 { d := .dst, a := srcK sty, feat := cvtFeat h.ty sty } false fun r =>
      let x := convert sty h.ty h.rnd h.sat (elemOf sty (r.rw (tyWide sty) h.a) 0)
      (insertElem h.ty (r.r32 h.d).toNat e.toNat x.1, x.2))
  | _ => none

/-- A short form that writes D: the type that R48 gives it, and the value and flags of its operands. -/
structure ShortArm where
  f : Short
  ty : Ty
  need : Need
  val : Rd → Nat × BitVec 7

def ShortArm.Holds (A : ShortArm) (i : Instr) : Prop :=
  ∀ s : State, s.GroupOk → s.AdmitsShort A.need A.f → ∃ t, exec i s = .next t ∧
    ValueEffect s t s.cur.threads (slen A.f) (tyWide A.ty) A.f.d fun u => A.val (s.rd u 0 A.f.lit)

def intShort (f : Short) (ty : Ty) (n : Need) (x : IntIn → Int) : ShortArm where
  f := f
  ty := ty
  need := { n with imm := false }
  val r := (wrap (tyW ty) (x (intIn ty f.a f.b (.v 0) r)), 0)

def fltShort (f : Short) (x : Nat → Nat → Nat × BitVec 7) : ShortArm where
  f := f
  ty := .f32
  need := { needAB .f32 with imm := false }
  val r := x (r.r32 f.a).toNat (r.r32 f.b).toNat

/-- The short-map forms that write D, R48: each acts as its long form, of the type that the map gives, without a guard, rne, not
saturating. -/
def shortArms : Instr → Option ShortArm
  | .movShort f => some { f := f, ty := .b32, need := { d := .dst, a := .src }, val := fun r => ((r.r32 f.a).toNat, 0) }
  | .addShort f => some (intShort f .i32 (needAB .i32) fun i => i.va + i.vb)
  | .subShort f => some (intShort f .i32 (needAB .i32) fun i => i.va - i.vb)
  | .mulShort f => some (intShort f .i32 (needAB .i32) fun i => i.va * i.vb)
  | .mulhI32Short f => some (intShort f .i32 (needAB .i32) fun i => (i.va * i.vb).fdiv (2 ^ 32))
  | .mulhN32Short f => some (intShort f .n32 (needAB .n32) fun i => (i.va * i.vb).fdiv (2 ^ 32))
  | .andShort f => some (intShort f .b32 (needAB .b32) fun i => ((i.a &&& i.b : Nat) : Int))
  | .orShort f => some (intShort f .b32 (needAB .b32) fun i => ((i.a ||| i.b : Nat) : Int))
  | .xorShort f => some (intShort f .b32 (needAB .b32) fun i => ((i.a ^^^ i.b : Nat) : Int))
  | .andnShort f => some (intShort f .b32 (needAB .b32) fun i => ((i.a &&& (2 ^ 32 - 1 - i.b) : Nat) : Int))
  | .shlShort f => some (intShort f .b32 (needShift .b32) fun i => if 32 ≤ i.s then 0 else ((i.a * 2 ^ i.s : Nat) : Int))
  | .shrShort f => some (intShort f .b32 (needShift .b32) fun i => if 32 ≤ i.s then 0 else ((i.a / 2 ^ i.s : Nat) : Int))
  | .sarShort f => some (intShort f .b32 (needShift .b32) fun i => (signed 32 i.a).fdiv (2 ^ min i.s 31))
  | .minI32Short f => some (intShort f .i32 (needAB .i32) fun i => min i.va i.vb)
  | .maxI32Short f => some (intShort f .i32 (needAB .i32) fun i => max i.va i.vb)
  | .minN32Short f => some (intShort f .n32 (needAB .n32) fun i => min i.va i.vb)
  | .maxN32Short f => some (intShort f .n32 (needAB .n32) fun i => max i.va i.vb)
  | .addw f => some (intShort f .i64 (needAB .i64) fun i => i.va + i.vb)
  | .subw f => some (intShort f .i64 (needAB .i64) fun i => i.va - i.vb)
  | .faddShort f => some (fltShort f (fmtF32.add .rne))
  | .fsubShort f => some (fltShort f (fmtF32.sub .rne))
  | .fmulShort f => some (fltShort f (fmtF32.mul .rne))
  | .fminShort f => some (fltShort f (fmtF32.minmax false))
  | .fmaxShort f => some (fltShort f (fmtF32.minmax true))
  | _ => none

end Sys2Proof.Claims

open Sys2Proof Sys2Proof.Machine Sys2Proof.Claims

/-- R76, R78 (spec/05): an INT form that passes its checks completes; each active thread's D takes the low bits of x, clamped
first where SAT acts; no flag is raised, and nothing else changes but the threads' retirement. -/
def Obligations.IntFormsWriteX : Prop := ∀ i A, intArms i = some A → A.Holds i

/-- R80, R81: the BIT forms, with the same frame. -/
def Obligations.BitFormsWriteTheirValue : Prop := ∀ i A, bitArms i = some A → A.Holds i

/-- R84 to R87: the moves, selections and addresses, with the same frame. -/
def Sys2Proof.Claims.MovFormsWriteTheirValue : Prop := ∀ i A, movArms i = some A → A.Holds i

/-- R96 to R104: the float and conversion forms, with their flags, and the same frame. -/
def Obligations.FloatFormsWriteTheirValueAndFlags : Prop := ∀ i A, fltArms i = some A → A.Holds i

/-- R48: the short forms that write D, with the same frame. -/
def Obligations.ShortFormsActAsTheirLongForms : Prop := ∀ i A, shortArms i = some A → A.Holds i

namespace Sys2Proof.Claims

open Sys2Proof.Machine

/-! ## Predicates, special registers, flags -/

/-- A long form that writes a predicate. -/
structure PredArm where
  h : Hdr
  need : Need
  pd : BitVec 3
  val : Rd → Bool × BitVec 7

/-- Comparisons and predicate logic, R82 to R84 and R101: the relation, combined with the source predicate by BOP. -/
def predArms : Instr → Option PredArm
  | .setp h x => some ⟨h, { a := srcK h.ty, b := srcK h.ty }, x.pd, fun r =>
      (combine x.bop (cndHolds x.cnd (tyVal h.ty (rdA h r)) (tyVal h.ty (rdB h r))) (r.th.srcP x.ps x.psn), 0)⟩
  | .plop h x => some ⟨h, {}, x.pd, fun r => (combine x.bop (r.th.srcP x.ps x.psn) (r.th.srcP x.pt x.ptn), 0)⟩
  | .fsetp h x => some ⟨h, { a := srcK h.ty, b := srcK h.ty, feat := f64Feat h.ty }, x.pd, fun r =>
      let c := (vecFmt h.ty).fsetp x.mask x.sig (rdA h r) (rdB h r)
      (combine x.bop c.1 (r.th.srcP x.ps x.psn), c.2)⟩
  | _ => none

/-! ## Special functions and division, R105 to R110 -/

/-- A form whose results stand outstanding. -/
def sfuArms : Instr → Option ValueArm
  | .rcp h imm => some ⟨h, imm, needA h.ty, false, fun r => fmtF32.div h.rnd 0x3F800000 (r.r32 h.a).toNat⟩
  | .rsq h imm => some ⟨h, imm, needA h.ty, false, fun r => rsqVal (r.r32 h.a)⟩
  | .sqrt h imm => some ⟨h, imm, needF1 h.ty, false, fun r => (vecFmt h.ty).sqrt h.rnd (rdA h r)⟩
  | .exp2 h imm => some ⟨h, imm, needA h.ty, false, fun r => exp2Val (r.r32 h.a)⟩
  | .log2 h imm => some ⟨h, imm, needA h.ty, false, fun r => log2Val (r.r32 h.a)⟩
  | .sin h imm => some ⟨h, imm, needA h.ty, false, fun r => trigVal false (r.r32 h.a)⟩
  | .cos h imm => some ⟨h, imm, needA h.ty, false, fun r => trigVal true (r.r32 h.a)⟩
  | .tanh h imm => some ⟨h, imm, needA h.ty, false, fun r => tanhVal (r.r32 h.a)⟩
  | .fdiv h imm => some ⟨h, imm, needF2 h.ty, false, fun r => (vecFmt h.ty).div h.rnd (rdA h r) (rdB h r)⟩
  | .div h imm => some ⟨h, imm, needAB h.ty, false, fun r =>
      (wrap (tyW h.ty) (divRem h.ty h.sat (tyVal h.ty (rdA h r)) (tyVal h.ty (rdB h r))).1, 0)⟩
  | .rem h imm => some ⟨h, imm, needAB h.ty, false, fun r =>
      (wrap (tyW h.ty) (divRem h.ty h.sat (tyVal h.ty (rdA h r)) (tyVal h.ty (rdB h r))).2, 0)⟩
  | _ => none

/-- The outstanding result of a thread: its registers from D up at the thread's level, and its flags. -/
def resultOf (s : State) (h : Hdr) (u : TRef) (x : Nat × BitVec 7) : Result where
  thread := u
  dst := Operand.vnum h.d
  level := (s.thr u).level
  vals := if tyWide h.ty then [BitVec.ofNat 32 x.1, BitVec.ofNat 32 (x.1 / 2 ^ 32)] else [BitVec.ofNat 32 x.1]
  flags := x.2

/-! ## Memory -/

/-- An atomic form: its header, word 2, and the kind of its field C. -/
structure AtomArm where
  h : Hdr
  x : AtomX
  c : OpKind

def atomArms : Instr → Option AtomArm
  | .atomAdd h x | .atomMin h x | .atomMax h x | .atomAnd h x | .atomOr h x | .atomXor h x | .atomExch h x
  | .atomFadd h x => some ⟨h, x, .unused⟩
  | .atomCas h x => some ⟨h, x, srcK h.ty⟩
  | _ => none

/-- Phase, the release and then the acquire, before an atomic that asks for it, and after it (R18, R92). -/
def withOrder (act : List TRef) (x : AtomX) (k : State → State) (s : State) : State :=
  let s := k (if ordRel x.ord && !act.isEmpty then (s.relAll act x.scp).acqAll act x.scp else s)
  if ordAcq x.ord && !act.isEmpty then (s.relAll act x.scp).acqAll act x.scp else s

/-- The threads of the group retire, and no other thread, no wave, and, where no race reports are armed, no byte of memory changes. -/
def OnlyRetires (s t : State) (len : Nat) : Prop :=
  (∀ u, t.thr u = if u ∈ s.cur.threads then (s.thr u).retire len else s.thr u) ∧ t.waves = s.waves ∧
    (s.racesArmed = false → t.mem = s.mem)

/-- No launch arms race reports, and the thread's keeps no journal. -/
def Plain (s : State) (t : TRef) : Prop :=
  s.racesArmed = false ∧ (s.launchOf t).journalOn = false ∧ (s.launchOf t).journalFull = false

/-- A jump of each active thread: where it goes. -/
def jumpOf (acc : TRef → Option Acc) (target : TRef → Nat) (t : TRef) : Jump where
  t := t
  target := target t
  bits := 0
  acc := acc t

/-- What RET finds at w63 in each of some threads, one after another in slot order: the return target; and the state that the reads
leave. -/
def retReads : List TRef → State → List (TRef × Nat) × State
  | [], s => ([], s)
  | t :: ts, s =>
    let b := s.peek t (s.thr t).sp (s.access t 0 (s.thr t).sp 4 false true).locs
    let r := retReads ts b.2
    ((t, bytesToNat b.1) :: r.1, r.2)

/-- The bytes that an outstanding load shows as it returns: those it holds, or those that the model's read of its pieces gives under
the acquire and the places that it noted at its issue (R255). -/
def loadBytes (s : State) (l : PendLoad) : List Byte :=
  match l.bytes with
  | some b => b
  | none => (s.readPieces (s.stagingFor l.thread.lid l.thread.wg) l.acq (some l.thread)
      { stamp := l.stamp, seq := l.issueSeq, start := l.startSeq } (s.ctxOf l.thread) l.pieces).1

/-- Some bytes are what R255 lets a load show of one sector: the sector as it stood at one place of the order, under the staging as it
stood at one moment, of those that the rows admit for all its bytes. (Each byte is read under the key of its sector; what another key
wrote there reads as a free value.) -/
def Shows (s : State) (l : PendLoad) (locs : List Nat) (bs : List Byte) : Prop :=
  let stg := s.stagingFor l.thread.lid l.thread.wg
  let at_ : At := { stamp := l.stamp, seq := l.issueSeq, start := l.startSeq }
  let es := s.stays stg l.acq l.thread locs
  ∃ place moment c, (place = 0 ∨ ∃ w ∈ s.order, locs.any w.has = true ∧ place = w.seq + 1) ∧
    (moment = none ∨ ∃ m, moment = some m ∧ l.acq.stamp ≤ m) ∧
    (∀ a ∈ locs, s.mayShow es l.acq l.thread l.stamp (s.basePlace l.acq (some l.thread) at_ a) place moment a = true) ∧
    bs = locs.map fun a => ((overlayAt es l.acq l.thread l.stamp moment a).bind fun y => y.e.byteAt a).getD
      (({ s with freeCtr := c } : State).decryptAt place (s.keyFor (s.ctxOf l.thread) a) a)

end Sys2Proof.Claims

/-- R82 to R84, R101: the predicate forms complete; each active thread's PD takes the combined value, a write of p0 is
discarded (R23), and nothing else changes. -/
def Obligations.PredicateFormsWriteTheirPredicate : Prop :=
  ∀ i A, predArms i = some A → ∀ s : State, s.GroupOk → s.Admits A.need A.h → ∃ t, exec i s = .next t ∧
    FormEffect s t (s.active A.h.pred) (hlen A.h) (fun u th => th.setP A.pd.toNat (A.val (s.rd u 0 A.h.lit)).1)
      fun u => (A.val (s.rd u 0 A.h.lit)).2

/-- R26, R27, R87: MOVS reads the special register, its write form clears the flags of %fpflags that A names, and the MOVP
write form sets the predicates that its mask names. -/
def Sys2Proof.Claims.SpecialRegisterMoves : Prop :=
  (∀ h r (s : State), s.GroupOk → s.Admits { d := if sriWide r then .dstW else .dst } h → ∃ t, exec (.movs h r) s = .next t ∧
    FormEffect s t (s.active h.pred) (hlen h) (fun u th => th.setD (sriWide r) h.d (s.special u r)) fun _ => 0) ∧
  (∀ h (s : State), s.GroupOk → s.Admits { a := .src } h → ∃ t, exec (.movsWrite h) s = .next t ∧
    ThreadEffect s { t with waves := s.waves } (s.active h.pred) (fun _ th => th.retire (hlen h)) (fun _ th => th.retire (hlen h)) ∧
    ∀ u ∈ s.cur.threads, t.wave u = (s.wave u).cleared
      (orFlags (fun x => ((s.rd x 0 h.lit).r32 h.a).setWidth 7) ((s.active h.pred).filter fun x => sameWave x u))) ∧
  (∀ h mask (s : State), s.GroupOk → s.Admits { a := .src } h → ∃ t, exec (.movpWrite h mask) s = .next t ∧
    FormEffect s t (s.active h.pred) (hlen h) (fun u th => (List.range 8).foldl (fun th k =>
      if mask.getLsbD k then th.setP k (((s.rd u 0 h.lit).r32 h.a).getLsbD k) else th) th) fun _ => 0)

/-- R106 to R110: a special function or a division completes at issue: the result of each active thread stands outstanding, in
slot order, the threads retire, and nothing else changes. -/
def Obligations.SpecialFunctionsIssue : Prop :=
  ∀ i A, sfuArms i = some A → ∀ s : State, s.GroupOk → s.Admits A.need A.h → ∃ t, exec i s = .next t ∧
    t.results = s.results ++ (s.active A.h.pred).map (fun u => resultOf s A.h u (A.val (s.rd u A.imm A.h.lit))) ∧
    ThreadEffect s { t with results := s.results } s.cur.threads (fun _ th => th.retire (hlen A.h)) fun _ th => th

/-- R110: the i-th outstanding result arrives, of a thread that has not ended: its registers take its values at the level at which it
issued, its flags join the wave's, and it stands outstanding no longer; no other thread and no other wave changes. -/
def Sys2Proof.Claims.SpecialFunctionResultArrives : Prop :=
  ∀ (s : State) (i : Nat) (r : Result), s.results[i]? = some r → r.thread ∈ tkeys s.threads → (s.thr r.thread).ended = false →
    (r.thread.lid, r.thread.wg, r.thread.wave) ∈ tkeys s.waves → ∃ t, exec (.sfuResult i) s = .next t ∧
      t.results = s.results.eraseIdx i ∧ t.thr r.thread = (s.thr r.thread).setVsAt r.level r.dst r.vals ∧
      t.wave r.thread = (s.wave r.thread).flagged r.flags ∧ (∀ u, u ≠ r.thread → t.thr u = s.thr u) ∧
      (∀ u, sameWave r.thread u = false → t.wave u = s.wave u) ∧ SameButWaves { s with results := s.results.eraseIdx i } t

/-- R111, R113: NOP and LAND complete and only advance the PC, in every thread of the group, active or not. -/
def Sys2Proof.Claims.NopAndLandOnlyRetire : Prop :=
  (∀ h (s : State), s.GroupOk → s.Admits {} h → ∃ t, exec (.nop h) s = .next t ∧
    ThreadEffect s t s.cur.threads (fun _ th => th.retire (hlen h)) fun _ th => th) ∧
  (∀ h (s : State), s.GroupOk → s.Admits {} h → ∃ t, exec (.land h) s = .next t ∧
    ThreadEffect s t s.cur.threads (fun _ th => th.retire (hlen h)) fun _ th => th) ∧
  (∀ f (s : State), s.GroupOk → s.AdmitsShort {} f → ∃ t, exec (.nopShort f) s = .next t ∧
    ThreadEffect s t s.cur.threads (fun _ th => th.retire (slen f)) fun _ th => th) ∧
  (∀ f (s : State), s.GroupOk → s.AdmitsShort {} f → ∃ t, exec (.landShort f) s = .next t ∧
    ThreadEffect s t s.cur.threads (fun _ th => th.retire (slen f)) fun _ th => th)

/-- R112, R113, R115: the transfers of control complete. A branch takes each active thread to PC + DISP and the others to the
next instruction; a jump and a call go where A or DISP says, once the target and the stack pass their checks, and no load of the
thread's own is on its way from the bytes of the frame (R21); a call first pushes its frame; a return takes each active thread's
target from its stack, in slot order, and frees the frame. -/
def Sys2Proof.Claims.TransfersGoToTheirTarget : Prop :=
  (∀ h disp (s : State), s.Admits { disps := [disp.toInt] } h → exec (.br h disp) s = .next
    ((s.active h.pred).foldl (fun s t => s.transfer (hlen h) ((s.thr t).pc + disp.toInt).toNat t)
      (s.retireAll (hlen h) (s.inactive h.pred)))) ∧
  (∀ h (s : State), s.Admits { a := .reg } h →
    (∀ t ∈ s.active h.pred, s.targetBits t true ((s.rd t 0 h.lit).r32 h.a).toNat = 0) →
    exec (.jmpi h) s = .next ((s.active h.pred).foldl
      (fun s' t => s'.transfer (hlen h) ((s.rd t 0 h.lit).r32 h.a).toNat t) (s.retireAll (hlen h) (s.inactive h.pred)))) ∧
  (∀ h disp (s : State), s.Admits { disps := [disp.toInt] } h → AccessesOk (s.active h.pred) s.frameAcc →
    s.LoadsClear (s.active h.pred) s.frameAcc → exec (.call h disp) s = .next (((s.active h.pred).map
        (jumpOf (fun t => some (s.frameAcc t)) fun t => ((s.thr t).pc + disp.toInt).toNat)).foldl
      (fun s j => (s.frame j ((s.thr j.t).pc + hlen h)).transfer (hlen h) j.target j.t)
      (s.retireAll (hlen h) (s.inactive h.pred)))) ∧
  (∀ h (s : State), s.Admits { a := .reg } h →
    (∀ t ∈ s.active h.pred, s.targetBits t true ((s.rd t 0 h.lit).r32 h.a).toNat = 0) →
    AccessesOk (s.active h.pred) s.frameAcc → s.LoadsClear (s.active h.pred) s.frameAcc →
    exec (.calli h) s = .next (((s.active h.pred).map
        (jumpOf (fun t => some (s.frameAcc t)) fun t => ((s.rd t 0 h.lit).r32 h.a).toNat)).foldl
      (fun s j => (s.frame j ((s.thr j.t).pc + hlen h)).transfer (hlen h) j.target j.t)
      (s.retireAll (hlen h) (s.inactive h.pred)))) ∧
  (∀ h (s : State), s.Admits {} h → AccessesOk (s.active h.pred) (fun t => s.access t 0 (s.thr t).sp 4 false true) →
    let r := retReads (s.active h.pred) s
    (∀ x ∈ r.1, s.targetBits x.1 false x.2 = 0) → exec (.ret h) s = .next (r.1.foldl (fun s x =>
      ((s.logAccess x.1 0 (s.thr x.1).sp (s.access x.1 0 (s.thr x.1).sp 4 false true).locs).updThr x.1 fun th =>
        th.setSp (th.sp + 16)).transfer (hlen h) x.2 x.1) (r.2.retireAll (hlen h) (s.inactive h.pred))))

/-- R38, R44, R280: a transfer of one thread sets its PC to the target and counts the instruction; the thread's registers and
predicates, its waves, and every other thread are unchanged. -/
def Sys2Proof.Claims.TransferMovesOneThread : Prop :=
  ∀ (s : State) (len target : Nat) (t : TRef), t ∈ tkeys s.threads →
    let a := s.thr t
    let b := (s.transfer len target t).thr t
    b.pc = target ∧ b.icount = a.icount + 1 ∧ b.v = a.v ∧ b.p = a.p ∧ b.bank = a.bank ∧ b.level = a.level ∧
      (∀ u, u ≠ t → (s.transfer len target t).thr u = s.thr u) ∧ (s.transfer len target t).waves = s.waves ∧
      ((s.launchOf t).trace = none → (s.transfer len target t).mem = s.mem)

/-- R111, R112, R114, R331, R336: EXIT ends each active thread, and the others go on; the last threads of an update end where none of
its closings is held for a reader's version (R261, R270). TRAP stops each active thread before the instruction with USER_TRAP and its
code (R111, R112), and the others go on. -/
def Sys2Proof.Claims.ExitEndsAndTrapStops : Prop :=
  (∀ h (s : State), s.Admits {} h → s.Undisturbed (s.active h.pred) →
    (∀ t ∈ s.active h.pred, s.endHeld (s.active h.pred) t = none) → exec (.exit h) s = .next
    (((s.active h.pred).foldl (fun s t => (s.updThr t fun th => { th with icount := th.icount + 1 }).endThread t)
      (s.retireAll (hlen h) (s.inactive h.pred))).settle)) ∧
  (∀ h code (s : State), s.GroupOk → s.Admits {} h → s.active h.pred ≠ [] → ∃ t, exec (.trap h code) s = .next t ∧
    ThreadEffect s t (s.active h.pred)
      (fun _ th => { th with
        trap := some (recOf th (maskOf s.cur.threads (s.active h.pred)) { code := .userTrap, d0 := code.setWidth 32 })
        walkFault := none })
      fun _ th => th.retire (hlen h))

/-- R21, R89 to R91, R251: LD and ST complete when every active thread's access passes R95 and, for a store, no load of the thread's
own is on its way from its bytes; while one is, the group stays as it is. A load stands outstanding for each, a store is
staged for each, in slot order; then the group retires. Nothing else of the threads or the waves changes; no byte of memory does,
but where race reports are armed. -/
def Sys2Proof.Claims.LoadsAndStoresIssue : Prop :=
  (∀ h off (s : State), s.GroupOk → s.Admits { d := dstK h.ty, a := .addr } h →
    AccessesOk (s.active h.pred) (s.memAcc h off 0) → ∃ t, exec (.ld h off) s = .next t ∧
    t = ((s.active h.pred).foldl (fun s t => s.queueLoad h off t) s).retireAll (hlen h) s.cur.threads ∧
    OnlyRetires s t (hlen h)) ∧
  (∀ h off (s : State), s.GroupOk → s.Admits { a := .addr, b := srcK h.ty } h →
    AccessesOk (s.active h.pred) (s.memAcc h off 1) → s.LoadsClear (s.active h.pred) (s.memAcc h off 1) → ∃ t, exec (.st h off) s = .next t ∧
    t = ((s.active h.pred).foldl (fun s t =>
      s.stage t (effAddr (s.rd t 0 h.lit) h.a off) (s.memAcc h off 1 t).locs
        (natToBytes (tyBytes h.ty) ((s.rd t 0 h.lit).rw (tyWide h.ty) h.b))) s).retireAll (hlen h) s.cur.threads ∧
    OnlyRetires s t (hlen h)) ∧
  (∀ h off (s : State), s.Admits { a := .addr, b := srcK h.ty } h → AccessesOk (s.active h.pred) (s.memAcc h off 1) →
    (∃ t ∈ s.active h.pred, s.loadBusy t (s.memAcc h off 1 t).locs = true) → exec (.st h off) s = .next s)

/-- R21, R92, R93: an atomic completes when every access passes, no load of a thread's own is on its way from its bytes, and every
turn has come: PHASE's release and acquire where the form asks for it before, one operation after another in
slot order, PHASE again where the form asks for it after; the active threads retire past a region boundary (R329). (That PHASE's
release and its acquire are both made at either place is the model's reading of R92's Phase(scope), log entry 118: the table of R257
lists the release before and the acquire after.) -/
def Sys2Proof.Claims.AtomicsPerform : Prop :=
  ∀ i A, atomArms i = some A → ∀ s : State,
    s.Admits { d := dstK A.h.ty, a := .addr, b := srcK A.h.ty, c := A.c } A.h →
    AccessesOk (s.active A.h.pred) (s.memAcc A.h A.x.off 2) →
    s.LoadsClear (s.active A.h.pred) (s.memAcc A.h A.x.off 2) → s.AllMay (s.active A.h.pred) true →
    exec i s = .next (
      let act := s.active A.h.pred
      let s := withOrder act A.x (fun s => act.foldl (fun s t => s.atomOne i A.h A.x t) s) s
      ((s.retireAll (hlen A.h) (s.cur.threads.filter fun t => !act.contains t)).retireBoundAll (hlen A.h) act).settle)

/-- R92, R93: an atomic of one thread at the locations that its access passes. D takes the value found there after the staged bytes of its
own workgroup that it touches have entered; the new value stands there after it, but for a CAS that found another value; no byte of
memory outside its locations changes, nor any other thread (a launch that keeps a journal, R273, or reports races, R278, writes its
records besides). -/
def Obligations.AtomicOfOneThread : Prop :=
  ∀ (i : Instr) (h : Hdr) (x : AtomX) (s : State) (t : TRef) ls, t ∈ tkeys s.threads → Plain s t → s.memAcc h x.off 2 t = .ok ls →
    ls.Nodup → ls.length = tyBytes h.ty →
    let old := bytesToNat ((s.carry t.lid t.wg ls).tick.readNow (s.ctxOf t) ls)
    let b := (s.rd t 0 h.lit).rw (tyWide h.ty) h.b
    let c := (s.rd t 0 h.lit).rw (tyWide h.ty) h.c
    let r := s.atomOne i h x t
    r.thr t = (s.thr t).setD (tyWide h.ty) h.d old ∧
      (((∀ h x, i ≠ .atomCas h x) ∨ old = c) →
        ls.map (memGet r.mem) = natToBytes (tyBytes h.ty) (atomVal i h old b c).1) ∧
      (∀ a, a ∉ ls → memGet r.mem a = memGet s.mem a) ∧ ∀ u, u ≠ t → r.thr u = s.thr u

namespace Sys2Proof.Claims

open Sys2Proof.Machine

/-- Every active thread's plan of an instruction is an effect: none waits, none faults. `es` are the effects, and `s'` the state
after the plans were made. -/
def PlansGo (s : State) (act : List TRef) (plan : TRef → State → Plan × State) (es : List (State → State)) (s' : State) : Prop :=
  s.plans plan act = (es.map Plan.go, s')

/-- The effects in slot order, after the threads whose guard is false have retired. -/
def goAll (h : Hdr) (es : List (State → State)) (s : State) : State :=
  es.foldl (fun s e => e s) (s.retireAll (hlen h) (s.inactive h.pred))

/-! ## Collectives at a mask -/

/-- A form that arrives at a mask: its header, mask, checks, and the values it records. -/
structure MaskArm where
  h : Hdr
  k : BitVec 4
  need : Need
  vals : Rd → DWord × DWord

def maskArms : Instr → Option MaskArm
  | .shflIdx h k _ | .shflUp h k _ | .shflDown h k _ | .shflXor h k _ =>
    some ⟨h, k, { d := dstK h.ty, a := srcK h.ty, b := .src }, valsAB h true⟩
  | .voteAny h k pv pvn _ | .voteAll h k pv pvn _ => some ⟨h, k, {}, valsVote pv pvn⟩
  | .voteBallot h k pv pvn => some ⟨h, k, { d := cdstK h.ty }, valsVote pv pvn⟩
  | .redux h k _ => some ⟨h, k, { d := cdstK h.ty, a := srcK h.ty, feat := f64Feat h.ty }, valsAB h false⟩
  | .scan h k _ _ => some ⟨h, k, { d := dstK h.ty, a := srcK h.ty, feat := f64Feat h.ty }, valsAB h false⟩
  | .bcast h k _ => some ⟨h, k, { d := cdstK h.ty, a := srcK h.ty, b := .src }, valsAB h true⟩
  | _ => none

/-- The arrival of a group at mask k (R154): threads that take no part retire; each enrolled thread records its values and
waits; then the masks complete where every enrolled lane has arrived (R155). -/
def arrival (s : State) (k len : Nat) (p : Pred) (i : Instr) (vals : TRef → State → DWord × DWord) : State :=
  let act := s.active p
  let parts := s.cur.threads.filter (s.enrolled k)
  let s := s.retireAll len (s.idleAt k p)
  let s := parts.foldl (fun s t => s.arriveOne k len i act vals t) s
  parts.foldl (fun s t => s.complete t k) s

/-- No thread of the group misuses mask k (R154). -/
def MaskOk (s : State) (k : Nat) (p : Pred) (i : Instr) : Prop := ∀ t ∈ s.cur.threads, s.maskFault k i (s.active p) t = none

/-- The arrival of a group at the collectives of sets, and what follows. -/
def setArrival (s : State) (setOf : TRef → Nat) (len : Nat) (p : Pred) (w : Nat → Wait) (i : Instr)
    (vals : TRef → State → DWord × DWord) : State :=
  let act := s.active p
  let parts := s.cur.threads.filter fun t => s.inSet (setOf t) t
  let s := s.retireAll len ((s.inactive p).filter fun t => !s.inSet (setOf t) t)
  parts.foldl (fun s t => s.arriveSetOne (setOf t) len (w (setOf t)) i act vals t) s

/-- A token names the entry at place i from the top of a handler stack that is held whole: the entry runs, and no copy of its
continuation does (R117, R125). -/
def Names (th : Thread) (k : Word) (i : Nat) (e : HEntry) : Prop :=
  th.deep = [] ∧ th.held.length ≤ 8 ∧ th.held[i]? = some e ∧ k.toNat / 2 ^ 13 % 8 = 0 ∧
    k.toNat / 2 ^ 16 = th.held.length - i ∧ e.gen.toNat = k.toNat % 2 ^ 12 ∧ e.many = k.getLsbD 12 ∧ e.run = true ∧ e.act = false

/-- The capture that RESUME of a MANY token takes up, as it reads after what RESUME has stored by then: the resume record at RR and
its address in the capture; and the same with the segment stored below RR (R127). -/
def captureAfter (s : State) (t : TRef) (len : Nat) (e : HEntry) (img : List Byte) : List Byte × List Byte × List Byte :=
  let RR : Int := ((s.thr t).sp.toNat : Int) - 528
  let rec_ := regBytes (s.thr t) (s.wave t).c ++ List.replicate 3 0 ++ natToBytes 4 ((s.thr t).pc + len) ++ List.replicate 8 0
  let at_ := natToBytes 8 (vaOf RR).toNat
  let img := overlayVa (vaOf e.cap) (overlayVa (vaOf e.cap) img (vaOf RR) rec_) (vaOf (e.cap + 520)) at_
  (rec_, img.drop 528, overlayVa (vaOf e.cap) img (vaOf (RR - e.seg.toNat)) (img.drop 528))

/-- No thread of the group misuses the collective of its set (R154, R162). -/
def SetOk (s : State) (setOf : TRef → Nat) (p : Pred) (i : Instr) : Prop :=
  ∀ t ∈ s.cur.threads, s.setFault (setOf t) i (s.active p) t = none

end Sys2Proof.Claims

/-- R116 to R128: an effect instruction completes when every active thread's plan passes: the effects take place in slot
order. -/
def Obligations.EffectInstructionsTakeEffect : Prop :=
  (∀ h eid many (s s' : State) es,
    s.Admits { a := .litOnly, userOnly := true, feat := if many then some 2 else none, priv := decide (eid.toNat < 0x100)
               handlers := some (h.lit.getD 0) } h →
    PlansGo s (s.active h.pred) (State.planHpush (hlen h) eid many (h.lit.getD 0)) es s' →
    exec (.hpush h eid many) s = .next (goAll h es s')) ∧
  (∀ h (s s' : State) es, s.Admits { userOnly := true } h → PlansGo s (s.active h.pred) (State.planHend (hlen h)) es s' →
    exec (.hend h) s = .next (goAll h es s')) ∧
  (∀ h eid (s s' : State) es, s.Admits { userOnly := true, count := 10 } h →
    PlansGo s (s.active h.pred) (State.planPerform (hlen h) eid) es s' →
    exec (.perform h eid) s = .next ((goAll h es s').resumeAfter (hlen h) s.cur.threads)) ∧
  (∀ h (s s' : State) es, s.Admits { userOnly := true, a := .reg, b := .src } h →
    PlansGo s (s.active h.pred) (State.planResume h) es s' → exec (.resume h) s = .next (goAll h es s')) ∧
  (∀ h (s s' : State) es, s.Admits { userOnly := true, a := .reg, b := .src } h →
    PlansGo s (s.active h.pred) (State.planAbort h) es s' → exec (.abort h) s = .next (goAll h es s'))

/-- R117, R119, R123 to R128: on a handler stack that is held whole, HPUSH pushes an entry with the next generation and takes 32
bytes of stack; HEND pops an entry that is visible and gives back the stack above it, or, in a copy, comes back with the registers
and the PC of the resume record; PERFORM marks the top-most visible entry with the effect id as running, gives v8 its token, and goes
to its HPC with RE at the next instruction, of a MANY handler after it has stored the capture; RESUME with a ONCE token comes back to
the performer, with a MANY token enters a copy of the continuation; ABORT ends the handled scope. What a read of the stack shows is the
model's read under R255. (That the order in which RESUME stores shows in what it reads is the model's reading, log entry 121; that
CopyEnd takes the PC as it stands, log entry 120; HSP and PSP as numbers, log entry 32.) -/
def Obligations.HandlerStackOfOneThread : Prop :=
  (∀ (s : State) (t : TRef) len eid many lit ls, (s.thr t).held.length < 8 →
    s.access t 1 ((s.thr t).sp - 32) 32 false true = .ok ls →
    ∃ e, s.planHpush len eid many lit t = (.go e, s) ∧ ∀ x : State, e x = x.updThr t fun th =>
      { ({ th with gen := (s.thr t).gen + 1 }.setSp ((s.thr t).sp - 32)).restack
          (pushEntry (s.thr t) eid many lit :: th.held) th.deep with pc := th.pc + len, icount := th.icount + 1 }) ∧
  (∀ (s : State) (t : TRef) len a es, (s.thr t).held = a :: es → (s.thr t).deep = [] → a.run = false → visible a es = true →
    ∃ e, s.planHend len t = (.go e, s) ∧ ∀ x : State, e x = x.updThr t fun th =>
      { (th.restack es []).setSp (a.hsp.setWidth 64 + 32) with pc := th.pc + len, icount := th.icount + 1 }) ∧
  (∀ (s : State) (t : TRef) len eid i, (s.thr t).deep = [] → (s.thr t).held.length ≤ 8 →
    findVisible eid (s.thr t).held = some i → ((s.thr t).held.getD i {}).many = false → (s.thr t).sp.toNat % 16 = 0 →
    ∃ e, s.planPerform len eid t = (.go e, s) ∧ ∀ x : State, e x = x.dispatch t len
      ((s.thr t).held.set i { (s.thr t).held.getD i {} with
        run := true, gen := (s.thr t).gen + 1, psp := (s.thr t).sp.setWidth 52, rpc := BitVec.ofNat 20 ((s.thr t).pc + len) })
      i none []) ∧
  (∀ (s : State) (t : TRef) len eid e es ls lp, (s.thr t).deep = [] → (s.thr t).held = e :: es →
    findVisible eid (s.thr t).held = some 0 → e.many = true →
    let P := (s.thr t).sp
    let seg : Int := (e.hsp.toNat : Int) - P.toNat
    let cap := vaOf ((P.toNat : Int) - 528 - seg)
    seg ≤ 4096 → s.stackAccess t 1 cap (528 + seg.toNat) .sp = .ok ls → s.loadBusy t ls = false →
    s.stackAccess t 0 P seg.toNat .sp = .ok lp →
    ∃ f, s.planPerform len eid t = (.go f, (s.peek t P lp).2) ∧ ∀ x : State, x.thr t = s.thr t → f x =
      ((x.logAccess t 0 P lp).stage t cap ls
        (regBytes (x.thr t) (x.wave t).c ++ List.replicate 15 0 ++ (s.peek t P lp).1)).dispatch t len
        ({ e with run := true, gen := (s.thr t).gen + 1, psp := P.setWidth 52, rpc := BitVec.ofNat 20 ((s.thr t).pc + len) } :: es)
        0 (some cap) []) ∧
  (∀ (s : State) (t : TRef) len e es l1 l2, (s.thr t).held = e :: es → e.run = true → e.act = true →
    s.stackAccess t 0 (vaOf (e.cap + 520)) 8 .bytes = .ok l1 →
    let b := s.peek t (vaOf (e.cap + 520)) l1
    let RR := BitVec.ofNat 64 (bytesToNat b.1)
    b.2.stackAccess t 0 RR 520 .bytes = .ok l2 →
    let r := b.2.peek t RR l2
    ∃ f, s.planHend len t = (.go f, r.2) ∧ ∀ x : State, t ∈ tkeys x.threads → (x.thr t).level = 0 → (x.thr t).held = e :: es →
      ((f x).thr t).pc = numAt r.1 516 4 ∧ ((f x).thr t).held = { e with act := false } :: es ∧
      ((f x).thr t).getV 0 = (x.thr t).getV 0 ∧
      (∀ n, 1 ≤ n → n < 128 → ((f x).thr t).getV n = BitVec.ofNat 32 (numAt r.1 (4 * n) 4)) ∧
      ((f x).thr t).p = byteAt r.1 512 ||| 1 ∧ ((f x).thr t).icount = (x.thr t).icount + 1 ∧ ∀ u, u ≠ t → (f x).thr u = x.thr u) ∧
  (∀ (s : State) (t : TRef) h i e, Names (s.thr t) ((s.rd t 0 h.lit).r32 h.a) i e → e.many = false →
    ∃ f, State.planResume h t s = (.go f, s) ∧ ∀ x : State, t ∈ tkeys x.threads →
      ((f x).thr t).pc = e.rpc.toNat ∧ ((f x).thr t).re = (x.thr t).pc + hlen h ∧
      ((f x).thr t).held = ((s.thr t).held.take i).filter (fun y => e.psp.toNat ≤ y.hsp.toNat) ++
        { e with run := false } :: (s.thr t).held.drop (i + 1) ∧ ((f x).thr t).deep = [] ∧
      ((f x).thr t).sp = e.psp.setWidth 64 ∧ ((f x).thr t).getV 0 = (s.rd t 0 h.lit).r32 h.b ∧
      (∀ n, 1 ≤ n → n < 126 → ((f x).thr t).getV n = (x.thr t).getV n) ∧ (∀ k, ((f x).thr t).getP k = (x.thr t).getP k) ∧
      ((f x).thr t).icount = (x.thr t).icount + 1 ∧ ∀ u, u ≠ t → (f x).thr u = x.thr u) ∧
  (∀ (s : State) (t : TRef) h e ls lr lc, Names (s.thr t) ((s.rd t 0 h.lit).r32 h.a) 0 e → e.many = true →
    let n := e.seg.toNat
    let RR : Int := ((s.thr t).sp.toNat : Int) - 528
    s.stackAccess t 1 (vaOf (RR - n)) (528 + n) .sp = .ok ls → s.loadBusy t ls = false →
    s.stackAccess t 1 (vaOf (e.cap + 520)) 8 .bytes = .ok lr → s.loadBusy t lr = false →
    s.stackAccess t 0 (vaOf e.cap) (528 + n) .bytes = .ok lc →
    let img := s.peek t (vaOf e.cap) lc
    ∃ f, State.planResume h t s = (.go f, img.2) ∧ ∀ x : State, x.thr t = s.thr t → x.wave t = s.wave t → f x = (
      let c := captureAfter s t (hlen h) e img.1
      let x := (x.logAccess t 0 (vaOf e.cap) lc).stage t (vaOf RR) (ls.drop n) c.1
      let x := x.stage t (vaOf (e.cap + 520)) lr (natToBytes 8 (vaOf RR).toNat)
      let x := if n = 0 then x else x.stage t (vaOf (RR - n)) (ls.take n) c.2.1
      x.effJump t (hlen h) e.rpc.toNat fun th =>
        { (((th.setRegs c.2.2).setV 0 ((s.rd t 0 h.lit).r32 h.b)).setSp (vaOf (RR - e.seg))) with
          held := { e with act := true } :: (s.thr t).held.drop 1 })) ∧
  (∀ (s : State) (t : TRef) h i e, Names (s.thr t) ((s.rd t 0 h.lit).r32 h.a) i e →
    ∃ f, State.planAbort h t s = (.go f, s) ∧ ∀ x : State, t ∈ tkeys x.threads →
      ((f x).thr t).pc = e.xpc.toNat ∧ ((f x).thr t).re = (x.thr t).pc + hlen h ∧
      ((f x).thr t).held = (s.thr t).held.drop (i + 1) ∧ ((f x).thr t).deep = [] ∧
      ((f x).thr t).sp = e.hsp.setWidth 64 + 32 ∧ ((f x).thr t).getV 0 = (s.rd t 0 h.lit).r32 h.b ∧
      (∀ n, 1 ≤ n → n < 126 → ((f x).thr t).getV n = (x.thr t).getV n) ∧ (∀ k, ((f x).thr t).getP k = (x.thr t).getP k) ∧
      ((f x).thr t).icount = (x.thr t).icount + 1 ∧ ∀ u, u ≠ t → (f x).thr u = x.thr u)

/-- R153, R157, R158: JOIN enrols, LEAVE gives up enrolment and arrival, BRK leaves a range of masks and branches, KMOV writes
and reads masks; a mask completes where its last missing lane has left. -/
def Sys2Proof.Claims.MaskFormsComplete : Prop :=
  (∀ h k (s : State), s.Admits {} h → exec (.join h k) s = .next (s.each (hlen h) (s.active h.pred) fun t s =>
    s.updMask t k.toNat fun m => { m with enr := m.enr ||| laneMask [t.lane] })) ∧
  (∀ h k (s : State), s.Admits {} h → exec (.leave h k) s = .next (s.each (hlen h) (s.active h.pred) fun t s =>
    (s.leaveMask t k.toNat).complete t k.toNat)) ∧
  (∀ h klo khi dw (s : State), s.Admits { disps := [4 * dw.toInt] } h → exec (.brk h klo khi dw) s = .next
    ((s.active h.pred).foldl (fun s t =>
      let s := (maskRange klo khi).foldl (fun s k => s.leaveMask t k) s
      let s := (maskRange klo khi).foldl (fun s k => s.complete t k) s
      s.transfer (hlen h) ((s.thr t).pc + 4 * dw.toInt).toNat t) (s.retireAll (hlen h) (s.inactive h.pred)))) ∧
  (∀ h k (s : State), s.Admits { a := if tyWide h.ty then .sconstW else .sconst } h →
    exec (.kmovSet h k) s = .next (s.each (hlen h) (s.active h.pred) fun t s =>
      (s.updMask t k.toNat fun m => { m with enr := s.lanes t ((s.rd t 0 h.lit).rw (tyWide h.ty) h.a) }).complete t k.toNat)) ∧
  (∀ h k (s : State), s.GroupOk → s.Admits { d := dstK h.ty } h → ∃ t, exec (.kmovRead h k) s = .next t ∧
    FormEffect s t (s.active h.pred) (hlen h) (fun u th => th.setD (tyWide h.ty) h.d (s.mask u k.toNat).enr.toNat) fun _ => 0) ∧
  (∀ h k (s : State), s.Admits {} h → s.Undisturbed (s.active h.pred) → MaskOk s k.toNat h.pred (.waitj h k) →
    exec (.waitj h k) s = .next (arrival s k.toNat (hlen h) h.pred (.waitj h k) fun _ _ => (0, 0))) ∧
  (∀ h k kp pb pbn (s : State), s.Admits {} h → MaskOk s kp.toNat h.pred (.kmovBallot h k kp pb pbn) →
    exec (.kmovBallot h k kp pb pbn) s = .next (arrival s kp.toNat (hlen h) h.pred (.kmovBallot h k kp pb pbn)
      fun t s => (if (s.thr t).srcP pb pbn then 1 else 0, 0)))

/-- R154, R159, R160: the cross-lane forms complete where no thread misuses the mask: each enrolled thread arrives with its values,
and the collective completes with its last arrival. R162: the set reduction likewise over the waves of its set. -/
def Sys2Proof.Claims.CrossLaneFormsArrive : Prop :=
  (∀ i A, maskArms i = some A → ∀ s : State, s.Admits A.need A.h → MaskOk s A.k.toNat A.h.pred i →
    exec i s = .next (arrival s A.k.toNat (hlen A.h) A.h.pred i fun t s => A.vals (s.rd t 0 A.h.lit))) ∧
  (∀ h set op (s : State), s.Admits { d := cdstK h.ty, a := srcK h.ty, feat := f64Feat h.ty } h →
    (∀ t ∈ s.active h.pred, s.setEmpty set.toNat t = false) → SetOk s (fun _ => set.toNat) h.pred (.reduxSet h set op) →
    exec (.reduxSet h set op) s = .next (
      let s := setArrival s (fun _ => set.toNat) (hlen h) h.pred .setRedux (.reduxSet h set op)
        fun t s => valsAB h false (s.rd t 0 h.lit)
      (s.unitsOf s.cur.threads).foldl (fun s u => s.completeSet u.1 u.2 set.toNat) s))

/-- R155, R158, R160: a collective whose every enrolled lane has arrived completes: the mask's record is cleared, each contributor takes
its result and flags in lane order, and every lane that arrived goes on. One of KMOV.ballot gives no thread a result: the mask that it
names is then enrolled as the contributors' ballot says, and nothing has arrived there (that threads which waited at it wait on is the
model's reading, log entry 128; that an s register of BCAST.own keeps the highest lane's value, log entry 134). -/
def Obligations.CollectiveCompletesWithItsLastArrival : Prop :=
  ∀ (s : State) (t : TRef) (k : Nat) (r : CollRec), (s.mask t k).arr ≠ 0 → (s.mask t k).enr &&& ~~~(s.mask t k).arr = 0 →
    (s.mask t k).rec_ = some r →
    (∀ h kd kp pb pbn, r.instr = .kmovBallot h kd kp pb pbn → (t.lid, t.wg, t.wave) ∈ tkeys s.waves →
      (r.vals.map fun x => x.1).Nodup →
      let b := s.complete t k
      (∀ l, l < 64 → (b.mask t kd.toNat).enr.getLsbD l = r.vals.any fun x => x.1 == l && x.2.2.2 && x.2.1 != 0) ∧
      (b.mask t kd.toNat).arr = 0 ∧ (b.mask t kd.toNat).rec_ = none ∧
      (k ≠ kd.toNat → b.mask t k = { s.mask t k with arr := 0, rec_ := none }) ∧
      (∀ j, j ≠ k → j ≠ kd.toNat → b.mask t j = s.mask t j) ∧
      b.threads = ((sortBy (fun (x y : Lane) => x.1 < y.1) r.vals).foldl (fun s x => s.finish { t with lane := x.1 }) s).threads) ∧
    ((∀ h kd kp pb pbn, r.instr ≠ .kmovBallot h kd kp pb pbn) → s.complete t k = (
      let parts := sortBy (fun (a b : Lane) => a.1 < b.1) r.vals
      let c := parts.filter fun x => x.2.2.2
      let lane (x : Lane) : TRef := { t with lane := x.1 }
      let s' := s.updMask t k fun m => { m with arr := 0, rec_ := none }
      parts.foldl (fun s x => s.finish (lane x)) (c.foldl (fun s' x =>
        let y := collRes r.instr (s.launchOf t).hdr.width c x
        (s'.writeRes (lane x) (collDst r.instr).1 (collDst r.instr).2 y.1).setFlags (lane x) y.2) s')))

/-- R164 to R167, R268: barriers and rendezvous points. BAR and SBAR: each active thread waits, and a barrier whose every thread
has arrived completes. RINIT begins a point: one active thread of each unit gives the count (that the threads are counted by unit is
the model's reading, log entry 34), the waits for INIT end, and the arrivals held for it follow; RARRIVE arrives there (or waits for its INIT), RWAIT waits until the parity turns,
RTEST reads whether it has. -/
def Sys2Proof.Claims.BarriersAndRendezvous : Prop :=
  (∀ h ph scp (s : State), s.Admits {} h → s.Undisturbed (s.active h.pred) → s.copying (wgsOf (s.active h.pred)) = false →
    (ph = true → s.AllMay (s.active h.pred) false) → exec (.bar h ph scp) s = .next (
      let act := s.active h.pred
      let s := act.foldl (fun s t => (s.park .bar (hlen h) true t).updWg t.lid t.wg fun g =>
        { g with bar := g.bar ++ [(t, phScope ph scp)] }) (s.retireAll (hlen h) (s.inactive h.pred))
      ((wgsOf act).foldl (fun s g => s.checkBar g.1 g.2) s).settle)) ∧
  (∀ h set ph scp (s : State), s.Admits {} h → (∀ t ∈ s.active h.pred, s.setEmpty set.toNat t = false) →
    s.Undisturbed (s.active h.pred) → (∀ t ∈ s.active h.pred, s.inSet set.toNat t = true) →
    s.copying (wgsOf (s.active h.pred)) = false → (ph = true → s.AllMay (s.active h.pred) false) →
    exec (.sbar h set ph scp) s = .next (
      let act := s.active h.pred
      let s := act.foldl (fun s t => (s.park (.sbar set.toNat) (hlen h) true t).updSet t.lid (s.wgOf t).inst set.toNat fun q =>
        { q with sbar := q.sbar ++ [(t, phScope ph scp)] }) (s.retireAll (hlen h) (s.inactive h.pred))
      ((s.unitsOf act).foldl (fun s u => s.checkSbar u.1 u.2 set.toNat) s).settle)) ∧
  (∀ h pt (s : State), s.Admits { feat := some 8, a := .src } h →
    (∀ t ∈ s.active h.pred, (s.point t pt.toNat).init = false ∧ 1 ≤ ((s.rd t 0 h.lit).r32 h.a).toNat ∧
      ((s.rd t 0 h.lit).r32 h.a).toNat ≤ 4096 ∧
      ((s.active h.pred).filter fun u => u.lid == t.lid && (s.wgOf u).inst == (s.wgOf t).inst).length ≤ 1) →
    exec (.rinit h pt) s = .next (
      let act := s.active h.pred
      let s' := act.foldl (fun s' t =>
        let s' := s'.updPoint t pt.toNat fun p =>
          { p with count := ((s.rd t 0 h.lit).r32 h.a).toNat, init := true, arrived := 0 }
        (s'.wakePoint t pt.toNat).performHeld t pt.toNat) s
      ((s'.retireAll (hlen h) (s'.inactive h.pred)).retireBoundAll (hlen h) act).settle)) ∧
  (∀ h pt ph scp (s : State), s.Admits { feat := some 8, d := .dst } h → (ph = true → s.AllMay (s.active h.pred) false) →
    exec (.rarrive h pt ph scp) s = .next (
      let act := s.active h.pred
      let s := if ph && !act.isEmpty then s.relAll act scp else s
      (act.foldl (fun s t =>
        if (s.point t pt.toNat).init then (s.arrive pt.toNat h.d t).retireBound (hlen h) t
        else s.park (.rarrive pt.toNat h.d) (hlen h) true t) (s.retireAll (hlen h) (s.inactive h.pred))).settle)) ∧
  (∀ h pt ph scp (s : State), s.Admits { feat := some 8, a := .src } h → s.Undisturbed (s.active h.pred) →
    (ph = true → s.AllMay (s.active h.pred) false) → exec (.rwait h pt ph scp) s = .next
      (((s.active h.pred).foldl (fun s t =>
        let par := ((s.rd t 0 h.lit).r32 h.a).getLsbD 0
        let turned := (s.point t pt.toNat).turned par
        let s := s.park (.rwait pt.toNat par ph scp) (hlen h) true t
        if turned then s.rwaitEnd ph scp t else s) (s.retireAll (hlen h) (s.inactive h.pred))).settle)) ∧
  (∀ h pt pd (s : State), s.Admits { feat := some 8, a := .src } h → exec (.rtest h pt pd) s = .next
    ((s.active h.pred).foldl (fun s t =>
      let par := ((s.rd t 0 h.lit).r32 h.a).getLsbD 0
      let turned := (s.point t pt.toNat).turned par
      if (s.launchOf t).det = 2 && !turned then s.park (.rtest pt.toNat par pd.toNat) (hlen h) false t
      else (s.updThr t fun th => th.setP pd.toNat turned).retire (hlen h) t) (s.retireAll (hlen h) (s.inactive h.pred)))) ∧
  (∀ lid inst pt (s : State), s.watchdogDue lid inst pt = true → exec (.watchdogRendezvous lid inst pt) s = .next
    (((s.waitersAt lid inst pt).foldl (fun s' t => (s'.abandonWait t).updThr t fun th =>
      { th with async := some (s.watchdogRec lid inst pt) }) s).updInst lid inst fun x =>
        { x with points := vupd x.points pt fun p => { p with wd := 0 } }))

/-- R165: a barrier's last arrival lets every thread of the workgroup that has not ended go on, clears the arrivals and counts the
generation; before it, nothing happens. -/
def Sys2Proof.Claims.BarrierCompletesWithItsLastArrival : Prop :=
  ∀ (s : State) (lid wg : Nat), (lid, wg) ∈ tkeys s.wgs → (s.wg lid wg).bar ≠ [] → (∀ a ∈ (s.wg lid wg).bar, a.2 = none) →
    ((∀ t ∈ s.wgLive lid wg, t ∈ ((s.wg lid wg).bar).map Prod.fst) →
      ((s.checkBar lid wg).wg lid wg).bar = [] ∧ ((s.checkBar lid wg).wg lid wg).barGen = (s.wg lid wg).barGen + 1 ∧
      ∀ t ∈ s.wgLive lid wg, (s.checkBar lid wg).thr t = (s.thr t).finish) ∧
    ((∃ t ∈ s.wgLive lid wg, t ∉ ((s.wg lid wg).bar).map Prod.fst) → s.checkBar lid wg = s)

namespace Sys2Proof.Claims

open Sys2Proof.Machine

/-- The effects of a form whose every plan is an effect: `pre` once for the group, then each in slot order. -/
def goForm (h : Hdr) (pre : State → State) (es : List (State → State)) (s : State) : State :=
  es.foldl (fun s e => e s) (pre (s.retireAll (hlen h) (s.inactive h.pred)))

/-- The release of a form before its effects (R253): once for the workgroups of its active threads, if there are any. -/
def relMod (act : List TRef) (s : State) : State := if act.isEmpty then s else s.relAll act .module

/-- The forms that give a program's bricks contributions (R202): the release of some of the threads, then each active thread in
slot order, on the program it names. -/
def stdEffect (h : Hdr) (own : Bool) (act rel : List TRef) (eff : TRef → Nat → Prog → State → State) (s : State) : State :=
  (((act.foldl (fun s t => match s.progNamed h own t with
    | some lid => match s.prog lid with
      | some p => eff t lid p s
      | none => s
    | none => s) (relMod rel s)).retireForm h act)).settle

/-- Every active thread's scratch access passes R208 and waits for no copy of its own (R232). -/
def ScratchOk (s : State) (h : Hdr) (off : BitVec 24) (lv : Lvl) (write : Bool) (act : List TRef)
    (at_ : TRef → Place × Nat) : Prop :=
  ∀ t ∈ act, s.scAcc h off lv write t = .ok (at_ t) ∧ s.scBusy t write (at_ t).1 (at_ t).2 (tyBytes h.ty) = false

/-- The level of a scratch load. -/
def scLoads : Instr → Option (Hdr × BitVec 24 × Lvl)
  | .ldl h off => some (h, off, .core)
  | .ldc h off => some (h, off, .cluster)
  | .ldd h off => some (h, off, .die)
  | _ => none

/-- The level of a scratch store. -/
def scStores : Instr → Option (Hdr × BitVec 24 × Lvl)
  | .stl h off => some (h, off, .core)
  | .stc h off => some (h, off, .cluster)
  | .std h off => some (h, off, .die)
  | _ => none

/-- The storage place exists: a workgroup's own bytes, a buffer of a die, or a slot that does not drain. -/
def PlaceLive (s : State) : Place → Prop
  | .core lid wg => (lid, wg) ∈ tkeys s.wgs
  | .slot lid wg k => (lid, wg) ∈ tkeys s.wgs ∧ ∃ x, tget (s.wg lid wg).slots k = some x ∧ x.drain = false
  | .buf die id => die < 24 ∧ id ∈ tkeys (s.die die).bufs

end Sys2Proof.Claims

/-- R181, R183, R185 to R187, R269: the task forms complete. SPAWN releases, makes each active thread's children, and is a region
boundary; FETCH hands out the next tile; LAUNCH, when no page of identity is being written and, under
deterministic operation, its unit's turn is open, submits each active thread's packet; before that turn it waits (the model's reading
of R265, log entry 143); RGIVE returns lines to the pool; RCLAIM takes lines or waits; RCLAIM_GRANT gives a waiting claim its lines. -/
def Sys2Proof.Claims.TaskFormsComplete : Prop :=
  (∀ h dw node (s : State), s.Admits { a := .src, b := .src, c := if node then .src else .unused, disps := [4 * dw.toInt] } h →
    NoneFaults (s.active h.pred) (s.spawnFault h node) → s.AllMay (s.active h.pred) false →
    exec (.spawn h dw node) s = .next
      ((((s.active h.pred).foldl (fun s t => s.spawnOne h dw node t) (relMod (s.active h.pred) s)).retireForm h
        (s.active h.pred)).settle)) ∧
  (∀ h pd (s : State), s.Admits { d := .dstW } h → exec (.fetch h pd) s = .next
    (((s.active h.pred).foldl (fun s t => s.fetchOne h.d pd t) s).retireForm h (s.active h.pred))) ∧
  (∀ h (s s' : State) es, s.idGen.getLsbD 0 = false → s.Admits { d := .dstW, a := .regW } h →
    s.TurnsOpen (s.active h.pred) → PlansGo s (s.active h.pred) (State.planLaunch h) es s' →
    exec (.launch h) s = .next (goForm h (relMod (s.active h.pred)) es s').settle) ∧
  (∀ h (s : State), s.idGen.getLsbD 0 = false → s.Admits { d := .dstW, a := .regW } h →
    ¬s.TurnsOpen (s.active h.pred) → exec (.launch h) s = .next (s.awaitTurn (s.active h.pred)).settle) ∧
  (∀ h cnt (s : State), s.Admits {} h → exec (.rgive h cnt) s = .next
    (((s.active h.pred).foldl (fun s t => s.giveLines (min cnt.toNat 126) t) s).retireForm h (s.active h.pred))) ∧
  (∀ h cnt (s : State), s.Admits {} h → exec (.rclaim h cnt) s = .next
    ((s.active h.pred).foldl (fun s t => s.claimOne (hlen h) (min cnt.toNat 126) t)
      (s.retireAll (hlen h) (s.inactive h.pred)))) ∧
  (∀ lid wg wave (s : State) t k, s.claimDue lid wg wave = some (t, k) → (s.wave t).c < k →
    exec (.rclaimGrant lid wg wave) s = .next (
      let s := s.takeLines k t
      let us := (s.wg lid wg).claims.filter fun u => u.wave == wave && match (s.thr u).wait.claim with
        | some j => j ≤ (s.wave t).c
        | none => true
      us.foldl State.finish (s.updWg lid wg fun g => { g with claims := g.claims.filter fun u => !us.contains u })))

/-- R185: FETCH of one thread. Where a tile is left, D takes its packed position, PD is true, and the launch has handed the tile
out; where none is, PD is false and nothing else of the thread changes, nor does the launch. -/
def Sys2Proof.Claims.FetchHandsOutTheNextTile : Prop :=
  ∀ (s : State) (d : Operand) (pd : BitVec 3) (t : TRef), t ∈ tkeys s.threads → t.lid ∈ tkeys s.launches →
    (∀ x, (s.launchOf t).nextTile t.wg = some x →
      (s.fetchOne d pd t).thr t = ((s.thr t).setD true d ((s.launchOf t).tileWord x)).setP pd.toNat true ∧
      (s.fetchOne d pd t).launchOf t = (s.launchOf t).takeTile t.wg) ∧
    ((s.launchOf t).nextTile t.wg = none →
      (s.fetchOne d pd t).thr t = (s.thr t).setP pd.toNat false ∧ (s.fetchOne d pd t).launchOf t = s.launchOf t) ∧
    (∀ u, u ≠ t → (s.fetchOne d pd t).thr u = s.thr u) ∧ (s.fetchOne d pd t).mem = s.mem

/-- R187: a claim that is met raises the wave's register count to the number asked for, takes the lines from the pool, and gives
every thread of the wave its new registers as zero; the registers it had keep their values. -/
def Sys2Proof.Claims.ClaimedRegistersAreZero : Prop :=
  ∀ (s : State) (k : Nat) (t : TRef), (t.lid, t.wg, t.wave) ∈ tkeys s.waves → (t.lid, t.wg) ∈ tkeys s.wgs →
    (s.wave t).c ≤ k → k ≤ 126 → (s.waveThreads t).Nodup →
    let r := s.takeLines k t
    (r.wave t).c = k ∧ (r.wgOf t).pool = (s.wgOf t).pool - s.linesFor t (k - (s.wave t).c) ∧
      (∀ u ∈ s.waveThreads t, u ∈ tkeys s.threads → ∀ n, n < 128 →
        vget (r.thr u).v 0 n = if (s.wave t).c ≤ n ∧ n < k then 0 else vget (s.thr u).v 0 n) ∧
      (∀ u, u ∉ s.waveThreads t → r.thr u = s.thr u) ∧ r.mem = s.mem

/-- R202 to R205: the forms of standing programs complete. RESID gives a brick a residual, to another
program only once its unit's turn is open (the model's reading of R265, log entry 143), RESIDM every brick of the mortar list,
BRKDONE the outcome of the update's own brick, once, where no reader still selects
the iterate version that it would write over (R261); each releases first and raises the flags of its conversion. (Under deterministic
operation an update's BRKDONE is held until the update ends, R270, and its release comes with it: the model's reading, log entry 138.) LDIT reads the
iterate entry; BRKINFO reads a field of the update's brick. -/
def Sys2Proof.Claims.StandingFormsComplete : Prop :=
  (∀ h self (s : State), s.Admits { a := .src, b := .src, c := if self then .unused else .src, feat := some 9 } h →
    NoneFaults (s.active h.pred) (s.stdFault h self fun p t =>
      if (p.brick? ((s.rd t 0 h.lit).r32 h.a).toNat).isNone then some (brickFlt ((s.rd t 0 h.lit).r32 h.a) 1) else none) →
    (self = true ∨ s.TurnsOpen (s.active h.pred)) → exec (.resid h self) s = .next (stdEffect h self (s.active h.pred) (s.active h.pred) (fun t lid p s =>
      let m := p.mag h.ty ((s.rd t 0 h.lit).r32 h.b)
      (s.contribute t { prog := lid, brick := ((s.rd t 0 h.lit).r32 h.a).toNat, m := m.1 }).setFlags t m.2) s)) ∧
  (∀ h (s : State), s.Admits { b := .src, feat := some 9 } h →
    NoneFaults (s.active h.pred) (s.stdFault h true fun _ _ => none) →
    exec (.residm h) s = .next (stdEffect h true (s.active h.pred) (s.active h.pred) (fun t lid p s =>
      let m := p.mag h.ty ((s.rd t 0 h.lit).r32 h.b)
      ((p.mortarList ((s.wgOf t).brick.getD 0)).foldl (fun s id =>
        s.contribute t { prog := lid, brick := id.toNat, m := m.1 }) s).setFlags t m.2) s)) ∧
  (∀ h (s : State), s.Admits { a := .src, feat := some 9 } h →
    NoneFaults (s.active h.pred) (s.stdFault h true fun p t =>
      if (match p.brick? ((s.wgOf t).brick.getD 0) with
          | some b => b.st == 2
          | none => false) && !(s.wgOf t).brkDone && (before (s.active h.pred) t).isEmpty
      then none else some (brickFlt (w32 ((s.wgOf t).brick.getD 0)) 3)) →
    let late := fun t => (s.launchOf t).det ≠ 0 && (s.wgOf t).brick.isSome
    (∀ t ∈ s.active h.pred, late t = true ∨ s.slotHeld none t.lid ((s.wgOf t).brick.getD 0) = none) →
    exec (.brkdone h) s = .next (stdEffect h true (s.active h.pred) ((s.active h.pred).filter fun t => !late t) (fun t lid p s =>
      let y := p.mag h.ty ((s.rd t 0 h.lit).r32 h.a)
      ((s.contribute t { prog := lid, brick := (s.wgOf t).brick.getD 0, m := y.1, kind := .done }).updWg t.lid t.wg fun g =>
        { g with brkDone := true }).setFlags t y.2) s)) ∧
  (∀ h (s s' : State) es, s.Admits { d := .dstN 6, a := .src, b := .src, feat := some 9 } h →
    PlansGo s (s.active h.pred) (State.planLdit h) es s' → exec (.ldit h) s = .next (goForm h id es s')) ∧
  (∀ h fld (s : State), s.GroupOk → s.Admits { d := .dstW, feat := some 9 } h →
    (∀ t ∈ s.active h.pred, (s.wgOf t).brick ≠ none) → ∃ t, exec (.brkinfo h fld) s = .next t ∧
      FormEffect s t (s.active h.pred) (hlen h) (fun u th => th.setD true h.d (s.brkField u fld)) fun _ => 0)

/-- R208, R230, R231: a scratch load or store completes when every active thread's access passes R208 and no copy of its own
overlaps. A load has its bytes read and stands outstanding for each thread; a store writes its bytes; the group retires, and
memory is unchanged. -/
def Sys2Proof.Claims.ScratchLoadsAndStores : Prop :=
  (∀ i h off lv, scLoads i = some (h, off, lv) → ∀ (s : State) at_, s.GroupOk → s.Admits { d := dstK h.ty, a := .addr } h →
    ScratchOk s h off lv false (s.active h.pred) at_ → ∃ t, ∃ bytes : TRef → List Byte, exec i s = .next t ∧
      t.loads = s.loads ++ (s.active h.pred).map (fun u =>
        { thread := u, dst := Operand.vnum h.d, ty := h.ty, level := (s.thr u).level, bytes := some (bytes u) }) ∧
      (∀ u ∈ s.active h.pred, (bytes u).length = tyBytes h.ty ∧ ∃ k, bytes u =
        ({ s with freeCtr := k } : State).scRead (at_ u).1 (at_ u).2 (tyBytes h.ty)) ∧
      t.mem = s.mem ∧ t.wgs = s.wgs ∧ t.dies = s.dies ∧ t.waves = s.waves ∧
      ∀ u, t.thr u = if u ∈ s.cur.threads then (s.thr u).retire (hlen h) else s.thr u) ∧
  (∀ i h off lv, scStores i = some (h, off, lv) → ∀ (s : State) at_, s.GroupOk → s.Admits { a := .addr, b := srcK h.ty } h →
    ScratchOk s h off lv true (s.active h.pred) at_ → exec i s = .next (((s.active h.pred).foldl (fun s' t =>
      s'.scWrite (at_ t).1 (at_ t).2 (natToBytes (tyBytes h.ty) ((s.rd t 0 h.lit).rw (tyWide h.ty) h.b))) s).retireAll
        (hlen h) s.cur.threads))

/-- R209, R231: bytes stored at a place of scratch that exists read back; every other byte of the place, every other place, and
memory are unchanged. -/
def Obligations.ScratchReadsBackWhatWasStored : Prop :=
  ∀ (s : State) (p q : Place) (off n o : Nat) (bs : List Byte), PlaceLive s p →
    ((s.scWrite p off bs).scRead p off bs.length = bs) ∧
    (∀ m, (o + m ≤ off ∨ off + bs.length ≤ o) → (s.scWrite p off bs).scRead p o m = s.scRead p o m) ∧
    (q ≠ p → (s.scWrite p off bs).scRead q o n = s.scRead q o n) ∧
    (s.scWrite p off bs).mem = s.mem ∧ (s.scWrite p off bs).threads = s.threads ∧ (s.scWrite p off bs).waves = s.waves

/-- R232: a TMOV completes when every active thread's copy passes its checks and none of them waits for an earlier copy of its
thread: the copies run on, in slot order, and the group retires. TMOV_DONE: a copy that runs reads all its bytes, then writes
them, and runs no longer; a SHARED buffer that it was the last to read, and whose holder has ended, is FREE (R213). -/
def Sys2Proof.Claims.ScratchCopies : Prop :=
  (∀ h x (s : State) mv, s.GroupOk → s.Admits { a := .addr, b := .addr, c := .src } h →
    (∀ t ∈ s.active h.pred, s.tmovOf h x t = .ok (mv t) ∧ s.moveBusy (mv t) = false) →
    ∃ t, exec (.tmov h x) s = .next t ∧ t.moves = s.moves ++ (s.active h.pred).map mv ∧
      ThreadEffect s { t with moves := s.moves } s.cur.threads (fun _ th => th.retire (hlen h)) fun _ th => th) ∧
  (∀ i (s : State) m, s.moves[i]? = some m →
    exec (.tmovDone i) s = .next ((({ s with moves := s.moves.eraseIdx i }).doMove m).freeSource m))

namespace Sys2Proof.Claims

open Sys2Proof.Machine

/-- Every active thread's transfer takes effect, one after another in slot order (R236): none waits, none faults. -/
def OwnGoes (len : Nat) (act1 : TRef → State → OwnRes) : List TRef → State → State → Prop
  | [], s, r => r = s
  | t :: ts, s, r => ∃ s1, act1 t s = .done s1 ∧ OwnGoes len act1 ts (s1.retireBound len t) r

/-- The state in which the transfers of a group begin: threads whose guard is false have retired, and the release is done. -/
def ownBegin (h : Hdr) (rel : Bool) (s : State) : State :=
  let s' := s.retireAll (hlen h) (s.inactive h.pred)
  if rel && !(s.active h.pred).isEmpty then s'.relAll (s.active h.pred) .die else s'

/-- No copy runs on in a buffer that an active thread names in A. -/
def NoCopies (s : State) (h : Hdr) : Prop :=
  ∀ t ∈ s.active h.pred, s.bufBusy t ((s.rd t 0 h.lit).r32 h.a).toNat = false

/-- Every active thread's buffer A exists for it. -/
def BufNamed (s : State) (h : Hdr) : Prop := ∀ t ∈ s.active h.pred, s.ownNamed t ((s.rd t 0 h.lit).r32 h.a).toNat = none

/-- The checks of a tile form pass, thread after thread in slot order (R238). -/
def TilOk (s : State) (h : Hdr) (chk : TRef → State → Except (Nat × Flt) State) : Prop :=
  s.Undisturbed (s.active h.pred) ∧ checkRun chk (s.active h.pred) s = []

/-- The state after the threads whose guard is false have retired. -/
def idled (h : Hdr) (s : State) : State := s.retireAll (hlen h) (s.inactive h.pred)

end Sys2Proof.Claims

/-- R215, R234 to R236: the ownership forms complete when every active thread's buffer exists, no copy runs on in it, every thread
may perform its operation (a transfer that reaches beyond the unit only once the unit's turn is open: the model's reading of R265, log
entry 143), and each transfer takes effect in its turn: the release, then the transfers in slot order, each a
region boundary; then the waiting takers that a transfer has released rejoin (R268). OWNTAKE_DRAIN_END: a reclaim whose reads have
returned takes the buffer, acquires, and goes on. -/
def Sys2Proof.Claims.OwnershipFormsComplete : Prop :=
  (∀ h tk (s r : State), s.Admits { a := .src, b := .src } h →
    NoneFaults (s.active h.pred) (fun t => s.giveFault h tk t) → NoCopies s h →
    s.AllMay (s.active h.pred) ((s.active h.pred).any fun t => s.giveOut h tk t) →
    OwnGoes (hlen h) (fun t s => s.giveOne h tk t) (s.active h.pred) (ownBegin h true s) r →
    exec (.owngive h tk) s = .next r.rejoinTakers.settle) ∧
  (∀ h (s r : State), s.Admits { a := .src } h → BufNamed s h → NoCopies s h →
    s.AllMay (s.active h.pred) ((s.active h.pred).any fun t => s.shareOut h t) →
    OwnGoes (hlen h) (fun t s => s.shareOne h t) (s.active h.pred) (ownBegin h true s) r →
    exec (.ownshare h) s = .next r.rejoinTakers.settle) ∧
  (∀ h tk w (s r : State), s.Admits { a := .src } h → BufNamed s h → s.AllMay (s.active h.pred) false →
    OwnGoes (hlen h) (fun t s => s.takeOne h tk w t) (s.active h.pred) (ownBegin h false s) r →
    exec (.owntake h tk w) s = .next r.rejoinTakers.settle) ∧
  (∀ t (s : State) id tk, s.drained t = some (id, tk) → exec (.owntakeDrainEnd t) s = .next
    (((s.updOwnBuf t id fun b => b.taken t.lid (s.issuer t tk)).acquire t.lid t.wg .die).finish t).rejoinTakers)

/-- R212, R213, R236, R382: what a transfer of one thread does to a buffer of its die. OWNGIVE of a buffer that the issuer holds
leaves it GIVEN to the target, HELD by a matrix engine, or FREE when the target has ended; OWNSHARE leaves it SHARED; OWNTAKE of a
buffer GIVEN to the issuer leaves it HELD by it. No other buffer changes. -/
def Sys2Proof.Claims.TransfersMoveTheBuffer : Prop :=
  ∀ (s : State) (h : Hdr) (t : TRef) (b : Buffer), let id := ((s.rd t 0 h.lit).r32 h.a).toNat
    s.bufNamed (s.wgOf t).die (s.ctxOf t) id = some b → b.lvl ≠ .core → (s.wgOf t).die < 24 →
    (∀ tk tg, s.ownTarget t tk ((s.rd t 0 h.lit).r32 h.b).toNat = some tg → b.st = .held → s.holds t b = true →
      ∃ r, s.giveOne h tk t = .done r ∧ r.ownBuf t id = some (s.given t tg b) ∧ (∀ k, k ≠ id → r.ownBuf t k = s.ownBuf t k)) ∧
    (b.st = .held → s.holds t b = true → ∃ r, s.shareOne h t = .done r ∧
      (r.ownBuf t id).map (fun b => (b.st, b.shLid)) = some (.shared, t.lid) ∧ (∀ k, k ≠ id → r.ownBuf t k = s.ownBuf t k)) ∧
    (∀ w, b.st = .given → b.target = .wg t.lid t.wg → ∃ r, s.takeOne h .workgroup w t = .done r ∧
      r.ownBuf t id = some (b.taken t.lid (.wg t.lid t.wg)) ∧ (∀ k, k ≠ id → r.ownBuf t k = s.ownBuf t k)) ∧
    (b.st = .free → s.mayTake t b = false → ∀ tk w, s.takeOne h tk w t = .fault (ownFlt .ownership id 0))

/-- R222 to R226, R237 to R239: the tile forms complete when nothing is delivered, every thread passes its checks, and nothing that
it must come after is pending. TALLOC binds the handle to a free slot (the lowest: the model's choice, log entry 129) or waits for one; TLOAD and TSTORE put a transfer
in the slot's queue and retire; TILE_TRANSFER_DONE moves its bytes; TGIVE, TTAKE and TFREE change the handle, and a TTAKE that waits for
it goes on at once, or stops, with each change (R224). -/
def Sys2Proof.Claims.TileFormsComplete : Prop :=
  (∀ h (hn : BitVec 6) (s : State), s.Admits { a := .src } h → TilOk s h (State.tallocChk h hn.toNat) →
    exec (.talloc h hn) s = .next ((s.active h.pred).foldl (fun s t => match (s.wgOf t).freeSlot with
      | some k => (s.bind t hn.toNat (s.tallocShape h t) k).retireBound (hlen h) t
      | none => s.park (.talloc hn.toNat (s.tallocShape h t)) (hlen h) true t) (idled h s))) ∧
  (∀ t (s : State) h shape k, s.tallocDue t = some (h, shape, k) → (s.handle t.lid t.wg h).st = .dead →
    exec (.tallocGrant t) s = .next ((s.bind t h shape k).finish t)) ∧
  (∀ i h (hn : BitVec 6) lv load, i = .tload h hn lv ∧ load = true ∨ i = .tstore h hn lv ∧ load = false →
    ∀ s : State, s.Admits { a := .addr, b := .src } h → s.Undisturbed (s.active h.pred) →
    (∀ t ∈ s.active h.pred, ∃ m, s.tileMove h hn.toNat lv load t = .ok m ∧
      (if load then s.scBusy t false m.src m.sOff (spanOf m.rlen m.rows m.sPitch)
       else s.scBusy t true m.dst m.dOff (spanOf m.rlen m.rows m.dPitch)) = false) →
    exec i s = .next ((s.active h.pred).foldl (fun s t => match s.tileMove h hn.toNat lv load t with
      | .error _ => s
      | .ok m =>
        let s := s.tick
        let op : TileOp :=
          { load := load, h := hn.toNat, slot := (s.handle t.lid t.wg hn.toNat).slot, mv := m, stamp := s.stamp }
        (({ s with tileOps := s.tileOps ++ [(t.lid, t.wg, op)] }).refresh t.lid t.wg hn.toNat).retire (hlen h) t)
      (idled h s))) ∧
  (∀ i (s : State) lid wg op, s.tileOps[i]? = some (lid, wg, op) → (s.wg lid wg).st ≠ .preempted →
    s.slotBlocked lid wg op.slot op.load op.stamp = false →
    exec (.tileTransferDone i) s = .next
      ((((({ s with tileOps := s.tileOps.eraseIdx i }).doMove op.mv).freeSource op.mv).settleSlot lid wg op.slot).refresh
        lid wg op.h)) ∧
  (∀ h (hn : BitVec 6) (s : State), s.Admits { a := .src } h → TilOk s h (State.tgiveChk h hn.toNat) →
    exec (.tgive h hn) s = .next ((s.active h.pred).foldl (fun s t => match State.tgiveChk h hn.toNat t s with
      | .ok s => (s.settleTakes t.lid t.wg hn.toNat).retireBound (hlen h) t
      | .error _ => s) (idled h s))) ∧
  (∀ h (hn : BitVec 6) (s : State), s.Admits {} h → TilOk s h (State.ttakeChk hn.toNat) →
    exec (.ttake h hn) s = .next ((s.active h.pred).foldl (fun s t =>
      if s.ttakeWaits hn.toNat t then s.park (.ttake hn.toNat) (hlen h) true t
      else match State.ttakeChk hn.toNat t s with
        | .ok s => s.retireBound (hlen h) t
        | .error _ => s) (idled h s))) ∧
  (∀ h (hn : BitVec 6) (s : State), s.Admits {} h → TilOk s h (State.tfreeChk hn.toNat) →
    exec (.tfree h hn) s = .next ((s.active h.pred).foldl (fun s t => match State.tfreeChk hn.toNat t s with
      | .ok s => (s.settleTakes t.lid t.wg hn.toNat).retireBound (hlen h) t
      | .error _ => s) (idled h s)))

/-- R223, R224, R226: the life of a tile handle. Binding makes it LIVE, held by the thread's wave, of the shape, on the slot, which
names it; its death makes it DEAD without a holder and unbinds its slot, which drains exactly while an operation on it is pending.
No other handle changes, and no memory. -/
def Sys2Proof.Claims.HandleLivesAndDies : Prop :=
  (∀ (s : State) (t : TRef) (h : Nat) (shape : Word) (k : Nat), (t.lid, t.wg) ∈ tkeys s.wgs → h < 64 →
    k ∈ tkeys (s.wgOf t).slots →
    let r := s.bind t h shape k
    (r.handle t.lid t.wg h).st = .live ∧ (r.handle t.lid t.wg h).hold = t.wave ∧ (r.handle t.lid t.wg h).shape = shape ∧
      (r.handle t.lid t.wg h).slot = k ∧ ((tget (r.wgOf t).slots k).getD {}).bound = some h ∧
      (∀ j, j ≠ h → r.handle t.lid t.wg j = s.handle t.lid t.wg j) ∧ r.mem = s.mem ∧ r.threads = s.threads) ∧
  (∀ (s : State) (lid wg h : Nat), (lid, wg) ∈ tkeys s.wgs → h < 64 → (s.handle lid wg h).st ≠ .dead →
    (s.handle lid wg h).slot ∈ tkeys (s.wg lid wg).slots →
    let r := s.killHandle lid wg h
    (r.handle lid wg h).st = .dead ∧ (r.handle lid wg h).ever = (s.handle lid wg h).ever ∧
      ((tget (r.wg lid wg).slots (s.handle lid wg h).slot).getD {}).bound = none ∧
      ((tget (r.wg lid wg).slots (s.handle lid wg h).slot).getD {}).drain = s.slotBusy lid wg (s.handle lid wg h).slot ∧
      (∀ j, j ≠ h → r.handle lid wg j = s.handle lid wg j) ∧ r.mem = s.mem ∧ r.threads = s.threads)

/-- R246 to R248, R268: the ordering forms complete when nothing is delivered. PHASE begins a release of each workgroup, in order;
under deterministic operation it completes at once. PHASE_COMPLETE: the release, cut somewhere after it began, then the acquire,
and the threads that wait for it go on. FENCE retires the waves of which nothing is pending; the others wait (R248). -/
def Sys2Proof.Claims.OrderingFormsComplete : Prop :=
  (∀ h scp (s : State), s.Admits {} h → s.Undisturbed (s.active h.pred) → s.AllMay (s.active h.pred) false →
    exec (.phase h scp) s = .next (((sortBy (fun a b => a.2 ≤ b.2) (wgsOf (s.active h.pred))).foldl (fun s' g =>
      s'.phaseOne (hlen h) scp (s.active h.pred) g) (idled h s)).settle)) ∧
  (∀ i (s : State) r, s.releases[i]? = some r → s.runs r.lid r.wg = true → ∃ k c, k ≤ s.stamp + 1 - r.stamp ∧
    exec (.phaseComplete i) s = .next (
      let s : State := ({ s with releases := s.releases.eraseIdx i, freeCtr := c } : State).release r.lid r.wg r.scope (r.stamp + k)
      let s := if r.acquire then s.acquire r.lid r.wg r.scope else s
      (r.waiters.foldl State.finish s).settle)) ∧
  (∀ h (s : State), s.GroupOk → s.Admits {} h →
    let go := (s.active h.pred).filter fun t => !s.fenceBusy t && !s.sfuOfWave t
    s.Undisturbed go → ∃ t, exec (.fence h) s = .next t ∧
      ThreadEffect s t (s.inactive h.pred ++ go) (fun _ th => th.retire (hlen h)) fun _ th => th)

/-- R253, R267: a release of a workgroup. Where the unit's turn is open, the stores staged before the cut leave the staging, and
those staged since stay; where it is not, every store stays staged, and no byte of memory changes. R254: an acquire fixes the version
of every publish entry of the context on the die, and changes no memory. -/
def Sys2Proof.Claims.ReleaseAndAcquireOfAWorkgroup : Prop :=
  (∀ (s : State) (lid wg : Nat) scope upTo, (lid, wg) ∈ tkeys s.wgs → s.turnOpen lid wg = true →
    ((s.release lid wg scope upTo).wg lid wg).staging = (s.wg lid wg).staging.filter fun e => upTo ≤ e.stamp) ∧
  (∀ (s : State) (lid wg : Nat) scope upTo, (lid, wg) ∈ tkeys s.wgs → s.turnOpen lid wg = false →
    (((s.release lid wg scope upTo).wg lid wg).staging.map fun e => (e.stamp, e.va, e.bytes)) =
        (s.wg lid wg).staging.map (fun e => (e.stamp, e.va, e.bytes)) ∧
      (s.release lid wg scope upTo).mem = s.mem ∧ (s.release lid wg scope upTo).order = s.order) ∧
  (∀ (s : State) (lid wg : Nat) scope, (lid, wg) ∈ tkeys s.wgs →
    ((s.acquire lid wg scope).wg lid wg).sel =
        ((s.die (s.wg lid wg).die).pubs.filter fun p => p.2.ctx == (s.launch lid).ctx).map (fun p => (p.1, p.2.cur)) ∧
      ((s.acquire lid wg scope).wg lid wg).acq.scope = scope ∧ (s.acquire lid wg scope).mem = s.mem ∧
      (s.acquire lid wg scope).threads = s.threads)

/-- R220, R240 to R244: the queue forms complete. QCFG writes the control word and empties the queue; QSTAT reads the status word;
PUSH and POP have each active thread wait with its element, move what can move in slot order, and go on when all have moved; a
waiting thread tries again at QUEUE_WAIT_RESUME. -/
def Sys2Proof.Claims.QueueFormsComplete : Prop :=
  (∀ h (q : BitVec 3) (s : State), s.Admits { a := .srcW } h → (∀ t ∈ s.active h.pred,
      queueReason (s.hasFeat t 7) (s.launchOf t) (s.wgOf t).q q.toNat ((s.rd t 0 h.lit).r64 h.a) = none) →
    exec (.qcfg h q) s = .next ((((s.active h.pred).foldl (fun s t =>
        s.updQueue t.lid t.wg q.toNat fun _ => { cw := (s.rd t 0 h.lit).r64 h.a }) s).retireAll (hlen h)
          (s.inactive h.pred)).retireBoundAll (hlen h) (s.active h.pred))) ∧
  (∀ h (q : BitVec 3) (s : State), s.GroupOk → s.Admits { d := .dst } h → ∃ t, exec (.qstat h q) s = .next t ∧
    FormEffect s t (s.active h.pred) (hlen h) (fun u th => th.setD false h.d (s.queue u.lid u.wg q.toNat).status) fun _ => 0) ∧
  (∀ h (q : BitVec 3) (s : State), s.Admits { a := .vregs 1 } h →
    NoneFaults (s.active h.pred) (s.queueChk q.toNat true 1 h.a) → (∀ t ∈ s.active h.pred, s.copiesOf t = []) →
    exec (.push h q) s = .next (
      let act := s.active h.pred
      let s := act.foldl (fun s t => s.park (.push q.toNat (s.element t q.toNat h.a) act) (hlen h) true t) (idled h s)
      (act.foldl State.moveElem s).groupMoved act)) ∧
  (∀ h (q : BitVec 3) (s : State), s.Admits { d := .vregs 1 } h →
    NoneFaults (s.active h.pred) (s.queueChk q.toNat false 0 h.d) →
    exec (.pop h q) s = .next (
      let act := s.active h.pred
      let s := act.foldl (fun s t => s.park (.pop q.toNat (Operand.vnum h.d) false act) (hlen h) true t) (idled h s)
      (act.foldl State.moveElem s).groupMoved act)) ∧
  (∀ t (s : State), s.runs t.lid t.wg = true → exec (.queueWaitResume t) s = .next
    ((s.moveElem t).groupMoved (s.thr t).wait.grp))

/-- R243, R244: one thread's element. A thread whose turn has come puts its element at the end of a queue that is not full, or takes
the oldest element of one that is not empty into its registers; nothing else changes. A full or an empty queue changes nothing. -/
def Sys2Proof.Claims.QueueKeepsItsOrder : Prop :=
  ∀ (s : State) (t : TRef) (q : Nat) (g : List TRef), t ∈ tkeys s.threads → (t.lid, t.wg) ∈ tkeys s.wgs → q < 8 →
    s.inTurn t g = true →
    (∀ b, (s.thr t).wait = .push q b g → b ≠ [] →
      ((s.queue t.lid t.wg q).elems.length < cwDepth (s.queue t.lid t.wg q).cw →
        ((s.moveElem t).queue t.lid t.wg q).elems = (s.queue t.lid t.wg q).elems ++ [b] ∧
        ((s.moveElem t).thr t).wait.moved = true ∧ ((s.moveElem t).thr t).v = (s.thr t).v) ∧
      (cwDepth (s.queue t.lid t.wg q).cw ≤ (s.queue t.lid t.wg q).elems.length → s.moveElem t = s)) ∧
    (∀ d, (s.thr t).wait = .pop q d false g →
      (∀ e es, (s.queue t.lid t.wg q).elems = e :: es →
        ((s.moveElem t).queue t.lid t.wg q).elems = es ∧ ((s.moveElem t).thr t).wait.moved = true ∧
        ((s.moveElem t).thr t).v =
          ((bytesToWords e).zipIdx.foldl (fun (th : Thread) w => th.setV (d + w.2) w.1) (s.thr t)).v) ∧
      ((s.queue t.lid t.wg q).elems = [] → s.moveElem t = s)) ∧
    (∀ u, u ≠ t → (s.moveElem t).thr u = s.thr u) ∧ (s.moveElem t).mem = s.mem ∧
    (∀ k, k ≠ q → ((∃ b, (s.thr t).wait = .push q b g) ∨ ∃ d m, (s.thr t).wait = .pop q d m g) →
      (s.moveElem t).queue t.lid t.wg k = s.queue t.lid t.wg k)

namespace Sys2Proof.Claims

open Sys2Proof.Machine

/-- The checks of a form on nodes or entries pass, thread after thread in slot order. -/
def GraphOk (s : State) (h : Hdr) (chk : TRef → State → Except (Nat × Flt) State) : Prop :=
  checkRun chk (s.active h.pred) s = []

/-- The effects of such a form: `pre`, then each thread's own, a region boundary each. -/
def graphEffect (h : Hdr) (pre : State → State) (chk : TRef → State → Except (Nat × Flt) State) (s : State) : State :=
  ((s.active h.pred).foldl (fun s t => match chk t s with
    | .ok s => s.retireBound (hlen h) t
    | .error _ => s) (pre (idled h s))).settle

/-- Every active thread's swap meets no conflict in its turn. -/
def PublishGoes (h : Hdr) : List TRef → State → State → Prop
  | [], s, r => r = s
  | t :: ts, s, r => ∃ s1, (s.releaseAll t.lid t.wg .module).publishOne h t = .done s1 ∧
      PublishGoes h ts (s1.retireBound (hlen h) t) r

/-- A form that acts once for each wave: its header, the handles it reads and writes, its checks, waits and effects. -/
structure WaveArm where
  h : Hdr
  need : Need
  rd : List Nat
  wr : List Nat
  chk : TRef → State → Option (Nat × Flt)
  busy : TRef → State → Bool
  eff : TRef → State → State
  each : TRef → State → State

/-- R318 to R320. -/
def waveArms : Instr → Option WaveArm
  | .mzero h hn => some
    { h := h, need := {}, rd := [], wr := [hn.toNat], chk := fun t s => (s.useOf t hn.toNat).map fun f => (0, f), busy := never
      eff := fun t s =>
        (s.scWrite (s.slotPlace t hn.toNat) 0 (List.replicate (shapeBytes (s.handle t.lid t.wg hn.toNat).shape) 0)).updHandle
          t.lid t.wg hn.toNat fun x => { x with ls := { x.ls with kdone := 0, flt := false, skip := false } }
      each := fun _ s => s }
  | .mread h x => some
    { h := h, need := { d := .dst, a := if x.dk then .unused else .addr, b := if x.dk then .unused else .src }
      rd := [x.h.toNat], wr := if x.dk then [x.hd.toNat] else [], chk := fun t s => s.mreadChk h x t
      busy := fun t s => !x.dk && match s.mreadAt h x t with
        | .ok (p, off, pitch) => (s.waveThreads t).any fun u => s.scBusy u true p off (spanOf 256 64 pitch)
        | .error _ => false
      eff := fun t s =>
        let b := s.scRead (s.slotPlace t x.h.toNat) 0 16384
        let s := s.draw
        if x.dk then s.scWrite (s.slotPlace t x.hd.toNat) 0 b
        else match s.mreadAt h x t with
          | .ok (p, off, pitch) =>
            (List.range 64).foldl (fun s r => s.scWrite p (off + r * pitch) ((b.drop (256 * r)).take 256)) s
          | .error _ => s
      each := fun t s => s.updThr t fun th => th.setD false h.d (s.handle t.lid t.wg x.h.toNat).ls.status }
  | .mcvt h x => some
    { h := h, need := {}, rd := [x.hs.toNat] ++ if x.sc then [x.hr.toNat] else [], wr := [x.hd.toNat]
      chk := fun t s => s.mcvtChk h x t, busy := never
      eff := fun t s => ((s.scWrite (s.slotPlace t x.hd.toNat) 0 (s.mcvtAll h x t).1).draw).setFlags t (s.mcvtAll h x t).2
      each := fun _ s => s }
  | _ => none

/-- A wave's form finds its handles usable and nothing pending that it must come after (R225). -/
def WaveOk (s : State) (A : WaveArm) : Prop :=
  s.Undisturbed (s.active A.h.pred) ∧
  NoneFaults (s.active A.h.pred) (fun t => A.chk (leadOf (s.active A.h.pred) t) s) ∧
  ∀ t ∈ leads (s.active A.h.pred),
    (∀ k ∈ A.rd, s.slotBlocked t.lid t.wg (s.handle t.lid t.wg k).slot false (s.stamp + 1) = false) ∧
    (∀ k ∈ A.wr, s.slotBlocked t.lid t.wg (s.handle t.lid t.wg k).slot true (s.stamp + 1) = false) ∧ A.busy t s = false

end Sys2Proof.Claims

/-- R290 to R297, R302 to R304: the forms on graph nodes and publish entries complete. GNODE and SHADOW make a node or an entry of a
valid descriptor; GARM arms, signals or frees the node; GWAIT and GTEST read it; SHADOW.addr reads the shadow version's address;
PUBLISH releases and swaps. Under deterministic operation GARM, but for its `.free`, and PUBLISH go through once their unit's turn is
open, and GARM's threads whose turn is not wait for it. (That the checks and the effects go thread
after thread in slot order is the model's reading, log entries 59 and 116, and that they wait for the turn, log entries 136 and 143.) -/
def Sys2Proof.Claims.GraphFormsComplete : Prop :=
  (∀ h (s s' : State) es, s.Admits { d := .dst, a := .addr } h → PlansGo s (s.active h.pred) (State.planGnode h) es s' →
    exec (.gnode h) s = .next (goForm h id es s')) ∧
  (∀ h (s : State), s.Admits { a := .src } h → GraphOk s h (State.armChk h) → s.TurnsOpen (s.active h.pred) →
    exec (.garm h) s = .next (graphEffect h id (State.armChk h) s)) ∧
  (∀ h (s : State), s.Admits { a := .src } h → GraphOk s h (State.sigChk h) → s.TurnsOpen (s.active h.pred) →
    exec (.garmSig h) s = .next (graphEffect h (relMod (s.active h.pred)) (State.sigChk h) s)) ∧
  (∀ h (s : State), s.Admits { a := .src } h → ¬s.TurnsOpen (s.active h.pred) →
    (GraphOk s h (State.armChk h) → exec (.garm h) s = .next (s.awaitTurn (s.active h.pred)).settle) ∧
    (GraphOk s h (State.sigChk h) → exec (.garmSig h) s = .next (s.awaitTurn (s.active h.pred)).settle)) ∧
  (∀ h (s : State), s.Admits { a := .src } h → GraphOk s h (State.freeChk h) →
    exec (.garmFree h) s = .next (graphEffect h id (State.freeChk h) s)) ∧
  (∀ h (s : State), s.Admits { d := .dst, a := .src } h → NoneFaults (s.active h.pred) (s.nodeFault h) →
    s.AllMay (s.active h.pred) false → exec (.gwait h) s = .next ((s.active h.pred).foldl (fun s t =>
      let id := (s.rd t 0 h.lit).r32 h.a
      s.gwaitOne (hlen h) id (.gwait id h.d) t) (idled h s))) ∧
  (∀ h pd (s : State), s.Admits { a := .src } h → NoneFaults (s.active h.pred) (s.nodeFault h) →
    (∀ t ∈ s.active h.pred, (s.launchOf t).det ≠ 2) → exec (.gtest h pd) s = .next ((s.active h.pred).foldl (fun s t =>
      let done := (s.nodeDone t ((s.rd t 0 h.lit).r32 h.a)).isSome
      let s := if done then s.acquire t.lid t.wg .module else s
      (s.updThr t fun th => th.setP pd.toNat done).retire (hlen h) t) (idled h s))) ∧
  (∀ t (s : State) id n, s.runs t.lid t.wg = true → (s.thr t).wait.node = some id →
    (s.die (s.wgOf t).die).node? (s.ctxOf t) id = some n → n.st = .done →
    exec (.gwaitReturn t) s = .next (s.gwaitEnd t n)) ∧
  (∀ h (s s' : State) es, s.Admits { d := .dst, a := .addr } h → PlansGo s (s.active h.pred) (State.planShadow h) es s' →
    exec (.shadowNew h) s = .next (goForm h id es s')) ∧
  (∀ h (s : State), s.GroupOk → s.Admits { d := .dstW, a := .src } h → NoneFaults (s.active h.pred) (s.entryFault h) →
    ∃ t, exec (.shadowAddr h) s = .next t ∧ FormEffect s t (s.active h.pred) (hlen h) (fun u th =>
      match s.entryArg h u with
      | some (_, e) => th.setD true h.d (e.ver (!e.cur))
      | none => th) fun _ => 0) ∧
  (∀ h (s : State), s.Admits { a := .src } h → GraphOk s h (State.shadowFreeChk h) →
    exec (.shadowFree h) s = .next (graphEffect h id (State.shadowFreeChk h) s)) ∧
  (∀ h (s r : State), s.Admits { a := .src } h → NoneFaults (s.active h.pred) (s.entryFault h) →
    s.AllMay (s.active h.pred) true → PublishGoes h (s.active h.pred) (idled h s) r → exec (.publish h) s = .next r.settle)

/-- R293 to R295: the walker's steps. The i-th signal, where no earlier one of the same finish is still to come, reaches its node, which
counts down and fires at zero; a fired node whose work is done finishes: its release, its status, and its successors' signals. -/
def Sys2Proof.Claims.WalkerStepsComplete : Prop :=
  (∀ i (s : State) die k ctx id failing src n,
    signalPlace ((List.range 24).map fun d => (d, (s.die d).signals.length)) i = some (die, k) →
    (s.die die).signals[k]? = some (ctx, id, failing, src) → s.ctxBlocked die ctx .walker = false →
    (src = 0 ∨ ∀ x ∈ (s.die die).signals.take k, x.2.2.2 ≠ src) →
    (s.die die).node? ctx id = some n → exec (.signal i) s = .next (
      ((s.updDie die fun d => { d with signals := d.signals.eraseIdx k }).updNode die ctx (id.toNat % 2 ^ 16) fun n =>
        { n with count := n.count - 1, fail := n.fail || failing }).tryFire die ctx (id.toNat % 2 ^ 16))) ∧
  (∀ die ctx idx (s : State) n st, s.ctxBlocked die ctx .walker = false → tget (s.die die).nodes (ctx, idx) = some n →
    n.st = .fired → n.workDone = some st → exec (.nodeFinish die ctx idx) s = .next (s.finishNode die ctx idx n st))

/-- R293, R294: a signal that leaves a node's count above zero, or finds it not armed, fires nothing; an armed node whose count is at
or below zero is FIRED, with OVR where the count is below zero (of a TASK node, whose task may end a launch, R184, this says nothing). -/
def Obligations.NodesFireWhenTheirCountIsSpent : Prop :=
  ∀ (s : State) (die ctx idx : Nat) (n : Node), die < 24 → tget (s.die die).nodes (ctx, idx) = some n →
    ((n.st ≠ .armed ∨ 0 < n.count) → s.tryFire die ctx idx = s) ∧
    (n.st = .armed → n.count ≤ 0 → descKind n.desc ≠ 2 → ∃ m, tget ((s.tryFire die ctx idx).die die).nodes (ctx, idx) = some m ∧ m.st = .fired ∧
      m.ovr = decide (n.count < 0) ∧ m.desc = n.desc ∧ m.gen = n.gen ∧
      (descKind n.desc = 0 → m.workDone = some (if n.fail then 9 else 0)) ∧ (s.tryFire die ctx idx).threads = s.threads)

/-- R308 to R313, R318 to R325: the matrix forms complete when nothing is delivered and no thread misuses its set. MLOOP and MGATE
arrive at their set's collective with their words; MLOOP_START begins the loop of a set that has arrived, agrees and passes
R313, where the engine has room; MATRIX_STEP makes the next loop's step; MGATE_DECISION decides on the leader's words; MZERO, MREAD
and MCVT act once for each wave. -/
def Obligations.MatrixFormsComplete : Prop :=
  (∀ h x (s : State), s.Admits { a := .src, b := .src, c := if loopStreams x then .dstN 1 else .unused } h →
    s.Undisturbed (s.active h.pred) →
    let set := fun t => ((s.rd t 0 h.lit).r32 h.b).toNat / 2 ^ 13 % 2 ^ 8
    (∀ t ∈ s.active h.pred, s.mmaSetBad (set t) t = false) → SetOk s set h.pred (.mloop h x) →
    exec (.mloop h x) s = .next (setArrival s set (hlen h) h.pred .mma (.mloop h x) fun t s =>
      (((s.rd t 0 h.lit).r32 h.a).setWidth 64, ((s.rd t 0 h.lit).r32 h.b).setWidth 64))) ∧
  (∀ h x (s : State), s.Admits { a := if x.wen then .src else .unused, b := if x.wen then .src else .unused, feat := some 5 } h →
    s.Undisturbed (s.active h.pred) → (∀ t ∈ s.active h.pred, s.mmaSetBad x.set.toNat t = false) →
    SetOk s (fun _ => x.set.toNat) h.pred (.mgate h x) → exec (.mgate h x) s = .next
      (setArrival s (fun _ => x.set.toNat) (hlen h) h.pred .mma (.mgate h x) fun t s =>
        (if x.wen then ((s.rd t 0 h.lit).r32 h.a).setWidth 64 else 0,
         if x.wen then ((s.rd t 0 h.lit).r32 h.b).setWidth 64 else 0))) ∧
  (∀ lid inst set (s : State) h x arrs lead rest, s.mmaReady lid inst set = some (.mloop h x, arrs) →
    arrs.filter SetArr.pred = lead :: rest → (∀ a ∈ rest, lo32 a.a = lo32 lead.a) →
    s.loopFault inst set h x lead = none →
    let g := s.wgOf lead.thread
    let l := s.tick.mkLoop inst set h x lead (arrs.map SetArr.thread)
    s.tick.loopHeld set inst g.die g.site l = false →
    exec (.mloopStart lid inst set) s = .next ((arrs.map SetArr.thread).foldl State.finish
      ((s.tick.clearSet lid inst set).startLoop inst set g.die g.site l))) ∧
  (∀ lid inst set (s : State) h x arrs lead rest, s.mmaReady lid inst set = some (.mgate h x, arrs) →
    arrs.filter SetArr.pred = lead :: rest →
    let t := lead.thread
    let hx := s.handle t.lid t.wg x.h.toNat
    handleUse hx x.h.toNat (s.isMember lid inst set t.wg) = none → shFmt hx.shape ∈ [2, 3, 6] →
    s.slotBlocked lid t.wg hx.slot false (s.stamp + 1) = false → exec (.mgateDecision lid inst set) s = .next
      ((s.clearSet lid inst set).gateDecide inst set x lead (arrs.map SetArr.thread) (lead :: rest))) ∧
  (∀ die site (s : State) l, let s' := s.updCore die site Core.seat
    (s'.core die site).loops.find? (fun l =>
      !l.ls.flt && !l.wait && !s'.loopBlocked l && !s'.acked die l.lid l.inst (.matrix site)) = some l →
    exec (.matrixStep die site) s = .next
      ((s'.updCore die site fun c => { c with loops := c.loops.erase l }).loopStep die site l)) ∧
  (∀ i A, waveArms i = some A → ∀ s : State, s.Admits A.need A.h → WaveOk s A → exec i s = .next (
    ((s.active A.h.pred).foldl (fun s t => A.each t s) ((leads (s.active A.h.pred)).foldl (fun s t => A.eff t s) s)).retireAll
      (hlen A.h) s.cur.threads))

/-- R72, R74: one element of a matrix step. A step of floats raises no flags but NV, OF and BT; where c or an operand is a NaN, its
result is the canonical NaN; a ternary element is the integer sum, clamped to 32 bits, with OF where the clamp changes it and BT
where a code is 0b10. -/
def Obligations.MatrixStepElement : Prop :=
  (∀ (fa fb : Fmt) (sc : Int) (c : Nat) (ps : List (Nat × Nat)), (stepFloat fa fb sc c ps).2 &&& ~~~stepFlags = 0) ∧
  (∀ (fa fb : Fmt) (sc : Int) (c : Nat) (ps : List (Nat × Nat)),
    ((fmtF32.decode c).isNan = true ∨ ∃ p ∈ ps, (fa.decode p.1).isNan = true ∨ (fb.decode p.2).isNan = true) →
    (stepFloat fa fb sc c ps).1 = 0x7FC00000) ∧
  (∀ (c : Nat) (ps : List (Nat × Nat)),
    let x := ps.foldl (fun x p => x + (t2Val p.1).1 * signed 8 p.2) (signed 32 c)
    (-2 ^ 31 ≤ x ∧ x ≤ 2 ^ 31 - 1 → signed 32 (stepTernary c ps).1 = x) ∧
    (2 ^ 31 - 1 < x → signed 32 (stepTernary c ps).1 = 2 ^ 31 - 1) ∧
    (x < -2 ^ 31 → signed 32 (stepTernary c ps).1 = -2 ^ 31) ∧
    ((stepTernary c ps).2 &&& fOF ≠ 0 ↔ x < -2 ^ 31 ∨ 2 ^ 31 - 1 < x) ∧
    ((stepTernary c ps).2 &&& fBT ≠ 0 ↔ ∃ p ∈ ps, p.1 % 4 = 2))

namespace Sys2Proof.Claims

open Sys2Proof.Machine

/-- No active thread's return is refused (R339). -/
def ActsOk (s : State) (a : Act) (act : List TRef) : Prop := ∀ t ∈ act, s.actOk a t = true

/-- A return of each active thread, after the threads whose guard is false have retired: a thread that another's KILL has ended
returns no more, every action acts as KILL in a gang that is ending (R358), and a thread that has ended gives up its slot (R335). -/
def returns (h : Hdr) (eff : TRef → State → State) (s : State) : State :=
  ((s.active h.pred).foldl (fun s t =>
    let s := if (s.thr t).ended then s else if s.dying t then s.killReturn t else eff t s
    if (s.thr t).ended then s.giveSlot t else s) (idled h s)).settle

end Sys2Proof.Claims

/-- R328, R338 to R341, R353: the system forms complete at the level that may execute them. REGION moves the region entry; TRAPRET
returns with FIX, SKIP, RETRY (which waits while its ticket is open) or KILL where the record admits it; RDTRAP and WRTRAP read and
write a word of the trap index space; PGREQ makes or joins a page request. -/
def Sys2Proof.Claims.SystemFormsComplete : Prop :=
  (∀ h (s : State), s.GroupOk → s.Admits {} h → ∃ t, exec (.region h) s = .next t ∧
    ThreadEffect s t (s.active h.pred) (fun _ th => (th.retire (hlen h)).bound) (fun _ th => th.retire (hlen h))) ∧
  (∀ h (s : State), s.Admits { priv := true } h → ActsOk s .fix (s.active h.pred) →
    exec (.trapretFix h) s = .next (returns h (fun t s => s.resumeAt t (s.thr t).record.rpc true) s)) ∧
  (∀ h (s : State), s.Admits { priv := true } h → ActsOk s .skip (s.active h.pred) →
    exec (.trapretSkip h) s = .next (returns h (fun t s =>
      if (s.thr t).record.code = .fpException then
        (s.clearFlags t ((s.thr t).record.det0.setWidth 7)).resumeAt t (s.thr t).record.fpc false
      else s.resumeAt t ((s.thr t).record.fpc + s.lenAt t (s.thr t).record.fpc) false) s)) ∧
  (∀ h (s : State), s.Admits { a := .src, priv := true } h → ActsOk s .retry (s.active h.pred) →
    exec (.trapretRetry h) s = .next (returns h (fun t s =>
      if s.ticketOpen (s.ctxOf t) ((s.rd t 0 h.lit).r32 h.a).toNat then
        s.park (.retry ((s.rd t 0 h.lit).r32 h.a).toNat) (hlen h) false t
      else s.resumeAt t (s.thr t).record.rpc true) s)) ∧
  (∀ h (s : State), s.Admits { priv := true } h →
    exec (.trapretKill h) s = .next (returns h (fun t s => s.killReturn t) s)) ∧
  (∀ h (s : State), s.GroupOk → s.Admits { d := .dst, a := .src, priv := true } h →
    (∀ t ∈ s.active h.pred, s.trapIndex h t ≤ 35) → ∃ t, exec (.rdtrap h) s = .next t ∧
    FormEffect s t (s.active h.pred) (hlen h)
      (fun u th => th.setD false h.d (s.trapWord u (s.trapIndex h u)).toNat) fun _ => 0) ∧
  (∀ h (s : State), s.GroupOk → s.Admits { a := .src, b := .src, priv := true } h →
    (∀ t ∈ s.active h.pred, 16 ≤ s.trapIndex h t ∧ s.trapIndex h t ≤ 34) → ∃ t, exec (.wrtrap h) s = .next t ∧
    FormEffect s t (s.active h.pred) (hlen h)
      (fun u th => th.setTrapWord (s.trapIndex h u) ((s.rd u 0 h.lit).r32 h.b)) fun _ => 0) ∧
  (∀ h (s : State), s.Admits { d := .dst, a := .addr, priv := true } h →
    (∀ t ∈ s.active h.pred, ((s.rd t 0 h.lit).r64 h.a).toNat < 2 ^ 52) →
    exec (.pgreq h) s = .next (s.each (hlen h) (s.active h.pred) fun t s =>
      let k := s.ticketFor (s.ctxOf t) (((s.rd t 0 h.lit).r64 h.a).toNat / 65536)
      k.2.updThr t fun th => { th.setD false h.d k.1 with ticket := some k.1 }))

/-- R51, R52, R327: a privileged form in a group at level 0 does not execute: every thread of the group stops before it with PRIVILEGE,
the instruction's words in the record, and nothing else changes. -/
def Sys2Proof.Claims.PrivilegedFormsTrapAtLevelZero : Prop :=
  ∀ i h, (i = .trapretFix h ∨ i = .trapretSkip h ∨ i = .trapretRetry h ∨ i = .trapretKill h ∨ i = .rdtrap h ∨ i = .wrtrap h ∨
      i = .pgreq h) → ∀ (s : State), s.GroupOk → (∀ t ∈ s.cur.threads, (s.thr t).level = 0) → s.cur.threads ≠ [] →
    (∀ l ∈ s.launches, l.2.journalFull = false) → ∃ t, exec i s = .next t ∧
      ThreadEffect s t s.cur.threads (fun _ th => { th with
        trap := some (recOf th (maskOf s.cur.threads s.cur.threads)
          { code := .privilege, d0 := 0, d1 := s.curW0, d2 := s.curW1 })
        walkFault := none }) fun _ th => th

/-- R331 to R333, R327: trap entry of a thread at level 0 whose record is pending and whose unit runs, with a trap image, a free slot
and nothing outstanding: the record is held with the next sequence number, the level is 1 with a fresh bank whose w63 is the top of the slot's
trap stack, the slot is taken, the PC is the image's ENTRY; its own registers, predicates, guard state and counts stay, and so does
every other thread. -/
def Obligations.TrapEntrySavesAndEnters : Prop :=
  ∀ (s : State) (t : TRef) (r : TrapRec) (slot : Nat), t ∈ tkeys s.threads → s.ctxOf t ∈ tkeys s.contexts →
    (s.thr t).trap = some r → (s.thr t).level = 0 →
    s.afoot t = true → (s.launchOf t).trapCode.isSome = true → s.pendingOf t = false → (s.ctx (s.ctxOf t)).freeSlot = some slot →
    let e := s.takeTrap t
    exec (.trapEntry t) s = .next e.settle ∧
    (e.thr t).level = 1 ∧ (e.thr t).trap = none ∧ (e.thr t).handling = some { r with tseq := (s.thr t).tseq + 1 } ∧
      (e.thr t).slot = some slot ∧ (e.thr t).tseq = (s.thr t).tseq + 1 ∧ (e.thr t).pc = (s.launchOf t).trapEntry ∧
      (e.thr t).bank = { w63 := (s.ctx (s.ctxOf t)).trapBase + BitVec.ofNat 64 (16384 * slot + 16384) } ∧
      (e.thr t).v = (s.thr t).v ∧ (e.thr t).p = (s.thr t).p ∧ (e.thr t).re = (s.thr t).re ∧
      (e.thr t).icount = (s.thr t).icount ∧ slot ∈ (e.ctx (s.ctxOf t)).slots ∧ ∀ u, u ≠ t → e.thr u = s.thr u

/-- R331, R340: leaving a handler: the thread is at level 0 at the given PC, its bank is empty and its record and trap slot are given
up; its level-0 registers, predicates and region entry stay, and so does every other thread. -/
def Obligations.TrapReturnRestoresLevelZero : Prop :=
  ∀ (s : State) (t : TRef) (pc : Nat), t ∈ tkeys s.threads → s.ctxOf t ∈ tkeys s.contexts →
    (s.inst t.lid (s.wgOf t).inst).killer = none →
    let e := s.leaveHandler t pc
    (e.thr t).level = 0 ∧ (e.thr t).pc = pc ∧ (e.thr t).bank = {} ∧ (e.thr t).handling = none ∧ (e.thr t).slot = none ∧
      (e.thr t).v = (s.thr t).v ∧ (e.thr t).p = (s.thr t).p ∧ (e.thr t).re = (s.thr t).re ∧
      (e.thr t).icount = (s.thr t).icount ∧ (∀ k, (s.thr t).slot = some k → k ∉ (e.ctx (s.ctxOf t)).slots) ∧
      (∀ u, u ≠ t → e.thr u = s.thr u) ∧ e.mem = s.mem ∧ e.waves = s.waves

/-- R283, R285, R354 to R356: the debug forms complete. BKPT halts the unit of each active thread at the next instruction where a
debugger has armed halts (under deterministic scheduling at a step boundary); CNTRD reads a counter or a slice of its control; CNTWR writes a slice, or clears the count. -/
def Sys2Proof.Claims.DebugFormsComplete : Prop :=
  (∀ h code (s : State), s.Admits {} h → (∀ t ∈ s.active h.pred, (s.launchOf t).bkHalt = true) →
    exec (.bkpt h code) s = .next (((s.active h.pred).map fun t => (t.lid, (s.wgOf t).inst)).eraseDups.foldl
      (fun s u => s.haltUnit u.1 u.2) (s.retireAll (hlen h) s.cur.threads))) ∧
  (∀ lid inst (s : State), s.atBoundary lid = true → s.haltUnit lid inst =
    ((s.inst lid inst).members.flatMap fun m => s.wgLive lid m).foldl (fun s t =>
      s.updThr t fun th => { th with halted := true }) s) ∧
  (∀ h code (s : State), s.GroupOk → s.Admits {} h → s.active h.pred ≠ [] →
    (∀ t ∈ s.active h.pred, (s.launchOf t).bkHalt = false) → ∃ t, exec (.bkpt h code) s = .next t ∧
    ThreadEffect s t (s.active h.pred)
      (fun _ th => { th with
        trap := some (recOf th (maskOf s.cur.threads (s.active h.pred)) { code := .breakpoint, d0 := code.setWidth 32 })
        walkFault := none }) fun _ th => th.retire (hlen h)) ∧
  (∀ h x (s : State), s.GroupOk → s.Admits { d := .dstW } h →
    (∀ t ∈ s.active h.pred, (s.counter x t).ctx.toNat = s.ctxOf t) → ∃ t, exec (.cntrd h x) s = .next t ∧
    FormEffect s t (s.active h.pred) (hlen h) (fun u th => th.setD true h.d
      (if x.rsel = 0 then (s.counter x u).count.toNat else (s.counter x u).slice (x.rsel.toNat - 1))) fun _ => 0) ∧
  (∀ h x (s : State), s.Admits { a := .srcW } h →
    (∀ t ∈ s.active h.pred, (s.counter x t).ctx.toNat = s.ctxOf t ∧ (x.rsel = 0 → (s.rd t 0 h.lit).r64 h.a = 0)) →
    exec (.cntwr h x) s = .next (s.each (hlen h) (s.active h.pred) fun t s' => s'.updCounter x t fun c =>
      if x.rsel = 0 then { c with count := 0 } else c.setSlice (x.rsel.toNat - 1) ((s.rd t 0 h.lit).r64 h.a)))

namespace Sys2Proof.Claims

open Sys2Proof.Machine

/-- The offer that PREEMPT serves on a die, with the place and the victims it chooses. -/
def Preempts (s : State) (die : Nat) (o : Offer) (site : Nat) (vs : List (Nat × Nat)) : Prop :=
  (s.die die).online = true ∧ (s.offers die).find? (s.triggers die) = some o ∧
    (sortBy (fun (a b : Nat × List (Nat × Nat)) => a.2.length < b.2.length || (a.2.length == b.2.length && a.1 ≤ b.1))
      (s.preemptPlaces o die)).head? = some (site, vs) ∧ s.saveFits vs = true

/-- The request that an engine acknowledges: the first that waits for it where it stands at its stopping unit. -/
def Acks (s : State) (die : Nat) (k : EngineKind) (r : StopReq) (i : Nat) : Prop :=
  (s.die die).stops.zipIdx.find? (fun r => r.1.waiting.contains k && s.atStop die r.1 k) = some (r, i)

/-- The place where a pre-empted unit is restored. -/
def Restores (s : State) (lid inst die : Nat) (o : Offer) (sites : List Nat) : Prop :=
  die < 24 ∧ s.nextUnit die = some (o, sites) ∧ o.lid = lid ∧ o.idx = inst ∧ (∃ p, o.p = some p ∧ p.preempted = true) ∧
    ∀ d < die, ∀ o' x, s.nextUnit d = some (o', x) → ¬(o'.lid = lid ∧ o'.idx = inst ∧ ∃ p, o'.p = some p ∧ p.preempted = true)

end Sys2Proof.Claims

/-- R171 to R177, R180, R181, R267: launches and units. A launch that waits for nothing becomes dispatchable; the next unit in order
that fits takes its place; a unit that stood first for its context's hold time keeps cores for itself; a unit at the head of its
prefetch buffers starts, every member at once; a launch past its deadline of which a unit has not ended misses it once; the
turn of a unit that has ended and released passes to the next, whose held releases enter the order. (Which cores are kept is the
model's reading, log entry 67; that nodes hear of a task's end with its turn, log entry 143.) -/
def Sys2Proof.Claims.UnitsArePlacedAndStarted : Prop :=
  (∀ lid (s : State) l, tget s.launches lid = some l → l.ended = false → l.dispatchable = false → s.waitsOn l = false →
    exec (.launchDispatchable lid) s = .next (s.updLaunch lid fun l => { l with dispatchable := true })) ∧
  (∀ die (s : State) o sites p, s.nextUnit die = some (o, sites) → o.p = some p → p.preempted = false →
    exec (.placeUnit die) s = .next ((s.placePending die o p sites).placedAt die o)) ∧
  (∀ die (s : State) o sites, s.nextUnit die = some (o, sites) → o.p = none →
    exec (.placeUnit die) s = .next ((s.placeUpdate die o (sites.headD 0)).placedAt die o)) ∧
  (∀ die level (s : State) o since, s.firstAt die level = some o → s.firstSince die o = some since →
    since.toNat + (s.ctx o.ctx).hold ≤ s.now.toNat → (∀ i ∈ (s.die die).sites, (s.core die i).only ≠ some o.key) →
    exec (.holdTimeExpiry die level) s = .next ((s.roomiest o die).foldl (fun s i =>
      s.updCore die i fun k => { k with only := some o.key }) s)) ∧
  (∀ lid inst (s : State), s.startDue lid inst = true → exec (.unitStart lid inst) s = .next
    ((s.inst lid inst).members.foldl (fun s m => s.startWg lid m) s)) ∧
  (∀ lid (s : State) l d, tget s.launches lid = some l → l.dline = some d → l.ended = false → l.dlmiss = false →
    d.toNat < s.now.toNat → s.unitLeft lid l = true → ∃ t, exec (.deadlineMiss lid) s = .next t ∧ (t.launch lid).dlmiss = true ∧
      (∀ k, k ≠ lid → t.launch k = s.launch k) ∧ t.threads = s.threads ∧ t.mem = s.mem ∧ t.now = s.now) ∧
  (∀ lid (s : State), s.turnDue lid = true → exec (.turnOpen lid) s = .next (
    let u := (s.launch lid).turn
    let s := (s.closeTurn lid u).updLaunch lid fun l => { l with turn := u + 1 }
    let ms := (s.inst lid (u + 1)).members
    let s := s.enterHeld lid ms
    ((ms.filter fun m => (s.wg lid m).st == .ended).foldl (fun s m => s.endSignals lid m) s).settle))

/-- R171, R173 to R175: the unit that PLACE_UNIT takes is an offer of the die, in service, and every offer before it in order fits
nowhere on it; the sites it goes to are live sites of the die. -/
def Obligations.TheFirstUnitThatFitsIsPlaced : Prop :=
  ∀ (s : State) (die : Nat) (o : Offer) (sites : List Nat), s.nextUnit die = some (o, sites) →
    (s.die die).online = true ∧ (∃ before after, s.offers die = before ++ o :: after ∧ ∀ x ∈ before, s.spots x die = none) ∧
      s.spots o die = some sites ∧
      (∀ i ∈ sites, i ∈ (s.die die).sites) ∧ sites.length = if (s.launch o.lid).gang = 0 then 1 else (s.launch o.lid).gang

/-- R22 to R25, R30, R31, R183, R187, R292, R328: what a unit's start gives each thread: v0 and v1 hold the unit's arguments (R183 of
spec/10, R292 of spec/17) and every other register below w63 is zero (R22), w63 is the top of its stack, its predicates are false, its
PC and its region entry (R328 of spec/20) are the unit's entry, and it is at level 0; each wave has the object's register count (R187 of
spec/10) and the launch's arguments in its s registers. -/
def Obligations.ThreadsStartAsTheLaunchSays : Prop :=
  (∀ (l : Launch) (g : Wg) (base : DWord), let th := l.newThread g base
    th.getV 0 = g.arg0 ∧ th.getV 1 = g.arg1 ∧ (∀ n, 2 ≤ n → n < 126 → th.getV n = 0) ∧ th.sp = base + BitVec.ofNat 64 l.stack ∧
      th.pc = g.entry ∧ th.re = g.entry ∧ th.level = 0 ∧ th.icount = 0 ∧ th.ended = false ∧ (∀ k, 1 ≤ k → th.getP k = false)) ∧
  (∀ (l : Launch) (w : Nat), (l.newWave w).c = min l.hdr.regs 126 ∧ (l.newWave w).fp = 0 ∧
    (∀ n, n < 62 → vget (l.newWave w).s 0 n = l.args.getD n 0) ∧
    vget (l.newWave w).s 0 62 = lo32 l.data ∧ vget (l.newWave w).s 0 63 = hi32 l.data)

/-- R3, R134 to R138, R141, R274, R282, R284: the pickers. A cycle begins, the cores without a ready thread count it, and every core
with a running workgroup picks, but where the next group is a launch's step, and nothing runs without power. A cycle that carries the
steps of launches in deterministic scheduling mode, no two with a core in common and none left out that shares no core with them,
begins each step that is not under way with the group of each core; what has not issued of the steps issues on the cores that may carry
it, and the launches' other cores issue nothing (how steps are spread over cycles is the model's reading, log entry 65). A sample is taken where the cycle, or the step
of such a launch, matches, and the next interval counts in the same; one of another context than the one that samples the core is
discarded (the direction of the LFSR, which context samples, and that steps have intervals of their own, is the model's reading, log
entry 17). -/
def Sys2Proof.Claims.PickersPick : Prop :=
  (∀ s : State, s.power = true → exec .pickerCycle s = .next (
    let s' := s.markFirst.nextCycle.countIdle
    (s'.busyCores.filter fun c => !s.stepCores.contains c).foldl (fun s c => s.pickAt c.1 c.2) s')) ∧
  (∀ s : State, s.power = false → exec .pickerCycle s = .next s) ∧
  (∀ lid (s : State), (∀ x ∈ s.wake.stepsNext, x.1 ≠ lid) → exec (.detStep lid) s = .next s) ∧
  (∀ lid (s : State), (∃ x ∈ s.wake.stepsNext, x.1 = lid) → exec (.detStep lid) s = .next (
      let xs := s.wake.stepsNext
      let s' := xs.foldl (fun s x =>
        let s := if s.unissued x.1 = [] then
            (s.coresOf x.1).foldl (fun s c => s.detAt x.1 c) (s.updLaunch x.1 fun l => { l with step := l.step + 1, inStep := [] })
          else s
        x.2.foldl (fun s c => if s.unissuedAt x.1 c = [] then s else s.sendStep c (s.unissuedAt x.1 c)) s)
        s.markFirst.nextCycle.countIdle
      (s'.busyCores.filter fun c => !((xs.flatMap fun x => s.coresOf x.1) ++ s.wake.stepCores).contains c).foldl
        (fun s c => s.pickAt c.1 c.2) s')) ∧
  (∀ s : State, (∀ x ∈ s.stepsNext, x.2 = s.goCores x.1 ∧ x.2 ≠ []) ∧
    s.stepsNext.Pairwise (fun x y => ∀ c ∈ s.coresOf x.1, c ∉ s.coresOf y.1) ∧
    ∀ lid ∈ tkeys s.launches, s.goCores lid ≠ [] → (∃ x ∈ s.stepsNext, x.1 = lid) ∨
      ∃ x ∈ s.stepsNext, ∃ c ∈ s.coresOf lid, c ∈ s.coresOf x.1) ∧
  (∀ lid (s : State) c x, eldest (s.stepGroup lid c) = some x → s.coreGo lid c = true →
    s.accepts c.1 c.2 (s.cycle + 1) x.i = true ∧
      ∀ y ∈ s.readyAt c.1 c.2 (s.cycle + 1) ++ s.otherSteps lid (s.cycle + 1) c, oldest x y = true) ∧
  (∀ die site (s : State) x, (s.core die site).lastGroup = some x → (s.thr x.1).last = s.cycle →
    (if s.stepped x.1.lid then (tget (s.core die site).stepNext x.1.lid).getD 0 else (s.core die site).sampleNext) ≤
      s.sampleTime x.1 →
    let ctx := s.samplingCtx die site
    let p := 2 ^ (s.ctx ctx).sampleK
    s.sampleTime x.1 % p = (s.core die site).lfsr.toNat % p →
    exec (.sampleTag die site) s = .next (
      let s' := if s.ctxOf x.1 = ctx then
        s.updCtx ctx fun c => { c with sampleRing := c.sampleRing ++ [s.sampleBytes x] } else s
      let n := (s.sampleTime x.1 / p + 1) * p
      s'.draw.updCore die site fun k =>
        { k with
          lfsr := lfsrNext k.lfsr
          lastGroup := none
          sampleNext := if s.stepped x.1.lid then k.sampleNext else n
          stepNext := if s.stepped x.1.lid then tset k.stepNext x.1.lid n else k.stepNext }))

/-- R136, R137: a group that the picker forms out of the candidates holds at most 64 of them, all of one launch, level and PC, with
none twice; it holds the candidate that issued longest ago; and its slots follow the order of workgroup and thread index. -/
def Obligations.GroupsAreFormedAlike : Prop :=
  ∀ (c : List Cand), (c.map Cand.t).Nodup → let g := takeGroup c
    g.length ≤ 64 ∧ (∀ x ∈ g, x ∈ c) ∧ (g.map Cand.t).Nodup ∧
    (∀ x ∈ g, ∀ y ∈ g, x.t.lid = y.t.lid ∧ x.level = y.level ∧ x.pc = y.pc) ∧
    (c ≠ [] → ∃ x ∈ g, ∀ y ∈ c, oldest x y = true) ∧
    g.Pairwise (fun x y => candLt x y = true)

/-- R178, R179, R335, R346 to R348, R359: pre-emption and context switches. A unit that triggers pre-emption has its victims stopped
and its place chosen; an engine at its stopping unit acknowledges; a unit whose engines have all acknowledged and which is quiet is
saved where what it takes fits, and else goes on; a saved unit whose turn it is resumes; a context's units and buffers are saved once
every engine has stopped, and come back. (The clauses are the model's reading in these points: that only running units are victims, and
that the save area is checked after the place has been chosen, log entry 82; where an engine acknowledges, log entry 83; how a unit
resumes, log entry 85; what a context switch stops, log entry 86; and the size that must fit, and what is saved, log entries 49 and
127.) -/
def Obligations.PreemptionAndSwitches : Prop :=
  (∀ die (s : State) o site vs, Preempts s die o site vs →
    exec (.preempt die) s = .next ((vs.foldl State.requestStop s).chooseCore o (die, site))) ∧
  (∀ die k (s : State) r i, Acks s die k r i → ∃ t, exec (.engineStopAck die k) s = .next t ∧
    (die < 24 → (∀ site, k ≠ .picker site) → (t.die die).stops = lupd (s.die die).stops i fun r =>
      { r with waiting := r.waiting.filter (· ≠ k) }) ∧ t.threads = s.threads ∧ t.mem = s.mem) ∧
  (∀ lid inst (s : State) die, s.stopDone lid inst = some die → s.quietUnit lid inst = true →
    (s.inst lid inst).ended = false →
    let r := s.updDie die fun d => { d with stops := d.stops.filter fun r => r.unit != some (lid, inst) }
    r.saveFits [(lid, inst)] = true → exec (.preemptSave lid inst) s = .next (
      let s := s.updDie die fun d => { d with stops := d.stops.filter fun r => r.unit != some (lid, inst) }
      (s.saveUnit lid inst).count die none 0x401 (some (s.launch lid).ctx) (some lid) none none 1)) ∧
  (∀ lid inst (s : State) die, s.stopDone lid inst = some die → s.quietUnit lid inst = true →
    (s.inst lid inst).ended = false →
    let r := s.updDie die fun d => { d with stops := d.stops.filter fun r => r.unit != some (lid, inst) }
    r.saveFits [(lid, inst)] = false → exec (.preemptSave lid inst) s = .next ((r.unchoose lid inst).goOn lid)) ∧
  (∀ lid inst (s : State) die o sites, Restores s lid inst die o sites → exec (.unitRestore lid inst) s = .next (
    let s := s.updLaunch lid fun l => { l with pending := l.pending.filter fun p => p.idx != inst }
    let s := ((s.inst lid inst).members.zip sites).foldl (fun s m => s.restoreWg lid m.1 die m.2) s
    (s.placedAt die o).goOn lid)) ∧
  (∀ ctx (s : State), tget s.contexts ctx ≠ none → (s.ctx ctx).out = false → s.ctxStopping ctx = true → s.ctxQuiet ctx = true →
    s.savedBytes ctx + (s.ctx ctx).journals +
      (((s.ctxUnits ctx).map s.unitSize).sum +
        ((s.ctxBufs ctx).map fun b => b.2.2.size).sum) ≤ (s.ctx ctx).svsize * 65536 →
    exec (.contextSwitchOut ctx) s = .next ((s.saveCtx ctx).dropStops ctx)) ∧
  (∀ ctx (s s' : State), (s.ctx ctx).out = true → (s.ctx ctx).savedBufs.foldlM State.bufBack s = some s' →
    ∃ t, exec (.contextSwitchIn ctx) s = .next t ∧ ((ctx ∈ tkeys s'.contexts) → (t.ctx ctx).out = false ∧
      (t.ctx ctx).savedBufs = []) ∧ t.threads = s'.threads ∧ t.mem = s'.mem)

/-- R194, R196 to R199, R270, R383: standing programs. A contribution whose turn it is takes effect at its brick; when the oldest
input has been absorbed its sequence is ISEQ on every die; a program found quiescent takes its record as things stand, once for each
change; the oldest record taken is written at system scope and its node signalled; and a stopping program of which no update is in
flight writes its last, with STOPPED, and is stopped (that a serial run writes none, and the records' order, are the model's reading, log
entries 87 and 89). -/
def Sys2Proof.Claims.StandingEvents : Prop :=
  (∀ i (s : State) c p, s.contribs[i]? = some c → s.progLive c.prog = some p → s.contribMay i c p = true →
    exec (.contribution i) s = .next (({ s with contribs := s.contribs.eraseIdx i }.applyContrib c).findQuiet c.prog)) ∧
  (∀ lid (s : State) p x xs, s.progLive lid = some p → p.inputs = x :: xs → (s.ctx (s.launch lid).ctx).out = false →
    (∀ c ∈ s.contribs, ¬(c.prog = lid ∧ c.inp = some x.seq)) → exec (.iseqAdvance lid) s = .next
      ((s.updProg lid fun p => { p with inputs := xs, dies := p.dies.map fun d => { d with iseq := x.seq } }).finishPacket
        (x.q.map fun q => (q, x.pkt)))) ∧
  (∀ lid (s : State) p, s.prog lid = some p → p.state ≠ 2 → p.quiescent = false → (s.launch lid).serialRun = false →
    s.quiet lid p = true → s.findQuiet lid = s.updProg lid fun q =>
      { q with quiescent := true, rseq := q.rseq + 1, due := q.due ++ [s.convBytes lid p false] }) ∧
  (∀ lid (s : State) p, s.prog lid = some p → p.quiescent = true ∨ s.quiet lid p = false → s.findQuiet lid = s) ∧
  (∀ lid (s : State) p, s.progLive lid = some p →
    let home := ((p.dies.head?).map ProgDie.die).getD 0
    let signals := fun (s : State) => match p.convNode with
      | some n => s.signalNode home (s.launch lid).ctx n false
      | none => s
    let writes := fun bytes => signals (s.fwWriteVa .system (s.launch lid).ctx p.convRec.toNat bytes)
    (s.launch lid).serialRun = false → s.ctxBlocked home (s.launch lid).ctx .queueUnit = false →
    (∀ b bs, p.due = b :: bs → exec (.convergenceRecord lid) s = .next ((writes b).updProg lid fun p => { p with due := bs })) ∧
    (p.due = [] → p.state = 1 → s.inFlight lid = false → exec (.convergenceRecord lid) s = .next
      (((writes (s.convBytes lid p true)).updProg lid fun p => { p with rseq := p.rseq + 1 }).stopProg lid p)))

/-- R192, R194: the residual of a brick. A contribution combines with RES, and a brick that rests and whose residual then exceeds the
threshold becomes eligible; a closing combines likewise, leaves the brick at rest or eligible, and counts an update; a pop moves RES
to DRES, leaves RES zero and the brick in flight. No other brick changes. -/
def Obligations.BricksKeepTheirResiduals : Prop :=
  ∀ (p : Prog) (id : Nat) (b : Brick) (m : Word), p.brick? id = some b →
    (∃ b', (p.contribute id m).brick? id = some b' ∧ b'.res = p.combine b.res m ∧ b'.dRes = b.dRes ∧
      b'.st = if b.st = 0 ∧ p.tau.toNat < (p.combine b.res m).toNat then 1 else b.st) ∧
    (∃ b', (p.close id m).brick? id = some b' ∧ b'.res = p.combine b.res m ∧ b'.lastRes = p.combine b.res m ∧
      b'.st = if p.tau.toNat < (p.combine b.res m).toNat then 1 else 0) ∧
    (p.close id m).updates = p.updates + 1 ∧
    (∃ b', (p.pop id).brick? id = some b' ∧ b'.dRes = b.res ∧ b'.res = 0 ∧ b'.st = 2) ∧
    ∀ k, k ≠ id → (p.contribute id m).brick? k = p.brick? k ∧ (p.close id m).brick? k = p.brick? k ∧
      (p.pop id).brick? k = p.brick? k

/-- R257, R272, R273, R370: a launch ends. One that ended at its acceptance writes its record; one whose units are done releases at
system scope, gives up what it holds and writes its record, the commands of one that KILL has ended being ended first; one whose digest
differs from the recorded one is rolled back and run again. (How the end release is made, and what a rerun resets, is the model's
reading, log entry 89.) -/
def Sys2Proof.Claims.LaunchesEnd : Prop :=
  (∀ lid (s : State) l, tget s.launches lid = some l → l.recorded = false → l.ended = true →
    exec (.launchEnd lid) s = .next (s.writeLaunch lid)) ∧
  (∀ lid (s : State) l, tget s.launches lid = some l → l.recorded = false → l.ended = false → s.endDue lid l = true →
    l.mismatch = false → exec (.launchEnd lid) s = .next (
      let s := if l.killed = 0 then s else s.abortLaunch lid
      ((((s.updLaunch lid Launch.withDigest).endRelease lid).giveUp lid l).writeLaunch lid))) ∧
  (∀ lid (s : State) l, tget s.launches lid = some l → l.recorded = false → l.ended = false → s.endDue lid l = true →
    l.mismatch = true → exec (.launchEnd lid) s = .next (((s.rollback lid).rerun lid).fitJournals l.ctx))

namespace Sys2Proof.Claims

open Sys2Proof.Machine

/-- A copy event: its die, engine and OP. -/
def copyArms : Instr → Option (Nat × Nat × Nat)
  | .copy1d die eng => some (die, eng, 0)
  | .copy2d die eng => some (die, eng, 1)
  | .copy3d die eng => some (die, eng, 2)
  | .copyGather die eng => some (die, eng, 3)
  | .copyReduceAdd die eng => some (die, eng, 4)
  | _ => none

/-- An encode event: its die, engine, OP, and what it does with a command. -/
def encArms : Instr → Option (Nat × Nat × Nat × (Cmd → State → Cmd × State))
  | .encodeConfigure die eng => some (die, eng, 0, State.configureGo die eng)
  | .encodeFrame die eng => some (die, eng, 1, State.frameGo die eng)
  | .encodeEndSession die eng => some (die, eng, 2, State.endGo die eng)
  | _ => none

end Sys2Proof.Claims

/-- R288, R298 to R301, R346: the copy engines. An engine that has commands of an OP which may start or go on takes up one of them,
freely chosen: one issued to it goes on by a chunk in its place; the next element of its queues becomes its newest command.
COPY_COMPLETE: a finished command with nothing on its way releases its writes, gives back its buffers, its reads of SHARED ones and its
claims on entries, and tells its issuer; pinned buffers that ended launches gave to the engine, and no command names, are FREE (R213).
(The order in which commands go on and complete is free, log entry 80, and the pace of a step is the model's, log entry 18.) -/
def Sys2Proof.Claims.CopyEnginesRun : Prop :=
  (∀ i die eng op, copyArms i = some (die, eng, op) → ∀ s : State,
    (s.copyReady die eng op ≠ [] ∨ (s.copyElem die eng op).isSome = true) → ∃ r, exec i s = .next r ∧
      ((∃ j c, j ∈ s.copyReady die eng op ∧ (vget (s.die die).copyQ [] eng)[j]? = some c ∧
          r = (s.draw.copyGo die eng c).2.updDie die fun d =>
            { d with copyQ := vupd d.copyQ eng fun q => lupd q j fun _ => (s.draw.copyGo die eng c).1 }) ∨
       ∃ x b, s.copyElem die eng op = some (x, b) ∧
          let g := (s.draw.updQueue x.1 x.2.1 x.2.2 fun q => { q with elems := q.elems.drop 1 }).copyGo die eng
            ((s.draw.updQueue x.1 x.2.1 x.2.2 fun q => { q with elems := q.elems.drop 1 }).cmdOf x b)
          r = g.2.updDie die fun d =>
            { d with copyQ := vupd d.copyQ eng (fun q => q ++ [g.1]), copyRot := vset d.copyRot eng (some x) })) ∧
  (∀ die eng i (s : State) c, (vget (s.die die).copyQ [] eng)[i]? = some c → c.finished = true → c.frames = [] →
    s.ctxBlocked die c.ctx (.copy eng) = false → exec (.copyComplete die eng i) s = .next (
      let sys := cDk c.rec_ == 4 || s.wroteHost c
      let s := s.engRelease (copyAt die eng) (if sys then .system else .module) c.wrote
      let s := s.updDie die fun d =>
        { d with
          copyQ := vupd d.copyQ eng fun q => q.eraseIdx i
          pubs := c.pubW.foldl (fun t k => tupd t k fun p => { p with wcmd := p.wcmd - 1 }) d.pubs }
      let s := c.took.foldl (fun s id => s.returnBuf die c id) s
      let s := (c.reads.foldl (fun s id => s.freeDrained die id) s).freeStranded die eng
      let s := if c.packet.isSome then s.unload (s.wroteLocs c) else s
      (s.cmdEnds die c c.status).finishPacket c.packet))

/-- R288, R302, R305 to R307, R346: the encode engines and the graph queue. The first issued command of an OP that may start or go on
does the next part of its work, and one that starts acquires and is counted at the entries whose shadow it may write; where there is none, the next
element of the engine's queues in rotation starts. ENCODE_COMPLETE: the first command that has done its work writes its status,
releases its writes and tells its issuer. (That the first issued command goes on and the first that has done its work completes is the
model's choice, log entry 81: R301 leaves the order open; what one step does of a command is log entries 18 and 80.) The walker takes the oldest element of the queue whose turn it is in rotation over those that
name it, and signals the node. -/
def Sys2Proof.Claims.EncodeEnginesAndGraphQueues : Prop :=
  (∀ i die eng op go, encArms i = some (die, eng, op, go) → ∀ (s : State) j js c, s.encReady die eng op = j :: js →
    (s.encList die eng)[j]? = some c → exec i s = .next (
      let b := s.encBegin die eng c
      let g := go b.1 b.2
      g.2.updDie die fun d => { d with encQ := vupd d.encQ eng fun q => lupd q j fun _ => g.1 })) ∧
  (∀ i die eng op go, encArms i = some (die, eng, op, go) → ∀ (s : State) x c, s.encReady die eng op = [] →
    s.encElem die eng op = some (x, c) → exec i s = .next (
      let s := s.updQueue x.1 x.2.1 x.2.2 fun q => { q with elems := q.elems.drop 1, pushed := q.pushed.drop 1 }
      let b := s.encBegin die eng c
      let g := go b.1 b.2
      g.2.updDie die fun d => { d with encQ := vupd d.encQ eng (fun q => q ++ [g.1]), encRot := vset d.encRot eng (some x) })) ∧
  (∀ die eng (s : State) c, c.started = false → let b := s.encBegin die eng c
    let r := s.acqBy (encodeAt die eng) .module
    let wr := (r.2.die die).shadowHits c.ctx (encodeRows c.rec_)
    b.1 = { c with started := true, acq := r.1, pubW := wr } ∧ b.2 = r.2.updDie die fun d =>
      { d with pubs := wr.foldl (fun t i => tupd t i fun p => { p with wcmd := p.wcmd + 1 }) d.pubs }) ∧
  (∀ die eng (s : State) c i, (s.encList die eng).zipIdx.find? (fun x =>
      x.1.coded && !s.ctxBlocked die x.1.ctx (.encode eng)) = some (c, i) → exec (.encodeComplete die eng) s = .next (
    let w := s.writeStat die eng c
    let s := w.2.engRelease (encodeAt die eng) (if w.2.wroteHost w.1 then .system else .module) w.1.wrote
    let s := s.updDie die fun d =>
      { d with
        encQ := vupd d.encQ eng fun q => q.eraseIdx i
        pubs := w.1.pubW.foldl (fun t k => tupd t k fun p => { p with wcmd := p.wcmd - 1 }) d.pubs }
    s.cmdEnds die w.1 w.1.status)) ∧
  (∀ lid wg q (s : State) e es, (s.queue lid wg q).elems = e :: es → s.walkNext (s.wg lid wg).die = some (lid, wg, q) →
    exec (.graphQueueElement lid wg q) s = .next
      (((s.updQueue lid wg q fun x => { x with elems := es }).updDie (s.wg lid wg).die fun d =>
        { d with walkRot := some (lid, wg, q) }).signalNode (s.wg lid wg).die (s.launch lid).ctx
          (BitVec.ofNat 32 (bytesToNat e)) false))

/-- R316, R336, R344, R351 to R353, R358: the events of traps and paging. A lost gang that may restart is pending once more from its
entry; a soft error stops the threads that meet it, or the loop whose step does, loses a gang's others but where a KILL of another
cause is ending it, and in HBM has the page retired later (which of a thread's loops meets it is the model's choice, log entry 92); a
walk that a walker holds ends; a request without earlier walks is
complete, and counts at INVALDONE where no ticket made it (the model's reading, log entry 91); a ticket is granted, where the new
entries map its page, or refused. (That the whole group waits with a walk is the model's reading, log entry 25, and that a walk sees
the tables as they stand at its end, log entry 90.) -/
def Sys2Proof.Claims.TrapAndPagingEvents : Prop :=
  (∀ lid inst (s : State) l x, tget s.launches lid = some l → tget s.insts (lid, inst) = some x → l.ended = false →
    x.mayRestart l = true → exec (.gangRestart lid inst) s = .next
      ((s.updInst lid inst fun x => { x with restarted := true }).updLaunch lid fun l =>
        { l with pending := l.pending ++ [{ idx := inst, entry := l.hdr.entry }] })) ∧
  (∀ (s : State), let t := s.ext.thread
    s.ext.ok = false → s.softHit t s.ext.loc ≠ [] → s.runs t.lid t.wg = true →
    exec .softError s = .next (((s.softHit t s.ext.loc).foldl (fun s' u =>
      s'.stopThread (softFlt s.ext.loc) (s.softHit t s.ext.loc) u) (s.retireLater t s.ext.loc)).loseGang t)) ∧
  (∀ (s : State) l, let t := s.ext.thread
    s.ext.ok = true → s.softLoop t = some l → s.runs t.lid t.wg = true →
    let s' := s.retireLater t s.ext.loc
    let g := s'.wg l.lid l.wg
    exec .softError s = .next (((s'.updCore g.die g.site fun k => { k with loops := k.loops.erase l }).stopLoop g.die g.site l
      (softSource l s.ext.loc) (softFlt s.ext.loc)).loseGang t)) ∧
  (∀ (s : State) (t : TRef), let i := (s.wgOf t).inst
    ((s.inst t.lid i).gang = false ∨ (s.inst t.lid i).killer ≠ none → s.loseGang t = s) ∧
    ((s.inst t.lid i).gang = true → (s.inst t.lid i).killer = none → s.loseGang t = (
      let s' := s.updInst t.lid i fun x => { x with softLost := true }
      (((s.inst t.lid i).members.filter (· ≠ t.wg)).flatMap fun m => s'.wgLive t.lid m).foldl State.loseThread s'))) ∧
  (∀ i (s : State) die k w, signalPlace ((List.range 24).map fun d => (d, (s.die d).walks.length)) i = some (die, k) →
    (s.die die).walks[k]? = some w → k < 128 → exec (.walkComplete i) s = .next (s.endWalk die k w)) ∧
  (∀ i (s : State) x, s.inval[i]? = some x → x.walks = [] → exec (.invalidationComplete i) s = .next
    (match x.ticket with
      | none => { s with inval := s.inval.eraseIdx i, invalDone := s.invalDone + 1 }
      | some k => ({ s with inval := s.inval.eraseIdx i } : State).endTicket x.ctx k false).settle) ∧
  (∀ (s : State) k, tget (s.ctx s.ext.ctx).tickets s.ext.ticket = some k → k.done = false →
    (∀ x ∈ s.inval, ¬(x.ctx = s.ext.ctx ∧ x.ticket = some s.ext.ticket)) →
    (s.ext.ws = none → exec .pageTicketComplete s = .next (s.endTicket s.ext.ctx s.ext.ticket true).settle) ∧
    (∀ ws e, s.ext.ws = some ws → (ws.foldl State.writeTable s).walkTable s.ext.ctx k.page = .hit e →
      exec .pageTicketComplete s = .next
        ((ws.foldl State.writeTable s).startInval s.ext.ctx k.page 1 (some s.ext.ticket))))

/-- R95, R351: a walk that ends. Every thread that waits for its page, a thread that joined the walk or one of a group that waits with
it, waits no longer; where the tables do not map the page, a thread that joined carries the fault for its next try. The groups that
wait issue again, each as it was. No other thread changes, nor does memory. (That the whole group waits with the walk is the model's
reading, log entry 25, and that the walk sees the tables as they stand at its end, log entry 90.) -/
def Sys2Proof.Claims.AWalkWakesItsThreads : Prop :=
  ∀ (s : State) (die i : Nat) (w : Walk), let r := s.endWalk die i w
    let gs := w.groups.flatMap Group.threads
    let kept := fun t => match s.walkTable w.ctx w.page with
      | .hit _ => (s.thr t).walkFault
      | .fault d => some ((s.thr t).walkFault.getD (w.page, d))
    (∀ t ∈ tkeys s.threads, t ∈ w.joined ∨ t ∈ gs → (s.thr t).wait = .walk w.page → (r.thr t).wait = .none ∧
      (r.thr t).walkFault = (if t ∈ w.joined then kept t else (s.thr t).walkFault) ∧
      (r.thr t).pc = (s.thr t).pc ∧ (r.thr t).v = (s.thr t).v) ∧
    (∀ t ∈ tkeys s.threads, ∀ p, p ≠ w.page → t ∈ w.joined → (s.thr t).wait = .walk p → (r.thr t).wait = .walk p ∧
      (r.thr t).walkFault = kept t) ∧
    (∀ t, (t ∉ w.joined ∧ t ∉ gs) ∨ (∀ p, (s.thr t).wait ≠ .walk p) → r.thr t = s.thr t) ∧
    r.issueQ = s.issueQ ++ w.groups ∧ r.mem = s.mem

/-- R52, R53, R331: words that are no instruction: every thread of the group stops before them with the fault and the details that the
decoder found, and nothing else changes. -/
def Sys2Proof.Claims.UndecodedWordsTrap : Prop :=
  ∀ code d0 d1 d2 (s : State), s.GroupOk → ∃ t, exec (.encodingNotInstruction code d0 d1 d2) s = .next t ∧
    ThreadEffect s t s.cur.threads (fun _ th => { th with
      trap := some (recOf th (maskOf s.cur.threads s.cur.threads) { code := code, d0 := d0, d1 := d1, d2 := d2 })
      walkFault := none }) fun _ th => th

namespace Sys2Proof.Claims

open Sys2Proof.Machine

/-- A packet event: which packets it takes, and what their type does. -/
def pktArms : Instr → Option ((List Word → Bool) × PktGo)
  | .launchPacket => some (ofType 0x01, goLaunch)
  | .standingStart => some (ofType 0x02, goStanding)
  | .standingStop => some (ofType 0x03, goStop)
  | .inputPost => some (ofType 0x04, goInput)
  | .pin => some (ofType 0x05, goPin)
  | .unpin => some (ofType 0x06, goUnpin)
  | .copyPacket => some (ofType 0x07, goCopy)
  | .nodeSignal => some (ofType 0x08, goSignal)
  | .contextCreate => some (ofType 0x09, goCreate)
  | .contextDestroy => some (ofType 0x0A, goDestroy)
  | .iterateRead => some (ofType 0x0B, goIterate)
  | .queryAttestation => some (fun ws => pktType ws == 0x0C && queryWhat ws != 1, goReport)
  | .queryIdentity => some (fun ws => pktType ws == 0x0C && queryWhat ws == 1, goIdentity)
  | .peerSet => some (ofType 0x0D, goPeer)
  | .unknownPacketType => some (fun ws => !typeKnown (pktType ws), fun _ _ _ s => some (.fail s .badPacket))
  | _ => none

/-- A packet that is finished with status OK, and one that is accepted and still to finish. -/
def finished (s : State) : PktRes := { s := s }

def accepted (s : State) : PktRes := { open_ := true, s := s }

/-- A packet of fields `fs` at the head of a queue is admitted to its type's own checks (R366): it parses, its queue may hold its type,
and its queue's context exists where the type needs one. -/
def Admitted (s : State) (d : QDesc) (ws : List Word) (fs : List Field) : Prop :=
  parsePacket ws = .ok fs ∧ (adminType (pktType ws) = true → d.admin = true) ∧
    (adminType (pktType ws) = false → (tget s.contexts d.ctx).isSome = true)

end Sys2Proof.Claims

/-- R365, R366: where the packet that stands at the read index of some queue is of an event's type and need not wait, the event takes
up such a packet of one of the queues, and the state is the one that the packet leaves. -/
def Obligations.PacketsAreTakenUp : Prop :=
  ∀ i A, pktArms i = some A → ∀ (s : State) q t, q ∈ tkeys s.hqueues → s.tryPacket A.1 A.2 q = some t →
    ∃ q' t', q' ∈ tkeys s.hqueues ∧ s.tryPacket A.1 A.2 q' = some t' ∧ exec i s = .next t'.draw

/-- R366: the checks of a packet, in their order: one that does not parse ends with the status of its parse; one of an admin type on
another queue with NOT_ADMIN; another one whose context does not exist with NO_CONTEXT; an admitted one comes to what its type
does. -/
def Sys2Proof.Claims.PacketChecks : Prop :=
  ∀ (s : State) (q : Nat) (d : QDesc) (ws : List Word) (go : PktGo),
    (∀ st, parsePacket ws = .error st → s.runPacket q d ws go = some (.fail s st)) ∧
    (∀ fs, parsePacket ws = .ok fs → adminType (pktType ws) = true → d.admin = false →
      s.runPacket q d ws go = some (.fail s .notAdmin)) ∧
    (∀ fs, parsePacket ws = .ok fs → adminType (pktType ws) = false → tget s.contexts d.ctx = none →
      s.runPacket q d ws go = some (.fail s .noContext)) ∧
    (∀ fs, Admitted s d ws fs → s.runPacket q d ws go = go (q, (s.hqueue q).rd) d.ctx fs s)

/-- R366, R367: once a packet has been taken up, its queue's read index has passed it; it stays open where it is still to finish; with
CPL one completion entry more has been written. No other queue's indexes change. -/
def Sys2Proof.Claims.AcceptedPacketsPass : Prop :=
  ∀ (r : PktRes) (q idx : Nat) (d : QDesc) (ws : List Word), let t := r.pass q idx d ws
    (t.hqueue q).rd = idx + ws.length ∧ (t.hqueue q).tail = (r.s.hqueue q).tail ∧
    (t.hqueue q).open_ = (if r.open_ = true ∧ r.st = .ok then (r.s.hqueue q).open_ ++ [(idx, ws.headD 0)]
      else (r.s.hqueue q).open_) ∧
    (t.hqueue q).cpl = (r.s.hqueue q).cpl + (if (ws.headD 0).getLsbD 24 then 1 else 0) ∧
    (∀ k, k ≠ q → t.hqueue k = r.s.hqueue k) ∧ t.threads = r.s.threads ∧ t.launches = r.s.launches

/-- R1, R197, R204, R206, R218, R293, R327, R368, R371, R376, R378, R383: what each type of packet does when its own checks pass. An
input's payload is written and released at system scope, its pairs are sent from the home die, and its sequence is the program's last;
a report is the nonce, the digests, the feature words, the leaf index and the signature, written at OUT. (That a NODE_SIGNAL is applied
at once, and that the leaf advances before its report is written, is the model's reading, log entry 95; that a start binds the iterate
headers, log entry 96; the report's layout, log entry 94; that a context comes and goes with its counters cleared, log entry 137.) -/
def Sys2Proof.Claims.PacketTypesAct : Prop :=
  (∀ k ctx fs (s : State), s.idGen.getLsbD 0 = false →
    goLaunch k ctx fs s = some { accepted (s.accept ctx false (some k) fs none 0) with result := s.nextLid }) ∧
  (∀ k ctx fs (s : State) p, s.idGen.getLsbD 0 = false → (s.accept ctx true (some k) fs none 0).prog s.nextLid = some p →
    goStanding k ctx fs s = some { finished (p.dies.foldl (fun t d => t.bindIter ctx s.nextLid p d)
      (s.accept ctx true (some k) fs none 0)) with result := s.nextLid, slot := p.slot }) ∧
  (∀ k ctx fs (s : State) lid p, s.running? ctx fs = some (lid, p) →
    goStop k ctx fs s = some (accepted (s.updProg lid fun p => { p with state := 1, stopPkt := some k }))) ∧
  (∀ k ctx fs (s : State) lid p, s.running? ctx fs = some (lid, p) → p.lastSeq.toNat < (f2 fs 51 0).toNat →
    (∀ c ∈ inputContribs lid p (f2 fs 51 0) fs, p.brick? c.brick ≠ none) → ∃ t, goInput k ctx fs s = some (accepted t) ∧
      t.contribs = s.contribs ++ inputContribs lid p (f2 fs 51 0) fs ∧ t.threads = s.threads ∧
      (fbody fs 52 = none → t.mem = s.mem ∧ t.order = s.order) ∧
      (∀ b, fbody fs 52 = some b →
        let w := s.fwWriteVa .system ctx (pair64 b 0).toNat (wordsToBytes (b.drop 2))
        t.mem = w.mem ∧ t.order = w.order) ∧
      ∃ q, t.prog lid = some q ∧ q.lastSeq = f2 fs 51 0 ∧
        q.inputs = p.inputs ++ [{ seq := f2 fs 51 0, q := some k.1, pkt := k.2 }]) ∧
  (∀ k ctx fs (s : State) mask, let r := (fbody fs 70).getD []
    s.domainMask fs = .ok mask → cSk r ≤ 1 → cDk r ≤ 1 → f1 fs 71 0 ≤ 7 →
    goCopy k ctx fs s = some (accepted (s.updDie ((s.domainOf mask).headD 0) fun d =>
      { d with copyQ := vupd d.copyQ (f1 fs 71 0) fun q => q ++ [{ rec_ := r, ctx := ctx, packet := some k }] }))) ∧
  (∀ k ctx fs (s : State) mask n, let die := (s.domainOf mask).headD 0
    let id := BitVec.ofNat 32 (f1 fs 80 0)
    s.domainMask fs = .ok mask → (s.die die).node? ctx id = some n → s.ctxBlocked die ctx .walker = false →
    goSignal k ctx fs s = some (finished ((s.updNode die ctx (id.toNat % 2 ^ 16) fun n =>
      { n with count := n.count - 1 }).tryFire die ctx (id.toNat % 2 ^ 16)))) ∧
  (∀ k q fs (s : State), let ctx := f1 fs 90 0
    let c := newContext s fs
    let s' : State := { s with contexts := tset s.contexts ctx c, nextKey := s.nextKey + 1 }
    ctx < 4096 → tget s.contexts ctx = none → contextOk c = true →
    s'.areaOk ctx c.trapBase.toNat (16384 * c.tslots) = true → s'.areaOk ctx c.saveBase.toNat (65536 * c.svsize) = true →
    let new := (s'.clearSlots ctx).clearCounters ctx
    (f2? fs 93 = none → goCreate k q fs s = some (finished new)) ∧
    ∀ va code e, f2? fs 93 = some va → new.trapImage ctx va = some (code, e) → goCreate k q fs s =
      some (finished (new.updCtx ctx fun c =>
        { c with trapImg := some va, trapCode := some code, trapEntry := e }))) ∧
  (∀ k q fs (s : State), let ctx := f1 fs 90 0
    tget s.contexts ctx ≠ none → s.ctxBusy ctx = false → ∃ t, goDestroy k q fs s = some (finished t) ∧
      tget t.contexts ctx = none ∧ (∀ c, c ≠ ctx → tget t.contexts c = tget s.contexts c) ∧ t.threads = s.threads ∧
      t.mem = s.mem ∧ (∀ (i : Nat) (c : Counter), s.hubCtrs[i]? = some c → c.ctx.toNat = ctx →
        t.hubCtrs[i]? = some ({ ctx := c.ctx } : Counter))) ∧
  (∀ k ctx fs (s : State) lid p bs, s.running? ctx fs = some (lid, p) →
    (chunks 2 ((fbody fs 110).getD [])).mapM (fun c => s.iterElem ctx p (c.getD 0 0).toNat (c.getD 1 0).toNat) = some bs →
    goIterate k ctx fs s = some (finished (s.fwWriteVa .system ctx (f2 fs 111 0).toNat bs.flatten))) ∧
  (∀ k ctx fs (s : State), f1 fs 120 0 = 0 → ∃ t sig c, goReport k ctx fs s = some (finished t) ∧
    let r := wordsToBytes ((fbody fs 121).getD (List.replicate 8 0)) ++ s.imageDigests ++ natToBytes 32 s.devfeat.toNat ++
      natToBytes 32 s.drvfeat.toNat ++ natToBytes 4 (s.xmssLeaf + 1) ++ sig
    sig.length = 2820 ∧
    t = ({ s with xmssLeaf := s.xmssLeaf + 1, freeCtr := c } : State).fwWriteVa .system ctx (f2 fs 122 0).toNat r ∧
    t.xmssLeaf = s.xmssLeaf + 1 ∧ t.threads = s.threads) ∧
  (∀ k ctx fs (s : State), goIdentity k ctx fs s =
    some (finished (s.fwWriteVa .system ctx (f2 fs 122 0).toNat ((List.range 65536).map s.identByte)))) ∧
  (∀ k q fs (s : State), let ctx := f1 fs 90 0
    let es := chunks 4 ((fbody fs 99).getD [])
    tget s.contexts ctx ≠ none → (∀ c ∈ es, c.getD 3 0 = 0) → goPeer k q fs s =
      some (finished (s.updCtx ctx fun c => { c with peers := (es.map peerOf).foldl (fun t p => tset t p.1 p.2) c.peers })))

/-- R218: pinning. PIN makes the buffers of its list on every die of its domain and records the session there (what its list may
hold is checked as log entry 93 says); UNPIN takes a session
that no running launch maps from every die, its buffers with it. -/
def Sys2Proof.Claims.PinningAndUnpinning : Prop :=
  (∀ k ctx fs (s : State) mask s', let x := f2 fs 60 0
    let rs := (chunks 3 ((fbody fs 16).getD [])).map bufReq
    let dom := s.domainOf mask
    let onDie := fun d => (rs.filter fun r => s.onlineDies.getD r.die 24 == d).map BufReq.id
    s.domainMask fs = .ok mask → (∀ r ∈ rs, r.lvl = 2) → (∀ d ∈ dom, onDie d ≠ [] ∧ (onDie d).length ≤ 8) →
    (∀ d ∈ dom, (∀ p ∈ (s.die d).pins, ¬(p.session = x ∧ p.ctx = ctx)) ∧ (s.die d).pins.length < 4096) →
    State.makeBufs ctx 0 (some x) 0 dom ((List.range 24).filter fun i => mask.testBit i) [] rs s = .ok s' →
    goPin k ctx fs s = some (finished (dom.foldl (fun s d => s.updDie d fun y =>
      { y with pins := y.pins ++ [{ session := x, ctx := ctx, bufs := onDie d }] }) s'))) ∧
  (∀ k ctx fs (s : State), let x := f2 fs 60 0
    (∃ d < 24, ∃ p ∈ (s.die d).pins, p.session = x ∧ p.ctx = ctx) →
    (∀ l ∈ s.launches, ¬(l.2.ctx = ctx ∧ l.2.ended = false ∧ l.2.session = some x)) → ∃ t, goUnpin k ctx fs s = some (finished t) ∧
      (∀ d < 24, (t.die d).pins = (s.die d).pins.filter (fun p => !(p.session == x && p.ctx == ctx)) ∧
        (t.die d).bufs = (s.die d).bufs.filter fun b => !(b.2.ctx == ctx && b.2.session == some x)) ∧
      t.threads = s.threads ∧ t.mem = s.mem)

/-- R346, R352, R365, R367, R372, R373, R378: queues and registers. The oldest latch entry is applied to its queue: a tail that does not
exceed the queue's is ignored, one too far beyond the read index stops the queue, any other raises the tail; while LOVF stands, a
rescan applies the TAIL of every enabled descriptor so, and clears it; a packet of length zero stops its queue; near the end of its
leaves the block goes over to a new tree; a write of INVAL starts the request that its words name; DRVFEAT keeps to what is offered; a
register takes its value; a submission enters the latch, or is dropped where it is full, which LOVF shows. (When the block goes over to
a new tree, and that its leaf 0 is next, is the model's reading, log entry 95; that INVAL's page count stands in bits 31:12 of its first
word, log entry 91; that a register written is named by its place in `ext`, log entry 98.) -/
def Sys2Proof.Claims.QueuesAndRegisters : Prop :=
  (∀ (s : State) q tail l, s.running = true → s.latch = (q, tail) :: l →
    exec .latchEntry s = .next ({ s with latch := l }.applyTail q tail)) ∧
  (∀ (s : State) q tail, (tail ≤ (s.hqueue q).tail → s.applyTail q tail = s) ∧
    ∀ d, (s.hqueue q).tail < tail → s.qdesc q = some d →
      ((s.hqueue q).rd + 2 ^ d.log < tail → s.applyTail q tail = s.stopQueue q) ∧
      (tail ≤ (s.hqueue q).rd + 2 ^ d.log → ((s.applyTail q tail).hqueue q).tail = tail ∧
        ((s.applyTail q tail).hqueue q).err = (s.hqueue q).err ∧ (s.applyTail q tail).mem = s.mem ∧
        ∀ k, k ≠ q → (s.applyTail q tail).hqueue k = s.hqueue k)) ∧
  (∀ (s : State), s.running = true → s.lovf = true → ∃ t, exec .tailRescan s = .next t ∧
    (let r : State := (List.range 65536).foldl (fun (s : State) q => match s.qdesc q with
        | some d => if d.en then s.applyTail q d.tail else s
        | none => s) s
     t = { r with lovf := false }) ∧
    t.lovf = false ∧ t.threads = s.threads ∧ t.latch = s.latch) ∧
  (∀ (s : State) q, (tkeys s.hqueues).find? (fun q => s.nextPkt q = .stop) = some q → ∃ t, exec .queueStop s = .next t ∧
    t = s.stopQueue q ∧ (t.hqueue q).err = true ∧ (t.hqueue q).rd = (s.hqueue q).rd ∧ ∀ k, k ≠ q → t.hqueue k = s.hqueue k) ∧
  (∀ (s : State), s.power = true → 2 ^ 20 - 4096 ≤ s.xmssLeaf →
    exec .xmssTreeRollover s = .next { s with xmssLeaf := 0, xmssTree := s.xmssTree + 1 }) ∧
  (∀ (s : State), s.power = true →
    (s.ext.w2.getLsbD 63 = true → exec .inval s = .next
      (({ s with invalReg := (s.ext.w0, s.ext.w1, s.ext.w2) } : State).startInval (s.ext.w0.toNat % 2 ^ 12)
        (s.ext.w1.toNat / 2 ^ 16) (s.ext.w0.toNat / 2 ^ 12 % 2 ^ 20) none)) ∧
    (s.ext.w2.getLsbD 63 = false → exec .inval s = .next { s with invalReg := (s.ext.w0, s.ext.w1, s.ext.w2) }) ∧
    (∃ t, exec .drvfeat s = .next t ∧ t = { s with drvfeat := t.drvfeat } ∧
      (s.contexts = [] → t.drvfeat = s.ext.val &&& s.devfeat) ∧
      (s.contexts ≠ [] → t.drvfeat = (s.ext.val &&& s.devfeat) ||| s.drvfeat)) ∧
    (s.ext.q = 0 → exec .registerWrite s = .next (s.mmioWrite s.ext.off s.ext.val.toNat)) ∧
    (s.ext.q = 1 → exec .registerWrite s = .next (s.updDie s.ext.die fun d => d.setPregran s.ext.val.toNat)) ∧
    (s.ext.q = 2 → exec .registerWrite s = .next
      (s.setCounterCtx s.ext.die s.ext.site s.ext.link (BitVec.ofNat 12 s.ext.val.toNat))) ∧
    (s.ext.q < 65536 → s.latch.length < 4096 →
      exec .submissionWrite s = .next { s with latch := s.latch ++ [(s.ext.q, s.ext.tail)] }) ∧
    (s.ext.q < 65536 → 4096 ≤ s.latch.length → ∃ t, exec .submissionWrite s = .next t ∧ t.lovf = true ∧ t.latch = s.latch))

namespace Sys2Proof.Claims

open Sys2Proof.Machine

/-- A change of a die's cores: its event, whether it may begin, the sites it clears, and what it makes of the die. -/
def serviceArms (s : State) : Instr → Option (Bool × (Nat → Bool) × (Die → Die))
  | .coreRetire => some ((s.die s.ext.die).online && (s.die s.ext.die).sites.contains s.ext.site, (· == s.ext.site), fun d =>
      { d with offline := d.offline ||| (1#36 <<< s.ext.site) })
  | .dieEvacuate => some ((s.die s.ext.die).online, fun _ => true, fun d => { d with online := false, away := true })
  | .dieReturn => some ((s.die s.ext.die).away, fun _ => false, fun d => { d with online := true, away := false })
  | _ => none

end Sys2Proof.Claims

/-- 00_scope.md, R2, R361, R371, R378: power and firmware. The host brings the module up, with the firmware images, which run only
where they are verified; its 24 dies are online, each with at least 33 live cores; without power nothing
is left but host memory, the security block's storage and what is to come; an update takes a verified image to the twelve firmware
cores one after another, and only then offers the image's features; a restart keeps the latch, and firmware runs again only where every
image is verified. Recalibrations change nothing. (What stays without power, and that HBM then reads as zero, is the model's reading, log
entry 102; that an update takes one firmware core a step, and a restart two steps, is the model's choice, log entry 101; what a
recalibration leaves is log entry 104.) -/
def Sys2Proof.Claims.PowerAndFirmware : Prop :=
  (∀ (s : State), s.power = false → ∃ t, exec .powerUp s = .next t ∧ t.power = true ∧ t.running = s.ext.ok ∧
    t.fwImages = Vector.replicate 12 (if s.ext.ok then some s.ext.image else none) ∧
    (∀ d < 24, (t.die d).online = true ∧ 33 ≤ (t.die d).sites.length) ∧ t.mem = s.mem ∧ t.threads = s.threads ∧ t.contexts = s.contexts) ∧
  (∀ (s : State), ∃ t, exec .moduleUnpowered s = .next t ∧ t.power = false ∧ t.threads = [] ∧ t.launches = [] ∧ t.contexts = [] ∧
    t.xmssLeaf = s.xmssLeaf ∧ t.agenda = s.agenda ∧ ∀ a, memGet t.mem a = if hostBase ≤ a then memGet s.mem a else 0) ∧
  (∀ (s : State), s.power = true → s.fwOut = none → s.ext.ok = true → exec .firmwareUpdate s = .next
    { s with updating := true, fwOut := some (0, s.ext.image, s.ext.val) }) ∧
  (∀ (s : State) k img feat, s.power = true → s.fwOut = some (k, img, feat) → k < 11 → exec .firmwareUpdate s = .next
    { s with fwImages := vset s.fwImages k (some img), fwOut := some (k + 1, img, feat) }) ∧
  (∀ (s : State) img feat, s.power = true → s.fwOut = some (11, img, feat) → exec .firmwareUpdate s = .next
    { s with fwImages := vset s.fwImages 11 (some img), fwOut := none, updating := false, devfeat := s.devfeat ||| feat }) ∧
  (∀ (s : State), s.power = true → exec .firmwareRestart s = .next
    { s with running := !s.running && s.fwImages.all Option.isSome }) ∧
  (∀ (s : State), exec .laneRecalibration s = .next s) ∧ (∀ (s : State), exec .clockRecalibration s = .next s)

/-- R349, R364, R375, R379, R380: live service. A change of a die's cores begins, where it may and the saves would fit, with the identity
page's GEN odd and the pre-emption of the units there; while a unit is left it is asked for again, and once none is the change is made,
and GEN is even again (these steps are the model's reading, log entry 100). A retired page's bytes lie where its new page is, and no other byte outside the two pages changes;
the entries of every context's tables that name the page, where a table that lay in it now stands too, and valid entries of the HDM map, name the new one, and a block that holds
it is split into a table of its pages, which the driver gives room for (the model's reading, log entry 103); the split maps every
other page of the block as it was. -/
def Sys2Proof.Claims.LiveService : Prop :=
  (∀ i (s : State) ok at_ f, serviceArms s i = some (ok, at_, f) → s.power = true → s.change = none → ok = true →
    s.saveFits (((s.occupants s.ext.die at_).map fun g => (g.1.1, g.2.inst)).eraseDups) = true → exec i s = .next
      (({ s with idGen := s.idGen + 1, change := some (i, s.ext) } : State).vacate s.ext.die at_)) ∧
  (∀ i (s : State) ok at_ f, serviceArms s i = some (ok, at_, f) → s.power = true → s.change = some (i, s.ext) →
    s.occupants s.ext.die at_ ≠ [] →
    s.saveFits (((s.occupants s.ext.die at_).map fun g => (g.1.1, g.2.inst)).eraseDups) = true →
    exec i s = .next (s.vacate s.ext.die at_)) ∧
  (∀ i (s : State) ok at_ f, serviceArms s i = some (ok, at_, f) → s.power = true → s.change = some (i, s.ext) →
    s.occupants s.ext.die at_ = [] → ∃ t, exec i s = .next t ∧ t.idGen = s.idGen + 1 ∧ t.change = none ∧
      t.dies = vupd s.dies s.ext.die f ∧ t.threads = s.threads ∧ t.mem = s.mem) ∧
  (∀ (s : State), s.power = true → s.ext.pa % 65536 = 0 → s.ext.newPa % 65536 = 0 → backed s.ext.pa = true →
    backed s.ext.newPa = true → s.ext.pa ≠ s.ext.newPa → s.tablesGiven s.ext.pa s.ext.off = true → exec .hbmPageRetire s = .next (
      let s' := s.rename s.ext.pa s.ext.newPa
      let all := s.allEntries.map fun x => (x.1, movedLoc s.ext.pa s.ext.newPa x.2)
      let named := all.filter fun x => namesPage x.1 (s'.tableEntry x.2) s.ext.pa
      let blocks := (all.filter fun x => inBlock x.1 (s'.tableEntry x.2) s.ext.pa).map Prod.snd
      let hdm := (List.range s'.hdmCnt).filter fun i => s'.hdmPage i == some s.ext.pa
      let r := named.foldl (fun r x =>
        r.writeTable (x.2, BitVec.ofNat 64 (s'.tableEntry x.2 - s.ext.pa + s.ext.newPa))) s'
      let r := blocks.zipIdx.foldl (fun r x => r.splitBlock s.ext.pa s.ext.newPa (s.ext.off + 65536 * x.2) x.1) r
      hdm.foldl (fun r i => r.writeTable (s'.hdmBase + 8 * i, BitVec.ofNat 64 (s.ext.newPa + 1))) r)) ∧
  (∀ (s : State), s.power = true → s.tablesGiven s.ext.pa s.ext.off = false → exec .hbmPageRetire s = .next s) ∧
  (∀ (s : State) pa newPa tbl a k, let e := s.tableEntry a
    tbl % 65536 = 0 → tbl < 2 ^ 52 → a % 8 = 0 → a < hostBase → a / 65536 ≠ tbl / 65536 → inBlock 2 e pa = true → k < 4096 →
    newPa % 65536 = 0 → newPa < 2 ^ 52 →
    let r := s.splitBlock pa newPa tbl a
    let p := entryPa e + 65536 * k
    r.tableEntry a = tbl + 3 ∧ entryPa (r.tableEntry (tbl + 8 * k)) = (if p = pa then newPa else p) ∧
      (r.tableEntry (tbl + 8 * k)) % 4 = 3 ∧ (r.tableEntry (tbl + 8 * k)) / 4 % 8 = e / 4 % 8) ∧
  (∀ (m : List Host.Cell) (pa newPa : Nat), Memory.wf m → pa % 65536 = 0 → newPa % 65536 = 0 → pa ≠ newPa →
    (∀ k, k < 65536 → memGet (movePage m pa newPa) (newPa + k) = memGet m (pa + k)) ∧
    ∀ a, a / 65536 * 65536 ≠ pa → a / 65536 * 65536 ≠ newPa → memGet (movePage m pa newPa) a = memGet m a)

/-- R264, R376: Gwetin Link. A frame is applied and acknowledged, or dropped and negatively acknowledged; an acknowledged frame is on
its way no longer; a negative acknowledgement of a key tag (a bit of the event: log entry 105) fails the command; at any other, and at a time-out, the flow sends its unacknowledged frames
again, in their order; a bad flit is sent again; a failed link carries nothing from then on. (That an acknowledgement covers its own frame, and the form of a
resend, are the model's choice, log entry 105.) -/
def Sys2Proof.Claims.LinkEvents : Prop :=
  ∀ (s : State), s.power = true →
    (∀ t, s.takeFrame s.ext.frame = some t →
      exec .peerDataFrame s = .next { t with peerOut := t.peerOut ++ [(true, s.ext.frame.flow, s.ext.frame.seq)] }) ∧
    (s.takeFrame s.ext.frame = none →
      exec .peerDataFrame s = .next { s with peerOut := s.peerOut ++ [(false, s.ext.frame.flow, s.ext.frame.seq)] }) ∧
    (∃ t, exec .peerAck s = .next t ∧ (∀ x ∈ t.flows, ∀ f ∈ x.2.sent, (f.flow, f.seq) ≠ (s.ext.flow, s.ext.seq)) ∧
      (∀ d < 24, ∀ q ∈ (t.die d).copyQ, ∀ c ∈ q, (s.ext.flow, s.ext.seq) ∉ c.frames) ∧ t.threads = s.threads ∧ t.mem = s.mem) ∧
    (s.ext.ok = true → exec .peerNak s = .next (s.failFrames (· == (s.ext.flow, s.ext.seq)))) ∧
    (∀ x, tget s.flows s.ext.flow = some x → s.ext.ok = false → exec .peerNak s = .next
      { s with linkOut := s.linkOut ++ x.sent, linkResends := s.linkResends + 1 }) ∧
    (∀ x, tget s.flows s.ext.flow = some x → x.sent ≠ [] → exec .peerResendTimeout s = .next
      { s with linkOut := s.linkOut ++ x.sent, linkResends := s.linkResends + 1 }) ∧
    exec .flitCrcFail s = .next { s with linkResends := s.linkResends + 1 } ∧
    (s.ext.link ∉ s.linksDown → ∃ t, exec .linkFail s = .next t ∧ t.linksDown = s.linksDown ++ [s.ext.link] ∧
      t.threads = s.threads ∧ t.mem = s.mem)

/-- R285 to R287, R356: the debugger. HALT and DEBUG_RESUME stop and continue a unit's threads and arm or disarm its launch's
breakpoint halts; within a step of deterministic scheduling the halt waits for the step's end; a write to a register of a halted thread
waits where a result is outstanding for the register, is refused where the register is not allocated to the thread, is p0 or an s
register, and else takes its value, p1 to p7 among them; DRAIN writes every outstanding result of a halted unit. (That a bit of the act
arms breakpoint halts is the model's choice, log entry 60; what DRAIN completes, and a HALT inside a step, are its reading, log entries
106 and 107.) -/
def Sys2Proof.Claims.DebuggerActs : Prop :=
  ∀ (s : State), s.power = true →
    exec .halt s = .next ((s.haltUnit s.ext.lid s.ext.inst).updLaunch s.ext.lid fun l => { l with bkHalt := s.ext.ok }) ∧
    exec .debugResume s = .next
      ((s.resumeUnit s.ext.lid s.ext.inst).updLaunch s.ext.lid fun l => { l with bkHalt := s.ext.ok }) ∧
    (∀ lid inst, s.atBoundary lid = false → s.haltUnit lid inst = s.updLaunch lid fun l =>
      { l with haltDue := if l.haltDue.contains inst then l.haltDue else l.haltDue ++ [inst] }) ∧
    (∀ n, s.ext.reg = .v n → (s.thr s.ext.thread).halted = true → s.ext.thread ∈ tkeys s.threads → ∃ t,
      exec .debugWrite s = .next t ∧ t.dbgOut = s.debugOutcome s.ext.thread (.v n) ∧
      t.thr s.ext.thread = (if s.debugOutcome s.ext.thread (.v n) = 3 then (s.thr s.ext.thread).setV n s.ext.word
        else s.thr s.ext.thread) ∧ (∀ u, u ≠ s.ext.thread → t.thr u = s.thr u) ∧ t.mem = s.mem) ∧
    (∀ (u : TRef) n, (∀ x ∈ s.awaited u ++ s.popDst u, overlaps n 1 x.1 x.2 = false) →
      s.debugOutcome u (.v n) = if n < 128 && allocated (s.thr u).level (s.wave u).c n then 3 else 2) ∧
    (∀ (u : TRef) n x, x ∈ s.awaited u ++ s.popDst u → overlaps n 1 x.1 x.2 = true → s.debugOutcome u (.v n) = 1) ∧
    (∀ k, s.ext.reg = .p k → (s.thr s.ext.thread).halted = true → s.ext.thread ∈ tkeys s.threads → ∃ t,
      exec .debugWrite s = .next t ∧ t.dbgOut = (if 1 ≤ k ∧ k ≤ 7 then 3 else 2) ∧
      t.thr s.ext.thread = (if 1 ≤ k ∧ k ≤ 7 then (s.thr s.ext.thread).setP k (s.ext.word.getLsbD 0) else s.thr s.ext.thread) ∧
      (∀ u, u ≠ s.ext.thread → t.thr u = s.thr u) ∧ t.waves = s.waves ∧ t.mem = s.mem) ∧
    (∀ n, s.ext.reg = .s n → (s.thr s.ext.thread).halted = true → s.ext.thread ∈ tkeys s.threads → ∃ t,
      exec .debugWrite s = .next t ∧ t.dbgOut = 2 ∧ t.threads = s.threads ∧ t.waves = s.waves ∧ t.mem = s.mem) ∧
    (let ts := (s.inst s.ext.lid s.ext.inst).members.flatMap fun m => s.wgLive s.ext.lid m
     (∀ t ∈ ts, (s.thr t).halted = true) → exec .drain s = .next (
       let mine := fun t => ts.contains t
       let s := State.drainLoads mine s.loads.length s
       let s := State.drainResults mine s.results.length s
       (ts.filter fun t => !(s.popDst t).isEmpty).foldl State.queueResume s))

namespace Sys2Proof.Claims

open Sys2Proof.Machine

/-- The group that issues stands at an instruction: its threads are those of the formed group that still stand there, none has an
asynchronous fault, and the words at its PC decode to i. -/
def Issues (s : State) (g : Group) (rest : List Group) (i : Instr) : Prop :=
  s.issueQ = g :: rest ∧ s.stillIn g ≠ [] ∧ (∀ t ∈ s.stillIn g, (s.thr t).async = none) ∧
    (decodeWords (s.fetchWords ((s.stillIn g).headD noRef))).1 = i

/-- The state in which it executes: the group is the issuing one, off the queue, with its first two words kept for the details of a
fault. -/
def atIssue (s : State) (g : Group) (rest : List Group) : State :=
  let t := (s.stillIn g).headD noRef
  { s with
    issueQ := rest
    cur := { g with threads := s.stillIn g }
    curW0 := (s.fetchWords t).getD 0 0
    curW1 := (s.fetchWords t).getD 1 0 }

/-- The access that a thread's instruction makes lies in its address space and meets its alignment, and its stack access lies in the
stack region: the first three checks of R95. -/
def AccessShape (s : State) (t : TRef) (ea : DWord) (n : Nat) (align stack : Bool) : Prop :=
  ea.toNat < 2 ^ 52 ∧ (align = true → ea.toNat % n = 0) ∧ (stack = true → (s.thr t).sp.toNat % 16 = 0) ∧
    (stack = true → (s.stackRegion t).1 ≤ ea.toNat ∧ ea.toNat + n ≤ (s.stackRegion t).1 + (s.stackRegion t).2)

/-- What every step keeps: memory is in its canonical form; the submission latch holds at most 4,096 entries (R372); DRVFEAT enables
nothing that DEVFEAT does not offer (R34, R373). -/
def Sound (s : State) : Prop := Memory.wf s.mem ∧ s.latch.length ≤ 4096 ∧ s.drvfeat &&& ~~~s.devfeat = 0

end Sys2Proof.Claims

/-- R37 to R48: every well-formed instruction has its words, and they decode to it, all of them; with any words behind them too. No bit
of an operand, of a guard, of a type or of a class field is lost. -/
def Obligations.EncodedInstructionsDecode : Prop :=
  ∀ i : Instr, i.wf = true → ∃ ws, encode i = some ws ∧ 4 * ws.length = i.bytes ∧
    ∀ rest, decodeWords (ws ++ rest) = (i, 4 * ws.length)

/-- R52: what the decoder answers for words that are no instruction is an event with a fault, and what it answers otherwise is
well-formed; in either case the length is the one that LEN of word 0 gives. -/
def Obligations.DecodedInstructionsAreWellFormed : Prop :=
  ∀ ws : List Word, ((decodeWords ws).1.wf = true ∨ ∃ c d0 d1 d2, (decodeWords ws).1 = .encodingNotInstruction c d0 d1 d2) ∧
    (decodeWords ws).2 = match (ws.headD 0).toNat % 4 with
      | 0 => 4
      | 3 => 20
      | _ => 12

namespace Sys2Proof.Claims

open Sys2Proof.Machine

/-- A long form with RND 0, SAT 0 and no literal. -/
def formOf (d a b c : Operand) (p : Pred) (ty : Ty) : Hdr := ⟨d, a, b, c, p, ty, .rne, false, none⟩

end Sys2Proof.Claims

/-- R37, R38, R43, R48, R49, and the worked words of spec/03, 07, 09, 10, 11, 14, 17, 18, 20, 21 and 22: words that the spec writes out decode to
the instructions it writes beside them: `nop`; `add v0, v0, 10`; `?p1 br loop`; `setp.eq p1, v4, 0`; 
`atom.cas.acq v1, [z31], v5, 0`; `kmov.ballot k5, p2, k0`; `redux.add.i32 s5, v1, k0`; `rtest p2, 5, v3`; 
`spawn 4, v2, child`; `residm.f32 v5`; `tmov.dl [w4], [w6], v3, 256, 0`; `owntake.wait v1`; `shadow.addr w6, v1`; 
`mgate.win p2, h0, 7, v9, v10`; `trapret.retry v4`; `cntrd.die w2, 3`; the all-zero word; MAJ 0x28 of the short map. -/
def Obligations.WordsDecodeAsTheSpecLaysThemOut : Prop :=
  decodeWords [0x00000004] = (.nopShort ⟨.v 0, .v 0, .v 0, none⟩, 4) ∧
  decodeWords [0xDA00000C] = (.addShort ⟨.v 0, .v 0, .int 26, none⟩, 4) ∧
  decodeWords [0x00000021, 0x00040002, 0xFFFFFFE8] = (.br (formOf (.v 0) (.v 0) (.v 0) (.v 0) (.pos 1) .b32) 0xFFFFFFE8, 12) ∧
  decodeWords [0xD004000D, 0x00C00000, 0x00000001] = (.setp (formOf (.v 0) (.v 4) (.int 16) (.v 0) .always .i32) ⟨1, .eq, 0, false, .set⟩, 12) ∧
  decodeWords [0x05BE0129, 0x00034017, 0x01000000] = (.atomCas (formOf (.v 1) (.s 62) (.v 5) (.int 16) .always .b32) ⟨0, .acq, .module⟩, 12) ∧
  decodeWords [0x0000002D, 0x00000004, 0x00012005] = (.kmovBallot (formOf (.v 0) (.v 0) (.v 0) (.v 0) .always .b32) 5 0 2 false, 12) ∧
  decodeWords [0x00018531, 0x00C00007, 0x00000000] = (.redux (formOf (.s 5) (.v 1) (.v 0) (.v 0) .always .i32) 0 .add, 12) ∧
  decodeWords [0x00030035, 0x00000005, 0x00100005] = (.rtest (formOf (.v 0) (.v 3) (.v 0) (.v 0) .always .b32) 5 2, 12) ∧
  decodeWords [0x02D40039, 0x00000000, 0x00000010] = (.spawn (formOf (.v 0) (.int 20) (.v 2) (.v 0) .always .b32) 16 false, 12) ∧
  decodeWords [0x0500003D, 0x02C00001, 0x00000000] = (.residm (formOf (.v 0) (.v 0) (.v 5) (.v 0) .always .f32), 12) ∧
  decodeWords [0x0C080041, 0x00000C06, 0x00000102] = (.tmov (formOf (.v 0) (.v 8) (.v 12) (.v 3) .always .b32) ⟨.die, .core, 16, 0⟩, 12) ∧
  decodeWords [0x00010045, 0x00000001, 0x00000005] = (.owntake (formOf (.v 0) (.v 1) (.v 0) (.v 0) .always .b32) .workgroup true, 12) ∧
  decodeWords [0x00010C55, 0x00000004, 0x00000001] = (.shadowAddr (formOf (.v 12) (.v 1) (.v 0) (.v 0) .always .b32), 12) ∧
  decodeWords [0x0A090059, 0x00000004, 0x000281C0] = (.mgate (formOf (.v 0) (.v 9) (.v 10) (.v 0) .always .b32) ⟨0, 7, 2, true⟩, 12) ∧
  decodeWords [0x0004005D, 0x00000001, 0x00000002] = (.trapretRetry (formOf (.v 0) (.v 4) (.v 0) (.v 0) .always .b32), 12) ∧
  decodeWords [0x00000461, 0x00000001, 0x00000023] = (.cntrd (formOf (.v 4) (.v 0) (.v 0) (.v 0) .always .b32) ⟨3, .die, 0⟩, 12) ∧
  decodeWords [0] = (.encodingNotInstruction .zeroWord 0 0 0, 4) ∧
  decodeWords [0x020103A0] = (.encodingNotInstruction .illegalInstruction 2 0x020103A0 0, 4)

/-- R49: a word 0 with LEN 00 or 10 and MAJ 0x00 gives ZERO_WORD, whatever D, A and B hold; so does the all-zero word. -/
def Obligations.TheZeroWordIsNoInstruction : Prop :=
  (∀ (w0 : Word) rest, (w0.toNat % 256 = 0 ∨ w0.toNat % 256 = 2 ∧ 2 ≤ rest.length) →
    (decodeWords (w0 :: rest)).1 = .encodingNotInstruction .zeroWord 0 w0 0) ∧
  (∀ rest, (decodeWords (0 :: rest)).1 = .encodingNotInstruction .zeroWord 0 0 0)

/-- R30, R38, R52, R136: a step whose first group stands at words that decode to an instruction is that instruction's execution by the
group's threads, in the state in which they were fetched; nothing else is done around it. -/
def Obligations.AStepRunsTheDecodedInstruction : Prop :=
  ∀ (s : State) (g : Group) (rest : List Group) (i : Instr), Issues s g rest i → step s = exec i (atIssue s g rest)

/-- 00_scope.md, R331: the module never refuses, and stops only where it has no power and nothing is to come: every instruction and every
event answers a next state, in every state. (The stop without power is the model's own, log entry 23.) -/
def Obligations.TheModuleGoesOn : Prop :=
  (∀ (i : Instr) (s : State), ∃ t, exec i s = .next t) ∧
  (∀ s : State, (∃ t, step s = .next t) ∨ (step s = .fault .unpowered ∧ s.mayStop)) ∧
  (∀ s : State, s.mayStop → step s = .fault .unpowered)

/-- R3, R364, R367, R372, R373, 00_scope.md: right after reset the module is without power and nothing is resident: no context, launch,
unit or thread, no queue, an empty latch; %now is zero; GEN of the identity page is even; memory lists nothing; the state is
sound. (Where the spec gives no reset value, the value is the model's, log entries 2 to 13.) -/
def Obligations.ResetLeavesNothingResident : Prop :=
  let s := State.reset
  s.power = false ∧ s.running = false ∧ s.contexts = [] ∧ s.launches = [] ∧ s.insts = [] ∧ s.wgs = [] ∧ s.waves = [] ∧
    s.threads = [] ∧ s.issueQ = [] ∧ s.latch = [] ∧ s.lovf = false ∧ s.now = 0 ∧ s.idGen.getLsbD 0 = false ∧
    s.mem = [] ∧ Sound s

/-- R28, R34, R372, R373: whatever a step does, to an instruction or an event, in any state that is sound, reachable or not, it leaves
a sound state. -/
def Obligations.EveryStepKeepsSoundness : Prop :=
  ∀ s t : State, Sound s → step s = .next t → Sound t

/-- R28: memory is bytes at addresses: a write reads back, leaves every other address as it was, and keeps the canonical form, as does
a run of writes; two canonical memories that read alike everywhere are equal. -/
def Sys2Proof.Claims.MemoryReadsBackWhatWasWritten : Prop :=
  (∀ m a v b, memGet (memSet m a v) b = if b = a then v else memGet m b) ∧
  (∀ m a v, Memory.wf m → Memory.wf (memSet m a v)) ∧
  (∀ m (bs : List (Nat × Byte)), Memory.wf m → Memory.wf (memSetAll m bs)) ∧
  (∀ m (bs : List (Nat × Byte)) b, b ∉ bs.map Prod.fst → memGet (memSetAll m bs) b = memGet m b) ∧
  (∀ m m', Memory.wf m → Memory.wf m' → (∀ a, memGet m a = memGet m' a) → m = m')

/-- R28, R54: numbers lie in memory with their low byte first: n bytes of a number read back as the number, modulo 2^(8n), and bytes as
themselves. -/
def Sys2Proof.Claims.NumbersAreLittleEndian : Prop :=
  (∀ n x, bytesToNat (natToBytes n x) = x % 2 ^ (8 * n)) ∧ (∀ l : List Byte, natToBytes l.length (bytesToNat l) = l)

/-- R52, R53, R331: the checks of an issuing group. Where checks 8 and 9 fail, every thread of the group stops before the instruction with
that fault, its mask marks them all, and nothing else changes; where they pass and an operand code is not admitted for an active
thread, the threads that the check names stop so, which the mask marks (every active one, but for PERFORM's count those whose wave has
too few registers, R121), the other active threads stay, and those whose guard is false retire. -/
def Obligations.FailedChecksStopTheGroup : Prop :=
  (∀ (s : State) h n body f, s.GroupOk → s.groupFault n = some f → ThreadEffect s (s.issue h n body) s.cur.threads
    (fun _ th => { th with trap := some (recOf th (maskOf s.cur.threads s.cur.threads) f), walkFault := none }) fun _ th => th) ∧
  (∀ (s : State) h n body f, s.GroupOk → s.groupFault n = none →
    s.operandFault n h.d h.a h.b h.c h.lit.isSome (s.active h.pred) = some f →
    ThreadEffect s (s.issue h n body) (s.active h.pred)
      (fun u th => if u ∈ f.2 then { th with trap := some (recOf th (maskOf s.cur.threads f.2) f.1), walkFault := none }
        else { th with walkFault := none })
      fun _ th => th.retire (hlen h)) ∧
  (∀ (s : State) n f, s.groupFault n = some f →
    f.code = .privilege ∨ (f.code = .illegalInstruction ∧ (f.d0 = 7 ∨ f.d0 = 8 ∨ f.d0 = 0xA))) ∧
  (∀ (s : State) n d a b c l act f, s.operandFault n d a b c l act = some f →
    f.1.code = .illegalOperand ∧ f.1.d0.toNat ≤ 3 ∧ (∀ t ∈ f.2, t ∈ act) ∧ (n.count = 0 → f.2 = act))

/-- R95: the first checks of an access of a thread, in their order: an address outside the 52 bits is BAD_ADDRESS; else one that breaks
its alignment, or a stack access with a misaligned w63, is MISALIGNED; else a stack access outside the stack region is STACK_LIMIT;
an access that meets them raises none of the three, and one that passes all checks has a location for each byte. -/
def Obligations.AccessesAreCheckedInOrder : Prop :=
  ∀ (s : State) (t : TRef) (k : AKind) (ea : DWord) (n : Nat) (align stack : Bool),
    (2 ^ 52 ≤ ea.toNat → s.access t k ea n align stack = .fault 1 (accFlt .badAddress ea n k 0)) ∧
    (ea.toNat < 2 ^ 52 → (align = true ∧ ea.toNat % n ≠ 0 ∨ stack = true ∧ (s.thr t).sp.toNat % 16 ≠ 0) →
      s.access t k ea n align stack = .fault 2 (accFlt .misaligned ea n k 0)) ∧
    (ea.toNat < 2 ^ 52 → (align = true → ea.toNat % n = 0) → stack = true → (s.thr t).sp.toNat % 16 = 0 →
      ¬((s.stackRegion t).1 ≤ ea.toNat ∧ ea.toNat + n ≤ (s.stackRegion t).1 + (s.stackRegion t).2) →
      s.access t k ea n align stack = .fault 3 (accFlt .stackLimit ea n k 0)) ∧
    (AccessShape s t ea n align stack → ∀ r f, s.access t k ea n align stack = .fault r f → 4 ≤ r) ∧
    (∀ ls, s.access t k ea n align stack = .ok ls → AccessShape s t ea n align stack ∧ ls.length = n)

/-- R22, R23, R327: registers. A write of a v register or a predicate reads back at the thread's level and leaves every other register
as it was; a write of p0 is discarded, and p0 reads as true; at level 1 the first sixteen v registers, w63 and the predicates are
the bank's, and the thread's own keep their values. -/
def Obligations.RegistersReadBack : Prop :=
  (∀ (th : Thread) n x m, n < 128 → (th.setV n x).getV m = if m = n then x else th.getV m) ∧
  (∀ (th : Thread) k b j, k < 8 → (th.setP k b).getP j = if j = k ∧ k ≠ 0 then b else th.getP j) ∧
  (∀ (th : Thread) b, th.setP 0 b = th ∧ th.getP 0 = true) ∧
  (∀ (th : Thread) n x, th.level ≠ 0 → (n < 16 ∨ n = 126 ∨ n = 127) → (th.setV n x).v = th.v) ∧
  (∀ (th : Thread) k b, th.level ≠ 0 → (th.setP k b).p = th.p) ∧
  (∀ (th : Thread) n x, (th.setV n x).pc = th.pc ∧ (th.setV n x).level = th.level ∧ (th.setV n x).icount = th.icount)

/-! ## Statements of several parts -/

/-- R84 to R87, R26, R27: the moves, selections and addresses, and the moves of special registers and predicates. -/
def Obligations.MovesWriteTheirValue : Prop := Claims.MovFormsWriteTheirValue ∧ Claims.SpecialRegisterMoves

/-- R110: an outstanding result of a special function arrives. -/
def Obligations.OutstandingResultsArrive : Prop := Claims.SpecialFunctionResultArrives

/-- R111 to R115, R331, R336: NOP and LAND, the transfers of control and what one of them does to its thread, EXIT and TRAP. -/
def Obligations.ControlFormsComplete : Prop := Claims.NopAndLandOnlyRetire ∧ Claims.TransfersGoToTheirTarget ∧ Claims.TransferMovesOneThread ∧ Claims.ExitEndsAndTrapStops

/-- R89 to R93: loads, stores and atomics complete. -/
def Obligations.MemoryFormsComplete : Prop := Claims.LoadsAndStoresIssue ∧ Claims.AtomicsPerform

/-- R153 to R162: the forms on masks and the cross-lane forms complete. -/
def Obligations.MaskAndCrossLaneFormsComplete : Prop := Claims.MaskFormsComplete ∧ Claims.CrossLaneFormsArrive

/-- R164 to R168: barriers and rendezvous points complete, and a barrier with its last arrival. -/
def Obligations.BarriersComplete : Prop := Claims.BarriersAndRendezvous ∧ Claims.BarrierCompletesWithItsLastArrival

/-- R192 to R206: the forms and the events of standing programs. -/
def Obligations.StandingProgramsRun : Prop := Claims.StandingFormsComplete ∧ Claims.StandingEvents

/-- R208, R229 to R232: scratch loads, stores and copies complete. -/
def Obligations.ScratchFormsComplete : Prop := Claims.ScratchLoadsAndStores ∧ Claims.ScratchCopies

/-- R212 to R216, R234 to R236, R382: the ownership forms complete, and what a transfer does to its buffer. -/
def Obligations.OwnershipMoves : Prop := Claims.OwnershipFormsComplete ∧ Claims.TransfersMoveTheBuffer

/-- R222 to R226, R237 to R239: the tile forms complete, and the life of a handle. -/
def Obligations.TileHandlesServe : Prop := Claims.TileFormsComplete ∧ Claims.HandleLivesAndDies

/-- R246 to R254, R267: the ordering forms complete, and what a release and an acquire do. -/
def Obligations.OrderingHolds : Prop := Claims.OrderingFormsComplete ∧ Claims.ReleaseAndAcquireOfAWorkgroup

/-- R290 to R304: the forms on nodes and entries complete, and the walker's steps. -/
def Obligations.GraphRuns : Prop := Claims.GraphFormsComplete ∧ Claims.WalkerStepsComplete

/-- R181 to R187, R269: the task forms complete, and what FETCH and a met claim give their threads. -/
def Obligations.TasksRun : Prop := Claims.TaskFormsComplete ∧ Claims.FetchHandsOutTheNextTile ∧ Claims.ClaimedRegistersAreZero

/-- R220, R240 to R244: the queue forms complete, and a queue keeps its order. -/
def Obligations.QueuesServe : Prop := Claims.QueueFormsComplete ∧ Claims.QueueKeepsItsOrder

/-- R328, R337 to R341, R353 to R356: the system and the debug forms complete. -/
def Obligations.SystemAndDebugFormsComplete : Prop := Claims.SystemFormsComplete ∧ Claims.DebugFormsComplete

/-- R49, R51 to R53, R327, R331: a privileged form at level 0, and words that are no instruction, stop every thread of the group before them. -/
def Obligations.ForbiddenAndUndecodedTrap : Prop := Claims.PrivilegedFormsTrapAtLevelZero ∧ Claims.UndecodedWordsTrap

/-- R136, R171 to R181, R272 to R274, R282, R370: launches: their units are placed and started, the pickers pick, and they end. -/
def Obligations.LaunchesRun : Prop := Claims.UnitsArePlacedAndStarted ∧ Claims.PickersPick ∧ Claims.LaunchesEnd

/-- R288, R298 to R307, R346: the copy and the encode engines, and the graph queues. -/
def Obligations.EnginesRun : Prop := Claims.CopyEnginesRun ∧ Claims.EncodeEnginesAndGraphQueues

/-- R316, R336, R344, R351 to R353, R358: the events of traps and paging, and what the end of a walk does. -/
def Obligations.TrapsAndPaging : Prop := Claims.TrapAndPagingEvents ∧ Claims.AWalkWakesItsThreads

/-- R365 to R367: the checks of a packet, and what its queue's indexes do. -/
def Obligations.PacketsAreChecked : Prop := Claims.PacketChecks ∧ Claims.AcceptedPacketsPass

/-- R1, R197, R204, R206, R218, R293, R327, R368, R371, R376, R378, R383: what each type of packet does when its own checks pass. -/
def Obligations.PacketEffects : Prop := Claims.PacketTypesAct ∧ Claims.PinningAndUnpinning

/-- R346, R352, R365, R367, R372, R373, R378: the host's queues and registers. -/
def Obligations.HostInterface : Prop := Claims.QueuesAndRegisters

/-- 00_scope.md, R361, R364, R371, R379, R380: power, firmware and live service. -/
def Obligations.ServiceActs : Prop := Claims.PowerAndFirmware ∧ Claims.LiveService

/-- R264, R285 to R287, R356, R376: the links, and the debugger's acts. -/
def Obligations.LinksAndDebugger : Prop := Claims.LinkEvents ∧ Claims.DebuggerActs

/-- R28, R54: memory is bytes at addresses, and numbers lie in it with their low byte first. -/
def Obligations.MemoryReadsBackLowByteFirst : Prop := Claims.MemoryReadsBackWhatWasWritten ∧ Claims.NumbersAreLittleEndian

/-! ## Loads that return, and the host's port -/

/-- R21, R90, R255: the i-th outstanding load returns: D takes its bytes, extended as its type says, and no other thread's
record, no wave and no byte of memory changes. A scratch load holds its bytes since its issue; a load of global memory reads each
of its sectors now, whole, as R255 lets it show. -/
def Obligations.LoadsReturnTheirBytes : Prop :=
  ∀ (s : State) (i : Nat) (l : PendLoad), s.loads[i]? = some l → l.thread ∈ tkeys s.threads →
    (∃ t, exec (.loadReturn i) s = .next t ∧ t.loads = s.loads.eraseIdx i ∧
      t.thr l.thread = (s.thr l.thread).arrive l.level (tyWide l.ty) l.dst (loadVal l.ty (bytesToNat (loadBytes s l))) ∧
      (∀ u, u ≠ l.thread → t.thr u = s.thr u) ∧ t.waves = s.waves ∧ t.mem = s.mem ∧ t.order = s.order) ∧
    (∀ b, l.bytes = some b → loadBytes s l = b) ∧
    (l.bytes = none → ∃ bss, List.Forall₂ (Shows s l) l.pieces bss ∧ loadBytes s l = bss.flatten)

/-- R262, R263, R375: the host's port. A read gives the bytes that the model's read of the locations shows under an acquire that the host
makes at system scope with it, or poisoned data where a granule is not mapped (as a whole: the model's reading, log entry 99); a write
enters memory at its mapped locations; a snoop is answered. None of them changes a thread. -/
def Obligations.HostMemoryPortServes : Prop :=
  ∀ (s : State), s.power = true →
    (s.hostLocs s.ext.off s.ext.tail = none → exec .hostMemRead s = .next { s with hostRd := none }) ∧
    (∀ ls, s.hostLocs s.ext.off s.ext.tail = some ls →
      let a := s.acqBy hostAgent .system
      let r := a.2.readPieces [] a.1 none { stamp := a.2.stamp, seq := a.2.nextSeq, start := 0 } 4096 (pieces ls)
      ∃ t, exec .hostMemRead s = .next t ∧ t.hostRd = some r.1 ∧ r.1.length = ls.length ∧
        a.1 = { by_ := { ag := .host }, scope := .system, stamp := s.stamp + 1 } ∧ tget t.agentAcq .host = some a.1 ∧
        t.mem = s.mem ∧ t.order = s.order ∧ t.threads = s.threads ∧ t.launches = s.launches) ∧
    (∃ t, exec .hostMemWrite s = .next t ∧ t = (s.hostPut s.ext.off s.ext.bytes).resumeQueues s.ext.off s.ext.bytes.length ∧
      t.threads = s.threads ∧ t.launches = s.launches) ∧
    exec .hostSnoop s = .next { s with snoops := s.snoops + 1 }
end

