-- ==== Sys2Proof/Laws/State.lean ====
section
/-! SUPPORT. What each field of the state is after each of the named updates of its tables. -/

namespace Sys2Proof.Machine

variable (s : State)

@[simp] theorem State.setThr_power (t : TRef) (th : Thread) : (s.setThr t th).power = s.power := rfl
@[simp] theorem State.setThr_running (t : TRef) (th : Thread) : (s.setThr t th).running = s.running := rfl
@[simp] theorem State.setThr_lovf (t : TRef) (th : Thread) : (s.setThr t th).lovf = s.lovf := rfl
@[simp] theorem State.setThr_updating (t : TRef) (th : Thread) : (s.setThr t th).updating = s.updating := rfl
@[simp] theorem State.setThr_devfeat (t : TRef) (th : Thread) : (s.setThr t th).devfeat = s.devfeat := rfl
@[simp] theorem State.setThr_drvfeat (t : TRef) (th : Thread) : (s.setThr t th).drvfeat = s.drvfeat := rfl
@[simp] theorem State.setThr_qtbase (t : TRef) (th : Thread) : (s.setThr t th).qtbase = s.qtbase := rfl
@[simp] theorem State.setThr_inval (t : TRef) (th : Thread) : (s.setThr t th).inval = s.inval := rfl
@[simp] theorem State.setThr_invalDone (t : TRef) (th : Thread) : (s.setThr t th).invalDone = s.invalDone := rfl
@[simp] theorem State.setThr_invalReg (t : TRef) (th : Thread) : (s.setThr t th).invalReg = s.invalReg := rfl
@[simp] theorem State.setThr_hdmBase (t : TRef) (th : Thread) : (s.setThr t th).hdmBase = s.hdmBase := rfl
@[simp] theorem State.setThr_hdmCnt (t : TRef) (th : Thread) : (s.setThr t th).hdmCnt = s.hdmCnt := rfl
@[simp] theorem State.setThr_hdmWin (t : TRef) (th : Thread) : (s.setThr t th).hdmWin = s.hdmWin := rfl
@[simp] theorem State.setThr_latch (t : TRef) (th : Thread) : (s.setThr t th).latch = s.latch := rfl
@[simp] theorem State.setThr_hqueues (t : TRef) (th : Thread) : (s.setThr t th).hqueues = s.hqueues := rfl
@[simp] theorem State.setThr_now (t : TRef) (th : Thread) : (s.setThr t th).now = s.now := rfl
@[simp] theorem State.setThr_cycle (t : TRef) (th : Thread) : (s.setThr t th).cycle = s.cycle := rfl
@[simp] theorem State.setThr_nextLid (t : TRef) (th : Thread) : (s.setThr t th).nextLid = s.nextLid := rfl
@[simp] theorem State.setThr_idGen (t : TRef) (th : Thread) : (s.setThr t th).idGen = s.idGen := rfl
@[simp] theorem State.setThr_xmssLeaf (t : TRef) (th : Thread) : (s.setThr t th).xmssLeaf = s.xmssLeaf := rfl
@[simp] theorem State.setThr_xmssTree (t : TRef) (th : Thread) : (s.setThr t th).xmssTree = s.xmssTree := rfl
@[simp] theorem State.setThr_fwImages (t : TRef) (th : Thread) : (s.setThr t th).fwImages = s.fwImages := rfl
@[simp] theorem State.setThr_fwOut (t : TRef) (th : Thread) : (s.setThr t th).fwOut = s.fwOut := rfl
@[simp] theorem State.setThr_change (t : TRef) (th : Thread) : (s.setThr t th).change = s.change := rfl
@[simp] theorem State.setThr_linksDown (t : TRef) (th : Thread) : (s.setThr t th).linksDown = s.linksDown := rfl
@[simp] theorem State.setThr_linkResends (t : TRef) (th : Thread) : (s.setThr t th).linkResends = s.linkResends := rfl
@[simp] theorem State.setThr_linkOut (t : TRef) (th : Thread) : (s.setThr t th).linkOut = s.linkOut := rfl
@[simp] theorem State.setThr_irqs (t : TRef) (th : Thread) : (s.setThr t th).irqs = s.irqs := rfl
@[simp] theorem State.setThr_mem (t : TRef) (th : Thread) : (s.setThr t th).mem = s.mem := rfl
@[simp] theorem State.setThr_order (t : TRef) (th : Thread) : (s.setThr t th).order = s.order := rfl
@[simp] theorem State.setThr_nextSeq (t : TRef) (th : Thread) : (s.setThr t th).nextSeq = s.nextSeq := rfl
@[simp] theorem State.setThr_stamp (t : TRef) (th : Thread) : (s.setThr t th).stamp = s.stamp := rfl
@[simp] theorem State.setThr_keyTag (t : TRef) (th : Thread) : (s.setThr t th).keyTag = s.keyTag := rfl
@[simp] theorem State.setThr_nextKey (t : TRef) (th : Thread) : (s.setThr t th).nextKey = s.nextKey := rfl
@[simp] theorem State.setThr_flows (t : TRef) (th : Thread) : (s.setThr t th).flows = s.flows := rfl
@[simp] theorem State.setThr_agentAcq (t : TRef) (th : Thread) : (s.setThr t th).agentAcq = s.agentAcq := rfl
@[simp] theorem State.setThr_dies (t : TRef) (th : Thread) : (s.setThr t th).dies = s.dies := rfl
@[simp] theorem State.setThr_hubCtrs (t : TRef) (th : Thread) : (s.setThr t th).hubCtrs = s.hubCtrs := rfl
@[simp] theorem State.setThr_contexts (t : TRef) (th : Thread) : (s.setThr t th).contexts = s.contexts := rfl
@[simp] theorem State.setThr_objs (t : TRef) (th : Thread) : (s.setThr t th).objs = s.objs := rfl
@[simp] theorem State.setThr_launches (t : TRef) (th : Thread) : (s.setThr t th).launches = s.launches := rfl
@[simp] theorem State.setThr_insts (t : TRef) (th : Thread) : (s.setThr t th).insts = s.insts := rfl
@[simp] theorem State.setThr_wgs (t : TRef) (th : Thread) : (s.setThr t th).wgs = s.wgs := rfl
@[simp] theorem State.setThr_waves (t : TRef) (th : Thread) : (s.setThr t th).waves = s.waves := rfl
@[simp] theorem State.setThr_threads (t : TRef) (th : Thread) : (s.setThr t th).threads = tset s.threads t th := rfl
@[simp] theorem State.setThr_loads (t : TRef) (th : Thread) : (s.setThr t th).loads = s.loads := rfl
@[simp] theorem State.setThr_results (t : TRef) (th : Thread) : (s.setThr t th).results = s.results := rfl
@[simp] theorem State.setThr_moves (t : TRef) (th : Thread) : (s.setThr t th).moves = s.moves := rfl
@[simp] theorem State.setThr_tileOps (t : TRef) (th : Thread) : (s.setThr t th).tileOps = s.tileOps := rfl
@[simp] theorem State.setThr_parked (t : TRef) (th : Thread) : (s.setThr t th).parked = s.parked := rfl
@[simp] theorem State.setThr_releases (t : TRef) (th : Thread) : (s.setThr t th).releases = s.releases := rfl
@[simp] theorem State.setThr_contribs (t : TRef) (th : Thread) : (s.setThr t th).contribs = s.contribs := rfl
@[simp] theorem State.setThr_sync (t : TRef) (th : Thread) : (s.setThr t th).sync = s.sync := rfl
@[simp] theorem State.setThr_issueQ (t : TRef) (th : Thread) : (s.setThr t th).issueQ = s.issueQ := rfl
@[simp] theorem State.setThr_cur (t : TRef) (th : Thread) : (s.setThr t th).cur = s.cur := rfl
@[simp] theorem State.setThr_curW0 (t : TRef) (th : Thread) : (s.setThr t th).curW0 = s.curW0 := rfl
@[simp] theorem State.setThr_curW1 (t : TRef) (th : Thread) : (s.setThr t th).curW1 = s.curW1 := rfl
@[simp] theorem State.setThr_ext (t : TRef) (th : Thread) : (s.setThr t th).ext = s.ext := rfl
@[simp] theorem State.setThr_agenda (t : TRef) (th : Thread) : (s.setThr t th).agenda = s.agenda := rfl
@[simp] theorem State.setThr_placements (t : TRef) (th : Thread) : (s.setThr t th).placements = s.placements := rfl
@[simp] theorem State.setThr_dbgOut (t : TRef) (th : Thread) : (s.setThr t th).dbgOut = s.dbgOut := rfl
@[simp] theorem State.setThr_hostRd (t : TRef) (th : Thread) : (s.setThr t th).hostRd = s.hostRd := rfl
@[simp] theorem State.setThr_snoops (t : TRef) (th : Thread) : (s.setThr t th).snoops = s.snoops := rfl
@[simp] theorem State.setThr_peerOut (t : TRef) (th : Thread) : (s.setThr t th).peerOut = s.peerOut := rfl
@[simp] theorem State.setThr_freeCtr (t : TRef) (th : Thread) : (s.setThr t th).freeCtr = s.freeCtr := rfl

@[simp] theorem State.updThr_power (t : TRef) (f : Thread → Thread) : (s.updThr t f).power = s.power := rfl
@[simp] theorem State.updThr_running (t : TRef) (f : Thread → Thread) : (s.updThr t f).running = s.running := rfl
@[simp] theorem State.updThr_lovf (t : TRef) (f : Thread → Thread) : (s.updThr t f).lovf = s.lovf := rfl
@[simp] theorem State.updThr_updating (t : TRef) (f : Thread → Thread) : (s.updThr t f).updating = s.updating := rfl
@[simp] theorem State.updThr_devfeat (t : TRef) (f : Thread → Thread) : (s.updThr t f).devfeat = s.devfeat := rfl
@[simp] theorem State.updThr_drvfeat (t : TRef) (f : Thread → Thread) : (s.updThr t f).drvfeat = s.drvfeat := rfl
@[simp] theorem State.updThr_qtbase (t : TRef) (f : Thread → Thread) : (s.updThr t f).qtbase = s.qtbase := rfl
@[simp] theorem State.updThr_inval (t : TRef) (f : Thread → Thread) : (s.updThr t f).inval = s.inval := rfl
@[simp] theorem State.updThr_invalDone (t : TRef) (f : Thread → Thread) : (s.updThr t f).invalDone = s.invalDone := rfl
@[simp] theorem State.updThr_invalReg (t : TRef) (f : Thread → Thread) : (s.updThr t f).invalReg = s.invalReg := rfl
@[simp] theorem State.updThr_hdmBase (t : TRef) (f : Thread → Thread) : (s.updThr t f).hdmBase = s.hdmBase := rfl
@[simp] theorem State.updThr_hdmCnt (t : TRef) (f : Thread → Thread) : (s.updThr t f).hdmCnt = s.hdmCnt := rfl
@[simp] theorem State.updThr_hdmWin (t : TRef) (f : Thread → Thread) : (s.updThr t f).hdmWin = s.hdmWin := rfl
@[simp] theorem State.updThr_latch (t : TRef) (f : Thread → Thread) : (s.updThr t f).latch = s.latch := rfl
@[simp] theorem State.updThr_hqueues (t : TRef) (f : Thread → Thread) : (s.updThr t f).hqueues = s.hqueues := rfl
@[simp] theorem State.updThr_now (t : TRef) (f : Thread → Thread) : (s.updThr t f).now = s.now := rfl
@[simp] theorem State.updThr_cycle (t : TRef) (f : Thread → Thread) : (s.updThr t f).cycle = s.cycle := rfl
@[simp] theorem State.updThr_nextLid (t : TRef) (f : Thread → Thread) : (s.updThr t f).nextLid = s.nextLid := rfl
@[simp] theorem State.updThr_idGen (t : TRef) (f : Thread → Thread) : (s.updThr t f).idGen = s.idGen := rfl
@[simp] theorem State.updThr_xmssLeaf (t : TRef) (f : Thread → Thread) : (s.updThr t f).xmssLeaf = s.xmssLeaf := rfl
@[simp] theorem State.updThr_xmssTree (t : TRef) (f : Thread → Thread) : (s.updThr t f).xmssTree = s.xmssTree := rfl
@[simp] theorem State.updThr_fwImages (t : TRef) (f : Thread → Thread) : (s.updThr t f).fwImages = s.fwImages := rfl
@[simp] theorem State.updThr_fwOut (t : TRef) (f : Thread → Thread) : (s.updThr t f).fwOut = s.fwOut := rfl
@[simp] theorem State.updThr_change (t : TRef) (f : Thread → Thread) : (s.updThr t f).change = s.change := rfl
@[simp] theorem State.updThr_linksDown (t : TRef) (f : Thread → Thread) : (s.updThr t f).linksDown = s.linksDown := rfl
@[simp] theorem State.updThr_linkResends (t : TRef) (f : Thread → Thread) : (s.updThr t f).linkResends = s.linkResends := rfl
@[simp] theorem State.updThr_linkOut (t : TRef) (f : Thread → Thread) : (s.updThr t f).linkOut = s.linkOut := rfl
@[simp] theorem State.updThr_irqs (t : TRef) (f : Thread → Thread) : (s.updThr t f).irqs = s.irqs := rfl
@[simp] theorem State.updThr_mem (t : TRef) (f : Thread → Thread) : (s.updThr t f).mem = s.mem := rfl
@[simp] theorem State.updThr_order (t : TRef) (f : Thread → Thread) : (s.updThr t f).order = s.order := rfl
@[simp] theorem State.updThr_nextSeq (t : TRef) (f : Thread → Thread) : (s.updThr t f).nextSeq = s.nextSeq := rfl
@[simp] theorem State.updThr_stamp (t : TRef) (f : Thread → Thread) : (s.updThr t f).stamp = s.stamp := rfl
@[simp] theorem State.updThr_keyTag (t : TRef) (f : Thread → Thread) : (s.updThr t f).keyTag = s.keyTag := rfl
@[simp] theorem State.updThr_nextKey (t : TRef) (f : Thread → Thread) : (s.updThr t f).nextKey = s.nextKey := rfl
@[simp] theorem State.updThr_flows (t : TRef) (f : Thread → Thread) : (s.updThr t f).flows = s.flows := rfl
@[simp] theorem State.updThr_agentAcq (t : TRef) (f : Thread → Thread) : (s.updThr t f).agentAcq = s.agentAcq := rfl
@[simp] theorem State.updThr_dies (t : TRef) (f : Thread → Thread) : (s.updThr t f).dies = s.dies := rfl
@[simp] theorem State.updThr_hubCtrs (t : TRef) (f : Thread → Thread) : (s.updThr t f).hubCtrs = s.hubCtrs := rfl
@[simp] theorem State.updThr_contexts (t : TRef) (f : Thread → Thread) : (s.updThr t f).contexts = s.contexts := rfl
@[simp] theorem State.updThr_objs (t : TRef) (f : Thread → Thread) : (s.updThr t f).objs = s.objs := rfl
@[simp] theorem State.updThr_launches (t : TRef) (f : Thread → Thread) : (s.updThr t f).launches = s.launches := rfl
@[simp] theorem State.updThr_insts (t : TRef) (f : Thread → Thread) : (s.updThr t f).insts = s.insts := rfl
@[simp] theorem State.updThr_wgs (t : TRef) (f : Thread → Thread) : (s.updThr t f).wgs = s.wgs := rfl
@[simp] theorem State.updThr_waves (t : TRef) (f : Thread → Thread) : (s.updThr t f).waves = s.waves := rfl
@[simp] theorem State.updThr_threads (t : TRef) (f : Thread → Thread) : (s.updThr t f).threads = tupd s.threads t f := rfl
@[simp] theorem State.updThr_loads (t : TRef) (f : Thread → Thread) : (s.updThr t f).loads = s.loads := rfl
@[simp] theorem State.updThr_results (t : TRef) (f : Thread → Thread) : (s.updThr t f).results = s.results := rfl
@[simp] theorem State.updThr_moves (t : TRef) (f : Thread → Thread) : (s.updThr t f).moves = s.moves := rfl
@[simp] theorem State.updThr_tileOps (t : TRef) (f : Thread → Thread) : (s.updThr t f).tileOps = s.tileOps := rfl
@[simp] theorem State.updThr_parked (t : TRef) (f : Thread → Thread) : (s.updThr t f).parked = s.parked := rfl
@[simp] theorem State.updThr_releases (t : TRef) (f : Thread → Thread) : (s.updThr t f).releases = s.releases := rfl
@[simp] theorem State.updThr_contribs (t : TRef) (f : Thread → Thread) : (s.updThr t f).contribs = s.contribs := rfl
@[simp] theorem State.updThr_sync (t : TRef) (f : Thread → Thread) : (s.updThr t f).sync = s.sync := rfl
@[simp] theorem State.updThr_issueQ (t : TRef) (f : Thread → Thread) : (s.updThr t f).issueQ = s.issueQ := rfl
@[simp] theorem State.updThr_cur (t : TRef) (f : Thread → Thread) : (s.updThr t f).cur = s.cur := rfl
@[simp] theorem State.updThr_curW0 (t : TRef) (f : Thread → Thread) : (s.updThr t f).curW0 = s.curW0 := rfl
@[simp] theorem State.updThr_curW1 (t : TRef) (f : Thread → Thread) : (s.updThr t f).curW1 = s.curW1 := rfl
@[simp] theorem State.updThr_ext (t : TRef) (f : Thread → Thread) : (s.updThr t f).ext = s.ext := rfl
@[simp] theorem State.updThr_agenda (t : TRef) (f : Thread → Thread) : (s.updThr t f).agenda = s.agenda := rfl
@[simp] theorem State.updThr_placements (t : TRef) (f : Thread → Thread) : (s.updThr t f).placements = s.placements := rfl
@[simp] theorem State.updThr_dbgOut (t : TRef) (f : Thread → Thread) : (s.updThr t f).dbgOut = s.dbgOut := rfl
@[simp] theorem State.updThr_hostRd (t : TRef) (f : Thread → Thread) : (s.updThr t f).hostRd = s.hostRd := rfl
@[simp] theorem State.updThr_snoops (t : TRef) (f : Thread → Thread) : (s.updThr t f).snoops = s.snoops := rfl
@[simp] theorem State.updThr_peerOut (t : TRef) (f : Thread → Thread) : (s.updThr t f).peerOut = s.peerOut := rfl
@[simp] theorem State.updThr_freeCtr (t : TRef) (f : Thread → Thread) : (s.updThr t f).freeCtr = s.freeCtr := rfl

@[simp] theorem State.updWave_power (t : TRef) (f : Wave → Wave) : (s.updWave t f).power = s.power := rfl
@[simp] theorem State.updWave_running (t : TRef) (f : Wave → Wave) : (s.updWave t f).running = s.running := rfl
@[simp] theorem State.updWave_lovf (t : TRef) (f : Wave → Wave) : (s.updWave t f).lovf = s.lovf := rfl
@[simp] theorem State.updWave_updating (t : TRef) (f : Wave → Wave) : (s.updWave t f).updating = s.updating := rfl
@[simp] theorem State.updWave_devfeat (t : TRef) (f : Wave → Wave) : (s.updWave t f).devfeat = s.devfeat := rfl
@[simp] theorem State.updWave_drvfeat (t : TRef) (f : Wave → Wave) : (s.updWave t f).drvfeat = s.drvfeat := rfl
@[simp] theorem State.updWave_qtbase (t : TRef) (f : Wave → Wave) : (s.updWave t f).qtbase = s.qtbase := rfl
@[simp] theorem State.updWave_inval (t : TRef) (f : Wave → Wave) : (s.updWave t f).inval = s.inval := rfl
@[simp] theorem State.updWave_invalDone (t : TRef) (f : Wave → Wave) : (s.updWave t f).invalDone = s.invalDone := rfl
@[simp] theorem State.updWave_invalReg (t : TRef) (f : Wave → Wave) : (s.updWave t f).invalReg = s.invalReg := rfl
@[simp] theorem State.updWave_hdmBase (t : TRef) (f : Wave → Wave) : (s.updWave t f).hdmBase = s.hdmBase := rfl
@[simp] theorem State.updWave_hdmCnt (t : TRef) (f : Wave → Wave) : (s.updWave t f).hdmCnt = s.hdmCnt := rfl
@[simp] theorem State.updWave_hdmWin (t : TRef) (f : Wave → Wave) : (s.updWave t f).hdmWin = s.hdmWin := rfl
@[simp] theorem State.updWave_latch (t : TRef) (f : Wave → Wave) : (s.updWave t f).latch = s.latch := rfl
@[simp] theorem State.updWave_hqueues (t : TRef) (f : Wave → Wave) : (s.updWave t f).hqueues = s.hqueues := rfl
@[simp] theorem State.updWave_now (t : TRef) (f : Wave → Wave) : (s.updWave t f).now = s.now := rfl
@[simp] theorem State.updWave_cycle (t : TRef) (f : Wave → Wave) : (s.updWave t f).cycle = s.cycle := rfl
@[simp] theorem State.updWave_nextLid (t : TRef) (f : Wave → Wave) : (s.updWave t f).nextLid = s.nextLid := rfl
@[simp] theorem State.updWave_idGen (t : TRef) (f : Wave → Wave) : (s.updWave t f).idGen = s.idGen := rfl
@[simp] theorem State.updWave_xmssLeaf (t : TRef) (f : Wave → Wave) : (s.updWave t f).xmssLeaf = s.xmssLeaf := rfl
@[simp] theorem State.updWave_xmssTree (t : TRef) (f : Wave → Wave) : (s.updWave t f).xmssTree = s.xmssTree := rfl
@[simp] theorem State.updWave_fwImages (t : TRef) (f : Wave → Wave) : (s.updWave t f).fwImages = s.fwImages := rfl
@[simp] theorem State.updWave_fwOut (t : TRef) (f : Wave → Wave) : (s.updWave t f).fwOut = s.fwOut := rfl
@[simp] theorem State.updWave_change (t : TRef) (f : Wave → Wave) : (s.updWave t f).change = s.change := rfl
@[simp] theorem State.updWave_linksDown (t : TRef) (f : Wave → Wave) : (s.updWave t f).linksDown = s.linksDown := rfl
@[simp] theorem State.updWave_linkResends (t : TRef) (f : Wave → Wave) : (s.updWave t f).linkResends = s.linkResends := rfl
@[simp] theorem State.updWave_linkOut (t : TRef) (f : Wave → Wave) : (s.updWave t f).linkOut = s.linkOut := rfl
@[simp] theorem State.updWave_irqs (t : TRef) (f : Wave → Wave) : (s.updWave t f).irqs = s.irqs := rfl
@[simp] theorem State.updWave_mem (t : TRef) (f : Wave → Wave) : (s.updWave t f).mem = s.mem := rfl
@[simp] theorem State.updWave_order (t : TRef) (f : Wave → Wave) : (s.updWave t f).order = s.order := rfl
@[simp] theorem State.updWave_nextSeq (t : TRef) (f : Wave → Wave) : (s.updWave t f).nextSeq = s.nextSeq := rfl
@[simp] theorem State.updWave_stamp (t : TRef) (f : Wave → Wave) : (s.updWave t f).stamp = s.stamp := rfl
@[simp] theorem State.updWave_keyTag (t : TRef) (f : Wave → Wave) : (s.updWave t f).keyTag = s.keyTag := rfl
@[simp] theorem State.updWave_nextKey (t : TRef) (f : Wave → Wave) : (s.updWave t f).nextKey = s.nextKey := rfl
@[simp] theorem State.updWave_flows (t : TRef) (f : Wave → Wave) : (s.updWave t f).flows = s.flows := rfl
@[simp] theorem State.updWave_agentAcq (t : TRef) (f : Wave → Wave) : (s.updWave t f).agentAcq = s.agentAcq := rfl
@[simp] theorem State.updWave_dies (t : TRef) (f : Wave → Wave) : (s.updWave t f).dies = s.dies := rfl
@[simp] theorem State.updWave_hubCtrs (t : TRef) (f : Wave → Wave) : (s.updWave t f).hubCtrs = s.hubCtrs := rfl
@[simp] theorem State.updWave_contexts (t : TRef) (f : Wave → Wave) : (s.updWave t f).contexts = s.contexts := rfl
@[simp] theorem State.updWave_objs (t : TRef) (f : Wave → Wave) : (s.updWave t f).objs = s.objs := rfl
@[simp] theorem State.updWave_launches (t : TRef) (f : Wave → Wave) : (s.updWave t f).launches = s.launches := rfl
@[simp] theorem State.updWave_insts (t : TRef) (f : Wave → Wave) : (s.updWave t f).insts = s.insts := rfl
@[simp] theorem State.updWave_wgs (t : TRef) (f : Wave → Wave) : (s.updWave t f).wgs = s.wgs := rfl
@[simp] theorem State.updWave_waves (t : TRef) (f : Wave → Wave) : (s.updWave t f).waves = tupd s.waves (t.lid, t.wg, t.wave) f := rfl
@[simp] theorem State.updWave_threads (t : TRef) (f : Wave → Wave) : (s.updWave t f).threads = s.threads := rfl
@[simp] theorem State.updWave_loads (t : TRef) (f : Wave → Wave) : (s.updWave t f).loads = s.loads := rfl
@[simp] theorem State.updWave_results (t : TRef) (f : Wave → Wave) : (s.updWave t f).results = s.results := rfl
@[simp] theorem State.updWave_moves (t : TRef) (f : Wave → Wave) : (s.updWave t f).moves = s.moves := rfl
@[simp] theorem State.updWave_tileOps (t : TRef) (f : Wave → Wave) : (s.updWave t f).tileOps = s.tileOps := rfl
@[simp] theorem State.updWave_parked (t : TRef) (f : Wave → Wave) : (s.updWave t f).parked = s.parked := rfl
@[simp] theorem State.updWave_releases (t : TRef) (f : Wave → Wave) : (s.updWave t f).releases = s.releases := rfl
@[simp] theorem State.updWave_contribs (t : TRef) (f : Wave → Wave) : (s.updWave t f).contribs = s.contribs := rfl
@[simp] theorem State.updWave_sync (t : TRef) (f : Wave → Wave) : (s.updWave t f).sync = s.sync := rfl
@[simp] theorem State.updWave_issueQ (t : TRef) (f : Wave → Wave) : (s.updWave t f).issueQ = s.issueQ := rfl
@[simp] theorem State.updWave_cur (t : TRef) (f : Wave → Wave) : (s.updWave t f).cur = s.cur := rfl
@[simp] theorem State.updWave_curW0 (t : TRef) (f : Wave → Wave) : (s.updWave t f).curW0 = s.curW0 := rfl
@[simp] theorem State.updWave_curW1 (t : TRef) (f : Wave → Wave) : (s.updWave t f).curW1 = s.curW1 := rfl
@[simp] theorem State.updWave_ext (t : TRef) (f : Wave → Wave) : (s.updWave t f).ext = s.ext := rfl
@[simp] theorem State.updWave_agenda (t : TRef) (f : Wave → Wave) : (s.updWave t f).agenda = s.agenda := rfl
@[simp] theorem State.updWave_placements (t : TRef) (f : Wave → Wave) : (s.updWave t f).placements = s.placements := rfl
@[simp] theorem State.updWave_dbgOut (t : TRef) (f : Wave → Wave) : (s.updWave t f).dbgOut = s.dbgOut := rfl
@[simp] theorem State.updWave_hostRd (t : TRef) (f : Wave → Wave) : (s.updWave t f).hostRd = s.hostRd := rfl
@[simp] theorem State.updWave_snoops (t : TRef) (f : Wave → Wave) : (s.updWave t f).snoops = s.snoops := rfl
@[simp] theorem State.updWave_peerOut (t : TRef) (f : Wave → Wave) : (s.updWave t f).peerOut = s.peerOut := rfl
@[simp] theorem State.updWave_freeCtr (t : TRef) (f : Wave → Wave) : (s.updWave t f).freeCtr = s.freeCtr := rfl

@[simp] theorem State.updWg_power (lid g : Nat) (f : Wg → Wg) : (s.updWg lid g f).power = s.power := rfl
@[simp] theorem State.updWg_running (lid g : Nat) (f : Wg → Wg) : (s.updWg lid g f).running = s.running := rfl
@[simp] theorem State.updWg_lovf (lid g : Nat) (f : Wg → Wg) : (s.updWg lid g f).lovf = s.lovf := rfl
@[simp] theorem State.updWg_updating (lid g : Nat) (f : Wg → Wg) : (s.updWg lid g f).updating = s.updating := rfl
@[simp] theorem State.updWg_devfeat (lid g : Nat) (f : Wg → Wg) : (s.updWg lid g f).devfeat = s.devfeat := rfl
@[simp] theorem State.updWg_drvfeat (lid g : Nat) (f : Wg → Wg) : (s.updWg lid g f).drvfeat = s.drvfeat := rfl
@[simp] theorem State.updWg_qtbase (lid g : Nat) (f : Wg → Wg) : (s.updWg lid g f).qtbase = s.qtbase := rfl
@[simp] theorem State.updWg_inval (lid g : Nat) (f : Wg → Wg) : (s.updWg lid g f).inval = s.inval := rfl
@[simp] theorem State.updWg_invalDone (lid g : Nat) (f : Wg → Wg) : (s.updWg lid g f).invalDone = s.invalDone := rfl
@[simp] theorem State.updWg_invalReg (lid g : Nat) (f : Wg → Wg) : (s.updWg lid g f).invalReg = s.invalReg := rfl
@[simp] theorem State.updWg_hdmBase (lid g : Nat) (f : Wg → Wg) : (s.updWg lid g f).hdmBase = s.hdmBase := rfl
@[simp] theorem State.updWg_hdmCnt (lid g : Nat) (f : Wg → Wg) : (s.updWg lid g f).hdmCnt = s.hdmCnt := rfl
@[simp] theorem State.updWg_hdmWin (lid g : Nat) (f : Wg → Wg) : (s.updWg lid g f).hdmWin = s.hdmWin := rfl
@[simp] theorem State.updWg_latch (lid g : Nat) (f : Wg → Wg) : (s.updWg lid g f).latch = s.latch := rfl
@[simp] theorem State.updWg_hqueues (lid g : Nat) (f : Wg → Wg) : (s.updWg lid g f).hqueues = s.hqueues := rfl
@[simp] theorem State.updWg_now (lid g : Nat) (f : Wg → Wg) : (s.updWg lid g f).now = s.now := rfl
@[simp] theorem State.updWg_cycle (lid g : Nat) (f : Wg → Wg) : (s.updWg lid g f).cycle = s.cycle := rfl
@[simp] theorem State.updWg_nextLid (lid g : Nat) (f : Wg → Wg) : (s.updWg lid g f).nextLid = s.nextLid := rfl
@[simp] theorem State.updWg_idGen (lid g : Nat) (f : Wg → Wg) : (s.updWg lid g f).idGen = s.idGen := rfl
@[simp] theorem State.updWg_xmssLeaf (lid g : Nat) (f : Wg → Wg) : (s.updWg lid g f).xmssLeaf = s.xmssLeaf := rfl
@[simp] theorem State.updWg_xmssTree (lid g : Nat) (f : Wg → Wg) : (s.updWg lid g f).xmssTree = s.xmssTree := rfl
@[simp] theorem State.updWg_fwImages (lid g : Nat) (f : Wg → Wg) : (s.updWg lid g f).fwImages = s.fwImages := rfl
@[simp] theorem State.updWg_fwOut (lid g : Nat) (f : Wg → Wg) : (s.updWg lid g f).fwOut = s.fwOut := rfl
@[simp] theorem State.updWg_change (lid g : Nat) (f : Wg → Wg) : (s.updWg lid g f).change = s.change := rfl
@[simp] theorem State.updWg_linksDown (lid g : Nat) (f : Wg → Wg) : (s.updWg lid g f).linksDown = s.linksDown := rfl
@[simp] theorem State.updWg_linkResends (lid g : Nat) (f : Wg → Wg) : (s.updWg lid g f).linkResends = s.linkResends := rfl
@[simp] theorem State.updWg_linkOut (lid g : Nat) (f : Wg → Wg) : (s.updWg lid g f).linkOut = s.linkOut := rfl
@[simp] theorem State.updWg_irqs (lid g : Nat) (f : Wg → Wg) : (s.updWg lid g f).irqs = s.irqs := rfl
@[simp] theorem State.updWg_mem (lid g : Nat) (f : Wg → Wg) : (s.updWg lid g f).mem = s.mem := rfl
@[simp] theorem State.updWg_order (lid g : Nat) (f : Wg → Wg) : (s.updWg lid g f).order = s.order := rfl
@[simp] theorem State.updWg_nextSeq (lid g : Nat) (f : Wg → Wg) : (s.updWg lid g f).nextSeq = s.nextSeq := rfl
@[simp] theorem State.updWg_stamp (lid g : Nat) (f : Wg → Wg) : (s.updWg lid g f).stamp = s.stamp := rfl
@[simp] theorem State.updWg_keyTag (lid g : Nat) (f : Wg → Wg) : (s.updWg lid g f).keyTag = s.keyTag := rfl
@[simp] theorem State.updWg_nextKey (lid g : Nat) (f : Wg → Wg) : (s.updWg lid g f).nextKey = s.nextKey := rfl
@[simp] theorem State.updWg_flows (lid g : Nat) (f : Wg → Wg) : (s.updWg lid g f).flows = s.flows := rfl
@[simp] theorem State.updWg_agentAcq (lid g : Nat) (f : Wg → Wg) : (s.updWg lid g f).agentAcq = s.agentAcq := rfl
@[simp] theorem State.updWg_dies (lid g : Nat) (f : Wg → Wg) : (s.updWg lid g f).dies = s.dies := rfl
@[simp] theorem State.updWg_hubCtrs (lid g : Nat) (f : Wg → Wg) : (s.updWg lid g f).hubCtrs = s.hubCtrs := rfl
@[simp] theorem State.updWg_contexts (lid g : Nat) (f : Wg → Wg) : (s.updWg lid g f).contexts = s.contexts := rfl
@[simp] theorem State.updWg_objs (lid g : Nat) (f : Wg → Wg) : (s.updWg lid g f).objs = s.objs := rfl
@[simp] theorem State.updWg_launches (lid g : Nat) (f : Wg → Wg) : (s.updWg lid g f).launches = s.launches := rfl
@[simp] theorem State.updWg_insts (lid g : Nat) (f : Wg → Wg) : (s.updWg lid g f).insts = s.insts := rfl
@[simp] theorem State.updWg_wgs (lid g : Nat) (f : Wg → Wg) : (s.updWg lid g f).wgs = tupd s.wgs (lid, g) f := rfl
@[simp] theorem State.updWg_waves (lid g : Nat) (f : Wg → Wg) : (s.updWg lid g f).waves = s.waves := rfl
@[simp] theorem State.updWg_threads (lid g : Nat) (f : Wg → Wg) : (s.updWg lid g f).threads = s.threads := rfl
@[simp] theorem State.updWg_loads (lid g : Nat) (f : Wg → Wg) : (s.updWg lid g f).loads = s.loads := rfl
@[simp] theorem State.updWg_results (lid g : Nat) (f : Wg → Wg) : (s.updWg lid g f).results = s.results := rfl
@[simp] theorem State.updWg_moves (lid g : Nat) (f : Wg → Wg) : (s.updWg lid g f).moves = s.moves := rfl
@[simp] theorem State.updWg_tileOps (lid g : Nat) (f : Wg → Wg) : (s.updWg lid g f).tileOps = s.tileOps := rfl
@[simp] theorem State.updWg_parked (lid g : Nat) (f : Wg → Wg) : (s.updWg lid g f).parked = s.parked := rfl
@[simp] theorem State.updWg_releases (lid g : Nat) (f : Wg → Wg) : (s.updWg lid g f).releases = s.releases := rfl
@[simp] theorem State.updWg_contribs (lid g : Nat) (f : Wg → Wg) : (s.updWg lid g f).contribs = s.contribs := rfl
@[simp] theorem State.updWg_sync (lid g : Nat) (f : Wg → Wg) : (s.updWg lid g f).sync = s.sync := rfl
@[simp] theorem State.updWg_issueQ (lid g : Nat) (f : Wg → Wg) : (s.updWg lid g f).issueQ = s.issueQ := rfl
@[simp] theorem State.updWg_cur (lid g : Nat) (f : Wg → Wg) : (s.updWg lid g f).cur = s.cur := rfl
@[simp] theorem State.updWg_curW0 (lid g : Nat) (f : Wg → Wg) : (s.updWg lid g f).curW0 = s.curW0 := rfl
@[simp] theorem State.updWg_curW1 (lid g : Nat) (f : Wg → Wg) : (s.updWg lid g f).curW1 = s.curW1 := rfl
@[simp] theorem State.updWg_ext (lid g : Nat) (f : Wg → Wg) : (s.updWg lid g f).ext = s.ext := rfl
@[simp] theorem State.updWg_agenda (lid g : Nat) (f : Wg → Wg) : (s.updWg lid g f).agenda = s.agenda := rfl
@[simp] theorem State.updWg_placements (lid g : Nat) (f : Wg → Wg) : (s.updWg lid g f).placements = s.placements := rfl
@[simp] theorem State.updWg_dbgOut (lid g : Nat) (f : Wg → Wg) : (s.updWg lid g f).dbgOut = s.dbgOut := rfl
@[simp] theorem State.updWg_hostRd (lid g : Nat) (f : Wg → Wg) : (s.updWg lid g f).hostRd = s.hostRd := rfl
@[simp] theorem State.updWg_snoops (lid g : Nat) (f : Wg → Wg) : (s.updWg lid g f).snoops = s.snoops := rfl
@[simp] theorem State.updWg_peerOut (lid g : Nat) (f : Wg → Wg) : (s.updWg lid g f).peerOut = s.peerOut := rfl
@[simp] theorem State.updWg_freeCtr (lid g : Nat) (f : Wg → Wg) : (s.updWg lid g f).freeCtr = s.freeCtr := rfl

@[simp] theorem State.updInst_power (lid i : Nat) (f : Inst → Inst) : (s.updInst lid i f).power = s.power := rfl
@[simp] theorem State.updInst_running (lid i : Nat) (f : Inst → Inst) : (s.updInst lid i f).running = s.running := rfl
@[simp] theorem State.updInst_lovf (lid i : Nat) (f : Inst → Inst) : (s.updInst lid i f).lovf = s.lovf := rfl
@[simp] theorem State.updInst_updating (lid i : Nat) (f : Inst → Inst) : (s.updInst lid i f).updating = s.updating := rfl
@[simp] theorem State.updInst_devfeat (lid i : Nat) (f : Inst → Inst) : (s.updInst lid i f).devfeat = s.devfeat := rfl
@[simp] theorem State.updInst_drvfeat (lid i : Nat) (f : Inst → Inst) : (s.updInst lid i f).drvfeat = s.drvfeat := rfl
@[simp] theorem State.updInst_qtbase (lid i : Nat) (f : Inst → Inst) : (s.updInst lid i f).qtbase = s.qtbase := rfl
@[simp] theorem State.updInst_inval (lid i : Nat) (f : Inst → Inst) : (s.updInst lid i f).inval = s.inval := rfl
@[simp] theorem State.updInst_invalDone (lid i : Nat) (f : Inst → Inst) : (s.updInst lid i f).invalDone = s.invalDone := rfl
@[simp] theorem State.updInst_invalReg (lid i : Nat) (f : Inst → Inst) : (s.updInst lid i f).invalReg = s.invalReg := rfl
@[simp] theorem State.updInst_hdmBase (lid i : Nat) (f : Inst → Inst) : (s.updInst lid i f).hdmBase = s.hdmBase := rfl
@[simp] theorem State.updInst_hdmCnt (lid i : Nat) (f : Inst → Inst) : (s.updInst lid i f).hdmCnt = s.hdmCnt := rfl
@[simp] theorem State.updInst_hdmWin (lid i : Nat) (f : Inst → Inst) : (s.updInst lid i f).hdmWin = s.hdmWin := rfl
@[simp] theorem State.updInst_latch (lid i : Nat) (f : Inst → Inst) : (s.updInst lid i f).latch = s.latch := rfl
@[simp] theorem State.updInst_hqueues (lid i : Nat) (f : Inst → Inst) : (s.updInst lid i f).hqueues = s.hqueues := rfl
@[simp] theorem State.updInst_now (lid i : Nat) (f : Inst → Inst) : (s.updInst lid i f).now = s.now := rfl
@[simp] theorem State.updInst_cycle (lid i : Nat) (f : Inst → Inst) : (s.updInst lid i f).cycle = s.cycle := rfl
@[simp] theorem State.updInst_nextLid (lid i : Nat) (f : Inst → Inst) : (s.updInst lid i f).nextLid = s.nextLid := rfl
@[simp] theorem State.updInst_idGen (lid i : Nat) (f : Inst → Inst) : (s.updInst lid i f).idGen = s.idGen := rfl
@[simp] theorem State.updInst_xmssLeaf (lid i : Nat) (f : Inst → Inst) : (s.updInst lid i f).xmssLeaf = s.xmssLeaf := rfl
@[simp] theorem State.updInst_xmssTree (lid i : Nat) (f : Inst → Inst) : (s.updInst lid i f).xmssTree = s.xmssTree := rfl
@[simp] theorem State.updInst_fwImages (lid i : Nat) (f : Inst → Inst) : (s.updInst lid i f).fwImages = s.fwImages := rfl
@[simp] theorem State.updInst_fwOut (lid i : Nat) (f : Inst → Inst) : (s.updInst lid i f).fwOut = s.fwOut := rfl
@[simp] theorem State.updInst_change (lid i : Nat) (f : Inst → Inst) : (s.updInst lid i f).change = s.change := rfl
@[simp] theorem State.updInst_linksDown (lid i : Nat) (f : Inst → Inst) : (s.updInst lid i f).linksDown = s.linksDown := rfl
@[simp] theorem State.updInst_linkResends (lid i : Nat) (f : Inst → Inst) : (s.updInst lid i f).linkResends = s.linkResends := rfl
@[simp] theorem State.updInst_linkOut (lid i : Nat) (f : Inst → Inst) : (s.updInst lid i f).linkOut = s.linkOut := rfl
@[simp] theorem State.updInst_irqs (lid i : Nat) (f : Inst → Inst) : (s.updInst lid i f).irqs = s.irqs := rfl
@[simp] theorem State.updInst_mem (lid i : Nat) (f : Inst → Inst) : (s.updInst lid i f).mem = s.mem := rfl
@[simp] theorem State.updInst_order (lid i : Nat) (f : Inst → Inst) : (s.updInst lid i f).order = s.order := rfl
@[simp] theorem State.updInst_nextSeq (lid i : Nat) (f : Inst → Inst) : (s.updInst lid i f).nextSeq = s.nextSeq := rfl
@[simp] theorem State.updInst_stamp (lid i : Nat) (f : Inst → Inst) : (s.updInst lid i f).stamp = s.stamp := rfl
@[simp] theorem State.updInst_keyTag (lid i : Nat) (f : Inst → Inst) : (s.updInst lid i f).keyTag = s.keyTag := rfl
@[simp] theorem State.updInst_nextKey (lid i : Nat) (f : Inst → Inst) : (s.updInst lid i f).nextKey = s.nextKey := rfl
@[simp] theorem State.updInst_flows (lid i : Nat) (f : Inst → Inst) : (s.updInst lid i f).flows = s.flows := rfl
@[simp] theorem State.updInst_agentAcq (lid i : Nat) (f : Inst → Inst) : (s.updInst lid i f).agentAcq = s.agentAcq := rfl
@[simp] theorem State.updInst_dies (lid i : Nat) (f : Inst → Inst) : (s.updInst lid i f).dies = s.dies := rfl
@[simp] theorem State.updInst_hubCtrs (lid i : Nat) (f : Inst → Inst) : (s.updInst lid i f).hubCtrs = s.hubCtrs := rfl
@[simp] theorem State.updInst_contexts (lid i : Nat) (f : Inst → Inst) : (s.updInst lid i f).contexts = s.contexts := rfl
@[simp] theorem State.updInst_objs (lid i : Nat) (f : Inst → Inst) : (s.updInst lid i f).objs = s.objs := rfl
@[simp] theorem State.updInst_launches (lid i : Nat) (f : Inst → Inst) : (s.updInst lid i f).launches = s.launches := rfl
@[simp] theorem State.updInst_insts (lid i : Nat) (f : Inst → Inst) : (s.updInst lid i f).insts = tupd s.insts (lid, i) f := rfl
@[simp] theorem State.updInst_wgs (lid i : Nat) (f : Inst → Inst) : (s.updInst lid i f).wgs = s.wgs := rfl
@[simp] theorem State.updInst_waves (lid i : Nat) (f : Inst → Inst) : (s.updInst lid i f).waves = s.waves := rfl
@[simp] theorem State.updInst_threads (lid i : Nat) (f : Inst → Inst) : (s.updInst lid i f).threads = s.threads := rfl
@[simp] theorem State.updInst_loads (lid i : Nat) (f : Inst → Inst) : (s.updInst lid i f).loads = s.loads := rfl
@[simp] theorem State.updInst_results (lid i : Nat) (f : Inst → Inst) : (s.updInst lid i f).results = s.results := rfl
@[simp] theorem State.updInst_moves (lid i : Nat) (f : Inst → Inst) : (s.updInst lid i f).moves = s.moves := rfl
@[simp] theorem State.updInst_tileOps (lid i : Nat) (f : Inst → Inst) : (s.updInst lid i f).tileOps = s.tileOps := rfl
@[simp] theorem State.updInst_parked (lid i : Nat) (f : Inst → Inst) : (s.updInst lid i f).parked = s.parked := rfl
@[simp] theorem State.updInst_releases (lid i : Nat) (f : Inst → Inst) : (s.updInst lid i f).releases = s.releases := rfl
@[simp] theorem State.updInst_contribs (lid i : Nat) (f : Inst → Inst) : (s.updInst lid i f).contribs = s.contribs := rfl
@[simp] theorem State.updInst_sync (lid i : Nat) (f : Inst → Inst) : (s.updInst lid i f).sync = s.sync := rfl
@[simp] theorem State.updInst_issueQ (lid i : Nat) (f : Inst → Inst) : (s.updInst lid i f).issueQ = s.issueQ := rfl
@[simp] theorem State.updInst_cur (lid i : Nat) (f : Inst → Inst) : (s.updInst lid i f).cur = s.cur := rfl
@[simp] theorem State.updInst_curW0 (lid i : Nat) (f : Inst → Inst) : (s.updInst lid i f).curW0 = s.curW0 := rfl
@[simp] theorem State.updInst_curW1 (lid i : Nat) (f : Inst → Inst) : (s.updInst lid i f).curW1 = s.curW1 := rfl
@[simp] theorem State.updInst_ext (lid i : Nat) (f : Inst → Inst) : (s.updInst lid i f).ext = s.ext := rfl
@[simp] theorem State.updInst_agenda (lid i : Nat) (f : Inst → Inst) : (s.updInst lid i f).agenda = s.agenda := rfl
@[simp] theorem State.updInst_placements (lid i : Nat) (f : Inst → Inst) : (s.updInst lid i f).placements = s.placements := rfl
@[simp] theorem State.updInst_dbgOut (lid i : Nat) (f : Inst → Inst) : (s.updInst lid i f).dbgOut = s.dbgOut := rfl
@[simp] theorem State.updInst_hostRd (lid i : Nat) (f : Inst → Inst) : (s.updInst lid i f).hostRd = s.hostRd := rfl
@[simp] theorem State.updInst_snoops (lid i : Nat) (f : Inst → Inst) : (s.updInst lid i f).snoops = s.snoops := rfl
@[simp] theorem State.updInst_peerOut (lid i : Nat) (f : Inst → Inst) : (s.updInst lid i f).peerOut = s.peerOut := rfl
@[simp] theorem State.updInst_freeCtr (lid i : Nat) (f : Inst → Inst) : (s.updInst lid i f).freeCtr = s.freeCtr := rfl

@[simp] theorem State.updLaunch_power (lid : Nat) (f : Launch → Launch) : (s.updLaunch lid f).power = s.power := rfl
@[simp] theorem State.updLaunch_running (lid : Nat) (f : Launch → Launch) : (s.updLaunch lid f).running = s.running := rfl
@[simp] theorem State.updLaunch_lovf (lid : Nat) (f : Launch → Launch) : (s.updLaunch lid f).lovf = s.lovf := rfl
@[simp] theorem State.updLaunch_updating (lid : Nat) (f : Launch → Launch) : (s.updLaunch lid f).updating = s.updating := rfl
@[simp] theorem State.updLaunch_devfeat (lid : Nat) (f : Launch → Launch) : (s.updLaunch lid f).devfeat = s.devfeat := rfl
@[simp] theorem State.updLaunch_drvfeat (lid : Nat) (f : Launch → Launch) : (s.updLaunch lid f).drvfeat = s.drvfeat := rfl
@[simp] theorem State.updLaunch_qtbase (lid : Nat) (f : Launch → Launch) : (s.updLaunch lid f).qtbase = s.qtbase := rfl
@[simp] theorem State.updLaunch_inval (lid : Nat) (f : Launch → Launch) : (s.updLaunch lid f).inval = s.inval := rfl
@[simp] theorem State.updLaunch_invalDone (lid : Nat) (f : Launch → Launch) : (s.updLaunch lid f).invalDone = s.invalDone := rfl
@[simp] theorem State.updLaunch_invalReg (lid : Nat) (f : Launch → Launch) : (s.updLaunch lid f).invalReg = s.invalReg := rfl
@[simp] theorem State.updLaunch_hdmBase (lid : Nat) (f : Launch → Launch) : (s.updLaunch lid f).hdmBase = s.hdmBase := rfl
@[simp] theorem State.updLaunch_hdmCnt (lid : Nat) (f : Launch → Launch) : (s.updLaunch lid f).hdmCnt = s.hdmCnt := rfl
@[simp] theorem State.updLaunch_hdmWin (lid : Nat) (f : Launch → Launch) : (s.updLaunch lid f).hdmWin = s.hdmWin := rfl
@[simp] theorem State.updLaunch_latch (lid : Nat) (f : Launch → Launch) : (s.updLaunch lid f).latch = s.latch := rfl
@[simp] theorem State.updLaunch_hqueues (lid : Nat) (f : Launch → Launch) : (s.updLaunch lid f).hqueues = s.hqueues := rfl
@[simp] theorem State.updLaunch_now (lid : Nat) (f : Launch → Launch) : (s.updLaunch lid f).now = s.now := rfl
@[simp] theorem State.updLaunch_cycle (lid : Nat) (f : Launch → Launch) : (s.updLaunch lid f).cycle = s.cycle := rfl
@[simp] theorem State.updLaunch_nextLid (lid : Nat) (f : Launch → Launch) : (s.updLaunch lid f).nextLid = s.nextLid := rfl
@[simp] theorem State.updLaunch_idGen (lid : Nat) (f : Launch → Launch) : (s.updLaunch lid f).idGen = s.idGen := rfl
@[simp] theorem State.updLaunch_xmssLeaf (lid : Nat) (f : Launch → Launch) : (s.updLaunch lid f).xmssLeaf = s.xmssLeaf := rfl
@[simp] theorem State.updLaunch_xmssTree (lid : Nat) (f : Launch → Launch) : (s.updLaunch lid f).xmssTree = s.xmssTree := rfl
@[simp] theorem State.updLaunch_fwImages (lid : Nat) (f : Launch → Launch) : (s.updLaunch lid f).fwImages = s.fwImages := rfl
@[simp] theorem State.updLaunch_fwOut (lid : Nat) (f : Launch → Launch) : (s.updLaunch lid f).fwOut = s.fwOut := rfl
@[simp] theorem State.updLaunch_change (lid : Nat) (f : Launch → Launch) : (s.updLaunch lid f).change = s.change := rfl
@[simp] theorem State.updLaunch_linksDown (lid : Nat) (f : Launch → Launch) : (s.updLaunch lid f).linksDown = s.linksDown := rfl
@[simp] theorem State.updLaunch_linkResends (lid : Nat) (f : Launch → Launch) : (s.updLaunch lid f).linkResends = s.linkResends := rfl
@[simp] theorem State.updLaunch_linkOut (lid : Nat) (f : Launch → Launch) : (s.updLaunch lid f).linkOut = s.linkOut := rfl
@[simp] theorem State.updLaunch_irqs (lid : Nat) (f : Launch → Launch) : (s.updLaunch lid f).irqs = s.irqs := rfl
@[simp] theorem State.updLaunch_mem (lid : Nat) (f : Launch → Launch) : (s.updLaunch lid f).mem = s.mem := rfl
@[simp] theorem State.updLaunch_order (lid : Nat) (f : Launch → Launch) : (s.updLaunch lid f).order = s.order := rfl
@[simp] theorem State.updLaunch_nextSeq (lid : Nat) (f : Launch → Launch) : (s.updLaunch lid f).nextSeq = s.nextSeq := rfl
@[simp] theorem State.updLaunch_stamp (lid : Nat) (f : Launch → Launch) : (s.updLaunch lid f).stamp = s.stamp := rfl
@[simp] theorem State.updLaunch_keyTag (lid : Nat) (f : Launch → Launch) : (s.updLaunch lid f).keyTag = s.keyTag := rfl
@[simp] theorem State.updLaunch_nextKey (lid : Nat) (f : Launch → Launch) : (s.updLaunch lid f).nextKey = s.nextKey := rfl
@[simp] theorem State.updLaunch_flows (lid : Nat) (f : Launch → Launch) : (s.updLaunch lid f).flows = s.flows := rfl
@[simp] theorem State.updLaunch_agentAcq (lid : Nat) (f : Launch → Launch) : (s.updLaunch lid f).agentAcq = s.agentAcq := rfl
@[simp] theorem State.updLaunch_dies (lid : Nat) (f : Launch → Launch) : (s.updLaunch lid f).dies = s.dies := rfl
@[simp] theorem State.updLaunch_hubCtrs (lid : Nat) (f : Launch → Launch) : (s.updLaunch lid f).hubCtrs = s.hubCtrs := rfl
@[simp] theorem State.updLaunch_contexts (lid : Nat) (f : Launch → Launch) : (s.updLaunch lid f).contexts = s.contexts := rfl
@[simp] theorem State.updLaunch_objs (lid : Nat) (f : Launch → Launch) : (s.updLaunch lid f).objs = s.objs := rfl
@[simp] theorem State.updLaunch_launches (lid : Nat) (f : Launch → Launch) : (s.updLaunch lid f).launches = tupd s.launches lid f := rfl
@[simp] theorem State.updLaunch_insts (lid : Nat) (f : Launch → Launch) : (s.updLaunch lid f).insts = s.insts := rfl
@[simp] theorem State.updLaunch_wgs (lid : Nat) (f : Launch → Launch) : (s.updLaunch lid f).wgs = s.wgs := rfl
@[simp] theorem State.updLaunch_waves (lid : Nat) (f : Launch → Launch) : (s.updLaunch lid f).waves = s.waves := rfl
@[simp] theorem State.updLaunch_threads (lid : Nat) (f : Launch → Launch) : (s.updLaunch lid f).threads = s.threads := rfl
@[simp] theorem State.updLaunch_loads (lid : Nat) (f : Launch → Launch) : (s.updLaunch lid f).loads = s.loads := rfl
@[simp] theorem State.updLaunch_results (lid : Nat) (f : Launch → Launch) : (s.updLaunch lid f).results = s.results := rfl
@[simp] theorem State.updLaunch_moves (lid : Nat) (f : Launch → Launch) : (s.updLaunch lid f).moves = s.moves := rfl
@[simp] theorem State.updLaunch_tileOps (lid : Nat) (f : Launch → Launch) : (s.updLaunch lid f).tileOps = s.tileOps := rfl
@[simp] theorem State.updLaunch_parked (lid : Nat) (f : Launch → Launch) : (s.updLaunch lid f).parked = s.parked := rfl
@[simp] theorem State.updLaunch_releases (lid : Nat) (f : Launch → Launch) : (s.updLaunch lid f).releases = s.releases := rfl
@[simp] theorem State.updLaunch_contribs (lid : Nat) (f : Launch → Launch) : (s.updLaunch lid f).contribs = s.contribs := rfl
@[simp] theorem State.updLaunch_sync (lid : Nat) (f : Launch → Launch) : (s.updLaunch lid f).sync = s.sync := rfl
@[simp] theorem State.updLaunch_issueQ (lid : Nat) (f : Launch → Launch) : (s.updLaunch lid f).issueQ = s.issueQ := rfl
@[simp] theorem State.updLaunch_cur (lid : Nat) (f : Launch → Launch) : (s.updLaunch lid f).cur = s.cur := rfl
@[simp] theorem State.updLaunch_curW0 (lid : Nat) (f : Launch → Launch) : (s.updLaunch lid f).curW0 = s.curW0 := rfl
@[simp] theorem State.updLaunch_curW1 (lid : Nat) (f : Launch → Launch) : (s.updLaunch lid f).curW1 = s.curW1 := rfl
@[simp] theorem State.updLaunch_ext (lid : Nat) (f : Launch → Launch) : (s.updLaunch lid f).ext = s.ext := rfl
@[simp] theorem State.updLaunch_agenda (lid : Nat) (f : Launch → Launch) : (s.updLaunch lid f).agenda = s.agenda := rfl
@[simp] theorem State.updLaunch_placements (lid : Nat) (f : Launch → Launch) : (s.updLaunch lid f).placements = s.placements := rfl
@[simp] theorem State.updLaunch_dbgOut (lid : Nat) (f : Launch → Launch) : (s.updLaunch lid f).dbgOut = s.dbgOut := rfl
@[simp] theorem State.updLaunch_hostRd (lid : Nat) (f : Launch → Launch) : (s.updLaunch lid f).hostRd = s.hostRd := rfl
@[simp] theorem State.updLaunch_snoops (lid : Nat) (f : Launch → Launch) : (s.updLaunch lid f).snoops = s.snoops := rfl
@[simp] theorem State.updLaunch_peerOut (lid : Nat) (f : Launch → Launch) : (s.updLaunch lid f).peerOut = s.peerOut := rfl
@[simp] theorem State.updLaunch_freeCtr (lid : Nat) (f : Launch → Launch) : (s.updLaunch lid f).freeCtr = s.freeCtr := rfl

@[simp] theorem State.updCtx_power (c : Nat) (f : Context → Context) : (s.updCtx c f).power = s.power := rfl
@[simp] theorem State.updCtx_running (c : Nat) (f : Context → Context) : (s.updCtx c f).running = s.running := rfl
@[simp] theorem State.updCtx_lovf (c : Nat) (f : Context → Context) : (s.updCtx c f).lovf = s.lovf := rfl
@[simp] theorem State.updCtx_updating (c : Nat) (f : Context → Context) : (s.updCtx c f).updating = s.updating := rfl
@[simp] theorem State.updCtx_devfeat (c : Nat) (f : Context → Context) : (s.updCtx c f).devfeat = s.devfeat := rfl
@[simp] theorem State.updCtx_drvfeat (c : Nat) (f : Context → Context) : (s.updCtx c f).drvfeat = s.drvfeat := rfl
@[simp] theorem State.updCtx_qtbase (c : Nat) (f : Context → Context) : (s.updCtx c f).qtbase = s.qtbase := rfl
@[simp] theorem State.updCtx_inval (c : Nat) (f : Context → Context) : (s.updCtx c f).inval = s.inval := rfl
@[simp] theorem State.updCtx_invalDone (c : Nat) (f : Context → Context) : (s.updCtx c f).invalDone = s.invalDone := rfl
@[simp] theorem State.updCtx_invalReg (c : Nat) (f : Context → Context) : (s.updCtx c f).invalReg = s.invalReg := rfl
@[simp] theorem State.updCtx_hdmBase (c : Nat) (f : Context → Context) : (s.updCtx c f).hdmBase = s.hdmBase := rfl
@[simp] theorem State.updCtx_hdmCnt (c : Nat) (f : Context → Context) : (s.updCtx c f).hdmCnt = s.hdmCnt := rfl
@[simp] theorem State.updCtx_hdmWin (c : Nat) (f : Context → Context) : (s.updCtx c f).hdmWin = s.hdmWin := rfl
@[simp] theorem State.updCtx_latch (c : Nat) (f : Context → Context) : (s.updCtx c f).latch = s.latch := rfl
@[simp] theorem State.updCtx_hqueues (c : Nat) (f : Context → Context) : (s.updCtx c f).hqueues = s.hqueues := rfl
@[simp] theorem State.updCtx_now (c : Nat) (f : Context → Context) : (s.updCtx c f).now = s.now := rfl
@[simp] theorem State.updCtx_cycle (c : Nat) (f : Context → Context) : (s.updCtx c f).cycle = s.cycle := rfl
@[simp] theorem State.updCtx_nextLid (c : Nat) (f : Context → Context) : (s.updCtx c f).nextLid = s.nextLid := rfl
@[simp] theorem State.updCtx_idGen (c : Nat) (f : Context → Context) : (s.updCtx c f).idGen = s.idGen := rfl
@[simp] theorem State.updCtx_xmssLeaf (c : Nat) (f : Context → Context) : (s.updCtx c f).xmssLeaf = s.xmssLeaf := rfl
@[simp] theorem State.updCtx_xmssTree (c : Nat) (f : Context → Context) : (s.updCtx c f).xmssTree = s.xmssTree := rfl
@[simp] theorem State.updCtx_fwImages (c : Nat) (f : Context → Context) : (s.updCtx c f).fwImages = s.fwImages := rfl
@[simp] theorem State.updCtx_fwOut (c : Nat) (f : Context → Context) : (s.updCtx c f).fwOut = s.fwOut := rfl
@[simp] theorem State.updCtx_change (c : Nat) (f : Context → Context) : (s.updCtx c f).change = s.change := rfl
@[simp] theorem State.updCtx_linksDown (c : Nat) (f : Context → Context) : (s.updCtx c f).linksDown = s.linksDown := rfl
@[simp] theorem State.updCtx_linkResends (c : Nat) (f : Context → Context) : (s.updCtx c f).linkResends = s.linkResends := rfl
@[simp] theorem State.updCtx_linkOut (c : Nat) (f : Context → Context) : (s.updCtx c f).linkOut = s.linkOut := rfl
@[simp] theorem State.updCtx_irqs (c : Nat) (f : Context → Context) : (s.updCtx c f).irqs = s.irqs := rfl
@[simp] theorem State.updCtx_mem (c : Nat) (f : Context → Context) : (s.updCtx c f).mem = s.mem := rfl
@[simp] theorem State.updCtx_order (c : Nat) (f : Context → Context) : (s.updCtx c f).order = s.order := rfl
@[simp] theorem State.updCtx_nextSeq (c : Nat) (f : Context → Context) : (s.updCtx c f).nextSeq = s.nextSeq := rfl
@[simp] theorem State.updCtx_stamp (c : Nat) (f : Context → Context) : (s.updCtx c f).stamp = s.stamp := rfl
@[simp] theorem State.updCtx_keyTag (c : Nat) (f : Context → Context) : (s.updCtx c f).keyTag = s.keyTag := rfl
@[simp] theorem State.updCtx_nextKey (c : Nat) (f : Context → Context) : (s.updCtx c f).nextKey = s.nextKey := rfl
@[simp] theorem State.updCtx_flows (c : Nat) (f : Context → Context) : (s.updCtx c f).flows = s.flows := rfl
@[simp] theorem State.updCtx_agentAcq (c : Nat) (f : Context → Context) : (s.updCtx c f).agentAcq = s.agentAcq := rfl
@[simp] theorem State.updCtx_dies (c : Nat) (f : Context → Context) : (s.updCtx c f).dies = s.dies := rfl
@[simp] theorem State.updCtx_hubCtrs (c : Nat) (f : Context → Context) : (s.updCtx c f).hubCtrs = s.hubCtrs := rfl
@[simp] theorem State.updCtx_contexts (c : Nat) (f : Context → Context) : (s.updCtx c f).contexts = tupd s.contexts c f := rfl
@[simp] theorem State.updCtx_objs (c : Nat) (f : Context → Context) : (s.updCtx c f).objs = s.objs := rfl
@[simp] theorem State.updCtx_launches (c : Nat) (f : Context → Context) : (s.updCtx c f).launches = s.launches := rfl
@[simp] theorem State.updCtx_insts (c : Nat) (f : Context → Context) : (s.updCtx c f).insts = s.insts := rfl
@[simp] theorem State.updCtx_wgs (c : Nat) (f : Context → Context) : (s.updCtx c f).wgs = s.wgs := rfl
@[simp] theorem State.updCtx_waves (c : Nat) (f : Context → Context) : (s.updCtx c f).waves = s.waves := rfl
@[simp] theorem State.updCtx_threads (c : Nat) (f : Context → Context) : (s.updCtx c f).threads = s.threads := rfl
@[simp] theorem State.updCtx_loads (c : Nat) (f : Context → Context) : (s.updCtx c f).loads = s.loads := rfl
@[simp] theorem State.updCtx_results (c : Nat) (f : Context → Context) : (s.updCtx c f).results = s.results := rfl
@[simp] theorem State.updCtx_moves (c : Nat) (f : Context → Context) : (s.updCtx c f).moves = s.moves := rfl
@[simp] theorem State.updCtx_tileOps (c : Nat) (f : Context → Context) : (s.updCtx c f).tileOps = s.tileOps := rfl
@[simp] theorem State.updCtx_parked (c : Nat) (f : Context → Context) : (s.updCtx c f).parked = s.parked := rfl
@[simp] theorem State.updCtx_releases (c : Nat) (f : Context → Context) : (s.updCtx c f).releases = s.releases := rfl
@[simp] theorem State.updCtx_contribs (c : Nat) (f : Context → Context) : (s.updCtx c f).contribs = s.contribs := rfl
@[simp] theorem State.updCtx_sync (c : Nat) (f : Context → Context) : (s.updCtx c f).sync = s.sync := rfl
@[simp] theorem State.updCtx_issueQ (c : Nat) (f : Context → Context) : (s.updCtx c f).issueQ = s.issueQ := rfl
@[simp] theorem State.updCtx_cur (c : Nat) (f : Context → Context) : (s.updCtx c f).cur = s.cur := rfl
@[simp] theorem State.updCtx_curW0 (c : Nat) (f : Context → Context) : (s.updCtx c f).curW0 = s.curW0 := rfl
@[simp] theorem State.updCtx_curW1 (c : Nat) (f : Context → Context) : (s.updCtx c f).curW1 = s.curW1 := rfl
@[simp] theorem State.updCtx_ext (c : Nat) (f : Context → Context) : (s.updCtx c f).ext = s.ext := rfl
@[simp] theorem State.updCtx_agenda (c : Nat) (f : Context → Context) : (s.updCtx c f).agenda = s.agenda := rfl
@[simp] theorem State.updCtx_placements (c : Nat) (f : Context → Context) : (s.updCtx c f).placements = s.placements := rfl
@[simp] theorem State.updCtx_dbgOut (c : Nat) (f : Context → Context) : (s.updCtx c f).dbgOut = s.dbgOut := rfl
@[simp] theorem State.updCtx_hostRd (c : Nat) (f : Context → Context) : (s.updCtx c f).hostRd = s.hostRd := rfl
@[simp] theorem State.updCtx_snoops (c : Nat) (f : Context → Context) : (s.updCtx c f).snoops = s.snoops := rfl
@[simp] theorem State.updCtx_peerOut (c : Nat) (f : Context → Context) : (s.updCtx c f).peerOut = s.peerOut := rfl
@[simp] theorem State.updCtx_freeCtr (c : Nat) (f : Context → Context) : (s.updCtx c f).freeCtr = s.freeCtr := rfl

@[simp] theorem State.updDie_power (d : Nat) (f : Die → Die) : (s.updDie d f).power = s.power := rfl
@[simp] theorem State.updDie_running (d : Nat) (f : Die → Die) : (s.updDie d f).running = s.running := rfl
@[simp] theorem State.updDie_lovf (d : Nat) (f : Die → Die) : (s.updDie d f).lovf = s.lovf := rfl
@[simp] theorem State.updDie_updating (d : Nat) (f : Die → Die) : (s.updDie d f).updating = s.updating := rfl
@[simp] theorem State.updDie_devfeat (d : Nat) (f : Die → Die) : (s.updDie d f).devfeat = s.devfeat := rfl
@[simp] theorem State.updDie_drvfeat (d : Nat) (f : Die → Die) : (s.updDie d f).drvfeat = s.drvfeat := rfl
@[simp] theorem State.updDie_qtbase (d : Nat) (f : Die → Die) : (s.updDie d f).qtbase = s.qtbase := rfl
@[simp] theorem State.updDie_inval (d : Nat) (f : Die → Die) : (s.updDie d f).inval = s.inval := rfl
@[simp] theorem State.updDie_invalDone (d : Nat) (f : Die → Die) : (s.updDie d f).invalDone = s.invalDone := rfl
@[simp] theorem State.updDie_invalReg (d : Nat) (f : Die → Die) : (s.updDie d f).invalReg = s.invalReg := rfl
@[simp] theorem State.updDie_hdmBase (d : Nat) (f : Die → Die) : (s.updDie d f).hdmBase = s.hdmBase := rfl
@[simp] theorem State.updDie_hdmCnt (d : Nat) (f : Die → Die) : (s.updDie d f).hdmCnt = s.hdmCnt := rfl
@[simp] theorem State.updDie_hdmWin (d : Nat) (f : Die → Die) : (s.updDie d f).hdmWin = s.hdmWin := rfl
@[simp] theorem State.updDie_latch (d : Nat) (f : Die → Die) : (s.updDie d f).latch = s.latch := rfl
@[simp] theorem State.updDie_hqueues (d : Nat) (f : Die → Die) : (s.updDie d f).hqueues = s.hqueues := rfl
@[simp] theorem State.updDie_now (d : Nat) (f : Die → Die) : (s.updDie d f).now = s.now := rfl
@[simp] theorem State.updDie_cycle (d : Nat) (f : Die → Die) : (s.updDie d f).cycle = s.cycle := rfl
@[simp] theorem State.updDie_nextLid (d : Nat) (f : Die → Die) : (s.updDie d f).nextLid = s.nextLid := rfl
@[simp] theorem State.updDie_idGen (d : Nat) (f : Die → Die) : (s.updDie d f).idGen = s.idGen := rfl
@[simp] theorem State.updDie_xmssLeaf (d : Nat) (f : Die → Die) : (s.updDie d f).xmssLeaf = s.xmssLeaf := rfl
@[simp] theorem State.updDie_xmssTree (d : Nat) (f : Die → Die) : (s.updDie d f).xmssTree = s.xmssTree := rfl
@[simp] theorem State.updDie_fwImages (d : Nat) (f : Die → Die) : (s.updDie d f).fwImages = s.fwImages := rfl
@[simp] theorem State.updDie_fwOut (d : Nat) (f : Die → Die) : (s.updDie d f).fwOut = s.fwOut := rfl
@[simp] theorem State.updDie_change (d : Nat) (f : Die → Die) : (s.updDie d f).change = s.change := rfl
@[simp] theorem State.updDie_linksDown (d : Nat) (f : Die → Die) : (s.updDie d f).linksDown = s.linksDown := rfl
@[simp] theorem State.updDie_linkResends (d : Nat) (f : Die → Die) : (s.updDie d f).linkResends = s.linkResends := rfl
@[simp] theorem State.updDie_linkOut (d : Nat) (f : Die → Die) : (s.updDie d f).linkOut = s.linkOut := rfl
@[simp] theorem State.updDie_irqs (d : Nat) (f : Die → Die) : (s.updDie d f).irqs = s.irqs := rfl
@[simp] theorem State.updDie_mem (d : Nat) (f : Die → Die) : (s.updDie d f).mem = s.mem := rfl
@[simp] theorem State.updDie_order (d : Nat) (f : Die → Die) : (s.updDie d f).order = s.order := rfl
@[simp] theorem State.updDie_nextSeq (d : Nat) (f : Die → Die) : (s.updDie d f).nextSeq = s.nextSeq := rfl
@[simp] theorem State.updDie_stamp (d : Nat) (f : Die → Die) : (s.updDie d f).stamp = s.stamp := rfl
@[simp] theorem State.updDie_keyTag (d : Nat) (f : Die → Die) : (s.updDie d f).keyTag = s.keyTag := rfl
@[simp] theorem State.updDie_nextKey (d : Nat) (f : Die → Die) : (s.updDie d f).nextKey = s.nextKey := rfl
@[simp] theorem State.updDie_flows (d : Nat) (f : Die → Die) : (s.updDie d f).flows = s.flows := rfl
@[simp] theorem State.updDie_agentAcq (d : Nat) (f : Die → Die) : (s.updDie d f).agentAcq = s.agentAcq := rfl
@[simp] theorem State.updDie_dies (d : Nat) (f : Die → Die) : (s.updDie d f).dies = vupd s.dies d f := rfl
@[simp] theorem State.updDie_hubCtrs (d : Nat) (f : Die → Die) : (s.updDie d f).hubCtrs = s.hubCtrs := rfl
@[simp] theorem State.updDie_contexts (d : Nat) (f : Die → Die) : (s.updDie d f).contexts = s.contexts := rfl
@[simp] theorem State.updDie_objs (d : Nat) (f : Die → Die) : (s.updDie d f).objs = s.objs := rfl
@[simp] theorem State.updDie_launches (d : Nat) (f : Die → Die) : (s.updDie d f).launches = s.launches := rfl
@[simp] theorem State.updDie_insts (d : Nat) (f : Die → Die) : (s.updDie d f).insts = s.insts := rfl
@[simp] theorem State.updDie_wgs (d : Nat) (f : Die → Die) : (s.updDie d f).wgs = s.wgs := rfl
@[simp] theorem State.updDie_waves (d : Nat) (f : Die → Die) : (s.updDie d f).waves = s.waves := rfl
@[simp] theorem State.updDie_threads (d : Nat) (f : Die → Die) : (s.updDie d f).threads = s.threads := rfl
@[simp] theorem State.updDie_loads (d : Nat) (f : Die → Die) : (s.updDie d f).loads = s.loads := rfl
@[simp] theorem State.updDie_results (d : Nat) (f : Die → Die) : (s.updDie d f).results = s.results := rfl
@[simp] theorem State.updDie_moves (d : Nat) (f : Die → Die) : (s.updDie d f).moves = s.moves := rfl
@[simp] theorem State.updDie_tileOps (d : Nat) (f : Die → Die) : (s.updDie d f).tileOps = s.tileOps := rfl
@[simp] theorem State.updDie_parked (d : Nat) (f : Die → Die) : (s.updDie d f).parked = s.parked := rfl
@[simp] theorem State.updDie_releases (d : Nat) (f : Die → Die) : (s.updDie d f).releases = s.releases := rfl
@[simp] theorem State.updDie_contribs (d : Nat) (f : Die → Die) : (s.updDie d f).contribs = s.contribs := rfl
@[simp] theorem State.updDie_sync (d : Nat) (f : Die → Die) : (s.updDie d f).sync = s.sync := rfl
@[simp] theorem State.updDie_issueQ (d : Nat) (f : Die → Die) : (s.updDie d f).issueQ = s.issueQ := rfl
@[simp] theorem State.updDie_cur (d : Nat) (f : Die → Die) : (s.updDie d f).cur = s.cur := rfl
@[simp] theorem State.updDie_curW0 (d : Nat) (f : Die → Die) : (s.updDie d f).curW0 = s.curW0 := rfl
@[simp] theorem State.updDie_curW1 (d : Nat) (f : Die → Die) : (s.updDie d f).curW1 = s.curW1 := rfl
@[simp] theorem State.updDie_ext (d : Nat) (f : Die → Die) : (s.updDie d f).ext = s.ext := rfl
@[simp] theorem State.updDie_agenda (d : Nat) (f : Die → Die) : (s.updDie d f).agenda = s.agenda := rfl
@[simp] theorem State.updDie_placements (d : Nat) (f : Die → Die) : (s.updDie d f).placements = s.placements := rfl
@[simp] theorem State.updDie_dbgOut (d : Nat) (f : Die → Die) : (s.updDie d f).dbgOut = s.dbgOut := rfl
@[simp] theorem State.updDie_hostRd (d : Nat) (f : Die → Die) : (s.updDie d f).hostRd = s.hostRd := rfl
@[simp] theorem State.updDie_snoops (d : Nat) (f : Die → Die) : (s.updDie d f).snoops = s.snoops := rfl
@[simp] theorem State.updDie_peerOut (d : Nat) (f : Die → Die) : (s.updDie d f).peerOut = s.peerOut := rfl
@[simp] theorem State.updDie_freeCtr (d : Nat) (f : Die → Die) : (s.updDie d f).freeCtr = s.freeCtr := rfl

@[simp] theorem State.draw_power : (s.draw).power = s.power := rfl
@[simp] theorem State.draw_running : (s.draw).running = s.running := rfl
@[simp] theorem State.draw_lovf : (s.draw).lovf = s.lovf := rfl
@[simp] theorem State.draw_updating : (s.draw).updating = s.updating := rfl
@[simp] theorem State.draw_devfeat : (s.draw).devfeat = s.devfeat := rfl
@[simp] theorem State.draw_drvfeat : (s.draw).drvfeat = s.drvfeat := rfl
@[simp] theorem State.draw_qtbase : (s.draw).qtbase = s.qtbase := rfl
@[simp] theorem State.draw_inval : (s.draw).inval = s.inval := rfl
@[simp] theorem State.draw_invalDone : (s.draw).invalDone = s.invalDone := rfl
@[simp] theorem State.draw_invalReg : (s.draw).invalReg = s.invalReg := rfl
@[simp] theorem State.draw_hdmBase : (s.draw).hdmBase = s.hdmBase := rfl
@[simp] theorem State.draw_hdmCnt : (s.draw).hdmCnt = s.hdmCnt := rfl
@[simp] theorem State.draw_hdmWin : (s.draw).hdmWin = s.hdmWin := rfl
@[simp] theorem State.draw_latch : (s.draw).latch = s.latch := rfl
@[simp] theorem State.draw_hqueues : (s.draw).hqueues = s.hqueues := rfl
@[simp] theorem State.draw_now : (s.draw).now = s.now := rfl
@[simp] theorem State.draw_cycle : (s.draw).cycle = s.cycle := rfl
@[simp] theorem State.draw_nextLid : (s.draw).nextLid = s.nextLid := rfl
@[simp] theorem State.draw_idGen : (s.draw).idGen = s.idGen := rfl
@[simp] theorem State.draw_xmssLeaf : (s.draw).xmssLeaf = s.xmssLeaf := rfl
@[simp] theorem State.draw_xmssTree : (s.draw).xmssTree = s.xmssTree := rfl
@[simp] theorem State.draw_fwImages : (s.draw).fwImages = s.fwImages := rfl
@[simp] theorem State.draw_fwOut : (s.draw).fwOut = s.fwOut := rfl
@[simp] theorem State.draw_change : (s.draw).change = s.change := rfl
@[simp] theorem State.draw_linksDown : (s.draw).linksDown = s.linksDown := rfl
@[simp] theorem State.draw_linkResends : (s.draw).linkResends = s.linkResends := rfl
@[simp] theorem State.draw_linkOut : (s.draw).linkOut = s.linkOut := rfl
@[simp] theorem State.draw_irqs : (s.draw).irqs = s.irqs := rfl
@[simp] theorem State.draw_mem : (s.draw).mem = s.mem := rfl
@[simp] theorem State.draw_order : (s.draw).order = s.order := rfl
@[simp] theorem State.draw_nextSeq : (s.draw).nextSeq = s.nextSeq := rfl
@[simp] theorem State.draw_stamp : (s.draw).stamp = s.stamp := rfl
@[simp] theorem State.draw_keyTag : (s.draw).keyTag = s.keyTag := rfl
@[simp] theorem State.draw_nextKey : (s.draw).nextKey = s.nextKey := rfl
@[simp] theorem State.draw_flows : (s.draw).flows = s.flows := rfl
@[simp] theorem State.draw_agentAcq : (s.draw).agentAcq = s.agentAcq := rfl
@[simp] theorem State.draw_dies : (s.draw).dies = s.dies := rfl
@[simp] theorem State.draw_hubCtrs : (s.draw).hubCtrs = s.hubCtrs := rfl
@[simp] theorem State.draw_contexts : (s.draw).contexts = s.contexts := rfl
@[simp] theorem State.draw_objs : (s.draw).objs = s.objs := rfl
@[simp] theorem State.draw_launches : (s.draw).launches = s.launches := rfl
@[simp] theorem State.draw_insts : (s.draw).insts = s.insts := rfl
@[simp] theorem State.draw_wgs : (s.draw).wgs = s.wgs := rfl
@[simp] theorem State.draw_waves : (s.draw).waves = s.waves := rfl
@[simp] theorem State.draw_threads : (s.draw).threads = s.threads := rfl
@[simp] theorem State.draw_loads : (s.draw).loads = s.loads := rfl
@[simp] theorem State.draw_results : (s.draw).results = s.results := rfl
@[simp] theorem State.draw_moves : (s.draw).moves = s.moves := rfl
@[simp] theorem State.draw_tileOps : (s.draw).tileOps = s.tileOps := rfl
@[simp] theorem State.draw_parked : (s.draw).parked = s.parked := rfl
@[simp] theorem State.draw_releases : (s.draw).releases = s.releases := rfl
@[simp] theorem State.draw_contribs : (s.draw).contribs = s.contribs := rfl
@[simp] theorem State.draw_sync : (s.draw).sync = s.sync := rfl
@[simp] theorem State.draw_issueQ : (s.draw).issueQ = s.issueQ := rfl
@[simp] theorem State.draw_cur : (s.draw).cur = s.cur := rfl
@[simp] theorem State.draw_curW0 : (s.draw).curW0 = s.curW0 := rfl
@[simp] theorem State.draw_curW1 : (s.draw).curW1 = s.curW1 := rfl
@[simp] theorem State.draw_ext : (s.draw).ext = s.ext := rfl
@[simp] theorem State.draw_agenda : (s.draw).agenda = s.agenda := rfl
@[simp] theorem State.draw_placements : (s.draw).placements = s.placements := rfl
@[simp] theorem State.draw_dbgOut : (s.draw).dbgOut = s.dbgOut := rfl
@[simp] theorem State.draw_hostRd : (s.draw).hostRd = s.hostRd := rfl
@[simp] theorem State.draw_snoops : (s.draw).snoops = s.snoops := rfl
@[simp] theorem State.draw_peerOut : (s.draw).peerOut = s.peerOut := rfl
@[simp] theorem State.draw_freeCtr : (s.draw).freeCtr = s.freeCtr + 1 := rfl

end Sys2Proof.Machine
end

