-- ==== Sys2Proof/Laws/Table.lean ====
section
/-! SUPPORT. Lookups in tables after their updates. -/

namespace Sys2Proof.Machine

variable {κ α : Type} [DecidableEq κ]

@[simp] theorem tkeys_tupd (t : Tab κ α) (k : κ) (f : α → α) : tkeys (tupd t k f) = tkeys t := by
  induction t with
  | nil => rfl
  | cons e t ih =>
    obtain ⟨k', a⟩ := e
    simp only [tupd]
    split <;> simp_all [tkeys]

theorem tget_tupd (t : Tab κ α) (k j : κ) (f : α → α) :
    tget (tupd t k f) j = if j = k then (tget t k).map f else tget t j := by
  induction t with
  | nil => simp [tupd, tget]
  | cons e t ih =>
    obtain ⟨k', a⟩ := e
    by_cases h : k' = k
    · subst h
      by_cases hj : j = k'
      · simp [tupd, tget, hj]
      · simp [tupd, tget, hj, Ne.symm hj]
    · by_cases hj : k' = j
      · subst hj
        simp [tupd, tget, h]
      · simp [tupd, tget, h, hj, ih]

@[simp] theorem tget_tupd_self (t : Tab κ α) (k : κ) (f : α → α) : tget (tupd t k f) k = (tget t k).map f := by
  simp [tget_tupd]

theorem tget_tupd_ne (t : Tab κ α) {k j : κ} (f : α → α) (h : j ≠ k) : tget (tupd t k f) j = tget t j := by
  simp [tget_tupd, h]

theorem tget_tset (t : Tab κ α) (k j : κ) (a : α) : tget (tset t k a) j = if j = k then some a else tget t j := by
  induction t with
  | nil => simp [tset, tget, eq_comm]
  | cons e t ih =>
    obtain ⟨k', b⟩ := e
    by_cases h : k' = k
    · subst h
      by_cases hj : j = k'
      · simp [tset, tget, hj]
      · simp [tset, tget, hj, Ne.symm hj]
    · by_cases hj : k' = j
      · subst hj
        simp [tset, tget, h]
      · simp [tset, tget, h, hj, ih]

@[simp] theorem tget_tset_self (t : Tab κ α) (k : κ) (a : α) : tget (tset t k a) k = some a := by simp [tget_tset]

theorem tget_isSome (t : Tab κ α) (k : κ) : (tget t k).isSome ↔ k ∈ tkeys t := by
  induction t with
  | nil => simp [tget, tkeys]
  | cons e t ih =>
    obtain ⟨k', a⟩ := e
    by_cases h : k' = k
    · simp [tget, tkeys, h]
    · simp only [tget, h, if_false, ih, tkeys, List.map_cons, List.mem_cons, Ne.symm h, false_or]

theorem tget_mem {t : Tab κ α} {k : κ} (h : k ∈ tkeys t) : ∃ a, tget t k = some a :=
  Option.isSome_iff_exists.1 ((tget_isSome t k).2 h)

/-! ## The accessors of the state -/

variable (s : State)

theorem State.thr_updThr (t u : TRef) (f : Thread → Thread) (h : t ∈ tkeys s.threads) :
    (s.updThr t f).thr u = if u = t then f (s.thr t) else s.thr u := by
  obtain ⟨a, ha⟩ := tget_mem h
  by_cases hu : u = t <;> simp [State.thr, tget_tupd, hu, ha]

theorem State.thr_updThr_ne {t u : TRef} (f : Thread → Thread) (h : u ≠ t) : (s.updThr t f).thr u = s.thr u := by
  simp [State.thr, tget_tupd, h]

@[simp] theorem State.thr_updWave (t u : TRef) (f : Wave → Wave) : (s.updWave t f).thr u = s.thr u := rfl
@[simp] theorem State.thr_updWg (l g : Nat) (u : TRef) (f : Wg → Wg) : (s.updWg l g f).thr u = s.thr u := rfl
@[simp] theorem State.thr_updLaunch (l : Nat) (u : TRef) (f : Launch → Launch) : (s.updLaunch l f).thr u = s.thr u := rfl
@[simp] theorem State.thr_updInst (l i : Nat) (u : TRef) (f : Inst → Inst) : (s.updInst l i f).thr u = s.thr u := rfl
@[simp] theorem State.thr_updDie (d : Nat) (u : TRef) (f : Die → Die) : (s.updDie d f).thr u = s.thr u := rfl
@[simp] theorem State.thr_updCtx (c : Nat) (u : TRef) (f : Context → Context) : (s.updCtx c f).thr u = s.thr u := rfl
@[simp] theorem State.wave_updThr (t u : TRef) (f : Thread → Thread) : (s.updThr t f).wave u = s.wave u := rfl
@[simp] theorem State.wave_updWg (l g : Nat) (u : TRef) (f : Wg → Wg) : (s.updWg l g f).wave u = s.wave u := rfl
@[simp] theorem State.wg_updThr (t : TRef) (l g : Nat) (f : Thread → Thread) : (s.updThr t f).wg l g = s.wg l g := rfl
@[simp] theorem State.wgOf_updThr (t u : TRef) (f : Thread → Thread) : (s.updThr t f).wgOf u = s.wgOf u := rfl
@[simp] theorem State.launch_updThr (t : TRef) (l : Nat) (f : Thread → Thread) : (s.updThr t f).launch l = s.launch l := rfl
@[simp] theorem State.launchOf_updThr (t u : TRef) (f : Thread → Thread) : (s.updThr t f).launchOf u = s.launchOf u := rfl
@[simp] theorem State.ctxOf_updThr (t u : TRef) (f : Thread → Thread) : (s.updThr t f).ctxOf u = s.ctxOf u := rfl
@[simp] theorem State.tid_updThr (t u : TRef) (f : Thread → Thread) : (s.updThr t f).tid u = s.tid u := rfl

theorem State.wave_updWave (t u : TRef) (f : Wave → Wave) (h : (t.lid, t.wg, t.wave) ∈ tkeys s.waves) :
    (s.updWave t f).wave u = if u.lid = t.lid ∧ u.wg = t.wg ∧ u.wave = t.wave then f (s.wave t) else s.wave u := by
  obtain ⟨a, ha⟩ := tget_mem h
  by_cases hu : u.lid = t.lid ∧ u.wg = t.wg ∧ u.wave = t.wave
  · simp [State.wave, hu, ha]
  · have : (u.lid, u.wg, u.wave) ≠ (t.lid, t.wg, t.wave) := by simpa using hu
    simp [State.wave, tget_tupd, hu, this]

theorem State.wg_updWg (l g l' g' : Nat) (f : Wg → Wg) (h : (l, g) ∈ tkeys s.wgs) :
    (s.updWg l g f).wg l' g' = if l' = l ∧ g' = g then f (s.wg l g) else s.wg l' g' := by
  obtain ⟨a, ha⟩ := tget_mem h
  by_cases hu : l' = l ∧ g' = g
  · simp [State.wg, hu, ha]
  · have : (l', g') ≠ (l, g) := by simpa using hu
    simp [State.wg, tget_tupd, hu, this]

theorem State.launch_updLaunch (l l' : Nat) (f : Launch → Launch) (h : l ∈ tkeys s.launches) :
    (s.updLaunch l f).launch l' = if l' = l then f (s.launch l) else s.launch l' := by
  obtain ⟨a, ha⟩ := tget_mem h
  by_cases hu : l' = l <;> simp [State.launch, tget_tupd, hu, ha]

theorem vget_vupd {α : Type} {n : Nat} (v : Vector α n) (d : α) (i j : Nat) (f : α → α) (h : i < n) :
    vget (vupd v i f) d j = if j = i then f (vget v d i) else vget v d j := by
  by_cases hj : j < n
  · by_cases e : j = i
    · subst e; simp [vget, vupd, hj]
    · simp [vget, vupd, hj, h, e, Ne.symm e]
  · have e : j ≠ i := by omega
    simp [vget, hj, e]

theorem State.die_updDie (d e : Nat) (f : Die → Die) (h : d < 24) :
    (s.updDie d f).die e = if e = d then f (s.die d) else s.die e := vget_vupd s.dies {} d e f h

end Sys2Proof.Machine
end

