-- ==== Sys2Proof/Laws/Issue.lean ====
section
/-! SUPPORT. What the shared operations of issue do to a group: retirement, a change of each thread's record, a value in
D with flags, and the records of faults. -/

namespace Sys2Proof.Machine

/-! ## One change of each thread of a list -/

/-- The threads of a list are changed, each by its own function. -/
theorem thr_foldl_updThr (g : TRef → Thread → Thread) (l : List TRef) (s : State) (hn : l.Nodup)
    (hk : ∀ t ∈ l, t ∈ tkeys s.threads) (u : TRef) :
    (l.foldl (fun s t => s.updThr t (g t)) s).thr u = if u ∈ l then g u (s.thr u) else s.thr u := by
  induction l generalizing s with
  | nil => simp
  | cons a l ih =>
    have ha := hk a (by simp)
    rw [List.nodup_cons] at hn
    have := ih (s.updThr a (g a)) hn.2 (fun t ht => by simpa using hk t (by simp [ht]))
    rw [List.foldl_cons, this, State.thr_updThr s a u (g a) ha]
    by_cases hu : u = a
    · subst hu; simp [hn.1]
    · simp [hu]

theorem SameButThreads.trans {s t u : State} (h : SameButThreads s t) (k : SameButThreads t u) : SameButThreads s u :=
  Eq.trans k (congrArg (fun (x : State) => { x with threads := u.threads }) h)

theorem SameButWaves.trans {s t u : State} (h : SameButWaves s t) (k : SameButWaves t u) : SameButWaves s u :=
  Eq.trans k (congrArg (fun (x : State) => { x with threads := u.threads, waves := u.waves }) h)

theorem SameButThreads.waves {s t : State} (h : SameButThreads s t) : t.waves = s.waves :=
  (congrArg State.waves h : t.waves = { s with threads := t.threads }.waves)
theorem SameButThreads.mem {s t : State} (h : SameButThreads s t) : t.mem = s.mem :=
  (congrArg State.mem h : t.mem = { s with threads := t.threads }.mem)
theorem SameButThreads.cur {s t : State} (h : SameButThreads s t) : t.cur = s.cur :=
  (congrArg State.cur h : t.cur = { s with threads := t.threads }.cur)

theorem SameButThreads.toWaves {s t : State} (h : SameButThreads s t) : SameButWaves s t :=
  Eq.trans h (congrArg (fun (w : Tab (Nat × Nat × Nat) Wave) => { s with threads := t.threads, waves := w }) h.waves.symm)

/-- Nothing but the threads' records changes. -/
theorem foldl_updThr_same (g : TRef → Thread → Thread) (l : List TRef) (s : State) :
    SameButThreads s (l.foldl (fun s t => s.updThr t (g t)) s) := by
  induction l generalizing s with
  | nil => rfl
  | cons a l ih => exact SameButThreads.trans (t := s.updThr a (g a)) rfl (ih (s.updThr a (g a)))

theorem tkeys_foldl_updThr (g : TRef → Thread → Thread) (l : List TRef) (s : State) :
    tkeys (l.foldl (fun s t => s.updThr t (g t)) s).threads = tkeys s.threads := by
  induction l generalizing s with
  | nil => rfl
  | cons a l ih => rw [List.foldl_cons, ih]; simp

/-- The threads of a list are changed in turn, each by what the state says of it, where that does not depend on the records of
the others. -/
theorem thr_foldl_dep (g : State → TRef → Thread → Thread)
    (hg : ∀ s u v f, u ≠ v → v ∈ tkeys s.threads → g (s.updThr v f) u = g s u)
    (l : List TRef) (s : State) (hn : l.Nodup) (hk : ∀ t ∈ l, t ∈ tkeys s.threads) (u : TRef) :
    (l.foldl (fun s t => s.updThr t (g s t)) s).thr u = if u ∈ l then g s u (s.thr u) else s.thr u := by
  induction l generalizing s with
  | nil => simp
  | cons a l ih =>
    have ha := hk a (by simp)
    rw [List.nodup_cons] at hn
    have := ih (s.updThr a (g s a)) hn.2 (fun t ht => by simpa using hk t (by simp [ht]))
    rw [List.foldl_cons, this, State.thr_updThr s a u (g s a) ha]
    by_cases hu : u = a
    · subst hu; simp [hn.1]
    · simp [hu, hg s u a _ hu ha]

theorem foldl_dep_same (g : State → TRef → Thread → Thread) (l : List TRef) (s : State) :
    SameButThreads s (l.foldl (fun s t => s.updThr t (g s t)) s) := by
  induction l generalizing s with
  | nil => rfl
  | cons a l ih => exact SameButThreads.trans (t := s.updThr a (g s a)) rfl (ih (s.updThr a (g s a)))

/-- Every thread of a list retires. -/
theorem thr_retireAll (len : Nat) (l : List TRef) (s : State) (hn : l.Nodup) (hk : ∀ t ∈ l, t ∈ tkeys s.threads)
    (u : TRef) : (s.retireAll len l).thr u = if u ∈ l then (s.thr u).retire len else s.thr u :=
  thr_foldl_updThr (fun _ th => th.retire len) l s hn hk u

theorem retireAll_same (len : Nat) (l : List TRef) (s : State) : SameButThreads s (s.retireAll len l) :=
  foldl_updThr_same (fun _ th => th.retire len) l s

/-! ## A value in D, with flags -/

@[simp] theorem Wave.flagged_zero (w : Wave) : w.flagged 0 = w := by
  cases w; simp [Wave.flagged]

theorem setFlags_eq (s : State) (t : TRef) (fl : BitVec 7) :
    s.setFlags t fl = if fl = 0 then s else s.updWave t fun w => w.flagged fl := rfl

@[simp] theorem thr_setFlags (s : State) (t u : TRef) (fl : BitVec 7) : (s.setFlags t fl).thr u = s.thr u := by
  rw [setFlags_eq]; split <;> rfl

@[simp] theorem threads_setFlags (s : State) (t : TRef) (fl : BitVec 7) : (s.setFlags t fl).threads = s.threads := by
  rw [setFlags_eq]; split <;> rfl

theorem wave_setFlags (s : State) (t u : TRef) (fl : BitVec 7) (h : (t.lid, t.wg, t.wave) ∈ tkeys s.waves) :
    (s.setFlags t fl).wave u = if sameWave t u then (s.wave u).flagged fl else s.wave u := by
  have hw : (u.lid = t.lid ∧ u.wg = t.wg ∧ u.wave = t.wave) ↔ sameWave t u = true := by
    simp only [sameWave, Bool.and_eq_true, beq_iff_eq]
    exact ⟨fun ⟨a, b, c⟩ => ⟨⟨a.symm, b.symm⟩, c.symm⟩, fun ⟨⟨a, b⟩, c⟩ => ⟨a.symm, b.symm, c.symm⟩⟩
  rw [setFlags_eq]
  split
  · next h0 => subst h0; split <;> simp [Wave.flagged]
  · rw [State.wave_updWave s t u _ h]
    by_cases hs : sameWave t u = true
    · obtain ⟨h1, h2, h3⟩ := hw.2 hs
      rw [if_pos ⟨h1, h2, h3⟩, if_pos hs]
      simp only [State.wave, h1, h2, h3]
    · rw [if_neg (mt hw.1 hs), if_neg hs]

theorem setFlags_same (s : State) (t : TRef) (fl : BitVec 7) : SameButWaves s (s.setFlags t fl) := by
  rw [setFlags_eq]; split <;> rfl

theorem tkeys_waves_setFlags (s : State) (t : TRef) (fl : BitVec 7) : tkeys (s.setFlags t fl).waves = tkeys s.waves := by
  rw [setFlags_eq]; split <;> simp

/-- What one thread's step does to its own record, given its own record and what its wave reads as. -/
structure Local where
  upd : TRef → Thread → Wave → Thread
  flags : TRef → Thread → Wave → BitVec 7
  /-- it does not read the flags -/
  indep : ∀ t th w fl, upd t th (w.flagged fl) = upd t th w ∧ flags t th (w.flagged fl) = flags t th w

def Local.run (L : Local) (t : TRef) (s : State) : State :=
  (s.updThr t fun _ => L.upd t (s.thr t) (s.wave t)).setFlags t (L.flags t (s.thr t) (s.wave t))

theorem Local.fold (L : Local) (l : List TRef) (s : State) (hn : l.Nodup)
    (hk : ∀ t ∈ l, t ∈ tkeys s.threads ∧ (t.lid, t.wg, t.wave) ∈ tkeys s.waves) :
    let t := l.foldl (fun s t => L.run t s) s
    (∀ u, t.thr u = if u ∈ l then L.upd u (s.thr u) (s.wave u) else s.thr u) ∧
      (∀ u, t.wave u = (s.wave u).flagged
        (orFlags (fun x => L.flags x (s.thr x) (s.wave x)) (l.filter fun x => sameWave x u))) ∧
      SameButWaves s t ∧ tkeys t.threads = tkeys s.threads ∧ tkeys t.waves = tkeys s.waves := by
  induction l generalizing s with
  | nil =>
    refine ⟨by simp, fun u => ?_, rfl, rfl, rfl⟩
    simp [orFlags, Wave.flagged]
  | cons a l ih =>
    have ha := hk a (by simp)
    rw [List.nodup_cons] at hn
    set s1 := L.run a s with hs1
    have ht1 : tkeys s1.threads = tkeys s.threads := by simp [hs1, Local.run]
    have hw1 : tkeys s1.waves = tkeys s.waves := by
      rw [hs1, Local.run, tkeys_waves_setFlags]; rfl
    have hth1 : ∀ u, s1.thr u = if u = a then L.upd a (s.thr a) (s.wave a) else s.thr u := fun u => by
      rw [hs1, Local.run, thr_setFlags, State.thr_updThr s a u _ ha.1]
    have hwv1 : ∀ u, s1.wave u = if sameWave a u then (s.wave u).flagged (L.flags a (s.thr a) (s.wave a)) else s.wave u :=
      fun u => wave_setFlags (s.updThr a _) a u _ ha.2
    obtain ⟨i1, i2, i3, i4, i5⟩ := ih s1 hn.2 (fun t ht => by rw [ht1, hw1]; exact hk t (by simp [ht]))
    have hfl : ∀ x, x ∈ l → L.flags x (s1.thr x) (s1.wave x) = L.flags x (s.thr x) (s.wave x) := fun x hx => by
      have hxa : x ≠ a := fun e => hn.1 (e ▸ hx)
      rw [hth1, hwv1, if_neg hxa]
      split
      · exact (L.indep _ _ _ _).2
      · rfl
    refine ⟨fun u => ?_, fun u => ?_, ?_, ?_, ?_⟩
    · rw [List.foldl_cons, i1 u]
      by_cases hu : u = a
      · subst hu; simp [hn.1, hth1]
      · rw [hth1, if_neg hu, hwv1]
        by_cases hl : u ∈ l
        · simp only [hl, if_true, List.mem_cons, or_true]
          split
          · exact (L.indep _ _ _ _).1
          · rfl
        · simp [hl, hu]
    · rw [List.foldl_cons, i2 u, hwv1]
      have hmap : ∀ (m : List TRef) (x0 : BitVec 7), (∀ x ∈ m, x ∈ l) →
          m.foldl (fun x u => x ||| L.flags u (s1.thr u) (s1.wave u)) x0 =
            m.foldl (fun x u => x ||| L.flags u (s.thr u) (s.wave u)) x0 := by
        intro m
        induction m with
        | nil => intros; rfl
        | cons y m ihm =>
          intro x0 hm
          rw [List.foldl_cons, List.foldl_cons, hfl y (hm y (by simp)), ihm _ fun x hx => hm x (by simp [hx])]
      have hor : ∀ (m : List TRef) (x0 : BitVec 7),
          m.foldl (fun x u => x ||| L.flags u (s.thr u) (s.wave u)) x0 =
            x0 ||| m.foldl (fun x u => x ||| L.flags u (s.thr u) (s.wave u)) 0 := by
        intro m
        induction m with
        | nil => intro x0; simp
        | cons y m ihm =>
          intro x0
          rw [List.foldl_cons, List.foldl_cons, ihm, ihm (0 ||| _)]
          simp [BitVec.or_assoc]
      have hsub : ∀ x ∈ l.filter (fun x => sameWave x u), x ∈ l := fun x hx => (List.mem_filter.1 hx).1
      simp only [orFlags]
      rw [hmap _ _ hsub]
      by_cases hs : sameWave a u = true
      · simp only [hs, if_true, List.filter_cons]
        rw [List.foldl_cons, hor _ (0 ||| _)]
        simp [Wave.flagged, BitVec.or_assoc]
      · simp [hs]
    · rw [List.foldl_cons]
      refine SameButWaves.trans (t := s1) ?_ i3
      rw [hs1, Local.run]
      exact SameButWaves.trans (t := s.updThr a _) rfl (setFlags_same _ _ _)
    · rw [List.foldl_cons, i4, ht1]
    · rw [List.foldl_cons, i5, hw1]

/-- The active threads of a group are some of its threads. -/
theorem active_sub (s : State) (p : Pred) : ∀ t ∈ s.active p, t ∈ s.cur.threads := fun _ h => (List.mem_filter.1 h).1

theorem active_nodup {s : State} (h : s.GroupOk) (p : Pred) : (s.active p).Nodup := h.1.filter _

/-- A group's step by a local effect, then retirement. -/
theorem each_local (L : Local) (s : State) (len : Nat) (act : List TRef) (hg : s.GroupOk) (hn : act.Nodup)
    (hsub : ∀ t ∈ act, t ∈ s.cur.threads) :
    let t := s.each len act (fun t s => L.run t s)
    (∀ u ∈ s.cur.threads, t.thr u = (if u ∈ act then L.upd u (s.thr u) (s.wave u) else s.thr u).retire len) ∧
      SameOthers s t ∧
      (∀ u, t.wave u = (s.wave u).flagged
        (orFlags (fun x => L.flags x (s.thr x) (s.wave x)) (act.filter fun x => sameWave x u))) ∧
      SameButWaves s t := by
  obtain ⟨f1, f2, f3, f4, _⟩ := L.fold act s hn fun t ht => hg.2 t (hsub t ht)
  simp only [State.each]
  set m := act.foldl (fun s t => L.run t s) s with hm
  have hk : ∀ t ∈ s.cur.threads, t ∈ tkeys m.threads := fun t ht => by rw [f4]; exact (hg.2 t ht).1
  have hr := thr_retireAll len s.cur.threads m hg.1 hk
  have hs := retireAll_same len s.cur.threads m
  refine ⟨fun u hu => ?_, fun u hu => ?_, fun u => ?_, f3.trans hs.toWaves⟩
  · rw [hr u, if_pos hu, f1 u]
  · rw [hr u, if_neg hu, f1 u, if_neg fun h => hu (hsub u h)]
  · rw [State.wave, hs.waves]; exact f2 u

/-- A group's step that changes its active threads' records only, then retirement. -/
theorem each_dep (g : State → TRef → Thread → Thread)
    (hg : ∀ s u v f, u ≠ v → v ∈ tkeys s.threads → g (s.updThr v f) u = g s u)
    (s : State) (len : Nat) (act : List TRef) (h : s.GroupOk) (hn : act.Nodup) (hsub : ∀ t ∈ act, t ∈ s.cur.threads) :
    FormEffect s (s.each len act fun t s => s.updThr t (g s t)) act len (fun u th => g s u th) fun _ => 0 := by
  simp only [State.each]
  set m := act.foldl (fun s t => s.updThr t (g s t)) s with hm
  have f1 := thr_foldl_dep g hg act s hn fun t ht => (h.2 t (hsub t ht)).1
  have f2 : SameButThreads s m := foldl_dep_same g act s
  have hk : tkeys m.threads = tkeys s.threads := by
    have : ∀ (l : List TRef) (s : State), tkeys (l.foldl (fun s t => s.updThr t (g s t)) s).threads = tkeys s.threads := by
      intro l
      induction l with
      | nil => intro s; rfl
      | cons a l ih => intro s; rw [List.foldl_cons, ih]; simp
    exact this act s
  have hr := thr_retireAll len s.cur.threads m h.1 fun t ht => by rw [hk]; exact (h.2 t ht).1
  have hs := retireAll_same len s.cur.threads m
  have hz : ∀ l : List TRef, orFlags (fun _ => 0) l = 0 := by
    intro l
    simp only [orFlags]
    induction l with
    | nil => rfl
    | cons a l ih => simp [List.foldl_cons]
  have hw : ∀ u, (m.retireAll len s.cur.threads).wave u = s.wave u := fun u => by
    rw [State.wave, hs.waves, f2.waves]; rfl
  refine ⟨fun u hu => ?_, fun u hu => ?_, fun u _ => ?_, fun u _ => hw u, (f2.trans hs).toWaves⟩
  · rw [hr u, if_pos hu, f1 u]
  · rw [hr u, if_neg hu, f1 u, if_neg fun h => hu (hsub u h)]
  · rw [hz, Wave.flagged_zero, hw u]

end Sys2Proof.Machine
end

