-- ==== Sys2Proof/Laws/Forms.lean ====
section
/-! SUPPORT. What the shared forms of the arithmetic classes do: a value in D, a predicate, a change of each thread. -/

namespace Sys2Proof.Machine

theorem tupd_congr {κ α : Type} [DecidableEq κ] (t : Tab κ α) (k : κ) {f g : α → α}
    (h : ∀ a, tget t k = some a → f a = g a) : tupd t k f = tupd t k g := by
  induction t with
  | nil => rfl
  | cons e t ih =>
    obtain ⟨k', a⟩ := e
    simp only [tupd]
    by_cases hk : k' = k
    · simp only [hk, if_true]
      rw [h a (by simp [tget, hk])]
    · simp only [hk, if_false]
      rw [ih fun b hb => h b (by simp [tget, hk, hb])]

/-- A change of a thread depends only on the record that it has. -/
theorem updThr_congr (s : State) (t : TRef) {f g : Thread → Thread} (h : f (s.thr t) = g (s.thr t)) :
    s.updThr t f = s.updThr t g := by
  have : tupd s.threads t f = tupd s.threads t g := tupd_congr _ _ fun a ha => by
    have : s.thr t = a := by simp [State.thr, ha]
    rw [← this, h]
  simp only [State.updThr, this]

/-- A value that is read without the wave's flags. -/
def FlagFree {β : Type} (val : Rd → β) : Prop :=
  ∀ th w imm lit fl, val { th := th, wave := w.flagged fl, imm := imm, lit := lit } =
    val { th := th, wave := w, imm := imm, lit := lit }

@[simp] theorem r32_flagged (th : Thread) (w : Wave) (imm : Word) (lit : DWord) (fl : BitVec 7) (o : Operand) :
    Rd.r32 { th := th, wave := w.flagged fl, imm := imm, lit := lit } o =
      Rd.r32 { th := th, wave := w, imm := imm, lit := lit } o := by cases o <;> rfl

@[simp] theorem r64_flagged (th : Thread) (w : Wave) (imm : Word) (lit : DWord) (fl : BitVec 7) (o : Operand) :
    Rd.r64 { th := th, wave := w.flagged fl, imm := imm, lit := lit } o =
      Rd.r64 { th := th, wave := w, imm := imm, lit := lit } o := by cases o <;> rfl

@[simp] theorem rw_flagged (th : Thread) (w : Wave) (imm : Word) (lit : DWord) (fl : BitVec 7) (wide : Bool) (o : Operand) :
    Rd.rw { th := th, wave := w.flagged fl, imm := imm, lit := lit } wide o =
      Rd.rw { th := th, wave := w, imm := imm, lit := lit } wide o := by simp [Rd.rw]

/-- The local effect of reading operands, changing the thread's record and raising flags. -/
def formLocal {β : Type} (imm : Word) (lit : DWord) (val : Rd → β × BitVec 7) (upd : β → Thread → Thread)
    (h : FlagFree val) : Local where
  upd _ th w := upd (val { th := th, wave := w, imm := imm, lit := lit }).1 th
  flags _ th w := (val { th := th, wave := w, imm := imm, lit := lit }).2
  indep _ th w fl := ⟨by rw [h th w imm lit fl], by rw [h th w imm lit fl]⟩

/-- The common shape of the forms below, and what it does. -/
theorem form_effect {β : Type} (s : State) (len : Nat) (act : List TRef) (imm : Word) (lit : Option DWord)
    (val : Rd → β × BitVec 7) (upd : β → Thread → Thread) (hv : FlagFree val) (hg : s.GroupOk) (hn : act.Nodup)
    (hsub : ∀ t ∈ act, t ∈ s.cur.threads) :
    FormEffect s (s.each len act fun t s =>
        (s.updThr t fun th => upd (val (s.rd t imm lit)).1 th).setFlags t (val (s.rd t imm lit)).2)
      act len (fun u th => upd (val (s.rd u imm lit)).1 th) fun u => (val (s.rd u imm lit)).2 := by
  have key : (fun (t : TRef) (s : State) =>
      (s.updThr t fun th => upd (val (s.rd t imm lit)).1 th).setFlags t (val (s.rd t imm lit)).2) =
        fun t s => (formLocal imm (lit.getD 0) val upd hv).run t s := by
    funext t s
    rw [Local.run]
    congr 1
    exact updThr_congr s t rfl
  obtain ⟨h1, h2, h3, h4⟩ := each_local (formLocal imm (lit.getD 0) val upd hv) s len act hg hn hsub
  rw [key]
  refine ⟨h1, h2, fun u _ => h3 u, fun u hu => ?_, h4⟩
  rw [h3 u, List.filter_eq_nil_iff.2 fun x hx => by simp [hu x (hsub x hx)]]
  exact Wave.flagged_zero _

theorem issueWith_admits {s : State} {h : Hdr} {n : Need} (idle : List TRef) (body : List TRef → State → State)
    (ha : s.Admits n h) : s.issueWith h n idle body = body (s.active h.pred) s := by
  rw [State.issueWith, ha.1]
  simp only [ha.2]

theorem issue_admits {s : State} {h : Hdr} {n : Need} (body : List TRef → State → State) (ha : s.Admits n h) :
    s.issue h n body = body (s.active h.pred) s :=
  issueWith_admits _ body ha

/-- A form that waits for its unit's turn goes through where every active thread's is open. -/
theorem atTurn_open {s : State} {act : List TRef} (k : State → State) (h : s.TurnsOpen act) : s.atTurn act k = k s :=
  if_pos (List.all_eq_true.2 h)

/-- Where some thread's turn is not open, those threads wait, and nothing else happens. -/
theorem atTurn_late {s : State} {act : List TRef} (k : State → State) (h : ¬s.TurnsOpen act) : s.atTurn act k = s.awaitTurn act :=
  if_neg fun e => h (List.all_eq_true.1 e)

theorem issueShort_admits {s : State} {f : Short} {n : Need} (body : List TRef → State → State) (ha : s.AdmitsShort n f) :
    s.issueShort f n body = body s.cur.threads s := by
  rw [State.issueShort, ha.1]
  simp only [ha.2]

/-- A long form that puts a value in D. -/
theorem alu_effect {s : State} {h : Hdr} {n : Need} (imm : Word) (wide : Bool) (val : Rd → Nat × BitVec 7)
    (hv : FlagFree val) (hg : s.GroupOk) (ha : s.Admits n h) :
    ValueEffect s (s.alu h imm n wide val) (s.active h.pred) (hlen h) wide h.d fun u => val (s.rd u imm h.lit) := by
  rw [State.alu, issue_admits _ ha]
  exact form_effect s (hlen h) (s.active h.pred) imm h.lit val (fun x th => th.setD wide h.d x) hv hg (active_nodup hg h.pred)
    (active_sub s h.pred)

/-- A short form that puts a value in D. -/
theorem aluShort_effect {s : State} {f : Short} {n : Need} (wide : Bool) (val : Rd → Nat × BitVec 7)
    (hv : FlagFree val) (hg : s.GroupOk) (ha : s.AdmitsShort n f) :
    ValueEffect s (s.aluShort f n wide val) s.cur.threads (slen f) wide f.d fun u => val (s.rd u 0 f.lit) := by
  rw [State.aluShort, issueShort_admits _ ha]
  exact form_effect s (slen f) s.cur.threads 0 f.lit val (fun x th => th.setD wide f.d x) hv hg hg.1 fun _ h => h

/-- A form that writes a predicate. -/
theorem predForm_effect {s : State} {h : Hdr} {n : Need} (pd : BitVec 3) (val : Rd → Bool × BitVec 7)
    (hv : FlagFree val) (hg : s.GroupOk) (ha : s.Admits n h) :
    FormEffect s (s.predForm h n pd val) (s.active h.pred) (hlen h)
      (fun u th => th.setP pd.toNat (val (s.rd u 0 h.lit)).1) fun u => (val (s.rd u 0 h.lit)).2 := by
  rw [State.predForm, issue_admits _ ha]
  exact form_effect s (hlen h) (s.active h.pred) 0 h.lit val (fun x th => th.setP pd.toNat x) hv hg (active_nodup hg h.pred)
    (active_sub s h.pred)

/-! ## The checks of an instruction's own, when they pass -/

theorem stall_none {l : List (TRef × Acc)} (s : State) (h : ∀ x ∈ l, ∃ ls, x.2 = .ok ls) : s.stall l = none := by
  rw [State.stall]
  refine if_pos ?_
  simp only [Bool.and_eq_true, List.isEmpty_iff, Option.isNone_iff_eq_none]
  exact ⟨List.flatMap_eq_nil_iff.2 fun x hx => by
      obtain ⟨ls, e⟩ := h x hx
      simp [e],
    List.findSome?_eq_none_iff.2 fun x hx => by
      obtain ⟨ls, e⟩ := h x hx
      simp [e]⟩

/-- Where no thread's own outstanding load reads the bytes that it writes, the rest of the instruction goes on. -/
theorem whenClear_pass {s : State} {acc : List (TRef × Acc)} (k : State → State)
    (h : ∀ x ∈ acc, s.loadBusy x.1 x.2.locs = false) : s.whenClear acc k = k s := by
  rw [State.whenClear, if_neg]
  simp only [List.any_eq_true, not_exists, not_and, Bool.not_eq_true]
  exact h

theorem faultsOf_nil {act : List TRef} {chk : TRef → Option (Nat × Flt)} (h : NoneFaults act chk) : faultsOf act chk = [] := by
  simp only [faultsOf, List.filterMap_eq_nil_iff]
  intro t ht
  simp [h t ht]

theorem guardFaults_pass {act : List TRef} {chk : TRef → Option (Nat × Flt)} (s : State) (len : Nat) (p : Pred) (all : Bool)
    (k : State → State) (h : NoneFaults act chk) : s.guardFaults len p act all chk k = k s := by
  simp [State.guardFaults, faultsOf_nil h, firstRank]

theorem withAccess_pass {act : List TRef} {acc : TRef → Acc} (s : State) (len : Nat) (p : Pred) (k : State → State)
    (h : AccessesOk act acc) : s.withAccess len p act acc k = k s := by
  have hs : s.stall (act.map fun t => (t, acc t)) = none := stall_none s (by
    intro x hx
    obtain ⟨t, ht, rfl⟩ := List.mem_map.1 hx
    exact h t ht)
  rw [State.withAccess, hs]
  refine guardFaults_pass s len p false k fun t ht => ?_
  obtain ⟨ls, e⟩ := h t ht
  simp [e, Acc.rank?]

theorem ordered_pass {s : State} {act : List TRef} {atom : Bool} (k : State → State) (h : s.AllMay act atom) :
    s.ordered act atom k = k s := by
  have hf : act.filter (fun t => s.detMay (act.filter (· ≠ t)) atom t) = act := List.filter_eq_self.2 h
  simp only [State.ordered, hf, if_true]

theorem orderedIf_pass {s : State} {act : List TRef} (ph : Bool) (k : State → State) (h : ph = true → s.AllMay act false) :
    s.orderedIf ph act k = k s := by
  cases ph
  · rfl
  · exact ordered_pass k (h rfl)

theorem deliver_none {s : State} {act : List TRef} (len : Nat) (idle : List TRef) (flags : Bool) (hit : TrapRec → Bool)
    (h : s.Undisturbed act) : s.deliver len idle act flags hit = none := by
  have h1 : (act.any fun t => s.results.any fun r =>
      r.thread.lid == t.lid && r.thread.wg == t.wg && r.thread.wave == t.wave) = false := by
    simp only [List.any_eq_false, Bool.and_eq_true, beq_iff_eq, List.any_eq_true, not_exists, not_and]
    exact fun t ht r hr a b => (h t ht).1 r hr ⟨a.1, a.2, b⟩
  have h2 : act.filter (fun t => ((s.thr t).deferred.find? hit).isSome) = [] := by
    simp only [List.filter_eq_nil_iff]
    intro t ht
    simp [(h t ht).2.1]
  have h3 : act.filter (fun t => s.enabledFlags t ≠ 0) = [] := by
    simp only [List.filter_eq_nil_iff]
    intro t ht
    simp [(h t ht).2.2]
  simp only [State.deliver, h1, h2, h3, Bool.and_false]
  cases flags <;> simp

end Sys2Proof.Machine
end

