-- ==== Sys2Proof/Laws/Mem.lean ====
section
/-! SUPPORT. Memory: what a byte reads as after a write, and that every write keeps the canonical form; what a load's reading
leaves alone. -/

namespace Sys2Proof.Machine

/-! ## One byte -/

theorem cellGet_put (m : List Host.Cell) (a b : Nat) (v : Byte) (h : m.Pairwise fun x y => x.1 < y.1) :
    cellGet (cellPut m a v) b = if b = a then some v else cellGet m b := by
  induction m with
  | nil => simp [cellPut, cellGet, eq_comm]
  | cons c m ih =>
    obtain ⟨k, x⟩ := c
    rw [List.pairwise_cons] at h
    simp only [cellPut]
    split
    · by_cases hb : b = a
      · simp [cellGet, hb]
      · simp [cellGet, hb, Ne.symm hb]
    · split
      · next h2 =>
        subst h2
        by_cases hb : b = a
        · simp [cellGet, hb]
        · simp [cellGet, hb, Ne.symm hb]
      · next h2 =>
        by_cases hk : k = b
        · have : b ≠ a := by omega
          simp [cellGet, hk, this]
        · simp [cellGet, hk, ih h.2]

theorem cellGet_del (m : List Host.Cell) (a b : Nat) :
    cellGet (cellDel m a) b = if b = a then none else cellGet m b := by
  induction m with
  | nil => simp [cellDel, cellGet]
  | cons c m ih =>
    obtain ⟨k, x⟩ := c
    by_cases hk : k = a
    · have e : cellDel ((k, x) :: m) a = cellDel m a := by simp [cellDel, hk]
      rw [e, ih]
      by_cases hb : b = a
      · simp [hb]
      · have : k ≠ b := by omega
        simp [cellGet, hb, this]
    · have e : cellDel ((k, x) :: m) a = (k, x) :: cellDel m a := by simp [cellDel, hk]
      rw [e, cellGet, ih, cellGet]
      by_cases hb : k = b
      · have : b ≠ a := by omega
        simp [hb, this]
      · simp [hb]

/-- A write is read back, and every other byte stays. -/
theorem memGet_memSet (m : List Host.Cell) (a b : Nat) (v : Byte) (h : Memory.wf m) :
    memGet (memSet m a v) b = if b = a then v else memGet m b := by
  simp only [memSet, memGet]
  split
  · next hv => rw [cellGet_del]; split <;> simp [hv]
  · rw [cellGet_put m a b v h.1]; split <;> simp

/-! ## The canonical form -/

theorem cellPut_mem (m : List Host.Cell) (a : Nat) (v : Byte) (c : Host.Cell) (h : c ∈ cellPut m a v) :
    c = (a, v) ∨ c ∈ m := by
  induction m with
  | nil => simpa [cellPut] using h
  | cons d m ih =>
    obtain ⟨k, x⟩ := d
    simp only [cellPut] at h
    split at h
    · simpa using h
    · split at h
      · rcases List.mem_cons.1 h with h | h
        · exact .inl h
        · exact .inr (List.mem_cons_of_mem _ h)
      · rcases List.mem_cons.1 h with h | h
        · exact .inr (h ▸ List.mem_cons_self)
        · exact (ih h).imp_right (List.mem_cons_of_mem _)

theorem cellPut_sorted (m : List Host.Cell) (a : Nat) (v : Byte) (h : m.Pairwise fun x y => x.1 < y.1) :
    (cellPut m a v).Pairwise fun x y => x.1 < y.1 := by
  induction m with
  | nil => simp [cellPut]
  | cons d m ih =>
    obtain ⟨k, x⟩ := d
    have hc := List.pairwise_cons.1 h
    simp only [cellPut]
    split
    · next hlt =>
      refine List.pairwise_cons.2 ⟨fun y hy => ?_, h⟩
      rcases List.mem_cons.1 hy with rfl | hy
      · exact hlt
      · exact lt_trans hlt (hc.1 y hy)
    · split
      · next he => exact List.pairwise_cons.2 ⟨fun y hy => by simpa [he] using hc.1 y hy, hc.2⟩
      · next h1 h2 =>
        refine List.pairwise_cons.2 ⟨fun y hy => ?_, ih hc.2⟩
        rcases cellPut_mem m a v y hy with rfl | hy
        · show k < a; omega
        · exact hc.1 y hy

/-- A write keeps the canonical form. -/
theorem memSet_wf (m : List Host.Cell) (a : Nat) (v : Byte) (h : Memory.wf m) : Memory.wf (memSet m a v) := by
  simp only [memSet]
  split
  · exact ⟨h.1.filter _, fun c hc => h.2 c (List.mem_of_mem_filter hc)⟩
  · next hv =>
    refine ⟨cellPut_sorted m a v h.1, fun c hc => ?_⟩
    rcases cellPut_mem m a v c hc with rfl | hc
    · exact hv
    · exact h.2 c hc

/-- So does a write of many bytes. -/
theorem memSetAll_wf (bs : List (Nat × Byte)) (m : List Host.Cell) (h : Memory.wf m) : Memory.wf (memSetAll m bs) := by
  induction bs generalizing m with
  | nil => exact h
  | cons b bs ih => exact ih _ (memSet_wf m b.1 b.2 h)

/-- A byte that a write does not name stays. -/
theorem memGet_memSetAll_other (bs : List (Nat × Byte)) (m : List Host.Cell) (h : Memory.wf m) (a : Nat)
    (ha : ∀ b ∈ bs, b.1 ≠ a) : memGet (memSetAll m bs) a = memGet m a := by
  induction bs generalizing m with
  | nil => rfl
  | cons b bs ih =>
    obtain ⟨k, v⟩ := b
    rw [memSetAll, ih _ (memSet_wf m k v h) fun c hc => ha c (by simp [hc]), memGet_memSet m k a v h,
      if_neg fun e => ha (k, v) (by simp) e.symm]

/-- A write of distinct bytes is read back. -/
theorem memGet_memSetAll_self (bs : List (Nat × Byte)) (m : List Host.Cell) (h : Memory.wf m)
    (hn : (bs.map Prod.fst).Nodup) (b : Nat × Byte) (hb : b ∈ bs) : memGet (memSetAll m bs) b.1 = b.2 := by
  induction bs generalizing m with
  | nil => cases hb
  | cons c bs ih =>
    obtain ⟨k, v⟩ := c
    rw [List.map_cons, List.nodup_cons] at hn
    rcases List.mem_cons.1 hb with rfl | hb
    · rw [memSetAll, memGet_memSetAll_other bs _ (memSet_wf m k v h) k fun c hc e => hn.1 (List.mem_map.2 ⟨c, hc, e⟩),
        memGet_memSet m k k v h, if_pos rfl]
    · exact ih _ (memSet_wf m k v h) hn.2 hb

/-- A write that enters the order keeps the canonical form. -/
theorem enter_wf (s : State) (a : AgentAt) (t : Option TRef) (st : Nat) (ps : List Pub) (at_ : Bool) (bs : List (Nat × Byte))
    (h : Memory.wf s.mem) : Memory.wf (s.enter a t st ps at_ bs).mem := memSetAll_wf bs s.mem h

theorem reset_wf : Memory.wf State.reset.mem := by decide

/-! ## Reading -/

/-- Two states differ at most in how many free values have been drawn. -/
def OnlyDrawn (s t : State) : Prop := t = { s with freeCtr := t.freeCtr }

theorem OnlyDrawn.trans {s t u : State} (h : OnlyDrawn s t) (k : OnlyDrawn t u) : OnlyDrawn s u :=
  Eq.trans k (congrArg (fun (x : State) => { x with freeCtr := u.freeCtr }) h)

/-- A load's reading draws free values and changes nothing. -/
theorem readPieces_onlyDrawn (stg : List Staged) (a : Acq) (t : Option TRef) (at_ : At) (ctx : Nat) (ps : List (List Nat))
    (s : State) : OnlyDrawn s (s.readPieces stg a t at_ ctx ps).2 := by
  induction ps generalizing s with
  | nil => rfl
  | cons p ps ih => exact OnlyDrawn.trans (t := (s.readPiece stg a t at_ ctx p).2) rfl (ih _)

/-! ## What R255 leaves a load -/

theorem laterOwn_total (a : Acq) (x y : Staged) : laterOwn a x y = true ∨ laterOwn a y x = true := by
  unfold laterOwn
  cases x.heldBefore a <;> cases y.heldBefore a <;> simp <;> omega

theorem laterOwn_trans (a : Acq) {x y z : Staged} (h : laterOwn a x y = true) (k : laterOwn a y z = true) :
    laterOwn a x z = true := by
  revert h k
  unfold laterOwn
  cases x.heldBefore a <;> cases y.heldBefore a <;> cases z.heldBefore a <;> simp <;> omega

theorem latestStay_none (a : Acq) (xs : List Stay) : latestStay a xs = none ↔ xs = [] := by
  cases xs with
  | nil => simp [latestStay]
  | cons x xs => simp only [latestStay]; split <;> (try split) <;> simp

/-- The latest of some stores is one of them, and none of them is later. -/
theorem latestStay_spec (a : Acq) (xs : List Stay) (x : Stay) (h : latestStay a xs = some x) :
    x ∈ xs ∧ ∀ y ∈ xs, laterOwn a y.e x.e = true := by
  have refl (y : Stay) : laterOwn a y.e y.e = true := (laterOwn_total a y.e y.e).elim id id
  induction xs generalizing x with
  | nil => cases h
  | cons z zs ih =>
    simp only [latestStay] at h
    split at h
    · next y hy =>
      obtain ⟨hm, hle⟩ := ih y hy
      split at h <;> cases h
      · next hz => exact ⟨.tail _ hm, by rintro w (_ | ⟨_, hw⟩); exacts [hz, hle w hw]⟩
      · next hz =>
        have hyz := (laterOwn_total a z.e y.e).resolve_left hz
        exact ⟨.head _, by rintro w (_ | ⟨_, hw⟩); exacts [refl _, laterOwn_trans a (hle w hw) hyz]⟩
    · next hn =>
      cases h
      rw [latestStay_none] at hn
      subst hn
      exact ⟨.head _, by rintro w (_ | ⟨_, hw⟩); exacts [refl _, nomatch hw]⟩

/-- Under the staging as it stands, every place at or after the one where a byte's choice begins may be shown. -/
theorem mayShow_now (s : State) (es : List Stay) (a : Acq) (t : TRef) (st base p loc : Nat) (h : base ≤ p) :
    s.mayShow es a t st base p none loc = true := by
  unfold State.mayShow
  split
  · next x o hx ho =>
    obtain ⟨hm, -⟩ := latestStay_spec a _ o ho
    refine (latestStay_spec a _ x hx).2 o ?_
    simp only [List.mem_filter, Bool.and_eq_true, Stay.at_, Stay.counts, Bool.or_eq_true] at hm ⊢
    exact ⟨hm.1, ⟨hm.2.1.1, hm.2.1.2⟩, .inl hm.2.2⟩
  · next x hx _ =>
    have hm := (latestStay_spec a _ x hx).1
    simp only [List.mem_filter, Bool.and_eq_true, Stay.at_] at hm
    rw [Option.isNone_iff_eq_none.1 hm.2.1.2]
  · next o hx ho =>
    obtain ⟨hm, -⟩ := latestStay_spec a _ o ho
    rw [overlayAt, latestStay_none, List.filter_eq_nil_iff] at hx
    simp only [List.mem_filter, Bool.and_eq_true] at hm
    exact absurd (by simp [Stay.at_, Stay.counts, hm.2.1.1, hm.2.1.2, hm.2.2]) (hx o hm.1)
  · simp [State.placeOk, h]

/-- Some number of a list that holds 0 is the greatest. -/
theorem exists_greatest (ps : List Nat) : ∃ p ∈ 0 :: ps, ∀ q ∈ 0 :: ps, q ≤ p := by
  induction ps with
  | nil => exact ⟨0, by simp, by simp⟩
  | cons x xs ih =>
    obtain ⟨p, hp, hq⟩ := ih
    refine ⟨max x p, ?_, ?_⟩
    · rcases max_choice x p with h | h <;> rw [h]
      · simp
      · simp only [List.mem_cons] at hp ⊢; tauto
    · intro q h
      simp only [List.mem_cons] at h hq
      rcases h with rfl | rfl | h
      · omega
      · exact le_max_left _ _
      · exact le_trans (hq q (.inr h)) (le_max_right _ _)

/-- The place where a byte's choice begins is one that a piece with that byte may name. -/
theorem basePlace_mem (s : State) (a : Acq) (t : Option TRef) (at_ : At) (locs : List Nat) (l : Nat) (h : l ∈ locs) :
    s.basePlace a t at_ l ∈ 0 :: (s.order.filter fun w => locs.any w.has).map fun w => w.seq + 1 := by
  simp only [State.basePlace]
  cases hf : s.order.find? fun w => w.seq < loPlace s.order a t at_ l && w.has l with
  | none => simp
  | some w =>
    have hw := List.find?_some hf
    simp only [Bool.and_eq_true] at hw
    exact .tail _ (List.mem_map.2 ⟨w, List.mem_filter.2 ⟨List.mem_of_find?_eq_some hf,
      List.any_eq_true.2 ⟨l, h, hw.2⟩⟩, rfl⟩)

/-- R255 always leaves a load something that it may show. -/
theorem shows_ne_nil (s : State) (stg : List Staged) (a : Acq) (t : Option TRef) (at_ : At) (locs : List Nat) :
    s.shows stg a t at_ locs ≠ [] := by
  obtain ⟨p, hp, hq⟩ := exists_greatest ((s.order.filter fun w => locs.any w.has).map fun w => w.seq + 1)
  have base (l : Nat) (h : l ∈ locs) := hq _ (basePlace_mem s a t at_ locs l h)
  apply List.ne_nil_of_mem (a := (p, none))
  cases t with
  | none => exact List.mem_map.2 ⟨p, List.mem_filter.2 ⟨hp, by simpa [State.placeOk] using fun l h => .inl (base l h)⟩, rfl⟩
  | some t =>
    refine List.mem_flatMap.2 ⟨none, List.mem_cons_self, List.mem_map.2 ⟨p, List.mem_filter.2 ⟨hp, ?_⟩, rfl⟩⟩
    simpa using fun l h => mayShow_now s _ a t _ _ p l (base l h)

theorem choose_lt (s : State) {n : Nat} (h : 0 < n) : (s.choose n).1 < n := by
  simp only [State.choose]
  split
  · exact h
  · exact Nat.mod_lt _ h

/-- A load's piece shows the sector at one place and moment of those that R255 leaves it. -/
theorem readPiece_shows (s : State) (stg : List Staged) (a : Acq) (t : Option TRef) (at_ : At) (ctx : Nat) (locs : List Nat) :
    ∃ x ∈ s.shows stg a t at_ locs,
      (s.readPiece stg a t at_ ctx locs).1 = s.draw.shown stg a t at_ ctx locs x := by
  have hk := choose_lt s (List.length_pos_of_ne_nil (shows_ne_nil s stg a t at_ locs))
  refine ⟨_, List.getElem_mem hk, ?_⟩
  simp only [State.readPiece, List.getD_eq_getElem _ _ hk]
  rfl

end Sys2Proof.Machine
end

