-- ==== Sys2Proof/Laws/PerInstr.lean ====
section
/-! SUPPORT. What holds of each instruction as syntax, one lemma for each constructor. The family `Lengths`: the words that the encoder
gives an instruction fill the length that R38 gives it; an event has none. -/

namespace Sys2Proof.Laws.Lengths

/-- The instruction's words, where it has any, are as many as its length says (R38). -/
def Statement (i : Instr) : Prop := ∀ ws, encode i = some ws → 4 * ws.length = i.bytes

theorem of_long {i : Instr} {h : Hdr} (hs : shortMaj i = none) (hh : i.hdr? = some h) : Statement i := by
  intro ws he
  have hb : i.bytes = if h.lit.isSome then 20 else 12 := by simp [Instr.bytes, hh]
  rw [hb]
  cases hl : longParts i with
  | none => simp [encode, hs, hh, hl] at he
  | some p =>
    simp only [encode, hs, hh, hl, Option.some.injEq] at he
    subst he
    cases h.lit <;> rfl

theorem of_short {i : Instr} {f : Short} {maj : Nat} (hs : shortMaj i = some (maj, f)) (hh : i.hdr? = none)
    (hf : i.short? = some f) : Statement i := by
  intro ws he
  have hb : i.bytes = if f.lit.isSome then 12 else 4 := by simp [Instr.bytes, hh, hf]
  simp only [encode, hs, Option.some.injEq] at he
  rw [hb]
  subst he
  cases f.lit <;> rfl

theorem of_event {i : Instr} (hs : shortMaj i = none) (hh : i.hdr? = none) : Statement i := by
  intro ws he
  simp [encode, hs, hh] at he

theorem add (h : Hdr) (imm : Word) : Statement (.add h imm) := of_long rfl rfl
theorem sub (h : Hdr) (imm : Word) : Statement (.sub h imm) := of_long rfl rfl
theorem mul (h : Hdr) (imm : Word) : Statement (.mul h imm) := of_long rfl rfl
theorem mulh (h : Hdr) (imm : Word) : Statement (.mulh h imm) := of_long rfl rfl
theorem mad (h : Hdr) (imm : Word) : Statement (.mad h imm) := of_long rfl rfl
theorem min (h : Hdr) (imm : Word) : Statement (.min h imm) := of_long rfl rfl
theorem max (h : Hdr) (imm : Word) : Statement (.max h imm) := of_long rfl rfl
theorem abs (h : Hdr) (imm : Word) : Statement (.abs h imm) := of_long rfl rfl
theorem neg (h : Hdr) (imm : Word) : Statement (.neg h imm) := of_long rfl rfl
theorem and (h : Hdr) (imm : Word) : Statement (.and h imm) := of_long rfl rfl
theorem or (h : Hdr) (imm : Word) : Statement (.or h imm) := of_long rfl rfl
theorem xor (h : Hdr) (imm : Word) : Statement (.xor h imm) := of_long rfl rfl
theorem andn (h : Hdr) (imm : Word) : Statement (.andn h imm) := of_long rfl rfl
theorem not (h : Hdr) (imm : Word) : Statement (.not h imm) := of_long rfl rfl
theorem shl (h : Hdr) (imm : Word) : Statement (.shl h imm) := of_long rfl rfl
theorem shr (h : Hdr) (imm : Word) : Statement (.shr h imm) := of_long rfl rfl
theorem sar (h : Hdr) (imm : Word) : Statement (.sar h imm) := of_long rfl rfl
theorem nopShort (f : Short) : Statement (.nopShort f) := of_short rfl rfl rfl
theorem movShort (f : Short) : Statement (.movShort f) := of_short rfl rfl rfl
theorem addShort (f : Short) : Statement (.addShort f) := of_short rfl rfl rfl
theorem subShort (f : Short) : Statement (.subShort f) := of_short rfl rfl rfl
theorem mulShort (f : Short) : Statement (.mulShort f) := of_short rfl rfl rfl
theorem mulhI32Short (f : Short) : Statement (.mulhI32Short f) := of_short rfl rfl rfl
theorem mulhN32Short (f : Short) : Statement (.mulhN32Short f) := of_short rfl rfl rfl
theorem andShort (f : Short) : Statement (.andShort f) := of_short rfl rfl rfl
theorem orShort (f : Short) : Statement (.orShort f) := of_short rfl rfl rfl
theorem xorShort (f : Short) : Statement (.xorShort f) := of_short rfl rfl rfl
theorem andnShort (f : Short) : Statement (.andnShort f) := of_short rfl rfl rfl
theorem shlShort (f : Short) : Statement (.shlShort f) := of_short rfl rfl rfl
theorem shrShort (f : Short) : Statement (.shrShort f) := of_short rfl rfl rfl
theorem sarShort (f : Short) : Statement (.sarShort f) := of_short rfl rfl rfl
theorem minI32Short (f : Short) : Statement (.minI32Short f) := of_short rfl rfl rfl
theorem maxI32Short (f : Short) : Statement (.maxI32Short f) := of_short rfl rfl rfl
theorem minN32Short (f : Short) : Statement (.minN32Short f) := of_short rfl rfl rfl
theorem maxN32Short (f : Short) : Statement (.maxN32Short f) := of_short rfl rfl rfl
theorem faddShort (f : Short) : Statement (.faddShort f) := of_short rfl rfl rfl
theorem fsubShort (f : Short) : Statement (.fsubShort f) := of_short rfl rfl rfl
theorem fmulShort (f : Short) : Statement (.fmulShort f) := of_short rfl rfl rfl
theorem fminShort (f : Short) : Statement (.fminShort f) := of_short rfl rfl rfl
theorem fmaxShort (f : Short) : Statement (.fmaxShort f) := of_short rfl rfl rfl
theorem addw (f : Short) : Statement (.addw f) := of_short rfl rfl rfl
theorem subw (f : Short) : Statement (.subw f) := of_short rfl rfl rfl
theorem landShort (f : Short) : Statement (.landShort f) := of_short rfl rfl rfl
theorem clz (h : Hdr) (imm : Word) : Statement (.clz h imm) := of_long rfl rfl
theorem ctz (h : Hdr) (imm : Word) : Statement (.ctz h imm) := of_long rfl rfl
theorem popc (h : Hdr) (imm : Word) : Statement (.popc h imm) := of_long rfl rfl
theorem brev (h : Hdr) (imm : Word) : Statement (.brev h imm) := of_long rfl rfl
theorem bfx (h : Hdr) (imm : Word) : Statement (.bfx h imm) := of_long rfl rfl
theorem bfi (h : Hdr) (imm : Word) : Statement (.bfi h imm) := of_long rfl rfl
theorem rot (h : Hdr) (imm : Word) : Statement (.rot h imm) := of_long rfl rfl
theorem prmt (h : Hdr) (imm : Word) : Statement (.prmt h imm) := of_long rfl rfl
theorem setp (h : Hdr) (x : SetpX) : Statement (.setp h x) := of_long rfl rfl
theorem sel (h : Hdr) (ps : BitVec 3) (psn : Bool) : Statement (.sel h ps psn) := of_long rfl rfl
theorem plop (h : Hdr) (x : PlopX) : Statement (.plop h x) := of_long rfl rfl
theorem mov (h : Hdr) (imm : Word) : Statement (.mov h imm) := of_long rfl rfl
theorem li (h : Hdr) (imm : Word) : Statement (.li h imm) := of_long rfl rfl
theorem movs (h : Hdr) (sri : Sri) : Statement (.movs h sri) := of_long rfl rfl
theorem movsWrite (h : Hdr) : Statement (.movsWrite h) := of_long rfl rfl
theorem movpRead (h : Hdr) : Statement (.movpRead h) := of_long rfl rfl
theorem movpWrite (h : Hdr) (mask : BitVec 8) : Statement (.movpWrite h mask) := of_long rfl rfl
theorem lea (h : Hdr) (sh : BitVec 3) (x : Bool) : Statement (.lea h sh x) := of_long rfl rfl
theorem fadd (h : Hdr) (imm : Word) : Statement (.fadd h imm) := of_long rfl rfl
theorem fsub (h : Hdr) (imm : Word) : Statement (.fsub h imm) := of_long rfl rfl
theorem fmul (h : Hdr) (imm : Word) : Statement (.fmul h imm) := of_long rfl rfl
theorem ffma (h : Hdr) (imm : Word) : Statement (.ffma h imm) := of_long rfl rfl
theorem fmin (h : Hdr) (imm : Word) : Statement (.fmin h imm) := of_long rfl rfl
theorem fmax (h : Hdr) (imm : Word) : Statement (.fmax h imm) := of_long rfl rfl
theorem fabs (h : Hdr) (imm : Word) : Statement (.fabs h imm) := of_long rfl rfl
theorem fneg (h : Hdr) (imm : Word) : Statement (.fneg h imm) := of_long rfl rfl
theorem fsetp (h : Hdr) (x : FsetpX) : Statement (.fsetp h x) := of_long rfl rfl
theorem fclass (h : Hdr) (imm : Word) : Statement (.fclass h imm) := of_long rfl rfl
theorem frint (h : Hdr) (imm : Word) : Statement (.frint h imm) := of_long rfl rfl
theorem fscale (h : Hdr) (imm : Word) : Statement (.fscale h imm) := of_long rfl rfl
theorem cvt (h : Hdr) (sty : Ty) (epos : BitVec 4) : Statement (.cvt h sty epos) := of_long rfl rfl
theorem cvtins (h : Hdr) (sty : Ty) (epos : BitVec 4) : Statement (.cvtins h sty epos) := of_long rfl rfl
theorem rcp (h : Hdr) (imm : Word) : Statement (.rcp h imm) := of_long rfl rfl
theorem rsq (h : Hdr) (imm : Word) : Statement (.rsq h imm) := of_long rfl rfl
theorem sqrt (h : Hdr) (imm : Word) : Statement (.sqrt h imm) := of_long rfl rfl
theorem exp2 (h : Hdr) (imm : Word) : Statement (.exp2 h imm) := of_long rfl rfl
theorem log2 (h : Hdr) (imm : Word) : Statement (.log2 h imm) := of_long rfl rfl
theorem sin (h : Hdr) (imm : Word) : Statement (.sin h imm) := of_long rfl rfl
theorem cos (h : Hdr) (imm : Word) : Statement (.cos h imm) := of_long rfl rfl
theorem tanh (h : Hdr) (imm : Word) : Statement (.tanh h imm) := of_long rfl rfl
theorem fdiv (h : Hdr) (imm : Word) : Statement (.fdiv h imm) := of_long rfl rfl
theorem div (h : Hdr) (imm : Word) : Statement (.div h imm) := of_long rfl rfl
theorem rem (h : Hdr) (imm : Word) : Statement (.rem h imm) := of_long rfl rfl
theorem sfuResult (i : Nat) : Statement (.sfuResult i) := of_event rfl rfl
theorem nop (h : Hdr) : Statement (.nop h) := of_long rfl rfl
theorem land (h : Hdr) : Statement (.land h) := of_long rfl rfl
theorem br (h : Hdr) (disp : Word) : Statement (.br h disp) := of_long rfl rfl
theorem jmpi (h : Hdr) : Statement (.jmpi h) := of_long rfl rfl
theorem call (h : Hdr) (disp : Word) : Statement (.call h disp) := of_long rfl rfl
theorem calli (h : Hdr) : Statement (.calli h) := of_long rfl rfl
theorem ret (h : Hdr) : Statement (.ret h) := of_long rfl rfl
theorem exit (h : Hdr) : Statement (.exit h) := of_long rfl rfl
theorem trap (h : Hdr) (code : BitVec 16) : Statement (.trap h code) := of_long rfl rfl
theorem hpush (h : Hdr) (eid : BitVec 12) (many : Bool) : Statement (.hpush h eid many) := of_long rfl rfl
theorem hend (h : Hdr) : Statement (.hend h) := of_long rfl rfl
theorem perform (h : Hdr) (eid : BitVec 12) : Statement (.perform h eid) := of_long rfl rfl
theorem resume (h : Hdr) : Statement (.resume h) := of_long rfl rfl
theorem abort (h : Hdr) : Statement (.abort h) := of_long rfl rfl
theorem ld (h : Hdr) (off : BitVec 24) : Statement (.ld h off) := of_long rfl rfl
theorem st (h : Hdr) (off : BitVec 24) : Statement (.st h off) := of_long rfl rfl
theorem loadReturn (i : Nat) : Statement (.loadReturn i) := of_event rfl rfl
theorem atomAdd (h : Hdr) (x : AtomX) : Statement (.atomAdd h x) := of_long rfl rfl
theorem atomMin (h : Hdr) (x : AtomX) : Statement (.atomMin h x) := of_long rfl rfl
theorem atomMax (h : Hdr) (x : AtomX) : Statement (.atomMax h x) := of_long rfl rfl
theorem atomAnd (h : Hdr) (x : AtomX) : Statement (.atomAnd h x) := of_long rfl rfl
theorem atomOr (h : Hdr) (x : AtomX) : Statement (.atomOr h x) := of_long rfl rfl
theorem atomXor (h : Hdr) (x : AtomX) : Statement (.atomXor h x) := of_long rfl rfl
theorem atomExch (h : Hdr) (x : AtomX) : Statement (.atomExch h x) := of_long rfl rfl
theorem atomCas (h : Hdr) (x : AtomX) : Statement (.atomCas h x) := of_long rfl rfl
theorem atomFadd (h : Hdr) (x : AtomX) : Statement (.atomFadd h x) := of_long rfl rfl
theorem join (h : Hdr) (k : BitVec 4) : Statement (.join h k) := of_long rfl rfl
theorem leave (h : Hdr) (k : BitVec 4) : Statement (.leave h k) := of_long rfl rfl
theorem waitj (h : Hdr) (k : BitVec 4) : Statement (.waitj h k) := of_long rfl rfl
theorem brk (h : Hdr) (klo : BitVec 4) (khi : BitVec 4) (dw : BitVec 24) : Statement (.brk h klo khi dw) := of_long rfl rfl
theorem kmovSet (h : Hdr) (k : BitVec 4) : Statement (.kmovSet h k) := of_long rfl rfl
theorem kmovBallot (h : Hdr) (k : BitVec 4) (kp : BitVec 4) (pb : BitVec 3) (pbn : Bool) : Statement (.kmovBallot h k kp pb pbn) := of_long rfl rfl
theorem kmovRead (h : Hdr) (k : BitVec 4) : Statement (.kmovRead h k) := of_long rfl rfl
theorem shflIdx (h : Hdr) (k : BitVec 4) (own : Bool) : Statement (.shflIdx h k own) := of_long rfl rfl
theorem shflUp (h : Hdr) (k : BitVec 4) (own : Bool) : Statement (.shflUp h k own) := of_long rfl rfl
theorem shflDown (h : Hdr) (k : BitVec 4) (own : Bool) : Statement (.shflDown h k own) := of_long rfl rfl
theorem shflXor (h : Hdr) (k : BitVec 4) (own : Bool) : Statement (.shflXor h k own) := of_long rfl rfl
theorem voteAny (h : Hdr) (k : BitVec 4) (pv : BitVec 3) (pvn : Bool) (pd : BitVec 3) : Statement (.voteAny h k pv pvn pd) := of_long rfl rfl
theorem voteAll (h : Hdr) (k : BitVec 4) (pv : BitVec 3) (pvn : Bool) (pd : BitVec 3) : Statement (.voteAll h k pv pvn pd) := of_long rfl rfl
theorem voteBallot (h : Hdr) (k : BitVec 4) (pv : BitVec 3) (pvn : Bool) : Statement (.voteBallot h k pv pvn) := of_long rfl rfl
theorem redux (h : Hdr) (k : BitVec 4) (op : XOp) : Statement (.redux h k op) := of_long rfl rfl
theorem reduxSet (h : Hdr) (set : BitVec 8) (op : XOp) : Statement (.reduxSet h set op) := of_long rfl rfl
theorem scan (h : Hdr) (k : BitVec 4) (op : XOp) (excl : Bool) : Statement (.scan h k op excl) := of_long rfl rfl
theorem bcast (h : Hdr) (k : BitVec 4) (own : Bool) : Statement (.bcast h k own) := of_long rfl rfl
theorem bar (h : Hdr) (ph : Bool) (scp : Scp) : Statement (.bar h ph scp) := of_long rfl rfl
theorem sbar (h : Hdr) (set : BitVec 8) (ph : Bool) (scp : Scp) : Statement (.sbar h set ph scp) := of_long rfl rfl
theorem rinit (h : Hdr) (pt : BitVec 5) : Statement (.rinit h pt) := of_long rfl rfl
theorem rarrive (h : Hdr) (pt : BitVec 5) (ph : Bool) (scp : Scp) : Statement (.rarrive h pt ph scp) := of_long rfl rfl
theorem rwait (h : Hdr) (pt : BitVec 5) (ph : Bool) (scp : Scp) : Statement (.rwait h pt ph scp) := of_long rfl rfl
theorem rtest (h : Hdr) (pt : BitVec 5) (pd : BitVec 3) : Statement (.rtest h pt pd) := of_long rfl rfl
theorem watchdogRendezvous (lid : Nat) (inst : Nat) (pt : Nat) : Statement (.watchdogRendezvous lid inst pt) := of_event rfl rfl
theorem spawn (h : Hdr) (dw : BitVec 20) (node : Bool) : Statement (.spawn h dw node) := of_long rfl rfl
theorem fetch (h : Hdr) (pd : BitVec 3) : Statement (.fetch h pd) := of_long rfl rfl
theorem launch (h : Hdr) : Statement (.launch h) := of_long rfl rfl
theorem rgive (h : Hdr) (cnt : BitVec 8) : Statement (.rgive h cnt) := of_long rfl rfl
theorem rclaim (h : Hdr) (cnt : BitVec 8) : Statement (.rclaim h cnt) := of_long rfl rfl
theorem rclaimGrant (lid : Nat) (wg : Nat) (wave : Nat) : Statement (.rclaimGrant lid wg wave) := of_event rfl rfl
theorem resid (h : Hdr) (self : Bool) : Statement (.resid h self) := of_long rfl rfl
theorem residm (h : Hdr) : Statement (.residm h) := of_long rfl rfl
theorem brkdone (h : Hdr) : Statement (.brkdone h) := of_long rfl rfl
theorem ldit (h : Hdr) : Statement (.ldit h) := of_long rfl rfl
theorem brkinfo (h : Hdr) (fld : Fld) : Statement (.brkinfo h fld) := of_long rfl rfl
theorem ldl (h : Hdr) (off : BitVec 24) : Statement (.ldl h off) := of_long rfl rfl
theorem stl (h : Hdr) (off : BitVec 24) : Statement (.stl h off) := of_long rfl rfl
theorem ldc (h : Hdr) (off : BitVec 24) : Statement (.ldc h off) := of_long rfl rfl
theorem stc (h : Hdr) (off : BitVec 24) : Statement (.stc h off) := of_long rfl rfl
theorem ldd (h : Hdr) (off : BitVec 24) : Statement (.ldd h off) := of_long rfl rfl
theorem std (h : Hdr) (off : BitVec 24) : Statement (.std h off) := of_long rfl rfl
theorem tmov (h : Hdr) (x : TmovX) : Statement (.tmov h x) := of_long rfl rfl
theorem tmovDone (i : Nat) : Statement (.tmovDone i) := of_event rfl rfl
theorem owngive (h : Hdr) (tk : Tk) : Statement (.owngive h tk) := of_long rfl rfl
theorem owntake (h : Hdr) (tk : Tk) (w : Bool) : Statement (.owntake h tk w) := of_long rfl rfl
theorem owntakeDrainEnd (t : TRef) : Statement (.owntakeDrainEnd t) := of_event rfl rfl
theorem ownshare (h : Hdr) : Statement (.ownshare h) := of_long rfl rfl
theorem talloc (h : Hdr) (hn : BitVec 6) : Statement (.talloc h hn) := of_long rfl rfl
theorem tallocGrant (t : TRef) : Statement (.tallocGrant t) := of_event rfl rfl
theorem tload (h : Hdr) (hn : BitVec 6) (lv : Lvl) : Statement (.tload h hn lv) := of_long rfl rfl
theorem tstore (h : Hdr) (hn : BitVec 6) (lv : Lvl) : Statement (.tstore h hn lv) := of_long rfl rfl
theorem tileTransferDone (i : Nat) : Statement (.tileTransferDone i) := of_event rfl rfl
theorem tgive (h : Hdr) (hn : BitVec 6) : Statement (.tgive h hn) := of_long rfl rfl
theorem ttake (h : Hdr) (hn : BitVec 6) : Statement (.ttake h hn) := of_long rfl rfl
theorem tfree (h : Hdr) (hn : BitVec 6) : Statement (.tfree h hn) := of_long rfl rfl
theorem phase (h : Hdr) (scp : Scp) : Statement (.phase h scp) := of_long rfl rfl
theorem phaseComplete (i : Nat) : Statement (.phaseComplete i) := of_event rfl rfl
theorem fence (h : Hdr) : Statement (.fence h) := of_long rfl rfl
theorem qcfg (h : Hdr) (q : BitVec 3) : Statement (.qcfg h q) := of_long rfl rfl
theorem qstat (h : Hdr) (q : BitVec 3) : Statement (.qstat h q) := of_long rfl rfl
theorem push (h : Hdr) (q : BitVec 3) : Statement (.push h q) := of_long rfl rfl
theorem pop (h : Hdr) (q : BitVec 3) : Statement (.pop h q) := of_long rfl rfl
theorem queueWaitResume (t : TRef) : Statement (.queueWaitResume t) := of_event rfl rfl
theorem gnode (h : Hdr) : Statement (.gnode h) := of_long rfl rfl
theorem garm (h : Hdr) : Statement (.garm h) := of_long rfl rfl
theorem garmSig (h : Hdr) : Statement (.garmSig h) := of_long rfl rfl
theorem garmFree (h : Hdr) : Statement (.garmFree h) := of_long rfl rfl
theorem gwait (h : Hdr) : Statement (.gwait h) := of_long rfl rfl
theorem gwaitReturn (t : TRef) : Statement (.gwaitReturn t) := of_event rfl rfl
theorem gtest (h : Hdr) (pd : BitVec 3) : Statement (.gtest h pd) := of_long rfl rfl
theorem shadowNew (h : Hdr) : Statement (.shadowNew h) := of_long rfl rfl
theorem shadowAddr (h : Hdr) : Statement (.shadowAddr h) := of_long rfl rfl
theorem shadowFree (h : Hdr) : Statement (.shadowFree h) := of_long rfl rfl
theorem publish (h : Hdr) : Statement (.publish h) := of_long rfl rfl
theorem mloop (h : Hdr) (x : MloopX) : Statement (.mloop h x) := of_long rfl rfl
theorem mloopStart (lid : Nat) (inst : Nat) (set : Nat) : Statement (.mloopStart lid inst set) := of_event rfl rfl
theorem matrixStep (die : Nat) (site : Nat) : Statement (.matrixStep die site) := of_event rfl rfl
theorem mzero (h : Hdr) (hn : BitVec 6) : Statement (.mzero h hn) := of_long rfl rfl
theorem mread (h : Hdr) (x : MreadX) : Statement (.mread h x) := of_long rfl rfl
theorem mcvt (h : Hdr) (x : McvtX) : Statement (.mcvt h x) := of_long rfl rfl
theorem mgate (h : Hdr) (x : MgateX) : Statement (.mgate h x) := of_long rfl rfl
theorem mgateDecision (lid : Nat) (inst : Nat) (set : Nat) : Statement (.mgateDecision lid inst set) := of_event rfl rfl
theorem region (h : Hdr) : Statement (.region h) := of_long rfl rfl
theorem trapretFix (h : Hdr) : Statement (.trapretFix h) := of_long rfl rfl
theorem trapretSkip (h : Hdr) : Statement (.trapretSkip h) := of_long rfl rfl
theorem trapretRetry (h : Hdr) : Statement (.trapretRetry h) := of_long rfl rfl
theorem trapretKill (h : Hdr) : Statement (.trapretKill h) := of_long rfl rfl
theorem rdtrap (h : Hdr) : Statement (.rdtrap h) := of_long rfl rfl
theorem wrtrap (h : Hdr) : Statement (.wrtrap h) := of_long rfl rfl
theorem pgreq (h : Hdr) : Statement (.pgreq h) := of_long rfl rfl
theorem bkpt (h : Hdr) (code : BitVec 16) : Statement (.bkpt h code) := of_long rfl rfl
theorem cntrd (h : Hdr) (x : CntX) : Statement (.cntrd h x) := of_long rfl rfl
theorem cntwr (h : Hdr) (x : CntX) : Statement (.cntwr h x) := of_long rfl rfl
theorem detStep (lid : Nat) : Statement (.detStep lid) := of_event rfl rfl
theorem sampleTag (die : Nat) (site : Nat) : Statement (.sampleTag die site) := of_event rfl rfl
theorem launchDispatchable (lid : Nat) : Statement (.launchDispatchable lid) := of_event rfl rfl
theorem placeUnit (die : Nat) : Statement (.placeUnit die) := of_event rfl rfl
theorem holdTimeExpiry (die : Nat) (level : Nat) : Statement (.holdTimeExpiry die level) := of_event rfl rfl
theorem unitStart (lid : Nat) (inst : Nat) : Statement (.unitStart lid inst) := of_event rfl rfl
theorem preempt (die : Nat) : Statement (.preempt die) := of_event rfl rfl
theorem engineStopAck (die : Nat) (k : EngineKind) : Statement (.engineStopAck die k) := of_event rfl rfl
theorem preemptSave (lid : Nat) (inst : Nat) : Statement (.preemptSave lid inst) := of_event rfl rfl
theorem unitRestore (lid : Nat) (inst : Nat) : Statement (.unitRestore lid inst) := of_event rfl rfl
theorem contextSwitchOut (ctx : Nat) : Statement (.contextSwitchOut ctx) := of_event rfl rfl
theorem contextSwitchIn (ctx : Nat) : Statement (.contextSwitchIn ctx) := of_event rfl rfl
theorem launchEnd (lid : Nat) : Statement (.launchEnd lid) := of_event rfl rfl
theorem turnOpen (lid : Nat) : Statement (.turnOpen lid) := of_event rfl rfl
theorem deadlineMiss (lid : Nat) : Statement (.deadlineMiss lid) := of_event rfl rfl
theorem contribution (i : Nat) : Statement (.contribution i) := of_event rfl rfl
theorem iseqAdvance (lid : Nat) : Statement (.iseqAdvance lid) := of_event rfl rfl
theorem convergenceRecord (lid : Nat) : Statement (.convergenceRecord lid) := of_event rfl rfl
theorem signal (i : Nat) : Statement (.signal i) := of_event rfl rfl
theorem graphQueueElement (lid : Nat) (wg : Nat) (q : Nat) : Statement (.graphQueueElement lid wg q) := of_event rfl rfl
theorem nodeFinish (die : Nat) (ctx : Nat) (idx : Nat) : Statement (.nodeFinish die ctx idx) := of_event rfl rfl
theorem copy1d (die : Nat) (eng : Nat) : Statement (.copy1d die eng) := of_event rfl rfl
theorem copy2d (die : Nat) (eng : Nat) : Statement (.copy2d die eng) := of_event rfl rfl
theorem copy3d (die : Nat) (eng : Nat) : Statement (.copy3d die eng) := of_event rfl rfl
theorem copyGather (die : Nat) (eng : Nat) : Statement (.copyGather die eng) := of_event rfl rfl
theorem copyReduceAdd (die : Nat) (eng : Nat) : Statement (.copyReduceAdd die eng) := of_event rfl rfl
theorem copyComplete (die : Nat) (eng : Nat) (i : Nat) : Statement (.copyComplete die eng i) := of_event rfl rfl
theorem encodeConfigure (die : Nat) (eng : Nat) : Statement (.encodeConfigure die eng) := of_event rfl rfl
theorem encodeFrame (die : Nat) (eng : Nat) : Statement (.encodeFrame die eng) := of_event rfl rfl
theorem encodeEndSession (die : Nat) (eng : Nat) : Statement (.encodeEndSession die eng) := of_event rfl rfl
theorem encodeComplete (die : Nat) (eng : Nat) : Statement (.encodeComplete die eng) := of_event rfl rfl
theorem trapEntry (t : TRef) : Statement (.trapEntry t) := of_event rfl rfl
theorem gangRestart (lid : Nat) (inst : Nat) : Statement (.gangRestart lid inst) := of_event rfl rfl
theorem walkComplete (i : Nat) : Statement (.walkComplete i) := of_event rfl rfl
theorem invalidationComplete (i : Nat) : Statement (.invalidationComplete i) := of_event rfl rfl
theorem encodingNotInstruction (code : FaultCode) (det0 : Word) (det1 : Word) (det2 : Word) : Statement (.encodingNotInstruction code det0 det1 det2) := of_event rfl rfl
theorem pickerCycle : Statement (.pickerCycle) := of_event rfl rfl
theorem softError : Statement (.softError) := of_event rfl rfl
theorem pageTicketComplete : Statement (.pageTicketComplete) := of_event rfl rfl
theorem inval : Statement (.inval) := of_event rfl rfl
theorem drvfeat : Statement (.drvfeat) := of_event rfl rfl
theorem registerWrite : Statement (.registerWrite) := of_event rfl rfl
theorem submissionWrite : Statement (.submissionWrite) := of_event rfl rfl
theorem latchEntry : Statement (.latchEntry) := of_event rfl rfl
theorem tailRescan : Statement (.tailRescan) := of_event rfl rfl
theorem queueStop : Statement (.queueStop) := of_event rfl rfl
theorem launchPacket : Statement (.launchPacket) := of_event rfl rfl
theorem standingStart : Statement (.standingStart) := of_event rfl rfl
theorem standingStop : Statement (.standingStop) := of_event rfl rfl
theorem inputPost : Statement (.inputPost) := of_event rfl rfl
theorem pin : Statement (.pin) := of_event rfl rfl
theorem unpin : Statement (.unpin) := of_event rfl rfl
theorem copyPacket : Statement (.copyPacket) := of_event rfl rfl
theorem nodeSignal : Statement (.nodeSignal) := of_event rfl rfl
theorem contextCreate : Statement (.contextCreate) := of_event rfl rfl
theorem contextDestroy : Statement (.contextDestroy) := of_event rfl rfl
theorem iterateRead : Statement (.iterateRead) := of_event rfl rfl
theorem queryAttestation : Statement (.queryAttestation) := of_event rfl rfl
theorem queryIdentity : Statement (.queryIdentity) := of_event rfl rfl
theorem peerSet : Statement (.peerSet) := of_event rfl rfl
theorem xmssTreeRollover : Statement (.xmssTreeRollover) := of_event rfl rfl
theorem hostMemRead : Statement (.hostMemRead) := of_event rfl rfl
theorem hostMemWrite : Statement (.hostMemWrite) := of_event rfl rfl
theorem hostSnoop : Statement (.hostSnoop) := of_event rfl rfl
theorem peerDataFrame : Statement (.peerDataFrame) := of_event rfl rfl
theorem peerAck : Statement (.peerAck) := of_event rfl rfl
theorem peerNak : Statement (.peerNak) := of_event rfl rfl
theorem peerResendTimeout : Statement (.peerResendTimeout) := of_event rfl rfl
theorem flitCrcFail : Statement (.flitCrcFail) := of_event rfl rfl
theorem linkFail : Statement (.linkFail) := of_event rfl rfl
theorem firmwareUpdate : Statement (.firmwareUpdate) := of_event rfl rfl
theorem firmwareRestart : Statement (.firmwareRestart) := of_event rfl rfl
theorem coreRetire : Statement (.coreRetire) := of_event rfl rfl
theorem dieEvacuate : Statement (.dieEvacuate) := of_event rfl rfl
theorem hbmPageRetire : Statement (.hbmPageRetire) := of_event rfl rfl
theorem laneRecalibration : Statement (.laneRecalibration) := of_event rfl rfl
theorem clockRecalibration : Statement (.clockRecalibration) := of_event rfl rfl
theorem powerUp : Statement (.powerUp) := of_event rfl rfl
theorem halt : Statement (.halt) := of_event rfl rfl
theorem debugResume : Statement (.debugResume) := of_event rfl rfl
theorem debugWrite : Statement (.debugWrite) := of_event rfl rfl
theorem drain : Statement (.drain) := of_event rfl rfl
theorem dieReturn : Statement (.dieReturn) := of_event rfl rfl
theorem moduleUnpowered : Statement (.moduleUnpowered) := of_event rfl rfl
theorem unknownPacketType : Statement (.unknownPacketType) := of_event rfl rfl

end Sys2Proof.Laws.Lengths
end

