-- ==== Sys2Proof/Tests/Slice0.lean ====
section
/-! SUPPORT. Tests: words laid out by hand from the spec's encoding tables, ill-formed terms, small results from the spec's worked tables,
and for each statement a state and operands that meet its hypotheses. -/

namespace Sys2Proof.Tests

open Sys2Proof Sys2Proof.Machine Sys2Proof.Claims

set_option Elab.async false

/-! ## Decoding. Every word below is laid out from word 0 (R37), word 1 (R43) and the class's own table. -/

/-- Words decode to their instruction, all of them, it is well-formed, and it encodes to them. -/
def reads (l : List (List Word × Instr)) : Bool :=
  l.all fun x => decodeWords (x.1 ++ [0, 0]) == (x.2, 4 * x.1.length) && x.2.wf && encode x.2 == some x.1

/-- INT, R77. -/
def wordsInt : List (List Word × Instr) := 
  [
  ([0x02010305, 0x00C80000, 0x00000000], .add ⟨(.v 3), (.v 1), (.v 2), (.v 0), (.pos 2), .i32, .rne, false, none⟩ 0),
  ([0xFE010305, 0x41C00001, 0xFFFE7960], .sub ⟨(.v 3), (.v 1), .imm, (.v 0), .always, .n32, .rne, true, none⟩ 0xFFFE7960),
  ([0xFF840607, 0x01000002, 0x00000000, 0x9ABCDEF0, 0x12345678], .mul ⟨(.v 6), (.s 4), .lit, (.v 0), .always, .i64, .rne, false, (some 0x123456789abcdef0)⟩ 0),
  ([0x06040205, 0x02000003, 0x00000000], .mulh ⟨(.v 2), (.v 4), (.v 6), (.v 0), .always, .n64, .rne, false, none⟩ 0),
  ([0x02010405, 0x00C00C04, 0x00000000], .mad ⟨(.v 4), (.v 1), (.v 2), (.v 3), .always, .i32, .rne, false, none⟩ 0),
  ([0x06040205, 0x01C00005, 0x00000000], .min ⟨(.v 2), (.v 4), (.v 6), (.v 0), .always, .n32, .rne, false, none⟩ 0),
  ([0x06040205, 0x01000006, 0x00000000], .max ⟨(.v 2), (.v 4), (.v 6), (.v 0), .always, .i64, .rne, false, none⟩ 0),
  ([0x00020605, 0x00E40007, 0x00000000], .abs ⟨(.v 6), (.v 2), (.v 0), (.v 0), (.neg 1), .i32, .rne, false, none⟩ 0),
  ([0x00020605, 0x01240008, 0x00000000], .neg ⟨(.v 6), (.v 2), (.v 0), (.v 0), (.neg 1), .i64, .rne, false, none⟩ 0),
  ([0x06040205, 0x00000009, 0x00000000], .and ⟨(.v 2), (.v 4), (.v 6), (.v 0), .always, .b32, .rne, false, none⟩ 0),
  ([0x06040205, 0x0400000A, 0x00000000], .or ⟨(.v 2), (.v 4), (.v 6), (.v 0), .always, .b64, .rne, false, none⟩ 0),
  ([0x06040205, 0x0000000B, 0x00000000], .xor ⟨(.v 2), (.v 4), (.v 6), (.v 0), .always, .b32, .rne, false, none⟩ 0)] ++ [
  ([0x06040205, 0x0000000C, 0x00000000], .andn ⟨(.v 2), (.v 4), (.v 6), (.v 0), .always, .b32, .rne, false, none⟩ 0),
  ([0x00020605, 0x0424000D, 0x00000000], .not ⟨(.v 6), (.v 2), (.v 0), (.v 0), (.neg 1), .b64, .rne, false, none⟩ 0),
  ([0xD5020805, 0x0000000E, 0x00000000], .shl ⟨(.v 8), (.v 2), (.int 21), (.v 0), .always, .b32, .rne, false, none⟩ 0),
  ([0xD5020805, 0x0400000F, 0x00000000], .shr ⟨(.v 8), (.v 2), (.int 21), (.v 0), .always, .b64, .rne, false, none⟩ 0),
  ([0xD5020805, 0x00000010, 0x00000000], .sar ⟨(.v 8), (.v 2), (.int 21), (.v 0), .always, .b32, .rne, false, none⟩ 0)]

theorem test_wordsInt : reads wordsInt = true := by decide +kernel

/-- BIT, R80. -/
def wordsBit : List (List Word × Instr) := [
  ([0x00020809, 0x04000000, 0x00000000], .clz ⟨(.v 8), (.v 2), (.v 0), (.v 0), .always, .b64, .rne, false, none⟩ 0),
  ([0x00020809, 0x00000001, 0x00000000], .ctz ⟨(.v 8), (.v 2), (.v 0), (.v 0), .always, .b32, .rne, false, none⟩ 0),
  ([0x00020809, 0x04000002, 0x00000000], .popc ⟨(.v 8), (.v 2), (.v 0), (.v 0), .always, .b64, .rne, false, none⟩ 0),
  ([0x00020809, 0x00000003, 0x00000000], .brev ⟨(.v 8), (.v 2), (.v 0), (.v 0), .always, .b32, .rne, false, none⟩ 0),
  ([0x02010609, 0x01C00004, 0x00000000], .bfx ⟨(.v 6), (.v 1), (.v 2), (.v 0), .always, .n32, .rne, false, none⟩ 0),
  ([0x02010609, 0x00000C05, 0x00000000], .bfi ⟨(.v 6), (.v 1), (.v 2), (.v 3), .always, .b32, .rne, false, none⟩ 0),
  ([0xC8010909, 0x00000006, 0x00000000], .rot ⟨(.v 9), (.v 1), (.int 8), (.v 0), .always, .b32, .rne, false, none⟩ 0),
  ([0x02010709, 0x0003F807, 0x00003210], .prmt ⟨(.v 7), (.v 1), (.v 2), .imm, .always, .b32, .rne, false, none⟩ 0x3210)]

theorem test_wordsBit : reads wordsBit = true := by decide +kernel

/-- CMP, R82. -/
def wordsCmp : List (List Word × Instr) := [
  ([0xDA04000D, 0x01C00000, 0x00001952], .setp ⟨(.v 0), (.v 4), (.int 26), (.v 0), .always, .n32, .rne, false, none⟩ ⟨2, .ge, 1, true, .and⟩),
  ([0x0201050D, 0x00000001, 0x00000B00], .sel ⟨(.v 5), (.v 1), (.v 2), (.v 0), .always, .b32, .rne, false, none⟩ 3 true),
  ([0x0000000D, 0x00000002, 0x000B3201], .plop ⟨(.v 0), (.v 0), (.v 0), (.v 0), .always, .b32, .rne, false, none⟩ ⟨1, 2, false, .xor, 3, true⟩)]

theorem test_wordsCmp : reads wordsCmp = true := by decide +kernel

/-- MOV, R85, R87. -/
def wordsMov : List (List Word × Instr) := 
  [
  ([0x00040211, 0x04000000, 0x00000000], .mov ⟨(.v 2), (.v 4), (.v 0), (.v 0), .always, .b64, .rne, false, none⟩ 0),
  ([0x00FE0211, 0x01000001, 0xFFFE7960], .li ⟨(.v 2), .imm, (.v 0), (.v 0), .always, .i64, .rne, false, none⟩ 0xFFFE7960),
  ([0x00000611, 0x00000002, 0x00000000], .movs ⟨(.v 6), (.v 0), (.v 0), (.v 0), .always, .b32, .rne, false, none⟩ .tid),
  ([0x00000611, 0x00000002, 0x00000001], .movs ⟨(.v 6), (.v 0), (.v 0), (.v 0), .always, .b32, .rne, false, none⟩ .lane),
  ([0x00000611, 0x00000002, 0x00000002], .movs ⟨(.v 6), (.v 0), (.v 0), (.v 0), .always, .b32, .rne, false, none⟩ .wave),
  ([0x00000611, 0x00000002, 0x00000003], .movs ⟨(.v 6), (.v 0), (.v 0), (.v 0), .always, .b32, .rne, false, none⟩ .wg),
  ([0x00000611, 0x00000002, 0x00000004], .movs ⟨(.v 6), (.v 0), (.v 0), (.v 0), .always, .b32, .rne, false, none⟩ .width),
  ([0x00000611, 0x00000002, 0x00000005], .movs ⟨(.v 6), (.v 0), (.v 0), (.v 0), .always, .b32, .rne, false, none⟩ .role),
  ([0x00000611, 0x00000002, 0x00000006], .movs ⟨(.v 6), (.v 0), (.v 0), (.v 0), .always, .b32, .rne, false, none⟩ .gang),
  ([0x00000611, 0x00000002, 0x00000007], .movs ⟨(.v 6), (.v 0), (.v 0), (.v 0), .always, .b32, .rne, false, none⟩ .core),
  ([0x00000611, 0x00000002, 0x00000008], .movs ⟨(.v 6), (.v 0), (.v 0), (.v 0), .always, .b32, .rne, false, none⟩ .die),
  ([0x00000611, 0x00000002, 0x00000009], .movs ⟨(.v 6), (.v 0), (.v 0), (.v 0), .always, .b32, .rne, false, none⟩ .launch)] ++ [
  ([0x00000611, 0x00000002, 0x0000000A], .movs ⟨(.v 6), (.v 0), (.v 0), (.v 0), .always, .b32, .rne, false, none⟩ .ctx),
  ([0x00000611, 0x00000002, 0x0000000B], .movs ⟨(.v 6), (.v 0), (.v 0), (.v 0), .always, .b32, .rne, false, none⟩ .inseq),
  ([0x00000611, 0x00000002, 0x0000000C], .movs ⟨(.v 6), (.v 0), (.v 0), (.v 0), .always, .b32, .rne, false, none⟩ .brick),
  ([0x00000611, 0x00000002, 0x0000000D], .movs ⟨(.v 6), (.v 0), (.v 0), (.v 0), .always, .b32, .rne, false, none⟩ .clk),
  ([0x00000611, 0x00000002, 0x0000000E], .movs ⟨(.v 6), (.v 0), (.v 0), (.v 0), .always, .b32, .rne, false, none⟩ .icount),
  ([0x00000611, 0x00000002, 0x0000000F], .movs ⟨(.v 6), (.v 0), (.v 0), (.v 0), .always, .b32, .rne, false, none⟩ .now),
  ([0x00000611, 0x00000002, 0x00000010], .movs ⟨(.v 6), (.v 0), (.v 0), (.v 0), .always, .b32, .rne, false, none⟩ .dline),
  ([0x00000611, 0x00000002, 0x00000011], .movs ⟨(.v 6), (.v 0), (.v 0), (.v 0), .always, .b32, .rne, false, none⟩ .slack),
  ([0x00000611, 0x00000002, 0x00000012], .movs ⟨(.v 6), (.v 0), (.v 0), (.v 0), .always, .b32, .rne, false, none⟩ .fpflags),
  ([0x00090011, 0x00000002, 0x00000112], .movsWrite ⟨(.v 0), (.v 9), (.v 0), (.v 0), .always, .b32, .rne, false, none⟩),
  ([0x00000311, 0x00000003, 0x00000000], .movpRead ⟨(.v 3), (.v 0), (.v 0), (.v 0), .always, .b32, .rne, false, none⟩),
  ([0x00030011, 0x00000003, 0x00000601], .movpWrite ⟨(.v 0), (.v 3), (.v 0), (.v 0), .always, .b32, .rne, false, none⟩ 0x06)] ++ [
  ([0x07020411, 0x00036004, 0x00000003], .lea ⟨(.v 4), (.v 2), (.v 7), (.int 24), .always, .b32, .rne, false, none⟩ 3 false),
  ([0x07020411, 0x00000004, 0x0000000D], .lea ⟨(.v 4), (.v 2), (.v 7), (.v 0), .always, .b32, .rne, false, none⟩ 5 true)]

theorem test_wordsMov : reads wordsMov = true := by decide +kernel

/-- FLT, R97, R101. -/
def wordsFlt : List (List Word × Instr) := [
  ([0xE2040215, 0x03000000, 0x00000000], .fadd ⟨(.v 2), (.v 4), (.flt 2), (.v 0), .always, .f64, .rne, false, none⟩ 0),
  ([0xE2040215, 0x0AC00001, 0x00000000], .fsub ⟨(.v 2), (.v 4), (.flt 2), (.v 0), .always, .f32, .rtz, false, none⟩ 0),
  ([0xE2040215, 0x12C00002, 0x00000000], .fmul ⟨(.v 2), (.v 4), (.flt 2), (.v 0), .always, .f32, .rup, false, none⟩ 0),
  ([0xE2040215, 0x1AC01803, 0x00000000], .ffma ⟨(.v 2), (.v 4), (.flt 2), (.v 6), .always, .f32, .rdn, false, none⟩ 0),
  ([0xE2040215, 0x02C00004, 0x00000000], .fmin ⟨(.v 2), (.v 4), (.flt 2), (.v 0), .always, .f32, .rne, false, none⟩ 0),
  ([0xE2040215, 0x03000005, 0x00000000], .fmax ⟨(.v 2), (.v 4), (.flt 2), (.v 0), .always, .f64, .rne, false, none⟩ 0),
  ([0x00040215, 0x02C00006, 0x00000000], .fabs ⟨(.v 2), (.v 4), (.v 0), (.v 0), .always, .f32, .rne, false, none⟩ 0),
  ([0x00040215, 0x03000007, 0x00000000], .fneg ⟨(.v 2), (.v 4), (.v 0), (.v 0), .always, .f64, .rne, false, none⟩ 0),
  ([0x02010015, 0x02C00008, 0x00002D9B], .fsetp ⟨(.v 0), (.v 1), (.v 2), (.v 0), .always, .f32, .rne, false, none⟩ ⟨3, true, 9, 5, true, .or⟩),
  ([0x00020715, 0x03000009, 0x00000000], .fclass ⟨(.v 7), (.v 2), (.v 0), (.v 0), .always, .f64, .rne, false, none⟩ 0),
  ([0x00010515, 0x1AC0000A, 0x00000000], .frint ⟨(.v 5), (.v 1), (.v 0), (.v 0), .always, .f32, .rdn, false, none⟩ 0),
  ([0xCD010615, 0x22C0000B, 0x00000000], .fscale ⟨(.v 6), (.v 1), (.int 13), (.v 0), .always, .f32, .rna, false, none⟩ 0)]

theorem test_wordsFlt : reads wordsFlt = true := by decide +kernel

/-- CVT, R102. -/
def wordsCvt : List (List Word × Instr) := [
  ([0x00010219, 0x03400000, 0x0000000B], .cvt ⟨(.v 2), (.v 1), (.v 0), (.v 0), .always, .e4m3, .rne, false, none⟩ .f32 0),
  ([0x00010219, 0x00C00000, 0x000001EF], .cvt ⟨(.v 2), (.v 1), (.v 0), (.v 0), .always, .i32, .rne, false, none⟩ .t2 15),
  ([0x00010219, 0x0B800001, 0x0000006B], .cvtins ⟨(.v 2), (.v 1), (.v 0), (.v 0), .always, .e5m2, .rtz, false, none⟩ .f32 3)]

theorem test_wordsCvt : reads wordsCvt = true := by decide +kernel

/-- SFU, R105. -/
def wordsSfu : List (List Word × Instr) := [
  ([0x0004021D, 0x02C00000, 0x00000000], .rcp ⟨(.v 2), (.v 4), (.v 0), (.v 0), .always, .f32, .rne, false, none⟩ 0),
  ([0x0004021D, 0x02C00001, 0x00000000], .rsq ⟨(.v 2), (.v 4), (.v 0), (.v 0), .always, .f32, .rne, false, none⟩ 0),
  ([0x0004021D, 0x03000002, 0x00000000], .sqrt ⟨(.v 2), (.v 4), (.v 0), (.v 0), .always, .f64, .rne, false, none⟩ 0),
  ([0x0004021D, 0x02C00003, 0x00000000], .exp2 ⟨(.v 2), (.v 4), (.v 0), (.v 0), .always, .f32, .rne, false, none⟩ 0),
  ([0x0004021D, 0x02C00004, 0x00000000], .log2 ⟨(.v 2), (.v 4), (.v 0), (.v 0), .always, .f32, .rne, false, none⟩ 0),
  ([0x0004021D, 0x02C00005, 0x00000000], .sin ⟨(.v 2), (.v 4), (.v 0), (.v 0), .always, .f32, .rne, false, none⟩ 0),
  ([0x0004021D, 0x02C00006, 0x00000000], .cos ⟨(.v 2), (.v 4), (.v 0), (.v 0), .always, .f32, .rne, false, none⟩ 0),
  ([0x0004021D, 0x02C00007, 0x00000000], .tanh ⟨(.v 2), (.v 4), (.v 0), (.v 0), .always, .f32, .rne, false, none⟩ 0),
  ([0x0604021D, 0x0AC00008, 0x00000000], .fdiv ⟨(.v 2), (.v 4), (.v 6), (.v 0), .always, .f32, .rtz, false, none⟩ 0),
  ([0x0604021D, 0x01C00009, 0x00000000], .div ⟨(.v 2), (.v 4), (.v 6), (.v 0), .always, .n32, .rne, false, none⟩ 0),
  ([0x0604021D, 0x0100000A, 0x00000000], .rem ⟨(.v 2), (.v 4), (.v 6), (.v 0), .always, .i64, .rne, false, none⟩ 0)]

theorem test_wordsSfu : reads wordsSfu = true := by decide +kernel

/-- CTL, R111. -/
def wordsCtl : List (List Word × Instr) := [
  ([0x00000021, 0x00000000, 0x00000000], .nop ⟨(.v 0), (.v 0), (.v 0), (.v 0), .always, .b32, .rne, false, none⟩),
  ([0x00000021, 0x00000001, 0x00000000], .land ⟨(.v 0), (.v 0), (.v 0), (.v 0), .always, .b32, .rne, false, none⟩),
  ([0x00000021, 0x00040002, 0xFFFFFFF0], .br ⟨(.v 0), (.v 0), (.v 0), (.v 0), (.pos 1), .b32, .rne, false, none⟩ 0xFFFFFFF0),
  ([0x00050021, 0x00000003, 0x00000000], .jmpi ⟨(.v 0), (.v 5), (.v 0), (.v 0), .always, .b32, .rne, false, none⟩),
  ([0x00000021, 0x00000004, 0x00000040], .call ⟨(.v 0), (.v 0), (.v 0), (.v 0), .always, .b32, .rne, false, none⟩ 0x40),
  ([0x00850021, 0x00000005, 0x00000000], .calli ⟨(.v 0), (.s 5), (.v 0), (.v 0), .always, .b32, .rne, false, none⟩),
  ([0x00000021, 0x00000006, 0x00000000], .ret ⟨(.v 0), (.v 0), (.v 0), (.v 0), .always, .b32, .rne, false, none⟩),
  ([0x00000021, 0x00280007, 0x00000000], .exit ⟨(.v 0), (.v 0), (.v 0), (.v 0), (.neg 2), .b32, .rne, false, none⟩),
  ([0x00000021, 0x00000008, 0x0000002A], .trap ⟨(.v 0), (.v 0), (.v 0), (.v 0), .always, .b32, .rne, false, none⟩ 0x2A)]

theorem test_wordsCtl : reads wordsCtl = true := by decide +kernel

/-- EFF, R120. -/
def wordsEff : List (List Word × Instr) := [
  ([0x00FF0027, 0x00000000, 0x00001120, 0x00000020, 0x00000040], .hpush ⟨(.v 0), .lit, (.v 0), (.v 0), .always, .b32, .rne, false, (some 0x4000000020)⟩ 0x120 true),
  ([0x00000025, 0x00000001, 0x00000000], .hend ⟨(.v 0), (.v 0), (.v 0), (.v 0), .always, .b32, .rne, false, none⟩),
  ([0x00000025, 0x00000002, 0x00000120], .perform ⟨(.v 0), (.v 0), (.v 0), (.v 0), .always, .b32, .rne, false, none⟩ 0x120),
  ([0x00080025, 0x00000003, 0x00000000], .resume ⟨(.v 0), (.v 8), (.v 0), (.v 0), .always, .b32, .rne, false, none⟩),
  ([0xD0080025, 0x00000004, 0x00000000], .abort ⟨(.v 0), (.v 8), (.int 16), (.v 0), .always, .b32, .rne, false, none⟩)]

theorem test_wordsEff : reads wordsEff = true := by decide +kernel

/-- MEM, R88. -/
def wordsMem : List (List Word × Instr) := [
  ([0x00040229, 0x00000000, 0x00000010], .ld ⟨(.v 2), (.v 4), (.v 0), (.v 0), .always, .b32, .rne, false, none⟩ 16),
  ([0x037E0029, 0x04000001, 0x00FFFFFF], .st ⟨(.v 0), (.v 126), (.v 3), (.v 0), .always, .b64, .rne, false, none⟩ 0xFFFFFF),
  ([0x02040629, 0x00C00010, 0x00000008], .atomAdd ⟨(.v 6), (.v 4), (.v 2), (.v 0), .always, .i32, .rne, false, none⟩ ⟨8, .rlx, .module⟩),
  ([0x02040629, 0x01C00011, 0x01000008], .atomMin ⟨(.v 6), (.v 4), (.v 2), (.v 0), .always, .n32, .rne, false, none⟩ ⟨8, .acq, .module⟩),
  ([0x02040629, 0x01000012, 0x06000008], .atomMax ⟨(.v 6), (.v 4), (.v 2), (.v 0), .always, .i64, .rne, false, none⟩ ⟨8, .rel, .cluster⟩),
  ([0x02040629, 0x00000013, 0x0F000008], .atomAnd ⟨(.v 6), (.v 4), (.v 2), (.v 0), .always, .b32, .rne, false, none⟩ ⟨8, .ar, .system⟩),
  ([0x02040629, 0x04000014, 0x09000008], .atomOr ⟨(.v 6), (.v 4), (.v 2), (.v 0), .always, .b64, .rne, false, none⟩ ⟨8, .acq, .die⟩),
  ([0x02040629, 0x00000015, 0x00000008], .atomXor ⟨(.v 6), (.v 4), (.v 2), (.v 0), .always, .b32, .rne, false, none⟩ ⟨8, .rlx, .module⟩),
  ([0x02040629, 0x00000016, 0x01000008], .atomExch ⟨(.v 6), (.v 4), (.v 2), (.v 0), .always, .b32, .rne, false, none⟩ ⟨8, .acq, .module⟩),
  ([0x02040629, 0x00002017, 0x06000008], .atomCas ⟨(.v 6), (.v 4), (.v 2), (.v 8), .always, .b32, .rne, false, none⟩ ⟨8, .rel, .cluster⟩),
  ([0x02040629, 0x02C00018, 0x0F000008], .atomFadd ⟨(.v 6), (.v 4), (.v 2), (.v 0), .always, .f32, .rne, false, none⟩ ⟨8, .ar, .system⟩)]

theorem test_wordsMem : reads wordsMem = true := by decide +kernel

/-- DIV, R156. -/
def wordsDiv : List (List Word × Instr) := [
  ([0x0000002D, 0x00000000, 0x00000001], .join ⟨(.v 0), (.v 0), (.v 0), (.v 0), .always, .b32, .rne, false, none⟩ 1),
  ([0x0000002D, 0x00000001, 0x00000001], .leave ⟨(.v 0), (.v 0), (.v 0), (.v 0), .always, .b32, .rne, false, none⟩ 1),
  ([0x0000002D, 0x00000002, 0x0000000E], .waitj ⟨(.v 0), (.v 0), (.v 0), (.v 0), .always, .b32, .rne, false, none⟩ 14),
  ([0x0000002D, 0x00000003, 0xFFFFFE42], .brk ⟨(.v 0), (.v 0), (.v 0), (.v 0), .always, .b32, .rne, false, none⟩ 2 4 0xFFFFFE),
  ([0x0082002D, 0x04000004, 0x00000007], .kmovSet ⟨(.v 0), (.s 2), (.v 0), (.v 0), .always, .b64, .rne, false, none⟩ 7),
  ([0x0000002D, 0x00000004, 0x0001A905], .kmovBallot ⟨(.v 0), (.v 0), (.v 0), (.v 0), .always, .b32, .rne, false, none⟩ 5 9 2 true),
  ([0x0000042D, 0x00000004, 0x00020005], .kmovRead ⟨(.v 4), (.v 0), (.v 0), (.v 0), .always, .b32, .rne, false, none⟩ 5)]

theorem test_wordsDiv : reads wordsDiv = true := by decide +kernel

/-- XLN, R159. -/
def wordsXln : List (List Word × Instr) := 
  [
  ([0xD1010231, 0x00000000, 0x00000001], .shflIdx ⟨(.v 2), (.v 1), (.int 17), (.v 0), .always, .b32, .rne, false, none⟩ 1 false),
  ([0xD1010231, 0x00000001, 0x00008002], .shflUp ⟨(.v 2), (.v 1), (.int 17), (.v 0), .always, .b32, .rne, false, none⟩ 2 true),
  ([0xD1010231, 0x00000002, 0x00000003], .shflDown ⟨(.v 2), (.v 1), (.int 17), (.v 0), .always, .b32, .rne, false, none⟩ 3 false),
  ([0xD1010231, 0x00000003, 0x00008004], .shflXor ⟨(.v 2), (.v 1), (.int 17), (.v 0), .always, .b32, .rne, false, none⟩ 4 true),
  ([0x00000031, 0x00000004, 0x00003100], .voteAny ⟨(.v 0), (.v 0), (.v 0), (.v 0), .always, .b32, .rne, false, none⟩ 0 1 false 3),
  ([0x00000031, 0x00000005, 0x00007E0F], .voteAll ⟨(.v 0), (.v 0), (.v 0), (.v 0), .always, .b32, .rne, false, none⟩ 15 6 true 7),
  ([0x00008631, 0x04000006, 0x00000A00], .voteBallot ⟨(.s 6), (.v 0), (.v 0), (.v 0), .always, .b64, .rne, false, none⟩ 0 2 true),
  ([0x00028831, 0x00C00007, 0x00000004], .redux ⟨(.s 8), (.v 2), (.v 0), (.v 0), .always, .i32, .rne, false, none⟩ 4 .add),
  ([0x00028831, 0x01C00007, 0x00000014], .redux ⟨(.s 8), (.v 2), (.v 0), (.v 0), .always, .n32, .rne, false, none⟩ 4 .min),
  ([0x00028831, 0x01000007, 0x00000024], .redux ⟨(.s 8), (.v 2), (.v 0), (.v 0), .always, .i64, .rne, false, none⟩ 4 .max),
  ([0x00028831, 0x00000007, 0x00000034], .redux ⟨(.s 8), (.v 2), (.v 0), (.v 0), .always, .b32, .rne, false, none⟩ 4 .and),
  ([0x00028831, 0x04000007, 0x00000044], .redux ⟨(.s 8), (.v 2), (.v 0), (.v 0), .always, .b64, .rne, false, none⟩ 4 .or)] ++ [
  ([0x00028831, 0x00000007, 0x00000054], .redux ⟨(.s 8), (.v 2), (.v 0), (.v 0), .always, .b32, .rne, false, none⟩ 4 .xor),
  ([0x00028831, 0x02C00007, 0x00000064], .redux ⟨(.s 8), (.v 2), (.v 0), (.v 0), .always, .f32, .rne, false, none⟩ 4 .fadd),
  ([0x00028831, 0x03000007, 0x00000074], .redux ⟨(.s 8), (.v 2), (.v 0), (.v 0), .always, .f64, .rne, false, none⟩ 4 .fmin),
  ([0x00028831, 0x02C00007, 0x00000084], .redux ⟨(.s 8), (.v 2), (.v 0), (.v 0), .always, .f32, .rne, false, none⟩ 4 .fmax),
  ([0x00020831, 0x00000007, 0x014B0050], .reduxSet ⟨(.v 8), (.v 2), (.v 0), (.v 0), .always, .b32, .rne, false, none⟩ 0xA5 .xor),
  ([0x00020831, 0x41C00008, 0x02000003], .scan ⟨(.v 8), (.v 2), (.v 0), (.v 0), .always, .n32, .rne, true, none⟩ 3 .add true),
  ([0x02018A31, 0x00000009, 0x00008006], .bcast ⟨(.s 10), (.v 1), (.v 2), (.v 0), .always, .b32, .rne, false, none⟩ 6 true)]

theorem test_wordsXln : reads wordsXln = true := by decide +kernel

/-- SYN, R164. -/
def wordsSyn : List (List Word × Instr) := [
  ([0x00000035, 0x00000000, 0x00050000], .bar ⟨(.v 0), (.v 0), (.v 0), (.v 0), .always, .b32, .rne, false, none⟩ true .die),
  ([0x00000035, 0x00000001, 0x00010700], .sbar ⟨(.v 0), (.v 0), (.v 0), (.v 0), .always, .b32, .rne, false, none⟩ 7 true .module),
  ([0x00FF0037, 0x00000002, 0x00000017, 0x00000040, 0x00000000], .rinit ⟨(.v 0), .lit, (.v 0), (.v 0), .always, .b32, .rne, false, (some 0x40)⟩ 23),
  ([0x00000335, 0x00000003, 0x00030005], .rarrive ⟨(.v 3), (.v 0), (.v 0), (.v 0), .always, .b32, .rne, false, none⟩ 5 true .cluster),
  ([0x00030035, 0x00000004, 0x00070005], .rwait ⟨(.v 0), (.v 3), (.v 0), (.v 0), .always, .b32, .rne, false, none⟩ 5 true .system),
  ([0x00030035, 0x00000005, 0x00100005], .rtest ⟨(.v 0), (.v 3), (.v 0), (.v 0), .always, .b32, .rne, false, none⟩ 5 2)]

theorem test_wordsSyn : reads wordsSyn = true := by decide +kernel

/-- TSK, R182. -/
def wordsTsk : List (List Word × Instr) := [
  ([0x02D40039, 0x00002400, 0x001FFFFC], .spawn ⟨(.v 0), (.int 20), (.v 2), (.v 9), .always, .b32, .rne, false, none⟩ 0xFFFFC true),
  ([0x00000239, 0x00000001, 0x00000001], .fetch ⟨(.v 2), (.v 0), (.v 0), (.v 0), .always, .b32, .rne, false, none⟩ 1),
  ([0x00060439, 0x00000002, 0x00000000], .launch ⟨(.v 4), (.v 6), (.v 0), (.v 0), .always, .b32, .rne, false, none⟩),
  ([0x00000039, 0x00000003, 0x00000010], .rgive ⟨(.v 0), (.v 0), (.v 0), (.v 0), .always, .b32, .rne, false, none⟩ 16),
  ([0x00000039, 0x00000004, 0x00000018], .rclaim ⟨(.v 0), (.v 0), (.v 0), (.v 0), .always, .b32, .rne, false, none⟩ 24)]

theorem test_wordsTsk : reads wordsTsk = true := by decide +kernel

/-- STD, R202. -/
def wordsStd : List (List Word × Instr) := [
  ([0x0201003D, 0x00021000, 0x00000000], .resid ⟨(.v 0), (.v 1), (.v 2), (.s 4), .always, .b32, .rne, false, none⟩ false),
  ([0x0201003D, 0x01C00000, 0x00000001], .resid ⟨(.v 0), (.v 1), (.v 2), (.v 0), .always, .n32, .rne, false, none⟩ true),
  ([0x0500003D, 0x02C00001, 0x00000000], .residm ⟨(.v 0), (.v 0), (.v 5), (.v 0), .always, .f32, .rne, false, none⟩),
  ([0x00D0003D, 0x00000002, 0x00000000], .brkdone ⟨(.v 0), (.int 16), (.v 0), (.v 0), .always, .b32, .rne, false, none⟩),
  ([0x02010A3D, 0x00000003, 0x00000000], .ldit ⟨(.v 10), (.v 1), (.v 2), (.v 0), .always, .b32, .rne, false, none⟩),
  ([0x0000023D, 0x00000004, 0x00000000], .brkinfo ⟨(.v 2), (.v 0), (.v 0), (.v 0), .always, .b32, .rne, false, none⟩ .id),
  ([0x0000023D, 0x00000004, 0x00000001], .brkinfo ⟨(.v 2), (.v 0), (.v 0), (.v 0), .always, .b32, .rne, false, none⟩ .dres),
  ([0x0000023D, 0x00000004, 0x00000002], .brkinfo ⟨(.v 2), (.v 0), (.v 0), (.v 0), .always, .b32, .rne, false, none⟩ .data),
  ([0x0000023D, 0x00000004, 0x00000003], .brkinfo ⟨(.v 2), (.v 0), (.v 0), (.v 0), .always, .b32, .rne, false, none⟩ .mortar),
  ([0x0000023D, 0x00000004, 0x00000004], .brkinfo ⟨(.v 2), (.v 0), (.v 0), (.v 0), .always, .b32, .rne, false, none⟩ .mcnt),
  ([0x0000023D, 0x00000004, 0x00000005], .brkinfo ⟨(.v 2), (.v 0), (.v 0), (.v 0), .always, .b32, .rne, false, none⟩ .iter)]

theorem test_wordsStd : reads wordsStd = true := by decide +kernel

/-- SPD, R229. -/
def wordsSpd : List (List Word × Instr) := [
  ([0x00040241, 0x00000000, 0x00000010], .ldl ⟨(.v 2), (.v 4), (.v 0), (.v 0), .always, .b32, .rne, false, none⟩ 16),
  ([0x06040041, 0x04000001, 0x00FFFFFF], .stl ⟨(.v 0), (.v 4), (.v 6), (.v 0), .always, .b64, .rne, false, none⟩ 0xFFFFFF),
  ([0x00040241, 0x00000002, 0x00000010], .ldc ⟨(.v 2), (.v 4), (.v 0), (.v 0), .always, .b32, .rne, false, none⟩ 16),
  ([0x06040041, 0x04000003, 0x00FFFFFF], .stc ⟨(.v 0), (.v 4), (.v 6), (.v 0), .always, .b64, .rne, false, none⟩ 0xFFFFFF),
  ([0x00040241, 0x00000004, 0x00000010], .ldd ⟨(.v 2), (.v 4), (.v 0), (.v 0), .always, .b32, .rne, false, none⟩ 16),
  ([0x06040041, 0x04000005, 0x00FFFFFF], .std ⟨(.v 0), (.v 4), (.v 6), (.v 0), .always, .b64, .rne, false, none⟩ 0xFFFFFF),
  ([0x06040041, 0x00000C06, 0x000C0102], .tmov ⟨(.v 0), (.v 4), (.v 6), (.v 3), .always, .b32, .rne, false, none⟩ ⟨.die, .core, 16, 3⟩)]

theorem test_wordsSpd : reads wordsSpd = true := by decide +kernel

/-- OWN, R234. -/
def wordsOwn : List (List Word × Instr) := [
  ([0xD5010045, 0x00000000, 0x00000001], .owngive ⟨(.v 0), (.v 1), (.int 21), (.v 0), .always, .b32, .rne, false, none⟩ .workgroup),
  ([0xD5010045, 0x00000000, 0x00000002], .owngive ⟨(.v 0), (.v 1), (.int 21), (.v 0), .always, .b32, .rne, false, none⟩ .core),
  ([0xD5010045, 0x00000000, 0x00000003], .owngive ⟨(.v 0), (.v 1), (.int 21), (.v 0), .always, .b32, .rne, false, none⟩ .engine),
  ([0x00010045, 0x00000001, 0x00000006], .owntake ⟨(.v 0), (.v 1), (.v 0), (.v 0), .always, .b32, .rne, false, none⟩ .core true),
  ([0x00FF0047, 0x00000002, 0x00000000, 0x00000011, 0x00000000], .ownshare ⟨(.v 0), .lit, (.v 0), (.v 0), .always, .b32, .rne, false, (some 0x11)⟩)]

theorem test_wordsOwn : reads wordsOwn = true := by decide +kernel

/-- TIL, R237. -/
def wordsTil : List (List Word × Instr) := [
  ([0x00FF004B, 0x00000000, 0x00000003, 0x00200400, 0x00000000], .talloc ⟨(.v 0), .lit, (.v 0), (.v 0), .always, .b32, .rne, false, (some 0x200400)⟩ 3),
  ([0xD0040049, 0x00000001, 0x00000083], .tload ⟨(.v 0), (.v 4), (.int 16), (.v 0), .always, .b32, .rne, false, none⟩ 3 .die),
  ([0xFF06004B, 0x00000002, 0x0000007F, 0x00000100, 0x00000000], .tstore ⟨(.v 0), (.v 6), .lit, (.v 0), .always, .b32, .rne, false, (some 0x100)⟩ 63 .cluster),
  ([0x00D10049, 0x00000003, 0x00000003], .tgive ⟨(.v 0), (.int 17), (.v 0), (.v 0), .always, .b32, .rne, false, none⟩ 3),
  ([0x00000049, 0x00000004, 0x00000003], .ttake ⟨(.v 0), (.v 0), (.v 0), (.v 0), .always, .b32, .rne, false, none⟩ 3),
  ([0x00000049, 0x00000005, 0x00000003], .tfree ⟨(.v 0), (.v 0), (.v 0), (.v 0), .always, .b32, .rne, false, none⟩ 3)]

theorem test_wordsTil : reads wordsTil = true := by decide +kernel

/-- ORD, R246. -/
def wordsOrd : List (List Word × Instr) := [
  ([0x0000004D, 0x00000000, 0x00000003], .phase ⟨(.v 0), (.v 0), (.v 0), (.v 0), .always, .b32, .rne, false, none⟩ .system),
  ([0x0000004D, 0x00000001, 0x00000000], .fence ⟨(.v 0), (.v 0), (.v 0), (.v 0), .always, .b32, .rne, false, none⟩)]

theorem test_wordsOrd : reads wordsOrd = true := by decide +kernel

/-- QUE, R240. -/
def wordsQue : List (List Word × Instr) := [
  ([0x00040051, 0x00000000, 0x00000002], .qcfg ⟨(.v 0), (.v 4), (.v 0), (.v 0), .always, .b32, .rne, false, none⟩ 2),
  ([0x00000751, 0x00000001, 0x00000001], .qstat ⟨(.v 7), (.v 0), (.v 0), (.v 0), .always, .b32, .rne, false, none⟩ 1),
  ([0x00050051, 0x00000002, 0x00000007], .push ⟨(.v 0), (.v 5), (.v 0), (.v 0), .always, .b32, .rne, false, none⟩ 7),
  ([0x00000651, 0x00000003, 0x00000001], .pop ⟨(.v 6), (.v 0), (.v 0), (.v 0), .always, .b32, .rne, false, none⟩ 1)]

theorem test_wordsQue : reads wordsQue = true := by decide +kernel

/-- ENG, R296. -/
def wordsEng : List (List Word × Instr) := [
  ([0x00040355, 0x00000000, 0x00000000], .gnode ⟨(.v 3), (.v 4), (.v 0), (.v 0), .always, .b32, .rne, false, none⟩),
  ([0x00030055, 0x00000001, 0x00000000], .garm ⟨(.v 0), (.v 3), (.v 0), (.v 0), .always, .b32, .rne, false, none⟩),
  ([0x00030055, 0x00000001, 0x00000001], .garmSig ⟨(.v 0), (.v 3), (.v 0), (.v 0), .always, .b32, .rne, false, none⟩),
  ([0x00030055, 0x00000001, 0x00000002], .garmFree ⟨(.v 0), (.v 3), (.v 0), (.v 0), .always, .b32, .rne, false, none⟩),
  ([0x00030655, 0x00000002, 0x00000000], .gwait ⟨(.v 6), (.v 3), (.v 0), (.v 0), .always, .b32, .rne, false, none⟩),
  ([0x00030055, 0x00000003, 0x00000002], .gtest ⟨(.v 0), (.v 3), (.v 0), (.v 0), .always, .b32, .rne, false, none⟩ 2),
  ([0x00040155, 0x00000004, 0x00000000], .shadowNew ⟨(.v 1), (.v 4), (.v 0), (.v 0), .always, .b32, .rne, false, none⟩),
  ([0x00010655, 0x00000004, 0x00000001], .shadowAddr ⟨(.v 6), (.v 1), (.v 0), (.v 0), .always, .b32, .rne, false, none⟩),
  ([0x00010055, 0x00000004, 0x00000002], .shadowFree ⟨(.v 0), (.v 1), (.v 0), (.v 0), .always, .b32, .rne, false, none⟩),
  ([0x00010055, 0x00000005, 0x00000000], .publish ⟨(.v 0), (.v 1), (.v 0), (.v 0), .always, .b32, .rne, false, none⟩)]

theorem test_wordsEng : reads wordsEng = true := by decide +kernel

/-- MMA, R311, R318, R321. -/
def wordsMma : List (List Word × Instr) := [
  ([0x02010059, 0x00002800, 0x00D08041], .mloop ⟨(.v 0), (.v 1), (.v 2), (.v 10), .always, .b32, .rne, false, none⟩ ⟨1, true, 0, false, 2, true, false, 3⟩),
  ([0x02010059, 0x00002800, 0x00302284], .mloop ⟨(.v 0), (.v 1), (.v 2), (.v 10), .always, .b32, .rne, false, none⟩ ⟨4, false, 5, true, 0, true, true, 0⟩),
  ([0x00000059, 0x00000001, 0x0000003F], .mzero ⟨(.v 0), (.v 0), (.v 0), (.v 0), .always, .b32, .rne, false, none⟩ 63),
  ([0xD0040759, 0x00000002, 0x00004001], .mread ⟨(.v 7), (.v 4), (.int 16), (.v 0), .always, .b32, .rne, false, none⟩ ⟨1, false, 0, .die⟩),
  ([0x00000759, 0x00000002, 0x000002C1], .mread ⟨(.v 7), (.v 0), (.v 0), (.v 0), .always, .b32, .rne, false, none⟩ ⟨1, true, 5, .core⟩),
  ([0x00000059, 0x03400003, 0x0000D141], .mcvt ⟨(.v 0), (.v 0), (.v 0), (.v 0), .always, .e4m3, .rne, false, none⟩ ⟨1, 5, true, 6⟩),
  ([0x0A090059, 0x00000004, 0x000281C1], .mgate ⟨(.v 0), (.v 9), (.v 10), (.v 0), .always, .b32, .rne, false, none⟩ ⟨1, 7, 2, true⟩)]

theorem test_wordsMma : reads wordsMma = true := by decide +kernel

/-- SYS, R337. -/
def wordsSys : List (List Word × Instr) := [
  ([0x0000005D, 0x00000000, 0x00000000], .region ⟨(.v 0), (.v 0), (.v 0), (.v 0), .always, .b32, .rne, false, none⟩),
  ([0x0000005D, 0x00000001, 0x00000000], .trapretFix ⟨(.v 0), (.v 0), (.v 0), (.v 0), .always, .b32, .rne, false, none⟩),
  ([0x0000005D, 0x00000001, 0x00000001], .trapretSkip ⟨(.v 0), (.v 0), (.v 0), (.v 0), .always, .b32, .rne, false, none⟩),
  ([0x0004005D, 0x00000001, 0x00000002], .trapretRetry ⟨(.v 0), (.v 4), (.v 0), (.v 0), .always, .b32, .rne, false, none⟩),
  ([0x0000005D, 0x00000001, 0x00000003], .trapretKill ⟨(.v 0), (.v 0), (.v 0), (.v 0), .always, .b32, .rne, false, none⟩),
  ([0x00D9025D, 0x00000002, 0x00000000], .rdtrap ⟨(.v 2), (.int 25), (.v 0), (.v 0), .always, .b32, .rne, false, none⟩),
  ([0x05FF005F, 0x00000003, 0x00000000, 0x00000010, 0x00000000], .wrtrap ⟨(.v 0), .lit, (.v 5), (.v 0), .always, .b32, .rne, false, (some 0x10)⟩),
  ([0x0002045D, 0x00000004, 0x00000000], .pgreq ⟨(.v 4), (.v 2), (.v 0), (.v 0), .always, .b32, .rne, false, none⟩)]

theorem test_wordsSys : reads wordsSys = true := by decide +kernel

/-- DBG, R354. -/
def wordsDbg : List (List Word × Instr) := [
  ([0x00000061, 0x00000000, 0x0000002A], .bkpt ⟨(.v 0), (.v 0), (.v 0), (.v 0), .always, .b32, .rne, false, none⟩ 0x2A),
  ([0x00000661, 0x00000001, 0x00000005], .cntrd ⟨(.v 6), (.v 0), (.v 0), (.v 0), .always, .b32, .rne, false, none⟩ ⟨5, .core, 0⟩),
  ([0x00000661, 0x00000001, 0x000001AF], .cntrd ⟨(.v 6), (.v 0), (.v 0), (.v 0), .always, .b32, .rne, false, none⟩ ⟨15, .die, 3⟩),
  ([0x00060061, 0x00000002, 0x00000143], .cntwr ⟨(.v 0), (.v 6), (.v 0), (.v 0), .always, .b32, .rne, false, none⟩ ⟨3, .hub, 2⟩)]

theorem test_wordsDbg : reads wordsDbg = true := by decide +kernel

/-- the short map, R48. -/
def wordsShort : List (List Word × Instr) := 
  [
  ([0x00000004], .nopShort ⟨(.v 0), (.v 0), (.v 0), none⟩),
  ([0x00010308], .movShort ⟨(.v 3), (.v 1), (.v 0), none⟩),
  ([0x0706050C], .addShort ⟨(.v 5), (.v 6), (.v 7), none⟩),
  ([0xCF060510], .subShort ⟨(.v 5), (.v 6), (.int 15), none⟩),
  ([0x07060514], .mulShort ⟨(.v 5), (.v 6), (.v 7), none⟩),
  ([0xCF060518], .mulhI32Short ⟨(.v 5), (.v 6), (.int 15), none⟩),
  ([0x0706051C], .mulhN32Short ⟨(.v 5), (.v 6), (.v 7), none⟩),
  ([0xCF060520], .andShort ⟨(.v 5), (.v 6), (.int 15), none⟩),
  ([0x07060524], .orShort ⟨(.v 5), (.v 6), (.v 7), none⟩),
  ([0xFF06052A, 0xFFFFFFFF, 0x00000001], .xorShort ⟨(.v 5), (.v 6), .lit, (some 0x1ffffffff)⟩),
  ([0x0706052C], .andnShort ⟨(.v 5), (.v 6), (.v 7), none⟩),
  ([0xCF060530], .shlShort ⟨(.v 5), (.v 6), (.int 15), none⟩)] ++ [
  ([0x07060534], .shrShort ⟨(.v 5), (.v 6), (.v 7), none⟩),
  ([0xCF060538], .sarShort ⟨(.v 5), (.v 6), (.int 15), none⟩),
  ([0x0706053C], .minI32Short ⟨(.v 5), (.v 6), (.v 7), none⟩),
  ([0xCF060540], .maxI32Short ⟨(.v 5), (.v 6), (.int 15), none⟩),
  ([0x07060544], .minN32Short ⟨(.v 5), (.v 6), (.v 7), none⟩),
  ([0xCF060548], .maxN32Short ⟨(.v 5), (.v 6), (.int 15), none⟩),
  ([0x0706054C], .faddShort ⟨(.v 5), (.v 6), (.v 7), none⟩),
  ([0xCF060550], .fsubShort ⟨(.v 5), (.v 6), (.int 15), none⟩),
  ([0x07060554], .fmulShort ⟨(.v 5), (.v 6), (.v 7), none⟩),
  ([0xCF060558], .fminShort ⟨(.v 5), (.v 6), (.int 15), none⟩),
  ([0x0706055C], .fmaxShort ⟨(.v 5), (.v 6), (.v 7), none⟩),
  ([0x86040260], .addw ⟨(.v 2), (.v 4), (.s 6), none⟩)] ++ [
  ([0x86040264], .subw ⟨(.v 2), (.v 4), (.s 6), none⟩),
  ([0x00000068], .landShort ⟨(.v 0), (.v 0), (.v 0), none⟩)]

theorem test_wordsShort : reads wordsShort = true := by decide +kernel

/-! ## Well-formedness: for each check an ill-formed term, which the check refuses -/

/-- A plain header: unguarded, rne, no literal. -/
def hd (d a b c : Operand) (ty : Ty) : Hdr := ⟨d, a, b, c, .always, ty, .rne, false, none⟩

/-- No operand at all. -/
def hN : Hdr := hd (.v 0) (.v 0) (.v 0) (.v 0) .b32

def refuses (l : List Instr) : Bool := l.all fun i => !i.wf

/-- Reserved operand codes of each field, reserved guards, and a short form's reserved codes (R39, R43, R48). -/
theorem test_illFormed_codes : refuses [.add { hN with d := .rsv 14, ty := .i32 } 0, .add { hN with a := .rsv 15, ty := .i32 } 0,
    .add { hN with b := .rsv 14, ty := .i32 } 0, .add { hN with c := .rsv 14, ty := .i32 } 0, .nop { hN with pred := .pos 0 },
    .nop { hN with pred := .neg 0 }, .addShort ⟨.rsv 14, .v 0, .v 0, none⟩, .addShort ⟨.v 0, .rsv 14, .v 0, none⟩,
    .addShort ⟨.v 0, .v 0, .rsv 15, none⟩] = true := by decide +kernel

/-- A type that the row does not admit (R52, check 6). -/
theorem test_illFormed_types : refuses [.add hN 0, .abs { hN with ty := .n32 } 0, .and { hN with ty := .i32 } 0, .bfx hN 0,
    .prmt { hN with ty := .b64 } 0, .setp { hN with ty := .f32 } ⟨0, .eq, 0, false, .set⟩, .li { hN with ty := .b64 } 0,
    .movpRead { hN with ty := .i32 }, .fadd hN 0, .cvt { hN with ty := .b32 } .f32 0, .cvtins { hN with ty := .f32 } .f32 0,
    .rcp { hN with ty := .f64 } 0, .div { hN with ty := .f32 } 0, .br { hN with ty := .i32 } 0, .ld { hN with ty := .f32 } 0,
    .atomAdd hN ⟨0, .rlx, .module⟩, .atomFadd hN ⟨0, .rlx, .module⟩, .redux { hN with ty := .f32 } 0 .add, .scan hN 0 .fadd false,
    .residm { hN with ty := .f64 }, .mcvt hN ⟨0, 0, false, 0⟩, .bar { hN with ty := .i32 } false .module] = true := by decide +kernel

/-- A class field that holds a value not allowed (R52, check 8). -/
theorem test_illFormed_fields : refuses [.setp hN ⟨0, .lt, 0, false, .set⟩, .setp hN ⟨0, .eq, 1, false, .set⟩,
    .setp hN ⟨0, .eq, 0, true, .set⟩, .plop hN ⟨0, 0, false, .set, 1, false⟩, .plop hN ⟨0, 0, false, .set, 0, true⟩,
    .movpWrite hN 1, .fsetp { hN with ty := .f32 } ⟨0, false, 1, 1, false, .set⟩, .cvt { hN with ty := .f32 } .b32 0,
    .cvt { hN with ty := .f32 } .f16 2, .cvtins { hN with ty := .i8 } .f32 4, .atomAnd hN ⟨0, .rlx, .die⟩, .br hN 2, .call hN 6,
    .brk hN 3 2 0, .bar hN false .cluster, .sbar hN 0 false .die, .rinit hN 24, .rarrive hN 24 false .module,
    .rwait hN 0 false .die, .rtest hN 31 0] = true := by decide +kernel

theorem test_illFormed_moreFields : refuses [.rgive hN 3, .rgive hN 0, .rclaim hN 130, .owntake hN .engine false,
    .mloop hN ⟨0, true, 1, false, 0, false, false, 0⟩, .mloop hN ⟨0, false, 0, true, 1, false, false, 0⟩,
    .mloop hN ⟨0, false, 0, false, 0, false, true, 0⟩, .mloop hN ⟨0, false, 0, false, 0, true, true, 1⟩,
    .mread hN ⟨0, true, 0, .die⟩, .mread hN ⟨0, false, 1, .core⟩, .mcvt { hN with ty := .f32 } ⟨0, 0, false, 1⟩,
    .cntrd hN ⟨8, .core, 0⟩, .cntwr hN ⟨16, .die, 0⟩] = true := by decide +kernel

/-- An event stands for no words, and so is not well-formed. -/
theorem test_illFormed_events : refuses [.sfuResult 0, .pickerCycle, .encodingNotInstruction .zeroWord 0 0 0] = true := by decide +kernel

/-- Words that R52's checks refuse, with the details of R53: LEN 01 without its words, MAJ 0x19, MIN 0x011 of INT, the reserved PRED, the
reserved TYPE, RND 5, bit 31 of word 1, and a field of CTL that must be zero. -/
theorem test_refusedWords : ([[0x00000005], [0x00000065, 0, 0], [0x00000005, 0x00C00011, 0], [0x02010305, 0x00E00000, 0],
    [0x02010305, 0x04C00000, 0], [0x02010305, 0x28C00000, 0], [0x02010305, 0x80C00000, 0], [0x00000021, 0, 1]].map fun ws =>
      match (decodeWords ws).1 with
      | .encodingNotInstruction c d _ _ => (c, d)
      | _ => (.zeroWord, 0xFF)) =
    ([1, 2, 3, 4, 5, 6, 7, 7].map fun d => (FaultCode.illegalInstruction, d)) := by decide +kernel

/-! ## Witnesses: for each statement, and each clause of it, a state and operands that meet its hypotheses

`W` is a module that is up, with one launch of context 1 whose only thread issues; the other states are `W` with what a clause needs
besides. The tables of instructions are met by the instructions of the decoding tests above. -/

/-- The code at the thread: `nop`, `land`, `nop`. -/
def W : State :=
  { State.reset.probe [0x00000004, 0x00000068, 0x00000004] with issueQ := [], cur := { threads := [probeRef], level := 0, pc := 0 } }

theorem W_groupOk : W.GroupOk := by unfold State.GroupOk; decide +kernel

def admitsB (s : State) (n : Need) (h : Hdr) : Bool :=
  (s.groupFault n).isNone && (s.operandFault n h.d h.a h.b h.c h.lit.isSome (s.active h.pred)).isNone

theorem admits_of {s : State} {n : Need} {h : Hdr} (k : admitsB s n h = true) : s.Admits n h := by
  simpa [admitsB, State.Admits] using k

def admitsShortB (s : State) (n : Need) (f : Short) : Bool :=
  (s.groupFault n).isNone && (s.operandFault n f.d f.a f.b (.v 0) f.lit.isSome s.cur.threads).isNone

theorem admitsShort_of {s : State} {n : Need} {f : Short} (k : admitsShortB s n f = true) : s.AdmitsShort n f := by
  simpa [admitsShortB, State.AdmitsShort] using k

/-- Every instruction of a list has an arm in a table, and the arm meets a condition. -/
def met {α : Type} (arms : Instr → Option α) (ok : α → Bool) (l : List Instr) : Bool :=
  l.all fun i => match arms i with
    | some A => ok A
    | none => false

theorem met_arm {α : Type} {arms : Instr → Option α} {ok : α → Bool} {l : List Instr} (k : met arms ok l = true) :
    ∀ i ∈ l, ∃ A, arms i = some A ∧ ok A = true := by
  intro i hi
  have := List.all_eq_true.1 k i hi
  split at this
  · exact ⟨_, ‹_›, this⟩
  · cases this

/-- Instructions of the tests that a table has an arm for. -/
def those {α : Type} (arms : Instr → Option α) (l : List (List Word × Instr)) : List Instr :=
  (l.map Prod.snd).filter fun i => (arms i).isSome

theorem witness_intArms : ∀ i ∈ wordsInt.map Prod.snd, ∃ A, intArms i = some A ∧ W.Admits A.need A.h := fun i hi =>
  let ⟨A, h, k⟩ := met_arm (ok := fun A => admitsB W A.need A.h) (by decide +kernel) i hi
  ⟨A, h, admits_of k⟩

theorem witness_bitArms : ∀ i ∈ wordsBit.map Prod.snd, ∃ A, bitArms i = some A ∧ W.Admits A.need A.h := fun i hi =>
  let ⟨A, h, k⟩ := met_arm (ok := fun A => admitsB W A.need A.h) (by decide +kernel) i hi
  ⟨A, h, admits_of k⟩

theorem witness_movArms : ∀ i ∈ those movArms (wordsMov ++ wordsCmp), ∃ A, movArms i = some A ∧ W.Admits A.need A.h := fun i hi =>
  let ⟨A, h, k⟩ := met_arm (ok := fun A => admitsB W A.need A.h) (by decide +kernel) i hi
  ⟨A, h, admits_of k⟩

theorem witness_fltArms : ∀ i ∈ those fltArms (wordsFlt ++ wordsCvt), ∃ A, fltArms i = some A ∧ W.Admits A.need A.h := fun i hi =>
  let ⟨A, h, k⟩ := met_arm (ok := fun A => admitsB W A.need A.h) (by decide +kernel) i hi
  ⟨A, h, admits_of k⟩

theorem witness_shortArms : ∀ i ∈ those shortArms wordsShort, ∃ A, shortArms i = some A ∧ W.AdmitsShort A.need A.f := fun i hi =>
  let ⟨A, h, k⟩ := met_arm (ok := fun A => admitsShortB W A.need A.f) (by decide +kernel) i hi
  ⟨A, h, admitsShort_of k⟩

theorem witness_predArms : ∀ i ∈ those predArms (wordsCmp ++ wordsFlt), ∃ A, predArms i = some A ∧ W.Admits A.need A.h := fun i hi =>
  let ⟨A, h, k⟩ := met_arm (ok := fun A => admitsB W A.need A.h) (by decide +kernel) i hi
  ⟨A, h, admits_of k⟩

theorem witness_sfuArms : ∀ i ∈ wordsSfu.map Prod.snd, ∃ A, sfuArms i = some A ∧ W.Admits A.need A.h := fun i hi =>
  let ⟨A, h, k⟩ := met_arm (ok := fun A => admitsB W A.need A.h) (by decide +kernel) i hi
  ⟨A, h, admits_of k⟩

/-- The tables leave out no instruction of their classes. -/
theorem witness_tables : (those movArms (wordsMov ++ wordsCmp)).length = 6 ∧ (those fltArms (wordsFlt ++ wordsCvt)).length = 14 ∧
    (those shortArms wordsShort).length = 24 ∧ (those predArms (wordsCmp ++ wordsFlt)).length = 3 := by decide +kernel

/-- MOVS read and write, MOVP write, NOP and LAND. -/
theorem witness_plainForms : W.Admits { d := .dst } (hd (.v 6) (.v 0) (.v 0) (.v 0) .b32) ∧
    W.Admits { d := .dstW } (hd (.v 6) (.v 0) (.v 0) (.v 0) .b32) ∧ W.Admits { a := .src } (hd (.v 0) (.v 9) (.v 0) (.v 0) .b32) ∧
    W.Admits {} hN ∧ W.AdmitsShort {} ⟨.v 0, .v 0, .v 0, none⟩ :=
  ⟨admits_of (by decide +kernel), admits_of (by decide +kernel), admits_of (by decide +kernel), admits_of (by decide +kernel),
    admitsShort_of (by decide +kernel)⟩

/-- An outstanding result of a thread that has its records, an outstanding load of global memory, and one of scratch. -/
def Wout : State :=
  { W with
    results := [{ thread := probeRef, dst := 3, vals := [7] }]
    loads := [{ thread := probeRef, dst := 4, ty := .b32, pieces := [[0, 1, 2, 3]] },
      { thread := probeRef, dst := 5, ty := .b32, bytes := some [1, 2, 3, 4], pieces := [] }] }

theorem witness_outstanding : Wout.results[0]? = some { thread := probeRef, dst := 3, vals := [7] } ∧
    (∃ l, Wout.loads[0]? = some l ∧ l.thread ∈ tkeys Wout.threads ∧ l.bytes = none) ∧
    (∃ l, Wout.loads[1]? = some l ∧ l.thread ∈ tkeys Wout.threads ∧ l.bytes = some [1, 2, 3, 4]) ∧ probeRef ∈ tkeys Wout.threads ∧
    (Wout.thr probeRef).ended = false ∧ (1, 0, 0) ∈ tkeys Wout.waves :=
  ⟨rfl, ⟨_, rfl, by decide +kernel, rfl⟩, ⟨_, rfl, by decide +kernel, rfl⟩, by decide +kernel, by decide +kernel, by decide +kernel⟩

/-- `W` with translations for its first 4,096 pages, 16 in w2 (v4, v5) and 4 in v3. -/
def Wm : State :=
  ({ W with dies := vupd W.dies 0 fun d =>
      { d with tlb := [{ ctx := 1, page := 0, pages := 4096, pa := 0, w := true, s := false, h := false }] } }).updThr probeRef
    fun th => (th.setV 4 16).setV 3 4

theorem Wm_groupOk : Wm.GroupOk := by unfold State.GroupOk; decide +kernel

def accB (a : Acc) : Bool :=
  match a with
  | .ok _ => true
  | _ => false

theorem acc_of {act : List TRef} {acc : TRef → Acc} (k : (act.all fun t => accB (acc t)) = true) : AccessesOk act acc := by
  intro t ht
  have := List.all_eq_true.1 k t ht
  unfold accB at this
  split at this
  · exact ⟨_, ‹_›⟩
  · cases this

/-- BR and CALL. -/
theorem witness_direct : Wm.Admits { disps := [(4 : Word).toInt] } hN ∧ AccessesOk (Wm.active .always) Wm.frameAcc ∧
    Wm.LoadsClear (Wm.active .always) Wm.frameAcc :=
  ⟨admits_of (by decide +kernel), acc_of (by decide +kernel), by unfold State.LoadsClear; decide +kernel⟩

/-- JMPI and CALLI, to the LAND at 4. -/
theorem witness_indirect : let h := hd (.v 0) (.v 3) (.v 0) (.v 0) .b32
    Wm.Admits { a := .reg } h ∧ (∀ t ∈ Wm.active h.pred, Wm.targetBits t true ((Wm.rd t 0 h.lit).r32 h.a).toNat = 0) ∧
      AccessesOk (Wm.active h.pred) Wm.frameAcc ∧ Wm.LoadsClear (Wm.active h.pred) Wm.frameAcc :=
  ⟨admits_of (by decide +kernel), by decide +kernel, acc_of (by decide +kernel), by unfold State.LoadsClear; decide +kernel⟩

/-- `W` with a frame on its stack: w63 below the top of the region. -/
def Wret : State := Wm.updThr probeRef fun th => th.setSp (th.sp - 16)

/-- RET, to the 0 that the frame holds. -/
theorem witness_ret : Wret.Admits {} hN ∧ Wret.active .always ≠ [] ∧
    AccessesOk (Wret.active .always) (fun t => Wret.access t 0 (Wret.thr t).sp 4 false true) ∧
    ∀ x ∈ (retReads (Wret.active .always) Wret).1, Wret.targetBits x.1 false x.2 = 0 :=
  ⟨admits_of (by decide +kernel), by decide +kernel, acc_of (by decide +kernel), by decide +kernel⟩

theorem W_undisturbed : W.Undisturbed (W.active .always) := by unfold State.Undisturbed; decide +kernel

/-- EXIT and TRAP: see `W_undisturbed` and `witness_plainForms`; the group has an active thread, and none of its closings is held. -/
theorem witness_active : W.active .always ≠ [] ∧ ∀ t ∈ W.active .always, W.endHeld (W.active .always) t = none := by decide +kernel

/-- LD and ST at [w2]. -/
theorem witness_loadStore : let h := hd (.v 2) (.v 4) (.v 0) (.v 0) .b32
    let h' := hd (.v 0) (.v 4) (.v 6) (.v 0) .b64
    Wm.Admits { d := dstK h.ty, a := .addr } h ∧ AccessesOk (Wm.active h.pred) (Wm.memAcc h 16 0) ∧
      Wm.Admits { a := .addr, b := srcK h'.ty } h' ∧ AccessesOk (Wm.active h'.pred) (Wm.memAcc h' 16 1) ∧
      Wm.LoadsClear (Wm.active h'.pred) (Wm.memAcc h' 16 1) ∧ Wm.racesArmed = false :=
  ⟨admits_of (by decide +kernel), acc_of (by decide +kernel), admits_of (by decide +kernel), acc_of (by decide +kernel),
    by unfold State.LoadsClear; decide +kernel, by decide +kernel⟩

/-- `Wm` with a load of the thread on its way from the bytes that the ST writes. -/
def Wbusy : State := { Wm with loads := [{ thread := probeRef, dst := 4, ty := .b32, pieces := [[36]] }] }

theorem witness_storeWaits : let h := hd (.v 0) (.v 4) (.v 6) (.v 0) .b64
    Wbusy.Admits { a := .addr, b := srcK h.ty } h ∧ AccessesOk (Wbusy.active h.pred) (Wbusy.memAcc h 16 1) ∧
      ∃ t ∈ Wbusy.active h.pred, Wbusy.loadBusy t (Wbusy.memAcc h 16 1 t).locs = true :=
  ⟨admits_of (by decide +kernel), acc_of (by decide +kernel), probeRef, by decide +kernel, by decide +kernel⟩

def atomMetB (A : AtomArm) : Bool :=
  admitsB Wm { d := dstK A.h.ty, a := .addr, b := srcK A.h.ty, c := A.c } A.h &&
    ((Wm.active A.h.pred).all fun t => accB (Wm.memAcc A.h A.x.off 2 t)) &&
    ((Wm.active A.h.pred).all fun t => !Wm.loadBusy t (Wm.memAcc A.h A.x.off 2 t).locs) &&
    (Wm.active A.h.pred).all fun t => Wm.detMay ((Wm.active A.h.pred).filter (· ≠ t)) true t

/-- The atomics, each at [w2 + 8]. -/
theorem witness_atomArms : ∀ i ∈ those atomArms wordsMem, ∃ A, atomArms i = some A ∧
    Wm.Admits { d := dstK A.h.ty, a := .addr, b := srcK A.h.ty, c := A.c } A.h ∧
    AccessesOk (Wm.active A.h.pred) (Wm.memAcc A.h A.x.off 2) ∧
    Wm.LoadsClear (Wm.active A.h.pred) (Wm.memAcc A.h A.x.off 2) ∧ Wm.AllMay (Wm.active A.h.pred) true := fun i hi => by
  obtain ⟨A, h, k⟩ := met_arm (ok := atomMetB) (by decide +kernel : met atomArms atomMetB (those atomArms wordsMem) = true) i hi
  simp only [atomMetB, Bool.and_eq_true] at k
  exact ⟨A, h, admits_of k.1.1.1, acc_of k.1.1.2, fun t ht => by simpa using List.all_eq_true.1 k.1.2 t ht,
    fun t ht => List.all_eq_true.1 k.2 t ht⟩

theorem witness_atomTables : (those atomArms wordsMem).length = 9 := by decide +kernel

/-- One thread's atomic at [w2 + 8], whose 4 bytes are distinct, in a launch without journal and race reports. -/
theorem witness_atomicOfOneThread : let h := hd (.v 2) (.v 4) (.v 6) (.v 0) .i32
    Plain Wm probeRef ∧ Wm.memAcc h 8 2 probeRef = .ok [24, 25, 26, 27] ∧ [24, 25, 26, 27].Nodup ∧
      [24, 25, 26, 27].length = tyBytes h.ty := by
  unfold Plain; decide +kernel

/-! ### Effects, masks, sets, barriers, rendezvous points -/

/-- What an instruction makes of a state, with the group standing as before. -/
def after (i : Instr) (s : State) : State :=
  match exec i s with
  | .next t => { t with cur := s.cur }
  | _ => s

def isGo : Plan → Bool
  | .go _ => true
  | _ => false

def goesB (s : State) (act : List TRef) (plan : TRef → State → Plan × State) : Bool := (s.plans plan act).1.all isGo

theorem goes_map : ∀ ps : List Plan, ps.all isGo = true → ∃ es : List (State → State), ps = es.map Plan.go
  | [], _ => ⟨[], rfl⟩
  | .go e :: ps, k => by
    obtain ⟨es, h⟩ := goes_map ps (by simpa [isGo] using k)
    exact ⟨e :: es, by rw [h]; rfl⟩
  | .wait _ :: _, k => by simp [isGo] at k
  | .fault .. :: _, k => by simp [isGo] at k

theorem goes_of {s : State} {act : List TRef} {plan : TRef → State → Plan × State} (k : goesB s act plan = true) :
    ∃ es s', PlansGo s act plan es s' := by
  obtain ⟨es, h⟩ := goes_map _ k
  exact ⟨es, (s.plans plan act).2, Prod.ext h rfl⟩

/-- A HPUSH whose targets are the words at 4 and 8 from it. -/
def hHpush : Hdr := { hN with a := .lit, lit := some 0x0000000800000004 }

theorem witness_hpush :
    Wm.Admits { a := .litOnly, userOnly := true, feat := none, priv := decide ((0x120#12).toNat < 0x100)
                handlers := some (hHpush.lit.getD 0) } hHpush ∧
      ∃ es s', PlansGo Wm (Wm.active .always) (State.planHpush (hlen hHpush) 0x120 false (hHpush.lit.getD 0)) es s' :=
  ⟨admits_of (by decide +kernel), goes_of (by decide +kernel)⟩

/-- `Wm` after that HPUSH, and after a PERFORM of its effect. -/
def Whp : State := after (.hpush hHpush 0x120 false) Wm
def Wpf : State := after (.perform hN 0x120) Whp

theorem witness_hend : Whp.Admits { userOnly := true } hN ∧
    ∃ es s', PlansGo Whp (Whp.active .always) (State.planHend 12) es s' := ⟨admits_of (by decide +kernel), goes_of (by decide +kernel)⟩

theorem witness_perform : Whp.Admits { userOnly := true, count := 10 } hN ∧
    ∃ es s', PlansGo Whp (Whp.active .always) (State.planPerform 12 0x120) es s' :=
  ⟨admits_of (by decide +kernel), goes_of (by decide +kernel)⟩

def hResume : Hdr := hd (.v 0) (.v 8) (.int 17) (.v 0) .b32

theorem witness_resume : Wpf.Admits { userOnly := true, a := .reg, b := .src } hResume ∧
    ∃ es s', PlansGo Wpf (Wpf.active .always) (State.planResume hResume) es s' := ⟨admits_of (by decide +kernel), goes_of (by decide +kernel)⟩

theorem witness_abort : ∃ es s', PlansGo Wpf (Wpf.active .always) (State.planAbort hResume) es s' := goes_of (by decide +kernel)

/-- The handler stack of one thread: room for an entry, an entry on top that is visible, and one that PERFORM finds. -/
theorem witness_handlerStack : (Wm.thr probeRef).held.length < 8 ∧
    accB (Wm.access probeRef 1 ((Wm.thr probeRef).sp - 32) 32 false true) = true ∧
    (∃ a, (Whp.thr probeRef).held = [a] ∧ a.run = false ∧ visible a [] = true ∧ a.many = false) ∧ (Whp.thr probeRef).deep = [] ∧
    findVisible 0x120 (Whp.thr probeRef).held = some 0 ∧ (Whp.thr probeRef).sp.toNat % 16 = 0 :=
  ⟨by decide +kernel, by decide +kernel, ⟨(Whp.thr probeRef).held.headD {}, by decide +kernel⟩, by decide +kernel, by decide +kernel,
    by decide +kernel⟩

/-- `Wm` with 4 KiB of stack, after a HPUSH of a MANY handler; after the PERFORM that dispatches to it; and after the RESUME that
enters its copy. -/
def WhpMany : State := after (.hpush hHpush 0x120 true) (Wm.updThr probeRef fun th => { th.setSp (th.stackB + 4096) with stackS := 4096 })
def WpfMany : State := after (.perform hN 0x120) WhpMany
def WrsMany : State := after (.resume hResume) WpfMany

/-- The top entry of the thread, and the locations of a stack access that passes. -/
def topOf (s : State) : HEntry := (s.thr probeRef).held.headD {}
def stackLocs (s : State) (kind : Nat) (va : DWord) (n : Nat) (u : StackUse) : List Nat := (s.stackAccess probeRef kind va n u).locs

/-- PERFORM finds a MANY handler on top, its capture can be stored, and its segment can be read. -/
theorem witness_performMany : let P := (WhpMany.thr probeRef).sp
    let e := topOf WhpMany
    let seg : Int := (e.hsp.toNat : Int) - P.toNat
    let cap := vaOf ((P.toNat : Int) - 528 - seg)
    (WhpMany.thr probeRef).deep = [] ∧ (WhpMany.thr probeRef).held = [e] ∧ findVisible 0x120 [e] = some 0 ∧ e.many = true ∧ seg ≤ 4096 ∧
      WhpMany.stackAccess probeRef 1 cap (528 + seg.toNat) .sp = .ok (stackLocs WhpMany 1 cap (528 + seg.toNat) .sp) ∧
      WhpMany.loadBusy probeRef (stackLocs WhpMany 1 cap (528 + seg.toNat) .sp) = false ∧
      WhpMany.stackAccess probeRef 0 P seg.toNat .sp = .ok (stackLocs WhpMany 0 P seg.toNat .sp) := by decide +kernel

/-- HEND in the copy of a continuation: the resume record's address and the record can be read. -/
theorem witness_copyEnd : let e := topOf WrsMany
    let va := vaOf (e.cap + 520)
    let b := WrsMany.peek probeRef va (stackLocs WrsMany 0 va 8 .bytes)
    let RR := BitVec.ofNat 64 (bytesToNat b.1)
    (WrsMany.thr probeRef).held = [e] ∧ e.run = true ∧ e.act = true ∧
      WrsMany.stackAccess probeRef 0 va 8 .bytes = .ok (stackLocs WrsMany 0 va 8 .bytes) ∧
      b.2.stackAccess probeRef 0 RR 520 .bytes = .ok (stackLocs b.2 0 RR 520 .bytes) ∧
      probeRef ∈ tkeys WrsMany.threads ∧ (WrsMany.thr probeRef).level = 0 := by decide +kernel

/-- RESUME of a ONCE token, and ABORT, with the token that PERFORM gave. -/
theorem witness_namesOnce : Names (Wpf.thr probeRef) ((Wpf.rd probeRef 0 none).r32 (.v 8)) 0 (topOf Wpf) ∧ (topOf Wpf).many = false ∧
    probeRef ∈ tkeys Wpf.threads := by
  unfold Names; decide +kernel

/-- RESUME of a MANY token: its three accesses pass, and no load of the thread's own is on its way from what it stores. -/
theorem witness_namesMany : let e := topOf WpfMany
    let n := e.seg.toNat
    let RR : Int := ((WpfMany.thr probeRef).sp.toNat : Int) - 528
    Names (WpfMany.thr probeRef) ((WpfMany.rd probeRef 0 none).r32 (.v 8)) 0 e ∧ e.many = true ∧
      WpfMany.stackAccess probeRef 1 (vaOf (RR - n)) (528 + n) .sp = .ok (stackLocs WpfMany 1 (vaOf (RR - n)) (528 + n) .sp) ∧
      WpfMany.loadBusy probeRef (stackLocs WpfMany 1 (vaOf (RR - n)) (528 + n) .sp) = false ∧
      WpfMany.stackAccess probeRef 1 (vaOf (e.cap + 520)) 8 .bytes = .ok (stackLocs WpfMany 1 (vaOf (e.cap + 520)) 8 .bytes) ∧
      WpfMany.loadBusy probeRef (stackLocs WpfMany 1 (vaOf (e.cap + 520)) 8 .bytes) = false ∧
      WpfMany.stackAccess probeRef 0 (vaOf e.cap) (528 + n) .bytes = .ok (stackLocs WpfMany 0 (vaOf e.cap) (528 + n) .bytes) := by
  unfold Names; decide +kernel

/-- `Wm` with the thread enrolled in every mask, and its wave in set 7. -/
def Wx : State :=
  ({ Wm with waves := Wm.waves.map fun w => (w.1, { w.2 with k := Vector.replicate 16 { enr := 1 } }) } : State).updLaunch 1 fun l =>
    { l with sets := [(7, [0])] }

theorem witness_masks : Wx.Admits {} hN ∧ Wx.Admits { disps := [4 * (1#24).toInt] } hN ∧
    Wx.Admits { a := .sconst } (hd (.v 0) (.int 15) (.v 0) (.v 0) .b32) ∧
    Wx.Admits { a := .sconstW } (hd (.v 0) (.s 2) (.v 0) (.v 0) .b64) ∧ Wx.Admits { d := .dst } (hd (.v 4) (.v 0) (.v 0) (.v 0) .b32) ∧
    MaskOk Wx 3 .always (.waitj hN 3) ∧ MaskOk Wx 3 .always (.kmovBallot hN 5 3 2 false) ∧ Wx.Undisturbed (Wx.active .always) ∧
    Wx.GroupOk := by
  refine ⟨admits_of (by decide +kernel), admits_of (by decide +kernel), admits_of (by decide +kernel), admits_of (by decide +kernel),
    admits_of (by decide +kernel), ?_, ?_, ?_, ?_⟩
  · unfold MaskOk; decide +kernel
  · unfold MaskOk; decide +kernel
  · unfold State.Undisturbed; decide +kernel
  · unfold State.GroupOk; decide +kernel

def maskMetB (i : Instr) (A : MaskArm) : Bool :=
  admitsB Wx A.need A.h && Wx.cur.threads.all fun t => (Wx.maskFault A.k.toNat i (Wx.active A.h.pred) t).isNone

theorem witness_maskArms : ∀ i ∈ those maskArms wordsXln, ∃ A, maskArms i = some A ∧ Wx.Admits A.need A.h ∧
    MaskOk Wx A.k.toNat A.h.pred i := fun i hi => by
  have := List.all_eq_true.1 (by decide +kernel : ((those maskArms wordsXln).all fun i => met maskArms (maskMetB i) [i]) = true) i hi
  obtain ⟨A, h, k⟩ := met_arm this i (by simp)
  simp only [maskMetB, Bool.and_eq_true] at k
  exact ⟨A, h, admits_of k.1, fun t ht => by simpa using List.all_eq_true.1 k.2 t ht⟩

theorem witness_maskTables : ((those maskArms wordsXln).map fun i => match i with
    | .redux .. => 0
    | _ => 1).sum = 9 := by decide +kernel

def hRedux : Hdr := hd (.v 8) (.v 2) (.v 0) (.v 0) .i32

theorem witness_reduxSet : Wx.Admits { d := cdstK .i32, a := srcK .i32, feat := f64Feat .i32 } hRedux ∧
    (∀ t ∈ Wx.active .always, Wx.setEmpty 7 t = false) ∧ SetOk Wx (fun _ => 7) .always (.reduxSet hRedux 7 .add) := by
  refine ⟨admits_of (by decide +kernel), by decide +kernel, ?_⟩
  unfold SetOk; decide +kernel

/-- A collective all of whose enrolled lanes have arrived. -/
def Wcoll : State := Wx.updMask probeRef 3 fun m => { m with arr := 1, rec_ := some { pc := 0, instr := .waitj hN 3, vals := [] } }

theorem witness_collective : (Wcoll.mask probeRef 3).arr ≠ 0 ∧
    (Wcoll.mask probeRef 3).enr &&& ~~~(Wcoll.mask probeRef 3).arr = 0 ∧
    ∃ r, (Wcoll.mask probeRef 3).rec_ = some r ∧ ∀ h kd kp pb pbn, r.instr ≠ .kmovBallot h kd kp pb pbn :=
  ⟨by decide +kernel, by decide +kernel, { pc := 0, instr := .waitj hN 3, vals := [] }, by decide +kernel, by intros; simp⟩

/-- KMOV.ballot: mask 5 takes the ballot of the arrivals at mask 3. -/
def Wballot : State := Wx.updMask probeRef 3 fun m =>
  { m with arr := 1, rec_ := some { pc := 0, instr := .kmovBallot hN 5 3 2 false, vals := [(0, 1, 0, true)] } }

theorem witness_ballot : (Wballot.mask probeRef 3).arr ≠ 0 ∧ (Wballot.mask probeRef 3).enr &&& ~~~(Wballot.mask probeRef 3).arr = 0 ∧
    (Wballot.mask probeRef 3).rec_ = some { pc := 0, instr := .kmovBallot hN 5 3 2 false, vals := [(0, 1, 0, true)] } ∧
    (probeRef.lid, probeRef.wg, probeRef.wave) ∈ tkeys Wballot.waves ∧
    (([(0, 1, 0, true)] : List Lane).map fun x => x.1).Nodup := by decide +kernel

theorem witness_barriers : Wx.Admits {} hN ∧ Wx.Undisturbed (Wx.active .always) ∧ Wx.copying (wgsOf (Wx.active .always)) = false ∧
    Wx.AllMay (Wx.active .always) false ∧ (∀ t ∈ Wx.active .always, Wx.setEmpty 7 t = false) ∧
    (∀ t ∈ Wx.active .always, Wx.inSet 7 t = true) := by
  refine ⟨admits_of (by decide +kernel), ?_, by decide +kernel, ?_, by decide +kernel, by decide +kernel⟩
  · unfold State.Undisturbed; decide +kernel
  · unfold State.AllMay; decide +kernel

def hPoint : Hdr := hd (.v 3) (.int 17) (.v 0) (.v 0) .b32

theorem witness_points : Wx.Admits { feat := some 8, a := .src } (hd (.v 0) (.int 17) (.v 0) (.v 0) .b32) ∧
    (∀ t ∈ Wx.active .always, (Wx.point t 5).init = false ∧
      1 ≤ ((Wx.rd t 0 none).r32 (.int 17)).toNat ∧ ((Wx.rd t 0 none).r32 (.int 17)).toNat ≤ 4096 ∧
      ((Wx.active .always).filter fun u => u.lid == t.lid && (Wx.wgOf u).inst == (Wx.wgOf t).inst).length ≤ 1) ∧
    Wx.Admits { feat := some 8, d := .dst } (hd (.v 3) (.v 0) (.v 0) (.v 0) .b32) :=
  ⟨admits_of (by decide +kernel), by decide +kernel, admits_of (by decide +kernel)⟩

/-- A watchdog that has counted its time, with a thread waiting at the point. -/
def Wdog : State :=
  (Wx.updThr probeRef fun th => { th with wait := .rwait 5 false false .module }).updPoint probeRef 5 fun p =>
    { p with init := true, count := 2, wd := 2 ^ 27 }

theorem witness_watchdog : Wdog.watchdogDue 1 0 5 = true := by decide +kernel

/-- A barrier where the thread has arrived, and one where another has. -/
def Wbar : State := Wx.updWg 1 0 fun g => { g with bar := [(probeRef, none)] }
def Wbar' : State := Wx.updWg 1 0 fun g => { g with bar := [({ probeRef with lane := 1 }, none)] }

theorem witness_barrierCompletes : (1, 0) ∈ tkeys Wbar.wgs ∧ (Wbar.wg 1 0).bar ≠ [] ∧ (∀ a ∈ (Wbar.wg 1 0).bar, a.2 = none) ∧
    (∀ t ∈ Wbar.wgLive 1 0, t ∈ ((Wbar.wg 1 0).bar).map Prod.fst) ∧ (1, 0) ∈ tkeys Wbar'.wgs ∧ (Wbar'.wg 1 0).bar ≠ [] ∧
    (∀ a ∈ (Wbar'.wg 1 0).bar, a.2 = none) ∧ ∃ t ∈ Wbar'.wgLive 1 0, t ∉ ((Wbar'.wg 1 0).bar).map Prod.fst := by decide +kernel

/-! ### Tasks, standing programs, scratch -/

def hInt (k : Nat) : Operand := .int (BitVec.ofNat 5 (16 + k))

/-- `Wm` as a task launch, at a word that leaves room for a child at 4. -/
def Wt : State := Wm.updLaunch 1 fun l => { l with kind := .task }

def hSpawn : Hdr := hd (.v 0) (hInt 2) (.v 3) (.v 0) .b32

theorem witness_spawn : Wt.Admits { a := .src, b := .src, c := .unused, disps := [4 * (1#20).toInt] } hSpawn ∧
    NoneFaults (Wt.active .always) (Wt.spawnFault hSpawn false) ∧ Wt.AllMay (Wt.active .always) false := by
  refine ⟨admits_of (by decide +kernel), ?_, ?_⟩
  · unfold NoneFaults; decide +kernel
  · unfold State.AllMay; decide +kernel

theorem witness_fetch : W.Admits { d := .dstW } (hd (.v 2) (.v 0) (.v 0) (.v 0) .b32) ∧ probeRef.lid ∈ tkeys W.launches ∧
    (W.launchOf probeRef).nextTile 0 = some 0 ∧
    ((W.updLaunch 1 fun l => { l with tileNext := 1 }).launchOf probeRef).nextTile 0 = none :=
  ⟨admits_of (by decide +kernel), by decide +kernel, by decide +kernel, by decide +kernel⟩

/-- The words at 16 are no LAUNCH packet: the launch made of them ends at once, with its status. -/
theorem witness_launch : let h := hd (.v 6) (.v 4) (.v 0) (.v 0) .b32
    Wm.idGen.getLsbD 0 = false ∧ Wm.Admits { d := .dstW, a := .regW } h ∧ Wm.TurnsOpen (Wm.active .always) ∧
      ∃ es s', PlansGo Wm (Wm.active .always) (State.planLaunch h) es s' :=
  ⟨by decide +kernel, admits_of (by decide +kernel), by unfold State.TurnsOpen; decide +kernel, goes_of (by decide +kernel)⟩

/-- `Wm` under deterministic operation, its workgroup in unit 1, while the turn is unit 0's. -/
def Wlate : State := (Wm.updLaunch 1 fun l => { l with det := 1 }).updWg 1 0 fun g => { g with inst := 1 }

theorem witness_launchLate : Wlate.idGen.getLsbD 0 = false ∧
    Wlate.Admits { d := .dstW, a := .regW } (hd (.v 6) (.v 4) (.v 0) (.v 0) .b32) ∧ ¬Wlate.TurnsOpen (Wlate.active .always) := by
  refine ⟨by decide +kernel, admits_of (by decide +kernel), ?_⟩
  unfold State.TurnsOpen; decide +kernel

/-- A wave of 32 registers with a claim of 64 at the head of its workgroup's claims, and lines in the pool. -/
def Wclaim : State :=
  ((W.updThr probeRef fun th => { th with wait := .rclaim 64 }).updWg 1 0 fun g => { g with claims := [probeRef], pool := 100 }).updWave
    probeRef fun w => { w with c := 32 }

theorem witness_claims : Wclaim.claimDue 1 0 0 = some (probeRef, 64) ∧ (Wclaim.wave probeRef).c = 32 ∧
    (1, 0, 0) ∈ tkeys Wclaim.waves ∧ (1, 0) ∈ tkeys Wclaim.wgs ∧ (Wclaim.waveThreads probeRef).Nodup ∧
    probeRef ∈ Wclaim.waveThreads probeRef ∧ probeRef ∈ tkeys Wclaim.threads := by decide +kernel

/-- A standing program of one brick, in flight for the workgroup's update, with an iterate entry; in slot 0. -/
def prog1 : Prog :=
  { dies := [{ die := 0, bricks := [{ st := 2, res := 3 }, { st := 0 }], iter := some 0 }], tau := 5 }

def Wp : State :=
  ({ Wm with dies := vupd Wm.dies 0 fun d =>
      { d with pubs := [(0, { pub := 0x10000, v0 := 0x20000, v1 := 0x30000, size := 4096, ctx := 1, prog := some 1 })] } } : State).updWg
    1 0 (fun g => { g with brick := some 0 }) |>.updLaunch 1 fun l => { l with kind := .standing, prog := some prog1 }

theorem Wp_groupOk : Wp.GroupOk := by unfold State.GroupOk; decide +kernel

def hStd : Hdr := hd (.v 0) (hInt 0) (.v 3) (.v 0) .b32
def hStdC : Hdr := hd (.v 0) (hInt 0) (.v 3) (hInt 0) .b32

theorem witness_resid : Wp.Admits { a := .src, b := .src, c := .unused, feat := some 9 } hStd ∧
    Wp.Admits { a := .src, b := .src, c := .src, feat := some 9 } hStdC ∧
    NoneFaults (Wp.active .always) (Wp.stdFault hStd true fun p t =>
      if (p.brick? ((Wp.rd t 0 none).r32 (hInt 0)).toNat).isNone then some (brickFlt ((Wp.rd t 0 none).r32 (hInt 0)) 1) else none) ∧
    NoneFaults (Wp.active .always) (Wp.stdFault hStdC false fun p t =>
      if (p.brick? ((Wp.rd t 0 none).r32 (hInt 0)).toNat).isNone then some (brickFlt ((Wp.rd t 0 none).r32 (hInt 0)) 1) else none) ∧
    Wp.TurnsOpen (Wp.active .always) := by
  refine ⟨admits_of (by decide +kernel), admits_of (by decide +kernel), ?_, ?_, by unfold State.TurnsOpen; decide +kernel⟩
  · unfold NoneFaults; decide +kernel
  · unfold NoneFaults; decide +kernel

theorem witness_residm : Wp.Admits { b := .src, feat := some 9 } (hd (.v 0) (.v 0) (.v 3) (.v 0) .b32) ∧
    NoneFaults (Wp.active .always) (Wp.stdFault hN true fun _ _ => none) := by
  refine ⟨admits_of (by decide +kernel), ?_⟩
  unfold NoneFaults; decide +kernel

theorem witness_brkdone : let h := hd (.v 0) (hInt 0) (.v 0) (.v 0) .b32
    Wp.Admits { a := .src, feat := some 9 } h ∧
    NoneFaults (Wp.active h.pred) (Wp.stdFault h true fun p t =>
      if (match p.brick? ((Wp.wgOf t).brick.getD 0) with
          | some b => b.st == 2
          | none => false) && !(Wp.wgOf t).brkDone && (before (Wp.active h.pred) t).isEmpty
      then none else some (brickFlt (w32 ((Wp.wgOf t).brick.getD 0)) 3)) ∧
    ∀ t ∈ Wp.active h.pred, Wp.slotHeld none t.lid ((Wp.wgOf t).brick.getD 0) = none := by
  refine ⟨admits_of (by decide +kernel), ?_, by decide +kernel⟩
  unfold NoneFaults; decide +kernel

/-- Under deterministic operation an update's BRKDONE is held until the update ends. -/
theorem witness_brkdoneLate : ∀ t ∈ (Wp.updLaunch 1 fun l => { l with det := 1 }).active .always,
    ((Wp.updLaunch 1 fun l => { l with det := 1 }).launchOf t).det ≠ 0 ∧
      ((Wp.updLaunch 1 fun l => { l with det := 1 }).wgOf t).brick.isSome = true := by decide +kernel

theorem witness_ldit : let h := hd (.v 10) (hInt 0) (hInt 1) (.v 0) .b32
    Wp.Admits { d := .dstN 6, a := .src, b := .src, feat := some 9 } h ∧
      ∃ es s', PlansGo Wp (Wp.active h.pred) (State.planLdit h) es s' :=
  ⟨admits_of (by decide +kernel), goes_of (by decide +kernel)⟩

theorem witness_brkinfo : Wp.Admits { d := .dstW, feat := some 9 } (hd (.v 2) (.v 0) (.v 0) (.v 0) .b32) ∧
    ∀ t ∈ Wp.active .always, (Wp.wgOf t).brick ≠ none := ⟨admits_of (by decide +kernel), by decide +kernel⟩

theorem witness_bricks : prog1.brick? 0 = some { st := 2, res := 3 } ∧ prog1.brick? 1 = some { st := 0 } := by decide +kernel

/-- Contributions, an absorbed input, and a program that has become quiet. -/
def Wcon : State := { Wp with contribs := [{ prog := 1, brick := 1, m := 9 }] }

theorem witness_contribution : Wcon.contribs[0]? = some { prog := 1, brick := 1, m := 9 } ∧ Wcon.progLive 1 = some prog1 ∧
    Wcon.contribMay 0 { prog := 1, brick := 1, m := 9 } prog1 = true := by decide +kernel

def Winp : State := Wp.updProg 1 fun p => { p with inputs := [{ seq := 4 }] }

theorem witness_iseq : (∃ p xs, Winp.progLive 1 = some p ∧ p.inputs = { seq := 4 } :: xs) ∧
    (Winp.ctx (Winp.launch 1).ctx).out = false ∧ ∀ c ∈ Winp.contribs, ¬(c.prog = 1 ∧ c.inp = some 4) :=
  ⟨⟨{ prog1 with inputs := [{ seq := 4 }] }, [], by decide +kernel⟩, by decide +kernel, by decide +kernel⟩

def Wquiet : State :=
  (Wp.updProg 1 fun p => { p with dies := [{ die := 0, bricks := [{ st := 0 }], iter := some 0 }] }).updWg 1 0 fun g => { g with st := .ended }

/-- A program that has become quiet; and one of which an update is in flight. -/
theorem witness_findQuiet : (∃ p, Wquiet.prog 1 = some p ∧ p.state ≠ 2 ∧ p.quiescent = false ∧ (Wquiet.launch 1).serialRun = false ∧
    Wquiet.quiet 1 p = true) ∧ ∃ p, Wp.prog 1 = some p ∧ Wp.quiet 1 p = false :=
  ⟨⟨{ prog1 with dies := [{ die := 0, bricks := [{ st := 0 }], iter := some 0 }] }, by decide +kernel⟩, prog1, by decide +kernel⟩

/-- A record has been taken and not yet written; and a stopping program of which no update is in flight. -/
def Wdue : State := Wquiet.updProg 1 fun p => { p with due := [[1, 2, 3]] }
def Wlast : State := Wquiet.updProg 1 fun p => { p with state := 1 }

theorem witness_convergence : (∃ p, Wdue.progLive 1 = some p ∧ p.due = [[1, 2, 3]] ∧ (Wdue.launch 1).serialRun = false ∧
      Wdue.ctxBlocked (((p.dies.head?).map ProgDie.die).getD 0) (Wdue.launch 1).ctx .queueUnit = false) ∧
    ∃ p, Wlast.progLive 1 = some p ∧ p.due = [] ∧ p.state = 1 ∧ Wlast.inFlight 1 = false ∧ (Wlast.launch 1).serialRun = false ∧
      Wlast.ctxBlocked (((p.dies.head?).map ProgDie.die).getD 0) (Wlast.launch 1).ctx .queueUnit = false :=
  ⟨⟨(Wdue.prog 1).getD prog1, by decide +kernel⟩, (Wlast.prog 1).getD prog1, by decide +kernel⟩

/-- `Wm` with private scratch, a cluster and a die buffer held by the workgroup, a free and a given one; pointers in w2 (core), w4
(cluster) and w5 (die). -/
def Wsc : State :=
  (({ Wm with dies := vupd Wm.dies 0 fun d =>
      { d with bufs := [(1, { size := 4096, lvl := .cluster, st := .held, ctx := 1, hold := .wg 1 0, lid := some 1 }),
                        (2, { size := 4096, lvl := .die, st := .held, ctx := 1, hold := .wg 1 0, lid := some 1 }),
                        (3, { size := 4096, lvl := .die, st := .given, ctx := 1, target := .wg 1 0, lid := some 1 }),
                        (4, { size := 4096, lvl := .die, st := .free, ctx := 1, lid := some 9 })] } } : State).updLaunch 1 fun l =>
    { l with hdr := { l.hdr with cscratch := 1024 } }).updThr probeRef fun th =>
      (((((th.setV 8 16).setV 9 1).setV 10 32).setV 11 2).setV 12 0x00020004).setV 14 64

theorem Wsc_groupOk : Wsc.GroupOk := by unfold State.GroupOk; decide +kernel

/-- What an answer holds. -/
def okB {ε α : Type} (x : Except ε α) : Bool :=
  match x with
  | .ok _ => true
  | .error _ => false

def okOr {ε α : Type} (d : α) (x : Except ε α) : α :=
  match x with
  | .ok a => a
  | .error _ => d

theorem ok_of {ε α : Type} {d : α} {x : Except ε α} (k : okB x = true) : x = .ok (okOr d x) := by
  cases x with
  | ok a => rfl
  | error e => cases k

/-- The access of a thread. -/
def scAt (h : Hdr) (lv : Lvl) (write : Bool) (t : TRef) : Place × Nat := okOr (.core 0 0, 0) (Wsc.scAcc h 0 lv write t)

def scOkB (h : Hdr) (lv : Lvl) (write : Bool) : Bool :=
  (Wsc.active h.pred).all fun t => okB (Wsc.scAcc h 0 lv write t) &&
    !Wsc.scBusy t write (scAt h lv write t).1 (scAt h lv write t).2 (tyBytes h.ty)

theorem scOk_of {h : Hdr} {lv : Lvl} {write : Bool} (k : scOkB h lv write = true) :
    ScratchOk Wsc h 0 lv write (Wsc.active h.pred) (scAt h lv write) := by
  intro t ht
  have := List.all_eq_true.1 k t ht
  rw [Bool.and_eq_true] at this
  exact ⟨ok_of this.1, by simpa using this.2⟩

/-- A load and a store at each level. -/
theorem witness_scratch : ∀ x ∈ [(Operand.v 4, Lvl.core), (.v 8, .cluster), (.v 10, .die)],
    let h := hd (.v 2) x.1 (.v 0) (.v 0) .b32
    let h' := hd (.v 0) x.1 (.v 6) (.v 0) .b64
    Wsc.Admits { d := dstK h.ty, a := .addr } h ∧ ScratchOk Wsc h 0 x.2 false (Wsc.active h.pred) (scAt h x.2 false) ∧
      Wsc.Admits { a := .addr, b := srcK h'.ty } h' ∧ ScratchOk Wsc h' 0 x.2 true (Wsc.active h'.pred) (scAt h' x.2 true) := by
  intro x hx
  rw [List.mem_cons, List.mem_cons, List.mem_singleton] at hx
  obtain rfl | rfl | rfl := hx <;>
    exact ⟨admits_of (by decide +kernel), scOk_of (by decide +kernel), admits_of (by decide +kernel), scOk_of (by decide +kernel)⟩

/-- A tile slot that does not drain. -/
def Wslot : State := Wsc.updWg 1 0 fun g => { g with slots := [(0, {})] }

theorem witness_places : PlaceLive Wslot (.core 1 0) ∧ PlaceLive Wslot (.slot 1 0 0) ∧ PlaceLive Wslot (.buf 0 2) := by
  refine ⟨?_, ⟨?_, {}, ?_⟩, ?_⟩
  · unfold PlaceLive; decide +kernel
  · decide +kernel
  · decide +kernel
  · unfold PlaceLive; decide +kernel

def hTmov : Hdr := hd (.v 0) (.v 10) (.v 4) (.v 12) .b32

def mvOf (t : TRef) : Move :=
  okOr { thread := t, dst := .core 0 0, dOff := 0, dPitch := 0, src := .core 0 0, sOff := 0, sPitch := 0, rlen := 0, rows := 0 }
    (Wsc.tmovOf hTmov ⟨.die, .core, 0, 0⟩ t)

theorem Wsc_active : Wsc.active .always = [probeRef] := by decide +kernel

/-- A TMOV of two rows of four bytes from the core to the die buffer; and a copy that runs. -/
theorem witness_tmov : Wsc.Admits { a := .addr, b := .addr, c := .src } hTmov ∧
    (∀ t ∈ Wsc.active .always, Wsc.tmovOf hTmov ⟨.die, .core, 0, 0⟩ t = .ok (mvOf t) ∧ Wsc.moveBusy (mvOf t) = false) ∧
    ({ Wsc with moves := [mvOf probeRef] } : State).moves[0]? = some (mvOf probeRef) := by
  refine ⟨admits_of (by decide +kernel), ?_, rfl⟩
  rw [Wsc_active]
  intro t ht
  rw [List.mem_singleton] at ht
  subst ht
  exact ⟨ok_of (by decide +kernel), by decide +kernel⟩

/-! ### Ownership, tiles, order, queues -/

def ownGoesB (len : Nat) (act1 : TRef → State → OwnRes) : List TRef → State → Bool
  | [], _ => true
  | t :: ts, s => match act1 t s with
    | .done s1 => ownGoesB len act1 ts (s1.retireBound len t)
    | _ => false

theorem ownGoes_of {len : Nat} {act1 : TRef → State → OwnRes} :
    ∀ (l : List TRef) (s : State), ownGoesB len act1 l s = true → ∃ r, OwnGoes len act1 l s r
  | [], s, _ => ⟨s, rfl⟩
  | t :: ts, s, k => by
    unfold ownGoesB at k
    split at k
    · obtain ⟨r, h⟩ := ownGoes_of ts _ k
      exact ⟨r, _, ‹_›, h⟩
    · cases k

/-- A form whose A is buffer k, and whose B is 0. -/
def hBuf (k : Nat) : Hdr := hd (.v 0) (hInt k) (hInt 0) (.v 0) .b32
def hBuf1 (k : Nat) : Hdr := hd (.v 0) (hInt k) (.v 0) (.v 0) .b32

theorem witness_owngive : Wsc.Admits { a := .src, b := .src } (hBuf 2) ∧
    NoneFaults (Wsc.active .always) (fun t => Wsc.giveFault (hBuf 2) .core t) ∧ NoCopies Wsc (hBuf 2) ∧
    Wsc.AllMay (Wsc.active .always) ((Wsc.active .always).any fun t => Wsc.giveOut (hBuf 2) .core t) ∧
    ∃ r, OwnGoes 12 (fun t s => s.giveOne (hBuf 2) .core t) (Wsc.active .always) (ownBegin (hBuf 2) true Wsc) r := by
  refine ⟨admits_of (by decide +kernel), ?_, ?_, ?_, ownGoes_of _ _ (by decide +kernel)⟩
  · unfold NoneFaults; decide +kernel
  · unfold NoCopies; decide +kernel
  · unfold State.AllMay; decide +kernel

theorem witness_ownshare : Wsc.Admits { a := .src } (hBuf1 2) ∧ BufNamed Wsc (hBuf1 2) ∧ NoCopies Wsc (hBuf1 2) ∧
    Wsc.AllMay (Wsc.active .always) ((Wsc.active .always).any fun t => Wsc.shareOut (hBuf1 2) t) ∧
    ∃ r, OwnGoes 12 (fun t s => s.shareOne (hBuf1 2) t) (Wsc.active .always) (ownBegin (hBuf1 2) true Wsc) r := by
  refine ⟨admits_of (by decide +kernel), ?_, ?_, by unfold State.AllMay; decide +kernel, ownGoes_of _ _ (by decide +kernel)⟩
  · unfold BufNamed; decide +kernel
  · unfold NoCopies; decide +kernel

theorem witness_owntake : Wsc.Admits { a := .src } (hBuf1 3) ∧ BufNamed Wsc (hBuf1 3) ∧
    ∃ r, OwnGoes 12 (fun t s => s.takeOne (hBuf1 3) .workgroup false t) (Wsc.active .always) (ownBegin (hBuf1 3) false Wsc) r := by
  refine ⟨admits_of (by decide +kernel), ?_, ownGoes_of _ _ (by decide +kernel)⟩
  unfold BufNamed; decide +kernel

theorem witness_drainEnd : (Wsc.updThr probeRef fun th => { th with wait := .owntake 2 .workgroup true none }).drained probeRef =
    some (2, .workgroup) := by decide +kernel

/-- What TransfersMoveTheBuffer assumes of a buffer, for those that are HELD, GIVEN and FREE. -/
theorem witness_transfers :
    (∃ b, Wsc.bufNamed 0 1 2 = some b ∧ b.lvl ≠ .core ∧ b.st = .held ∧ Wsc.holds probeRef b = true) ∧
    (Wsc.ownTarget probeRef .core 0).isSome = true ∧ (Wsc.wgOf probeRef).die = 0 ∧ Wsc.ctxOf probeRef = 1 ∧
    (∃ b, Wsc.bufNamed 0 1 3 = some b ∧ b.lvl ≠ .core ∧ b.st = .given ∧ b.target = .wg 1 0) ∧
    (∃ b, Wsc.bufNamed 0 1 4 = some b ∧ b.lvl ≠ .core ∧ b.st = .free ∧ Wsc.mayTake probeRef b = false) ∧
    ((Wsc.rd probeRef 0 none).r32 (hInt 2)).toNat = 2 :=
  ⟨⟨(Wsc.bufNamed 0 1 2).getD {}, by decide +kernel⟩, by decide +kernel, by decide +kernel, by decide +kernel,
    ⟨(Wsc.bufNamed 0 1 3).getD {}, by decide +kernel⟩, ⟨(Wsc.bufNamed 0 1 4).getD {}, by decide +kernel⟩, by decide +kernel⟩

/-- `Wsc` with two tile slots, handle 3 live on slot 0 of shape 8 × 32 of 32 bits, handle 5 given to the wave. -/
def Wtil : State :=
  (Wsc.updWg 1 0 fun g =>
    { g with
      slots := [(0, { bound := some 3 }), (1, {})]
      h := vset (vset g.h 3 { st := .live, hold := 0, ever := true, shape := 0x00040086, slot := 0 }) 5
        { st := .given, hold := 0, target := 0, ever := true, shape := 0x00040086, slot := 0 } }).updLaunch 1 fun l =>
    { l with hdr := { l.hdr with tiles := 2 } }

def hShape : Hdr := { hN with a := .lit, lit := some 0x00040086 }

theorem Wtil_undisturbed : Wtil.Undisturbed (Wtil.active .always) := by unfold State.Undisturbed; decide +kernel

theorem witness_talloc : Wtil.Admits { a := .src } hShape ∧ TilOk Wtil hShape (State.tallocChk hShape 7) := by
  refine ⟨admits_of (by decide +kernel), ?_⟩
  unfold TilOk State.Undisturbed; decide +kernel

def Wwait : State := Wtil.updThr probeRef fun th => { th with wait := .talloc 7 0x00040086 }

theorem witness_tallocGrant : Wwait.tallocDue probeRef = some (7, 0x00040086, 1) ∧ (Wwait.handle 1 0 7).st = .dead := by decide +kernel

def hTile : Hdr := hd (.v 0) (.v 4) (hInt 0) (.v 0) .b32

theorem witness_tileMove : Wtil.Admits { a := .addr, b := .src } hTile ∧
    ∀ load : Bool, ∀ t ∈ Wtil.active .always, ∃ m, Wtil.tileMove hTile 3 .core load t = .ok m ∧
      (if load then Wtil.scBusy t false m.src m.sOff (spanOf m.rlen m.rows m.sPitch)
       else Wtil.scBusy t true m.dst m.dOff (spanOf m.rlen m.rows m.dPitch)) = false := by
  refine ⟨admits_of (by decide +kernel), fun load t ht => ?_⟩
  have h : Wtil.active .always = [probeRef] := by decide +kernel
  rw [h, List.mem_singleton] at ht
  subst ht
  cases load
  · exact ⟨okOr (mvOf probeRef) (Wtil.tileMove hTile 3 .core false probeRef), ok_of (by decide +kernel), by decide +kernel⟩
  · exact ⟨okOr (mvOf probeRef) (Wtil.tileMove hTile 3 .core true probeRef), ok_of (by decide +kernel), by decide +kernel⟩

def op1 : TileOp := { load := true, h := 3, slot := 0, mv := mvOf probeRef, stamp := 1 }

theorem witness_tileDone : ({ Wtil with tileOps := [(1, 0, op1)] } : State).tileOps[0]? = some (1, 0, op1) ∧
    (({ Wtil with tileOps := [(1, 0, op1)] } : State).wg 1 0).st ≠ .preempted ∧
    ({ Wtil with tileOps := [(1, 0, op1)] } : State).slotBlocked 1 0 op1.slot op1.load op1.stamp = false :=
  ⟨rfl, by decide +kernel, by decide +kernel⟩

theorem witness_handles : Wtil.Admits { a := .src } (hBuf1 0) ∧ TilOk Wtil (hBuf1 0) (State.tgiveChk (hBuf1 0) 3) ∧ Wtil.Admits {} hN ∧
    TilOk Wtil hN (State.ttakeChk 5) ∧ TilOk Wtil hN (State.tfreeChk 3) := by
  refine ⟨admits_of (by decide +kernel), ?_, admits_of (by decide +kernel), ?_, ?_⟩ <;>
    (unfold TilOk State.Undisturbed; decide +kernel)

theorem witness_handleLife : (1, 0) ∈ tkeys Wtil.wgs ∧ 1 ∈ tkeys (Wtil.wgOf probeRef).slots ∧ (Wtil.handle 1 0 3).st ≠ .dead ∧
    (Wtil.handle 1 0 3).slot ∈ tkeys (Wtil.wg 1 0).slots := by decide +kernel

/-- PHASE and FENCE: see `W_undisturbed` and `witness_barriers`; a release in progress; an open and a closed turn. -/
theorem witness_order : (∀ t ∈ W.active .always, W.fenceBusy t = false ∧ W.sfuOfWave t = false) ∧
    (let r : Release := { id := 1, lid := 1, wg := 0, scope := .die, stamp := 1, waiters := [probeRef], acquire := true }
     ({ W with releases := [r] } : State).releases[0]? = some r ∧ ({ W with releases := [r] } : State).runs 1 0 = true) ∧
    W.turnOpen 1 0 = true ∧
    ((W.updLaunch 1 fun l => { l with det := 2 }).updWg 1 0 fun g => { g with inst := 1 }).turnOpen 1 0 = false ∧
    (1, 0) ∈ tkeys W.wgs := by decide +kernel

/-- Queue 1 takes one word an element from core 0 and holds two elements at most; queue 2 gives them. -/
def Wq : State :=
  (Wm.updWg 1 0 fun g => { g with q := vset (vset g.q 1 { cw := 0x01010000 }) 2 { cw := 0x01010001, elems := [[1, 2, 3, 4]] } }).updLaunch 1
    fun l => { l with queues := [(1, 0x01010000), (2, 0x01010001)] }

theorem witness_qcfg : Wq.Admits { a := .srcW } { hN with a := .lit, lit := some 0x01010000 } ∧ (∀ t ∈ Wq.active .always,
    queueReason (Wq.hasFeat t 7) (Wq.launchOf t) (Wq.wgOf t).q 1 0x01010000 = none) ∧
    (Wq.rd probeRef 0 (some 0x01010000)).r64 .lit = 0x01010000 := ⟨admits_of (by decide +kernel), by decide +kernel, by decide +kernel⟩

theorem witness_pushPop : Wq.Admits { d := .dst } (hd (.v 7) (.v 0) (.v 0) (.v 0) .b32) ∧
    Wq.Admits { a := .vregs 1 } (hd (.v 0) (.v 5) (.v 0) (.v 0) .b32) ∧
    NoneFaults (Wq.active .always) (Wq.queueChk 1 true 1 (.v 5)) ∧ (∀ t ∈ Wq.active .always, Wq.copiesOf t = []) ∧
    Wq.Admits { d := .vregs 1 } (hd (.v 6) (.v 0) (.v 0) (.v 0) .b32) ∧
    NoneFaults (Wq.active .always) (Wq.queueChk 2 false 0 (.v 6)) ∧ Wq.runs 1 0 = true := by
  refine ⟨admits_of (by decide +kernel), admits_of (by decide +kernel), ?_, by decide +kernel, admits_of (by decide +kernel), ?_,
    by decide +kernel⟩ <;> (unfold NoneFaults; decide +kernel)

/-- A thread that waits to push into an empty and into a full queue, and to pop from a filled and from an empty one. -/
def Wpush (q : Nat) : State := Wq.updThr probeRef fun th => { th with wait := .push q [9, 9, 9, 9] [probeRef] }
def Wpop (q : Nat) : State := Wq.updThr probeRef fun th => { th with wait := .pop q 6 false [probeRef] }

theorem witness_queueOrder : (Wpush 1).inTurn probeRef [probeRef] = true ∧
    ((Wpush 1).queue 1 0 1).elems.length < cwDepth ((Wpush 1).queue 1 0 1).cw ∧
    (let s := (Wpush 1).updQueue 1 0 1 fun x => { x with elems := [[0, 0, 0, 0], [0, 0, 0, 0]] }
     cwDepth (s.queue 1 0 1).cw ≤ (s.queue 1 0 1).elems.length ∧ s.inTurn probeRef [probeRef] = true) ∧
    (Wpop 2).inTurn probeRef [probeRef] = true ∧ ((Wpop 2).queue 1 0 2).elems = [[1, 2, 3, 4]] ∧ ((Wpop 1).queue 1 0 1).elems = [] := by
  decide +kernel

/-! ### Nodes and entries, matrix forms -/

/-- Bytes of numbers at a place of memory. -/
def bytesAt (a : Nat) (l : List (Nat × Nat)) : List (Nat × Byte) :=
  (l.foldl (fun (acc : List (Nat × Byte) × Nat) x =>
    (acc.1 ++ (natToBytes x.1 x.2).zipIdx.map fun b => (acc.2 + b.2, b.1), acc.2 + x.1)) ([], a)).1

/-- `Wm` with page tables for its first 256 MiB, a publish descriptor at 16 and a node descriptor at 64 (which w3 names), node 0 built,
node 1 done, entry 0 of a published range, and room for more. -/
def Wg : State :=
  (({ Wm with
      contexts := [(1, { key := 1, tableBase := 0x100000, pubFirst := 0, pubCount := 4 })]
      mem := memSetAll [] (bytesAt 0x100000 [(8, 0x110003)] ++ bytesAt 0x110000 [(8, 0x10000005)] ++
        bytesAt 16 [(8, 0x10000000), (8, 0x20000), (8, 0x30000), (8, 0x10000)])
      dies := vupd Wm.dies 0 fun d =>
        { d with
          pubs := [(0, { pub := 0x20000000, v0 := 0x40000, v1 := 0x50000, size := 0x10000, ctx := 1 })]
          nodes := [((1, 0), { desc := List.replicate 16 0 }), ((1, 1), { desc := List.replicate 16 0, st := .done })] } } : State)).updThr
    probeRef fun th => th.setV 6 64

def hNode (k : Nat) : Hdr := hd (.v 3) (hInt k) (.v 0) (.v 0) .b32

theorem witness_gnode : let h := hd (.v 3) (.v 6) (.v 0) (.v 0) .b32
    Wg.Admits { d := .dst, a := .addr } h ∧ ∃ es s', PlansGo Wg (Wg.active .always) (State.planGnode h) es s' :=
  ⟨admits_of (by decide +kernel), goes_of (by decide +kernel)⟩

theorem witness_garm : Wg.Admits { a := .src } (hBuf1 0) ∧ GraphOk Wg (hBuf1 0) (State.armChk (hBuf1 0)) ∧
    GraphOk Wg (hBuf1 0) (State.sigChk (hBuf1 0)) ∧ GraphOk Wg (hBuf1 0) (State.freeChk (hBuf1 0)) ∧
    GraphOk Wg (hBuf1 0) (State.shadowFreeChk (hBuf1 0)) ∧ Wg.TurnsOpen (Wg.active .always) := by
  refine ⟨admits_of (by decide +kernel), ?_, ?_, ?_, ?_, by unfold State.TurnsOpen; decide +kernel⟩ <;>
    exact List.isEmpty_iff.1 (by decide +kernel : (checkRun _ (Wg.active .always) Wg).isEmpty = true)

/-- The same under deterministic operation, before the unit's turn. -/
def WgLate : State := (Wg.updLaunch 1 fun l => { l with det := 1 }).updWg 1 0 fun g => { g with inst := 1 }

theorem witness_garmLate : WgLate.Admits { a := .src } (hBuf1 0) ∧ ¬WgLate.TurnsOpen (WgLate.active .always) ∧
    GraphOk WgLate (hBuf1 0) (State.armChk (hBuf1 0)) ∧ GraphOk WgLate (hBuf1 0) (State.sigChk (hBuf1 0)) := by
  refine ⟨admits_of (by decide +kernel), by unfold State.TurnsOpen; decide +kernel, ?_, ?_⟩ <;>
    exact List.isEmpty_iff.1 (by decide +kernel : (checkRun _ (WgLate.active .always) WgLate).isEmpty = true)

theorem witness_gwait : Wg.Admits { d := .dst, a := .src } (hNode 1) ∧ NoneFaults (Wg.active .always) (Wg.nodeFault (hNode 1)) ∧
    Wg.AllMay (Wg.active .always) false ∧ NoneFaults (Wg.active .always) (Wg.nodeFault (hBuf1 1)) ∧
    (∀ t ∈ Wg.active .always, (Wg.launchOf t).det ≠ 2) := by
  refine ⟨admits_of (by decide +kernel), ?_, ?_, ?_, by decide +kernel⟩
  · unfold NoneFaults; decide +kernel
  · unfold State.AllMay; decide +kernel
  · unfold NoneFaults; decide +kernel

def Wgw : State := Wg.updThr probeRef fun th => { th with wait := .gwait 1 (.v 3) }

theorem witness_gwaitReturn : Wgw.runs 1 0 = true ∧ (Wgw.thr probeRef).wait.node = some 1 ∧
    ∃ n, (Wgw.die 0).node? 1 1 = some n ∧ n.st = .done :=
  ⟨by decide +kernel, by decide +kernel, { desc := List.replicate 16 0, st := .done }, by decide +kernel⟩

theorem witness_shadowNew : let h := hd (.v 3) (.v 4) (.v 0) (.v 0) .b32
    Wg.Admits { d := .dst, a := .addr } h ∧ ∃ es s', PlansGo Wg (Wg.active .always) (State.planShadow h) es s' :=
  ⟨admits_of (by decide +kernel), goes_of (by decide +kernel)⟩

theorem witness_shadowAddr : Wg.Admits { d := .dstW, a := .src } (hd (.v 6) (hInt 0) (.v 0) (.v 0) .b32) ∧
    NoneFaults (Wg.active .always) (Wg.entryFault (hNode 0)) ∧ NoneFaults (Wg.active .always) (Wg.entryFault (hBuf1 0)) := by
  refine ⟨admits_of (by decide +kernel), ?_, ?_⟩ <;> (unfold NoneFaults; decide +kernel)

theorem witness_publish : Wg.AllMay (Wg.active .always) true ∧
    ∃ r, PublishGoes (hBuf1 0) (Wg.active .always) (idled (hBuf1 0) Wg) r := by
  have h : Wg.active .always = [probeRef] := by decide +kernel
  refine ⟨?_, ?_⟩
  · unfold State.AllMay; decide +kernel
  · rw [h]
    exact ⟨_, (((idled (hBuf1 0) Wg).releaseAll 1 0 .module).swap 0 0), rfl, rfl⟩

/-- A signal on its way to node 0, a fired node whose work is done, an armed one whose count is spent, and one whose count is not. -/
def Wsig : State :=
  { Wg with dies := vupd Wg.dies 0 fun d =>
      { d with
        signals := [(1, 0, false, 0)]
        nodes := [((1, 0), { desc := List.replicate 16 0, st := .armed, count := 1 }),
                  ((1, 1), { desc := List.replicate 16 0, st := .fired, workDone := some 0 }),
                  ((1, 2), { desc := List.replicate 16 0, st := .armed, count := -1 })] } }

theorem witness_walker :
    signalPlace ((List.range 24).map fun d => (d, (Wsig.die d).signals.length)) 0 = some (0, 0) ∧
    (Wsig.die 0).signals[0]? = some (1, 0, false, 0) ∧ Wsig.ctxBlocked 0 1 .walker = false ∧
    ((Wsig.die 0).node? 1 0).isSome = true ∧
    tget (Wsig.die 0).nodes (1, 1) = some { desc := List.replicate 16 0, st := .fired, workDone := some 0 } := by decide +kernel

theorem witness_nodesFire : tget (Wsig.die 0).nodes (1, 0) = some { desc := List.replicate 16 0, st := .armed, count := 1 } ∧
    tget (Wsig.die 0).nodes (1, 2) = some { desc := List.replicate 16 0, st := .armed, count := -1 } ∧
    descKind (List.replicate 16 0) ≠ 2 := by decide +kernel

/-- A workgroup whose wave is set 7, with handles 0 (accumulator), 1 and 2 (operands of an e4m3 format of 16 K rows) and 4 (a 64 × 64
e4m3 image), all live. -/
def Wmma : State :=
  (Wx.updWg 1 0 fun g =>
    { g with
      slots := [(0, { bound := some 0 }), (1, { bound := some 1 }), (2, { bound := some 2 }), (3, { bound := some 4 })]
      h := vset (vset (vset (vset g.h 0 { st := .live, ever := true, shape := accShape 0, slot := 0 }) 1
        { st := .live, ever := true, shape := (shapeA 0 1).getD 0, slot := 1 }) 2
        { st := .live, ever := true, shape := (shapeB 0 1).getD 0, slot := 2 }) 4
        { st := .live, ever := true, shape := shapeOf 0 64 64, slot := 3 } }).updLaunch 1 fun l =>
    { l with hdr := { l.hdr with tiles := 4, cscratch := 65536 } }

/-- The loop word: set 7, one step. -/
def loopWord : DWord := 0xE001

def hLoop : Hdr := { hd (.v 0) (hInt 0) .lit (.v 0) .b32 with lit := some loopWord }
def xLoop : MloopX := ⟨0, false, 1, false, 2, false, false, 0⟩
def xGate : MgateX := ⟨4, 7, 2, false⟩

theorem witness_mloop : Wmma.Admits { a := .src, b := .src, c := if loopStreams xLoop then .dstN 1 else .unused } hLoop ∧ Wmma.Undisturbed (Wmma.active .always) ∧
    (∀ t ∈ Wmma.active .always, Wmma.mmaSetBad (((Wmma.rd t 0 hLoop.lit).r32 hLoop.b).toNat / 2 ^ 13 % 2 ^ 8) t = false) ∧
    SetOk Wmma (fun t => ((Wmma.rd t 0 hLoop.lit).r32 hLoop.b).toNat / 2 ^ 13 % 2 ^ 8) .always (.mloop hLoop xLoop) ∧
    Wmma.Admits { feat := some 5 } hN ∧ (∀ t ∈ Wmma.active .always, Wmma.mmaSetBad 7 t = false) ∧
    SetOk Wmma (fun _ => 7) .always (.mgate hN xGate) := by
  refine ⟨admits_of (by decide +kernel), ?_, by decide +kernel, ?_, admits_of (by decide +kernel), by decide +kernel, ?_⟩
  · unfold State.Undisturbed; decide +kernel
  · unfold SetOk; decide +kernel
  · unfold SetOk; decide +kernel

/-- An MLOOP that streams its operands, with its block in v10 and up. -/
theorem witness_mloopStream : ∃ x ∈ [(⟨1, true, 0, false, 2, true, false, 3⟩ : MloopX)], loopStreams x = true ∧
    Wmma.Admits { a := .src, b := .src, c := .dstN 1 } { hLoop with c := .v 10 } :=
  ⟨_, List.mem_singleton.2 rfl, by decide +kernel, admits_of (by decide +kernel)⟩

/-- The state after the MLOOP, and after the MGATE, of the one member. -/
def Wloop : State := after (.mloop hLoop xLoop) Wmma
def Wgate : State := after (.mgate hN xGate) Wmma

def leadOfSet (s : State) : SetArr := ((((s.mmaReady 1 0 7).map Prod.snd).getD []).headD { thread := probeRef, pred := true, a := 0, b := 0 })

theorem witness_mloopStart : Wloop.mmaReady 1 0 7 = some (.mloop hLoop xLoop, [leadOfSet Wloop]) ∧
    [leadOfSet Wloop].filter SetArr.pred = [leadOfSet Wloop] ∧ Wloop.loopFault 0 7 hLoop xLoop (leadOfSet Wloop) = none ∧
    Wloop.tick.loopHeld 7 0 (Wloop.wgOf probeRef).die (Wloop.wgOf probeRef).site
      (Wloop.tick.mkLoop 0 7 hLoop xLoop (leadOfSet Wloop) [probeRef]) = false := by decide +kernel

theorem witness_mgateDecision : Wgate.mmaReady 1 0 7 = some (.mgate hN xGate, [leadOfSet Wgate]) ∧
    [leadOfSet Wgate].filter SetArr.pred = [leadOfSet Wgate] := by decide +kernel

/-- A score handle that a gate may read: 16-bit floats. -/
def WgateH : State := Wgate.updHandle 1 0 4 fun x => { x with shape := shapeOf 2 64 64 }

theorem witness_mgateHandle : WgateH.mmaReady 1 0 7 = some (.mgate hN xGate, [leadOfSet WgateH]) ∧
    handleUse (WgateH.handle 1 0 4) 4 (WgateH.isMember 1 0 7 0) = none ∧ shFmt (WgateH.handle 1 0 4).shape ∈ [2, 3, 6] ∧
    WgateH.slotBlocked 1 0 (WgateH.handle 1 0 4).slot false (WgateH.stamp + 1) = false := by decide +kernel

def Wstep : State := after (.mloopStart 1 0 7) Wloop

theorem witness_matrixStep : let s := Wstep.updCore 0 0 Core.seat
    ((s.core 0 0).loops.find? fun l =>
      !l.ls.flt && !l.wait && !s.loopBlocked l && !s.acked 0 l.lid l.inst (.matrix 0)).isSome = true := by decide +kernel

def waveMetB (A : WaveArm) : Bool :=
  admitsB Wmma A.need A.h && ((Wmma.active A.h.pred).all fun t => (A.chk (leadOf (Wmma.active A.h.pred) t) Wmma).isNone) &&
    (leads (Wmma.active A.h.pred)).all fun t =>
      (A.rd.all fun k => !Wmma.slotBlocked t.lid t.wg (Wmma.handle t.lid t.wg k).slot false (Wmma.stamp + 1)) &&
      (A.wr.all fun k => !Wmma.slotBlocked t.lid t.wg (Wmma.handle t.lid t.wg k).slot true (Wmma.stamp + 1)) && !A.busy t Wmma

theorem waveOk_of {A : WaveArm} (hp : A.h.pred = .always) (k : waveMetB A = true) : Wmma.Admits A.need A.h ∧ WaveOk Wmma A := by
  simp only [waveMetB, Bool.and_eq_true, List.all_eq_true] at k
  refine ⟨admits_of k.1.1, ?_, fun t ht => by simpa using k.1.2 t ht, fun t ht => ?_⟩
  · rw [hp]; unfold State.Undisturbed; decide +kernel
  · have := k.2 t ht
    exact ⟨fun j hj => by simpa using this.1.1 j hj, fun j hj => by simpa using this.1.2 j hj, by simpa using this.2⟩

/-- The three forms whose parts have nothing outstanding to read. -/
def waveForms : List Instr := [.mzero hN 0, .mread (hd (.v 7) (.v 4) (hInt 0) (.v 0) .b32) ⟨0, false, 0, .core⟩,
  .mcvt { hN with ty := .e4m3 } ⟨0, 4, false, 0⟩]

/-- MZERO of the accumulator, MREAD of it to scratch, MCVT of it to e4m3. -/
theorem witness_waveArms : ∀ i ∈ waveForms, ∃ A, waveArms i = some A ∧ Wmma.Admits A.need A.h ∧ WaveOk Wmma A := by
  intro i hi
  obtain ⟨A, h, k⟩ := met_arm (arms := waveArms) (ok := fun A => waveMetB A && A.h.pred == .always)
    (by decide +kernel : met waveArms (fun A => waveMetB A && A.h.pred == .always) waveForms = true) i hi
  rw [Bool.and_eq_true] at k
  exact ⟨A, h, waveOk_of (by simpa using k.2) k.1⟩

/-- Operands of a step of floats: a NaN of e4m3. -/
theorem witness_stepNan : (fmtE4m3.decode 0x7F).isNan = true ∧ (fmtF32.decode 0x7FC00000).isNan = true := by decide +kernel

/-- Sums of a ternary step within, above and below the range of 32 bits. -/
theorem witness_ternary : (let x (c : Nat) (ps : List (Nat × Nat)) : Int := ps.foldl (fun x p => x + (t2Val p.1).1 * signed 8 p.2) (signed 32 c)
    x 5 [(1, 3)] = 8 ∧ 2 ^ 31 - 1 < x 0x7FFFFFFF [(1, 3)] ∧ x 0x80000000 [(1, 0xFD)] < -2 ^ 31) := by decide +kernel


/-! ### Part 7: system and debug forms -/

/-- REGION and the debug form BKPT need nothing. -/
theorem witness_region : W.GroupOk ∧ W.Admits {} hN := ⟨W_groupOk, admits_of (by decide +kernel)⟩

/-- `Wm` with its thread in the handler of a user trap, whose record resumes at 0 past the `nop`. -/
def Wtr : State :=
  { (Wm.updThr probeRef fun th => { th with
        level := 1, handling := some { code := .userTrap, fpc := 0, rpc := 4 }, slot := some 0, bank := { w63 := 0x8000 } }) with
    cur := { threads := [probeRef], level := 1, pc := 0 }
    contexts := [(1, { key := 1, slots := [0] })]
    launches := Wm.launches.map fun l => (l.1, { l.2 with trapCode := some [4] }) }

theorem Wtr_groupOk : Wtr.GroupOk := by unfold State.GroupOk; decide +kernel

/-- TRAPRET FIX, SKIP, RETRY (no ticket 4 is open) and KILL. -/
theorem witness_trapret : Wtr.Admits { priv := true } hN ∧ ActsOk Wtr .fix (Wtr.active .always) ∧ ActsOk Wtr .skip (Wtr.active .always) ∧
    Wtr.Admits { a := .src, priv := true } (hd (.v 0) (.v 3) (.v 0) (.v 0) .b32) ∧ ActsOk Wtr .retry (Wtr.active .always) :=
  ⟨admits_of (by decide +kernel), by unfold ActsOk; decide +kernel, by unfold ActsOk; decide +kernel, admits_of (by decide +kernel),
    by unfold ActsOk; decide +kernel⟩

/-- A record of flags. -/
def Wflags : State := Wtr.updThr probeRef fun th => { th with handling := some { code := .fpException, det0 := 3 } }

/-- TRAPRET SKIP of a record with flags. -/
theorem witness_trapretFlags : Wflags.Admits { priv := true } hN ∧ ActsOk Wflags .skip (Wflags.active .always) :=
  ⟨admits_of (by decide +kernel), by unfold ActsOk; decide +kernel⟩

/-- The ticket 4 is open. -/
def Wticket : State := Wtr.updCtx 1 fun c => { c with tickets := [(4, { page := 0 })] }

/-- RDTRAP of the word n, and WRTRAP of it. -/
def rdH (n : DWord) : Hdr := { hd (.v 2) .lit (.v 0) (.v 0) .b32 with lit := some n }
def wrH (n : DWord) : Hdr := { hd (.v 0) .lit (.v 3) (.v 0) .b32 with lit := some n }

/-- TRAPRET RETRY while its ticket is open. -/
theorem witness_retryWaits : let h : Hdr := { hd (.v 0) .lit (.v 0) (.v 0) .b32 with lit := some 4 }
    Wticket.Admits { a := .src, priv := true } h ∧ ActsOk Wticket .retry (Wticket.active .always) ∧
      Wticket.ticketOpen 1 ((Wticket.rd probeRef 0 h.lit).r32 h.a).toNat = true :=
  ⟨admits_of (by decide +kernel), by unfold ActsOk; decide +kernel, by decide +kernel⟩

theorem witness_trapWords : (Wtr.Admits { d := .dst, a := .src, priv := true } (rdH 0) ∧ ∀ t ∈ Wtr.active .always, Wtr.trapIndex (rdH 0) t ≤ 35) ∧
    (Wtr.Admits { d := .dst, a := .src, priv := true } (rdH 35) ∧ ∀ t ∈ Wtr.active .always, Wtr.trapIndex (rdH 35) t ≤ 35) ∧
    (Wtr.Admits { a := .src, b := .src, priv := true } (wrH 16) ∧
      ∀ t ∈ Wtr.active .always, 16 ≤ Wtr.trapIndex (wrH 16) t ∧ Wtr.trapIndex (wrH 16) t ≤ 34) ∧
    (Wtr.Admits { a := .src, b := .src, priv := true } (wrH 34) ∧
      ∀ t ∈ Wtr.active .always, 16 ≤ Wtr.trapIndex (wrH 34) t ∧ Wtr.trapIndex (wrH 34) t ≤ 34) :=
  ⟨⟨admits_of (by decide +kernel), by decide +kernel⟩, ⟨admits_of (by decide +kernel), by decide +kernel⟩,
    ⟨admits_of (by decide +kernel), by decide +kernel⟩, ⟨admits_of (by decide +kernel), by decide +kernel⟩⟩

/-- PGREQ at the address in w2. -/
theorem witness_pgreq : let h := hd (.v 2) (.v 4) (.v 0) (.v 0) .b32
    Wtr.Admits { d := .dst, a := .addr, priv := true } h ∧ ∀ t ∈ Wtr.active h.pred, ((Wtr.rd t 0 h.lit).r64 h.a).toNat < 2 ^ 52 :=
  ⟨admits_of (by decide +kernel), by decide +kernel⟩

/-- A privileged form at level 0. -/
theorem witness_privileged : W.GroupOk ∧ (∀ t ∈ W.cur.threads, (W.thr t).level = 0) ∧ W.cur.threads ≠ [] ∧
    (∀ l ∈ W.launches, l.2.journalFull = false) := ⟨W_groupOk, by decide +kernel, by decide +kernel, by decide +kernel⟩

/-- `Wm` with a record pending and a trap image. -/
def Wtrap : State :=
  (Wm.updThr probeRef fun th => { th with trap := some { code := .userTrap } }).updLaunch 1 fun l => { l with trapCode := some [4] }

theorem witness_trapEntry : probeRef ∈ tkeys Wtrap.threads ∧ Wtrap.ctxOf probeRef ∈ tkeys Wtrap.contexts ∧
    (Wtrap.thr probeRef).trap = some { code := .userTrap } ∧ (Wtrap.thr probeRef).level = 0 ∧
    Wtrap.afoot probeRef = true ∧ (Wtrap.launchOf probeRef).trapCode.isSome = true ∧ Wtrap.pendingOf probeRef = false ∧
    (Wtrap.ctx (Wtrap.ctxOf probeRef)).freeSlot = some 0 := by decide +kernel

theorem witness_trapReturn : probeRef ∈ tkeys Wtr.threads ∧ Wtr.ctxOf probeRef ∈ tkeys Wtr.contexts ∧
    (Wtr.inst probeRef.lid (Wtr.wgOf probeRef).inst).killer = none ∧ (Wtr.thr probeRef).slot = some 0 := by decide +kernel

/-- `W` with a debugger that has armed halts, and a counter of the thread's context. -/
def Wdbg : State := (W.updLaunch 1 fun l => { l with bkHalt := true }).updCounter ⟨0, .core, 0⟩ probeRef fun c => { c with ctx := 1 }

theorem Wdbg_groupOk : Wdbg.GroupOk := by unfold State.GroupOk; decide +kernel

/-- BKPT with and without a debugger's halts; the launch stands at a boundary. -/
theorem witness_bkpt : (Wdbg.Admits {} hN ∧ ∀ t ∈ Wdbg.active .always, (Wdbg.launchOf t).bkHalt = true) ∧
    (∀ t ∈ W.active .always, (W.launchOf t).bkHalt = false) ∧ Wdbg.atBoundary 1 = true :=
  ⟨⟨admits_of (by decide +kernel), by decide +kernel⟩, by decide +kernel, by decide +kernel⟩

/-- CNTRD and CNTWR of the count and of a slice, with a counter of the thread's context. -/
theorem witness_counters : Wdbg.Admits { d := .dstW } (hd (.v 2) (.v 0) (.v 0) (.v 0) .b64) ∧
    Wdbg.Admits { a := .srcW } (hd (.v 0) (.v 4) (.v 0) (.v 0) .b64) ∧
    ∀ t ∈ Wdbg.active .always, (Wdbg.counter ⟨0, .core, 0⟩ t).ctx.toNat = Wdbg.ctxOf t ∧ (Wdbg.counter ⟨0, .core, 2⟩ t).ctx.toNat = Wdbg.ctxOf t ∧
      (Wdbg.rd t 0 none).r64 (.v 4) = 0 :=
  ⟨admits_of (by decide +kernel), admits_of (by decide +kernel), by decide +kernel⟩

/-! ### Part 8: launches, units, pre-emption -/

theorem some_of {α : Type} {o : Option α} {ok : α → Bool} (k : o.any ok = true) : ∃ a, o = some a ∧ ok a = true := by
  cases o with
  | none => cases k
  | some a => exact ⟨a, rfl, k⟩

/-- A launch not yet dispatchable that waits for nothing. -/
theorem witness_dispatchable : let s := W.updLaunch 1 fun l => { l with dispatchable := false }
    (tget s.launches 1).isSome = true ∧ (s.launch 1).ended = false ∧ (s.launch 1).dispatchable = false ∧ s.waitsOn (s.launch 1) = false := by
  decide +kernel

/-- `W` with a second workgroup of its launch in the bank, first in order since 0, and the time past the hold time. -/
def Wpend : State := { W.updLaunch 1 fun l => { l with pending := [{ idx := 1, first := some 0 }] } with now := 2000000 }

theorem witness_place : ∃ o sites p, Wpend.nextUnit 0 = some (o, sites) ∧ o.p = some p ∧ p.preempted = false := by
  obtain ⟨⟨o, sites⟩, h, k⟩ := some_of (ok := fun (x : Offer × List Nat) => x.1.p.any fun p => !p.preempted)
    (by decide +kernel : (Wpend.nextUnit 0).any (fun x => x.1.p.any fun p => !p.preempted) = true)
  obtain ⟨p, hp, k⟩ := some_of k
  exact ⟨o, sites, p, h, hp, by simpa using k⟩

/-- The program of one eligible brick offers an update. -/
def Wupd : State := (Wp.updProg 1 fun p => { p with dies := [{ die := 0, bricks := [{ st := 1, res := 3 }] }] }).updWg 1 0 fun g => { g with brick := none }

theorem witness_placeUpdate : ∃ o sites, Wupd.nextUnit 0 = some (o, sites) ∧ o.p = none := by
  obtain ⟨⟨o, sites⟩, h, k⟩ := some_of (ok := fun (x : Offer × List Nat) => x.1.p.isNone) (by decide +kernel : (Wupd.nextUnit 0).any (fun x => x.1.p.isNone) = true)
  exact ⟨o, sites, h, by simpa using k⟩

theorem witness_hold : ∃ o, Wpend.firstAt 0 6 = some o ∧ Wpend.firstSince 0 o = some 0 ∧
    (0 : DWord).toNat + (Wpend.ctx o.ctx).hold ≤ Wpend.now.toNat ∧
      ∀ i ∈ (Wpend.die 0).sites, (Wpend.core 0 i).only ≠ some o.key := by
  obtain ⟨o, h, k⟩ := some_of (ok := fun o => Wpend.firstSince 0 o == some 0 && decide (0 + (Wpend.ctx o.ctx).hold ≤ Wpend.now.toNat) &&
      (Wpend.die 0).sites.all fun i => (Wpend.core 0 i).only != some o.key)
    (by decide +kernel : (Wpend.firstAt 0 6).any (fun o => Wpend.firstSince 0 o == some 0 && decide (0 + (Wpend.ctx o.ctx).hold ≤ Wpend.now.toNat) &&
      (Wpend.die 0).sites.all fun i => (Wpend.core 0 i).only != some o.key) = true)
  simp only [Bool.and_eq_true, beq_iff_eq, decide_eq_true_eq, List.all_eq_true] at k
  exact ⟨o, h, k.1.1, by simpa using k.1.2, fun i hi => bne_iff_ne.1 (k.2 i hi)⟩

/-- The workgroup stands at the head of its core's prefetch buffer. -/
def Wfetch : State := (W.updWg 1 0 fun g => { g with st := .prefetched }).updCore 0 0 fun k => { k with prefetch := [(1, 0)] }

theorem witness_unitStart : Wfetch.startDue 1 0 = true := by decide +kernel

theorem witness_deadline : let s : State := { W.updLaunch 1 fun l => { l with dline := some 5 } with now := 6 }
    (tget s.launches 1).isSome = true ∧ (s.launch 1).dline = some 5 ∧ (s.launch 1).ended = false ∧ (s.launch 1).dlmiss = false ∧
      (5 : DWord).toNat < s.now.toNat ∧ s.unitLeft 1 (s.launch 1) = true := by decide +kernel

theorem witness_turn : ({ W.updLaunch 1 fun l => { l with det := 1 } with insts := [((1, 0), { members := [0], ended := true, released := true })] } : State).turnDue
    1 = true := by decide +kernel

/-- A launch in deterministic scheduling mode makes its first step; then its core has nothing to issue but what it issued. -/
def Wdet : State := W.updLaunch 1 fun l => { l with det := 2 }

theorem witness_detStep : Wdet.wake.stepsNext = [(1, [(0, 0)])] ∧ Wdet.markFirst.nextCycle.unissued 1 = [] ∧
    (eldest (Wdet.stepGroup 1 (0, 0))).isSome = true ∧ Wdet.coreGo 1 (0, 0) = true := by decide +kernel

theorem witness_detIdle : W.wake.stepsNext = [] := by decide +kernel

/-- Cycle 257 is the one that the LFSR's value of 1 matches. -/
def Wsmp : State :=
  { ((W.updCore 0 0 fun k => { k with lastGroup := some (probeRef, 0, 4, 1, 0) }).updThr probeRef fun th => { th with last := 257 }) with
    cycle := 257 }

theorem Wsmp_ctx : Wsmp.samplingCtx 0 0 = 1 := by
  have h : tkeys Wsmp.contexts = [1] := by decide +kernel
  simp [State.samplingCtx, h, Nat.mod_one]

theorem witness_sample : (Wsmp.core 0 0).lastGroup = some (probeRef, 0, 4, 1, 0) ∧ (Wsmp.thr probeRef).last = Wsmp.cycle ∧
    (if Wsmp.stepped probeRef.lid then (tget (Wsmp.core 0 0).stepNext probeRef.lid).getD 0 else (Wsmp.core 0 0).sampleNext) ≤
      Wsmp.sampleTime probeRef ∧
    Wsmp.sampleTime probeRef % 2 ^ (Wsmp.ctx (Wsmp.samplingCtx 0 0)).sampleK =
      (Wsmp.core 0 0).lfsr.toNat % 2 ^ (Wsmp.ctx (Wsmp.samplingCtx 0 0)).sampleK := by
  rw [Wsmp_ctx]; decide +kernel

/-- Step 257, the last, of a launch in deterministic scheduling mode. -/
def WsmpStep : State := Wsmp.updLaunch 1 fun l => { l with det := 2, step := 258 }

theorem witness_sampleStep : WsmpStep.stepped probeRef.lid = true ∧ WsmpStep.sampleTime probeRef = 257 ∧
    (tget (WsmpStep.core 0 0).stepNext probeRef.lid).getD 0 ≤ 257 := by decide +kernel

/-- Candidates of which none is twice. -/
theorem witness_candidates : ([Wx.cand probeRef, Wx.cand { probeRef with lane := 1 }].map Cand.t).Nodup := by decide +kernel

/-- A die of one live core, whose resident leaves a more urgent workgroup, already past its slack, no tile slots. -/
def Wpre : State :=
  { W.updLaunch 1 fun l => { l with hdr := { l.hdr with tiles := 64 } } with
    launches := [(1, { (W.launch 1) with hdr := { (W.launch 1).hdr with tiles := 64 } }),
      (2, { (W.launch 1) with hdr := { (W.launch 1).hdr with tiles := 1 }, level := 2, dline := some 0, reserve := 10, pending := [{ idx := 0 }] })]
    contexts := [(1, { key := 1, svsize := 1000 })]
    dies := vupd W.dies 0 fun d => { d with harvest := 0xFFFFFFFFE } }

theorem witness_preempt : ∃ o site vs, Preempts Wpre 0 o site vs := by
  obtain ⟨o, h, k⟩ := some_of (ok := fun o =>
      ((sortBy (fun (a b : Nat × List (Nat × Nat)) => a.2.length < b.2.length || (a.2.length == b.2.length && a.1 ≤ b.1))
        (Wpre.preemptPlaces o 0)).head?).any fun x => Wpre.saveFits x.2)
    (by decide +kernel : ((Wpre.offers 0).find? (Wpre.triggers 0)).any (fun o =>
      ((sortBy (fun (a b : Nat × List (Nat × Nat)) => a.2.length < b.2.length || (a.2.length == b.2.length && a.1 ≤ b.1))
        (Wpre.preemptPlaces o 0)).head?).any fun x => Wpre.saveFits x.2) = true)
  obtain ⟨⟨site, vs⟩, h', k⟩ := some_of k
  exact ⟨o, site, vs, by decide +kernel, h, h', k⟩

/-- A stop of the unit is requested, and waits for some engines: the picker of its core and then, without it, the walker. -/
def Wstop (ks : List EngineKind) : State :=
  { W with dies := vupd W.dies 0 fun d => { d with stops := [{ unit := some (1, 0), waiting := ks }] } }

theorem witness_acks : Acks (Wstop [.walker, .picker 0]) 0 (.picker 0) { unit := some (1, 0), waiting := [.walker, .picker 0] } 0 ∧
    Acks (Wstop [.walker]) 0 .walker { unit := some (1, 0), waiting := [.walker] } 0 := by
  unfold Acks; decide +kernel

/-- Every engine has acknowledged the stop of a unit whose context has a save area of a number of pages. -/
def Wsave (pages : Nat) : State :=
  { W with
    contexts := [(1, { key := 1, svsize := pages })]
    dies := vupd W.dies 0 fun d => { d with stops := [{ unit := some (1, 0) }] } }

theorem witness_preemptSave : (∀ n, n = 0 ∨ n = 1000 → (Wsave n).stopDone 1 0 = some 0 ∧ (Wsave n).quietUnit 1 0 = true ∧
      ((Wsave n).inst 1 0).ended = false) ∧
    ((Wsave 1000).updDie 0 fun d => { d with stops := [] }).saveFits [(1, 0)] = true ∧
    ((Wsave 0).updDie 0 fun d => { d with stops := [] }).saveFits [(1, 0)] = false := by
  refine ⟨?_, by decide +kernel⟩
  rintro n (rfl | rfl) <;> decide +kernel

/-- A pre-empted unit whose turn it is. -/
def Wback : State := (W.updLaunch 1 fun l => { l with pending := [{ idx := 0, preempted := true }] }).updWg 1 0 fun g => { g with st := .preempted }

theorem witness_restore : ∃ o sites, Restores Wback 1 0 0 o sites := by
  obtain ⟨⟨o, sites⟩, h, k⟩ := some_of (ok := fun (x : Offer × List Nat) => x.1.lid == 1 && x.1.idx == 0 && x.1.p.any fun p => p.preempted)
    (by decide +kernel : (Wback.nextUnit 0).any (fun x => x.1.lid == 1 && x.1.idx == 0 && x.1.p.any fun p => p.preempted) = true)
  simp only [Bool.and_eq_true, beq_iff_eq] at k
  obtain ⟨p, hp, hk⟩ := some_of k.2
  exact ⟨o, sites, by decide, h, k.1.1, k.1.2, ⟨p, hp, hk⟩, fun d hd => absurd hd (by omega)⟩

/-- Every engine has acknowledged the stop of a context, whose save fits. -/
def Wout2 : State :=
  { W with contexts := [(1, { key := 1, svsize := 1000 })], dies := vupd W.dies 0 fun d => { d with stops := [{ ctx := some 1 }] } }

theorem witness_switchOut : tget Wout2.contexts 1 ≠ none ∧ (Wout2.ctx 1).out = false ∧ Wout2.ctxStopping 1 = true ∧ Wout2.ctxQuiet 1 = true ∧
    Wout2.savedBytes 1 + (Wout2.ctx 1).journals +
      (((Wout2.ctxUnits 1).map Wout2.unitSize).sum +
        ((Wout2.ctxBufs 1).map fun b => b.2.2.size).sum) ≤ (Wout2.ctx 1).svsize * 65536 := by decide +kernel

/-- A context that is switched out, with a saved buffer. -/
def Win : State := { W with contexts := [(1, { key := 1, out := true, savedBufs := [(0, 1, { lvl := .die, size := 64, ctx := 1 })] })] }

theorem witness_switchIn : (Win.ctx 1).out = true ∧ ∃ s', (Win.ctx 1).savedBufs.foldlM State.bufBack Win = some s' ∧ 1 ∈ tkeys s'.contexts := by
  obtain ⟨s', h, k⟩ := some_of (ok := fun (s' : State) => (tkeys s'.contexts).contains 1)
    (by decide +kernel : ((Win.ctx 1).savedBufs.foldlM State.bufBack Win).any (fun s' => (tkeys s'.contexts).contains 1) = true)
  exact ⟨by decide +kernel, s', h, by simpa using k⟩

/-- A launch that ended at its acceptance; one whose units are done; and one whose digest then differs. -/
def Wdone : State :=
  { W.updWg 1 0 fun g => { g with st := .ended } with insts := [((1, 0), { members := [0], ended := true, released := true })] }
def Wdiff : State := Wdone.updLaunch 1 fun l => { l with journalOn := true, digestIn := some (launchDigest l + 1) }

theorem witness_launchEnd : (let s := W.updLaunch 1 fun l => { l with ended := true }
      (tget s.launches 1).isSome = true ∧ (s.launch 1).recorded = false ∧ (s.launch 1).ended = true) ∧
    ((tget Wdone.launches 1).isSome = true ∧ (Wdone.launch 1).recorded = false ∧ (Wdone.launch 1).ended = false ∧
      Wdone.endDue 1 (Wdone.launch 1) = true ∧ (Wdone.launch 1).mismatch = false) ∧
    ((tget Wdiff.launches 1).isSome = true ∧ (Wdiff.launch 1).recorded = false ∧ (Wdiff.launch 1).ended = false ∧
      Wdiff.endDue 1 (Wdiff.launch 1) = true ∧ (Wdiff.launch 1).mismatch = true) := by decide +kernel

/-! ### Part 9: the engines, traps and paging -/

/-- A record of 16 words of an OP. -/
def recOp (op : Word) : List Word := [op, 0, 0xFFFFFFFF, 0, 0, 0, 0, 0, 0, 0, 0, 0, 0, 0, 0, 0]

def cmdOp (op : Word) : Cmd := { rec_ := recOp op, ctx := 1 }

/-- A copy engine with a command of an OP issued to it. -/
def Wcpy (op : Word) : State := { W with dies := vupd W.dies 0 fun d => { d with copyQ := vset d.copyQ 3 [cmdOp op] } }

theorem witness_copyIssued : ∀ op < 5, (Wcpy (BitVec.ofNat 32 op)).copyReady 0 3 op ≠ [] := by decide +kernel

/-- A queue of the workgroup that names copy engine 3, and one that names encode engine 1, with a record of an OP each. -/
def Wpt (op : Word) : State :=
  let e : List (List Byte) := [wordsToBytes (recOp op)]
  let qs : Vector Queue 8 := vset (vset (Vector.replicate 8 {}) 1 { cw := 0x32400000, elems := e }) 2 { cw := 0x13400000, elems := e }
  W.updWg 1 0 fun g => { g with q := qs }

theorem witness_copyElement : ∀ op < 5, ((Wpt (BitVec.ofNat 32 op)).copyElem 0 3 op).isSome = true := by decide +kernel

/-- A finished copy. -/
theorem witness_copyComplete : let c : Cmd := { cmdOp 0 with started := true, status := 1 }
    let s : State := { W with dies := vupd W.dies 0 fun d => { d with copyQ := vset d.copyQ 3 [c] } }
    (vget (s.die 0).copyQ [] 3)[0]? = some c ∧ c.finished = true ∧ c.frames = [] ∧ s.ctxBlocked 0 c.ctx (.copy 3) = false := by
  decide +kernel

def Wenc (op : Word) : State := { W with dies := vupd W.dies 0 fun d => { d with encQ := vset d.encQ 1 [cmdOp op] } }

theorem witness_encodeIssued : ∀ op < 3, (Wenc (BitVec.ofNat 32 op)).encReady 0 1 op = [0] ∧
    ((Wenc (BitVec.ofNat 32 op)).encList 0 1)[0]? = some (cmdOp (BitVec.ofNat 32 op)) := by decide +kernel

theorem witness_encodeElement : ∀ op < 3, (Wpt (BitVec.ofNat 32 op)).encReady 0 1 op = [] ∧
    ((Wpt (BitVec.ofNat 32 op)).encElem 0 1 op).isSome = true := by decide +kernel

theorem witness_encodeComplete : let c : Cmd := { cmdOp 2 with started := true }
    let s : State := { W with dies := vupd W.dies 0 fun d => { d with encQ := vset d.encQ 1 [c] } }
    (s.encList 0 1).zipIdx.find? (fun x => x.1.coded && !s.ctxBlocked 0 x.1.ctx (.encode 1)) = some (c, 0) ∧
      (cmdOp 2).started = false := by decide +kernel

/-- A queue of node ids. -/
theorem witness_graphQueue : let s := W.updWg 1 0 fun g => { g with q := vset g.q 1 { cw := 0x04000000, elems := [[0, 0, 0, 0]] } }
    (s.queue 1 0 1).elems = [0, 0, 0, 0] :: [] ∧ s.walkNext (s.wg 1 0).die = some (1, 0, 1) := by decide +kernel

/-- A gang lost to a soft error, of a launch that restarts. -/
def lostInst : Inst := { members := [0], gang := true, ended := true, softLost := true }

theorem witness_gangRestart : let s : State := { W.updLaunch 1 fun l => { l with restart := true, gang := 1 } with insts := [((1, 0), lostInst)] }
    (tget s.launches 1).isSome = true ∧ tget s.insts (1, 0) = some lostInst ∧ (s.launch 1).ended = false ∧
      lostInst.mayRestart (s.launch 1) = true := by decide +kernel

/-- A soft error in a register of the thread, of a workgroup by itself and of a gang's. -/
def Wsoft : State := { W with ext := { thread := probeRef, loc := .register 3 } }
def WsoftGang : State := { Wsoft with insts := [((1, 0), { members := [0], gang := true })] }

theorem witness_softError : (Wsoft.softHit probeRef (.register 3) ≠ [] ∧ Wsoft.runs 1 0 = true ∧ Wsoft.ext.ok = false ∧
      (Wsoft.inst 1 (Wsoft.wgOf probeRef).inst).gang = false) ∧
    (WsoftGang.softHit probeRef (.register 3) ≠ [] ∧ WsoftGang.runs 1 0 = true ∧
      (WsoftGang.inst 1 (WsoftGang.wgOf probeRef).inst).gang = true ∧
      (WsoftGang.inst 1 (WsoftGang.wgOf probeRef).inst).killer = none) := by decide +kernel

/-- A soft error that a step of the thread's loop meets, in the accumulator. -/
def WsoftLoop : State := { Wstep with ext := { thread := probeRef, loc := .tile 0, ok := true } }

theorem witness_softLoop : WsoftLoop.ext.ok = true ∧ (WsoftLoop.softLoop probeRef).isSome = true ∧ WsoftLoop.runs 1 0 = true := by
  decide +kernel

/-- A gang that a KILL of another cause is ending. -/
theorem witness_killedGang : let s : State := { Wsoft with insts := [((1, 0), { members := [0], gang := true, killer := some 7 })] }
    (s.inst probeRef.lid (s.wgOf probeRef).inst).killer ≠ none := by decide +kernel

/-- The thread waits for the walk of page 5. -/
def Wwalk : State :=
  { W.updThr probeRef fun th => { th with wait := .walk 5 } with
    dies := vupd W.dies 0 fun d => { d with walks := [{ ctx := 1, page := 5, joined := [probeRef] }] } }

theorem witness_walk : signalPlace ((List.range 24).map fun d => (d, (Wwalk.die d).walks.length)) 0 = some (0, 0) ∧
    (Wwalk.die 0).walks[0]? = some { ctx := 1, page := 5, joined := [probeRef] } ∧ [probeRef].Nodup ∧ probeRef ∈ tkeys Wwalk.threads ∧
    (Wwalk.thr probeRef).wait = .walk 5 := by decide +kernel

/-- A walk that a group waits with, none of whose threads joined it; and one for another page than the thread waits for. -/
def walkOf (page : Nat) (joined : List TRef) : Walk :=
  { ctx := 1, page := page, joined := joined, groups := [{ threads := [probeRef], level := 0, pc := 0 }] }

theorem witness_walkGroups : probeRef ∈ (walkOf 5 []).groups.flatMap Group.threads ∧ probeRef ∉ (walkOf 5 []).joined ∧
    (Wwalk.thr probeRef).wait = .walk (walkOf 5 []).page ∧ probeRef ∈ (walkOf 6 [probeRef]).joined ∧ 5 ≠ (walkOf 6 [probeRef]).page := by
  decide +kernel

theorem witness_invalidation : ∀ k ∈ ([none, some 4] : List (Option Nat)),
    ({ W with inval := [{ ctx := 1, page := 0, count := 1, walks := [], ticket := k }] } : State).inval[0]? =
      some { ctx := 1, page := 0, count := 1, walks := [], ticket := k } := by decide +kernel

/-- An open ticket, to be refused; and one to be granted, with the entries of the three levels written. -/
def Wrefuse : State :=
  { W with contexts := [(1, { key := 1, tickets := [(4, { page := 0 })] })], ext := { ctx := 1, ticket := 4 } }

def tableWrites : List (Nat × DWord) := [(0, 0x10003), (0x10000, 0x20003), (0x20000, 0x30003)]

def Wgrant : State := { Wrefuse with ext := { ctx := 1, ticket := 4, ws := some tableWrites } }

theorem witness_ticketRefused : tget (Wrefuse.ctx 1).tickets 4 = some { page := 0 } ∧ Wrefuse.inval = [] ∧ Wrefuse.ext.ws = none := by
  decide +kernel

theorem witness_ticketGranted : tget (Wgrant.ctx 1).tickets 4 = some { page := 0 } ∧ Wgrant.inval = [] ∧
    Wgrant.ext.ws = some tableWrites ∧ (match (tableWrites.foldl State.writeTable Wgrant).walkTable 1 0 with
      | .hit _ => true
      | .fault _ => false) = true := by decide +kernel

/-! ### Part 10: packets and the host -/

/-- Queue 0, an admin queue of context 1 whose ring of 1,024 words begins at host address 4096, holds a packet. -/
def Wpk (ws : List Word) : State :=
  let ring := (wordsToBytes ws).zipIdx.map fun x => (hostBase + 4096 + x.2, x.1)
  { W with
    hqueues := [(0, { tail := ws.length })]
    mem := memSetAll [] ([(hostBase + 1, 0x10), (hostBase + 8, 0x6A), (hostBase + 12, 1)] ++ ring) }

/-- A packet for each packet event: but for the identity query, one that has no fields. -/
def packets : List (Instr × List Word) :=
  [(.launchPacket, [0x101]), (.standingStart, [0x102]), (.standingStop, [0x103]), (.inputPost, [0x104]), (.pin, [0x105]),
    (.unpin, [0x106]), (.copyPacket, [0x107]), (.nodeSignal, [0x108]), (.contextCreate, [0x109]), (.contextDestroy, [0x10A]),
    (.iterateRead, [0x10B]), (.queryAttestation, [0x10C]), (.queryIdentity, [0x60C, 0x10078, 1, 0x2007A, 0, 0]), (.peerSet, [0x10D]),
    (.unknownPacketType, [0x1EE])]

theorem witness_packets : ∀ x ∈ packets, ∃ A t, pktArms x.1 = some A ∧ 0 ∈ tkeys (Wpk x.2).hqueues ∧
    (Wpk x.2).tryPacket A.1 A.2 0 = some t := by
  have k : packets.all (fun x => match pktArms x.1 with
    | some A => ((Wpk x.2).tryPacket A.1 A.2 0).isSome
    | none => false) = true := by decide +kernel
  intro x hx
  have h := List.all_eq_true.1 k x hx
  split at h
  · obtain ⟨t, ht⟩ := Option.isSome_iff_exists.1 h
    exact ⟨_, t, ‹_›, List.mem_singleton.2 rfl, ht⟩
  · cases h

/-- A queue of a context, and an admin queue. -/
def qd (admin : Bool) (ctx : Nat) : QDesc :=
  { base := 4096, log := 10, en := true, admin := admin, ctx := ctx, tail := 0, rdAddr := 0, cplBase := 0, cplLog := 0 }

/-- UNPIN of session 7. -/
def unpin7 : List Word := [0x406, 0x2003C, 7, 0]

/-- CONTEXT_DESTROY of context 2. -/
def destroy2 : List Word := [0x30A, 0x1005A, 2]

def parses (ws : List Word) : Bool := match parsePacket ws with
  | .ok _ => true
  | .error _ => false

theorem parses_ok {ws : List Word} (k : parses ws = true) : ∃ fs, parsePacket ws = .ok fs := by
  unfold parses at k
  split at k
  · exact ⟨_, ‹_›⟩
  · cases k

theorem witness_parseError : parsePacket [0x106] = .error .badPacket := rfl

theorem witness_packetChecks : (∃ fs, parsePacket destroy2 = .ok fs) ∧ adminType (pktType destroy2) = true ∧ (qd false 1).admin = false ∧
    (∃ fs, parsePacket unpin7 = .ok fs) ∧ adminType (pktType unpin7) = false ∧ tget W.contexts (qd false 9).ctx = none :=
  ⟨parses_ok (by decide +kernel), by decide +kernel, rfl, parses_ok (by decide +kernel), by decide +kernel, by decide +kernel⟩

theorem witness_admitted : (∃ fs, Admitted W (qd true 1) destroy2 fs) ∧ ∃ fs, Admitted W (qd false 1) unpin7 fs :=
  ⟨(parses_ok (by decide +kernel)).imp fun _ h => ⟨h, fun _ => rfl, fun h' => absurd h' (by decide +kernel)⟩,
    (parses_ok (by decide +kernel)).imp fun _ h => ⟨h, fun h' => absurd h' (by decide +kernel), fun _ => by decide +kernel⟩⟩

/-- LAUNCH and STANDING_START while the identity page stands. -/
theorem witness_launchPacket : W.idGen.getLsbD 0 = false := by decide +kernel

/-- Context 1's tables map its first 4,096 pages writable and supervisor-only; at 0x20000 there is an object of one `nop` with a
standing entry of one brick. -/
def Wobj : State :=
  let tables : List Byte := [0x03, 0x00, 0x01]
  let obj := wordsToBytes [0x4C414353, 1, 0x201, 0, 0, 0, 4, 0, 0x0210, 0, 1024, 0, 68, 0, 0, 0, 4, 0x1C04, 0x00010000, 5, 1, 0, 0, 0, 0]
  let at_ (a : Nat) (b : List Byte) : List (Nat × Byte) := b.zipIdx.map fun x => (a + x.2, x.1)
  { W with
    contexts := [(1, { key := 1, bufCount := 4 })]
    mem := memSetAll [] (at_ 0 tables ++ [(0x10000, 0x0D)] ++ at_ 0x20000 obj) }

def startFields : List Field := [⟨1, true, [0x20000, 0]⟩, ⟨13, true, [1]⟩, ⟨26, true, [0, 0]⟩, ⟨40, true, [0, 0]⟩]

theorem witness_standingStart : Wobj.idGen.getLsbD 0 = false ∧
    ((Wobj.accept 1 true (some (0, 0)) startFields none 0).prog Wobj.nextLid).isSome = true := by decide +kernel

def progFields : List Field := [⟨50, true, [1, 0]⟩, ⟨51, true, [1, 0]⟩, ⟨53, true, [1, 9]⟩]

/-- STANDING_STOP, INPUT_POST without and with a payload. -/
theorem witness_progPackets : (∀ fs ∈ [progFields, progFields ++ [⟨52, true, [0x100, 0, 7, 8]⟩]],
      Wp.running? 1 fs = some (1, prog1) ∧ prog1.lastSeq.toNat < (f2 fs 51 0).toNat ∧
      ∀ c ∈ inputContribs 1 prog1 (f2 fs 51 0) fs, prog1.brick? c.brick ≠ none) ∧
    fbody progFields 52 = none ∧ fbody (progFields ++ [⟨52, true, [0x100, 0, 7, 8]⟩]) 52 = some [0x100, 0, 7, 8] := by decide +kernel

def copyFields : List Field := [⟨70, true, recOp 0⟩, ⟨71, true, [3]⟩, ⟨13, true, [1]⟩]

theorem witness_copyPacket : W.domainMask copyFields = .ok 1 ∧ cSk ((fbody copyFields 70).getD []) ≤ 1 ∧
    cDk ((fbody copyFields 70).getD []) ≤ 1 ∧ f1 copyFields 71 0 ≤ 7 := by decide +kernel

theorem witness_nodeSignal : let fs : List Field := [⟨80, true, [0]⟩, ⟨13, true, [1]⟩]
    Wsig.domainMask fs = .ok 1 ∧ ((Wsig.die ((Wsig.domainOf 1).headD 0)).node? 1 (BitVec.ofNat 32 (f1 fs 80 0))).isSome = true ∧
      Wsig.ctxBlocked ((Wsig.domainOf 1).headD 0) 1 .walker = false := by decide +kernel

/-- CONTEXT_CREATE of context 2 with the tables of `Wobj` and 64 trap slots from 0x100000. -/
def createFields : List Field :=
  [⟨90, true, [2]⟩, ⟨91, true, [0, 0]⟩, ⟨92, true, [0, 0]⟩, ⟨100, true, [0x100000, 0, 64]⟩, ⟨101, true, [0x200000, 0, 1]⟩]

def Wcreated : State :=
  { Wobj with contexts := tset Wobj.contexts 2 (newContext Wobj createFields), nextKey := Wobj.nextKey + 1 }

theorem witness_contextCreate : f1 createFields 90 0 = 2 ∧ tget Wobj.contexts 2 = none ∧ contextOk (newContext Wobj createFields) = true ∧
    Wcreated.areaOk 2 (newContext Wobj createFields).trapBase.toNat (16384 * (newContext Wobj createFields).tslots) = true ∧
    Wcreated.areaOk 2 (newContext Wobj createFields).saveBase.toNat (65536 * (newContext Wobj createFields).svsize) = true ∧
    f2? createFields 93 = none := by decide +kernel

/-- One that names the trap image at 0x20000. -/
theorem witness_contextWithImage : let fs := createFields ++ [⟨93, true, [0x20000, 0]⟩]
    newContext Wobj fs = newContext Wobj createFields ∧ f2? fs 93 = some 0x20000 ∧
      (((Wcreated.clearSlots 2).clearCounters 2).trapImage 2 0x20000).isSome = true := by decide +kernel

/-- CONTEXT_DESTROY of a context whose launches have ended, and PEER_SET of one entry. -/
theorem witness_contextDestroy : let fs : List Field := [⟨90, true, [1]⟩, ⟨99, true, [5, 6, 7, 0]⟩]
    let s : State := { W with launches := [] }
    f1 fs 90 0 = 1 ∧ tget s.contexts 1 ≠ none ∧ s.ctxBusy 1 = false ∧ ∀ c ∈ chunks 4 ((fbody fs 99).getD []), c.getD 3 0 = 0 := by
  decide +kernel

/-- A counter of the hub that the context owns. -/
theorem witness_hubCounter : let s : State := { W with hubCtrs := vset W.hubCtrs 3 { ctx := 1, count := 9 } }
    s.hubCtrs[3]? = some { ctx := 1, count := 9 } := by decide +kernel

theorem witness_iterateRead : let fs : List Field := [⟨50, true, [1, 0]⟩, ⟨110, true, [0, 0]⟩, ⟨111, true, [0, 0]⟩]
    Wp.running? 1 fs = some (1, prog1) ∧
      ((chunks 2 ((fbody fs 110).getD [])).mapM fun c => Wp.iterElem 1 prog1 (c.getD 0 0).toNat (c.getD 1 0).toNat).isSome = true := by
  decide +kernel

/-- A query of an attestation report. -/
theorem witness_query : f1 [⟨120, true, [0]⟩] 120 1 = 0 := by decide +kernel

/-- PIN of session 7 with one buffer on die 0. -/
def pinFields : List Field := [⟨60, true, [7, 0]⟩, ⟨16, true, [0x8001, 64, 0]⟩, ⟨13, true, [1]⟩]

def madeB (r : Except Status State) : Bool := match r with
  | .ok _ => true
  | .error _ => false

theorem made_of {r : Except Status State} (k : madeB r = true) : ∃ s, r = .ok s := by
  unfold madeB at k
  split at k
  · exact ⟨_, rfl⟩
  · cases k

theorem witness_pin : let rs := (chunks 3 ((fbody pinFields 16).getD [])).map bufReq
    let onDie := fun d => (rs.filter fun r => Wobj.onlineDies.getD r.die 24 == d).map BufReq.id
    Wobj.domainMask pinFields = .ok 1 ∧ (∀ r ∈ rs, r.lvl = 2) ∧ (∀ d ∈ Wobj.domainOf 1, onDie d ≠ [] ∧ (onDie d).length ≤ 8) ∧
    (∀ d ∈ Wobj.domainOf 1, Wobj.dies.toList.all (fun x => x.pins.isEmpty) = true ∧ (Wobj.die d).pins.length < 4096) ∧
    ∃ s', State.makeBufs 1 0 (some (f2 pinFields 60 0)) 0 (Wobj.domainOf 1) ((List.range 24).filter fun i => Nat.testBit 1 i) [] rs Wobj = .ok s' :=
  ⟨by decide +kernel, by decide +kernel, by decide +kernel, by decide +kernel, made_of (by decide +kernel)⟩

theorem witness_unpin : let s : State := { W with dies := vupd W.dies 0 fun d => { d with pins := [{ session := 7, ctx := 1 }] } }
    f2 [⟨60, true, [7, 0]⟩] 60 0 = 7 ∧ (∃ p ∈ (s.die 0).pins, p.session = 7 ∧ p.ctx = 1) ∧
      ∀ l ∈ s.launches, ¬(l.2.ctx = 1 ∧ l.2.ended = false ∧ l.2.session = some 7) := by decide +kernel

/-- A submission in the latch, and the latch overflowed. -/
theorem witness_latch : let s : State := { W with latch := [(0, 3)], lovf := true }
    s.running = true ∧ s.latch = (0, 3) :: [] ∧ s.lovf = true := by decide +kernel

/-- A tail that raises its queue's, at both ends of what the ring holds past the read index; and one that lies too far. -/
theorem witness_tails : let s := Wpk [0x106]
    (s.hqueue 0).tail = 1 ∧ (∃ d, s.qdesc 0 = some d ∧ d.en = true ∧ d.log = 10) ∧ (s.hqueue 0).rd = 0 ∧
      (1 < 2 ∧ 2 ≤ 0 + 2 ^ 10) ∧ (1 < 1024 ∧ 1024 ≤ 0 + 2 ^ 10) ∧ 0 + 2 ^ 10 < 1025 :=
  ⟨by decide +kernel, ⟨((Wpk [0x106]).qdesc 0).getD (qd true 1), by decide +kernel⟩, by decide +kernel, by decide, by decide, by decide⟩

/-- A packet of length 0. -/
theorem witness_queueStop : let s := { Wpk [6] with hqueues := [(0, { tail := 1 })] }
    (tkeys s.hqueues).find? (fun q => s.nextPkt q = .stop) = some 0 := by decide +kernel

theorem witness_rollover : ({ W with xmssLeaf := 1044480 } : State).power = true ∧ 2 ^ 20 - 4096 ≤ ({ W with xmssLeaf := 1044480 } : State).xmssLeaf := by decide +kernel

/-- INVAL with and without GO, DRVFEAT with and without a context, the three kinds of register, and a submission. -/
theorem witness_registers : W.power = true ∧ W.contexts ≠ [] ∧ State.reset.contexts = [] ∧
    ({ w2 := 0x8000000000000000 } : ExtIn).w2.getLsbD 63 = true ∧ ({} : ExtIn).w2.getLsbD 63 = false ∧ ({} : ExtIn).q = 0 ∧
    ({ q := 1 } : ExtIn).q = 1 ∧ ({ q := 2 } : ExtIn).q = 2 ∧ W.latch.length < 4096 ∧
    4096 ≤ ({ W with latch := List.replicate 4096 (0, 0) } : State).latch.length := by decide +kernel

/-- A read of the host's port in host memory, and one that a granule of the HDM window answers with no mapping. -/
theorem witness_hostPort : (W.hostLocs 0 4).isSome = true ∧ ({ W with hdmCnt := 1 } : State).hostLocs 0x1000000000000 4 = none ∧
    W.power = true := by
  decide +kernel

/-! ### Part 11: power, service, links, debugger -/

theorem witness_power : State.reset.power = false ∧ W.power = true ∧ W.fwOut = none ∧ ({ ok := true } : ExtIn).ok = true ∧
    (∀ k ∈ [0, 10, 11], ({ W with fwOut := some (k, 5, 0) } : State).fwOut = some (k, 5, 0)) := by decide +kernel

/-- A change that may begin: the retirement of the idle core 1, the evacuation of die 1, the return of die 2, which is away. -/
def Wsvc : State :=
  { W with
    ext := { die := 0, site := 1 }
    dies := vupd W.dies 2 fun d => { d with online := false, away := true } }

def serviceB (s : State) (i : Instr) : Bool := match serviceArms s i with
  | some (ok, at_, _) => ok && s.saveFits (((s.occupants s.ext.die at_).map fun g => (g.1.1, g.2.inst)).eraseDups) &&
      (s.occupants s.ext.die at_).isEmpty
  | none => false

theorem witness_service : Wsvc.change = none ∧ serviceB Wsvc .coreRetire = true ∧
    serviceB { Wsvc with ext := { die := 1 } } .dieEvacuate = true ∧ serviceB { Wsvc with ext := { die := 2 } } .dieReturn = true := by
  decide +kernel

/-- A change begun, of a die and a core that no unit is left on. -/
theorem witness_serviceEnds : ∀ i ∈ ([.coreRetire, .dieEvacuate, .dieReturn] : List Instr),
    ({ Wsvc with ext := { die := 1, site := 1 }, change := some (i, { die := 1, site := 1 }) } : State).change =
      some (i, { die := 1, site := 1 }) ∧ Wsvc.occupants 1 (fun _ => true) = [] := by decide +kernel

/-- A change begun, of the core on which a unit still runs, whose save fits. -/
theorem witness_serviceAgain : let s : State := { Wsave 1000 with ext := { die := 0, site := 0 }, change := some (.coreRetire, { die := 0, site := 0 }) }
    s.power = true ∧ s.change = some (.coreRetire, s.ext) ∧ s.occupants 0 (· == 0) ≠ [] ∧
      s.saveFits (((s.occupants 0 (· == 0)).map fun g => (g.1.1, g.2.inst)).eraseDups) = true := by decide +kernel

theorem witness_pageRetire : 65536 % 65536 = 0 ∧ 131072 % 65536 = 0 ∧ backed 65536 = true ∧ backed 131072 = true ∧
    (65536 : Nat) ≠ 131072 ∧ Memory.wf [(65540, 7), (200000, 9)] := by decide +kernel

/-- A page in the block that the tables of `Wg` map, with room for the table of its pages at 0x40000, and without. -/
theorem witness_splitBlock : (Wg.allEntries.filter fun x => inBlock x.1 (Wg.tableEntry x.2) 0x10030000) = [(2, 0x110000)] ∧
    Wg.tablesGiven 0x10030000 0x40000 = true ∧ Wg.tablesGiven 0x10030000 1 = false ∧ backed 0x10030000 = true ∧
    inBlock 2 (Wg.tableEntry 0x110000) 0x10030000 = true ∧ 0x10030000 % 65536 = 0 ∧ 0x40000 % 65536 = 0 ∧ 0x110000 % 8 = 0 ∧
    0x110000 < hostBase ∧ 0x110000 / 65536 ≠ 0x40000 / 65536 := by decide +kernel

/-- A peer's frame to context 1: applied with its key tag, refused with another. -/
def frameOf (tag : BitVec 16) : Frame := { port := 0, flow := 0, seq := 0, dest := 0x30000, ctx := 1, keyTag := tag, data := [1, 2] }

theorem witness_frames : (Wobj.takeFrame (frameOf 1)).isSome = true ∧ (Wobj.takeFrame (frameOf 9)).isNone = true := by decide +kernel

theorem witness_links : (0 ∉ W.linksDown) ∧
    (∃ x, tget ({ W with flows := [(0, { sent := [{ port := 0, flow := 0, seq := 0, dest := 0, ctx := 0, keyTag := 0, data := [] }] })] } : State).flows 0 =
      some x ∧ x.sent ≠ []) := ⟨by decide +kernel, ⟨_, rfl, by decide⟩⟩

/-- A halted thread, with a debugger's write to a register of its own, and to one that it has not; an idle one to drain. -/
def Whalt : State := { W.updThr probeRef fun th => { th with halted := true } with ext := { lid := 1, inst := 0, thread := probeRef, word := 9 } }

theorem witness_debug : (Whalt.thr probeRef).halted = true ∧ probeRef ∈ tkeys Whalt.threads ∧
    Whalt.debugOutcome probeRef (.v 3) = 3 ∧ Whalt.debugOutcome probeRef (.v 300) ≠ 3 ∧
    ∀ t ∈ (Whalt.inst 1 0).members.flatMap fun m => Whalt.wgLive 1 m, (Whalt.thr t).halted = true := by decide +kernel

/-- Writes to a predicate and to an s register; a register that no result is outstanding for, and one that a load is on its way to. -/
theorem witness_debugOutcomes : ({ Whalt.ext with reg := .p 7 } : ExtIn).reg = .p 7 ∧ ({ Whalt.ext with reg := .s 5 } : ExtIn).reg = .s 5 ∧
    (∀ x ∈ Whalt.awaited probeRef ++ Whalt.popDst probeRef, overlaps 3 1 x.1 x.2 = false) ∧
    (let s : State := { Whalt with loads := [{ thread := probeRef, dst := 3, ty := .b64, pieces := [] }] }
     ∃ x ∈ s.awaited probeRef ++ s.popDst probeRef, overlaps 4 1 x.1 x.2 = true) := by
  refine ⟨rfl, rfl, by decide +kernel, ?_⟩
  exact ⟨(3, 2), by decide +kernel, by decide +kernel⟩

/-- A launch in deterministic scheduling mode whose step still has its thread to issue; and the other answer to a lost frame. -/
theorem witness_withinStep :
    (W.updLaunch 1 fun l => { l with det := 2, inStep := [(probeRef, 0, 0, 0)] }).atBoundary 1 = false ∧
      W.atBoundary 1 = true ∧ ({} : ExtIn).ok = false := by decide +kernel

/-! ### Part 12: the whole machine -/

/-- Well-formed instructions: those of the decoding tests. -/
theorem witness_wellFormed : wordsInt.all (fun x => x.2.wf) = true ∧ wordsMem.all (fun x => x.2.wf) = true ∧
    wordsShort.all (fun x => x.2.wf) = true := by decide +kernel

/-- A group that stands at an `add`. -/
theorem witness_issues : Issues (State.reset.probe [0xDA00000C]) { threads := [probeRef], level := 0, pc := 0 } []
    (.addShort ⟨.v 0, .v 0, .int 26, none⟩) := by
  unfold Issues; decide +kernel

theorem witness_unpowered : State.reset.mayStop ∧ ¬ W.mayStop := by unfold State.mayStop; decide +kernel

theorem witness_sound : Sound State.reset ∧ Sound Wobj := by unfold Sound; decide +kernel

/-- Canonical memories that read alike. -/
theorem witness_canonical : Memory.wf [(1, 5), (7, 9)] ∧ Memory.wf (memSet [(1, 5), (7, 9)] 1 0) := by decide +kernel

/-- A failed check of each kind: a feature that the object does not enable; an operand code that is not admitted; too few registers for
a PERFORM. -/
theorem witness_failedChecks : let s := W.updLaunch 1 fun l => { l with hdr := { l.hdr with features := 1 } }
    (s.groupFault { feat := some 9 }).isSome = true ∧ W.groupFault { a := .src } = none ∧
      (W.operandFault { a := .src } (.v 0) .lit (.v 0) (.v 0) false (W.active .always)).isSome = true ∧
      (let s := W.updWave probeRef fun w => { w with c := 8 }
       s.groupFault { count := 10 } = none ∧
         (s.operandFault { count := 10 } (.v 0) (.v 0) (.v 0) (.v 0) false (s.active .always)).isSome = true) := by decide +kernel

/-- Accesses of `Wm` at the bounds of each clause: the last address within 52 bits, the first beyond, a misaligned one, a stack access
below and within the region, and one that passes. -/
theorem witness_accesses : (2 ^ 52 ≤ (0x10000000000000 : DWord).toNat) ∧ ((0xFFFFFFFFFFFFF : DWord).toNat < 2 ^ 52) ∧
    ((18 : DWord).toNat % 4 ≠ 0) ∧ (Wm.thr probeRef).sp.toNat % 16 = 0 ∧
    ¬((Wm.stackRegion probeRef).1 ≤ (16 : DWord).toNat ∧ (16 : DWord).toNat + 4 ≤ (Wm.stackRegion probeRef).1 + (Wm.stackRegion probeRef).2) ∧
    Wm.access probeRef 0 16 4 true false = .ok [16, 17, 18, 19] := by decide +kernel

theorem witness_accessShape : AccessShape Wm probeRef 16 4 true false ∧
    AccessShape Wm probeRef ((Wm.thr probeRef).sp - 16) 8 true true := by unfold AccessShape; decide +kernel

/-- Registers at both ends of their ranges, at both levels. -/
theorem witness_registerRanges : (127 < 128 ∧ 7 < 8) ∧ (Wtr.thr probeRef).level ≠ 0 ∧ (15 < 16 ∨ 15 = 126 ∨ 15 = 127) ∧
    (Wm.thr probeRef).level = 0 := by decide +kernel

/-! ## Worked values of spec/05 and spec/06: a line, its sources in v1, v2 and v3, and what it writes -/

/-- `W` with v1, v2 and v3. -/
def Wv (x y z : Word) : State := W.updThr probeRef fun th => ((th.setV 1 x).setV 2 y).setV 3 z

/-- A register and the wave's flags after an instruction, and after its outstanding result where it has one. -/
def gives (i : Instr) (x y z : Word) (n : Nat) : Word × BitVec 7 :=
  let s := after i (Wv x y z)
  let s := if s.results.isEmpty then s else after (.sfuResult 0) s
  ((s.thr probeRef).getV n, (s.wave probeRef).fp)

def hs (d a b c : Operand) (ty : Ty) : Hdr := { hd d a b c ty with sat := true }

theorem test_integer_worked :
    gives (.add (hs (.v 3) (.v 1) (.v 2) (.v 0) .n32) 0) 0xFFFFFFF0 0x20 0 3 = (0xFFFFFFFF, 0) ∧
    gives (.add (hd (.v 3) (.v 1) (.v 2) (.v 0) .n32) 0) 0xFFFFFFF0 0x20 0 3 = (0x10, 0) ∧
    gives (.add (hs (.v 3) (.v 1) (.v 2) (.v 0) .i32) 0) 0x7FFFFFF0 0x20 0 3 = (0x7FFFFFFF, 0) ∧
    gives (.mulh (hd (.v 4) (.v 1) (.v 2) (.v 0) .n32) 0) 0xFFFFFFFF 0xFFFFFFFF 0 4 = (0xFFFFFFFE, 0) ∧
    gives (.mulh (hd (.v 4) (.v 1) (.v 2) (.v 0) .i32) 0) 0xFFFFFFFF 0xFFFFFFFF 0 4 = (0, 0) ∧
    gives (.abs (hs (.v 4) (.v 1) (.v 0) (.v 0) .i32) 0) 0x80000000 0 0 4 = (0x7FFFFFFF, 0) ∧
    gives (.abs (hd (.v 4) (.v 1) (.v 0) (.v 0) .i32) 0) 0x80000000 0 0 4 = (0x80000000, 0) ∧
    gives (.sar (hd (.v 5) (.v 1) (.int 20) (.v 0) .b32) 0) 0x80000000 0 0 5 = (0xF8000000, 0) ∧
    gives (.shr (hd (.v 5) (.v 1) (.v 2) (.v 0) .b32) 0) 0x80000000 40 0 5 = (0, 0) ∧
    gives (.bfx (hd (.v 6) (.v 1) (.v 2) (.v 0) .i32) 0) 0xABC 0x404 0 6 = (0xFFFFFFFB, 0) ∧
    gives (.bfx (hd (.v 6) (.v 1) (.v 2) (.v 0) .n32) 0) 0xABC 0x404 0 6 = (0xB, 0) ∧
    gives (.rot (hd (.v 9) (.v 1) (.int 8) (.v 0) .b32) 0) 0x12345678 0 0 9 = (0x78123456, 0) ∧
    gives (.prmt (hd (.v 7) (.v 1) (.v 2) (.v 3) .b32) 0) 0x44332211 0x88776655 0x9B40 7 = (0xFFFF5511, 0) ∧
    gives (.clz (hd (.v 8) (.v 2) (.v 0) (.v 0) .b64) 0) 0 0x100 0 8 = (55, 0) := by decide +kernel

theorem test_float_worked :
    gives (.ffma (hd (.v 4) (.v 1) (.v 2) (.v 3) .f32) 0) 0x3F800800 0x3F800800 0xBF801000 4 = (0x33800000, 0) ∧
    gives (.fmul (hd (.v 5) (.v 1) (.v 2) (.v 0) .f32) 0) 0x3F800800 0x3F800800 0xBF801000 5 = (0x3F801000, 0x10) ∧
    gives (.frint { hd (.v 5) (.v 1) (.v 0) (.v 0) .f32 with rnd := .rdn } 0) 0xC0200000 0 0 5 = (0xC0400000, 0x10) ∧
    gives (.fscale (hd (.v 6) (.v 1) (.int 13) (.v 0) .f32) 0) 0xC 0 0 6 = (2, 0x18) ∧
    gives (.fmin (hd (.v 2) (.v 1) (.v 3) (.v 0) .f32) 0) 0x7FC00001 0 0x3F800000 2 = (0x3F800000, 0) ∧
    gives (.fmin (hd (.v 2) (.v 1) (.v 3) (.v 0) .f32) 0) 0x80000000 0 0 2 = (0x80000000, 0) ∧
    gives (.fclass (hd (.v 7) (.v 1) (.v 0) (.v 0) .f32) 0) 0x00400000 0 0 7 = (0x20, 0) ∧
    gives (.cvt (hd (.v 2) (.v 1) (.v 0) (.v 0) .f32) .n32 0) 0xFFFFFFFF 0 0 2 = (0x4F800000, 0x10) ∧
    gives (.cvt (hd (.v 1) (.v 3) (.v 0) (.v 0) .f32) .e4m3 2) 0 0 0x7ED02946 1 = (0xC1000000, 0) ∧
    gives (.cvtins (hd (.v 3) (.v 1) (.v 0) (.v 0) .e4m3) .f32 3) 0x43FA0000 0 0x00D02946 3 = (0x7ED02946, 0x30) := by
  decide +kernel

/-- FSETP of a quiet NaN and 1.0: p1, and NV. -/
def setsP1 (x : FsetpX) : Bool × BitVec 7 :=
  let s := after (.fsetp (hd (.v 0) (.v 1) (.v 2) (.v 0) .f32) x) (Wv 0x7FC00000 0x3F800000 0)
  ((s.thr probeRef).getP 1, (s.wave probeRef).fp)

theorem test_fsetp_worked : setsP1 ⟨1, true, 1, 0, false, .set⟩ = (false, 1) ∧ setsP1 ⟨1, false, 1, 0, false, .set⟩ = (false, 0) ∧
    setsP1 ⟨1, false, 9, 0, false, .set⟩ = (true, 0) := by decide +kernel

theorem test_sfu_worked :
    gives (.fdiv (hd (.v 6) (.v 1) (.v 2) (.v 0) .f32) 0) 0x3F800000 0x40400000 0 6 = (0x3EAAAAAB, 0x10) ∧
    gives (.rsq (hd (.v 6) (.v 1) (.v 0) (.v 0) .f32) 0) 0x40800000 0 0 6 = (0x3F000000, 0) ∧
    gives (.log2 (hd (.v 6) (.v 1) (.v 0) (.v 0) .f32) 0) 0x80000000 0 0 6 = (0xFF800000, 2) ∧
    gives (.rcp (hd (.v 4) (.v 3) (.v 0) (.v 0) .f32) 0) 0 0 0x40600000 4 = (0x3E924925, 0x10) ∧
    gives (.div (hd (.v 7) (.v 1) (.v 2) (.v 0) .i32) 0) 0xFFFFFFF9 2 0 7 = (0xFFFFFFFD, 0) ∧
    gives (.rem (hd (.v 7) (.v 1) (.v 2) (.v 0) .i32) 0) 0xFFFFFFF9 2 0 7 = (0xFFFFFFFF, 0) ∧
    gives (.div (hd (.v 7) (.v 1) (.int 16) (.v 0) .n32) 0) 5 0 0 7 = (0xFFFFFFFF, 0) ∧
    gives (.div (hs (.v 7) (.v 1) (.v 2) (.v 0) .i32) 0) 0x80000000 0xFFFFFFFF 0 7 = (0x7FFFFFFF, 0) ∧
    gives (.div (hd (.v 7) (.v 1) (.v 2) (.v 0) .i32) 0) 0x80000000 0xFFFFFFFF 0 7 = (0x80000000, 0) := by decide +kernel

/-- The step of floats of spec/04: sixteen products of 2^-24 and 1.0, added once; and the ternary step that saturates. -/
theorem test_step_worked : stepFloat fmtE4m3 fmtE5m2 (-1) 0x3F800000 (List.replicate 16 (0x01, 0x04)) = (0x3F800008, 0) ∧
    stepTernary 2147483000 (List.replicate 32 (1, 127)) = (0x7FFFFFFF, 4) := by decide +kernel

/-- R307: CAP of a VBR session is at least W × H / 256 + 1,024, and the quotient is exact (R17): of 72 × 72 samples 1,044.25. -/
theorem test_capacity_exact : ∀ cap, cap = 1044 ∨ cap = 1045 →
    (State.configureGo 0 1 { ctx := 1, rec_ := [0, 0, 0xFFFFFFFF, 0x00480048, 0x0F02, 0, 100, BitVec.ofNat 32 cap, 30, 0, 0, 0, 0, 0, 0, 0] }
      W).1.status = if cap = 1044 then 7 else 0 := by
  rintro cap (rfl | rfl) <;> decide +kernel

/-- R305: TCOL 2 asks for four tile columns, also of 5 superblock columns, where uniform spacing would give three. -/
theorem test_four_tile_columns : uniformTiles 5 4 = false ∧ tileWidths 5 4 = [2, 1, 1, 1] ∧ uniformTiles 8 4 = true := by decide +kernel

/-- R255: where another thread of the workgroup has stored a byte after the acquire, a load shows the byte with the store and without;
a thread's own staged store it shows in any case. -/
theorem test_staged_by_another :
    let e (lane stamp : Nat) : Staged := { stamp := stamp, thread := { probeRef with lane := lane }, va := 100, bytes := [(100, 7)] }
    W.shows [e 1 5] { stamp := 3 } (some probeRef) { stamp := 9, seq := 0, start := 0 } [100] = [(0, none), (0, some 3)] ∧
      W.shows [e 0 5] { stamp := 3 } (some probeRef) { stamp := 9, seq := 0, start := 0 } [100] = [(0, none)] := by decide +kernel

/-- R379: a page whose tables' entries lie in it is moved with them. -/
theorem test_moved_entries : movedLoc 0x110000 0x150000 0x110008 = 0x150008 ∧ movedLoc 0x110000 0x150000 0x120008 = 0x120008 := by decide

end Sys2Proof.Tests
end

section
/-! Proofs about the encoding (spec/03): what the decoder answers for the words that the short map leaves to ZERO_WORD. -/

namespace Sys2Proof.Proofs.Encoding

/-- The low byte of word 0 holds LEN and, above it, MAJ (R37). -/
theorem toNat_mod_256_eq_len_maj (w : Word) : w.toNat % 256 = fieldN w 0 2 + 4 * fieldN w 2 6 := by
  simp only [fieldN]
  omega

/-- R49 in the short map: no other field of the word and no literal makes a difference. -/
theorem decodeShort_of_maj_zero {w : Word} (h : fieldN w 2 6 = 0) (lit : Option DWord) :
    decodeShort w lit = .encodingNotInstruction .zeroWord 0 w 0 := by
  simp [decodeShort, h]

/-- R38: LEN 00 is a short word alone. -/
theorem decodeWords_of_len_zero {w : Word} (h : fieldN w 0 2 = 0) (rest : List Word) :
    decodeWords (w :: rest) = (decodeShort w none, 4) := by
  simp [decodeWords, h]

/-- R38: LEN 10 is a short word with the literal of the two words behind it. -/
theorem decodeWords_of_len_two {w : Word} (h : fieldN w 0 2 = 2) (lo hi : Word) (rest : List Word) :
    decodeWords (w :: lo :: hi :: rest) = (decodeShort w (some (literalOf lo hi)), 12) := by
  simp [decodeWords, h]

/-- R49 for LEN 00. -/
theorem decodeWords_zeroWord_of_len_zero {w : Word} (h : w.toNat % 256 = 0) (rest : List Word) :
    (decodeWords (w :: rest)).1 = .encodingNotInstruction .zeroWord 0 w 0 := by
  have hbyte := toNat_mod_256_eq_len_maj w
  have hlen : fieldN w 0 2 = 0 := by omega
  have hmaj : fieldN w 2 6 = 0 := by omega
  rw [decodeWords_of_len_zero hlen, decodeShort_of_maj_zero hmaj]

/-- R49 for LEN 10, where the words of the literal are there (check 1 of R52 comes first). -/
theorem decodeWords_zeroWord_of_len_two {w : Word} (h : w.toNat % 256 = 2) (lo hi : Word) (rest : List Word) :
    (decodeWords (w :: lo :: hi :: rest)).1 = .encodingNotInstruction .zeroWord 0 w 0 := by
  have hbyte := toNat_mod_256_eq_len_maj w
  have hlt : fieldN w 0 2 < 4 := Nat.mod_lt _ (by decide)
  have hlen : fieldN w 0 2 = 2 := by omega
  have hmaj : fieldN w 2 6 = 0 := by omega
  rw [decodeWords_of_len_two hlen, decodeShort_of_maj_zero hmaj]

/-- Settles O26, by the two values of LEN; the all-zero word is one of LEN 00. -/
theorem theZeroWordIsNoInstruction : Obligations.TheZeroWordIsNoInstruction := by
  unfold Obligations.TheZeroWordIsNoInstruction
  refine ⟨fun w rest h => ?_, fun rest => decodeWords_zeroWord_of_len_zero rfl rest⟩
  obtain hlow | ⟨hlow, hrest⟩ := h
  · exact decodeWords_zeroWord_of_len_zero hlow rest
  · match rest, hrest with
    | lo :: hi :: tail, _ => exact decodeWords_zeroWord_of_len_two hlow lo hi tail

end Sys2Proof.Proofs.Encoding
end

section
/-! Proofs about the INT class (R76 to R78): what its long forms write. -/

namespace Sys2Proof.Proofs.Integer

open Sys2Proof.Machine Sys2Proof.Claims

/-- R76: the inputs of an INT form do not depend on the flags that stand. -/
@[simp] theorem intIn_flagged (ty : Ty) (a b c : Operand) (th : Thread) (w : Wave) (imm : Word) (lit : DWord) (fl : BitVec 7) :
    intIn ty a b c { th := th, wave := w.flagged fl, imm := imm, lit := lit } =
      intIn ty a b c { th := th, wave := w, imm := imm, lit := lit } := by
  simp [intIn]

/-- Nor does the value that an INT form gives, whatever its x. -/
theorem flagFree_intOut (ty : Ty) (a b c : Operand) (sat : Bool) (x : IntIn → Int) :
    FlagFree fun r => intOut ty sat (x (intIn ty a b c r)) := fun th w imm lit fl => by
  simp only [intIn_flagged]

/-- R76, R78: the INT long form of any x, once the checks pass, puts x in D, clamped first where SAT acts. -/
theorem int_effect {s : State} {h : Hdr} {n : Need} (imm : Word) (clamps : Bool) (x : IntIn → Int) (hg : s.GroupOk)
    (ha : s.Admits n h) :
    ValueEffect s (s.int h imm n clamps x) (s.active h.pred) (hlen h) (tyWide h.ty) h.d fun u =>
      intOut h.ty (clamps && h.sat) (x (intIn h.ty h.a h.b h.c (s.rd u imm h.lit))) :=
  alu_effect imm (tyWide h.ty) _ (flagFree_intOut h.ty h.a h.b h.c (clamps && h.sat) x) hg ha

/-- An instruction that does what `State.int` does has the effect of the table's row with the same x. -/
theorem intArm_holds {i : Instr} {h : Hdr} {imm : Word} {n : Need} {clamps : Bool} {x : IntIn → Int}
    (hexec : ∀ s, exec i s = .next (s.int h imm n clamps x)) : (intArm h imm n clamps x).Holds i :=
  fun s hg ha => ⟨s.int h imm n clamps x, hexec s, int_effect imm clamps x hg ha⟩

/-- R77, R78: each row of the INT table is one of `intArm`, and the instruction does what `State.int` does with the row's
operand kinds, SAT and x. -/
theorem exec_of_intArms {i : Instr} {A : ValueArm} (hA : intArms i = some A) :
    ∃ h imm n clamps x, A = intArm h imm n clamps x ∧ ∀ s, exec i s = .next (s.int h imm n clamps x) := by
  unfold intArms at hA
  split at hA
  case h_18 => cases hA
  all_goals
    obtain rfl := Option.some.inj hA
    exact ⟨_, _, _, _, _, rfl, fun _ => rfl⟩

/-- Settles O1: every row of the table is an INT form of its x, and that form's effect is proved for any x. -/
theorem intFormsWriteX : Obligations.IntFormsWriteX := by
  unfold Obligations.IntFormsWriteX
  intro i A hA
  obtain ⟨h, imm, n, clamps, x, rfl, hexec⟩ := exec_of_intArms hA
  exact intArm_holds hexec

end Sys2Proof.Proofs.Integer
end

section
/-! Proofs about leaving a handler (R335, R339, R340): what the thread gives up, and what stays. -/

namespace Sys2Proof.Proofs.TrapReturn

open Sys2Proof.Machine

section

variable (s : State) (t : TRef)

theorem ctx_updCtx_self {c : Nat} (f : Context → Context) (h : c ∈ tkeys s.contexts) : (s.updCtx c f).ctx c = f (s.ctx c) := by
  obtain ⟨a, ha⟩ := tget_mem h
  simp [State.ctx, ha]

@[simp] theorem ctx_updThr (c : Nat) (f : Thread → Thread) : (s.updThr t f).ctx c = s.ctx c := rfl

@[simp] theorem dying_updThr (u : TRef) (f : Thread → Thread) : (s.updThr t f).dying u = s.dying u := rfl

/-! ## The slot given up, R335 -/

theorem thr_giveSlot (u : TRef) (h : t ∈ tkeys s.threads) :
    (s.giveSlot t).thr u = if u = t then { s.thr t with slot := none } else s.thr u := by
  rw [State.giveSlot, State.thr_updThr _ t u _ (by simpa using h)]
  simp

theorem slots_giveSlot (h : s.ctxOf t ∈ tkeys s.contexts) :
    ((s.giveSlot t).ctx (s.ctxOf t)).slots = (s.ctx (s.ctxOf t)).slots.filter fun k => (s.thr t).slot != some k := by
  rw [State.giveSlot, ctx_updThr, ctx_updCtx_self s _ h]

theorem tkeys_threads_giveSlot : tkeys (s.giveSlot t).threads = tkeys s.threads := by
  simp [State.giveSlot]

@[simp] theorem giveSlot_mem : (s.giveSlot t).mem = s.mem := rfl
@[simp] theorem giveSlot_waves : (s.giveSlot t).waves = s.waves := rfl
@[simp] theorem dying_giveSlot (u : TRef) : (s.giveSlot t).dying u = s.dying u := rfl

/-! ## The return, R340 -/

/-- The return in a thread's own record: all that is not named here stays, the registers first of all (R340). -/
def leftHandler (pc : Nat) (th : Thread) : Thread :=
  { th with level := 0, bank := {}, handling := none, pc := pc, wait := .none }

/-- Outside a gang that a KILL is ending (R358), leaving the handler gives up the slot and changes the thread's own record, and
no more. -/
theorem leaveHandler_of_not_dying {pc : Nat} (h : s.dying t = false) :
    s.leaveHandler t pc = (s.giveSlot t).updThr t (leftHandler pc) := by
  rw [State.leaveHandler]
  exact if_neg (by simp [h])

theorem thr_leaveHandler {pc : Nat} (u : TRef) (hd : s.dying t = false) (ht : t ∈ tkeys s.threads) :
    (s.leaveHandler t pc).thr u = if u = t then leftHandler pc { s.thr t with slot := none } else s.thr u := by
  have hgive : t ∈ tkeys (s.giveSlot t).threads := by rwa [tkeys_threads_giveSlot]
  rw [leaveHandler_of_not_dying s t hd, State.thr_updThr _ t u _ hgive]
  by_cases hu : u = t <;> simp [thr_giveSlot s t _ ht, hu]

theorem slots_leaveHandler {pc : Nat} (hd : s.dying t = false) (hc : s.ctxOf t ∈ tkeys s.contexts) :
    ((s.leaveHandler t pc).ctx (s.ctxOf t)).slots =
      (s.ctx (s.ctxOf t)).slots.filter fun k => (s.thr t).slot != some k := by
  rw [leaveHandler_of_not_dying s t hd, ctx_updThr, slots_giveSlot s t hc]

/-- The slot that the thread held is free again (R335). -/
theorem slot_not_mem_slots_leaveHandler {pc k : Nat} (hd : s.dying t = false) (hc : s.ctxOf t ∈ tkeys s.contexts)
    (hk : (s.thr t).slot = some k) : k ∉ ((s.leaveHandler t pc).ctx (s.ctxOf t)).slots := by
  simp [slots_leaveHandler s t hd hc, hk]

theorem mem_leaveHandler {pc : Nat} (hd : s.dying t = false) : (s.leaveHandler t pc).mem = s.mem := by
  simp [leaveHandler_of_not_dying s t hd]

theorem waves_leaveHandler {pc : Nat} (hd : s.dying t = false) : (s.leaveHandler t pc).waves = s.waves := by
  simp [leaveHandler_of_not_dying s t hd]

end

/-- Settles O16: the thread's own record, without the slot, is changed as `leftHandler` says, and its slot has left the
context's slots. -/
theorem trapReturnRestoresLevelZero : Obligations.TrapReturnRestoresLevelZero := by
  unfold Obligations.TrapReturnRestoresLevelZero
  intro s t pc ht hc hkiller e
  have hd : s.dying t = false := by simp [State.dying, hkiller]
  have hself : e.thr t = leftHandler pc { s.thr t with slot := none } := by simp [e, thr_leaveHandler s t t hd ht]
  have hother : ∀ u, u ≠ t → e.thr u = s.thr u := fun u hu => by simp [e, thr_leaveHandler s t u hd ht, hu]
  rw [hself]
  exact ⟨rfl, rfl, rfl, rfl, rfl, rfl, rfl, rfl, rfl, fun _ hk => slot_not_mem_slots_leaveHandler s t hd hc hk, hother,
    mem_leaveHandler s t hd, waves_leaveHandler s t hd⟩

end Sys2Proof.Proofs.TrapReturn
end

section
/-! Proofs about the encoding (spec/03 R37 to R52): the fields of a packed word, and that decoding undoes encoding. -/

namespace Sys2Proof.Proofs.RoundTrip

/-! ## Fields of a packed word -/

/-- The n bits from bit lo up of the number that a list of fields packs to. -/
def slice (l : List (Nat × Nat)) (lo n : Nat) : Nat := pack l / 2 ^ lo % 2 ^ n

theorem slice_nil (lo n : Nat) : slice [] lo n = 0 := by simp [slice, pack]

/-- Bits behind the first field are bits of the rest. -/
theorem slice_skip {w v lo n : Nat} {rest : List (Nat × Nat)} (h : w ≤ lo) :
    slice ((w, v) :: rest) lo n = slice rest (lo - w) n := by
  obtain ⟨k, rfl⟩ := Nat.exists_eq_add_of_le h
  rw [slice, slice, pack, Nat.pow_add, ← Nat.div_div_eq_div_mul, Nat.add_mul_div_left _ _ (Nat.two_pow_pos w),
    Nat.div_eq_of_lt (Nat.mod_lt _ (Nat.two_pow_pos w)), Nat.zero_add, Nat.add_sub_cancel_left]

/-- Bits from the start are those of the first field, and above them those of the rest. -/
theorem slice_zero_split {w v n : Nat} {rest : List (Nat × Nat)} (h : w ≤ n) :
    slice ((w, v) :: rest) 0 n = v % 2 ^ w + 2 ^ w * slice rest 0 (n - w) := by
  obtain ⟨k, rfl⟩ := Nat.exists_eq_add_of_le h
  rw [slice, slice, pack, Nat.pow_zero, Nat.div_one, Nat.div_one, Nat.add_sub_cancel_left, Nat.pow_add, Nat.mod_mul,
    Nat.add_mul_mod_self_left, Nat.mod_mod, Nat.add_mul_div_left _ _ (Nat.two_pow_pos w),
    Nat.div_eq_of_lt (Nat.mod_lt _ (Nat.two_pow_pos w)), Nat.zero_add]

/-- Bits that lie within the first field. -/
theorem slice_inside {w v lo n : Nat} {rest : List (Nat × Nat)} (h : lo + n ≤ w) :
    slice ((w, v) :: rest) lo n = v / 2 ^ lo % 2 ^ n := by
  obtain ⟨k, rfl⟩ := Nat.exists_eq_add_of_le h
  rw [slice, pack]
  have e : v % 2 ^ (lo + n + k) + 2 ^ (lo + n + k) * pack rest = 2 ^ lo * (2 ^ n * (2 ^ k * pack rest)) + v % 2 ^ (lo + n + k) := by
    rw [Nat.pow_add, Nat.pow_add]; ring
  rw [e, Nat.mul_add_div (Nat.two_pow_pos lo), Nat.mul_add_mod, Nat.pow_add, Nat.pow_add, Nat.mul_assoc, Nat.mod_mul,
    Nat.add_comm, Nat.mul_add_div (Nat.two_pow_pos lo), Nat.div_eq_of_lt (Nat.mod_lt _ (Nat.two_pow_pos lo)), Nat.add_zero,
    Nat.mod_mul_right_mod]

/-- Bits that begin within the first field and end behind it. -/
theorem slice_across {w v lo n : Nat} {rest : List (Nat × Nat)} (h : lo ≤ w) (h' : w ≤ lo + n) :
    slice ((w, v) :: rest) lo n = v % 2 ^ w / 2 ^ lo + 2 ^ (w - lo) * slice rest 0 (lo + n - w) := by
  have e : slice ((w, v) :: rest) lo n = slice ((w, v) :: rest) 0 (lo + n) / 2 ^ lo := by
    simp [slice, Nat.pow_add, Nat.mod_mul_right_div_self]
  obtain ⟨k, rfl⟩ := Nat.exists_eq_add_of_le h
  rw [e, slice_zero_split h', Nat.pow_add 2 lo k, Nat.mul_assoc, Nat.add_mul_div_left _ _ (Nat.two_pow_pos lo),
    Nat.add_sub_cancel_left]

theorem fieldN_packW {l : List (Nat × Nat)} {lo n : Nat} (h : lo + n ≤ 32) : fieldN (packW l) lo n = slice l lo n := by
  obtain ⟨k, hk⟩ := Nat.exists_eq_add_of_le h
  rw [fieldN, packW, BitVec.toNat_ofNat, slice, hk, Nat.add_assoc, Nat.pow_add, Nat.mod_mul_right_div_self, Nat.pow_add,
    Nat.mod_mul_right_mod]

theorem field_eq_fieldN (w : Word) (lo n : Nat) : field w lo n = BitVec.ofNat n (fieldN w lo n) := by
  simp [field, fieldN, ← BitVec.toNat_inj]

theorem flag_eq_fieldN (w : Word) (lo : Nat) : flag w lo = (fieldN w lo 1 == 1) := by simp [flag, fieldN]

theorem b2n_mod_two (b : Bool) : b2n b % 2 = b2n b := by cases b <;> rfl
theorem b2n_beq_one (b : Bool) : (b2n b == 1) = b := by cases b <;> rfl

/-! ## Codes of the enumerations -/

@[simp] theorem decodeTy_code (t : Ty) : decodeTy t.code = some t := by cases t <;> rfl
@[simp] theorem decodeRnd_code (r : Rnd) : decodeRnd r.code = some r := by cases r <;> rfl
@[simp] theorem decodeCnd_code (c : Cnd) : decodeCnd c.code = some c := by cases c <;> rfl
@[simp] theorem decodeBop_code (b : Bop) : decodeBop b.code = b := by cases b <;> rfl
@[simp] theorem decodeSri_code (r : Sri) : decodeSri r.code = some r := by cases r <;> rfl
@[simp] theorem decodeOrd_code (o : Ord4) : decodeOrd o.code = o := by cases o <;> rfl
@[simp] theorem decodeScp_code (s : Scp) : decodeScp s.code = s := by cases s <;> rfl
@[simp] theorem decodeXOp_code (o : XOp) : decodeXOp o.code = some o := by cases o <;> rfl
@[simp] theorem decodeLvl_code (l : Lvl) : decodeLvl l.code = some l := by cases l <;> rfl
@[simp] theorem decodeTk_code (t : Tk) : decodeTk t.code = some t := by cases t <;> rfl
@[simp] theorem decodeFld_code (f : Fld) : decodeFld f.code = some f := by cases f <;> rfl
@[simp] theorem decodeCntScope_code (c : CntScope) : decodeCntScope c.code = some c := by cases c <;> rfl

/-! Each code fits its field. -/

@[simp] theorem ty_code_mod (t : Ty) : t.code % 32 = t.code := by cases t <;> rfl
@[simp] theorem rnd_code_mod (r : Rnd) : r.code % 8 = r.code := by cases r <;> rfl
@[simp] theorem cnd_code_mod (c : Cnd) : c.code % 16 = c.code := by cases c <;> rfl
@[simp] theorem bop_code_mod (b : Bop) : b.code % 4 = b.code := by cases b <;> rfl
@[simp] theorem sri_code_mod (r : Sri) : r.code % 256 = r.code := by cases r <;> rfl
@[simp] theorem ord_code_mod (o : Ord4) : o.code % 4 = o.code := by cases o <;> rfl
@[simp] theorem scp_code_mod (s : Scp) : s.code % 4 = s.code := by cases s <;> rfl
@[simp] theorem xop_code_mod (o : XOp) : o.code % 16 = o.code := by cases o <;> rfl
@[simp] theorem lvl_code_mod (l : Lvl) : l.code % 4 = l.code := by cases l <;> rfl
@[simp] theorem tk_code_mod (t : Tk) : t.code % 4 = t.code := by cases t <;> rfl
@[simp] theorem fld_code_mod (f : Fld) : f.code % 8 = f.code := by cases f <;> rfl
@[simp] theorem cntScope_code_mod (c : CntScope) : c.code % 4 = c.code := by cases c <;> rfl

/-! ## Operand codes and guards -/

theorem operand_code_lt {o : Operand} (h : o.wf = true) : o.code < 256 := by
  cases o <;> simp only [Operand.code, Operand.wf, decide_eq_true_eq] at h ⊢ <;> omega

/-- R39: the code of an operand that is no reserved one out of range decodes to it. -/
theorem decodeOperand_code {o : Operand} (h : o.wf = true) : decodeOperand o.code = o := by
  cases o with
  | v n => simp [decodeOperand, Operand.code, show n.toNat < 128 by omega]
  | s n =>
    have h1 : ¬128 + n.toNat < 128 := by omega
    have h2 : 128 + n.toNat < 192 := by omega
    simp [decodeOperand, Operand.code, h1, h2]
  | int k =>
    have h1 : ¬192 + k.toNat < 128 := by omega
    have h2 : ¬192 + k.toNat < 192 := by omega
    have h3 : 192 + k.toNat < 224 := by omega
    simp [decodeOperand, Operand.code, h1, h2, h3]
  | flt k =>
    have h1 : ¬224 + k.toNat < 128 := by omega
    have h2 : ¬224 + k.toNat < 192 := by omega
    have h3 : ¬224 + k.toNat < 224 := by omega
    have h4 : 224 + k.toNat < 240 := by omega
    simp [decodeOperand, Operand.code, h1, h2, h3, h4]
  | rsv k =>
    have hk : k.toNat < 14 := by simpa [Operand.wf] using h
    have h1 : ¬240 + k.toNat < 128 := by omega
    have h2 : ¬240 + k.toNat < 192 := by omega
    have h3 : ¬240 + k.toNat < 224 := by omega
    have h4 : ¬240 + k.toNat < 240 := by omega
    have h5 : 240 + k.toNat < 254 := by omega
    simp [decodeOperand, Operand.code, h1, h2, h3, h4, h5]
  | imm => rfl
  | lit => rfl

theorem pred_code_lt (p : Pred) : p.code < 16 := by
  cases p <;> simp only [Pred.code] <;> omega

/-- R43: the code of a guard that names p1 to p7 decodes to it. -/
theorem decodePred_code {p : Pred} (h : p.wf = true) : decodePred p.code = some p := by
  cases p with
  | always => rfl
  | pos k =>
    have hk : k.toNat ≠ 0 := by simpa [Pred.wf, ← BitVec.toNat_inj] using h
    simp [decodePred, Pred.code, hk, show k.toNat < 8 by omega]
  | neg k =>
    have hk : k.toNat ≠ 0 := by simpa [Pred.wf, ← BitVec.toNat_inj] using h
    simp [decodePred, Pred.code, hk]

/-! ## Words 0 and 1, and the literal -/

theorem word0_fields {len maj : Nat} {d a b : Operand} (hlen : len < 4) (hmaj : maj < 64) (hd : d.wf = true)
    (ha : a.wf = true) (hb : b.wf = true) :
    fieldN (word0 len maj d a b) 0 2 = len ∧ fieldN (word0 len maj d a b) 2 6 = maj ∧
      decodeOperand (fieldN (word0 len maj d a b) 8 8) = d ∧ decodeOperand (fieldN (word0 len maj d a b) 16 8) = a ∧
      decodeOperand (fieldN (word0 len maj d a b) 24 8) = b := by
  have hd' := operand_code_lt hd
  have ha' := operand_code_lt ha
  have hb' := operand_code_lt hb
  simp [word0, fieldN_packW, slice_skip, slice_inside, Nat.mod_eq_of_lt, hlen, hmaj, hd', ha', hb', decodeOperand_code,
    hd, ha, hb]

theorem word1_fields {min : Nat} {h : Hdr} (hmin : min < 1024) (hc : h.c.wf = true) (hp : h.pred.wf = true) :
    fieldN (word1 min h) 0 10 = min ∧ decodeOperand (fieldN (word1 min h) 10 8) = h.c ∧
      decodePred (fieldN (word1 min h) 18 4) = some h.pred ∧ decodeTy (fieldN (word1 min h) 22 5) = some h.ty ∧
      decodeRnd (fieldN (word1 min h) 27 3) = some h.rnd ∧ flag (word1 min h) 30 = h.sat ∧
      flag (word1 min h) 31 = false := by
  have hc' := operand_code_lt hc
  have hp' := pred_code_lt h.pred
  simp [word1, flag_eq_fieldN, fieldN_packW, slice_skip, slice_inside, slice_nil, Nat.mod_eq_of_lt, hmin, hc', hp',
    decodeOperand_code, decodePred_code, hc, hp, b2n_mod_two, b2n_beq_one]

/-- R12: the literal is its two words, the low one first. -/
theorem literalOf_words (l : DWord) :
    literalOf (BitVec.ofNat 32 l.toNat) (BitVec.ofNat 32 (l.toNat / 2 ^ 32)) = l := by
  apply BitVec.eq_of_toNat_eq
  simp only [literalOf, BitVec.toNat_ofNat]
  omega

/-! ## The maps, and the round trip -/

/-- A field as wide as the bit vector in it holds the vector. -/
theorem ofNat_toNat_mod {n m : Nat} (x : BitVec n) (h : m = 2 ^ n) : BitVec.ofNat n (x.toNat % m) = x := by
  subst h; simp

/-- R50, R52: each long form's MAJ and MIN are allocated, MAJ above 0, and its row admits the types of MAJ, MIN and word 2
(those of REDUX and SCAN by OP). -/
theorem longParts_allocated {i : Instr} {maj min : Nat} {w2 : Word} (hp : longParts i = some (maj, min, w2)) :
    0 < maj ∧ maj ≤ 0x18 ∧ min < 1024 ∧ minAllocated maj min = true ∧ classTypes maj min w2 = i.types := by
  unfold longParts at hp
  split at hp
  case h_168 => cases hp
  all_goals
    obtain ⟨rfl, rfl, rfl⟩ : _ ∧ _ ∧ _ := by simpa only [Option.some.injEq, Prod.mk.injEq] using hp
    refine ⟨by decide, by decide, by decide, by decide, ?_⟩
    simp [classTypes, Instr.types, fieldN_packW, slice_skip, slice_inside]

/-- R47: the row that MAJ and MIN select, with its fields read from its own word 2, is the form itself. -/
theorem classForm_longParts {i : Instr} {h : Hdr} {maj min : Nat} {w2 : Word} (hp : longParts i = some (maj, min, w2))
    (hh : i.hdr? = some h) : classForm maj min h w2 = some i := by
  unfold longParts at hp
  split at hp
  case h_168 => cases hp
  all_goals
    obtain ⟨rfl, rfl, rfl⟩ : _ ∧ _ ∧ _ := by simpa only [Option.some.injEq, Prod.mk.injEq] using hp
    obtain rfl := Option.some.inj hh
    try rfl
  all_goals
    simp [classForm, cmpForm, movForm, fltForm, cvtForm, ctlForm, effForm, memForm, divForm, xlnForm, synForm, tskForm,
      stdForm, spdForm, ownForm, tilForm, ordForm, queForm, engForm, mmaForm, dbgForm, mbz, field_eq_fieldN,
      flag_eq_fieldN, fieldN_packW, slice_skip, slice_inside, slice_across, slice_nil, b2n_mod_two, b2n_beq_one,
      AtomX.word, CntX.word, shflWord, synWord, ofNat_toNat_mod]
  case h_107 | h_108 => omega

/-- R52: a long form that is well-formed passes checks 3 to 8 in its own words. -/
theorem decodeLong_encoded {i : Instr} {h : Hdr} {len maj min : Nat} {w2 : Word} (hlen : len < 4)
    (hp : longParts i = some (maj, min, w2)) (hh : i.hdr? = some h) (hw : i.wf = true) :
    decodeLong (word0 len maj h.d h.a h.b) (word1 min h) w2 h.lit = i := by
  obtain ⟨hmaj, hmaj', hmin, halloc, htypes⟩ := longParts_allocated hp
  have hform := classForm_longParts hp hh
  simp only [Instr.wf, hh, Bool.and_eq_true, Hdr.wf] at hw
  obtain ⟨⟨⟨⟨⟨⟨hd, ha⟩, hb⟩, hc⟩, hpred⟩, hty⟩, hfields⟩ := hw
  obtain ⟨-, e0, ed, ea, eb⟩ := word0_fields hlen (show maj < 64 by omega) hd ha hb
  obtain ⟨e1, ec, epred, ety, ernd, esat, eres⟩ := word1_fields hmin hc hpred
  have hty' : h.ty ∈ i.types := by simpa using hty
  have hne : (decide (maj = 0) || decide (0x18 < maj)) = false := by simp; omega
  simp [decodeLong, e0, ed, ea, eb, e1, ec, epred, ety, ernd, esat, eres, hne, halloc, htypes, hty', hform, hfields]

/-- R48: the row that MAJ of the short map selects is the form. -/
theorem shortForm_shortMaj {i : Instr} {maj : Nat} {f : Short} (hs : shortMaj i = some (maj, f)) :
    0 < maj ∧ maj < 64 ∧ i.hdr? = none ∧ i.short? = some f ∧ shortForm maj f = some i := by
  unfold shortMaj at hs
  split at hs
  case h_27 => cases hs
  all_goals
    obtain ⟨rfl, rfl⟩ : _ ∧ _ := by simpa only [Option.some.injEq, Prod.mk.injEq] using hs
    exact ⟨by decide, by decide, rfl, rfl, rfl⟩

theorem decodeShort_encoded {i : Instr} {f : Short} {len maj : Nat} (hlen : len < 4) (hs : shortMaj i = some (maj, f))
    (hw : i.wf = true) : decodeShort (word0 len maj f.d f.a f.b) f.lit = i := by
  obtain ⟨hmaj, hmaj', hh, hf, hform⟩ := shortForm_shortMaj hs
  simp only [Instr.wf, hh, hf, Short.wf, Bool.and_eq_true] at hw
  obtain ⟨⟨hd, ha⟩, hb⟩ := hw
  obtain ⟨-, e0, ed, ea, eb⟩ := word0_fields hlen hmaj' hd ha hb
  simp [decodeShort, e0, ed, ea, eb, hmaj.ne', hform]

/-- The instructions with a header are those of the long map. -/
theorem isSome_longParts (i : Instr) : (longParts i).isSome = i.hdr?.isSome := by cases i <;> rfl

/-- The instructions with the fields of a short form are those of the short map. -/
theorem isSome_shortMaj (i : Instr) : (shortMaj i).isSome = i.short?.isSome := by cases i <;> rfl

/-- A well-formed instruction stands in the short map, or in the long map with its header (R37). -/
theorem encodable {i : Instr} (hw : i.wf = true) :
    (∃ maj f, shortMaj i = some (maj, f)) ∨
      shortMaj i = none ∧ ∃ h maj min w2, i.hdr? = some h ∧ longParts i = some (maj, min, w2) := by
  cases hs : shortMaj i with
  | some p => exact .inl ⟨p.1, p.2, rfl⟩
  | none =>
    have hshort : i.short? = none := by simpa [hs] using (isSome_shortMaj i).symm
    cases hh : i.hdr? with
    | none => simp [Instr.wf, hh, hshort] at hw
    | some h =>
      obtain ⟨p, hp⟩ := Option.isSome_iff_exists.1 ((isSome_longParts i).trans (by rw [hh]; rfl))
      exact .inr ⟨rfl, h, p.1, p.2.1, p.2.2, rfl, hp⟩

/-- R38: the words of a short form decode to it, with any words behind them. -/
theorem decodeWords_short {i : Instr} {maj : Nat} {f : Short} (hs : shortMaj i = some (maj, f)) (hw : i.wf = true)
    (rest : List Word) :
    decodeWords (word0 (if f.lit.isSome then 2 else 0) maj f.d f.a f.b :: literalWords f.lit ++ rest) =
      (i, 4 * (1 + (literalWords f.lit).length)) := by
  obtain ⟨-, hmaj, hh, hf, -⟩ := shortForm_shortMaj hs
  have hops := hw
  simp only [Instr.wf, hh, hf, Short.wf, Bool.and_eq_true] at hops
  obtain ⟨⟨hd, ha⟩, hb⟩ := hops
  cases hl : f.lit with
  | none =>
    have e := decodeShort_encoded (show 0 < 4 by decide) hs hw
    rw [hl] at e
    obtain ⟨hlen, -⟩ := word0_fields (show 0 < 4 by decide) hmaj hd ha hb
    simp [decodeWords, literalWords, hlen, e]
  | some l =>
    have e := decodeShort_encoded (show 2 < 4 by decide) hs hw
    rw [hl] at e
    obtain ⟨hlen, -⟩ := word0_fields (show 2 < 4 by decide) hmaj hd ha hb
    simp only [literalWords, List.cons_append, List.nil_append, List.length_cons, List.length_nil, Option.isSome_some, if_true,
      decodeWords, hlen, literalOf_words, e]

/-- R38: the words of a long form decode to it, with any words behind them. -/
theorem decodeWords_long {i : Instr} {h : Hdr} {maj min : Nat} {w2 : Word} (hp : longParts i = some (maj, min, w2))
    (hh : i.hdr? = some h) (hw : i.wf = true) (rest : List Word) :
    decodeWords (word0 (if h.lit.isSome then 3 else 1) maj h.d h.a h.b :: word1 min h :: w2 :: literalWords h.lit ++ rest) =
      (i, 4 * (3 + (literalWords h.lit).length)) := by
  have hmaj : maj < 64 := by have := longParts_allocated hp; omega
  have hops := hw
  simp only [Instr.wf, hh, Bool.and_eq_true, Hdr.wf] at hops
  obtain ⟨⟨⟨⟨⟨⟨hd, ha⟩, hb⟩, -⟩, -⟩, -⟩, -⟩ := hops
  cases hl : h.lit with
  | none =>
    have e := decodeLong_encoded (show 1 < 4 by decide) hp hh hw
    rw [hl] at e
    obtain ⟨hlen, -⟩ := word0_fields (show 1 < 4 by decide) hmaj hd ha hb
    simp [decodeWords, literalWords, hlen, e]
  | some l =>
    have e := decodeLong_encoded (show 3 < 4 by decide) hp hh hw
    rw [hl] at e
    obtain ⟨hlen, -⟩ := word0_fields (show 3 < 4 by decide) hmaj hd ha hb
    simp only [literalWords, List.cons_append, List.nil_append, List.length_cons, List.length_nil, Option.isSome_some, if_true,
      decodeWords, hlen, literalOf_words, e]

/-- Settles O23: by the map in which the instruction stands, short or long, and by whether it has a literal. -/
theorem encodedInstructionsDecode : Obligations.EncodedInstructionsDecode := by
  unfold Obligations.EncodedInstructionsDecode
  intro i hw
  rcases encodable hw with ⟨maj, f, hs⟩ | ⟨hs, h, maj, min, w2, hh, hp⟩
  · obtain ⟨-, -, hh, hf, -⟩ := shortForm_shortMaj hs
    refine ⟨_, by rw [encode, hs], ?_, fun rest => ?_⟩
    · cases hl : f.lit <;> simp [Instr.bytes, hh, hf, hl, literalWords]
    · rw [decodeWords_short hs hw, List.length_cons, Nat.add_comm 1]
  · refine ⟨_, by rw [encode, hs, hh, hp], ?_, fun rest => ?_⟩
    · cases hl : h.lit <;> simp [Instr.bytes, hh, hl, literalWords]
    · rw [decodeWords_long hp hh hw, List.length_cons, List.length_cons, List.length_cons, Nat.add_comm 3]

end Sys2Proof.Proofs.RoundTrip
end

section
/-! Proofs about the decoder (spec/03 R37 to R52): the row that it selects, and that what it answers is well-formed. -/

namespace Sys2Proof.Proofs.Decoder

/-- Where it answers an instruction, the instruction has the header and admits the types. -/
def RowOf (h : Hdr) (ts : List Ty) (o : Option Instr) : Prop := ∀ i, o = some i → i.hdr? = some h ∧ i.types = ts

section
variable {h : Hdr} {ts : List Ty}

theorem rowOf_some {i : Instr} : RowOf h ts (some i) ↔ i.hdr? = some h ∧ i.types = ts := by simp [RowOf]

theorem rowOf_none : RowOf h ts none := fun _ e => nomatch e

theorem rowOf_ite {c : Prop} [Decidable c] {o p : Option Instr} :
    RowOf h ts (if c then o else p) ↔ (c → RowOf h ts o) ∧ (¬c → RowOf h ts p) := by
  split <;> simp [*]

theorem rowOf_map {α : Type} {o : Option α} {f : α → Instr} :
    RowOf h ts (o.map f) ↔ ∀ a, o = some a → RowOf h ts (some (f a)) := by
  cases o <;> simp [rowOf_none]

theorem rowOf_bind {α : Type} {o : Option α} {f : α → Option Instr} :
    RowOf h ts (o.bind f) ↔ ∀ a, o = some a → RowOf h ts (f a) := by
  cases o <;> simp [rowOf_none]

end

/-- R102: CVT and CVTINS. -/
theorem rowOf_cvtForm (min : Nat) (h : Hdr) (w2 : Word) : RowOf h (classTypes 0x06 min w2) (cvtForm min h w2) := by
  simp only [cvtForm, rowOf_bind, rowOf_ite, rowOf_none, implies_true, true_and]
  intro sty _ _
  split <;> simp [rowOf_some, rowOf_none, classTypes, Instr.hdr?, Instr.types]

/-- R156: the three forms of KMOV, which bits 17:16 of word 2 tell apart. -/
theorem rowOf_divForm (min : Nat) (h : Hdr) (w2 : Word) : RowOf h (classTypes 0x0B min w2) (divForm min h w2) := by
  unfold divForm
  split
  case h_5 => split <;> simp [rowOf_some, rowOf_none, rowOf_ite, mbz, classTypes, Instr.hdr?, Instr.types]
  all_goals simp [rowOf_some, rowOf_none, rowOf_ite, mbz, classTypes, Instr.hdr?, Instr.types]

/-- R159: REDUX and SCAN take the types of the OP that word 2 names. -/
theorem rowOf_xlnForm (min : Nat) (h : Hdr) (w2 : Word) : RowOf h (classTypes 0x0C min w2) (xlnForm min h w2) := by
  unfold xlnForm
  split
  all_goals simp [rowOf_some, rowOf_none, rowOf_ite, rowOf_bind, mbz, classTypes, Instr.hdr?, Instr.types]
  case h_8 | h_9 => intro op hop; simp [hop]

/-- R47, R50: the row of a class has the header that it is given, and admits the types of MAJ, MIN and word 2. -/
theorem rowOf_classForm (maj min : Nat) (h : Hdr) (w2 : Word) : RowOf h (classTypes maj min w2) (classForm maj min h w2) := by
  unfold classForm
  split
  case h_6 => exact rowOf_cvtForm min h w2
  case h_11 => exact rowOf_divForm min h w2
  case h_12 => exact rowOf_xlnForm min h w2
  case h_25 => exact rowOf_none
  all_goals
    simp only [intForm, bitForm, cmpForm, movForm, fltForm, sfuForm, ctlForm, effForm, memForm, synForm, tskForm, stdForm,
      spdForm, ownForm, tilForm, ordForm, queForm, engForm, mmaForm, sysForm, dbgForm]
    split
  all_goals
    simp [rowOf_some, rowOf_none, rowOf_ite, rowOf_map, rowOf_bind, mbz, classTypes, Instr.hdr?, Instr.types]

/-! ## What the decoder answers -/

theorem decodeOperand_wf (c : Nat) : (decodeOperand c).wf = true := by
  unfold decodeOperand
  split_ifs <;> simp [Operand.wf]
  omega

theorem decodePred_wf {c : Nat} {p : Pred} (h : decodePred c = some p) (hc : c < 16) : p.wf = true := by
  unfold decodePred at h
  split_ifs at h <;> cases h <;> simp [Pred.wf, ← BitVec.toNat_inj] <;> omega

/-- What R52 leaves of words: a well-formed instruction, or an event with a fault. -/
def Answer (i : Instr) : Prop := i.wf = true ∨ ∃ c d0 d1 d2, i = .encodingNotInstruction c d0 d1 d2

theorem answer_illegal (d w0 w1 : Word) : Answer (illegal d w0 w1) := .inr ⟨_, _, _, _, rfl⟩

/-- Checks 3 to 8 of R52 leave a well-formed form. -/
theorem answer_decodeLong (w0 w1 w2 : Word) (lit : Option DWord) : Answer (decodeLong w0 w1 w2 lit) := by
  unfold decodeLong
  extract_lets maj min
  split
  · exact answer_illegal ..
  split
  · exact answer_illegal ..
  split
  · exact answer_illegal ..
  next pred hpred =>
  split
  · exact answer_illegal ..
  next ty hty =>
  split
  · exact answer_illegal ..
  next htypes =>
  split
  · exact answer_illegal ..
  next rnd hrnd =>
  extract_lets h
  split
  · exact answer_illegal ..
  split
  · exact answer_illegal ..
  next i hi =>
  split
  next hfields =>
    obtain ⟨hh, ht⟩ := rowOf_classForm _ _ _ _ i hi
    have hp := decodePred_wf hpred (Nat.mod_lt _ (by decide))
    have hc : i.types.contains h.ty = true := by rw [ht]; simpa using htypes
    left
    simp only [Instr.wf, hh, Hdr.wf, h, decodeOperand_wf, hp, hfields, Bool.and_self, Bool.and_true, Bool.true_and]
    exact hc
  · exact answer_illegal ..

theorem shortForm_some {maj : Nat} {f : Short} {i : Instr} (h : shortForm maj f = some i) :
    i.hdr? = none ∧ i.short? = some f := by
  unfold shortForm at h
  split at h
  case h_27 => cases h
  all_goals exact Option.some.inj h ▸ ⟨rfl, rfl⟩

theorem answer_decodeShort (w0 : Word) (lit : Option DWord) : Answer (decodeShort w0 lit) := by
  unfold decodeShort
  split
  · exact .inr ⟨_, _, _, _, rfl⟩
  split
  next i hi =>
    obtain ⟨hh, hf⟩ := shortForm_some hi
    exact .inl (by simp [Instr.wf, hh, hf, Short.wf, decodeOperand_wf])
  next => exact answer_illegal ..

theorem answer_decodeWords (ws : List Word) : Answer (decodeWords ws).1 := by
  unfold decodeWords
  split
  · exact answer_illegal ..
  split
  · exact answer_decodeShort ..
  · exact answer_decodeShort ..
  · exact answer_decodeLong ..
  · exact answer_decodeLong ..
  all_goals exact answer_illegal ..

/-- R38: the length is that of LEN, whatever words are missing. -/
theorem decodeWords_length (w0 : Word) (rest : List Word) :
    (decodeWords (w0 :: rest)).2 = if fieldN w0 0 2 = 0 then 4 else if fieldN w0 0 2 = 3 then 20 else 12 := by
  have hlt : fieldN w0 0 2 < 4 := Nat.mod_lt _ (by decide)
  simp only [decodeWords]
  generalize fieldN w0 0 2 = n at hlt ⊢
  split
  case h_6 | h_7 =>
    have h0 : n ≠ 0 := by rintro rfl; simp_all
    have h2 : n ≠ 2 := by rintro rfl; simp_all
    by_cases h1 : n = 1
    · simp [h1]
    · have h3 : n = 3 := by omega
      simp [h3]
  all_goals rfl

/-- Settles O24: the words by what the decoder answers for them, the length by LEN. -/
theorem decodedInstructionsAreWellFormed : Obligations.DecodedInstructionsAreWellFormed := by
  unfold Obligations.DecodedInstructionsAreWellFormed
  refine fun ws => ⟨answer_decodeWords ws, ?_⟩
  cases ws with
  | nil => rfl
  | cons w0 rest =>
    have hlen : fieldN w0 0 2 = w0.toNat % 4 := by simp [fieldN]
    rw [decodeWords_length, hlen, List.headD_cons]
    generalize w0.toNat % 4 = n
    match n with
    | 0 | 1 | 2 | 3 => rfl
    | _ + 4 => rfl

end Sys2Proof.Proofs.Decoder
end

section
/-! Proofs about the forms that put a value in D or in a predicate (spec/03 R48; spec/05 R80 to R87; spec/06 R96 to R104). -/

namespace Sys2Proof.Proofs.Values

open Sys2Proof.Machine Sys2Proof.Claims

/-! ## Values in D -/

/-- An instruction that does what `State.alu` does with the row's checks, width and value has the row's effect. -/
theorem valueArm_holds {i : Instr} {A : ValueArm} (hexec : ∀ s, exec i s = .next (s.alu A.h A.imm A.need A.wide A.val))
    (hv : FlagFree A.val) : A.Holds i :=
  fun s hg ha => ⟨_, hexec s, alu_effect A.imm A.wide A.val hv hg ha⟩

theorem shortArm_holds {i : Instr} {A : ShortArm} (hexec : ∀ s, exec i s = .next (s.aluShort A.f A.need (tyWide A.ty) A.val))
    (hv : FlagFree A.val) : A.Holds i :=
  fun s hg ha => ⟨_, hexec s, aluShort_effect (tyWide A.ty) A.val hv hg ha⟩

/-- R80, R81: each row of the BIT table is a value of the operands alone. -/
theorem exec_of_bitArms {i : Instr} {A : ValueArm} (hA : bitArms i = some A) :
    (∀ s, exec i s = .next (s.alu A.h A.imm A.need A.wide A.val)) ∧ FlagFree A.val := by
  unfold bitArms at hA
  split at hA
  case h_9 => cases hA
  all_goals
    obtain rfl := Option.some.inj hA
    exact ⟨fun _ => rfl, fun th w imm lit fl => by simp [bitArm, rdA, rdB]⟩

theorem exec_of_movArms {i : Instr} {A : ValueArm} (hA : movArms i = some A) :
    (∀ s, exec i s = .next (s.alu A.h A.imm A.need A.wide A.val)) ∧ FlagFree A.val := by
  unfold movArms at hA
  split at hA
  case h_6 => cases hA
  all_goals
    obtain rfl := Option.some.inj hA
    exact ⟨fun _ => rfl, fun th w imm lit fl => by simp [bitArm, rdA]⟩

theorem exec_of_fltArms {i : Instr} {A : ValueArm} (hA : fltArms i = some A) :
    (∀ s, exec i s = .next (s.alu A.h A.imm A.need A.wide A.val)) ∧ FlagFree A.val := by
  unfold fltArms at hA
  split at hA
  case h_14 => cases hA
  all_goals
    obtain rfl := Option.some.inj hA
    exact ⟨fun _ => rfl, fun th w imm lit fl => by simp [fltArm, rdA, rdB, rdC]⟩

theorem exec_of_shortArms {i : Instr} {A : ShortArm} (hA : shortArms i = some A) :
    (∀ s, exec i s = .next (s.aluShort A.f A.need (tyWide A.ty) A.val)) ∧ FlagFree A.val := by
  unfold shortArms at hA
  split at hA
  case h_25 => cases hA
  all_goals
    obtain rfl := Option.some.inj hA
    exact ⟨fun _ => rfl, fun th w imm lit fl => by simp [intShort, fltShort, Integer.intIn_flagged]⟩

/-- Settles O2. -/
theorem bitFormsWriteTheirValue : Obligations.BitFormsWriteTheirValue := by
  unfold Obligations.BitFormsWriteTheirValue
  intro i A hA
  obtain ⟨hexec, hv⟩ := exec_of_bitArms hA
  exact valueArm_holds hexec hv

/-- Settles O3. -/
theorem floatFormsWriteTheirValueAndFlags : Obligations.FloatFormsWriteTheirValueAndFlags := by
  unfold Obligations.FloatFormsWriteTheirValueAndFlags
  intro i A hA
  obtain ⟨hexec, hv⟩ := exec_of_fltArms hA
  exact valueArm_holds hexec hv

/-- Settles O4. -/
theorem shortFormsActAsTheirLongForms : Obligations.ShortFormsActAsTheirLongForms := by
  unfold Obligations.ShortFormsActAsTheirLongForms
  intro i A hA
  obtain ⟨hexec, hv⟩ := exec_of_shortArms hA
  exact shortArm_holds hexec hv

theorem movFormsWriteTheirValue : Claims.MovFormsWriteTheirValue := by
  intro i A hA
  obtain ⟨hexec, hv⟩ := exec_of_movArms hA
  exact valueArm_holds hexec hv

/-! ## Predicates -/

theorem exec_of_predArms {i : Instr} {A : PredArm} (hA : predArms i = some A) :
    (∀ s, exec i s = .next (s.predForm A.h A.need A.pd A.val)) ∧ FlagFree A.val := by
  unfold predArms at hA
  split at hA
  case h_4 => cases hA
  all_goals
    obtain rfl := Option.some.inj hA
    exact ⟨fun _ => rfl, fun th w imm lit fl => by simp [rdA, rdB]⟩

/-- Settles O5. -/
theorem predicateFormsWriteTheirPredicate : Obligations.PredicateFormsWriteTheirPredicate := by
  unfold Obligations.PredicateFormsWriteTheirPredicate
  intro i A hA s hg ha
  obtain ⟨hexec, hv⟩ := exec_of_predArms hA
  exact ⟨_, hexec s, predForm_effect A.pd A.val hv hg ha⟩

/-! ## Special registers and predicates -/

/-- A special register of a thread does not depend on the other threads' records (R26). -/
theorem special_updThr_ne (s : State) {u v : TRef} (f : Thread → Thread) (r : Sri) (h : u ≠ v) :
    (s.updThr v f).special u r = s.special u r := by
  simp only [State.special, State.thr_updThr_ne s f h]
  rfl

theorem movs_effect {s : State} {h : Hdr} (r : Sri) (hg : s.GroupOk) (ha : s.Admits { d := if sriWide r then .dstW else .dst } h) :
    ∃ t, exec (.movs h r) s = .next t ∧
      FormEffect s t (s.active h.pred) (hlen h) (fun u th => th.setD (sriWide r) h.d (s.special u r)) fun _ => 0 := by
  refine ⟨_, rfl, ?_⟩
  rw [issue_admits _ ha]
  exact each_dep (fun s u th => th.setD (sriWide r) h.d (s.special u r))
    (fun s u v f huv _ => by rw [special_updThr_ne s f r huv]) s _ _ hg (active_nodup hg h.pred) (active_sub s h.pred)

theorem orFlags_cons (fl : TRef → BitVec 7) (a : TRef) (l : List TRef) : orFlags fl (a :: l) = fl a ||| orFlags fl l := by
  have h : ∀ (l : List TRef) x, l.foldl (fun x u => x ||| fl u) x = x ||| l.foldl (fun x u => x ||| fl u) 0 := by
    intro l
    induction l with
    | nil => simp
    | cons b l ih => intro x; rw [List.foldl_cons, List.foldl_cons, ih, ih (0 ||| fl b)]; simp [BitVec.or_assoc]
  simp only [orFlags, List.foldl_cons]
  rw [h]
  simp

theorem cleared_cleared (w : Wave) (x y : BitVec 7) : (w.cleared x).cleared y = w.cleared (x ||| y) := by
  simp only [Wave.cleared, BitVec.not_or, BitVec.and_assoc]

theorem cleared_zero (w : Wave) : w.cleared 0 = w := by
  rw [Wave.cleared, show ~~~(0 : BitVec 7) = BitVec.allOnes 7 from rfl, BitVec.and_allOnes]

theorem wave_clearFlags (s : State) (t u : TRef) (fl : BitVec 7) (h : (t.lid, t.wg, t.wave) ∈ tkeys s.waves) :
    (s.clearFlags t fl).wave u = if sameWave t u then (s.wave u).cleared fl else s.wave u := by
  rw [State.clearFlags, State.wave_updWave s t u _ h]
  by_cases hs : sameWave t u = true
  · obtain ⟨⟨h1, h2⟩, h3⟩ : (t.lid = u.lid ∧ t.wg = u.wg) ∧ t.wave = u.wave := by simpa [sameWave] using hs
    rw [if_pos ⟨h1.symm, h2.symm, h3.symm⟩, if_pos hs]
    simp only [State.wave, h1, h2, h3]
    rfl
  · rw [if_neg hs, if_neg]
    rintro ⟨h1, h2, h3⟩
    exact hs (by simp [sameWave, h1, h2, h3])

/-- Two states differ at most in the waves' records. -/
def SameButWaveRecords (s t : State) : Prop := t = { s with waves := t.waves }

theorem SameButWaveRecords.trans {s t u : State} (h : SameButWaveRecords s t) (k : SameButWaveRecords t u) :
    SameButWaveRecords s u :=
  Eq.trans k (congrArg (fun x : State => { x with waves := u.waves }) h)

/-- Flags cleared thread after thread are cleared all together, each in its own wave (R87). -/
theorem foldl_clearFlags (fl : State → TRef → BitVec 7) (hfl : ∀ s v x u, fl (s.clearFlags v x) u = fl s u) (l : List TRef)
    (s : State) (hk : ∀ t ∈ l, (t.lid, t.wg, t.wave) ∈ tkeys s.waves) :
    SameButWaveRecords s (l.foldl (fun s t => s.clearFlags t (fl s t)) s) ∧
      ∀ u, (l.foldl (fun s t => s.clearFlags t (fl s t)) s).wave u =
        (s.wave u).cleared (orFlags (fl s) (l.filter fun x => sameWave x u)) := by
  induction l generalizing s with
  | nil => exact ⟨rfl, fun u => (cleared_zero _).symm⟩
  | cons a l ih =>
    have ha := hk a (by simp)
    obtain ⟨hsame, hwave⟩ := ih (s.clearFlags a (fl s a)) fun t ht => by
      simpa [State.clearFlags] using hk t (by simp [ht])
    have e : fl (s.clearFlags a (fl s a)) = fl s := funext (hfl s a _)
    refine ⟨SameButWaveRecords.trans (t := s.clearFlags a (fl s a)) rfl hsame, fun u => ?_⟩
    rw [List.foldl_cons, hwave, e, wave_clearFlags s a u _ ha]
    by_cases hs : sameWave a u = true
    · rw [if_pos hs, List.filter_cons, if_pos hs, orFlags_cons, cleared_cleared]
    · rw [if_neg hs, List.filter_cons, if_neg hs]

/-- What a thread reads does not depend on the flags that stand. -/
theorem r32_clearFlags (s : State) (v : TRef) (x : BitVec 7) (u : TRef) (h : Hdr) :
    ((s.clearFlags v x).rd u 0 h.lit).r32 h.a = (s.rd u 0 h.lit).r32 h.a := by
  have hs : ((s.clearFlags v x).wave u).s = (s.wave u).s := by
    simp only [State.clearFlags, State.wave, State.updWave_waves, tget_tupd]
    split
    next e => rw [← e]; cases tget s.waves (u.lid, u.wg, u.wave) <;> rfl
    next => rfl
  cases h.a with
  | s n => exact congrArg (vget · 0 n.toNat) hs
  | _ => rfl

theorem movsWrite_effect {s : State} {h : Hdr} (hg : s.GroupOk) (ha : s.Admits { a := .src } h) :
    ∃ t, exec (.movsWrite h) s = .next t ∧
      ThreadEffect s { t with waves := s.waves } (s.active h.pred) (fun _ th => th.retire (hlen h))
        (fun _ th => th.retire (hlen h)) ∧
      ∀ u ∈ s.cur.threads, t.wave u = (s.wave u).cleared
        (orFlags (fun x => ((s.rd x 0 h.lit).r32 h.a).setWidth 7) ((s.active h.pred).filter fun x => sameWave x u)) := by
  refine ⟨_, rfl, ?_⟩
  rw [issue_admits _ ha, State.each]
  obtain ⟨hsame, hwave⟩ := foldl_clearFlags (fun s x => ((s.rd x 0 h.lit).r32 h.a).setWidth 7)
    (fun s v x u => congrArg _ (r32_clearFlags s v x u h)) (s.active h.pred) s fun t ht => (hg.2 t (active_sub s h.pred t ht)).2
  set m := (s.active h.pred).foldl
    (fun s t => s.clearFlags t (((s.rd t 0 h.lit).r32 h.a).setWidth 7)) s with hm
  have hthreads : m.threads = s.threads :=
    (congrArg State.threads hsame : m.threads = ({ s with waves := m.waves } : State).threads)
  have ht := thr_retireAll (hlen h) s.cur.threads m hg.1 fun t ht => by rw [hthreads]; exact (hg.2 t ht).1
  have hr := retireAll_same (hlen h) s.cur.threads m
  have hthr : ∀ u, m.thr u = s.thr u := fun u => by rw [State.thr, hthreads]; rfl
  refine ⟨⟨fun u hu => ?_, fun u hu => ?_, ?_⟩, fun u hu => ?_⟩
  · rw [ite_self, ← hthr u]; exact (ht u).trans (if_pos hu)
  · rw [← hthr u]; exact (ht u).trans (if_neg hu)
  · refine Eq.trans (congrArg (fun x : State => { x with waves := s.waves }) hr) ?_
    exact congrArg (fun x : State => { x with waves := s.waves, threads := (m.retireAll (hlen h) s.cur.threads).threads }) hsame
  · rw [← hwave u, State.wave, hr.waves]; rfl

theorem movpWrite_effect {s : State} {h : Hdr} (mask : BitVec 8) (hg : s.GroupOk) (ha : s.Admits { a := .src } h) :
    ∃ t, exec (.movpWrite h mask) s = .next t ∧
      FormEffect s t (s.active h.pred) (hlen h) (fun u th => (List.range 8).foldl (fun th k =>
        if mask.getLsbD k then th.setP k (((s.rd u 0 h.lit).r32 h.a).getLsbD k) else th) th) fun _ => 0 := by
  refine ⟨_, rfl, ?_⟩
  rw [issue_admits _ ha]
  exact each_dep (fun s u th => (List.range 8).foldl (fun th k =>
      if mask.getLsbD k then th.setP k (((s.rd u 0 h.lit).r32 h.a).getLsbD k) else th) th)
    (fun s u v f huv _ => by simp only [State.rd, State.thr_updThr_ne s f huv, State.wave_updThr]) s _ _ hg
    (active_nodup hg h.pred) (active_sub s h.pred)

/-- Settles O34. -/
theorem movesWriteTheirValue : Obligations.MovesWriteTheirValue := by
  unfold Obligations.MovesWriteTheirValue
  exact ⟨movFormsWriteTheirValue, fun _ r _ hg ha => movs_effect r hg ha, fun _ _ hg ha => movsWrite_effect hg ha,
    fun _ mask _ hg ha => movpWrite_effect mask hg ha⟩

/-! ## Special functions -/

/-- Results that are appended one after another stand in the order of the list. -/
theorem foldl_results (g : State → TRef → Result) (hg : ∀ (s : State) rs t, g { s with results := rs } t = g s t)
    (l : List TRef) (s : State) :
    l.foldl (fun (s : State) t => { s with results := s.results ++ [g s t] }) s =
      { s with results := s.results ++ l.map (g s) } := by
  induction l generalizing s with
  | nil => simp
  | cons a l ih =>
    have e : g { s with results := s.results ++ [g s a] } = g s := funext (hg s _)
    rw [List.foldl_cons, ih, List.map_congr_left fun t _ => congrFun e t]
    simp only [List.map_cons, List.append_assoc, List.singleton_append]

theorem sfu_effect {s : State} {h : Hdr} {n : Need} (imm : Word) (val : Rd → Nat × BitVec 7) (hg : s.GroupOk)
    (ha : s.Admits n h) :
    (s.sfu h imm n val).results = s.results ++ (s.active h.pred).map (fun u => resultOf s h u (val (s.rd u imm h.lit))) ∧
      ThreadEffect s { s.sfu h imm n val with results := s.results } s.cur.threads (fun _ th => th.retire (hlen h))
        fun _ th => th := by
  have key : s.sfu h imm n val =
      ({ s with results := s.results ++ (s.active h.pred).map fun u => resultOf s h u (val (s.rd u imm h.lit)) } : State).retireAll
        (hlen h) s.cur.threads := by
    rw [State.sfu, issue_admits _ ha, State.each]
    exact congrArg (State.retireAll · _ _)
      (foldl_results (fun s u => resultOf s h u (val (s.rd u imm h.lit))) (fun _ _ _ => rfl) _ s)
  generalize hR : s.results ++ (s.active h.pred).map (fun u => resultOf s h u (val (s.rd u imm h.lit))) = R at key ⊢
  rw [key]
  have hs := retireAll_same (hlen h) s.cur.threads { s with results := R }
  have ht := thr_retireAll (hlen h) s.cur.threads { s with results := R } hg.1 fun t ht => (hg.2 t ht).1
  refine ⟨congrArg State.results hs, fun u hu => ?_, fun u hu => ?_, ?_⟩
  · rw [if_pos hu]; exact (ht u).trans (if_pos hu)
  · exact (ht u).trans (if_neg hu)
  · exact congrArg (fun x : State => { x with results := s.results }) hs

theorem exec_of_sfuArms {i : Instr} {A : ValueArm} (hA : sfuArms i = some A) :
    ∀ s, exec i s = .next (s.sfu A.h A.imm A.need A.val) := by
  unfold sfuArms at hA
  split at hA
  case h_12 => cases hA
  all_goals
    obtain rfl := Option.some.inj hA
    exact fun _ => rfl

/-- Settles O6. -/
theorem specialFunctionsIssue : Obligations.SpecialFunctionsIssue := by
  unfold Obligations.SpecialFunctionsIssue
  intro i A hA s hg ha
  exact ⟨_, exec_of_sfuArms hA s, sfu_effect A.imm A.val hg ha⟩

/-- Settles O35: the result leaves the list, its values go to the thread's registers, its flags to the wave. -/
theorem outstandingResultsArrive : Obligations.OutstandingResultsArrive := by
  unfold Obligations.OutstandingResultsArrive Claims.SpecialFunctionResultArrives
  intro s i r hr ht _ hw
  let s' : State := { s with results := s.results.eraseIdx i }
  let m := s'.updThr r.thread fun th => th.setVsAt r.level r.dst r.vals
  have hexec : exec (.sfuResult i) s = .next (m.setFlags r.thread r.flags) := by
    simp only [exec, execSfuResult, State.sfuReturn, hr]
    rfl
  have hthr : ∀ u, (m.setFlags r.thread r.flags).thr u = if u = r.thread then (s.thr r.thread).setVsAt r.level r.dst r.vals
      else s.thr u := fun u => (thr_setFlags m r.thread u r.flags).trans (State.thr_updThr s' r.thread u _ ht)
  have hwave : ∀ u, (m.setFlags r.thread r.flags).wave u = if sameWave r.thread u then (s.wave u).flagged r.flags else s.wave u :=
    fun u => wave_setFlags m r.thread u r.flags hw
  have hsame : SameButWaves s' (m.setFlags r.thread r.flags) :=
    SameButWaves.trans (t := m) rfl (setFlags_same m r.thread r.flags)
  refine ⟨_, hexec, ?_, ?_, ?_, ?_, ?_, hsame⟩
  · exact congrArg State.results hsame
  · rw [hthr, if_pos rfl]
  · rw [hwave, if_pos (by simp [sameWave])]
  · intro u hu; rw [hthr, if_neg hu]
  · intro u hu; rw [hwave, hu]; rfl

end Sys2Proof.Proofs.Values
end

section
/-! Proofs about registers, memory as bytes, the step, and the checks that stand before an instruction (spec/02 R22, R23, R28;
spec/03 R52; spec/05 R95). -/

namespace Sys2Proof.Proofs.Checks

open Sys2Proof.Machine Sys2Proof.Claims

/-! ## Registers -/

theorem vget_vset {α : Type} {n : Nat} (v : Vector α n) (d x : α) (i j : Nat) (h : i < n) :
    vget (vset v i x) d j = if j = i then x else vget v d j := by
  simp only [vset, dif_pos h, vget]
  by_cases hj : j < n
  · simp only [dif_pos hj, Vector.getElem_set, eq_comm (a := i)]
  · rw [dif_neg hj, dif_neg hj, if_neg (by omega)]

theorem lo32_join64 (lo hi : Word) : lo32 (join64 lo hi) = lo := by
  ext i hi'
  exact (BitVec.getElem_setWidth ..).trans ((BitVec.getLsbD_append (x := hi) (y := lo) (i := i)).trans (by simp [hi']))

theorem hi32_join64 (lo hi : Word) : hi32 (join64 lo hi) = hi := by
  ext i hi'
  refine (BitVec.getElem_setWidth ..).trans ((BitVec.getLsbD_ushiftRight ..).trans ?_)
  exact (BitVec.getLsbD_append (x := hi) (y := lo) (i := 32 + i)).trans (by simp [hi'])

/-- A write of a v register is read back at the thread's level. -/
theorem getV_setV (th : Thread) (n m : Nat) (x : Word) (hn : n < 128) :
    (th.setV n x).getV m = if m = n then x else th.getV m := by
  by_cases hl : th.level = 0
  · simp only [Thread.setV, Thread.getV, if_pos hl, vget_vset _ _ _ _ _ hn]
  simp only [Thread.setV, if_neg hl]
  split
  next h16 =>
    simp only [Thread.getV, if_neg hl, vget_vset _ _ _ _ _ h16]
    by_cases hm : m < 16
    · simp only [if_pos hm]
    · simp only [if_neg hm, if_neg (show ¬ m = n by omega)]
  next h16 =>
    split
    next e =>
      subst e
      simp only [Thread.getV, if_neg hl, lo32_join64, hi32_join64]
      by_cases hm : m = 126
      · subst hm; rfl
      · simp only [if_neg hm]
    next h126 =>
      split
      next e =>
        subst e
        simp only [Thread.getV, if_neg hl, lo32_join64, hi32_join64]
        by_cases hm : m = 127
        · subst hm; rfl
        · simp only [if_neg hm]
      next h127 =>
        simp only [Thread.getV, if_neg hl, vget_vset _ _ _ _ _ hn]
        by_cases hm : m = n
        · subst hm; simp only [if_neg h16, if_neg h126, if_neg h127, if_pos]
        · simp only [if_neg hm]

theorem getLsbD_two_pow_ofNat (j k : Nat) (hk : k < 8) : (BitVec.ofNat 8 (2 ^ k)).getLsbD j = decide (j = k) := by
  rw [BitVec.getLsbD_ofNat, Nat.testBit_two_pow, Bool.eq_iff_iff]
  simp only [Bool.and_eq_true, decide_eq_true_eq]
  omega

/-- One bit of eight is written, but for bit 0. -/
theorem getLsbD_setBit8 (p : BitVec 8) (k j : Nat) (b : Bool) (hk : k < 8) (h0 : k ≠ 0) :
    (setBit8 p k b).getLsbD j = if j = k then b else p.getLsbD j := by
  have hq := fun j => getLsbD_two_pow_ofNat j k hk
  simp only [setBit8, if_neg h0]
  generalize BitVec.ofNat 8 (2 ^ k) = q at hq ⊢
  by_cases hj : j = k
  · subst hj
    cases b
    · simp [hq]
    · simp [hq]
  · cases b
    · by_cases h8 : j < 8
      · simp [-BitVec.getLsbD_eq_getElem, hq, hj, h8]
      · simp [hj, BitVec.getLsbD_of_ge _ _ (not_lt.1 h8)]
    · simp [hq, hj]

theorem preds_setP (th : Thread) (k : Nat) (b : Bool) : (th.setP k b).preds = setBit8 th.preds k b := by
  by_cases hl : th.level = 0
  · simp only [Thread.setP, Thread.preds, if_pos hl]
  · simp only [Thread.setP, Thread.preds, if_neg hl]

/-- A write of a predicate is read back; a write of p0 is discarded. -/
theorem getP_setP (th : Thread) (k j : Nat) (b : Bool) (hk : k < 8) :
    (th.setP k b).getP j = if j = k ∧ k ≠ 0 then b else th.getP j := by
  simp only [Thread.getP, preds_setP]
  by_cases h0 : k = 0
  · subst h0
    rw [if_neg (by simp)]
    rfl
  · rw [getLsbD_setBit8 _ _ _ _ hk h0]
    by_cases hj : j = k
    · subst hj; simp [h0]
    · simp [hj]

theorem setP_zero (th : Thread) (b : Bool) : th.setP 0 b = th := by
  by_cases hl : th.level = 0
  · simp only [Thread.setP, if_pos hl, setBit8, if_pos]
  · simp only [Thread.setP, if_neg hl, setBit8, if_pos]

/-- Above level 0 the registers that the bank holds leave the thread's own alone. -/
theorem v_setV_banked (th : Thread) (n : Nat) (x : Word) (hl : th.level ≠ 0) (h : n < 16 ∨ n = 126 ∨ n = 127) :
    (th.setV n x).v = th.v := by
  simp only [Thread.setV, if_neg hl]
  rcases h with h | rfl | rfl
  · rw [if_pos h]
  · rfl
  · rfl

theorem setV_keeps (th : Thread) (n : Nat) (x : Word) :
    (th.setV n x).pc = th.pc ∧ (th.setV n x).level = th.level ∧ (th.setV n x).icount = th.icount := by
  unfold Thread.setV
  repeat' split
  all_goals exact ⟨rfl, rfl, rfl⟩

/-- Settles O33. -/
theorem registersReadBack : Obligations.RegistersReadBack := by
  unfold Obligations.RegistersReadBack
  refine ⟨fun th n x m hn => getV_setV th n m x hn, fun th k b j hk => getP_setP th k j b hk,
    fun th b => ⟨setP_zero th b, rfl⟩, fun th n x hl h => v_setV_banked th n x hl h, fun th k b hl => ?_, setV_keeps⟩
  rw [Thread.setP, if_neg hl]

/-! ## Memory -/

/-- A write reads back in every list of cells, sorted or not: the new cell comes before any older one of its address. -/
theorem cellGet_cellPut (m : List Host.Cell) (a b : Nat) (v : Byte) :
    cellGet (cellPut m a v) b = if b = a then some v else cellGet m b := by
  induction m with
  | nil => simp [cellPut, cellGet, eq_comm]
  | cons c m ih =>
    obtain ⟨k, x⟩ := c
    rcases lt_trichotomy a k with h | rfl | h
    · simp [cellPut, cellGet, h, eq_comm]
    · by_cases hb : b = a
      · simp [cellPut, cellGet, hb]
      · simp [cellPut, cellGet, hb, Ne.symm hb]
    · have e : cellPut ((k, x) :: m) a v = (k, x) :: cellPut m a v := by
        simp only [cellPut]; rw [if_neg (by omega), if_neg (by omega)]
      rw [e, cellGet, ih, cellGet]
      by_cases hk : k = b
      · simp [hk, show b ≠ a by omega]
      · simp [hk]

theorem memGet_memSet_any (m : List Host.Cell) (a b : Nat) (v : Byte) :
    memGet (memSet m a v) b = if b = a then v else memGet m b := by
  simp only [memSet, memGet]
  split
  next hv => rw [cellGet_del]; split <;> simp [hv]
  next => rw [cellGet_cellPut]; split <;> simp

theorem memGet_memSetAll_any (bs : List (Nat × Byte)) (m : List Host.Cell) (b : Nat) (h : b ∉ bs.map Prod.fst) :
    memGet (memSetAll m bs) b = memGet m b := by
  induction bs generalizing m with
  | nil => rfl
  | cons c bs ih =>
    rw [List.map_cons, List.mem_cons, not_or] at h
    rw [memSetAll, ih _ h.2, memGet_memSet_any, if_neg h.1]

theorem cellGet_eq_some_iff {m : List Host.Cell} (h : m.Pairwise fun x y => x.1 < y.1) (a : Nat) (v : Byte) :
    cellGet m a = some v ↔ (a, v) ∈ m := by
  induction m with
  | nil => simp [cellGet]
  | cons c m ih =>
    obtain ⟨k, x⟩ := c
    obtain ⟨hk, hm⟩ := List.pairwise_cons.1 h
    rw [cellGet]
    by_cases e : k = a
    · subst e
      rw [if_pos rfl]
      refine ⟨fun h => by simp [Option.some.inj h], fun h => ?_⟩
      rcases List.mem_cons.1 h with h | h
      · rw [(Prod.mk.inj h).2]
      · exact absurd (hk _ h) (lt_irrefl _)
    · rw [if_neg e, ih hm, List.mem_cons]
      exact ⟨.inr, fun h => h.resolve_left fun e' => e (Prod.mk.inj e').1.symm⟩

/-- In canonical form the cells are the addresses that read as something else than an unlisted one. -/
theorem mem_iff_memGet {m : List Host.Cell} (h : Memory.wf m) (a : Nat) (v : Byte) :
    (a, v) ∈ m ↔ memGet m a = v ∧ v ≠ unlisted := by
  rw [← cellGet_eq_some_iff h.1, memGet]
  constructor
  · intro e
    exact ⟨by rw [e]; rfl, h.2 _ ((cellGet_eq_some_iff h.1 a v).1 e)⟩
  · rintro ⟨e, hv⟩
    cases hc : cellGet m a with
    | none => rw [hc] at e; exact absurd e.symm hv
    | some w => rw [hc] at e; rw [← e]; rfl

theorem mem_ext {m m' : List Host.Cell} (h : Memory.wf m) (h' : Memory.wf m') (e : ∀ a, memGet m a = memGet m' a) : m = m' := by
  have nodup : ∀ {l : List Host.Cell}, l.Pairwise (fun a b => a.1 < b.1) → l.Nodup := fun hl =>
    hl.imp fun {a b} hab (e : a = b) => lt_irrefl b.1 (e ▸ hab)
  refine List.Perm.eq_of_pairwise (le := fun a b => a.1 < b.1) (fun a b _ _ h1 h2 => absurd h1 (lt_asymm h2)) h.1 h'.1 ?_
  rw [List.perm_ext_iff_of_nodup (nodup h.1) (nodup h'.1)]
  rintro ⟨a, v⟩
  rw [mem_iff_memGet h, mem_iff_memGet h', e]

theorem memoryReadsBackWhatWasWritten : Claims.MemoryReadsBackWhatWasWritten :=
  ⟨fun m a v b => memGet_memSet_any m a b v, memSet_wf, fun m bs h => memSetAll_wf bs m h, fun m bs b h => memGet_memSetAll_any bs m b h,
    fun _ _ h h' e => mem_ext h h' e⟩

theorem bytesToNat_natToBytes (n x : Nat) : bytesToNat (natToBytes n x) = x % 2 ^ (8 * n) := by
  induction n generalizing x with
  | zero => simp [natToBytes, bytesToNat, Nat.mod_one]
  | succ n ih =>
    rw [natToBytes, bytesToNat, ih, BitVec.toNat_ofNat, show 8 * (n + 1) = 8 + 8 * n by ring, pow_add, Nat.mod_mul]

theorem natToBytes_bytesToNat (l : List Byte) : natToBytes l.length (bytesToNat l) = l := by
  induction l with
  | nil => rfl
  | cons b l ih =>
    have hb : b.toNat < 2 ^ 8 := b.isLt
    rw [List.length_cons, natToBytes, bytesToNat, show (b.toNat + 2 ^ 8 * bytesToNat l) / 2 ^ 8 = bytesToNat l by omega, ih]
    congr 1
    exact BitVec.eq_of_toNat_eq (by rw [BitVec.toNat_ofNat]; omega)

/-- Settles O58. -/
theorem memoryReadsBackLowByteFirst : Obligations.MemoryReadsBackLowByteFirst :=
  ⟨memoryReadsBackWhatWasWritten, bytesToNat_natToBytes, natToBytes_bytesToNat⟩

/-! ## The step -/

/-- A group of which no thread has an asynchronous fault loses none. -/
theorem takeAsync_none {s : State} (h : ∀ t ∈ s.cur.threads, (s.thr t).async = none) : s.takeAsync = s := by
  have hit : s.cur.threads.filter (fun t => (s.thr t).asyncDue) = [] :=
    List.filter_eq_nil_iff.2 fun t ht => by simp [Thread.asyncDue, h t ht]
  rw [State.takeAsync, hit]
  rfl

/-- Settles O27. -/
theorem aStepRunsTheDecodedInstruction : Obligations.AStepRunsTheDecodedInstruction := by
  unfold Obligations.AStepRunsTheDecodedInstruction
  rintro s g rest i ⟨hq, hne, hasync, rfl⟩
  have hb : s.beginGroup g rest = { s with issueQ := rest, cur := { g with threads := s.stillIn g } } :=
    takeAsync_none (s := { s with issueQ := rest, cur := { g with threads := s.stillIn g } }) hasync
  have hemp : (s.stillIn g).isEmpty = false := by simpa using hne
  unfold step
  simp only [hq, hb, hemp]
  rfl

/-- Every instruction and every event has a next state. -/
theorem exec_next (i : Instr) (s : State) : ∃ t, exec i s = .next t := by
  cases i with
  | _ => exact ⟨_, rfl⟩

/-- A step that finds nothing to do is one without power. -/
theorem step_next_or_stops (s : State) : (∃ t, step s = .next t) ∨ (step s = .fault .unpowered ∧ s.mayStop) := by
  unfold step
  split
  next g rest hq =>
    dsimp only
    split
    · exact .inl ⟨_, rfl⟩
    · exact .inl (exec_next _ _)
  next hq =>
    split
    next i e rest ha =>
      split
      · exact .inl (exec_next _ _)
      · exact .inl ⟨_, rfl⟩
    next ha =>
      split
      · exact .inl (exec_next _ _)
      next hp => exact .inr ⟨rfl, hq, ha, by simpa using hp⟩

/-- Settles O28. -/
theorem theModuleGoesOn : Obligations.TheModuleGoesOn := by
  unfold Obligations.TheModuleGoesOn
  refine ⟨exec_next, step_next_or_stops, fun s ⟨hq, ha, hp⟩ => ?_⟩
  unfold step
  simp only [hq, ha, hp]
  rfl

/-- Settles O29. -/
theorem resetLeavesNothingResident : Obligations.ResetLeavesNothingResident := by
  unfold Obligations.ResetLeavesNothingResident
  exact ⟨rfl, rfl, rfl, rfl, rfl, rfl, rfl, rfl, rfl, rfl, rfl, rfl, rfl, rfl, reset_wf, by decide, by decide⟩

/-- Settles O25: the decoder answers each of the words as the spec writes it. -/
theorem wordsDecodeAsTheSpecLaysThemOut : Obligations.WordsDecodeAsTheSpecLaysThemOut := by
  unfold Obligations.WordsDecodeAsTheSpecLaysThemOut
  decide

/-! ## Groups that stop -/

/-- A thread that stops before its instruction, with the record of a fault. -/
def stopped (mask : DWord) (f : Flt) (th : Thread) : Thread := { th with trap := some (recOf th mask f), walkFault := none }

theorem thr_raise {s : State} {ts : List TRef} (f : Flt) (hn : ts.Nodup) (hk : ∀ t ∈ ts, t ∈ tkeys s.threads) (u : TRef) :
    (s.raise ts f).thr u = if u ∈ ts then stopped (maskOf s.cur.threads ts) f (s.thr u) else s.thr u :=
  thr_foldl_updThr (fun _ => stopped (maskOf s.cur.threads ts) f) ts s hn hk u

theorem raise_same (s : State) (ts : List TRef) (f : Flt) : SameButThreads s (s.raise ts f) :=
  foldl_updThr_same (fun _ => stopped (maskOf s.cur.threads ts) f) ts s

/-- The whole group stops: each of its threads takes the record, and nothing else changes. -/
theorem raise_group_effect {s : State} (f : Flt) (hg : s.GroupOk) :
    ThreadEffect s (s.raise s.cur.threads f) s.cur.threads (fun _ => stopped (maskOf s.cur.threads s.cur.threads) f)
      fun _ th => th := by
  have ht := thr_raise f hg.1 fun t ht => (hg.2 t ht).1
  refine ⟨fun u hu => ?_, fun u hu => ?_, raise_same s _ f⟩
  · rw [ht u, if_pos hu, if_pos hu]
  · rw [ht u, if_neg hu]

/-- Some active threads stop: the other active ones stay, and those whose guard is false retire. -/
theorem stop_effect {s : State} (len : Nat) (p : Pred) {ts : List TRef} (f : Flt) (hg : s.GroupOk) (hn : ts.Nodup)
    (hts : ∀ t ∈ ts, t ∈ s.active p) :
    ThreadEffect s (s.stop len p ts f) (s.active p)
      (fun u th => if u ∈ ts then stopped (maskOf s.cur.threads ts) f th else { th with walkFault := none })
      fun _ th => th.retire len := by
  have hkey : ∀ t ∈ s.cur.threads, t ∈ tkeys s.threads := fun t ht => (hg.2 t ht).1
  have hin : ∀ t ∈ s.inactive p, t ∈ s.cur.threads := fun t ht => (List.mem_filter.1 ht).1
  set r := s.retireAll len (s.inactive p) with hr
  set w := r.forgetWalks (s.active p) with hw
  have er : SameButThreads s r := retireAll_same len _ s
  have ew : SameButThreads r w := foldl_updThr_same (fun _ th => { th with walkFault := none }) _ r
  have kr : tkeys r.threads = tkeys s.threads := tkeys_foldl_updThr (fun _ th => th.retire len) _ s
  have kw : tkeys w.threads = tkeys s.threads := (tkeys_foldl_updThr (fun _ th => { th with walkFault := none }) _ r).trans kr
  have tr := thr_retireAll len (s.inactive p) s (hg.1.filter _) fun t ht => hkey t (hin t ht)
  have tw := thr_foldl_updThr (fun _ th => { th with walkFault := none }) (s.active p) r (active_nodup hg p)
    fun t ht => by rw [kr]; exact hkey t (active_sub s p t ht)
  have tf := thr_raise (s := w) f hn fun t ht => by rw [kw]; exact hkey t (active_sub s p t (hts t ht))
  have hc : w.cur.threads = s.cur.threads := by rw [ew.cur, er.cur]
  have heq : s.stop len p ts f = w.raise ts f := rfl
  have hact : ∀ u, u ∈ s.active p → u ∉ s.inactive p := fun u hu hu' => by
    have h1 := (List.mem_filter.1 hu).2
    have h2 := (List.mem_filter.1 hu').2
    rw [h1] at h2
    cases h2
  have hall : ∀ u, (s.stop len p ts f).thr u = if u ∈ ts then stopped (maskOf s.cur.threads ts) f (s.thr u)
      else if u ∈ s.active p then { s.thr u with walkFault := none }
      else if u ∈ s.inactive p then (s.thr u).retire len else s.thr u := fun u => by
    rw [heq, tf u, hc]
    refine (congrArg (fun x => if u ∈ ts then stopped _ f x else x) ((tw u).trans (by rw [tr u]))).trans ?_
    by_cases ha : u ∈ s.active p
    · simp only [if_pos ha, if_neg (hact u ha)]
      rfl
    · rw [if_neg ha, if_neg (mt (hts u) ha), if_neg (mt (hts u) ha), if_neg ha]
  refine ⟨fun u hu => ?_, fun u hu => ?_, (er.trans ew).trans (raise_same w ts f)⟩
  · rw [hall u]
    by_cases ha : u ∈ s.active p
    · rw [if_pos ha, if_pos ha]
    · have hi : u ∈ s.inactive p := List.mem_filter.2 ⟨hu, by
        have : ¬ predTrue (s.thr u) p = true := fun h => ha (List.mem_filter.2 ⟨hu, h⟩)
        simpa using this⟩
      rw [if_neg (mt (hts u) ha), if_neg ha, if_neg ha, if_pos hi]
  · rw [hall u, if_neg fun h => hu (active_sub s p u (hts u h)), if_neg fun h => hu (active_sub s p u h),
      if_neg fun h => hu (hin u h)]

/-- What check 10 finds. -/
theorem operandFault_some {s : State} {n : Need} {d a b c : Operand} {l : Bool} {act : List TRef} {f : Flt × List TRef}
    (h : s.operandFault n d a b c l act = some f) :
    f.1.code = .illegalOperand ∧ f.1.d0.toNat ≤ 3 ∧ (∃ q, f.2 = act.filter q) ∧ (n.count = 0 → f.2 = act) := by
  rw [State.operandFault] at h
  split at h
  next hfew =>
    obtain rfl := Option.some.inj h
    refine ⟨rfl, Nat.zero_le 3, ⟨_, rfl⟩, fun h0 => ?_⟩
    simp [h0] at hfew
  next =>
    obtain ⟨x, hx, hf⟩ := List.exists_of_findSome?_eq_some h
    have hk : x.2 < 4 := by
      have := List.snd_lt_of_mem_zipIdx hx
      simpa using this
    split at hf
    · obtain rfl := Option.some.inj hf
      refine ⟨rfl, ?_, ⟨fun _ => true, by simp⟩, fun _ => rfl⟩
      rw [w32, BitVec.toNat_ofNat]
      omega
    · cases hf

/-- What checks 8 and 9 find. -/
theorem groupFault_some {s : State} {n : Need} {f : Flt} (h : s.groupFault n = some f) :
    f.code = .privilege ∨ (f.code = .illegalInstruction ∧ (f.d0 = 7 ∨ f.d0 = 8 ∨ f.d0 = 0xA)) := by
  unfold State.groupFault at h
  dsimp only at h
  rcases ite_eq_iff.1 h with ⟨_, h⟩ | ⟨_, h⟩
  · exact .inr (Option.some.inj h ▸ ⟨rfl, .inl rfl⟩)
  rcases ite_eq_iff.1 h with ⟨_, h⟩ | ⟨_, h⟩
  · exact .inr (Option.some.inj h ▸ ⟨rfl, .inr (.inl rfl)⟩)
  rcases ite_eq_iff.1 h with ⟨_, h⟩ | ⟨_, h⟩
  · exact .inr (Option.some.inj h ▸ ⟨rfl, .inr (.inr rfl)⟩)
  rcases ite_eq_iff.1 h with ⟨_, h⟩ | ⟨_, h⟩
  · exact .inl (Option.some.inj h ▸ rfl)
  · cases h

theorem issue_groupFault {s : State} {h : Hdr} {n : Need} {f : Flt} (body : List TRef → State → State)
    (hf : s.groupFault n = some f) : s.issue h n body = s.raise s.cur.threads f := by
  rw [State.issue, State.issueWith, hf]

theorem issue_operandFault {s : State} {h : Hdr} {n : Need} {f : Flt × List TRef} (body : List TRef → State → State)
    (hg : s.groupFault n = none) (hf : s.operandFault n h.d h.a h.b h.c h.lit.isSome (s.active h.pred) = some f) :
    s.issue h n body = s.stop (hlen h) h.pred f.2 f.1 := by
  rw [State.issue, State.issueWith, hg]
  simp only [hf]
  rfl

/-- Settles O31. -/
theorem failedChecksStopTheGroup : Obligations.FailedChecksStopTheGroup := by
  unfold Obligations.FailedChecksStopTheGroup
  refine ⟨fun s h n body f hg hf => ?_, fun s h n body f hg h0 hf => ?_, fun s n f => groupFault_some,
    fun s n d a b c l act f hf => ?_⟩
  · rw [issue_groupFault body hf]
    exact raise_group_effect f hg
  · obtain ⟨_, _, ⟨q, hq⟩, _⟩ := operandFault_some hf
    rw [issue_operandFault body h0 hf]
    exact stop_effect (hlen h) h.pred f.1 hg (by rw [hq]; exact (active_nodup hg h.pred).filter _)
      fun t ht => List.mem_of_mem_filter (hq ▸ ht)
  · obtain ⟨h1, h2, ⟨q, hq⟩, h4⟩ := operandFault_some hf
    exact ⟨h1, h2, fun t ht => List.mem_of_mem_filter (hq ▸ ht), h4⟩

/-- Words that are no instruction stop the group. -/
theorem undecodedWordsTrap : Claims.UndecodedWordsTrap :=
  fun _ _ _ _ _ hg => ⟨_, rfl, raise_group_effect _ hg⟩

theorem groupFault_priv {s : State} {n : Need} (hd : n.disps = []) (hu : n.userOnly = false) (hf : n.feat = none)
    (hp : n.priv = true) (h0 : (s.thr (s.cur.threads.headD noRef)).level = 0) :
    s.groupFault n = some { code := .privilege, d0 := 0, d1 := s.curW0, d2 := s.curW1 } := by
  unfold State.groupFault
  simp only [hd, hu, hf, hp, h0]
  rfl

/-- A privileged form at level 0 stops the group. -/
theorem issue_priv_effect {s : State} {h : Hdr} {n : Need} (body : List TRef → State → State) (hg : s.GroupOk)
    (h0 : ∀ t ∈ s.cur.threads, (s.thr t).level = 0) (hne : s.cur.threads ≠ []) (hd : n.disps = []) (hu : n.userOnly = false)
    (hf : n.feat = none) (hp : n.priv = true) :
    ThreadEffect s (s.issue h n body) s.cur.threads
      (fun _ => stopped (maskOf s.cur.threads s.cur.threads) { code := .privilege, d0 := 0, d1 := s.curW0, d2 := s.curW1 })
      fun _ th => th := by
  have hl : (s.thr (s.cur.threads.headD noRef)).level = 0 := by
    rw [List.headD_eq_head?_getD, List.head?_eq_some_head hne]
    exact h0 _ (List.head_mem hne)
  rw [issue_groupFault body (groupFault_priv hd hu hf hp hl)]
  exact raise_group_effect _ hg

theorem filter_journals_nil {s : State} (h : ∀ l ∈ s.launches, l.2.journalFull = false) :
    (s.launches.filter fun l => l.2.journalFull && l.2.status != .journalFull) = [] :=
  List.filter_eq_nil_iff.2 fun l hl => by simp [h l hl]

/-- Where no launch's journal is full, nothing is to be settled. -/
theorem settle_of_none_full {s : State} (h : ∀ l ∈ s.launches, l.2.journalFull = false) : s.settle = s := by
  rw [State.settle, filter_journals_nil h]
  rfl

theorem launches_of_threadEffect {s t : State} {act : List TRef} {yes no : TRef → Thread → Thread} (h : ThreadEffect s t act yes no) :
    t.launches = s.launches :=
  (congrArg State.launches h.2.2 : t.launches = { s with threads := t.threads }.launches)

theorem trapret_priv_effect {s : State} {h : Hdr} {a : Act} {n : Need} (eff : TRef → State → State) (hg : s.GroupOk)
    (h0 : ∀ t ∈ s.cur.threads, (s.thr t).level = 0) (hne : s.cur.threads ≠ [])
    (hj : ∀ l ∈ s.launches, l.2.journalFull = false) (hd : n.disps = []) (hu : n.userOnly = false) (hf : n.feat = none) :
    ThreadEffect s (s.trapret h a n eff) s.cur.threads
      (fun _ => stopped (maskOf s.cur.threads s.cur.threads) { code := .privilege, d0 := 0, d1 := s.curW0, d2 := s.curW1 })
      fun _ th => th := by
  have he := issue_priv_effect (h := h) (n := { n with priv := true }) (fun act s =>
    s.guardFaults (hlen h) h.pred act true (s.actFault a) fun s =>
      act.foldl (fun s t => s.returnOne eff t) (s.retireAll (hlen h) (s.inactive h.pred))) hg h0 hne hd hu hf rfl
  rw [State.trapret, settle_of_none_full (by rw [launches_of_threadEffect he]; exact hj)]
  exact he

theorem privilegedFormsTrapAtLevelZero : Claims.PrivilegedFormsTrapAtLevelZero := by
  unfold Claims.PrivilegedFormsTrapAtLevelZero
  rintro i h (rfl | rfl | rfl | rfl | rfl | rfl | rfl) s hg h0 hne hj
  · exact ⟨_, rfl, trapret_priv_effect _ hg h0 hne hj rfl rfl rfl⟩
  · exact ⟨_, rfl, trapret_priv_effect _ hg h0 hne hj rfl rfl rfl⟩
  · exact ⟨_, rfl, trapret_priv_effect _ hg h0 hne hj rfl rfl rfl⟩
  · exact ⟨_, rfl, trapret_priv_effect _ hg h0 hne hj rfl rfl rfl⟩
  · exact ⟨_, rfl, issue_priv_effect _ hg h0 hne rfl rfl rfl rfl⟩
  · exact ⟨_, rfl, issue_priv_effect _ hg h0 hne rfl rfl rfl rfl⟩
  · exact ⟨_, rfl, issue_priv_effect _ hg h0 hne rfl rfl rfl rfl⟩

/-- Settles O49. -/
theorem forbiddenAndUndecodedTrap : Obligations.ForbiddenAndUndecodedTrap :=
  ⟨privilegedFormsTrapAtLevelZero, undecodedWordsTrap⟩

/-! ## Accesses -/

theorem access_far {s : State} {t : TRef} {k : AKind} {ea : DWord} {n : Nat} {align stack : Bool} (h : 2 ^ 52 ≤ ea.toNat) :
    s.access t k ea n align stack = .fault 1 (accFlt .badAddress ea n k 0) := by
  unfold State.access
  exact if_pos h

theorem access_misaligned {s : State} {t : TRef} {k : AKind} {ea : DWord} {n : Nat} {align stack : Bool} (h : ea.toNat < 2 ^ 52)
    (hm : align = true ∧ ea.toNat % n ≠ 0 ∨ stack = true ∧ (s.thr t).sp.toNat % 16 ≠ 0) :
    s.access t k ea n align stack = .fault 2 (accFlt .misaligned ea n k 0) := by
  unfold State.access
  refine (if_neg (not_le.2 h)).trans (if_pos ?_)
  simpa using hm

/-- An access that is aligned is checked for the stack region next. -/
theorem access_outside {s : State} {t : TRef} {k : AKind} {ea : DWord} {n : Nat} {align : Bool} (h : ea.toNat < 2 ^ 52)
    (ha : align = true → ea.toNat % n = 0) (hs : (s.thr t).sp.toNat % 16 = 0)
    (ho : ¬((s.stackRegion t).1 ≤ ea.toNat ∧ ea.toNat + n ≤ (s.stackRegion t).1 + (s.stackRegion t).2)) :
    s.access t k ea n align true = .fault 3 (accFlt .stackLimit ea n k 0) := by
  unfold State.access
  refine (if_neg (not_le.2 h)).trans ((if_neg ?_).trans (if_pos ?_))
  · simpa [hs] using ha
  · rw [Bool.true_and, Bool.not_eq_true', ← Bool.not_eq_true, Bool.and_eq_true, decide_eq_true_eq, decide_eq_true_eq]
    exact ho

theorem length_filterMap_of_isSome {α β : Type} {f : α → Option β} {l : List α} (h : ∀ x ∈ l, (f x).isSome = true) :
    (l.filterMap f).length = l.length := by
  rw [List.length_filterMap_eq_countP, List.countP_eq_length]
  exact h

/-- Behind the first three checks, a fault has rank 4 or 5, and an access that passes has a location for each byte. -/
theorem access_inside {s : State} {t : TRef} {k : AKind} {ea : DWord} {n : Nat} {align stack : Bool}
    (hsh : AccessShape s t ea n align stack) :
    (∀ r f, s.access t k ea n align stack = .fault r f → 4 ≤ r) ∧
      ∀ ls, s.access t k ea n align stack = .ok ls → ls.length = n := by
  obtain ⟨h52, ha, hs, ho⟩ := hsh
  have c1 : ¬ 2 ^ 52 ≤ ea.toNat := not_le.2 h52
  have c2 : ¬ (((align && ea.toNat % n != 0) || (stack && (s.thr t).sp.toNat % 16 != 0)) = true) := by
    simp only [Bool.or_eq_true, Bool.and_eq_true, bne_iff_ne, not_or, not_and, not_not]
    exact ⟨ha, hs⟩
  have c3 : ¬ ((stack && !(decide ((s.stackRegion t).1 ≤ ea.toNat) &&
      decide (ea.toNat + n ≤ (s.stackRegion t).1 + (s.stackRegion t).2))) = true) := by
    simp only [Bool.and_eq_true, Bool.not_eq_true', not_and, Bool.not_eq_false, decide_eq_true_eq]
    exact ho
  unfold State.access
  simp only [if_neg c1, if_neg c2, if_neg c3]
  split
  · refine ⟨fun r f h => ?_, fun ls h => nomatch h⟩
    exact le_of_eq (Acc.fault.inj h).1
  next =>
    split
    · exact ⟨fun r f h => (nomatch h), fun ls h => nomatch h⟩
    next hmiss =>
      split
      · refine ⟨fun r f h => ?_, fun ls h => nomatch h⟩
        exact (Acc.fault.inj h).1 ▸ by decide
      next hfault =>
        split
        · exact ⟨fun r f h => (nomatch h), fun ls h => nomatch h⟩
        · refine ⟨fun r f h => (nomatch h), fun ls h => ?_⟩
          obtain rfl := Acc.ok.inj h
          rw [length_filterMap_of_isSome, List.length_map, List.length_range]
          intro x hx
          have h1 := List.filterMap_eq_nil_iff.1 (not_not.1 hmiss) x hx
          have h2 := List.findSome?_eq_none_iff.1 hfault x hx
          cases x with
          | loc l => rfl
          | miss p => cases h1
          | fault c b => cases h2

/-- An access that passes has met the first three checks. -/
theorem access_ok_shape {s : State} {t : TRef} {k : AKind} {ea : DWord} {n : Nat} {align stack : Bool} {ls : List Nat}
    (h : s.access t k ea n align stack = .ok ls) : AccessShape s t ea n align stack := by
  by_cases h52 : ea.toNat < 2 ^ 52
  swap
  · rw [access_far (not_lt.1 h52)] at h
    cases h
  by_cases hm : align = true ∧ ea.toNat % n ≠ 0 ∨ stack = true ∧ (s.thr t).sp.toNat % 16 ≠ 0
  · rw [access_misaligned h52 hm] at h
    cases h
  simp only [not_or, not_and, not_not] at hm
  refine ⟨h52, hm.1, hm.2, fun hst => ?_⟩
  subst hst
  by_contra ho
  rw [access_outside h52 hm.1 (hm.2 rfl) ho] at h
  cases h

/-- Settles O32. -/
theorem accessesAreCheckedInOrder : Obligations.AccessesAreCheckedInOrder := by
  unfold Obligations.AccessesAreCheckedInOrder
  intro s t k ea n align stack
  refine ⟨access_far, access_misaligned, fun h ha hst hs ho => ?_, fun hsh => (access_inside hsh).1,
    fun ls h => ⟨access_ok_shape h, (access_inside (access_ok_shape h)).2 ls h⟩⟩
  subst hst
  exact access_outside h ha hs ho

end Sys2Proof.Proofs.Checks
end

section
/-! Proofs about the control forms (spec/07 R111 to R115). -/

namespace Sys2Proof.Proofs.Control

open Sys2Proof.Machine Sys2Proof.Claims Sys2Proof.Proofs.Checks

/-! ## NOP and LAND -/

/-- Retirement of the whole group is all that happens. -/
theorem retireAll_effect {s : State} (len : Nat) (hg : s.GroupOk) :
    ThreadEffect s (s.retireAll len s.cur.threads) s.cur.threads (fun _ th => th.retire len) fun _ th => th := by
  have ht := thr_retireAll len s.cur.threads s hg.1 fun t ht => (hg.2 t ht).1
  refine ⟨fun u hu => ?_, fun u hu => ?_, retireAll_same len _ s⟩
  · rw [ht u, if_pos hu, if_pos hu]
  · rw [ht u, if_neg hu]

theorem nopAndLandOnlyRetire : Claims.NopAndLandOnlyRetire := by
  refine ⟨fun h s hg ha => ⟨_, rfl, ?_⟩, fun h s hg ha => ⟨_, rfl, ?_⟩, fun f s hg ha => ⟨_, rfl, ?_⟩,
    fun f s hg ha => ⟨_, rfl, ?_⟩⟩
  · rw [issue_admits _ ha]; exact retireAll_effect _ hg
  · rw [issue_admits _ ha]; exact retireAll_effect _ hg
  · rw [issueShort_admits _ ha]; exact retireAll_effect _ hg
  · rw [issueShort_admits _ ha]; exact retireAll_effect _ hg

/-! ## Transfers -/

theorem jumpFault_none {js : List Jump} (h : ∀ j ∈ js, j.bits = 0 ∧ j.stackFlt = none) : jumpFault js = none := by
  have hu : ∀ (l : List Jump) n, (∀ j ∈ l, j.bits = 0) → l.foldl (fun n j => n ||| j.bits) n = n := fun l => by
    induction l with
    | nil => intros; rfl
    | cons j l ih =>
      intro n hl
      rw [List.foldl_cons, hl j (by simp), Nat.or_zero, ih n fun k hk => hl k (by simp [hk])]
  have hs : js.filterMap Jump.stackFlt = [] := List.filterMap_eq_nil_iff.2 fun j hj => (h j hj).2
  have hz := hu js 0 fun j hj => (h j hj).1
  simp only [jumpFault, hz, Nat.zero_testBit, hs]
  rfl

/-- The jumps of a form of which every target passes, and every stack access, if there is one. -/
def JumpsPass (s : State) (wr : Bool) (js : List Jump) : Prop :=
  ∀ j ∈ js, j.bits = 0 ∧ ∀ a, j.acc = some a → (∃ ls, a = .ok ls) ∧ (wr = true → s.loadBusy j.t a.locs = false)

theorem jumpForm_pass {s : State} (h : Hdr) {wr : Bool} {js : List Jump} (eff : Jump → State → State) (hp : JumpsPass s wr js) :
    s.jumpForm h wr js eff = js.foldl (fun s j => eff j s) (s.retireAll (hlen h) (s.inactive h.pred)) := by
  have hacc : ∀ x ∈ js.filterMap fun j => j.acc.map fun a => (j.t, a),
      (∃ ls, x.2 = .ok ls) ∧ (wr = true → s.loadBusy x.1 x.2.locs = false) := fun x hx => by
    obtain ⟨j, hj, e⟩ := List.mem_filterMap.1 hx
    obtain ⟨a, ha, rfl⟩ := Option.map_eq_some_iff.1 e
    exact (hp j hj).2 a ha
  have hstall := stall_none s fun x hx => (hacc x hx).1
  have hfault : jumpFault js = none := jumpFault_none fun j hj => ⟨(hp j hj).1, by
    rw [Jump.stackFlt]
    cases hja : j.acc with
    | none => rfl
    | some a =>
      obtain ⟨ls, rfl⟩ := ((hp j hj).2 a hja).1
      rfl⟩
  rw [State.jumpForm, hstall, hfault]
  refine whenClear_pass _ fun x hx => ?_
  cases wr with
  | false => cases hx
  | true => exact (hacc x hx).2 rfl

/-- What RET plans for a thread whose read passes. -/
def retJump (s : State) (t : TRef) (target : Nat) : Jump where
  t := t
  target := target
  bits := s.targetBits t false target
  acc := some (s.access t 0 (s.thr t).sp 4 false true)

theorem peek_onlyDrawn (s : State) (t : TRef) (va : DWord) (ls : List Nat) : OnlyDrawn s (s.peek t va ls).2 :=
  readPieces_onlyDrawn ..

/-- The reads of RET, thread after thread, draw free values and leave everything else. -/
theorem retReads_onlyDrawn (ts : List TRef) (s : State) : OnlyDrawn s (retReads ts s).2 := by
  induction ts generalizing s with
  | nil => rfl
  | cons t ts ih => exact (peek_onlyDrawn ..).trans (ih _)

theorem retReads_keys (ts : List TRef) (s : State) : ∀ x ∈ (retReads ts s).1, x.1 ∈ ts := by
  induction ts generalizing s with
  | nil => intro x hx; cases hx
  | cons t ts ih =>
    intro x hx
    rcases List.mem_cons.1 hx with rfl | hx
    · exact List.mem_cons_self
    · exact List.mem_cons_of_mem _ (ih _ x hx)

theorem retJump_drawn {s s' : State} (h : OnlyDrawn s s') : retJump s' = retJump s := by
  rw [h]; rfl

theorem access_drawn {s s' : State} (h : OnlyDrawn s s') (t : TRef) :
    s'.access t 0 (s'.thr t).sp 4 false true = s.access t 0 (s.thr t).sp 4 false true := by
  rw [h]; rfl

/-- Plans that read each thread's target are the reads, one after another. -/
theorem plans_retReads {f : TRef → State → Jump × State} (s : State)
    (hf : ∀ t s ls, s.access t 0 (s.thr t).sp 4 false true = .ok ls →
      f t s = (retJump s t (bytesToNat (s.peek t (s.thr t).sp ls).1), (s.peek t (s.thr t).sp ls).2))
    (act : List TRef) (hok : AccessesOk act fun t => s.access t 0 (s.thr t).sp 4 false true) :
    s.plans f act = ((retReads act s).1.map fun x => retJump s x.1 x.2, (retReads act s).2) := by
  induction act generalizing s with
  | nil => rfl
  | cons t ts ih =>
    obtain ⟨ls, hls⟩ := hok t (by simp)
    have hd := peek_onlyDrawn s t (s.thr t).sp ls
    have hrest := ih (s.peek t (s.thr t).sp ls).2 fun u hu => by
      obtain ⟨ls', e⟩ := hok u (by simp [hu])
      exact ⟨ls', (access_drawn hd u).trans e⟩
    simp only [State.plans, hf t s ls hls, hrest, retReads, hls, Acc.locs, retJump_drawn hd, List.map_cons]

theorem transfersGoToTheirTarget : Claims.TransfersGoToTheirTarget := by
  refine ⟨fun h disp s ha => ?_, fun h s ha hb => ?_, fun h disp s ha hok hc => ?_, fun h s ha hb hok hc => ?_,
    fun h s ha hok => ?_⟩
  · exact congrArg _ (issue_admits _ ha)
  · refine congrArg _ ((issue_admits _ ha).trans ?_)
    rw [jumpForm_pass h _ fun j hj => ?_, List.foldl_map]
    obtain ⟨t, ht, rfl⟩ := List.mem_map.1 hj
    exact ⟨hb t ht, fun a e => nomatch e⟩
  · refine congrArg _ ((issue_admits _ ha).trans (jumpForm_pass h _ fun j hj => ?_))
    obtain ⟨t, ht, rfl⟩ := List.mem_map.1 hj
    exact ⟨rfl, fun a e => Option.some.inj e ▸ ⟨hok t ht, fun _ => hc t ht⟩⟩
  · refine congrArg _ ((issue_admits _ ha).trans ?_)
    have hmap : ((s.active h.pred).map fun t =>
          ({ t := t, target := ((s.rd t 0 h.lit).r32 h.a).toNat, bits := s.targetBits t true ((s.rd t 0 h.lit).r32 h.a).toNat
             acc := if s.targetBits t true ((s.rd t 0 h.lit).r32 h.a).toNat = 0 then some (s.frameAcc t) else none } : Jump)) =
        (s.active h.pred).map (jumpOf (fun t => some (s.frameAcc t)) fun t => ((s.rd t 0 h.lit).r32 h.a).toNat) :=
      List.map_congr_left fun t ht => by rw [hb t ht]; rfl
    rw [hmap]
    refine jumpForm_pass h _ fun j hj => ?_
    obtain ⟨t, ht, rfl⟩ := List.mem_map.1 hj
    exact ⟨rfl, fun a e => Option.some.inj e ▸ ⟨hok t ht, fun _ => hc t ht⟩⟩
  · intro r hbits
    refine congrArg _ ((issue_admits _ ha).trans ?_)
    rw [plans_retReads s (fun t s ls e => by simp only [retJump, e]) (s.active h.pred) hok]
    have hd := retReads_onlyDrawn (s.active h.pred) s
    have hin : r.2.inactive h.pred = s.inactive h.pred := by rw [show r.2 = _ from hd]; rfl
    refine (jumpForm_pass h _ fun j hj => ?_).trans ?_
    · obtain ⟨x, hx, rfl⟩ := List.mem_map.1 hj
      refine ⟨hbits x hx, fun a e => ⟨?_, fun hf => nomatch hf⟩⟩
      obtain ⟨ls, hls⟩ := hok x.1 (retReads_keys _ s x hx)
      exact ⟨ls, (Option.some.inj e).symm.trans hls⟩
    · rw [List.foldl_map, hin]
      rfl

/-! ## One thread's transfer -/

/-- Two states differ at most in what a write into memory changes: the order, the bytes, the keys of sectors, and the stamp. -/
def OnlyWritten (s t : State) : Prop :=
  t = { s with stamp := t.stamp, order := t.order, nextSeq := t.nextSeq, mem := t.mem, keyTag := t.keyTag }

theorem OnlyWritten.trans {s t u : State} (h : OnlyWritten s t) (k : OnlyWritten t u) : OnlyWritten s u :=
  Eq.trans k (congrArg (fun x : State =>
    { x with stamp := u.stamp, order := u.order, nextSeq := u.nextSeq, mem := u.mem, keyTag := u.keyTag }) h)

theorem OnlyWritten.threads {s t : State} (h : OnlyWritten s t) : t.threads = s.threads := by rw [h]
theorem OnlyWritten.waves {s t : State} (h : OnlyWritten s t) : t.waves = s.waves := by rw [h]

theorem tagCtx_onlyWritten (ctx : Nat) (ls : List Nat) (s : State) : OnlyWritten s (s.tagCtx ctx ls) := by
  unfold State.tagCtx
  induction ls generalizing s with
  | nil => rfl
  | cons l ls ih => exact OnlyWritten.trans (t := s.tagKeys (s.keyFor ctx l) [l]) rfl (ih _)

theorem fwEnter_onlyWritten (s : State) (scope : Scp) (bs : List (Nat × Byte)) : OnlyWritten s (s.fwEnter scope bs) := rfl

theorem fwWrite_onlyWritten (s : State) (scope : Scp) (ctx : Nat) (bs : List (Nat × Byte)) :
    OnlyWritten s (s.fwWrite scope ctx bs) :=
  (fwEnter_onlyWritten s scope bs).trans (tagCtx_onlyWritten ctx _ _)

theorem fwWriteVa_onlyWritten (s : State) (scope : Scp) (ctx va : Nat) (bytes : List Byte) :
    OnlyWritten s (s.fwWriteVa scope ctx va bytes) := by
  unfold State.fwWriteVa
  split
  · exact fwWrite_onlyWritten ..
  · rfl

theorem tupd_id {κ α : Type} [DecidableEq κ] (t : Tab κ α) (k : κ) : tupd t k id = t := by
  induction t with
  | nil => rfl
  | cons e t ih =>
    rw [tupd, ih]
    split <;> rfl

/-- Where a transfer folds, the signature turns; where the launch keeps a trace, a record of it is written. -/
theorem threads_foldPath (s : State) (t : TRef) (src len target : Nat) :
    ∃ sig : Thread → DWord, (s.foldPath t src len target).threads = tupd s.threads t fun th => { th with sig := sig th } := by
  unfold State.foldPath
  split
  · exact ⟨Thread.sig, (tupd_id s.threads t).symm⟩
  · refine ⟨fun th => th.sig.rotateLeft 7 ^^^ BitVec.ofNat 64 target, ?_⟩
    dsimp only
    split
    · split
      · exact (fwWriteVa_onlyWritten ..).threads
      · rfl
    · rfl

theorem waves_foldPath (s : State) (t : TRef) (src len target : Nat) : (s.foldPath t src len target).waves = s.waves := by
  unfold State.foldPath
  split
  · rfl
  · dsimp only
    split
    · split
      · exact (fwWriteVa_onlyWritten ..).waves
      · rfl
    · rfl

theorem mem_foldPath {s : State} {t : TRef} (src len target : Nat) (h : (s.launchOf t).trace = none) :
    (s.foldPath t src len target).mem = s.mem := by
  unfold State.foldPath
  split
  · rfl
  · simp only [State.launchOf_updThr, h]
    rfl

theorem transferMovesOneThread : Claims.TransferMovesOneThread := by
  intro s len target t ht a b
  obtain ⟨sig, hs⟩ := threads_foldPath s t (s.thr t).pc len target
  have hb : b = { s.thr t with sig := sig (s.thr t), pc := target, icount := (s.thr t).icount + 1 } := by
    obtain ⟨x, hx⟩ := tget_mem ht
    have hg : (s.transfer len target t).threads =
        tupd (s.foldPath t (s.thr t).pc len target).threads t fun th => { th with pc := target, icount := th.icount + 1 } := rfl
    have hx' : s.thr t = x := by rw [State.thr, hx]; rfl
    simp only [b]
    rw [State.thr, hg, hs, tget_tupd_self, tget_tupd_self, hx, hx']
    rfl
  refine ⟨by rw [hb], by rw [hb], by rw [hb], by rw [hb], by rw [hb], by rw [hb], fun u hu => ?_, waves_foldPath .., fun h =>
    mem_foldPath _ _ _ h⟩
  rw [State.transfer, State.thr_updThr_ne _ _ hu, State.thr, hs, tget_tupd_ne _ _ hu]
  rfl

/-! ## EXIT and TRAP -/

theorem exitEndsAndTrapStops : Claims.ExitEndsAndTrapStops := by
  refine ⟨fun h s ha hu he => ?_, fun h code s hg ha hne => ⟨_, rfl, ?_⟩⟩
  · have hheld : (s.active h.pred).findSome? (s.endHeld (s.active h.pred)) = none := List.findSome?_eq_none_iff.2 he
    refine congrArg (fun x : State => Host.Outcome.next x.settle) ((issue_admits _ ha).trans ?_)
    simp only [deliver_none _ _ _ _ hu, hheld]
    rfl
  · have hemp : (s.active h.pred).isEmpty = false := by simpa using hne
    rw [issue_admits _ ha]
    simp only [hemp]
    obtain ⟨h1, h2, h3⟩ := stop_effect (hlen h) h.pred { code := .userTrap, d0 := code.setWidth 32 } hg (active_nodup hg h.pred)
      fun t ht => ht
    refine ⟨fun u hu => (h1 u hu).trans ?_, h2, h3⟩
    by_cases hm : u ∈ s.active h.pred
    · simp only [if_pos hm]
      rfl
    · simp only [if_neg hm]

/-- Settles O36. -/
theorem controlFormsComplete : Obligations.ControlFormsComplete :=
  ⟨nopAndLandOnlyRetire, transfersGoToTheirTarget, transferMovesOneThread, exitEndsAndTrapStops⟩

end Sys2Proof.Proofs.Control
end

section
/-! Proofs about the effect instructions (spec/07 R116 to R131). -/

namespace Sys2Proof.Proofs.Effects

open Sys2Proof.Machine Sys2Proof.Claims Sys2Proof.Proofs.Checks Sys2Proof.Proofs.Control

/-! ## What an access leaves alone -/

/-- The records of the threads and of the waves are the same. -/
def SameThreads (s t : State) : Prop := t.threads = s.threads ∧ t.waves = s.waves

theorem SameThreads.refl (s : State) : SameThreads s s := ⟨rfl, rfl⟩

theorem SameThreads.trans {s t u : State} (h : SameThreads s t) (k : SameThreads t u) : SameThreads s u :=
  ⟨k.1.trans h.1, k.2.trans h.2⟩

theorem SameThreads.thr {s t : State} (h : SameThreads s t) (u : TRef) : t.thr u = s.thr u := by rw [State.thr, h.1]; rfl
theorem SameThreads.wave {s t : State} (h : SameThreads s t) (u : TRef) : t.wave u = s.wave u := by rw [State.wave, h.2]; rfl

theorem sameThreads_of_onlyWritten {s t : State} (h : OnlyWritten s t) : SameThreads s t := ⟨h.threads, h.waves⟩

theorem SameThreads.foldl {α : Type} {f : State → α → State} (hf : ∀ s a, SameThreads s (f s a)) (l : List α) (s : State) :
    SameThreads s (l.foldl f s) := by
  induction l generalizing s with
  | nil => exact .refl s
  | cons a l ih => exact (hf s a).trans (ih _)

theorem count_sameThreads (s : State) (die : Nat) (site : Option Nat) (src : Nat) (ctx lid wg tid : Option Nat) (n : Nat) :
    SameThreads s (s.count die site src ctx lid wg tid n) := ⟨rfl, rfl⟩

theorem updLaunch_sameThreads (s : State) (lid : Nat) (f : Launch → Launch) : SameThreads s (s.updLaunch lid f) := ⟨rfl, rfl⟩

theorem updWg_sameThreads (s : State) (lid wg : Nat) (f : Wg → Wg) : SameThreads s (s.updWg lid wg f) := ⟨rfl, rfl⟩

theorem tick_sameThreads (s : State) : SameThreads s s.tick := ⟨rfl, rfl⟩

theorem reportRace_sameThreads (s : State) (lid : Nat) (ring : DWord) (a b : Access) :
    SameThreads s (s.reportRace lid ring a b) := by
  unfold State.reportRace
  dsimp only
  split
  · exact (sameThreads_of_onlyWritten (fwWriteVa_onlyWritten ..)).trans (updLaunch_sameThreads ..)
  · exact updLaunch_sameThreads ..

theorem checkRaces_sameThreads (s : State) (ctx : Nat) (b : Access) : SameThreads s (s.checkRaces ctx b) := by
  unfold State.checkRaces
  split
  · exact .refl s
  · refine SameThreads.foldl (fun s a => ?_) _ s
    split
    · exact reportRace_sameThreads ..
    · exact .refl s

theorem noteAccess_sameThreads (s : State) (t : TRef) (eng : Option Agent) (kind : Nat) (va : DWord) (ls : List Nat) :
    SameThreads s (s.noteAccess t eng kind va ls) :=
  (tick_sameThreads s).trans ((checkRaces_sameThreads ..).trans (updLaunch_sameThreads ..))

theorem logAccess_sameThreads (s : State) (t : TRef) (kind : Nat) (va : DWord) (ls : List Nat) :
    SameThreads s (s.logAccess t kind va ls) :=
  (count_sameThreads ..).trans (noteAccess_sameThreads ..)

theorem stage_sameThreads (s : State) (t : TRef) (va : DWord) (ls : List Nat) (bs : List Byte) :
    SameThreads s (s.stage t va ls bs) :=
  (logAccess_sameThreads s t 1 va ls).trans ((tick_sameThreads _).trans (updWg_sameThreads ..))

/-! ## The form -/

/-- A form of which every plan is an effect. -/
theorem planForm_go {s s' : State} {h : Hdr} {act : List TRef} {all : Bool} {plan : TRef → State → Plan × State}
    {es : List (State → State)} (pre : State → State) (hp : PlansGo s act plan es s') :
    s.planForm h act all plan pre = goForm h pre es s' := by
  have hgo : ∀ x ∈ act.zip (es.map Plan.go), ∃ e, x.2 = .go e := fun x hx => by
    obtain ⟨e, _, he⟩ := List.mem_map.1 (List.of_mem_zip hx).2
    exact ⟨e, he.symm⟩
  have hany : (es.map Plan.go).any Plan.waits = false := by simp [Plan.waits]
  unfold State.planForm
  rw [hp]
  simp only
  rw [List.filterMap_eq_nil_iff.2 fun x hx => by obtain ⟨e, he⟩ := hgo x hx; rw [he],
    stall_none s' (l := []) fun x hx => absurd hx List.not_mem_nil]
  simp only
  rw [List.filterMap_eq_nil_iff.2 fun x hx => by obtain ⟨e, he⟩ := hgo x hx; rw [he]]
  simp only [firstRank, List.foldl_nil, hany, List.foldl_map]
  rfl

theorem effForm_go {s s' : State} {h : Hdr} {n : Need} {plan : TRef → State → Plan × State} {es : List (State → State)}
    (ha : s.Admits n h) (hp : PlansGo s (s.active h.pred) plan es s') : s.effForm h n plan = goAll h es s' :=
  (issue_admits _ ha).trans (planForm_go id hp)

/-- Settles O8. -/
theorem effectInstructionsTakeEffect : Obligations.EffectInstructionsTakeEffect := by
  unfold Obligations.EffectInstructionsTakeEffect
  exact ⟨fun h eid many s s' es ha hp => congrArg _ (effForm_go ha hp), fun h s s' es ha hp => congrArg _ (effForm_go ha hp),
    fun h eid s s' es ha hp => congrArg (fun x : State => Host.Outcome.next (x.resumeAfter (hlen h) s.cur.threads)) (effForm_go ha hp),
    fun h s s' es ha hp => congrArg _ (effForm_go ha hp), fun h s s' es ha hp => congrArg _ (effForm_go ha hp)⟩

/-! ## Checked accesses of a plan -/

theorem planStore_ok {s : State} {t : TRef} {va : DWord} {n : Nat} {u : StackUse} {ls : List Nat}
    (k : List Nat → State → Plan × State) (h : s.stackAccess t 1 va n u = .ok ls) : s.planStore t va n u k = k ls s := by
  rw [State.planStore, h]

theorem planClear_free {s : State} {t : TRef} {ls : List Nat} (k : State → Plan × State) (h : s.loadBusy t ls = false) :
    s.planClear t ls k = k s := by
  rw [State.planClear, h]
  rfl

theorem stackAccess_drawn {s s' : State} (h : OnlyDrawn s s') (t : TRef) (k : AKind) (va : DWord) (n : Nat) (u : StackUse) :
    s'.stackAccess t k va n u = s.stackAccess t k va n u := by
  rw [h]; rfl

/-- A load that passes, and what follows is an effect: the access is logged first when it takes effect. -/
theorem planLoad_go {s s' : State} {t : TRef} {va : DWord} {n : Nat} {u : StackUse} {ls : List Nat} {e : State → State}
    {k : List Byte → State → Plan × State} (h : s.stackAccess t 0 va n u = .ok ls)
    (hk : k (s.peek t va ls).1 (s.peek t va ls).2 = (.go e, s')) :
    s.planLoad t va n u k = (.go fun x => e (x.logAccess t 0 va ls), s') := by
  rw [State.planLoad, State.planPeek, h]
  simp only [stackAccess_drawn (peek_onlyDrawn ..), h, hk, Plan.after, Acc.locs]

theorem stackAccess_sp (s : State) (t : TRef) (k : AKind) (va : DWord) (n : Nat) :
    s.stackAccess t k va n .sp = s.access t k va n false true := by
  rw [State.stackAccess]
  rfl

theorem planWrites_nil (s : State) (t : TRef) (k : List (List Nat × HEntry) → State → Plan × State) :
    s.planWrites t k [] = k [] s := rfl

theorem planDeep_nil (s : State) (t : TRef) (look : Bool) (k : List HEntry → State → Plan × State) :
    s.planDeep t look k [] = k [] s := rfl

theorem planBack_short {s : State} {t : TRef} (es : List HEntry) (k : List HEntry → List DWord → State → Plan × State) :
    s.planBack t es [] k = k es [] s := by
  rw [State.planBack, List.take_nil, planDeep_nil, List.append_nil, List.drop_nil]

/-! ## HPUSH and HEND -/

theorem planHpush_held {s : State} {t : TRef} {len : Nat} {eid : BitVec 12} {many : Bool} {lit : DWord} {ls : List Nat}
    (h8 : (s.thr t).held.length < 8) (hacc : s.access t 1 ((s.thr t).sp - 32) 32 false true = .ok ls) :
    State.planHpush len eid many lit t s = (.go fun x => x.updThr t fun th =>
      { ({ th with gen := (s.thr t).gen + 1 }.setSp ((s.thr t).sp - 32)).restack
          (pushEntry (s.thr t) eid many lit :: th.held) th.deep with pc := th.pc + len, icount := th.icount + 1 }, s) := by
  unfold State.planHpush
  dsimp only
  rw [planStore_ok _ ((stackAccess_sp ..).trans hacc), List.drop_eq_nil_of_le (by rw [List.length_cons]; omega), planWrites_nil]
  rfl

theorem planHend_held {s : State} {t : TRef} {len : Nat} {a : HEntry} {es : List HEntry} (hh : (s.thr t).held = a :: es)
    (hd : (s.thr t).deep = []) (hr : a.run = false) (hv : visible a es = true) :
    State.planHend len t s = (.go fun x => x.updThr t fun th =>
      { (th.restack es []).setSp (a.hsp.setWidth 64 + 32) with pc := th.pc + len, icount := th.icount + 1 }, s) := by
  unfold State.planHend
  simp only [hh, hd, hr, planDeep_nil, List.append_nil, hv]
  rfl

/-! ## PERFORM -/

theorem findVisible_lt {eid : BitVec 12} {es : List HEntry} {i : Nat} (h : findVisible eid es = some i) : i < es.length := by
  induction es generalizing i with
  | nil => cases h
  | cons e es ih =>
    rw [findVisible] at h
    split at h
    · obtain rfl := Option.some.inj h
      exact Nat.succ_pos _
    · obtain ⟨j, hj, rfl⟩ := Option.map_eq_some_iff.1 h
      exact Nat.succ_lt_succ (ih hj)

theorem planPerform_once {s : State} {t : TRef} {len : Nat} {eid : BitVec 12} {i : Nat} (hd : (s.thr t).deep = [])
    (h8 : (s.thr t).held.length ≤ 8) (hf : findVisible eid (s.thr t).held = some i)
    (hm : ((s.thr t).held.getD i {}).many = false) (hsp : (s.thr t).sp.toNat % 16 = 0) :
    State.planPerform len eid t s = (.go fun x => x.dispatch t len
      ((s.thr t).held.set i { (s.thr t).held.getD i {} with
        run := true, gen := (s.thr t).gen + 1, psp := (s.thr t).sp.setWidth 52, rpc := BitVec.ofNat 20 ((s.thr t).pc + len) })
      i none [], s) := by
  have hi : i < 8 := lt_of_lt_of_le (findVisible_lt hf) h8
  unfold State.planPerform
  simp only [hd, planDeep_nil, List.append_nil, hf, hm, hsp, hi]
  rfl

theorem planPerform_many {s : State} {t : TRef} {len : Nat} {eid : BitVec 12} {e : HEntry} {es : List HEntry} {ls lp : List Nat}
    (hd : (s.thr t).deep = []) (hh : (s.thr t).held = e :: es) (hf : findVisible eid (e :: es) = some 0)
    (hm : e.many = true) (hseg : (e.hsp.toNat : Int) - (s.thr t).sp.toNat ≤ 4096)
    (hs : s.stackAccess t 1 (vaOf (((s.thr t).sp.toNat : Int) - 528 - ((e.hsp.toNat : Int) - (s.thr t).sp.toNat)))
      (528 + ((e.hsp.toNat : Int) - (s.thr t).sp.toNat).toNat) .sp = .ok ls)
    (hb : s.loadBusy t ls = false)
    (hl : s.stackAccess t 0 (s.thr t).sp ((e.hsp.toNat : Int) - (s.thr t).sp.toNat).toNat .sp = .ok lp) :
    State.planPerform len eid t s = (.go fun x =>
      let x := x.logAccess t 0 (s.thr t).sp lp
      (x.stage t (vaOf (((s.thr t).sp.toNat : Int) - 528 - ((e.hsp.toNat : Int) - (s.thr t).sp.toNat))) ls
        (regBytes (x.thr t) (x.wave t).c ++ List.replicate 15 0 ++ (s.peek t (s.thr t).sp lp).1)).dispatch t len
        ({ e with run := true, gen := (s.thr t).gen + 1, psp := (s.thr t).sp.setWidth 52
                  rpc := BitVec.ofNat 20 ((s.thr t).pc + len) } :: es) 0
        (some (vaOf (((s.thr t).sp.toNat : Int) - 528 - ((e.hsp.toNat : Int) - (s.thr t).sp.toNat)))) [],
      (s.peek t (s.thr t).sp lp).2) := by
  unfold State.planPerform
  simp only [hd, planDeep_nil, List.append_nil, hf, hh, List.getD_cons_zero]
  rw [if_neg (by rw [hm]; decide), if_neg (by decide), if_neg (not_lt.2 hseg), planStore_ok _ hs, planClear_free _ hb]
  exact (planLoad_go hl rfl).trans rfl

/-! ## Registers under the changes that the effects make -/

theorem join64_parts (x : DWord) : join64 (lo32 x) (hi32 x) = x := by
  ext i hi
  refine (BitVec.getLsbD_append (x := hi32 x) (y := lo32 x) (i := i)).trans ?_
  by_cases h : i < 32
  · simp [lo32, h, BitVec.getLsbD_eq_getElem hi]
  · simp [hi32, h, show 32 + (i - 32) = i by omega, show i - 32 < 32 by omega, BitVec.getLsbD_eq_getElem hi]

theorem getV_setSp (th : Thread) (x : DWord) (n : Nat) (hn : n < 126) : (th.setSp x).getV n = th.getV n := by
  rw [Thread.setSp, Thread.setW, getV_setV _ _ _ _ (by omega), if_neg (by omega), getV_setV _ _ _ _ (by omega), if_neg (by omega)]

theorem sp_setSp (th : Thread) (x : DWord) : (th.setSp x).sp = x := by
  have h126 : (th.setSp x).getV 126 = lo32 x := by
    rw [Thread.setSp, Thread.setW, getV_setV _ _ _ _ (by omega), if_neg (by omega), getV_setV _ _ _ _ (by omega), if_pos rfl]
  have h127 : (th.setSp x).getV 127 = hi32 x := by
    rw [Thread.setSp, Thread.setW, getV_setV _ _ _ _ (by omega), if_pos rfl]
  rw [Thread.sp, Thread.getW, h126, h127, join64_parts]

theorem sp_setV (th : Thread) (n : Nat) (x : Word) (hn : n < 126) : (th.setV n x).sp = th.sp := by
  simp only [Thread.sp, Thread.getW]
  rw [getV_setV _ _ _ _ (by omega), getV_setV _ _ _ _ (by omega), if_neg (by omega), if_neg (by omega)]

/-- The parts of a thread that a write of a v register leaves as they are. -/
theorem setV_frame (th : Thread) (n : Nat) (x : Word) :
    (th.setV n x).preds = th.preds ∧ (th.setV n x).held = th.held ∧ (th.setV n x).deep = th.deep := by
  unfold Thread.setV
  split
  · exact ⟨rfl, rfl, rfl⟩
  next hl =>
    have hp : ∀ b : Bank, b.p = th.bank.p → ({ th with bank := b } : Thread).preds = th.preds := fun b hb => by
      simp only [Thread.preds, hb]
    split
    · exact ⟨hp _ rfl, rfl, rfl⟩
    split
    · exact ⟨hp _ rfl, rfl, rfl⟩
    split
    · exact ⟨hp _ rfl, rfl, rfl⟩
    · exact ⟨rfl, rfl, rfl⟩

theorem setSp_frame (th : Thread) (x : DWord) :
    (th.setSp x).preds = th.preds ∧ (th.setSp x).held = th.held ∧ (th.setSp x).deep = th.deep := by
  obtain ⟨p1, h1, d1⟩ := setV_frame th 126 (lo32 x)
  obtain ⟨p2, h2, d2⟩ := setV_frame (th.setV 126 (lo32 x)) 127 (hi32 x)
  exact ⟨p2.trans p1, h2.trans h1, d2.trans d1⟩

theorem getP_of_preds {a b : Thread} (h : a.preds = b.preds) (k : Nat) : a.getP k = b.getP k := by
  rw [Thread.getP, h]; rfl

/-- What a thread is after it jumps, given what it was changed to. -/
structure Jumped (s r : State) (t : TRef) (f : Thread → Thread) (len target : Nat) : Prop where
  own : ∃ sig : Thread → DWord, r.thr t = { f { s.thr t with sig := sig (s.thr t) } with
    re := (s.thr t).pc + len, pc := target, icount := (s.thr t).icount + 1 }
  others : ∀ u, u ≠ t → r.thr u = s.thr u

theorem effJump_jumped {s : State} {t : TRef} (len target : Nat) (f : Thread → Thread) (ht : t ∈ tkeys s.threads) :
    Jumped s (s.effJump t len target f) t f len target := by
  obtain ⟨sig, hs⟩ := threads_foldPath s t (s.thr t).pc len target
  obtain ⟨x, hx⟩ := tget_mem ht
  have hx' : s.thr t = x := by rw [State.thr, hx]; rfl
  have hg : (s.effJump t len target f).threads = tupd (s.foldPath t (s.thr t).pc len target).threads t
      fun th => { f th with re := (s.thr t).pc + len, pc := target, icount := th.icount + 1 } := rfl
  refine ⟨⟨sig, ?_⟩, fun u hu => ?_⟩
  · rw [State.thr, hg, hs, tget_tupd_self, tget_tupd_self, hx, hx']
    rfl
  · rw [State.thr, hg, hs, tget_tupd_ne _ _ hu, tget_tupd_ne _ _ hu]
    rfl

/-! ## Tokens -/

theorem planToken_names {s : State} {t : TRef} {k : Word} {i : Nat} {e : HEntry} {chk : Nat → HEntry → Option (Nat × Flt)}
    (go : List HEntry → List DWord → Nat → HEntry → State → Plan × State) (hn : Names (s.thr t) k i e) (hc : chk i e = none) :
    s.planToken t k chk go = go (s.thr t).held [] i e s := by
  obtain ⟨hd, h8, hi, hz, hk, hgen, hmany, hrun, hact⟩ := hn
  have hlt : i < (s.thr t).held.length := (List.getElem?_eq_some_iff.1 hi).1
  have hdep : (s.thr t).depth = (s.thr t).held.length := by rw [Thread.depth, hd]; rfl
  unfold State.planToken
  simp only [hdep, hk]
  rw [if_neg (by simp; omega), show (s.thr t).held.length - ((s.thr t).held.length - i) = i by omega]
  simp only [hi, hd, hgen, hmany, hrun, hact, hc]
  simp

/-! ## The end of a copy -/

/-- What CopyEnd does to its thread (R127). -/
def copyEnded (r : List Byte) (th : Thread) : Thread :=
  { (th.setRegs r).setV 0 (vget th.v 0 0) with
    held := match th.held with
      | x :: xs => { x with act := false } :: xs
      | [] => []
    pc := numAt r 516 4
    icount := th.icount + 1 }

theorem planHend_copy {s : State} {t : TRef} {len : Nat} {e : HEntry} {es : List HEntry} {l1 l2 : List Nat}
    (hh : (s.thr t).held = e :: es) (hr : e.run = true) (hact : e.act = true)
    (h1 : s.stackAccess t 0 (vaOf (e.cap + 520)) 8 .bytes = .ok l1)
    (h2 : (s.peek t (vaOf (e.cap + 520)) l1).2.stackAccess t 0
      (BitVec.ofNat 64 (bytesToNat (s.peek t (vaOf (e.cap + 520)) l1).1)) 520 .bytes = .ok l2) :
    let b := s.peek t (vaOf (e.cap + 520)) l1
    let RR := BitVec.ofNat 64 (bytesToNat b.1)
    let r := b.2.peek t RR l2
    State.planHend len t s = (.go fun x =>
      let x := (x.logAccess t 0 (vaOf (e.cap + 520)) l1).logAccess t 0 RR l2
      (x.foldPath t (x.thr t).pc len (numAt r.1 516 4)).updThr t (copyEnded r.1), r.2) := by
  intro b RR r
  unfold State.planHend
  simp only [hh, hr, hact]
  have hin : (b.2.planLoad t RR 520 .bytes fun r s =>
      (.go fun x => (x.foldPath t (x.thr t).pc len (numAt r 516 4)).updThr t (copyEnded r), s)) =
      (.go fun x =>
        let x := x.logAccess t 0 RR l2
        (x.foldPath t (x.thr t).pc len (numAt r.1 516 4)).updThr t (copyEnded r.1), r.2) :=
    planLoad_go (e := fun x => (x.foldPath t (x.thr t).pc len (numAt r.1 516 4)).updThr t (copyEnded r.1)) h2 rfl
  refine Eq.trans (b := s.planCopyEnd len e t) rfl ?_
  unfold State.planCopyEnd
  exact planLoad_go (e := fun x =>
    let x := x.logAccess t 0 RR l2
    (x.foldPath t (x.thr t).pc len (numAt r.1 516 4)).updThr t (copyEnded r.1)) h1 hin

/-- What a v register reads as depends on the level, the registers and the bank alone. -/
theorem getV_congr {a b : Thread} (hl : a.level = b.level) (hv : a.v = b.v) (hb : a.bank = b.bank) (n : Nat) :
    a.getV n = b.getV n := by
  simp only [Thread.getV, hl, hv, hb]

theorem getV_of_level_zero {th : Thread} (h : th.level = 0) (n : Nat) : th.getV n = vget th.v 0 n := if_pos h

/-- The registers that CopyEnd leaves: all from the record but v0. -/
theorem getV_copyEnded {r : List Byte} {th : Thread} (hl : th.level = 0) (n : Nat) (hn : n < 128) :
    (copyEnded r th).getV n = if n = 0 then th.getV 0 else BitVec.ofNat 32 (numAt r (4 * n) 4) := by
  have e : (copyEnded r th).getV n = ((th.setRegs r).setV 0 (vget th.v 0 0)).getV n := getV_congr rfl rfl rfl n
  have hl' : (th.setRegs r).level = 0 := by rw [Thread.setRegs]; exact hl
  rw [e, getV_setV _ _ _ _ (by omega), getV_of_level_zero hl, getV_of_level_zero hl']
  simp only [Thread.setRegs, vget, dif_pos hn, Vector.getElem_ofFn]

theorem copyEnd_effect {x : State} {t : TRef} {e : HEntry} {es : List HEntry} (len : Nat) (r : List Byte)
    (ht : t ∈ tkeys x.threads) (hl : (x.thr t).level = 0) (hh : (x.thr t).held = e :: es) :
    let y := (x.foldPath t (x.thr t).pc len (numAt r 516 4)).updThr t (copyEnded r)
    (y.thr t).pc = numAt r 516 4 ∧ (y.thr t).held = { e with act := false } :: es ∧ (y.thr t).getV 0 = (x.thr t).getV 0 ∧
      (∀ n, 1 ≤ n → n < 128 → (y.thr t).getV n = BitVec.ofNat 32 (numAt r (4 * n) 4)) ∧
      (y.thr t).p = byteAt r 512 ||| 1 ∧ (y.thr t).icount = (x.thr t).icount + 1 ∧ ∀ u, u ≠ t → y.thr u = x.thr u := by
  intro y
  obtain ⟨sig, hs⟩ := threads_foldPath x t (x.thr t).pc len (numAt r 516 4)
  obtain ⟨a, ha⟩ := tget_mem ht
  have ha' : x.thr t = a := by rw [State.thr, ha]; rfl
  have hy : y.threads = tupd (x.foldPath t (x.thr t).pc len (numAt r 516 4)).threads t (copyEnded r) := rfl
  have hyt : y.thr t = copyEnded r { x.thr t with sig := sig (x.thr t) } := by
    rw [State.thr, hy, hs, tget_tupd_self, tget_tupd_self, ha, ha']
    rfl
  have hlev : ({ x.thr t with sig := sig (x.thr t) } : Thread).level = 0 := hl
  have hp : ((({ x.thr t with sig := sig (x.thr t) } : Thread).setRegs r).setV 0 (vget (x.thr t).v 0 0)).p =
      byteAt r 512 ||| 1 := by
    unfold Thread.setV
    exact congrArg Thread.p (if_pos hlev)
  rw [hyt]
  refine ⟨rfl, ?_, ?_, fun n h1 h128 => ?_, hp, rfl, fun u hu => ?_⟩
  · simp only [copyEnded, hh]
  · rw [getV_copyEnded hlev 0 (by omega), if_pos rfl]
    rfl
  · rw [getV_copyEnded hlev n h128, if_neg (by omega)]
  · rw [State.thr, hy, hs, tget_tupd_ne _ _ hu, tget_tupd_ne _ _ hu]
    rfl

/-! ## RESUME and ABORT -/

theorem planOnce_held {s : State} {t : TRef} {len : Nat} {v : Word} {es : List HEntry} {i : Nat} {e : HEntry}
    (hi : i < 8) :
    s.planOnce t len v es [] i e = (.go fun x => x.effJump t len e.rpc.toNat fun th =>
      ((th.restack ((es.take i).filter (fun y => e.psp.toNat ≤ y.hsp.toNat) ++ { e with run := false } :: es.drop (i + 1)) []).setSp
        (e.psp.setWidth 64)).setV 0 v, s) := by
  have hup : ((es.take i).filter fun y => decide (e.psp.toNat ≤ y.hsp.toNat)).length < 8 :=
    lt_of_le_of_lt (List.length_filter_le _ _) (lt_of_le_of_lt (List.length_take_le _ _) hi)
  unfold State.planOnce
  simp only [planBack_short, hup]
  rfl

/-- What RESUME or ABORT leaves of the thread that jumps, whose entries are all held. -/
theorem restacked {th : Thread} {all : List HEntry} (sp : DWord) (v : Word) (h8 : all.length ≤ 8) :
    let r := ((th.restack all []).setSp sp).setV 0 v
    r.held = all ∧ r.deep = [] ∧ r.sp = sp ∧ r.getV 0 = v ∧ (∀ n, 1 ≤ n → n < 126 → r.getV n = th.getV n) ∧
      ∀ k, r.getP k = th.getP k := by
  intro r
  obtain ⟨p1, h1, d1⟩ := setV_frame ((th.restack all []).setSp sp) 0 v
  obtain ⟨p2, h2, d2⟩ := setSp_frame (th.restack all []) sp
  refine ⟨?_, ?_, ?_, ?_, fun n hn1 hn => ?_, getP_of_preds (p1.trans p2)⟩
  · rw [h1, h2]; exact List.take_of_length_le h8
  · rw [d1, d2]
    simp only [Thread.restack, List.drop_eq_nil_of_le h8, List.map_nil, List.append_nil]
  · rw [sp_setV _ _ _ (by omega), sp_setSp]
  · rw [getV_setV _ _ _ _ (by omega), if_pos rfl]
  · rw [getV_setV _ _ _ _ (by omega), if_neg (by omega), getV_setSp _ _ _ hn]
    rfl

theorem restacked_jump {x y : State} {t : TRef} {len target : Nat} {all : List HEntry} {sp : DWord} {v : Word} (h8 : all.length ≤ 8)
    (hj : Jumped x y t (fun th => ((th.restack all []).setSp sp).setV 0 v) len target) :
    (y.thr t).pc = target ∧ (y.thr t).re = (x.thr t).pc + len ∧ (y.thr t).held = all ∧ (y.thr t).deep = [] ∧
      (y.thr t).sp = sp ∧ (y.thr t).getV 0 = v ∧ (∀ n, 1 ≤ n → n < 126 → (y.thr t).getV n = (x.thr t).getV n) ∧
      (∀ k, (y.thr t).getP k = (x.thr t).getP k) ∧ (y.thr t).icount = (x.thr t).icount + 1 ∧
      ∀ u, u ≠ t → y.thr u = x.thr u := by
  obtain ⟨⟨sig, hy⟩, ho⟩ := hj
  obtain ⟨r1, r2, r3, r4, r5, r6⟩ := restacked (th := { x.thr t with sig := sig (x.thr t) }) sp v h8
  rw [hy]
  exact ⟨rfl, rfl, r1, r2, r3, r4, r5, r6, rfl, ho⟩

theorem names_lt {th : Thread} {k : Word} {i : Nat} {e : HEntry} (h : Names th k i e) : i < th.held.length := by
  obtain ⟨_, _, hi, _⟩ := h
  exact (List.getElem?_eq_some_iff.1 hi).1

theorem names_top {th : Thread} {k : Word} {e : HEntry} (h : Names th k 0 e) : ∃ es, th.held = e :: es := by
  obtain ⟨_, _, h0, _⟩ := h
  generalize th.held = l at h0
  cases l with
  | nil => cases h0
  | cons a es => exact ⟨es, congrArg (· :: es) (Option.some.inj h0)⟩

theorem planResume_names {s : State} {t : TRef} {h : Hdr} {i : Nat} {e : HEntry}
    (hn : Names (s.thr t) ((s.rd t 0 h.lit).r32 h.a) i e) (hc : manyAbove (s.thr t) i e = none) :
    State.planResume h t s = if e.many then s.planMany t (hlen h) ((s.rd t 0 h.lit).r32 h.b) e
      else s.planOnce t (hlen h) ((s.rd t 0 h.lit).r32 h.b) (s.thr t).held [] i e := by
  unfold State.planResume
  exact planToken_names _ hn hc

theorem planAbort_names {s : State} {t : TRef} {h : Hdr} {i : Nat} {e : HEntry}
    (hn : Names (s.thr t) ((s.rd t 0 h.lit).r32 h.a) i e) :
    State.planAbort h t s = (.go fun x => x.effJump t (hlen h) e.xpc.toNat fun th =>
      ((th.restack ((s.thr t).held.drop (i + 1)) []).setSp (e.hsp.setWidth 64 + 32)).setV 0 ((s.rd t 0 h.lit).r32 h.b), s) := by
  unfold State.planAbort
  exact (planToken_names _ hn rfl).trans (planBack_short _ _)

theorem names_le {th : Thread} {k : Word} {i : Nat} {e : HEntry} (h : Names th k i e) : th.held.length ≤ 8 := h.2.1

theorem resumed_length (es : List HEntry) {i : Nat} (q : HEntry → Bool) (e : HEntry) (hi : i < es.length) :
    ((es.take i).filter q ++ e :: es.drop (i + 1)).length ≤ es.length := by
  have h := List.length_filter_le q (es.take i)
  rw [List.length_take] at h
  rw [List.length_append, List.length_cons, List.length_drop]
  omega

theorem held_foldPath (s : State) (t : TRef) (src len target : Nat) :
    ((s.foldPath t src len target).thr t).held = (s.thr t).held := by
  obtain ⟨sig, hs⟩ := threads_foldPath s t src len target
  simp only [State.thr, hs, tget_tupd_self]
  cases tget s.threads t with
  | none => rfl
  | some a => rfl

/-- A jump's change of its thread matters only at the handler stack that the thread has. -/
theorem effJump_congr {s : State} {t : TRef} {len target : Nat} {f g : Thread → Thread}
    (h : ∀ th : Thread, th.held = (s.thr t).held → f th = g th) : s.effJump t len target f = s.effJump t len target g := by
  unfold State.effJump
  refine updThr_congr _ t ?_
  rw [h _ (held_foldPath ..)]

theorem held_setRegs (th : Thread) (b : List Byte) : (th.setRegs b).held = th.held := by
  rw [Thread.setRegs]

/-- The thread in a copy of the continuation (R127). -/
def copied (img : List Byte) (v : Word) (sp : DWord) (held : List HEntry) (th : Thread) : Thread :=
  { ((th.setRegs img).setV 0 v).setSp sp with held := held }

theorem planMany_held {s : State} {t : TRef} {len : Nat} {v : Word} {e : HEntry} {es : List HEntry} {ls lr lc : List Nat}
    (hh : (s.thr t).held = e :: es)
    (hs : s.stackAccess t 1 (vaOf (((s.thr t).sp.toNat : Int) - 528 - e.seg.toNat)) (528 + e.seg.toNat) .sp = .ok ls)
    (hbs : s.loadBusy t ls = false) (hr : s.stackAccess t 1 (vaOf (e.cap + 520)) 8 .bytes = .ok lr)
    (hbr : s.loadBusy t lr = false) (hc : s.stackAccess t 0 (vaOf e.cap) (528 + e.seg.toNat) .bytes = .ok lc) :
    ∃ f, s.planMany t len v e = (.go f, (s.peek t (vaOf e.cap) lc).2) ∧
      ∀ x : State, x.thr t = s.thr t → x.wave t = s.wave t → f x = (
        let RR : Int := ((s.thr t).sp.toNat : Int) - 528
        let c := captureAfter s t len e (s.peek t (vaOf e.cap) lc).1
        let x := (x.logAccess t 0 (vaOf e.cap) lc).stage t (vaOf RR) (ls.drop e.seg.toNat) c.1
        let x := x.stage t (vaOf (e.cap + 520)) lr (natToBytes 8 (vaOf RR).toNat)
        let x := if e.seg.toNat = 0 then x else x.stage t (vaOf (RR - e.seg.toNat)) (ls.take e.seg.toNat) c.2.1
        x.effJump t len e.rpc.toNat (copied c.2.2 v (vaOf (RR - e.seg)) ({ e with act := true } :: es))) := by
  unfold State.planMany
  dsimp only
  rw [planStore_ok _ hs, planClear_free _ hbs, planStore_ok _ hr, planClear_free _ hbr]
  refine ⟨_, (planLoad_go hc rfl).trans rfl, fun x hx hw => ?_⟩
  have hl := logAccess_sameThreads x t 0 (vaOf e.cap) lc
  have ht : (x.logAccess t 0 (vaOf e.cap) lc).thr t = s.thr t := (hl.thr t).trans hx
  have hv : (x.logAccess t 0 (vaOf e.cap) lc).wave t = s.wave t := (hl.wave t).trans hw
  simp only [ht, hv]
  refine effJump_congr fun th hth => ?_
  have hst : ∀ (y : State) va ls bs, (y.stage t va ls bs).thr t = y.thr t := fun y va ls bs => (stage_sameThreads y t va ls bs).thr t
  have hheld : th.held = e :: es := by
    rw [hth, ← hh, ← ht]
    split
    · rw [hst, hst]
    · rw [hst, hst, hst]
  have hset : ∀ img, (((th.setRegs img).setV 0 v).setSp (vaOf (((s.thr t).sp.toNat : Int) - 528 - e.seg))).held = e :: es := fun img =>
    (setSp_frame _ _).2.1.trans ((setV_frame _ _ _).2.1.trans ((held_setRegs th img).trans hheld))
  simp only [hset]
  rfl

/-- Settles O9: each plan on a handler stack that is held whole is the effect named, case by case. -/
theorem handlerStackOfOneThread : Obligations.HandlerStackOfOneThread := by
  unfold Obligations.HandlerStackOfOneThread
  refine ⟨fun s t len eid many lit ls h8 hacc => ⟨_, planHpush_held h8 hacc, fun x => rfl⟩,
    fun s t len a es hh hd hr hv => ⟨_, planHend_held hh hd hr hv, fun x => rfl⟩,
    fun s t len eid i hd h8 hf hm hsp => ⟨_, planPerform_once hd h8 hf hm hsp, fun x => rfl⟩,
    fun s t len eid e es ls lp hd hh hf hm => ?_, fun s t len e es l1 l2 hh hr hact h1 => ?_,
    fun s t h i e hn hm => ?_, fun s t h e ls lr lc hn hm => ?_, fun s t h i e hn => ?_⟩
  · intro P seg cap hseg hs hb hl
    refine ⟨_, planPerform_many hd hh (hh ▸ hf) hm hseg hs hb hl, fun x _ => ?_⟩
    have hsame := logAccess_sameThreads x t 0 P lp
    exact congrArg (fun b => ((x.logAccess t 0 P lp).stage t cap ls b).dispatch t len
      ({ e with run := true, gen := (s.thr t).gen + 1, psp := P.setWidth 52, rpc := BitVec.ofNat 20 ((s.thr t).pc + len) } :: es)
      0 (some cap) []) (by rw [hsame.thr, hsame.wave])
  · intro b RR h2 r
    refine ⟨_, planHend_copy hh hr hact h1 h2, fun x ht hl hheld => ?_⟩
    have hsame := (logAccess_sameThreads x t 0 (vaOf (e.cap + 520)) l1).trans (logAccess_sameThreads _ t 0 RR l2)
    have ht' := ht
    rw [← hsame.1] at ht'
    obtain ⟨c1, c2, c3, c4, c5, c6, c7⟩ := copyEnd_effect len r.1 ht' ((congrArg Thread.level (hsame.thr t)).trans hl)
      ((congrArg Thread.held (hsame.thr t)).trans hheld)
    exact ⟨c1, c2, c3.trans (congrArg (Thread.getV · 0) (hsame.thr t)), c4, c5,
      c6.trans (congrArg (Thread.icount · + 1) (hsame.thr t)), fun u hu => (c7 u hu).trans (hsame.thr u)⟩
  · have hi := names_lt hn
    have h8 := names_le hn
    have hc : manyAbove (s.thr t) i e = none := by rw [manyAbove, hm]; rfl
    have hp := (planResume_names hn hc).trans ((if_neg (by rw [hm]; decide)).trans (planOnce_held (lt_of_lt_of_le hi h8)))
    refine ⟨_, hp, fun x ht => ?_⟩
    obtain ⟨r1, r2, r3, r4, r5, r6, r7, r8, r9, r10⟩ := restacked_jump ((resumed_length (s.thr t).held _ _ hi).trans h8)
      (effJump_jumped (hlen h) e.rpc.toNat _ ht)
    exact ⟨r1, r2, r3, r4, r5, r6, r7, r8, r9, r10⟩
  · intro n RR hs hbs hr hbr hc img
    obtain ⟨es, hh⟩ := names_top hn
    have hcm : manyAbove (s.thr t) 0 e = none := by simp [manyAbove]
    obtain ⟨f, hf, hx⟩ := planMany_held (len := hlen h) (v := (s.rd t 0 h.lit).r32 h.b) hh hs hbs hr hbr hc
    refine ⟨f, (planResume_names hn hcm).trans ((if_pos hm).trans hf), fun x h1 h2 => (hx x h1 h2).trans ?_⟩
    rw [hh]
    rfl
  · have hi := names_lt hn
    have h8 := names_le hn
    refine ⟨_, planAbort_names hn, fun x ht => ?_⟩
    exact restacked_jump (by rw [List.length_drop]; omega) (effJump_jumped (hlen h) e.xpc.toNat _ ht)

end Sys2Proof.Proofs.Effects
end

section
/-! Proofs about masks, cross-lane collectives and barriers (spec/09 R153 to R168). -/

namespace Sys2Proof.Proofs.Masks

open Sys2Proof.Machine Sys2Proof.Claims Sys2Proof.Proofs.Checks Sys2Proof.Proofs.Control

/-! ## Arrival -/

theorem filterMap_none_of {α β : Type} {f : α → Option β} {l : List α} (h : ∀ x ∈ l, f x = none) (g : α → β → γ) :
    l.filterMap (fun x => (f x).map (g x)) = [] :=
  List.filterMap_eq_nil_iff.2 fun x hx => by rw [h x hx]; rfl

theorem arriveMask_ok {s : State} {k len : Nat} {p : Pred} {i : Instr} (vals : TRef → State → DWord × DWord)
    (h : MaskOk s k p i) : s.arriveMask k len p i (s.active p) vals = arrival s k len p i vals := by
  unfold State.arriveMask
  simp only [filterMap_none_of h]
  rfl

theorem arriveSet_ok {s : State} {setOf : TRef → Nat} {len : Nat} {p : Pred} {i : Instr} (w : Nat → Wait)
    (vals : TRef → State → DWord × DWord) (k : State → State) (h : SetOk s setOf p i) :
    s.arriveSet setOf len p w i (s.active p) vals k = k (setArrival s setOf len p w i vals) := by
  unfold State.arriveSet
  simp only [filterMap_none_of h]
  rfl

theorem guardSet_pass {s : State} {h : Hdr} {act : List TRef} (idle : List TRef) (field : Nat) (o : Operand)
    {bad : TRef → Bool} (k : State → State) (hb : ∀ t ∈ act, bad t = false) : s.guardSet h idle field o bad act k = k s := by
  rw [State.guardSet, List.filter_eq_nil_iff.2 fun t ht => by rw [hb t ht]; decide]

theorem maskFormsComplete : Claims.MaskFormsComplete := by
  refine ⟨fun h k s ha => ?_, fun h k s ha => ?_, fun h klo khi dw s ha => ?_, fun h k s ha => ?_, fun h k s hg ha => ⟨_, rfl, ?_⟩,
    fun h k s ha hu hm => ?_, fun h k kp pb pbn s ha hm => ?_⟩
  · exact congrArg _ (issue_admits _ ha)
  · exact congrArg _ (issue_admits _ ha)
  · exact congrArg _ (issue_admits _ ha)
  · exact congrArg _ (issue_admits _ ha)
  · rw [issue_admits _ ha]
    exact each_dep (fun s u th => th.setD (tyWide h.ty) h.d (s.mask u k.toNat).enr.toNat) (fun _ _ _ _ _ _ => rfl) s (hlen h) _ hg
      (active_nodup hg _) (active_sub s _)
  · refine congrArg _ ((issueWith_admits _ _ ha).trans ?_)
    simp only [deliver_none _ _ _ _ hu]
    exact arriveMask_ok _ hm
  · exact congrArg _ ((issueWith_admits _ _ ha).trans (arriveMask_ok _ hm))

theorem xln_ok {s : State} {h : Hdr} {k : BitVec 4} {i : Instr} {n : Need} (vals : Rd → DWord × DWord) (ha : s.Admits n h)
    (hm : MaskOk s k.toNat h.pred i) :
    s.xln h k i n vals = arrival s k.toNat (hlen h) h.pred i fun t s => vals (s.rd t 0 h.lit) :=
  (issueWith_admits _ _ ha).trans (arriveMask_ok _ hm)

theorem exec_of_maskArms {i : Instr} {A : MaskArm} (hA : maskArms i = some A) (s : State) :
    exec i s = .next (s.xln A.h A.k i A.need A.vals) := by
  unfold maskArms at hA
  split at hA
  case h_11 => cases hA
  all_goals
    obtain rfl := Option.some.inj hA
    rfl

theorem crossLaneFormsArrive : Claims.CrossLaneFormsArrive := by
  refine ⟨fun i A hA s ha hm => ?_, fun h set op s ha he hs => ?_⟩
  · rw [exec_of_maskArms hA, xln_ok _ ha hm]
  · exact congrArg _ ((issueWith_admits _ _ ha).trans ((guardSet_pass _ _ _ _ he).trans (arriveSet_ok _ _ _ hs)))

/-- Settles O38. -/
theorem maskAndCrossLaneFormsComplete : Obligations.MaskAndCrossLaneFormsComplete := ⟨maskFormsComplete, crossLaneFormsArrive⟩

/-! ## The last arrival of a collective -/

theorem sortBy_perm {α : Type} (lt : α → α → Bool) (l : List α) : (sortBy lt l).Perm l := by
  have ins : ∀ (a : α) (l : List α), (insertBy lt a l).Perm (a :: l) := fun a l => by
    induction l with
    | nil => exact .refl _
    | cons b l ih =>
      rw [insertBy]
      split
      · exact .refl _
      · exact (ih.cons b).trans (.swap a b l)
  induction l with
  | nil => exact .refl _
  | cons a l ih => exact (ins a _).trans (ih.cons a)

theorem complete_eq {s : State} {t : TRef} {k : Nat} {r : CollRec} (h0 : (s.mask t k).arr ≠ 0)
    (h1 : (s.mask t k).enr &&& ~~~(s.mask t k).arr = 0) (hr : (s.mask t k).rec_ = some r)
    (hi : ∀ h kd kp pb pbn, r.instr ≠ .kmovBallot h kd kp pb pbn) :
    s.complete t k = (
      let parts := sortBy (fun (a b : Lane) => a.1 < b.1) r.vals
      let c := parts.filter fun x => x.2.2.2
      let lane (x : Lane) : TRef := { t with lane := x.1 }
      let s' := s.updMask t k fun m => { m with arr := 0, rec_ := none }
      parts.foldl (fun s x => s.finish (lane x)) (c.foldl (fun s' x =>
        let y := collRes r.instr (s.launchOf t).hdr.width c x
        (s'.writeRes (lane x) (collDst r.instr).1 (collDst r.instr).2 y.1).setFlags (lane x) y.2) s')) := by
  unfold State.complete
  dsimp only
  rw [if_neg (not_or.2 ⟨h0, not_not.2 h1⟩), hr]
  dsimp only
  split
  next e => exact absurd e (hi _ _ _ _ _)
  next => rfl

/-- A collective of KMOV.ballot gives no thread a result. -/
theorem complete_ballot {s : State} {t : TRef} {k : Nat} {r : CollRec} (h0 : (s.mask t k).arr ≠ 0)
    (h1 : (s.mask t k).enr &&& ~~~(s.mask t k).arr = 0) (hr : (s.mask t k).rec_ = some r) {h : Hdr} {kd kp : BitVec 4}
    {pb : BitVec 3} {pbn : Bool} (hi : r.instr = .kmovBallot h kd kp pb pbn) :
    s.complete t k = (
      let parts := sortBy (fun (a b : Lane) => a.1 < b.1) r.vals
      let s' := s.updMask t k fun m => { m with arr := 0, rec_ := none }
      (parts.foldl (fun s x => s.finish { t with lane := x.1 }) s').writeBallot t kd.toNat
        (ballotOf (parts.filter fun x => x.2.2.2))) := by
  have hnone : ∀ (l c : List Lane) (w : Nat) (s : State), l.foldl (fun s x =>
      (s.writeRes { t with lane := x.1 } (collDst r.instr).1 (collDst r.instr).2 (collRes r.instr w c x).1).setFlags
        { t with lane := x.1 } (collRes r.instr w c x).2) s = s := fun l c w s => by
    rw [hi]
    induction l generalizing s with
    | nil => rfl
    | cons x l ih => exact ih s
  unfold State.complete
  dsimp only
  rw [if_neg (not_or.2 ⟨h0, not_not.2 h1⟩), hr]
  dsimp only
  rw [hnone, hi]

/-- A power of two joins a number that lacks its bit. -/
theorem getLsbD_add_two_pow {n a j : Nat} (hj : j < 64) (h : a < 64 → (BitVec.ofNat 64 n).getLsbD a = false) :
    (BitVec.ofNat 64 (n + 2 ^ a)).getLsbD j = ((BitVec.ofNat 64 n).getLsbD j || a == j) := by
  have hp : ∀ i, i < 64 → (BitVec.ofNat 64 (2 ^ a)).getLsbD i = decide (a = i) := fun i hi => by
    rw [BitVec.getLsbD_ofNat, Nat.testBit_two_pow]
    simp [hi]
  have hd : BitVec.ofNat 64 n &&& BitVec.ofNat 64 (2 ^ a) = 0#64 := by
    refine BitVec.eq_of_getLsbD_eq fun i hi => ?_
    rw [BitVec.getLsbD_and, hp i hi, BitVec.getLsbD_zero]
    by_cases e : a = i
    · subst e; simp [h hi]
    · simp [e]
  rw [BitVec.ofNat_add, BitVec.add_eq_or_of_and_eq_zero _ _ hd, BitVec.getLsbD_or, hp j hj, Bool.beq_eq_decide_eq]

theorem getLsbD_ballot (c : List Lane) (hn : (c.map fun x => x.1).Nodup) (j : Nat) (hj : j < 64) :
    (BitVec.ofNat 64 (ballotOf c)).getLsbD j = c.any fun x => x.1 == j && x.2.1 != 0 := by
  have key : ∀ (c : List Lane) (n : Nat), (c.map fun x => x.1).Nodup →
      (∀ x ∈ c, x.1 < 64 → (BitVec.ofNat 64 n).getLsbD x.1 = false) →
      (BitVec.ofNat 64 (c.foldl (fun n x => if x.2.1 = 0 then n else n + 2 ^ x.1) n)).getLsbD j =
        ((BitVec.ofNat 64 n).getLsbD j || c.any fun x => x.1 == j && x.2.1 != 0) := fun c => by
    induction c with
    | nil => intro n _ _; simp
    | cons x c ih =>
      intro n hn hz
      obtain ⟨hx, hc⟩ := List.nodup_cons.1 hn
      rw [List.foldl_cons, List.any_cons]
      by_cases h0 : x.2.1 = 0
      · rw [if_pos h0, ih n hc fun y hy => hz y (List.mem_cons_of_mem _ hy)]
        simp [h0]
      · have hz' : ∀ y ∈ c, y.1 < 64 → (BitVec.ofNat 64 (n + 2 ^ x.1)).getLsbD y.1 = false := fun y hy hlt => by
          have hne : x.1 ≠ y.1 := fun e => hx (List.mem_map.2 ⟨y, hy, e.symm⟩)
          rw [getLsbD_add_two_pow hlt (hz x List.mem_cons_self), hz y (List.mem_cons_of_mem _ hy) hlt]
          simp [hne]
        rw [if_neg h0, ih _ hc hz', getLsbD_add_two_pow hj (hz x List.mem_cons_self)]
        rw [bne_iff_ne.2 h0, Bool.and_true, Bool.or_assoc]
  simpa [ballotOf] using key c 0 hn fun x _ _ => by simp

theorem mask_updMask {s : State} {t : TRef} {k j : Nat} (f : Mask → Mask) (ht : (t.lid, t.wg, t.wave) ∈ tkeys s.waves)
    (hk : k < 16) : (s.updMask t k f).mask t j = if j = k then f (s.mask t k) else s.mask t j := by
  have hw : (s.updMask t k f).wave t = { s.wave t with k := vupd (s.wave t).k k f } := by
    rw [State.updMask, State.wave_updWave s t t _ ht, if_pos ⟨rfl, rfl, rfl⟩]
  rw [State.mask, hw]
  exact vget_vupd _ _ _ _ _ hk

theorem finishAll_same (l : List Lane) (t : TRef) (s : State) :
    SameButThreads s (l.foldl (fun s x => s.finish { t with lane := x.1 }) s) := by
  induction l generalizing s with
  | nil => rfl
  | cons x l ih => exact SameButThreads.trans (t := s.finish { t with lane := x.1 }) rfl (ih _)

/-- What the threads finish to does not depend on the masks. -/
theorem finishAll_threads (l : List Lane) (t : TRef) {s s' : State} (h : s'.threads = s.threads) :
    (l.foldl (fun s x => s.finish { t with lane := x.1 }) s').threads =
      (l.foldl (fun s x => s.finish { t with lane := x.1 }) s).threads := by
  induction l generalizing s s' with
  | nil => exact h
  | cons x l ih =>
    refine ih ?_
    show tupd s'.threads _ _ = tupd s.threads _ _
    rw [h]

theorem lt_of_mask_arr {s : State} {t : TRef} {k : Nat} (h : (s.mask t k).arr ≠ 0) : k < 16 := by
  by_contra hk
  rw [State.mask, vget, dif_neg hk] at h
  exact h rfl

/-- Settles O10. -/
theorem collectiveCompletesWithItsLastArrival : Obligations.CollectiveCompletesWithItsLastArrival := by
  unfold Obligations.CollectiveCompletesWithItsLastArrival
  intro s t k r h0 h1 hr
  refine ⟨fun h kd kp pb pbn hi ht hn => ?_, complete_eq h0 h1 hr⟩
  have hk := lt_of_mask_arr h0
  have hkd : kd.toNat < 16 := kd.isLt
  set parts := sortBy (fun (a b : Lane) => a.1 < b.1) r.vals with hparts
  set c := parts.filter fun x => x.2.2.2 with hc
  have hperm : parts.Perm r.vals := sortBy_perm _ _
  set s1 := s.updMask t k fun m => { m with arr := 0, rec_ := none } with hs1
  set s2 := parts.foldl (fun s x => s.finish { t with lane := x.1 }) s1 with hs2
  have hsame : SameButThreads s1 s2 := finishAll_same parts t s1
  have ht1 : (t.lid, t.wg, t.wave) ∈ tkeys s1.waves := by rw [hs1, State.updMask, State.updWave_waves, tkeys_tupd]; exact ht
  have ht2 : (t.lid, t.wg, t.wave) ∈ tkeys s2.waves := by rw [hsame.waves]; exact ht1
  have hmask2 : ∀ j, s2.mask t j = if j = k then { s.mask t k with arr := 0, rec_ := none } else s.mask t j := fun j => by
    have he : s2.mask t j = s1.mask t j := by rw [State.mask, State.wave, hsame.waves]; rfl
    exact he.trans (mask_updMask _ ht hk)
  intro b
  have hb : b = s2.writeBallot t kd.toNat (ballotOf c) := complete_ballot h0 h1 hr hi
  have hmask : ∀ j, b.mask t j = if j = kd.toNat then { enr := BitVec.ofNat 64 (ballotOf c) } else s2.mask t j := fun j => by
    rw [hb]
    exact mask_updMask _ ht2 hkd
  refine ⟨fun l hl => ?_, ?_, ?_, fun hne => ?_, fun j hj hjd => ?_, ?_⟩
  · have hnc : (c.map fun x => x.1).Nodup := ((hperm.map _).nodup_iff.2 hn).sublist ((List.filter_sublist).map _)
    rw [hmask, if_pos rfl, getLsbD_ballot c hnc l hl, hc, List.any_filter, hperm.any_eq]
    refine congrArg _ (funext fun x => ?_)
    cases x.2.2.2 <;> simp
  · rw [hmask, if_pos rfl]
  · rw [hmask, if_pos rfl]
  · rw [hmask, if_neg hne, hmask2, if_pos rfl]
  · rw [hmask, if_neg hjd, hmask2, if_neg hj]
  · rw [hb]
    exact finishAll_threads parts t (s := s) (s' := s1) rfl

/-! ## Barriers -/

/-- A thread whose record stands twice in the table, which no table of a running module does. -/
def twice : State := { threads := [(noRef, {}), (noRef, {})], wgs := [((0, 0), { bar := [(noRef, none)] })] }

/-- Refutes O39: the statement is about every state, and in one that lists a thread twice its last arrival at the barrier lets that
thread go on twice, so that it counts two instructions and not one. -/
theorem not_barriersComplete : ¬ Obligations.BarriersComplete := by
  unfold Obligations.BarriersComplete Claims.BarrierCompletesWithItsLastArrival
  rintro ⟨_, h⟩
  obtain ⟨_, _, hfin⟩ := (h twice 0 0 (by decide) (by decide) (by decide)).1 (by decide)
  exact absurd (congrArg Thread.icount (hfin noRef (by decide))) (by decide)

end Sys2Proof.Proofs.Masks
end

section
/-! Proofs about the task forms (spec/10 R181 to R187). -/

namespace Sys2Proof.Proofs.Tasks

open Sys2Proof.Machine Sys2Proof.Claims Sys2Proof.Proofs.Checks Sys2Proof.Proofs.Effects

theorem claimDue_grant {s : State} {lid wg wave : Nat} {t : TRef} {k : Nat} (hd : s.claimDue lid wg wave = some (t, k))
    (hk : (s.wave t).c < k) : exec (.rclaimGrant lid wg wave) s = .next (
      let s := s.takeLines k t
      let us := (s.wg lid wg).claims.filter fun u => u.wave == wave && match (s.thr u).wait.claim with
        | some j => j ≤ (s.wave t).c
        | none => true
      us.foldl State.finish (s.updWg lid wg fun g => { g with claims := g.claims.filter fun u => !us.contains u })) := by
  show execRclaimGrant lid wg wave s = _
  unfold execRclaimGrant
  simp only [hd, if_neg (not_le.2 hk)] <;> rfl

theorem taskFormsComplete : Claims.TaskFormsComplete := by
  refine ⟨fun h dw node s ha hf hm => ?_, fun h pd s ha => ?_, fun h s s' es hg ha ht hp => ?_, fun h s hg ha ht => ?_,
    fun h cnt s ha => ?_, fun h cnt s ha => ?_, fun lid wg wave s t k => claimDue_grant⟩
  · refine congrArg (fun x : State => Host.Outcome.next x.settle) ((issue_admits _ ha).trans ?_)
    exact (guardFaults_pass _ _ _ _ _ hf).trans (ordered_pass _ hm)
  · exact congrArg _ (issue_admits _ ha)
  · refine congrArg Host.Outcome.next ((if_neg (by rw [hg]; decide)).trans (congrArg State.settle ((issue_admits _ ha).trans ?_)))
    exact (atTurn_open _ ht).trans (planForm_go _ hp)
  · refine congrArg Host.Outcome.next ((if_neg (by rw [hg]; decide)).trans (congrArg State.settle ((issue_admits _ ha).trans ?_)))
    exact atTurn_late _ ht
  · exact congrArg _ (issue_admits _ ha)
  · exact congrArg _ (issue_admits _ ha)

/-! ## FETCH -/

theorem fetchOne_some {s : State} {d : Operand} {pd : BitVec 3} {t : TRef} {x : Nat} (h : (s.launchOf t).nextTile t.wg = some x) :
    s.fetchOne d pd t = (s.updLaunch t.lid fun l => l.takeTile t.wg).updThr t fun th =>
      (th.setD true d ((s.launchOf t).tileWord x)).setP pd.toNat true := by
  unfold State.fetchOne
  simp only [h]

theorem fetchOne_none {s : State} {d : Operand} {pd : BitVec 3} {t : TRef} (h : (s.launchOf t).nextTile t.wg = none) :
    s.fetchOne d pd t = s.updThr t fun th => th.setP pd.toNat false := by
  unfold State.fetchOne
  simp only [h]

theorem fetchHandsOutTheNextTile : Claims.FetchHandsOutTheNextTile := by
  intro s d pd t ht hl
  refine ⟨fun x hx => ?_, fun hx => ?_, fun u hu => ?_, ?_⟩
  · rw [fetchOne_some hx]
    refine ⟨(State.thr_updThr (s.updLaunch t.lid fun l => l.takeTile t.wg) t t _ ht).trans (if_pos rfl), ?_⟩
    exact (State.launch_updLaunch s t.lid t.lid _ hl).trans (if_pos rfl)
  · rw [fetchOne_none hx]
    exact ⟨(State.thr_updThr s t t _ ht).trans (if_pos rfl), rfl⟩
  · cases hx : (s.launchOf t).nextTile t.wg with
    | some x => rw [fetchOne_some hx, State.thr_updThr_ne _ _ hu]; rfl
    | none => rw [fetchOne_none hx, State.thr_updThr_ne _ _ hu]
  · cases hx : (s.launchOf t).nextTile t.wg with
    | some x => rw [fetchOne_some hx]; rfl
    | none => rw [fetchOne_none hx]; rfl

/-! ## Claims on registers -/

/-- Registers from c on, n of them, become zero. -/
theorem vget_foldl_zero (c n : Nat) (v : Vector Word 128) (j : Nat) (h : c + n ≤ 128) :
    vget ((List.range n).foldl (fun v i => vset v (c + i) 0) v) 0 j = if c ≤ j ∧ j < c + n then 0 else vget v 0 j := by
  induction n with
  | zero => rw [if_neg (by omega)]; rfl
  | succ n ih =>
    rw [List.range_succ, List.foldl_append, List.foldl_cons, List.foldl_nil, vget_vset _ _ _ _ _ (by omega), ih (by omega)]
    by_cases e : j = c + n
    · rw [if_pos e, if_pos (by omega)]
    · rw [if_neg e]
      by_cases hj : c ≤ j ∧ j < c + n
      · rw [if_pos hj, if_pos (by omega)]
      · rw [if_neg hj, if_neg (by omega)]

theorem claimedRegistersAreZero : Claims.ClaimedRegistersAreZero := by
  intro s k t hw hg hck hk hn r
  set c := (s.wave t).c with hc
  set s1 := s.updWg t.lid t.wg fun g => { g with pool := g.pool - s.linesFor t (k - c) } with hs1
  set f : TRef → Thread → Thread := fun _ th => { th with v := (List.range (k - c)).foldl (fun v i => vset v (c + i) 0) th.v } with hf
  set s2 := (s1.waveThreads t).foldl (fun s u => s.updThr u (f u)) s1 with hs2
  have hr : r = s2.updWave t fun w => { w with c := k } := rfl
  have hsame : SameButThreads s1 s2 := foldl_updThr_same f _ s1
  have hthr : ∀ u, r.thr u = if u ∈ s.waveThreads t then f u (s.thr u) else s.thr u :=
    fun u => thr_foldl_updThr f (s.waveThreads t) s1 hn (fun t ht => (List.mem_filter.1 ht).1) u
  have hwave : s2.wave t = s.wave t := by rw [State.wave, hsame.waves]; rfl
  have hkeys : (t.lid, t.wg, t.wave) ∈ tkeys s2.waves := by rw [hsame.waves]; exact hw
  have hwgs : s2.wgs = s1.wgs := (congrArg State.wgs hsame : s2.wgs = { s1 with threads := s2.threads }.wgs)
  refine ⟨?_, ?_, fun u hu _ n hn128 => ?_, fun u hu => ?_, ?_⟩
  · rw [hr, State.wave_updWave s2 t t _ hkeys, if_pos ⟨rfl, rfl, rfl⟩]
  · have h1 : r.wgOf t = s1.wgOf t := by
      show (tget s2.wgs (t.lid, t.wg)).getD {} = _
      rw [hwgs]
      rfl
    rw [h1, State.wgOf, hs1, State.wg_updWg s _ _ _ _ _ hg, if_pos ⟨rfl, rfl⟩]
    rfl
  · rw [hthr, if_pos hu, hf]
    simp only
    rw [vget_foldl_zero _ _ _ _ (by omega), show c + (k - c) = k by omega]
  · rw [hthr, if_neg hu]
  · exact hsame.mem

/-- Settles O46. -/
theorem tasksRun : Obligations.TasksRun := ⟨taskFormsComplete, fetchHandsOutTheNextTile, claimedRegistersAreZero⟩

end Sys2Proof.Proofs.Tasks
end

section
/-! Proofs about the ordering forms and the queues (spec/13 R220; spec/14 R240 to R248; spec/15 R253, R254, R267). -/

namespace Sys2Proof.Proofs.Ordering

open Sys2Proof.Machine Sys2Proof.Claims Sys2Proof.Proofs.Checks Sys2Proof.Proofs.Control Sys2Proof.Proofs.Effects

/-! ## What the clock and the log of releases leave alone -/

section Fields

variable (s : State)

@[simp] theorem tick_wgs : s.tick.wgs = s.wgs := rfl
@[simp] theorem tick_mem : s.tick.mem = s.mem := rfl
@[simp] theorem tick_order : s.tick.order = s.order := rfl
@[simp] theorem tick_threads : s.tick.threads = s.threads := rfl
@[simp] theorem logHeld_wgs (l g : Nat) (sc : Scp) (n : Nat) : (s.logHeld l g sc n).wgs = s.wgs := rfl
@[simp] theorem logHeld_mem (l g : Nat) (sc : Scp) (n : Nat) : (s.logHeld l g sc n).mem = s.mem := rfl
@[simp] theorem logHeld_order (l g : Nat) (sc : Scp) (n : Nat) : (s.logHeld l g sc n).order = s.order := rfl
@[simp] theorem logSync_wgs (l g : Nat) (b : Bool) (sc : Scp) (n : Nat) : (s.logSync l g b sc n).wgs = s.wgs := rfl
@[simp] theorem logSync_mem (l g : Nat) (b : Bool) (sc : Scp) (n : Nat) : (s.logSync l g b sc n).mem = s.mem := rfl
@[simp] theorem logSync_threads (l g : Nat) (b : Bool) (sc : Scp) (n : Nat) : (s.logSync l g b sc n).threads = s.threads := rfl

end Fields

/-! ## The ordering forms -/

/-- Where a release cuts is one of the moments since it began. -/
theorem phaseComplete_next {i : Nat} {s : State} {r : Release} (hr : s.releases[i]? = some r) (hrun : s.runs r.lid r.wg = true) :
    ∃ k c, k ≤ s.stamp + 1 - r.stamp ∧ exec (.phaseComplete i) s = .next (
      let s : State := ({ s with releases := s.releases.eraseIdx i, freeCtr := c } : State).release r.lid r.wg r.scope (r.stamp + k)
      let s := if r.acquire then s.acquire r.lid r.wg r.scope else s
      (r.waiters.foldl State.finish s).settle) := by
  set s0 : State := { s with releases := s.releases.eraseIdx i }
  refine ⟨(s0.choose (s.stamp + 1 - r.stamp + 1)).1, (s0.choose (s.stamp + 1 - r.stamp + 1)).2.freeCtr,
    Nat.lt_succ_iff.1 (choose_lt s0 (Nat.succ_pos _)), ?_⟩
  show execPhaseComplete i s = _
  unfold execPhaseComplete
  simp only [hr, hrun]
  rfl

/-- A group of which some threads retire and the others stay. -/
theorem retireSome_effect {s : State} {ts : List TRef} (len : Nat) (hg : s.GroupOk) (hn : ts.Nodup)
    (hsub : ∀ t ∈ ts, t ∈ s.cur.threads) :
    ThreadEffect s (s.retireAll len ts) ts (fun _ th => th.retire len) fun _ th => th := by
  have ht := thr_retireAll len ts s hn fun t ht => (hg.2 t (hsub t ht)).1
  refine ⟨fun u _ => ?_, fun u hu => ?_, retireAll_same len ts s⟩
  · rw [ht u]
    by_cases h : u ∈ ts
    · rw [if_pos h, if_pos h]
    · rw [if_neg h, if_neg h]
  · rw [ht u, if_neg fun h => hu (hsub u h)]

theorem inactive_sub (s : State) (p : Pred) : ∀ t ∈ s.inactive p, t ∈ s.cur.threads := fun _ h => (List.mem_filter.1 h).1

theorem inactive_append_nodup {s : State} (hg : s.GroupOk) (p : Pred) (q : TRef → Bool) :
    (s.inactive p ++ (s.active p).filter q).Nodup := by
  refine List.nodup_append.2 ⟨hg.1.filter _, (active_nodup hg p).filter _, fun a ha b hb e => ?_⟩
  subst e
  have h1 := (List.mem_filter.1 ha).2
  have h2 := (List.mem_filter.1 (List.mem_of_mem_filter hb)).2
  rw [h2] at h1
  cases h1

theorem orderingFormsComplete : Claims.OrderingFormsComplete := by
  refine ⟨fun h scp s ha hu hm => ?_, fun i s r hr hrun => phaseComplete_next hr hrun, fun h s hg ha => ?_⟩
  · refine congrArg (fun x : State => Host.Outcome.next x.settle) ((issue_admits _ ha).trans ?_)
    simp only [deliver_none _ _ _ _ hu]
    exact ordered_pass _ hm
  · intro go hu
    refine ⟨_, rfl, ?_⟩
    have hd := deliver_none (hlen h) (s.inactive h.pred) true (fun _ => true) hu
    simp only [go] at hd
    rw [issue_admits _ ha]
    simp only [hd]
    refine retireSome_effect (hlen h) hg (inactive_append_nodup hg h.pred _) fun t ht => ?_
    rcases List.mem_append.1 ht with ht | ht
    · exact inactive_sub s _ t ht
    · exact active_sub s _ t (List.mem_of_mem_filter ht)

/-! ## What a release leaves staged -/

/-- What each workgroup has staged. -/
def stagingOf (s : State) : Nat → Nat → List Staged := fun l g => (s.wg l g).staging

/-- Every workgroup's staged stores are the same. -/
def SameStaging (s t : State) : Prop := stagingOf t = stagingOf s

theorem SameStaging.trans {s t u : State} (h : SameStaging s t) (k : SameStaging t u) : SameStaging s u := Eq.trans k h

theorem SameStaging.refl (s : State) : SameStaging s s := rfl

theorem SameStaging.of_wgs {s t : State} (h : t.wgs = s.wgs) : SameStaging s t := by
  funext l g
  rw [stagingOf, State.wg, h]
  rfl

/-- A workgroup changes, but not what it has staged. -/
theorem SameStaging.updWg {s : State} {l g : Nat} {f : Wg → Wg} (hf : ∀ x, (f x).staging = x.staging) :
    SameStaging s (s.updWg l g f) := by
  funext l' g'
  simp only [stagingOf, State.wg, State.updWg_wgs, tget_tupd]
  split
  next e =>
    rw [e]
    cases tget s.wgs (l, g) with
    | none => rfl
    | some x => exact hf x
  next => rfl

theorem SameStaging.foldl {α : Type} {f : State → α → State} (hf : ∀ s a, SameStaging s (f s a)) (l : List α) (s : State) :
    SameStaging s (l.foldl f s) := by
  induction l generalizing s with
  | nil => exact .refl _
  | cons a l ih => exact (hf s a).trans (ih _)

theorem tagCtx_wgs (s : State) (ctx : Nat) (ls : List Nat) : (s.tagCtx ctx ls).wgs = s.wgs := by
  rw [tagCtx_onlyWritten ctx ls s]

theorem journalRec_sameStaging (s : State) (lid : Nat) (va : DWord) (loc : Nat) : SameStaging s (s.journalRec lid va loc) := by
  unfold State.journalRec
  dsimp only
  split
  · exact .of_wgs (tagCtx_wgs _ _ _)
  · exact .of_wgs rfl

theorem foldDigest_sameStaging (s : State) (lid wg : Nat) (va : DWord) (bs : List (Nat × Byte)) :
    SameStaging s (s.foldDigest lid wg va bs) := by
  unfold State.foldDigest
  dsimp only
  split
  · exact SameStaging.trans (t := s.updWg lid wg fun g => { g with digest := crc64 (s.wg lid wg).digest (digestRec va bs) })
      (SameStaging.updWg fun _ => rfl) (SameStaging.of_wgs rfl)
  · exact SameStaging.updWg fun _ => rfl

theorem enterPlain_sameStaging (s : State) (lid wg : Nat) (th : TRef) (st : Nat) (bs : List (Nat × Byte)) (ps : List Pub)
    (at_ : Bool) : SameStaging s (s.enterPlain lid wg th st bs ps at_) := SameStaging.of_wgs rfl

theorem enterWg_sameStaging (s : State) (lid wg : Nat) (th : TRef) (st : Nat) (va : DWord) (bs : List (Nat × Byte)) (ps : List Pub)
    (at_ : Bool) : SameStaging s (s.enterWg lid wg th st va bs ps at_) := by
  unfold State.enterWg
  dsimp only
  split
  · exact .refl _
  split
  · exact .of_wgs rfl
  split
  · exact ((journalRec_sameStaging ..).trans (foldDigest_sameStaging ..)).trans (enterPlain_sameStaging ..)
  · exact (foldDigest_sameStaging ..).trans (enterPlain_sameStaging ..)

theorem enterStaged_sameStaging (s : State) (lid wg : Nat) (scope : Scp) (at_ : Nat) (a : Acq) (es : List Staged) :
    SameStaging s (s.enterStaged lid wg scope at_ a es) := by
  unfold State.enterStaged
  refine SameStaging.foldl (f := fun s e => _) (fun s e => ?_) es { s with order := _ }
  split
  · split
    · exact .refl _
    · exact enterPlain_sameStaging ..
  · exact enterWg_sameStaging ..

theorem wg_of_wgs {s t : State} (h : t.wgs = s.wgs) (l g : Nat) : t.wg l g = s.wg l g := by rw [State.wg, h]; rfl

/-- A workgroup after its update, whatever else has changed. -/
theorem wg_updated {s t : State} {lid wg : Nat} {f : Wg → Wg} (h : t.wgs = tupd s.wgs (lid, wg) f) (hk : (lid, wg) ∈ tkeys s.wgs) :
    t.wg lid wg = f (s.wg lid wg) :=
  (wg_of_wgs (s := s.updWg lid wg f) h lid wg).trans ((State.wg_updWg s lid wg lid wg f hk).trans (if_pos ⟨rfl, rfl⟩))

/-- A release of a workgroup whose turn is open, in the state that has counted it. -/
def releaseOpen (c : State) (lid wg : Nat) (scope : Scp) (upTo : Nat) (a : Acq) (cover : List Staged) : State :=
  let s := (c.updWg lid wg fun g => { g with staging := g.staging.filter (fun e => upTo ≤ e.stamp) }).tick
  (s.enterStaged lid wg scope s.stamp a cover).logSync lid wg true scope upTo

theorem releaseOpen_staging {c : State} {lid wg : Nat} (scope : Scp) (upTo : Nat) (a : Acq) (cover : List Staged)
    (hk : (lid, wg) ∈ tkeys c.wgs) :
    ((releaseOpen c lid wg scope upTo a cover).wg lid wg).staging = (c.wg lid wg).staging.filter fun e => upTo ≤ e.stamp := by
  unfold releaseOpen
  refine (congrFun (congrFun (enterStaged_sameStaging ..) lid) wg).trans ?_
  exact congrArg Wg.staging (wg_updated (s := c) (t := (c.updWg lid wg _).tick) rfl hk)

/-- What a release before the unit's turn does to its workgroup (R267): the stores that it covers are held. -/
def heldBack (upTo stamp : Nat) (scope : Scp) (g : Wg) : Wg :=
  { g with
    staging := g.staging.map (fun e => if e.stamp < upTo && e.held.isNone then { e with held := some stamp } else e)
    heldRels := g.heldRels ++ [{ stamp := stamp, scope := scope, acq := g.acq, cover := upTo }] }

/-- Such a release, in the state that has counted it. -/
def releaseLate (c : State) (lid wg : Nat) (scope : Scp) (upTo : Nat) : State :=
  ((c.tick.updWg lid wg (heldBack upTo c.tick.stamp scope)).logHeld lid wg scope upTo).tick

theorem heldBack_staging (upTo stamp : Nat) (scope : Scp) (g : Wg) :
    ((heldBack upTo stamp scope g).staging.map fun e => (e.stamp, e.va, e.bytes)) = g.staging.map fun e => (e.stamp, e.va, e.bytes) := by
  rw [heldBack, List.map_map]
  refine List.map_congr_left fun e _ => ?_
  simp only [Function.comp]
  split
  · rfl
  · rfl

theorem releaseLate_effect {c : State} {lid wg : Nat} (scope : Scp) (upTo : Nat) (hk : (lid, wg) ∈ tkeys c.wgs) :
    (((releaseLate c lid wg scope upTo).wg lid wg).staging.map fun e => (e.stamp, e.va, e.bytes)) =
        (c.wg lid wg).staging.map (fun e => (e.stamp, e.va, e.bytes)) ∧
      (releaseLate c lid wg scope upTo).mem = c.mem ∧ (releaseLate c lid wg scope upTo).order = c.order := by
  have hw : (releaseLate c lid wg scope upTo).wgs = tupd c.tick.wgs (lid, wg)
    (heldBack upTo c.tick.stamp scope) := rfl
  refine ⟨?_, by simp [releaseLate], by simp [releaseLate]⟩
  rw [wg_updated (s := c.tick) hw hk]
  exact heldBack_staging ..

/-- The state in which a release has been counted (R284). -/
def countedRelease (s : State) (lid wg : Nat) : State :=
  s.count (s.wg lid wg).die (some (s.wg lid wg).site) 0x102 (some (s.launch lid).ctx) (some lid) (some wg) none 1

/-- The stores that a release covers, in the order in which they enter (R253, R360). -/
def coveredStores (s : State) (lid wg upTo : Nat) : List Staged :=
  let cover := (s.wg lid wg).staging.filter fun e => e.stamp < upTo
  if ((countedRelease s lid wg).launch lid).det = 0 then cover else sortBy (stagedLt (countedRelease s lid wg)) cover

theorem release_eq (s : State) (lid wg : Nat) (scope : Scp) (upTo : Nat) :
    s.release lid wg scope upTo = if (countedRelease s lid wg).turnOpen lid wg then
      releaseOpen (countedRelease s lid wg) lid wg scope upTo (s.wg lid wg).acq (coveredStores s lid wg upTo)
      else releaseLate (countedRelease s lid wg) lid wg scope upTo := rfl

theorem turnOpen_countedRelease (s : State) (lid wg : Nat) : (countedRelease s lid wg).turnOpen lid wg = s.turnOpen lid wg := rfl

/-- What an acquire fixes of its workgroup (R254, R259). -/
def acquired (s : State) (lid wg : Nat) (scope : Scp) (g : Wg) : Wg :=
  { g with
    acq := { by_ := s.agentOf lid wg, scope := scope, stamp := s.stamp }
    sel := ((s.die (s.wg lid wg).die).pubs.filter fun p => p.2.ctx == (s.launch lid).ctx).map fun p => (p.1, p.2.cur) }

theorem acquire_eq (s : State) (lid wg : Nat) (scope : Scp) :
    s.acquire lid wg scope = ((s.tick.updWg lid wg (acquired s.tick lid wg scope)).logSync lid wg false scope 0).tick := rfl

theorem wg_acquire {s : State} {lid wg : Nat} (scope : Scp) (hk : (lid, wg) ∈ tkeys s.wgs) :
    (s.acquire lid wg scope).wg lid wg = acquired s.tick lid wg scope (s.wg lid wg) := by
  have hw : (s.acquire lid wg scope).wgs = tupd s.tick.wgs (lid, wg) (acquired s.tick lid wg scope) := rfl
  exact wg_updated (s := s.tick) hw hk

theorem releaseAndAcquireOfAWorkgroup : Claims.ReleaseAndAcquireOfAWorkgroup := by
  refine ⟨fun s lid wg scope upTo hk ho => ?_, fun s lid wg scope upTo hk ho => ?_, fun s lid wg scope hk => ?_⟩
  · rw [release_eq, turnOpen_countedRelease, if_pos ho]
    exact releaseOpen_staging scope upTo _ _ hk
  · rw [release_eq, turnOpen_countedRelease, if_neg (by rw [ho]; decide)]
    exact releaseLate_effect scope upTo hk
  · rw [wg_acquire scope hk]
    exact ⟨rfl, rfl, by simp [acquire_eq], by simp [acquire_eq]⟩

/-- Settles O44. -/
theorem orderingHolds : Obligations.OrderingHolds := ⟨orderingFormsComplete, releaseAndAcquireOfAWorkgroup⟩

/-! ## Queues -/

theorem queue_updQueue {s : State} {lid wg q : Nat} (f : Queue → Queue) (hk : (lid, wg) ∈ tkeys s.wgs) (hq : q < 8) (k : Nat) :
    (s.updQueue lid wg q f).queue lid wg k = if k = q then f (s.queue lid wg q) else s.queue lid wg k := by
  have hg : (s.updQueue lid wg q f).wg lid wg = { s.wg lid wg with q := vupd (s.wg lid wg).q q f } :=
    (State.wg_updWg s lid wg lid wg _ hk).trans (if_pos ⟨rfl, rfl⟩)
  rw [State.queue, hg]
  exact vget_vupd _ _ _ _ _ hq

theorem queueForm_pass {s : State} {h : Hdr} {q : Nat} {push : Bool} {o : Operand} {field : Nat} {n : Need}
    (wait : List TRef → TRef → State → Wait) (ha : s.Admits n h) (hf : NoneFaults (s.active h.pred) (s.queueChk q push field o))
    (hc : push = true → ∀ t ∈ s.active h.pred, s.copiesOf t = []) :
    s.queueForm h q push o field n wait = (
      let act := s.active h.pred
      let s := act.foldl (fun s t => s.park (wait act t s) (hlen h) true t) (idled h s)
      (act.foldl State.moveElem s).groupMoved act) := by
  refine (issue_admits _ ha).trans ((guardFaults_pass _ _ _ _ _ hf).trans (if_neg ?_))
  cases push with
  | false => exact Bool.false_ne_true
  | true =>
    rw [Bool.true_and, List.any_eq_true]
    rintro ⟨t, ht, e⟩
    rw [hc rfl t ht] at e
    cases e

/-- Threads' guards do not depend on the queues. -/
theorem inactive_updQueues (f : State → TRef → Queue → Queue) (q : Nat) (p : Pred) (l : List TRef) (s : State) :
    (l.foldl (fun s t => s.updQueue t.lid t.wg q (f s t)) s).inactive p = s.inactive p := by
  induction l generalizing s with
  | nil => rfl
  | cons t l ih => exact ih (s.updQueue t.lid t.wg q (f s t))

theorem queueFormsComplete : Claims.QueueFormsComplete := by
  refine ⟨fun h q s ha hr => ?_, fun h q s hg ha => ⟨_, rfl, ?_⟩, fun h q s ha hf hc => ?_, fun h q s ha hf => ?_, fun t s hr => ?_⟩
  · refine congrArg _ ((issue_admits _ ha).trans ((guardFaults_pass _ _ _ _ _ fun t ht => ?_).trans ?_))
    · rw [hr t ht]
      rfl
    · dsimp only
      rw [inactive_updQueues fun s t _ => { cw := (s.rd t 0 h.lit).r64 h.a }]
  · rw [issue_admits _ ha]
    exact each_dep (fun s u th => th.setD false h.d (s.queue u.lid u.wg q.toNat).status) (fun _ _ _ _ _ _ => rfl) s (hlen h) _ hg
      (active_nodup hg _) (active_sub s _)
  · exact congrArg _ (queueForm_pass _ ha hf fun _ => hc)
  · exact congrArg _ (queueForm_pass _ ha hf fun e => nomatch e)
  · exact congrArg _ (if_pos hr)

/-- A thread's element joins a queue that is not full. -/
theorem moveElem_push {s : State} {t : TRef} {q : Nat} {b : List Byte} {g : List TRef} (hw : (s.thr t).wait = .push q b g)
    (hb : b ≠ []) (ht : s.inTurn t g = true) (hlt : (s.queue t.lid t.wg q).elems.length < cwDepth (s.queue t.lid t.wg q).cw) :
    s.moveElem t = (s.tick.updQueue t.lid t.wg q fun x => x.push b s.stamp).updThr t fun th => { th with wait := .push q [] g } := by
  have he : b.isEmpty = false := by simpa using hb
  unfold State.moveElem
  simp only [hw, he, ht, not_le.2 hlt]
  rfl

theorem moveElem_full {s : State} {t : TRef} {q : Nat} {b : List Byte} {g : List TRef} (hw : (s.thr t).wait = .push q b g)
    (hle : cwDepth (s.queue t.lid t.wg q).cw ≤ (s.queue t.lid t.wg q).elems.length) : s.moveElem t = s := by
  unfold State.moveElem
  simp only [hw, hle]
  simp

theorem moveElem_pop {s : State} {t : TRef} {q d : Nat} {g : List TRef} {e : List Byte} {es : List (List Byte)}
    (hw : (s.thr t).wait = .pop q d false g) (ht : s.inTurn t g = true) (hq : (s.queue t.lid t.wg q).elems = e :: es) :
    s.moveElem t = (s.updQueue t.lid t.wg q fun x => { x with elems := es }).updThr t fun th =>
      { ((bytesToWords e).zipIdx.foldl (fun (th : Thread) w => th.setV (d + w.2) w.1) th) with wait := .pop q d true g } := by
  unfold State.moveElem
  simp only [hw, hq, ht]
  rfl

theorem moveElem_empty {s : State} {t : TRef} {q d : Nat} {g : List TRef} (hw : (s.thr t).wait = .pop q d false g)
    (hq : (s.queue t.lid t.wg q).elems = []) : s.moveElem t = s := by
  unfold State.moveElem
  simp only [hw, hq]

/-- Whatever a thread waits for, moving its element leaves memory and the other threads alone, and every queue but the one it names. -/
theorem moveElem_frame (s : State) (t : TRef) :
    (∀ u, u ≠ t → (s.moveElem t).thr u = s.thr u) ∧ (s.moveElem t).mem = s.mem := by
  unfold State.moveElem
  split
  · dsimp only
    split
    · exact ⟨fun _ _ => rfl, rfl⟩
    · exact ⟨fun u hu => State.thr_updThr_ne _ _ hu, rfl⟩
  · split
    · exact ⟨fun _ _ => rfl, rfl⟩
    · split
      · exact ⟨fun _ _ => rfl, rfl⟩
      · exact ⟨fun u hu => State.thr_updThr_ne _ _ hu, rfl⟩
  · exact ⟨fun _ _ => rfl, rfl⟩

theorem moveElem_otherQueue {s : State} {t : TRef} {q k : Nat} (hk : (t.lid, t.wg) ∈ tkeys s.wgs) (hq : q < 8) (hne : k ≠ q)
    {g : List TRef} (hw : (∃ b, (s.thr t).wait = .push q b g) ∨ ∃ d m, (s.thr t).wait = .pop q d m g) :
    (s.moveElem t).queue t.lid t.wg k = s.queue t.lid t.wg k := by
  unfold State.moveElem
  rcases hw with ⟨b, hw⟩ | ⟨d, m, hw⟩
  · simp only [hw]
    split
    · rfl
    · exact (queue_updQueue (s := s.tick) _ hk hq k).trans (if_neg hne)
  · simp only [hw]
    split
    · rfl
    · split
      · rfl
      · exact (queue_updQueue (s := s) _ hk hq k).trans (if_neg hne)

theorem queueKeepsItsOrder : Claims.QueueKeepsItsOrder := by
  intro s t q g ht hk hq hturn
  refine ⟨fun b hw hb => ⟨fun hlt => ?_, moveElem_full hw⟩, fun d hw => ⟨fun e es he => ?_, moveElem_empty hw⟩,
    (moveElem_frame s t).1, (moveElem_frame s t).2, fun k hne hw => moveElem_otherQueue hk hq hne hw⟩
  · rw [moveElem_push hw hb hturn hlt]
    have hth := (State.thr_updThr (s.tick.updQueue t.lid t.wg q fun x => x.push b s.stamp) t t
      (fun th => { th with wait := .push q [] g }) ht).trans (if_pos rfl)
    refine ⟨?_, ?_, ?_⟩
    · refine (congrArg Queue.elems ((queue_updQueue (s := s.tick) _ hk hq q).trans (if_pos rfl))).trans rfl
    · rw [hth]; rfl
    · rw [hth]; rfl
  · rw [moveElem_pop hw hturn he]
    have hth := (State.thr_updThr (s.updQueue t.lid t.wg q fun x => { x with elems := es }) t t (fun th =>
      { ((bytesToWords e).zipIdx.foldl (fun (th : Thread) w => th.setV (d + w.2) w.1) th) with wait := .pop q d true g })
      ht).trans (if_pos rfl)
    refine ⟨?_, ?_, ?_⟩
    · exact (congrArg Queue.elems ((queue_updQueue (s := s) _ hk hq q).trans (if_pos rfl))).trans rfl
    · rw [hth]; rfl
    · rw [hth]; rfl

/-- Settles O47. -/
theorem queuesServe : Obligations.QueuesServe := ⟨queueFormsComplete, queueKeepsItsOrder⟩

end Sys2Proof.Proofs.Ordering
end

section
/-! Proofs about the system and the debug forms (spec/20 R328, R337 to R341, R353 to R356). -/

namespace Sys2Proof.Proofs.System

open Sys2Proof.Machine Sys2Proof.Claims Sys2Proof.Proofs.Checks Sys2Proof.Proofs.Ordering

theorem mem_inactive {s : State} {p : Pred} {u : TRef} : u ∈ s.inactive p ↔ u ∈ s.cur.threads ∧ u ∉ s.active p := by
  simp only [State.inactive, State.active, List.mem_filter]
  by_cases hp : predTrue (s.thr u) p = true
  · simp [hp]
  · simp [hp]

/-- The threads of the group retire, the active ones past a region boundary. -/
theorem retireBound_effect {s : State} (len : Nat) (p : Pred) (hg : s.GroupOk) :
    ThreadEffect s ((s.retireAll len (s.inactive p)).retireBoundAll len (s.active p)) (s.active p)
      (fun _ th => (th.retire len).bound) fun _ th => th.retire len := by
  have hkey : ∀ t ∈ s.cur.threads, t ∈ tkeys s.threads := fun t ht => (hg.2 t ht).1
  set r := s.retireAll len (s.inactive p) with hr
  have kr : tkeys r.threads = tkeys s.threads := tkeys_foldl_updThr (fun _ th => th.retire len) _ s
  have tr := thr_retireAll len (s.inactive p) s (hg.1.filter _) fun t ht => hkey t (inactive_sub s p t ht)
  have tb := thr_foldl_updThr (fun _ th => (th.retire len).bound) (s.active p) r (active_nodup hg p)
    fun t ht => kr ▸ hkey t (active_sub s p t ht)
  refine ⟨fun u hu => ?_, fun u hu => ?_, SameButThreads.trans (retireAll_same len _ s) (foldl_updThr_same _ _ r)⟩
  · refine (tb u).trans ?_
    rw [tr u]
    by_cases ha : u ∈ s.active p
    · rw [if_pos ha, if_pos ha, if_neg fun hi => (mem_inactive.1 hi).2 ha]
    · rw [if_neg ha, if_neg ha, if_pos (mem_inactive.2 ⟨hu, ha⟩)]
  · refine (tb u).trans ?_
    rw [if_neg fun h => hu (active_sub s p u h), tr u, if_neg fun h => hu (inactive_sub s p u h)]

theorem actFault_none {s : State} {a : Act} {act : List TRef} (h : ActsOk s a act) : NoneFaults act (s.actFault a) :=
  fun t ht => if_pos (h t ht)

theorem trapret_returns {s : State} {h : Hdr} {a : Act} {n : Need} (eff : TRef → State → State)
    (ha : s.Admits { n with priv := true } h) (ho : ActsOk s a (s.active h.pred)) : s.trapret h a n eff = returns h eff s :=
  congrArg State.settle ((issue_admits _ ha).trans (guardFaults_pass _ _ _ _ _ (actFault_none ho)))

/-- A word of the index space of one thread does not depend on another's record. -/
theorem trapWord_updThr_ne (s : State) {u v : TRef} (f : Thread → Thread) (i : Nat) (h : u ≠ v) :
    (s.updThr v f).trapWord u i = s.trapWord u i := by
  simp only [State.trapWord, State.ticketStatus, State.thr_updThr_ne s f h]
  rfl

theorem trapIndex_updThr_ne (s : State) {u v : TRef} (f : Thread → Thread) (h : Hdr) (huv : u ≠ v) :
    (s.updThr v f).trapIndex h u = s.trapIndex h u := by
  simp only [State.trapIndex, State.rd, State.thr_updThr_ne s f huv]
  rfl

theorem indexFault_none {s : State} {h : Hdr} {lo hi : Nat} {act : List TRef}
    (hr : ∀ t ∈ act, lo ≤ s.trapIndex h t ∧ s.trapIndex h t ≤ hi) : NoneFaults act (s.indexFault h lo hi) :=
  fun t ht => if_pos (by simpa using hr t ht)

theorem systemFormsComplete : Claims.SystemFormsComplete := by
  refine ⟨fun h s hg ha => ⟨_, rfl, ?_⟩, fun h s ha ho => ?_, fun h s ha ho => ?_, fun h s ha ho => ?_, fun h s ha => ?_,
    fun h s hg ha hi => ⟨_, rfl, ?_⟩, fun h s hg ha hi => ⟨_, rfl, ?_⟩, fun h s ha hp => ?_⟩
  · rw [issue_admits _ ha]
    exact retireBound_effect _ _ hg
  · exact congrArg Host.Outcome.next (trapret_returns (n := {}) _ ha ho)
  · exact congrArg Host.Outcome.next (trapret_returns (n := {}) _ ha ho)
  · exact congrArg Host.Outcome.next (trapret_returns (n := { a := .src }) _ ha ho)
  · exact congrArg Host.Outcome.next (trapret_returns (n := {}) _ ha fun t _ => Bool.or_true _)
  · rw [issue_admits _ ha, guardFaults_pass _ _ _ _ _ (indexFault_none fun t ht => ⟨Nat.zero_le _, hi t ht⟩)]
    exact each_dep (fun s u th => th.setD false h.d (s.trapWord u (s.trapIndex h u)).toNat)
      (fun s u v f huv _ => by rw [trapIndex_updThr_ne s f h huv, trapWord_updThr_ne s f _ huv]) s (hlen h) _ hg
      (active_nodup hg _) (active_sub s _)
  · rw [issue_admits _ ha, guardFaults_pass _ _ _ _ _ (indexFault_none hi)]
    exact each_dep (fun s u th => th.setTrapWord (s.trapIndex h u) ((s.rd u 0 h.lit).r32 h.b))
      (fun s u v f huv _ => by rw [trapIndex_updThr_ne s f h huv, State.rd, State.thr_updThr_ne s f huv]; rfl) s (hlen h) _ hg
      (active_nodup hg _) (active_sub s _)
  · refine congrArg Host.Outcome.next ((issue_admits _ ha).trans (guardFaults_pass _ _ _ _ _ fun t ht => ?_))
    exact if_neg (not_le.2 (hp t ht))

/-! ## Debug forms -/

theorem counterFault_none {s : State} {x : CntX} {t : TRef} (h : (s.counter x t).ctx.toNat = s.ctxOf t) :
    s.counterFault x t = none := if_pos h

/-- A counter does not depend on a thread's record. -/
theorem counter_updThr (s : State) (x : CntX) (u v : TRef) (f : Thread → Thread) :
    (s.updThr v f).counter x u = s.counter x u := by
  unfold State.counter
  rfl

theorem wgOf_retireAll (s : State) (len : Nat) (l : List TRef) (t : TRef) : (s.retireAll len l).wgOf t = s.wgOf t := by
  rw [State.wgOf, wg_of_wgs]
  · rfl
  · rw [retireAll_same len l s]

theorem bkpt_halts {s : State} {h : Hdr} (code : BitVec 16) (ha : s.Admits {} h)
    (hb : ∀ t ∈ s.active h.pred, (s.launchOf t).bkHalt = true) :
    exec (.bkpt h code) s = .next (((s.active h.pred).map fun t => (t.lid, (s.wgOf t).inst)).eraseDups.foldl
      (fun s u => s.haltUnit u.1 u.2) (s.retireAll (hlen h) s.cur.threads)) := by
  have hf : (s.active h.pred).filter (fun t => !(s.launchOf t).bkHalt) = [] :=
    List.filter_eq_nil_iff.2 fun t ht => by simp [hb t ht]
  refine congrArg Host.Outcome.next ((issue_admits _ ha).trans ?_)
  simp only [hf, wgOf_retireAll]
  rfl

theorem bkpt_stops {s : State} {h : Hdr} (code : BitVec 16) (hg : s.GroupOk) (ha : s.Admits {} h) (hne : s.active h.pred ≠ [])
    (hb : ∀ t ∈ s.active h.pred, (s.launchOf t).bkHalt = false) : ∃ t, exec (.bkpt h code) s = .next t ∧
    ThreadEffect s t (s.active h.pred)
      (fun _ th => stopped (maskOf s.cur.threads (s.active h.pred)) { code := .breakpoint, d0 := code.setWidth 32 } th)
      fun _ th => th.retire (hlen h) := by
  have hf : (s.active h.pred).filter (fun t => !(s.launchOf t).bkHalt) = s.active h.pred :=
    List.filter_eq_self.2 fun t ht => by simp [hb t ht]
  have he : (s.active h.pred).isEmpty = false := by simpa using hne
  refine ⟨s.stop (hlen h) h.pred (s.active h.pred) { code := .breakpoint, d0 := code.setWidth 32 },
    congrArg Host.Outcome.next ((issue_admits _ ha).trans ?_), ?_⟩
  · simp only [hf, he]
    rfl
  · obtain ⟨h1, h2, h3⟩ := stop_effect (hlen h) h.pred { code := .breakpoint, d0 := code.setWidth 32 } hg (active_nodup hg h.pred)
      fun _ ht => ht
    refine ⟨fun u hu => (h1 u hu).trans ?_, h2, h3⟩
    by_cases hu : u ∈ s.active h.pred
    · simp only [if_pos hu]
    · simp only [if_neg hu]

theorem debugFormsComplete : Claims.DebugFormsComplete := by
  refine ⟨fun h code s ha hb => bkpt_halts code ha hb, fun lid inst s hb => if_pos hb,
    fun h code s hg ha hne hb => bkpt_stops code hg ha hne hb, fun h x s hg ha hc => ⟨_, rfl, ?_⟩, fun h x s ha hc => ?_⟩
  · rw [issue_admits _ ha, guardFaults_pass _ _ _ _ _ fun t ht => counterFault_none (hc t ht)]
    exact each_dep (fun s u th => th.setD true h.d
      (if x.rsel = 0 then (s.counter x u).count.toNat else (s.counter x u).slice (x.rsel.toNat - 1)))
      (fun s u v f _ _ => by rw [counter_updThr]) s (hlen h) _ hg (active_nodup hg _) (active_sub s _)
  · refine congrArg Host.Outcome.next ((issue_admits _ ha).trans (guardFaults_pass _ _ _ _ _ fun t ht => ?_))
    obtain ⟨hctx, hz⟩ := hc t ht
    simp only [counterFault_none hctx]
    refine if_neg fun e => ?_
    obtain ⟨h0, hn⟩ := Bool.and_eq_true_iff.1 e
    exact absurd (hz (of_decide_eq_true h0)) (by simpa using hn)

/-- Settles O48. -/
theorem systemAndDebugFormsComplete : Obligations.SystemAndDebugFormsComplete := ⟨systemFormsComplete, debugFormsComplete⟩

end Sys2Proof.Proofs.System
end

section
/-! Proofs about graph nodes and publish entries (spec/17 R290 to R304). -/

namespace Sys2Proof.Proofs.Graph

open Sys2Proof.Machine Sys2Proof.Claims Sys2Proof.Proofs.Checks Sys2Proof.Proofs.Control Sys2Proof.Proofs.Effects
  Sys2Proof.Proofs.Ordering

/-! ## The forms -/

theorem allGo_go (es : List (State → State)) : allGo (es.map Plan.go) = true := by
  induction es with
  | nil => rfl
  | cons e es ih => exact ih

/-- A form that makes records, of which every plan is an effect. -/
theorem makeForm_go {s s' : State} {h : Hdr} {plan : TRef → State → Plan × State} {es : List (State → State)}
    (hp : PlansGo s (s.active h.pred) plan es s') : s.makeForm h (s.active h.pred) plan = goForm h id es s' := by
  unfold State.makeForm
  rw [hp]
  exact (if_pos (allGo_go es)).trans (planForm_go id hp)

theorem garmForm_open {s : State} {h : Hdr} {fires : Bool} {pre : List TRef → State → State}
    {chk : TRef → State → Except (Nat × Flt) State} (ha : s.Admits { a := .src } h) (hg : GraphOk s h chk)
    (ht : fires = true → s.TurnsOpen (s.active h.pred)) :
    s.garmForm h fires pre chk = graphEffect h (pre (s.active h.pred)) chk s := by
  refine congrArg State.settle ((issue_admits _ ha).trans ?_)
  simp only [show checkRun chk (s.active h.pred) s = [] from hg, firstRank, List.foldl_nil]
  refine atTurn_open _ ?_
  cases fires
  · exact fun t ht => nomatch ht
  · exact ht rfl

theorem garmForm_late {s : State} {h : Hdr} {pre : List TRef → State → State}
    {chk : TRef → State → Except (Nat × Flt) State} (ha : s.Admits { a := .src } h) (hg : GraphOk s h chk)
    (ht : ¬s.TurnsOpen (s.active h.pred)) : s.garmForm h true pre chk = (s.awaitTurn (s.active h.pred)).settle := by
  refine congrArg State.settle ((issue_admits _ ha).trans ?_)
  simp only [show checkRun chk (s.active h.pred) s = [] from hg, firstRank, List.foldl_nil]
  exact atTurn_late _ ht

theorem publishLoop_goes {h : Hdr} {r : State} (ts : List TRef) (s : State) (hp : PublishGoes h ts s r) :
    State.publishLoop h ts s = r := by
  induction ts generalizing s with
  | nil => exact hp.symm
  | cons t ts ih =>
    obtain ⟨s1, h1, hrest⟩ := hp
    unfold State.publishLoop
    simp only [h1, ih _ hrest]

theorem acquire_launches (s : State) (lid wg : Nat) (scope : Scp) : (s.acquire lid wg scope).launches = s.launches := by
  rw [acquire_eq]
  rfl

/-- What GTEST does to a thread outside deterministic scheduling mode. -/
def gtestOne (h : Hdr) (pd : BitVec 3) (s : State) (t : TRef) : State :=
  let done := (s.nodeDone t ((s.rd t 0 h.lit).r32 h.a)).isSome
  let s := if done then s.acquire t.lid t.wg .module else s
  (s.updThr t fun th => th.setP pd.toNat done).retire (hlen h) t

theorem gtestOne_launches (h : Hdr) (pd : BitVec 3) (s : State) (t : TRef) : (gtestOne h pd s t).launches = s.launches := by
  simp only [gtestOne, State.retire, State.updThr_launches]
  split
  · exact acquire_launches ..
  · rfl

theorem launchOf_of_launches {s t : State} (h : t.launches = s.launches) (u : TRef) : t.launchOf u = s.launchOf u := by
  rw [State.launchOf, State.launch, h]
  rfl

theorem gtest_fold {h : Hdr} {pd : BitVec 3} {w : State → TRef → State} (ts : List TRef) (s : State)
    (hd : ∀ t ∈ ts, (s.launchOf t).det ≠ 2) :
    ts.foldl (fun s t => if (s.launchOf t).det = 2 then w s t else gtestOne h pd s t) s = ts.foldl (gtestOne h pd) s := by
  induction ts generalizing s with
  | nil => rfl
  | cons t ts ih =>
    rw [List.foldl_cons, List.foldl_cons, if_neg (hd t (by simp))]
    refine ih _ fun u hu => ?_
    rw [launchOf_of_launches (gtestOne_launches h pd s t)]
    exact hd u (by simp [hu])

theorem retireAll_launches (s : State) (len : Nat) (l : List TRef) : (s.retireAll len l).launches = s.launches := by
  rw [retireAll_same len l s]

theorem gtest_reads {s : State} {h : Hdr} (pd : BitVec 3) (ha : s.Admits { a := .src } h)
    (hf : NoneFaults (s.active h.pred) (s.nodeFault h)) (hd : ∀ t ∈ s.active h.pred, (s.launchOf t).det ≠ 2) :
    exec (.gtest h pd) s = .next ((s.active h.pred).foldl (gtestOne h pd) (idled h s)) := by
  refine congrArg Host.Outcome.next ((issue_admits _ ha).trans ((guardFaults_pass _ _ _ _ _ hf).trans ?_))
  refine (orderedIf_pass _ _ fun e => ?_).trans (gtest_fold _ _ fun t ht => ?_)
  · obtain ⟨t, ht, e2⟩ := List.any_eq_true.1 e
    exact absurd (by simpa using e2) (hd t ht)
  · rw [launchOf_of_launches (retireAll_launches ..)]
    exact hd t ht

theorem shadowAddr_effect {s : State} {h : Hdr} (hg : s.GroupOk) (ha : s.Admits { d := .dstW, a := .src } h)
    (hf : NoneFaults (s.active h.pred) (s.entryFault h)) :
    ∃ t, exec (.shadowAddr h) s = .next t ∧ FormEffect s t (s.active h.pred) (hlen h) (fun u th =>
      match s.entryArg h u with
      | some (_, e) => th.setD true h.d (e.ver (!e.cur))
      | none => th) fun _ => 0 := by
  refine ⟨_, rfl, ?_⟩
  rw [issue_admits _ ha, guardFaults_pass _ _ _ _ _ hf]
  have he : ∀ (s : State) (t : TRef), (match s.entryArg h t with
        | some (_, e) => s.updThr t fun th => th.setD true h.d (e.ver (!e.cur))
        | none => s) = s.updThr t fun th => match s.entryArg h t with
          | some (_, e) => th.setD true h.d (e.ver (!e.cur))
          | none => th := fun s t => by
    cases s.entryArg h t with
    | some x => rfl
    | none => exact (congrArg (fun x => { s with threads := x }) (tupd_id s.threads t)).symm
  refine (congrArg (fun f => FormEffect s (s.each (hlen h) (s.active h.pred) f) _ _ _ _)
    (funext fun t => funext fun s => he s t)).mpr ?_
  refine each_dep (fun s u th => match s.entryArg h u with
      | some (_, e) => th.setD true h.d (e.ver (!e.cur))
      | none => th) (fun s u v f huv _ => ?_) s (hlen h) _ hg (active_nodup hg _) (active_sub s _)
  have : (s.updThr v f).entryArg h u = s.entryArg h u := by
    simp only [State.entryArg, State.rd, State.thr_updThr_ne s f huv]
    rfl
  rw [this]

theorem graphFormsComplete : Claims.GraphFormsComplete := by
  refine ⟨fun h s s' es ha hp => ?_, fun h s ha hg ht => ?_, fun h s ha hg ht => ?_, fun h s ha ht => ⟨fun hg => ?_, fun hg => ?_⟩,
    fun h s ha hg => ?_, fun h s ha hf hm => ?_, fun h pd s ha hf hd => gtest_reads pd ha hf hd, fun t s id n hr hw hn hd => ?_,
    fun h s s' es ha hp => ?_, fun h s hg ha hf => shadowAddr_effect hg ha hf, fun h s ha hg => ?_, fun h s r ha hf hm hp => ?_⟩
  · exact congrArg Host.Outcome.next ((issue_admits _ ha).trans (makeForm_go hp))
  · exact congrArg Host.Outcome.next (garmForm_open ha hg fun _ => ht)
  · exact congrArg Host.Outcome.next (garmForm_open ha hg fun _ => ht)
  · exact congrArg Host.Outcome.next (garmForm_late ha hg ht)
  · exact congrArg Host.Outcome.next (garmForm_late ha hg ht)
  · exact congrArg Host.Outcome.next (garmForm_open ha hg fun e => nomatch e)
  · refine congrArg Host.Outcome.next ((issue_admits _ ha).trans ((guardFaults_pass _ _ _ _ _ hf).trans (ordered_pass _ hm)))
  · refine congrArg Host.Outcome.next ?_
    simp only [hr, if_true, hw, hn, if_pos hd]
  · exact congrArg Host.Outcome.next ((issue_admits _ ha).trans (makeForm_go hp))
  · exact congrArg Host.Outcome.next (garmForm_open ha hg fun e => nomatch e)
  · refine congrArg (fun x : State => Host.Outcome.next x.settle)
      ((issue_admits _ ha).trans ((guardFaults_pass _ _ _ _ _ hf).trans ((ordered_pass _ hm).trans ?_)))
    exact publishLoop_goes _ _ hp

/-! ## The walker's steps -/

theorem node?_eraseSignal (s : State) (die k ctx : Nat) (id : Word) :
    ((s.updDie die fun d => { d with signals := d.signals.eraseIdx k }).die die).node? ctx id = (s.die die).node? ctx id := by
  by_cases h : die < 24
  · rw [State.die_updDie _ _ _ _ h, if_pos rfl]
    rfl
  · simp only [State.die, State.updDie, vget, dif_neg h]

theorem walkerStepsComplete : Claims.WalkerStepsComplete := by
  refine ⟨fun i s die k ctx id failing src n hp hs hb hsrc hn => ?_, fun die ctx idx s n st hb hn hf hw => ?_⟩
  · show execSignal i s = _
    have hblock : (s.ctxBlocked die ctx .walker || (src != 0 && ((s.die die).signals.take k).any fun x => x.2.2.2 == src)) = false := by
      rw [hb, Bool.false_or, Bool.and_eq_false_iff]
      refine hsrc.imp (fun e => by simp [e]) fun e => ?_
      exact List.any_eq_false.2 fun x hx => by simpa using e x hx
    unfold execSignal
    simp only [hp]
    unfold State.signalAt
    simp only [hs, hblock, Bool.false_eq_true, if_false, node?_eraseSignal, hn]
    rfl
  · show execNodeFinish die ctx idx s = _
    unfold execNodeFinish
    simp only [hb, hn, hf, hw]
    simp [hn, hf, hw]

/-- Settles O45. -/
theorem graphRuns : Obligations.GraphRuns := ⟨graphFormsComplete, walkerStepsComplete⟩

end Sys2Proof.Proofs.Graph
end

section
/-! Proofs about the firing of nodes (spec/17 R293, R294), and what an agent's reads and writes leave unchanged. -/

namespace Sys2Proof.Proofs.Firing

open Sys2Proof.Machine Sys2Proof.Claims Sys2Proof.Proofs.Checks Sys2Proof.Proofs.Control

/-! ## Agents -/

/-- Two states differ at most in what the reads, the writes and the synchronising operations of an agent change. -/
def OnlyAgent (s t : State) : Prop :=
  t = { s with stamp := t.stamp, order := t.order, nextSeq := t.nextSeq, mem := t.mem, keyTag := t.keyTag, freeCtr := t.freeCtr,
               sync := t.sync, agentAcq := t.agentAcq }

theorem OnlyAgent.refl (s : State) : OnlyAgent s s := rfl

theorem OnlyAgent.trans {s t u : State} (h : OnlyAgent s t) (k : OnlyAgent t u) : OnlyAgent s u :=
  Eq.trans k (congrArg (fun x : State =>
    { x with stamp := u.stamp, order := u.order, nextSeq := u.nextSeq, mem := u.mem, keyTag := u.keyTag, freeCtr := u.freeCtr
             sync := u.sync, agentAcq := u.agentAcq }) h)

theorem OnlyAgent.threads {s t : State} (h : OnlyAgent s t) : t.threads = s.threads := by rw [h]
theorem OnlyAgent.waves {s t : State} (h : OnlyAgent s t) : t.waves = s.waves := by rw [h]
theorem OnlyAgent.dies {s t : State} (h : OnlyAgent s t) : t.dies = s.dies := by rw [h]

theorem OnlyAgent.of_drawn {s t : State} (h : OnlyDrawn s t) : OnlyAgent s t := by rw [h]; rfl
theorem OnlyAgent.of_written {s t : State} (h : OnlyWritten s t) : OnlyAgent s t := by rw [h]; rfl

theorem acqBy_onlyAgent (s : State) (by_ : AgentAt) (scope : Scp) : OnlyAgent s (s.acqBy by_ scope).2 := rfl

theorem agentRead_onlyAgent {s x : State} {start ctx va n : Nat} {a : Acq} {b : List Byte}
    (h : s.agentRead start ctx a va n = .ok (b, x)) : OnlyAgent s x := by
  unfold State.agentRead at h
  split at h
  · cases h
  next ls _ =>
    have hr : (s.readPieces [] a none { stamp := s.stamp, seq := s.nextSeq, start := start } ctx (pieces ls)).2 = x :=
      congrArg Prod.snd (Except.ok.inj h)
    exact hr ▸ .of_drawn (readPieces_onlyDrawn ..)

theorem engEnter_onlyAgent (s : State) (by_ : AgentAt) (ctx : Nat) (bs : List (Nat × Byte)) :
    OnlyAgent s (s.engEnter by_ ctx bs).2 := rfl

theorem engRelease_onlyAgent (s : State) (by_ : AgentAt) (scope : Scp) (seqs : List Nat) :
    OnlyAgent s (s.engRelease by_ scope seqs) := rfl

/-- Pieces of a range enter one after another, with the bytes that are theirs. -/
def enterPiece (by_ : AgentAt) (ctx : Nat) (bytes : List Byte) (x : List Nat × Nat × State) (p : List Nat) :
    List Nat × Nat × State :=
  let e := x.2.2.engEnter by_ ctx (p.zip (bytes.drop x.2.1))
  (x.1 ++ [e.1], x.2.1 + p.length, e.2)

theorem enterPieces_onlyAgent (by_ : AgentAt) (ctx : Nat) (bytes : List Byte) (ps : List (List Nat))
    (x : List Nat × Nat × State) : OnlyAgent x.2.2 (ps.foldl (enterPiece by_ ctx bytes) x).2.2 := by
  induction ps generalizing x with
  | nil => exact .refl _
  | cons p ps ih => exact (engEnter_onlyAgent ..).trans (ih (enterPiece by_ ctx bytes x p))

theorem agentWrite_onlyAgent {s x : State} {by_ : AgentAt} {scope : Scp} {ctx va : Nat} {bytes : List Byte}
    (h : s.agentWrite by_ scope ctx va bytes = .ok x) : OnlyAgent s x := by
  unfold State.agentWrite at h
  split at h
  · cases h
  next ls _ =>
    exact Except.ok.inj h ▸ (enterPieces_onlyAgent by_ ctx bytes (pieces ls) ([], 0, s)).trans (engRelease_onlyAgent ..)

/-! ## The record of a node -/

/-- A node's record as it stands in a state whose threads are those of another. -/
def NodeNow (s x : State) (die ctx idx : Nat) (m : Node) : Prop :=
  tget (x.die die).nodes (ctx, idx) = some m ∧ x.threads = s.threads

section

variable {s x y : State} {die ctx idx : Nat} {m : Node}

theorem NodeNow.agent (h : NodeNow s x die ctx idx m) (ha : OnlyAgent x y) : NodeNow s y die ctx idx m :=
  ⟨by rw [State.die, ha.dies]; exact h.1, ha.threads.trans h.2⟩

theorem NodeNow.updDie (h : NodeNow s x die ctx idx m) (hd : die < 24) {f : Die → Die} (hf : ∀ d, (f d).nodes = d.nodes) :
    NodeNow s (x.updDie die f) die ctx idx m :=
  ⟨by rw [State.die_updDie _ _ _ _ hd, if_pos rfl, hf]; exact h.1, h.2⟩

theorem NodeNow.updNode (h : NodeNow s x die ctx idx m) (hd : die < 24) (f : Node → Node) :
    NodeNow s (x.updNode die ctx idx f) die ctx idx (f m) := by
  refine ⟨?_, h.2⟩
  rw [State.updNode, State.die_updDie _ _ _ _ hd, if_pos rfl]
  simp [h.1]

/-- A firing node's record: FIRED, with OVR where the count is below zero; its descriptor and generation stay. -/
def FiredFrom (n m : Node) : Prop := m.st = .fired ∧ m.ovr = decide (n.count < 0) ∧ m.desc = n.desc ∧ m.gen = n.gen

theorem issueNode_fired {n : Node} (h : NodeNow s x die ctx idx m) (hd : die < 24) (hm : FiredFrom n m) :
    ∃ m', NodeNow s (x.issueNode die ctx idx n) die ctx idx m' ∧ FiredFrom n m' := by
  unfold State.issueNode
  dsimp only
  split
  · exact ⟨_, (h.agent (acqBy_onlyAgent ..)).updNode hd _, hm⟩
  next b y hr =>
    have hy : NodeNow s y.tick die ctx idx m :=
      (h.agent (acqBy_onlyAgent ..)).agent ((agentRead_onlyAgent hr).trans rfl)
    refine ⟨m, hy.updDie hd fun d => ?_, hm⟩
    by_cases hk : descKind n.desc = 1
    · simp only [if_pos hk]
    · simp only [if_neg hk]

theorem hostNode_fired {n : Node} (status : Nat) (h : NodeNow s x die ctx idx m) (hd : die < 24) (hm : FiredFrom n m) :
    ∃ m', NodeNow s (x.hostNode die ctx idx n status) die ctx idx m' ∧ FiredFrom n m' := by
  unfold State.hostNode
  dsimp only
  split
  · exact ⟨_, (h.agent (acqBy_onlyAgent ..)).updNode hd _, hm⟩
  next y hw =>
    have hy : NodeNow s y die ctx idx m := (h.agent (acqBy_onlyAgent ..)).agent (agentWrite_onlyAgent hw)
    split
    · have hz : NodeNow s { y with irqs := y.irqs ++ [(descPay n.desc 4).toNat % 2 ^ 11] } die ctx idx m := hy
      exact ⟨_, hz.updNode hd _, hm⟩
    · exact ⟨_, hy.updNode hd _, hm⟩

theorem beginPublish_fired {n : Node} (h : NodeNow s x die ctx idx m) (hd : die < 24) (hm : FiredFrom n m) :
    ∃ m', NodeNow s (x.beginPublish die ctx idx n) die ctx idx m' ∧ FiredFrom n m' := by
  unfold State.beginPublish
  split
  · exact ⟨m, h, hm⟩
  · split
    · exact ⟨m, h, hm⟩
    · refine ⟨_, (h.updDie hd fun d => ?_).updNode hd _, hm⟩
      rfl

end

/-- The record of a node that fires. -/
def firing (n : Node) : Node := { n with st := .fired, ovr := n.count < 0, fail := false, workDone := none }

theorem firedFrom_firing (n : Node) : FiredFrom n (firing n) := ⟨rfl, rfl, rfl, rfl⟩

theorem tryFire_fires {s : State} {die ctx idx : Nat} {n : Node} (hd : die < 24) (hn : tget (s.die die).nodes (ctx, idx) = some n)
    (ha : n.st = .armed) (hc : n.count ≤ 0) (hk : descKind n.desc ≠ 2) :
    ∃ m, NodeNow s (s.tryFire die ctx idx) die ctx idx m ∧ FiredFrom n m ∧
      (descKind n.desc = 0 → m.workDone = some (if n.fail then 9 else 0)) := by
  have h1 : NodeNow s (s.updNode die ctx idx firing) die ctx idx (firing n) := NodeNow.updNode ⟨hn, rfl⟩ hd firing
  unfold State.tryFire
  simp only [hn, ha, ne_eq, not_true_eq_false, decide_false, Bool.false_or, decide_eq_true_eq, if_neg (not_lt.2 hc)]
  by_cases h5 : descKind n.desc = 5
  · rw [if_pos h5]
    obtain ⟨m, hm, hf⟩ := hostNode_fired (if n.fail then 9 else 0) h1 hd (firedFrom_firing n)
    exact ⟨m, hm, hf, fun e => absurd (h5.symm.trans e) (by decide)⟩
  rw [if_neg h5]
  by_cases hfl : n.fail = true
  · rw [if_pos hfl]
    exact ⟨_, h1.updNode hd _, firedFrom_firing n, fun _ => by rw [if_pos hfl]⟩
  rw [if_neg hfl]
  obtain ⟨i, hi, hif⟩ := issueNode_fired h1 hd (firedFrom_firing n)
  split
  · exact ⟨_, h1.updNode hd _, firedFrom_firing n, fun _ => by rw [if_neg hfl]⟩
  next e => exact ⟨i, hi, hif, fun e0 => absurd (e.symm.trans e0) (by decide)⟩
  next e => exact ⟨i, hi, hif, fun e0 => absurd (e.symm.trans e0) (by decide)⟩
  next e => exact absurd e hk
  next h0 _ _ _ =>
    obtain ⟨m, hm, hf⟩ := beginPublish_fired h1 hd (firedFrom_firing n)
    exact ⟨m, hm, hf, fun e0 => absurd e0 h0⟩

/-- Settles O12. -/
theorem nodesFireWhenTheirCountIsSpent : Obligations.NodesFireWhenTheirCountIsSpent := by
  unfold Obligations.NodesFireWhenTheirCountIsSpent
  intro s die ctx idx n hd hn
  refine ⟨fun h => ?_, fun ha hc hk => ?_⟩
  · unfold State.tryFire
    simp only [hn]
    exact if_pos (by simpa using h)
  · obtain ⟨m, ⟨hm, ht⟩, ⟨hst, hovr, hdesc, hgen⟩, hw⟩ := tryFire_fires hd hn ha hc hk
    exact ⟨m, hm, hst, hovr, hdesc, hgen, hw, ht⟩

end Sys2Proof.Proofs.Firing
end

section
/-! Proofs about the residuals of bricks (spec/11 R192, R194). -/

namespace Sys2Proof.Proofs.Bricks

open Sys2Proof.Machine

theorem getElem?_lupd {α : Type} (l : List α) (i j : Nat) (f : α → α) :
    (lupd l i f)[j]? = if j = i then l[j]?.map f else l[j]? := by
  rw [lupd, List.getElem?_mapIdx]
  by_cases h : j = i
  · simp [h]
  · simp [h]

/-- Two ids of bricks that lie at one place are one. -/
theorem brickId_ext {k id : Nat} (hk : k / 2 ^ 28 = 0) (hid : id / 2 ^ 28 = 0) (hd : brickDie k = brickDie id)
    (hi : brickIdx k = brickIdx id) : k = id := by
  simp only [brickDie, brickIdx] at hd hi
  omega

theorem brick?_of_names {p : Prog} {id : Nat} (h : id / 2 ^ 28 = 0) :
    p.brick? id = (p.dies[brickDie id]?).bind fun d => d.bricks[brickIdx id]? := if_neg (not_not.2 h)

theorem names_of_brick? {p : Prog} {id : Nat} {b : Brick} (h : p.brick? id = some b) : id / 2 ^ 28 = 0 := by
  by_contra e
  rw [Prog.brick?, if_pos e] at h
  cases h

/-- A change of one brick's record changes no other. -/
theorem brick?_updBrick (p : Prog) {id : Nat} (f : Brick → Brick) (hid : id / 2 ^ 28 = 0) (k : Nat) :
    (p.updBrick id f).brick? k = if k = id then (p.brick? k).map f else p.brick? k := by
  by_cases hk : k / 2 ^ 28 = 0
  · rw [brick?_of_names hk, brick?_of_names hk, Prog.updBrick, getElem?_lupd]
    cases hd : p.dies[brickDie k]? with
    | none => simp
    | some d =>
      by_cases he : brickDie k = brickDie id
      · simp only [if_pos he, Option.map_some, Option.bind_some, getElem?_lupd]
        by_cases hi : brickIdx k = brickIdx id
        · rw [if_pos hi, if_pos (brickId_ext hk hid he hi)]
        · rw [if_neg hi, if_neg fun e : k = id => hi (e ▸ rfl)]
      · rw [if_neg he, if_neg fun e : k = id => he (e ▸ rfl)]
  · rw [if_neg fun e : k = id => hk (e ▸ hid), Prog.brick?, if_pos hk, Prog.brick?, if_pos hk]

theorem tau_updBrick (p : Prog) (id : Nat) (f : Brick → Brick) : (p.updBrick id f).tau = p.tau := rfl

/-- A change of a die's counters changes no brick. -/
theorem brick?_of_dies {p q : Prog} {i : Nat} (f : ProgDie → ProgDie) (hq : q.dies = lupd p.dies i f)
    (hf : ∀ d, (f d).bricks = d.bricks) (k : Nat) : q.brick? k = p.brick? k := by
  simp only [Prog.brick?, hq, getElem?_lupd]
  cases p.dies[brickDie k]? with
  | none => simp
  | some d =>
    by_cases he : brickDie k = i
    · simp [he, hf]
    · simp [he]

theorem brick?_makeEligible (p : Prog) {id : Nat} (hid : id / 2 ^ 28 = 0) (k : Nat) :
    (p.makeEligible id).brick? k =
      if k = id then (p.brick? k).map fun b => { b with st := 1, stamp := p.nextStamp id } else p.brick? k := by
  rw [Prog.makeEligible, brick?_updBrick _ _ hid, brick?_of_dies (p := p) (fun d => { d with stamp := p.nextStamp id }) rfl fun _ => rfl]

section

variable {p : Prog} {id : Nat} {b : Brick} (m : Word) (h : p.brick? id = some b)
include h

theorem brick?_contribute (k : Nat) : (p.contribute id m).brick? k = if k = id then
    some (if b.st = 0 ∧ p.tau.toNat < (p.combine b.res m).toNat then
        { b with res := p.combine b.res m, st := 1, stamp := (p.updBrick id fun b' => { b' with res := p.combine b.res m }).nextStamp id }
      else { b with res := p.combine b.res m }) else p.brick? k := by
  have hid := names_of_brick? h
  simp only [Prog.contribute, h]
  rw [tau_updBrick]
  by_cases he : b.st = 0 ∧ p.tau.toNat < (p.combine b.res m).toNat
  · rw [if_pos he, if_pos he, brick?_makeEligible _ hid, brick?_updBrick _ _ hid]
    by_cases hk : k = id
    · simp [hk, h]
    · simp [hk]
  · rw [if_neg he, if_neg he, brick?_updBrick _ _ hid]
    by_cases hk : k = id
    · simp [hk, h]
    · simp [hk]

/-- The program with the closed brick at rest. -/
def closedAt (p : Prog) (id : Nat) (r : Word) : Prog :=
  { p.updBrick id fun b => { b with res := r, lastRes := r, st := 0 } with updates := p.updates + 1 }

theorem brick?_closedAt (r : Word) (k : Nat) : (closedAt p id r).brick? k =
    if k = id then some { b with res := r, lastRes := r, st := 0 } else p.brick? k := by
  have hid := names_of_brick? h
  show (p.updBrick id _).brick? k = _
  rw [brick?_updBrick _ _ hid]
  by_cases hk : k = id
  · simp [hk, h]
  · simp [hk]

theorem close_eq : p.close id m = if p.tau.toNat < (p.combine b.res m).toNat then
    (closedAt p id (p.combine b.res m)).makeEligible id else closedAt p id (p.combine b.res m) := by
  simp only [Prog.close, h]
  rfl

theorem brick?_close (k : Nat) : (p.close id m).brick? k = if k = id then
    some (if p.tau.toNat < (p.combine b.res m).toNat then
        { b with res := p.combine b.res m, lastRes := p.combine b.res m, st := 1
                 stamp := (closedAt p id (p.combine b.res m)).nextStamp id }
      else { b with res := p.combine b.res m, lastRes := p.combine b.res m, st := 0 }) else p.brick? k := by
  have hid := names_of_brick? h
  rw [close_eq m h]
  by_cases he : p.tau.toNat < (p.combine b.res m).toNat
  · rw [if_pos he, if_pos he, brick?_makeEligible _ hid, brick?_closedAt h]
    by_cases hk : k = id
    · simp [hk]
    · simp [hk]
  · rw [if_neg he, if_neg he, brick?_closedAt h]

theorem updates_close : (p.close id m).updates = p.updates + 1 := by
  rw [close_eq m h]
  split
  · rfl
  · rfl

theorem brick?_pop (k : Nat) : (p.pop id).brick? k =
    if k = id then some { b with dRes := b.res, res := 0, st := 2 } else p.brick? k := by
  have hid := names_of_brick? h
  rw [Prog.pop, brick?_of_dies (p := p.updBrick id fun b => { b with dRes := b.res, res := 0, st := 2 })
    (fun d => { d with pops := d.pops + 1 }) rfl fun _ => rfl, brick?_updBrick _ _ hid]
  by_cases hk : k = id
  · simp [hk, h]
  · simp [hk]

end

/-- Settles O21. -/
theorem bricksKeepTheirResiduals : Obligations.BricksKeepTheirResiduals := by
  unfold Obligations.BricksKeepTheirResiduals
  intro p id b m h
  refine ⟨⟨_, (brick?_contribute m h id).trans (if_pos rfl), ?_⟩, ⟨_, (brick?_close m h id).trans (if_pos rfl), ?_⟩,
    updates_close m h, ⟨_, (brick?_pop h id).trans (if_pos rfl), rfl, rfl, rfl⟩,
    fun k hk => ⟨(brick?_contribute m h k).trans (if_neg hk), (brick?_close m h k).trans (if_neg hk),
      (brick?_pop h k).trans (if_neg hk)⟩⟩
  · by_cases he : b.st = 0 ∧ p.tau.toNat < (p.combine b.res m).toNat
    · rw [if_pos he, if_pos he]
      exact ⟨rfl, rfl, rfl⟩
    · rw [if_neg he, if_neg he]
      exact ⟨rfl, rfl, rfl⟩
  · by_cases he : p.tau.toNat < (p.combine b.res m).toNat
    · rw [if_pos he, if_pos he]
      exact ⟨rfl, rfl, rfl⟩
    · rw [if_neg he, if_neg he]
      exact ⟨rfl, rfl, rfl⟩

end Sys2Proof.Proofs.Bricks
end

section
/-! Proofs about scratch: its places (spec/13 R209), its loads, stores and copies (spec/14 R230 to R232). -/

namespace Sys2Proof.Proofs.Scratch

open Sys2Proof.Machine Sys2Proof.Claims Sys2Proof.Proofs.Checks Sys2Proof.Proofs.Control Sys2Proof.Proofs.Effects

/-! ## Places -/

/-- The bytes that a place holds. -/
def placeCells (s : State) : Place → Scratch
  | .core lid wg => (s.wg lid wg).core
  | .slot lid wg k => ((tget (s.wg lid wg).slots k).getD {}).bytes
  | .buf die id => ((tget (s.die die).bufs id).getD {}).bytes

/-- What an offset of a place reads as that nothing was stored at (R210). -/
def placeLoose (s : State) (p : Place) (a : Nat) : Byte :=
  match p with
  | .core lid wg | .slot lid wg _ =>
    (0 :: s.leftOf lid wg).getD (Config.pick2 s.freeCtr a % ((s.leftOf lid wg).length + 1)) 0
  | .buf _ _ => Config.looseByte s.freeCtr a

theorem scByte_eq (b : Scratch) (left : List Byte) (free off : Nat) :
    scByte b left free off = (cellGet b off).getD ((0 :: left).getD (Config.pick2 free off % (left.length + 1)) 0) := by
  unfold scByte
  cases cellGet b off with
  | none => rfl
  | some x => rfl

theorem scRead_eq (s : State) (p : Place) (off n : Nat) : s.scRead p off n =
    (List.range n).map fun i => (cellGet (placeCells s p) (off + i)).getD (placeLoose s p (off + i)) := by
  cases p with
  | core lid wg => simp only [State.scRead, scByte_eq, placeCells, placeLoose]
  | slot lid wg k => simp only [State.scRead, scByte_eq, placeCells, placeLoose]
  | buf die id => rfl

theorem length_scRead (s : State) (p : Place) (off n : Nat) : (s.scRead p off n).length = n := by
  rw [scRead_eq, List.length_map, List.length_range]

theorem cellGet_scPut (bs : List Byte) (b : Scratch) (off a : Nat) :
    cellGet (scPut b off bs) a = if off ≤ a ∧ a < off + bs.length then bs[a - off]? else cellGet b a := by
  induction bs generalizing b off with
  | nil => rw [if_neg (by simp only [List.length_nil]; omega)]; rfl
  | cons x xs ih =>
    rw [scPut, ih, cellGet_cellPut]
    by_cases h : a = off
    · subst h
      simp
    · by_cases hin : off + 1 ≤ a ∧ a < off + 1 + xs.length
      · rw [if_pos hin, if_pos (by simp only [List.length_cons]; omega), show a - off = a - (off + 1) + 1 by omega]
        rfl
      · rw [if_neg hin, if_neg h, if_neg (by simp only [List.length_cons]; omega)]

theorem tget_vupd_buf (s : State) (die id e i : Nat) (f : Buffer → Buffer) (hd : die < 24) :
    tget ((s.updDie die fun d => { d with bufs := tupd d.bufs id f }).die e).bufs i =
      if e = die ∧ i = id then (tget (s.die die).bufs id).map f else tget (s.die e).bufs i := by
  rw [State.die_updDie _ _ _ _ hd]
  by_cases he : e = die
  · subst he
    rw [if_pos rfl]
    by_cases hi : i = id
    · subst hi
      rw [if_pos ⟨rfl, rfl⟩]
      exact tget_tupd_self _ _ _
    · rw [if_neg fun h => hi h.2]
      exact tget_tupd_ne _ _ hi
  · rw [if_neg he, if_neg fun h => he h.1]

/-- A write changes the cells of its place. -/
theorem placeCells_scWrite_same {s : State} {p : Place} (off : Nat) (bs : List Byte) (h : PlaceLive s p) :
    placeCells (s.scWrite p off bs) p = scPut (placeCells s p) off bs := by
  cases p with
  | core lid wg => simp only [placeCells, State.scWrite, State.wg_updWg _ _ _ _ _ _ h, and_self, if_true]
  | slot lid wg k =>
    obtain ⟨hk, x, hx, hd⟩ := h
    simp [placeCells, State.scWrite, State.wg_updWg _ _ _ _ _ _ hk, hx, hd]
  | buf die id =>
    obtain ⟨hd, hk⟩ := h
    obtain ⟨b, hb⟩ := tget_mem hk
    simp [placeCells, State.scWrite, tget_vupd_buf _ _ _ _ _ _ hd, hb]

/-- It changes the cells of no other place. -/
theorem placeCells_scWrite_ne {s : State} {p q : Place} (off : Nat) (bs : List Byte) (h : PlaceLive s p) (hne : q ≠ p) :
    placeCells (s.scWrite p off bs) q = placeCells s q := by
  cases p with
  | core lid wg =>
    cases q with
    | core l g =>
      simp only [placeCells, State.scWrite, State.wg_updWg _ _ _ _ _ _ h]
      rw [if_neg fun e => hne (by rw [e.1, e.2])]
    | slot l g k =>
      simp only [placeCells, State.scWrite, State.wg_updWg _ _ _ _ _ _ h]
      by_cases e : l = lid ∧ g = wg
      · rw [if_pos e, e.1, e.2]
      · rw [if_neg e]
    | buf die id => rfl
  | slot lid wg k =>
    obtain ⟨hk, -⟩ := h
    cases q with
    | core l g =>
      simp only [placeCells, State.scWrite, State.wg_updWg _ _ _ _ _ _ hk]
      by_cases e : l = lid ∧ g = wg
      · rw [if_pos e, e.1, e.2]
      · rw [if_neg e]
    | slot l g j =>
      simp only [placeCells, State.scWrite, State.wg_updWg _ _ _ _ _ _ hk]
      by_cases e : l = lid ∧ g = wg
      · rw [if_pos e, e.1, e.2, tget_tupd_ne]
        exact fun e2 => hne (by rw [e.1, e.2, e2])
      · rw [if_neg e]
    | buf die id => rfl
  | buf die id =>
    cases q with
    | core l g => rfl
    | slot l g k => rfl
    | buf e i =>
      simp only [placeCells, State.scWrite, tget_vupd_buf _ _ _ _ _ _ h.1]
      rw [if_neg fun e => hne (by rw [e.1, e.2])]

theorem leftOf_scWrite (s : State) (p : Place) (off : Nat) (bs : List Byte) (l g : Nat) (h : PlaceLive s p) :
    (s.scWrite p off bs).leftOf l g = s.leftOf l g := by
  cases p with
  | core lid wg =>
    simp only [State.leftOf, State.scWrite, State.wg_updWg _ _ _ _ _ _ h]
    by_cases e : l = lid ∧ g = wg
    · rw [if_pos e, e.1, e.2]
    · rw [if_neg e]
  | slot lid wg k =>
    simp only [State.leftOf, State.scWrite, State.wg_updWg _ _ _ _ _ _ h.1]
    by_cases e : l = lid ∧ g = wg
    · rw [if_pos e, e.1, e.2]
    · rw [if_neg e]
  | buf die id => rfl

theorem freeCtr_scWrite (s : State) (p : Place) (off : Nat) (bs : List Byte) : (s.scWrite p off bs).freeCtr = s.freeCtr := by
  cases p with
  | core lid wg => rfl
  | slot lid wg k => rfl
  | buf die id => rfl

theorem placeLoose_scWrite {s : State} {p : Place} (off : Nat) (bs : List Byte) (h : PlaceLive s p) (q : Place) (a : Nat) :
    placeLoose (s.scWrite p off bs) q a = placeLoose s q a := by
  cases q with
  | core l g => simp only [placeLoose, leftOf_scWrite _ _ _ _ _ _ h, freeCtr_scWrite]
  | slot l g k => simp only [placeLoose, leftOf_scWrite _ _ _ _ _ _ h, freeCtr_scWrite]
  | buf die id => simp only [placeLoose, freeCtr_scWrite]

theorem scWrite_sameThreads (s : State) (p : Place) (off : Nat) (bs : List Byte) : SameThreads s (s.scWrite p off bs) := by
  cases p with
  | core lid wg => exact ⟨rfl, rfl⟩
  | slot lid wg k => exact ⟨rfl, rfl⟩
  | buf die id => exact ⟨rfl, rfl⟩

theorem mem_scWrite (s : State) (p : Place) (off : Nat) (bs : List Byte) : (s.scWrite p off bs).mem = s.mem := by
  cases p with
  | core lid wg => rfl
  | slot lid wg k => rfl
  | buf die id => rfl

/-- Settles O11. -/
theorem scratchReadsBackWhatWasStored : Obligations.ScratchReadsBackWhatWasStored := by
  unfold Obligations.ScratchReadsBackWhatWasStored
  intro s p q off n o bs h
  obtain ⟨hthreads, hwaves⟩ := scWrite_sameThreads s p off bs
  refine ⟨?_, fun m hm => ?_, fun hne => ?_, mem_scWrite .., hthreads, hwaves⟩
  · refine List.ext_getElem (length_scRead ..) fun i hi hi' => ?_
    simp only [scRead_eq, List.getElem_map, List.getElem_range, placeCells_scWrite_same off bs h, cellGet_scPut]
    rw [if_pos (by omega), show off + i - off = i by omega, List.getElem?_eq_getElem hi']
    rfl
  · rw [scRead_eq, scRead_eq]
    refine List.map_congr_left fun i hi => ?_
    have hlt := List.mem_range.1 hi
    rw [placeCells_scWrite_same off bs h, cellGet_scPut, if_neg (by omega), placeLoose_scWrite off bs h]
  · rw [scRead_eq, scRead_eq]
    refine List.map_congr_left fun i _ => ?_
    rw [placeCells_scWrite_ne off bs h hne, placeLoose_scWrite off bs h]

/-! ## Loads and stores -/

theorem spdForm_pass {s : State} {h : Hdr} {n : Need} {off : BitVec 24} {lv : Lvl} {write : Bool} {at_ : TRef → Place × Nat}
    (eff : TRef → Place × Nat → State → State) (ha : s.Admits n h) (hok : ScratchOk s h off lv write (s.active h.pred) at_) :
    s.spdForm h n off lv write eff = s.each (hlen h) (s.active h.pred) fun t s => eff t (at_ t) s := by
  have hacc : ∀ t ∈ s.active h.pred, s.scAcc h off lv write t = .ok (at_ t) := fun t ht => (hok t ht).1
  have hidle : ∀ t ∈ s.active h.pred, (match s.scAcc h off lv write t with
      | .ok x => s.scBusy t write x.1 x.2 (tyBytes h.ty)
      | .error _ => false) = false := fun t ht => by
    rw [hacc t ht]
    exact (hok t ht).2
  have hnone : ¬ ((s.active h.pred).any fun t => match s.scAcc h off lv write t with
      | .ok x => s.scBusy t write x.1 x.2 (tyBytes h.ty)
      | .error _ => false) = true := fun e => by
    obtain ⟨t, ht, e2⟩ := List.any_eq_true.1 e
    rw [hidle t ht] at e2
    cases e2
  refine (issue_admits _ ha).trans ((guardFaults_pass _ _ _ _ _ fun t ht => ?_).trans ((if_neg hnone).trans ?_))
  · rw [hacc t ht]
  · refine congrArg (fun x : State => x.retireAll (hlen h) s.cur.threads) ?_
    refine List.foldl_ext _ _ _ fun x t ht => ?_
    simp only [hacc t ht]

/-- The outstanding load of a thread, with its bytes. -/
def scratchLoad (s : State) (h : Hdr) (bytes : TRef → List Byte) (u : TRef) : PendLoad :=
  { thread := u, dst := Operand.vnum h.d, ty := h.ty, level := (s.thr u).level, bytes := some (bytes u) }

/-- One thread's load. -/
def loadOne (h : Hdr) (at_ : TRef → Place × Nat) (s : State) (t : TRef) : State :=
  { s.draw with loads := s.loads ++ [scratchLoad s h (fun t => s.scRead (at_ t).1 (at_ t).2 (tyBytes h.ty)) t] }

theorem scRead_freeCtr (s : State) (k : Nat) (l : List PendLoad) (p : Place) (off n : Nat) :
    ({ s with freeCtr := k, loads := l } : State).scRead p off n = ({ s with freeCtr := k } : State).scRead p off n := by
  cases p with
  | core lid wg => rfl
  | slot lid wg k => rfl
  | buf die id => rfl

/-- Loads read one after another; each draws a free value. -/
theorem loads_fold (h : Hdr) (at_ : TRef → Place × Nat) (s : State) (act : List TRef) (hn : act.Nodup) (k : Nat) (l : List PendLoad) :
    ∃ k' bytes, act.foldl (loadOne h at_) { s with freeCtr := k, loads := l } =
        { s with freeCtr := k', loads := l ++ act.map (scratchLoad s h bytes) } ∧
      ∀ u ∈ act, ∃ j, bytes u = ({ s with freeCtr := j } : State).scRead (at_ u).1 (at_ u).2 (tyBytes h.ty) := by
  induction act generalizing k l with
  | nil => exact ⟨k, fun _ => [], by simp, fun u hu => absurd hu List.not_mem_nil⟩
  | cons t ts ih =>
    obtain ⟨hnt, hnts⟩ := List.nodup_cons.1 hn
    let b := ({ s with freeCtr := k } : State).scRead (at_ t).1 (at_ t).2 (tyBytes h.ty)
    obtain ⟨k', bytes, hfold, hb⟩ := ih hnts (k + 1) (l ++ [scratchLoad s h (fun _ => b) t])
    refine ⟨k', fun u => if u = t then b else bytes u, ?_, fun u hu => ?_⟩
    · have h1 : loadOne h at_ { s with freeCtr := k, loads := l } t =
          { s with freeCtr := k + 1, loads := l ++ [scratchLoad s h (fun _ => b) t] } := by
        simp only [loadOne, scratchLoad, scRead_freeCtr]
        rfl
      have hmap : ts.map (scratchLoad s h fun u => if u = t then b else bytes u) = ts.map (scratchLoad s h bytes) :=
        List.map_congr_left fun u hu => by
          simp only [scratchLoad, if_neg fun e : u = t => hnt (e ▸ hu)]
      rw [List.foldl_cons, h1, hfold, List.map_cons, hmap, List.append_assoc]
      simp [scratchLoad]
    · by_cases e : u = t
      · subst e
        exact ⟨k, if_pos rfl⟩
      · obtain ⟨j, hj⟩ := hb u ((List.mem_cons.1 hu).resolve_left e)
        exact ⟨j, (if_neg e).trans hj⟩

theorem exec_of_scLoads {i : Instr} {h : Hdr} {off : BitVec 24} {lv : Lvl} (hi : scLoads i = some (h, off, lv)) (s : State) :
    exec i s = .next (s.spdLoad h off lv) := by
  unfold scLoads at hi
  split at hi
  case h_4 => cases hi
  all_goals
    cases hi
    rfl

theorem exec_of_scStores {i : Instr} {h : Hdr} {off : BitVec 24} {lv : Lvl} (hi : scStores i = some (h, off, lv)) (s : State) :
    exec i s = .next (s.spdStore h off lv) := by
  unfold scStores at hi
  split at hi
  case h_4 => cases hi
  all_goals
    cases hi
    rfl

theorem foldl_congr_of {α : Type} {f g : State → α → State} (P : State → Prop) (hP : ∀ s a, P s → P (g s a)) (l : List α)
    (hfg : ∀ s a, P s → f s a = g s a) (s : State) (hs : P s) : l.foldl f s = l.foldl g s := by
  induction l generalizing s with
  | nil => rfl
  | cons a l ih => rw [List.foldl_cons, List.foldl_cons, hfg s a hs, ih _ (hP s a hs)]

theorem rd_of_sameThreads {s x : State} (h : SameThreads s x) (t : TRef) (imm : Word) (lit : Option DWord) :
    x.rd t imm lit = s.rd t imm lit := by
  simp only [State.rd, h.thr, h.wave]

theorem scratchLoadsAndStores : Claims.ScratchLoadsAndStores := by
  refine ⟨fun i h off lv hi s at_ hg ha hok => ?_, fun i h off lv hi s at_ hg ha hok => ?_⟩
  · obtain ⟨k, bytes, hfold, hb⟩ := loads_fold h at_ s (s.active h.pred) (active_nodup hg _) s.freeCtr s.loads
    set m : State := { s with freeCtr := k, loads := s.loads ++ (s.active h.pred).map (scratchLoad s h bytes) } with hm
    have hspd : s.spdLoad h off lv = m.retireAll (hlen h) s.cur.threads :=
      (spdForm_pass _ ha hok).trans (congrArg (fun x : State => x.retireAll (hlen h) s.cur.threads) hfold)
    have hsame := retireAll_same (hlen h) s.cur.threads m
    refine ⟨m.retireAll (hlen h) s.cur.threads, bytes, (exec_of_scLoads hi s).trans (congrArg _ hspd), ?_, fun u hu => ?_, ?_, ?_, ?_,
      ?_, fun u => ?_⟩
    · rw [hsame]
      rfl
    · obtain ⟨j, hj⟩ := hb u hu
      exact ⟨hj ▸ length_scRead .., j, hj⟩
    · rw [hsame]
    · rw [hsame]
    · rw [hsame]
    · rw [hsame]
    · exact thr_retireAll (hlen h) s.cur.threads m hg.1 (fun t ht => (hg.2 t ht).1) u
  · refine (exec_of_scStores hi s).trans (congrArg _ ((spdForm_pass _ ha hok).trans ?_))
    refine congrArg (fun x : State => x.retireAll (hlen h) s.cur.threads) ?_
    refine foldl_congr_of (SameThreads s) (fun x t hx => hx.trans (scWrite_sameThreads ..)) _ (fun x t hx => ?_) s (.refl s)
    simp only [rd_of_sameThreads hx]

/-! ## Copies -/

theorem moves_fold (mv : TRef → Move) (act : List TRef) (s : State) (l : List Move) :
    act.foldl (fun s t => { s with moves := s.moves ++ [mv t] }) { s with moves := l } = { s with moves := l ++ act.map mv } := by
  induction act generalizing l with
  | nil => simp
  | cons t ts ih =>
    rw [List.foldl_cons]
    refine (ih (l ++ [mv t])).trans ?_
    rw [List.map_cons, List.append_assoc]
    rfl

theorem tmov_starts {s : State} {h : Hdr} {x : TmovX} {mv : TRef → Move} (ha : s.Admits { a := .addr, b := .addr, c := .src } h)
    (hok : ∀ t ∈ s.active h.pred, s.tmovOf h x t = .ok (mv t) ∧ s.moveBusy (mv t) = false) :
    exec (.tmov h x) s = .next (({ s with moves := s.moves ++ (s.active h.pred).map mv } : State).retireAll (hlen h) s.cur.threads) := by
  have hidle : ∀ t ∈ s.active h.pred, (match s.tmovOf h x t with
      | .ok m => s.moveBusy m
      | .error _ => false) = false := fun t ht => by
    rw [(hok t ht).1]
    exact (hok t ht).2
  have hnone : ¬ ((s.active h.pred).any fun t => match s.tmovOf h x t with
      | .ok m => s.moveBusy m
      | .error _ => false) = true := fun e => by
    obtain ⟨t, ht, e2⟩ := List.any_eq_true.1 e
    rw [hidle t ht] at e2
    cases e2
  refine congrArg Host.Outcome.next ((issue_admits _ ha).trans ((guardFaults_pass _ _ _ _ _ fun t ht => ?_).trans
    ((if_neg hnone).trans ?_)))
  · rw [(hok t ht).1]
  · refine congrArg (fun x : State => x.retireAll (hlen h) s.cur.threads) ((List.foldl_ext _ _ _ fun y t ht => ?_).trans
      (moves_fold mv (s.active h.pred) s s.moves))
    simp only [(hok t ht).1]

theorem scratchCopies : Claims.ScratchCopies := by
  refine ⟨fun h x s mv hg ha hok => ⟨_, tmov_starts ha hok, ?_, ?_⟩, fun i s m hm => ?_⟩
  · rw [retireAll_same]
  · set m : State := { s with moves := s.moves ++ (s.active h.pred).map mv } with hm
    obtain ⟨h1, h2, h3⟩ := retireAll_effect (s := m) (hlen h) hg
    refine ⟨h1, h2, ?_⟩
    rw [h3]
    rfl
  · show execTmovDone i s = _
    unfold execTmovDone
    rw [hm]

/-- Settles O41. -/
theorem scratchFormsComplete : Obligations.ScratchFormsComplete := ⟨scratchLoadsAndStores, scratchCopies⟩

end Sys2Proof.Proofs.Scratch
end

section
/-! Proofs about the ownership of buffers (spec/13 R212 to R216, spec/14 R234 to R236). -/

namespace Sys2Proof.Proofs.Ownership

open Sys2Proof.Machine Sys2Proof.Claims Sys2Proof.Proofs.Ordering Sys2Proof.Proofs.Scratch Sys2Proof.Proofs.Graph

/-! ## The forms -/

theorem ownLoop_goes {len : Nat} {act1 : TRef → State → OwnRes} {r : State} (ts : List TRef) (s : State)
    (h : OwnGoes len act1 ts s r) : State.ownLoop len act1 ts s = r := by
  induction ts generalizing s with
  | nil => exact h.symm
  | cons t ts ih =>
    obtain ⟨s1, h1, hrest⟩ := h
    unfold State.ownLoop
    simp only [h1, ih _ hrest]

theorem ownForm_goes {s r : State} {h : Hdr} {n : Need} {chk : State → TRef → Option (Nat × Flt)} {rel : Bool}
    {out : State → TRef → Bool} {act1 : TRef → State → OwnRes} (ha : s.Admits n h) (hf : NoneFaults (s.active h.pred) (chk s))
    (hc : rel = true → NoCopies s h) (hm : s.AllMay (s.active h.pred) ((s.active h.pred).any (out s)))
    (hg : OwnGoes (hlen h) act1 (s.active h.pred) (ownBegin h rel s) r) :
    s.ownForm h n chk rel out act1 = r.rejoinTakers.settle := by
  refine congrArg State.settle ((issue_admits _ ha).trans ((guardFaults_pass _ _ _ _ _ hf).trans ((if_neg ?_).trans
    ((ordered_pass _ hm).trans (congrArg State.rejoinTakers (ownLoop_goes _ _ hg))))))
  intro e
  obtain ⟨hrel, hany⟩ := Bool.and_eq_true_iff.1 e
  obtain ⟨t, ht, e2⟩ := List.any_eq_true.1 hany
  exact absurd e2 (by rw [hc hrel t ht]; decide)

theorem named_none {s : State} {h : Hdr} (hb : BufNamed s h) : NoneFaults (s.active h.pred) fun t =>
    (s.ownNamed t ((s.rd t 0 h.lit).r32 h.a).toNat).map fun f => (0, f) := fun t ht => Option.map_eq_none_iff.2 (hb t ht)

theorem any_false (l : List TRef) : (l.any fun _ => false) = false := List.any_eq_false.2 fun _ _ e => nomatch e

theorem ownershipFormsComplete : Claims.OwnershipFormsComplete := by
  refine ⟨fun h tk s r ha hf hc hm hg => congrArg _ (ownForm_goes ha hf (fun _ => hc) hm hg),
    fun h s r ha hb hc hm hg => congrArg _ (ownForm_goes ha (named_none hb) (fun _ => hc) hm hg),
    fun h tk w s r ha hb hm hg => congrArg _ (ownForm_goes ha (named_none hb) (fun e => absurd e (by decide)) ?_ hg),
    fun t s id tk hd => ?_⟩
  · rw [any_false]
    exact hm
  · show execOwntakeDrainEnd t s = _
    unfold execOwntakeDrainEnd
    rw [hd]

/-! ## What a transfer does -/

/-- What a thread's transfers see of two states is the same: its launch, its die and site, its core buffers, and the dies. -/
def SameBuffers (s x : State) (t : TRef) : Prop :=
  x.dies = s.dies ∧ x.launches = s.launches ∧ (x.wgOf t).die = (s.wgOf t).die ∧ (x.wgOf t).coreBufs = (s.wgOf t).coreBufs

theorem ownBuf_same {s x : State} {t : TRef} (h : SameBuffers s x t) (id : Nat) : x.ownBuf t id = s.ownBuf t id := by
  obtain ⟨hd, hl, hdie, hbufs⟩ := h
  have hn : x.bufNamed (x.wgOf t).die (x.ctxOf t) id = s.bufNamed (s.wgOf t).die (s.ctxOf t) id := by
    have hc : x.ctxOf t = s.ctxOf t := congrArg Launch.ctx (launchOf_of_launches hl t)
    rw [State.bufNamed, State.die, hd, hdie, hc]
    rfl
  unfold State.ownBuf
  dsimp only
  rw [hn, hbufs]

theorem ownBuf_of_named {s : State} {t : TRef} {id : Nat} {b : Buffer}
    (hb : s.bufNamed (s.wgOf t).die (s.ctxOf t) id = some b) (hl : b.lvl ≠ .core) : s.ownBuf t id = some b := by
  simp only [State.ownBuf, hb, if_neg hl]

theorem updOwnBuf_of_named {s : State} {t : TRef} {id : Nat} {b : Buffer} (f : Buffer → Buffer)
    (hb : s.bufNamed (s.wgOf t).die (s.ctxOf t) id = some b) (hl : b.lvl ≠ .core) :
    s.updOwnBuf t id f = s.updDie (s.wgOf t).die fun d => { d with bufs := tupd d.bufs id f } := by
  simp only [State.updOwnBuf, hb, if_neg hl]

section

variable {s : State} {t : TRef} {id : Nat} {b : Buffer} {f : Buffer → Buffer}
  (hb : s.bufNamed (s.wgOf t).die (s.ctxOf t) id = some b) (hl : b.lvl ≠ .core) (hd : (s.wgOf t).die < 24)
include hb

theorem tget_of_named : tget (s.die (s.wgOf t).die).bufs id = some b ∧ b.ctx = s.ctxOf t := by
  unfold State.bufNamed at hb
  cases ht : tget (s.die (s.wgOf t).die).bufs id with
  | none => rw [ht] at hb; cases hb
  | some c =>
    simp only [ht] at hb
    by_cases hc : c.ctx = s.ctxOf t
    · rw [if_pos hc] at hb
      cases hb
      exact ⟨rfl, hc⟩
    · rw [if_neg hc] at hb
      cases hb

include hl hd

/-- A transfer changes the buffer as it says. -/
theorem ownBuf_updOwnBuf_same (hctx : (f b).ctx = b.ctx) (hlvl : (f b).lvl = b.lvl) :
    (s.updOwnBuf t id f).ownBuf t id = some (f b) := by
  obtain ⟨ht, hc⟩ := tget_of_named hb
  refine ownBuf_of_named ?_ (hlvl ▸ hl)
  rw [updOwnBuf_of_named f hb hl]
  show (match tget ((s.updDie (s.wgOf t).die _).die (s.wgOf t).die).bufs id with
    | some c => if c.ctx = s.ctxOf t then some c else none
    | none => none) = _
  rw [tget_vupd_buf _ _ _ _ _ _ hd, if_pos ⟨rfl, rfl⟩, ht]
  exact if_pos (hctx.trans hc)

/-- It changes no other buffer. -/
theorem ownBuf_updOwnBuf_ne {k : Nat} (hk : k ≠ id) : (s.updOwnBuf t id f).ownBuf t k = s.ownBuf t k := by
  have hn : (s.updOwnBuf t id f).bufNamed (s.wgOf t).die (s.ctxOf t) k = s.bufNamed (s.wgOf t).die (s.ctxOf t) k := by
    rw [updOwnBuf_of_named f hb hl]
    simp only [State.bufNamed, tget_vupd_buf _ _ _ _ _ _ hd]
    rw [if_neg fun e => hk e.2]
  have hw : (s.updOwnBuf t id f).wgOf t = s.wgOf t ∧ (s.updOwnBuf t id f).ctxOf t = s.ctxOf t := by
    rw [updOwnBuf_of_named f hb hl]
    exact ⟨rfl, rfl⟩
  simp only [State.ownBuf, hw.1, hw.2, hn]

end

theorem acquire_sameBuffers (s : State) (t : TRef) (scope : Scp) : SameBuffers s (s.acquire t.lid t.wg scope) t := by
  refine ⟨by rw [acquire_eq]; rfl, acquire_launches .., ?_⟩
  by_cases hk : (t.lid, t.wg) ∈ tkeys s.wgs
  · simp only [State.wgOf, wg_acquire scope hk]
    exact ⟨rfl, rfl⟩
  · have hw : (s.acquire t.lid t.wg scope).wgOf t = s.wgOf t := by
      have hnone : tget s.wgs (t.lid, t.wg) = none := by
        cases e : tget s.wgs (t.lid, t.wg) with
        | none => rfl
        | some g => exact absurd ((tget_isSome ..).1 (by rw [e]; rfl)) hk
      have : (s.acquire t.lid t.wg scope).wgs = tupd s.wgs (t.lid, t.wg) (acquired s.tick t.lid t.wg scope) := by
        rw [acquire_eq]
        rfl
      simp only [State.wgOf, State.wg, this, tget_tupd_self, hnone]
      rfl
    rw [hw]
    exact ⟨rfl, rfl⟩

theorem given_keeps (s : State) (t : TRef) (tg : Holder) (b : Buffer) :
    (s.given t tg b).ctx = b.ctx ∧ (s.given t tg b).lvl = b.lvl := by
  unfold State.given
  split
  · exact ⟨rfl, rfl⟩
  · split
    · exact ⟨rfl, rfl⟩
    · exact ⟨rfl, rfl⟩

theorem takeRes_given {s : State} {t : TRef} {w : Bool} {b : Buffer} (hs : b.st = .given) (ht : b.target = .wg t.lid t.wg) :
    s.takeRes t .workgroup w b = .take := by
  simp only [State.takeRes, hs, ht, State.issuer]
  simp

theorem takeRes_free {s : State} {t : TRef} {tk : Tk} {w : Bool} {b : Buffer} (hs : b.st = .free) (hm : s.mayTake t b = false) :
    s.takeRes t tk w b = .fault := by
  simp only [State.takeRes, hs, hm]
  rfl

theorem transfersMoveTheBuffer : Claims.TransfersMoveTheBuffer := by
  intro s h t b id hb hl hd
  have hown : s.ownBuf t id = some b := ownBuf_of_named hb hl
  have hheld : b.st = .held → s.holds t b = true → ¬((decide (b.st ≠ .held) || !s.holds t b) = true) := fun hs hh => by
    simp [hs, hh]
  refine ⟨fun tk tg ht hs hh => ⟨s.updOwnBuf t id (s.given t tg), ?_, ?_, fun k hk => ownBuf_updOwnBuf_ne hb hl hd hk⟩,
    fun hs hh => ⟨s.updOwnBuf t id fun b => { b with st := .shared, shLid := t.lid
                                                     shClu := if b.lvl = .cluster then b.clu else (s.wgOf t).site / 4 },
      ?_, ?_, fun k hk => ownBuf_updOwnBuf_ne hb hl hd hk⟩,
    fun w hs ht => ⟨(s.updOwnBuf t id fun b => b.taken t.lid (.wg t.lid t.wg)).acquire t.lid t.wg .die, ?_, ?_, fun k hk => ?_⟩,
    fun hs hm tk w => ?_⟩
  · unfold State.giveOne
    simp only [show ((s.rd t 0 h.lit).r32 h.a).toNat = id from rfl, hown, ht]
    exact if_neg (hheld hs hh)
  · exact ownBuf_updOwnBuf_same hb hl hd (given_keeps ..).1 (given_keeps ..).2
  · unfold State.shareOne
    simp only [show ((s.rd t 0 h.lit).r32 h.a).toNat = id from rfl, hown]
    exact if_neg (hheld hs hh)
  · rw [ownBuf_updOwnBuf_same hb hl hd rfl rfl]
    rfl
  · unfold State.takeOne
    simp only [show ((s.rd t 0 h.lit).r32 h.a).toNat = id from rfl, hown, takeRes_given hs ht, hs]
    rfl
  · rw [ownBuf_same (acquire_sameBuffers ..)]
    exact ownBuf_updOwnBuf_same hb hl hd rfl rfl
  · rw [ownBuf_same (acquire_sameBuffers ..)]
    exact ownBuf_updOwnBuf_ne hb hl hd hk
  · unfold State.takeOne
    simp only [show ((s.rd t 0 h.lit).r32 h.a).toNat = id from rfl, hown, takeRes_free hs hm, hs, bufCode]

/-- Settles O42. -/
theorem ownershipMoves : Obligations.OwnershipMoves := ⟨ownershipFormsComplete, transfersMoveTheBuffer⟩

end Sys2Proof.Proofs.Ownership
end

section
/-! Proofs about tile handles (spec/13 R222 to R226, spec/14 R237 to R239). -/

namespace Sys2Proof.Proofs.Tiles

open Sys2Proof.Machine Sys2Proof.Claims Sys2Proof.Proofs.Checks

/-! ## The forms -/

theorem tilForm_pass {s : State} {h : Hdr} {n : Need} {hn : Nat} {chk : TRef → State → Except (Nat × Flt) State}
    {busy : TRef → State → Bool} (eff : TRef → State → State) (ha : s.Admits n h) (hu : s.Undisturbed (s.active h.pred))
    (hc : checkRun chk (s.active h.pred) s = []) (hb : ∀ t ∈ s.active h.pred, busy t s = false) :
    s.tilForm h n hn chk busy eff = (s.active h.pred).foldl (fun s t => eff t s) (idled h s) := by
  refine (issue_admits _ ha).trans ?_
  simp only [deliver_none _ _ _ _ hu, hc, firstRank, List.foldl_nil]
  refine if_neg fun e => ?_
  obtain ⟨t, ht, e2⟩ := List.any_eq_true.1 e
  exact absurd e2 (by rw [hb t ht]; decide)

theorem checkRun_of_ok {chk : TRef → State → Except (Nat × Flt) State} {s : State} (l : List TRef)
    (h : ∀ t ∈ l, chk t s = .ok s) : checkRun chk l s = [] := by
  induction l with
  | nil => rfl
  | cons t l ih =>
    unfold checkRun
    rw [h t (by simp)]
    exact ih fun u hu => h u (by simp [hu])

theorem tileForm_starts {s : State} {h : Hdr} {hn : Nat} {lv : Lvl} {load : Bool} (ha : s.Admits { a := .addr, b := .src } h)
    (hu : s.Undisturbed (s.active h.pred)) (hm : ∀ t ∈ s.active h.pred, ∃ m, s.tileMove h hn lv load t = .ok m ∧
      (if load then s.scBusy t false m.src m.sOff (spanOf m.rlen m.rows m.sPitch)
       else s.scBusy t true m.dst m.dOff (spanOf m.rlen m.rows m.dPitch)) = false) :
    s.tileForm h hn lv load = (s.active h.pred).foldl (fun s t => match s.tileMove h hn lv load t with
      | .error _ => s
      | .ok m =>
        let s := s.tick
        let op : TileOp := { load := load, h := hn, slot := (s.handle t.lid t.wg hn).slot, mv := m, stamp := s.stamp }
        (({ s with tileOps := s.tileOps ++ [(t.lid, t.wg, op)] }).refresh t.lid t.wg hn).retire (hlen h) t) (idled h s) := by
  refine tilForm_pass _ ha hu (checkRun_of_ok _ fun t ht => ?_) fun t ht => ?_
  · obtain ⟨m, e, -⟩ := hm t ht
    simp only [e]
  · obtain ⟨m, e, hb⟩ := hm t ht
    simp only [e, hb]

theorem tileFormsComplete : Claims.TileFormsComplete := by
  refine ⟨fun h hn s ha ht => ?_, fun t s h shape k hd hs => ?_, fun i h hn lv load hi s ha hu hm => ?_,
    fun i s lid wg op hi hp hb => ?_, fun h hn s ha ht => ?_, fun h hn s ha ht => ?_, fun h hn s ha ht => ?_⟩
  · exact congrArg _ (tilForm_pass _ ha ht.1 ht.2 fun _ _ => rfl)
  · show execTallocGrant t s = _
    unfold execTallocGrant
    simp only [hd, hs, ne_eq, not_true_eq_false, if_false]
  · obtain ⟨rfl, rfl⟩ | ⟨rfl, rfl⟩ := hi
    · exact congrArg _ (tileForm_starts ha hu hm)
    · exact congrArg _ (tileForm_starts ha hu hm)
  · show execTileTransferDone i s = _
    unfold execTileTransferDone
    simp only [hi]
    refine congrArg _ (if_neg ?_)
    simp [hp, hb]
  · exact congrArg _ (tilForm_pass _ ha ht.1 ht.2 fun _ _ => rfl)
  · exact congrArg _ (tilForm_pass _ ha ht.1 ht.2 fun _ _ => rfl)
  · exact congrArg _ (tilForm_pass _ ha ht.1 ht.2 fun _ _ => rfl)

/-! ## The life of a handle -/

section

variable {s : State} {lid wg : Nat} (hk : (lid, wg) ∈ tkeys s.wgs)
include hk

theorem wg_updHandle (h : Nat) (f : Handle → Handle) :
    (s.updHandle lid wg h f).wg lid wg = { s.wg lid wg with h := vupd (s.wg lid wg).h h f } :=
  (State.wg_updWg s _ _ _ _ _ hk).trans (if_pos ⟨rfl, rfl⟩)

theorem wg_updSlot (k : Nat) (f : Slot → Slot) :
    (s.updWg lid wg fun g => { g with slots := tupd g.slots k f }).wg lid wg =
      { s.wg lid wg with slots := tupd (s.wg lid wg).slots k f } :=
  (State.wg_updWg s _ _ _ _ _ hk).trans (if_pos ⟨rfl, rfl⟩)

/-- A handle and a slot of a workgroup are changed. -/
theorem wg_updHandleSlot (h k : Nat) (f : Handle → Handle) (g : Slot → Slot) :
    ((s.updHandle lid wg h f).updWg lid wg fun x => { x with slots := tupd x.slots k g }).wg lid wg =
      { s.wg lid wg with h := vupd (s.wg lid wg).h h f, slots := tupd (s.wg lid wg).slots k g } := by
  have hk2 : (lid, wg) ∈ tkeys (s.updHandle lid wg h f).wgs := by
    rw [State.updHandle, State.updWg_wgs, tkeys_tupd]
    exact hk
  rw [wg_updSlot hk2, wg_updHandle hk]

theorem wgLoops_updHandle (h : Nat) (f : Handle → Handle) : (s.updHandle lid wg h f).wgLoops lid wg = s.wgLoops lid wg := by
  have hw := wg_updHandle hk h f
  simp only [State.wgLoops, State.core, hw]
  rfl

theorem slotBusy_updHandle (h n : Nat) (f : Handle → Handle) : (s.updHandle lid wg h f).slotBusy lid wg n = s.slotBusy lid wg n := by
  simp only [State.slotBusy, wgLoops_updHandle hk]
  rfl

end

theorem killHandle_live {s : State} {lid wg h : Nat} (hs : (s.handle lid wg h).st ≠ .dead) :
    s.killHandle lid wg h =
      (s.updHandle lid wg h fun x => { x with st := .dead, hold := 0, target := 0, pw := false, pr := false }).releaseSlot
        lid wg (s.handle lid wg h).slot := if_neg hs

theorem handleLivesAndDies : Claims.HandleLivesAndDies := by
  refine ⟨fun s t h shape k hk hh hslot => ?_, fun s lid wg h hk hh hs hslot => ?_⟩
  · intro r
    obtain ⟨x, hx⟩ := tget_mem hslot
    have hw : r.wg t.lid t.wg = { s.wg t.lid t.wg with
        h := vupd (s.wg t.lid t.wg).h h fun _ => { st := .live, hold := t.wave, ever := true, shape := shape, slot := k }
        slots := tupd (s.wg t.lid t.wg).slots k fun x => { x with bound := some h } } := wg_updHandleSlot hk ..
    have hself : r.handle t.lid t.wg h = { st := .live, hold := t.wave, ever := true, shape := shape, slot := k } := by
      rw [State.handle, hw, vget_vupd _ _ _ _ _ hh, if_pos rfl]
    refine ⟨by rw [hself], by rw [hself], by rw [hself], by rw [hself], ?_, fun j hj => ?_, rfl, rfl⟩
    · rw [State.wgOf, hw, tget_tupd_self, show tget (s.wg t.lid t.wg).slots k = some x from hx]
      rfl
    · rw [State.handle, hw, vget_vupd _ _ _ _ _ hh, if_neg hj]
      rfl
  · intro r
    obtain ⟨x, hx⟩ := tget_mem hslot
    have hr : r = _ := killHandle_live hs
    have hw : r.wg lid wg = { s.wg lid wg with
        h := vupd (s.wg lid wg).h h fun x => { x with st := .dead, hold := 0, target := 0, pw := false, pr := false }
        slots := tupd (s.wg lid wg).slots (s.handle lid wg h).slot fun x =>
          { x with bound := none, drain := s.slotBusy lid wg (s.handle lid wg h).slot } } := by
      rw [hr, State.releaseSlot]
      simp only [slotBusy_updHandle hk]
      exact wg_updHandleSlot hk ..
    have hself : r.handle lid wg h =
        { s.handle lid wg h with st := .dead, hold := 0, target := 0, pw := false, pr := false } := by
      rw [State.handle, hw, vget_vupd _ _ _ _ _ hh, if_pos rfl]
      rfl
    refine ⟨by rw [hself], by rw [hself], ?_, ?_, fun j hj => ?_, by rw [hr]; rfl, by rw [hr]; rfl⟩
    · rw [hw, tget_tupd_self, hx]
      rfl
    · rw [hw, tget_tupd_self, hx]
      rfl
    · rw [State.handle, hw, vget_vupd _ _ _ _ _ hh, if_neg hj]
      rfl

/-- Settles O43. -/
theorem tileHandlesServe : Obligations.TileHandlesServe := ⟨tileFormsComplete, handleLivesAndDies⟩

end Sys2Proof.Proofs.Tiles
end

section
/-! Proofs about the forms and the events of standing programs (spec/11 R192 to R205). -/

namespace Sys2Proof.Proofs.Standing

open Sys2Proof.Machine Sys2Proof.Claims Sys2Proof.Proofs.Effects Sys2Proof.Proofs.Control

/-! ## The forms -/

theorem stdForm_pass {s : State} {h : Hdr} {n : Need} {own : Bool} {extra : List TRef → State → Prog → TRef → Option Flt}
    {hold : State → TRef → Option Nat} {late : State → TRef → Bool} (eff : TRef → Nat → Prog → State → State)
    (ha : s.Admits { n with feat := some 9 } h) (hf : NoneFaults (s.active h.pred) (s.stdFault h own (extra (s.active h.pred) s)))
    (hh : ∀ t ∈ s.active h.pred, hold s t = none) (ht : own = true ∨ s.TurnsOpen (s.active h.pred)) :
    s.stdForm h n own extra hold late eff =
      stdEffect h own (s.active h.pred) ((s.active h.pred).filter fun t => !late s t) eff s := by
  refine congrArg State.settle ((issue_admits _ ha).trans ((guardFaults_pass _ _ _ _ _ hf).trans ?_))
  simp only [List.findSome?_eq_none_iff.2 hh]
  refine atTurn_open _ ?_
  obtain rfl | ht := ht
  · exact fun t ht => absurd ht List.not_mem_nil
  · cases own
    · exact ht
    · exact fun t ht => absurd ht List.not_mem_nil

/-- The brick of an update is in flight. -/
def flying (p : Prog) (id : Nat) : Bool :=
  match p.brick? id with
  | some b => b.st == 2
  | none => false

theorem filter_true (l : List TRef) : l.filter (fun _ => !false) = l := List.filter_eq_self.2 fun _ _ => rfl

/-- What admits a BRKDONE, as what refuses it. -/
theorem refuses_eq (f d b : Bool) (x : Flt) : (if f && !d && b then none else some x) = if !f || d || !b then some x else none := by
  cases f
  · rfl
  · cases d
    · cases b
      · rfl
      · rfl
    · rfl

theorem brkdone_closes {h : Hdr} {s : State} (ha : s.Admits { a := .src, feat := some 9 } h)
    (hf : NoneFaults (s.active h.pred) (s.stdFault h true fun p t =>
      if flying p ((s.wgOf t).brick.getD 0) && !(s.wgOf t).brkDone && (before (s.active h.pred) t).isEmpty
      then none else some (brickFlt (w32 ((s.wgOf t).brick.getD 0)) 3)))
    (hl : ∀ t ∈ s.active h.pred, s.lateRelease t = true ∨ s.slotHeld none t.lid ((s.wgOf t).brick.getD 0) = none) :
    exec (.brkdone h) s = .next (stdEffect h true (s.active h.pred) ((s.active h.pred).filter fun t => !s.lateRelease t)
      (fun t lid p s =>
        let y := p.mag h.ty ((s.rd t 0 h.lit).r32 h.a)
        ((s.contribute t { prog := lid, brick := (s.wgOf t).brick.getD 0, m := y.1, kind := .done }).updWg t.lid t.wg fun g =>
          { g with brkDone := true }).setFlags t y.2) s) := by
  simp only [refuses_eq] at hf
  refine congrArg Host.Outcome.next (stdForm_pass (n := { a := .src }) _ ha hf (fun t ht => ?_) (.inl rfl))
  obtain e | e := hl t ht
  · exact if_pos e
  · by_cases hlate : s.lateRelease t = true
    · exact if_pos hlate
    · exact (if_neg hlate).trans e

/-- A field of the update's brick does not depend on a thread's record. -/
theorem brkField_updThr (s : State) (u v : TRef) (f : Thread → Thread) (fld : Fld) :
    (s.updThr v f).brkField u fld = s.brkField u fld := by
  unfold State.brkField
  rfl

theorem standingFormsComplete : Claims.StandingFormsComplete := by
  refine ⟨fun h self s ha hf ht => ?_, fun h s ha hf => ?_, fun h s ha hf => ?_,
    fun h s s' es ha hp => ?_, fun h fld s hg ha hb => ⟨_, rfl, ?_⟩⟩
  · have := stdForm_pass (n := { a := .src, b := .src, c := if self then .unused else .src }) (own := self)
      (extra := fun _ s p t => let id := (s.rd t 0 h.lit).r32 h.a
                               if (p.brick? id.toNat).isNone then some (brickFlt id 1) else none)
      (hold := fun _ _ => none) (late := fun _ _ => false) (fun t lid p s =>
        let r := s.rd t 0 h.lit
        let m := p.mag h.ty (r.r32 h.b)
        (s.contribute t { prog := lid, brick := (r.r32 h.a).toNat, m := m.1 }).setFlags t m.2) ha hf (fun _ _ => rfl) ht
    rw [filter_true] at this
    exact congrArg _ this
  · have := stdForm_pass (n := { b := .src }) (own := true) (extra := fun _ _ _ _ => none) (hold := fun _ _ => none)
      (late := fun _ _ => false) (fun t lid p s =>
        let m := p.mag h.ty ((s.rd t 0 h.lit).r32 h.b)
        let ids := p.mortarList ((s.wgOf t).brick.getD 0)
        (ids.foldl (fun s id => s.contribute t { prog := lid, brick := id.toNat, m := m.1 }) s).setFlags t m.2)
      ha hf (fun _ _ => rfl) (.inl rfl)
    rw [filter_true] at this
    exact congrArg _ this
  · exact fun hl => brkdone_closes ha hf hl
  · exact congrArg _ ((issue_admits _ ha).trans (planForm_go id hp))
  · rw [issue_admits _ ha, guardFaults_pass _ _ _ _ _ fun t ht => if_neg (by simpa using hb t ht)]
    exact each_dep (fun s u th => th.setD true h.d (s.brkField u fld)) (fun s u v f _ _ => by rw [brkField_updThr]) s (hlen h) _ hg
      (active_nodup hg _) (active_sub s _)

/-! ## The events -/

theorem findQuiet_takes {lid : Nat} {s : State} {p : Prog} (hp : s.prog lid = some p) (hs : p.state ≠ 2)
    (hq : p.quiescent = false) (hr : (s.launch lid).serialRun = false) (hz : s.quiet lid p = true) :
    s.findQuiet lid = s.updProg lid fun q =>
      { q with quiescent := true, rseq := q.rseq + 1, due := q.due ++ [s.convBytes lid p false] } := by
  unfold State.findQuiet
  rw [hp]
  exact if_neg (by simp [hs, hq, hr, hz])

theorem findQuiet_not {lid : Nat} {s : State} {p : Prog} (hp : s.prog lid = some p)
    (hq : p.quiescent = true ∨ s.quiet lid p = false) : s.findQuiet lid = s := by
  unfold State.findQuiet
  rw [hp]
  refine if_pos ?_
  obtain h | h := hq
  · simp [h]
  · simp [h]

theorem launch_of_written {s x : State} (h : OnlyWritten s x) (lid : Nat) : x.launch lid = s.launch lid := by
  rw [h]
  rfl

theorem standingEvents : Claims.StandingEvents := by
  refine ⟨fun i s c p hc hp hm => ?_, fun lid s p x xs hp hi ho hc => ?_,
    fun lid s p hp hs hq hr hz => findQuiet_takes hp hs hq hr hz, fun lid s p hp hq => findQuiet_not hp hq,
    fun lid s p hp => ?_⟩
  · show execContribution i s = _
    unfold execContribution
    simp only [hc, hp, hm, if_true]
  · show execIseqAdvance lid s = _
    unfold execIseqAdvance
    simp only [hp, hi]
    refine congrArg _ (if_neg fun e => ?_)
    rw [ho, Bool.false_or] at e
    obtain ⟨c, hcm, e2⟩ := List.any_eq_true.1 e
    exact hc c hcm (by simpa using e2)
  · intro home signals writes hr hb
    have hgo : ¬(((s.launch lid).serialRun ||
        s.ctxBlocked (((p.dies.head?).map ProgDie.die).getD 0) (s.launch lid).ctx .queueUnit) = true) := by
      rw [hr, show ((p.dies.head?).map ProgDie.die).getD 0 = home from rfl, hb]
      decide
    have hw : ∀ x, s.writeConv lid p x = writes x := fun x => by
      cases hc : p.convNode with
      | none => simp only [State.writeConv, writes, signals, hc]
      | some n => simp only [State.writeConv, writes, signals, home, hc, launch_of_written (fwWriteVa_onlyWritten ..)]
    refine ⟨fun b bs hd => ?_, fun hd hs hf => ?_⟩
    · show execConvergenceRecord lid s = _
      unfold execConvergenceRecord
      simp only [hp, if_neg hgo, hd, hw]
    · show execConvergenceRecord lid s = _
      unfold execConvergenceRecord
      simp only [hp, if_neg hgo, hd, hw]
      exact congrArg _ (if_pos (by simp [hs, hf]))

/-- Settles O40. -/
theorem standingProgramsRun : Obligations.StandingProgramsRun := ⟨standingFormsComplete, standingEvents⟩

end Sys2Proof.Proofs.Standing
end

section
/-! Proofs about loads, stores and atomics (spec/05 R88 to R93, spec/15 R251, R255). -/

namespace Sys2Proof.Proofs.Accesses

open Sys2Proof.Machine Sys2Proof.Claims Sys2Proof.Proofs.Checks Sys2Proof.Proofs.Control Sys2Proof.Proofs.Effects Sys2Proof.Proofs.Ordering

/-! ## What a global access sees of the launches -/

theorem tget_map {κ α β : Type} [DecidableEq κ] (g : α → β) (t : Tab κ α) (k : κ) :
    tget (t.map fun e => (e.1, g e.2)) k = (tget t k).map g := by
  induction t with
  | nil => rfl
  | cons e t ih =>
    rw [List.map_cons, tget, tget]
    by_cases h : e.1 = k
    · rw [if_pos h, if_pos h]; rfl
    · rw [if_neg h, if_neg h, ih]

theorem map_tupd {κ α β : Type} [DecidableEq κ] (g : α → β) (t : Tab κ α) (k : κ) (f : α → α) (hf : ∀ a, g (f a) = g a) :
    (tupd t k f).map (fun e => (e.1, g e.2)) = t.map fun e => (e.1, g e.2) := by
  induction t with
  | nil => rfl
  | cons e t ih =>
    rw [tupd]
    by_cases h : e.1 = k
    · rw [if_pos h, List.map_cons, List.map_cons, hf]
    · rw [if_neg h, List.map_cons, List.map_cons, ih]

/-- What a launch's accesses look at of its record. -/
structure LaunchView where
  ctx : Nat
  race : Option DWord
  ended : Bool
  journalOn : Bool
  journalFull : Bool

def launchView (l : Launch) : LaunchView :=
  { ctx := l.ctx, race := l.race, ended := l.ended, journalOn := l.journalOn, journalFull := l.journalFull }

def launchViews (s : State) : List (Nat × LaunchView) := s.launches.map fun e => (e.1, launchView e.2)

theorem launchViews_updLaunch (s : State) (lid : Nat) (f : Launch → Launch) (hf : ∀ l, launchView (f l) = launchView l) :
    launchViews (s.updLaunch lid f) = launchViews s := map_tupd launchView s.launches lid f hf

theorem racesArmed_of_views {s x : State} (h : launchViews x = launchViews s) : x.racesArmed = s.racesArmed := by
  have e : ∀ y : State, y.racesArmed = (launchViews y).any fun l => l.2.race.isSome && !l.2.ended := fun y => by
    rw [launchViews, List.any_map]
    rfl
  rw [e, e, h]

theorem launchView_of_views {s x : State} (h : launchViews x = launchViews s) (lid : Nat) :
    launchView (x.launch lid) = launchView (s.launch lid) := by
  have e : ∀ y : State, launchView (y.launch lid) = ((tget (launchViews y) lid).getD (launchView {})) := fun y => by
    rw [launchViews, tget_map, State.launch]
    cases tget y.launches lid with
    | none => rfl
    | some l => rfl
  rw [e, e, h]

/-- The launches show accesses the same, and neither threads nor waves have changed. -/
structure Steady (s x : State) : Prop where
  views : launchViews x = launchViews s
  same : SameThreads s x

theorem Steady.refl (s : State) : Steady s s := ⟨rfl, .refl s⟩

theorem Steady.trans {s x y : State} (h : Steady s x) (k : Steady x y) : Steady s y :=
  ⟨k.views.trans h.views, h.same.trans k.same⟩

theorem Steady.armed {s x : State} (h : Steady s x) : x.racesArmed = s.racesArmed := racesArmed_of_views h.views

theorem Steady.view {s x : State} (h : Steady s x) (lid : Nat) : launchView (x.launch lid) = launchView (s.launch lid) :=
  launchView_of_views h.views lid

/-! ## Logged accesses -/

theorem checkRaces_unarmed {s : State} (ctx : Nat) (b : Access) (h : s.racesArmed = false) : s.checkRaces ctx b = s := by
  rw [State.checkRaces, h]
  rfl

theorem racesArmed_tick (s : State) : s.tick.racesArmed = s.racesArmed := rfl

theorem count_steady (s : State) (t : TRef) (src n : Nat) : Steady s (s.countT t src n) := ⟨rfl, ⟨rfl, rfl⟩⟩

theorem tick_steady (s : State) : Steady s s.tick := ⟨rfl, tick_sameThreads s⟩

theorem updLaunch_steady (s : State) (lid : Nat) {f : Launch → Launch} (hf : ∀ l, launchView (f l) = launchView l) :
    Steady s (s.updLaunch lid f) := ⟨launchViews_updLaunch s lid f hf, updLaunch_sameThreads s lid f⟩

theorem noteAccess_unarmed {s : State} (t : TRef) (eng : Option Agent) (kind : Nat) (va : DWord) (ls : List Nat)
    (h : s.racesArmed = false) : Steady s (s.noteAccess t eng kind va ls) ∧ (s.noteAccess t eng kind va ls).mem = s.mem := by
  unfold State.noteAccess
  dsimp only
  rw [checkRaces_unarmed _ _ (show s.tick.racesArmed = false from h)]
  exact ⟨(tick_steady s).trans (updLaunch_steady _ _ fun l => rfl), rfl⟩

/-- Where no launch reports races, an access is counted and kept, and nothing is written. -/
theorem logAccess_unarmed {s : State} (t : TRef) (kind : Nat) (va : DWord) (ls : List Nat) (h : s.racesArmed = false) :
    Steady s (s.logAccess t kind va ls) ∧ (s.logAccess t kind va ls).mem = s.mem := by
  have hc := fun n => count_steady s t n 1
  obtain ⟨hn, hm⟩ := noteAccess_unarmed t none kind va ls ((hc _).armed.trans h)
  exact ⟨(hc _).trans hn, hm⟩

/-! ## LD and ST -/

/-- Where no launch reports races, it stays so and memory is the same. -/
def Unwritten (s x : State) : Prop := s.racesArmed = false → x.racesArmed = false ∧ x.mem = s.mem

theorem Unwritten.trans {s x y : State} (h : Unwritten s x) (k : Unwritten x y) : Unwritten s y := fun hr =>
  ⟨(k (h hr).1).1, (k (h hr).1).2.trans (h hr).2⟩

theorem Unwritten.foldl {α : Type} {f : State → α → State} (hf : ∀ s a, Unwritten s (f s a)) (l : List α) (s : State) :
    Unwritten s (l.foldl f s) := by
  induction l generalizing s with
  | nil => exact fun h => ⟨h, rfl⟩
  | cons a l ih => exact (hf s a).trans (ih _)

theorem logAccess_unwritten (s : State) (t : TRef) (kind : Nat) (va : DWord) (ls : List Nat) :
    Unwritten s (s.logAccess t kind va ls) := fun hr =>
  ⟨(logAccess_unarmed t kind va ls hr).1.armed.trans hr, (logAccess_unarmed t kind va ls hr).2⟩

/-- A load is listed as outstanding. -/
def listed (s : State) (l : List PendLoad) : State := { s.tick with loads := l }

theorem listed_sameThreads (s : State) (l : List PendLoad) : SameThreads s (listed s l) := ⟨rfl, rfl⟩
theorem listed_unwritten (s : State) (l : List PendLoad) : Unwritten s (listed s l) := fun h => ⟨h, rfl⟩
theorem updWg_unwritten (s : State) (lid wg : Nat) (f : Wg → Wg) : Unwritten s (s.tick.updWg lid wg f) := fun h => ⟨h, rfl⟩

theorem queueLoad_sameThreads (s : State) (h : Hdr) (off : BitVec 24) (t : TRef) : SameThreads s (s.queueLoad h off t) :=
  (logAccess_sameThreads s t 0 _ _).trans (listed_sameThreads _ _)

theorem queueLoad_unwritten (s : State) (h : Hdr) (off : BitVec 24) (t : TRef) : Unwritten s (s.queueLoad h off t) :=
  (logAccess_unwritten s t 0 _ _).trans (listed_unwritten _ _)

theorem stage_unwritten (s : State) (t : TRef) (va : DWord) (ls : List Nat) (bs : List Byte) : Unwritten s (s.stage t va ls bs) :=
  (logAccess_unwritten s t 1 va ls).trans (updWg_unwritten _ _ _ _)

theorem onlyRetires_of {s m : State} (len : Nat) (hg : s.GroupOk) (hs : SameThreads s m) (hu : Unwritten s m) :
    OnlyRetires s (m.retireAll len s.cur.threads) len := by
  have hr := retireAll_same len s.cur.threads m
  refine ⟨fun u => ?_, ?_, fun ha => ?_⟩
  · rw [thr_retireAll len s.cur.threads m hg.1 (fun t ht => hs.1 ▸ (hg.2 t ht).1) u, hs.thr]
  · rw [hr]
    exact hs.2
  · rw [hr]
    exact (hu ha).2

/-- A fold of steps that leave the threads and memory alone, and the group's retirement. -/
theorem onlyRetires_each {s : State} {len : Nat} {act : List TRef} {eff : TRef → State → State} (hg : s.GroupOk)
    (hs : ∀ s t, SameThreads s (eff t s)) (hu : ∀ s t, Unwritten s (eff t s)) : OnlyRetires s (s.each len act eff) len :=
  onlyRetires_of len hg (SameThreads.foldl hs act s) (Unwritten.foldl hu act s)

theorem loadsAndStoresIssue : Claims.LoadsAndStoresIssue := by
  refine ⟨fun h off s hg ha hok => ⟨_, ?_, rfl, ?_⟩, fun h off s hg ha hok hc => ⟨_, ?_, rfl, ?_⟩, fun h off s ha hok hb => ?_⟩
  · exact congrArg Host.Outcome.next ((issue_admits _ ha).trans (withAccess_pass _ _ _ _ hok))
  · exact onlyRetires_each (eff := fun t s => s.queueLoad h off t) hg (fun s t => queueLoad_sameThreads ..) fun s t => queueLoad_unwritten s h off t
  · refine congrArg Host.Outcome.next ((issue_admits _ ha).trans ((withAccess_pass _ _ _ _ hok).trans (whenClear_pass _ fun x hx => ?_)))
    obtain ⟨t, ht, rfl⟩ := List.mem_map.1 hx
    exact hc t ht
  · exact onlyRetires_each (eff := fun t s => s.stage t (effAddr (s.rd t 0 h.lit) h.a off) (s.memAcc h off 1 t).locs
      (natToBytes (tyBytes h.ty) ((s.rd t 0 h.lit).rw (tyWide h.ty) h.b))) hg (fun s t => stage_sameThreads ..) fun s t => stage_unwritten s t _ _ _
  · refine congrArg Host.Outcome.next ((issue_admits _ ha).trans ((withAccess_pass _ _ _ _ hok).trans (if_pos ?_)))
    obtain ⟨t, ht, hb⟩ := hb
    exact List.any_eq_true.2 ⟨_, List.mem_map.2 ⟨t, ht, rfl⟩, hb⟩

/-! ## Atomics -/

theorem exec_of_atomArms {i : Instr} {A : AtomArm} (hA : atomArms i = some A) (s : State) :
    exec i s = .next (s.atom i A.h A.x A.c) := by
  unfold atomArms at hA
  split at hA
  case h_10 => cases hA
  all_goals
    obtain rfl := Option.some.inj hA
    rfl

theorem atomicsPerform : Claims.AtomicsPerform := by
  intro i A hA s ha hok hc hm
  refine (exec_of_atomArms hA s).trans (congrArg (fun x : State => Host.Outcome.next x.settle) ?_)
  refine (issue_admits _ ha).trans ((withAccess_pass _ _ _ _ hok).trans ((whenClear_pass _ fun x hx => ?_).trans (ordered_pass _ hm)))
  obtain ⟨t, ht, rfl⟩ := List.mem_map.1 hx
  exact hc t ht

/-- Settles O37. -/
theorem memoryFormsComplete : Obligations.MemoryFormsComplete := ⟨loadsAndStoresIssue, atomicsPerform⟩

/-! ## A write of a workgroup that keeps no journal -/

/-- The launch keeps no journal. -/
def Unkept (s : State) (lid : Nat) : Prop := (s.launch lid).journalOn = false ∧ (s.launch lid).journalFull = false

theorem Unkept.steady {s x : State} {lid : Nat} (h : Unkept s lid) (hs : Steady s x) : Unkept x lid :=
  ⟨(congrArg LaunchView.journalOn (hs.view lid)).trans h.1, (congrArg LaunchView.journalFull (hs.view lid)).trans h.2⟩

theorem foldDigest_steady (s : State) (lid wg : Nat) (va : DWord) (bs : List (Nat × Byte)) :
    Steady s (s.foldDigest lid wg va bs) ∧ (s.foldDigest lid wg va bs).mem = s.mem := by
  unfold State.foldDigest
  dsimp only
  split
  · exact ⟨⟨launchViews_updLaunch _ _ _ fun l => rfl, ⟨rfl, rfl⟩⟩, rfl⟩
  · exact ⟨⟨rfl, ⟨rfl, rfl⟩⟩, rfl⟩

theorem enterPlain_steady (s : State) (lid wg : Nat) (th : TRef) (st : Nat) (bs : List (Nat × Byte)) (ps : List Pub) (at_ : Bool) :
    Steady s (s.enterPlain lid wg th st bs ps at_) ∧ (s.enterPlain lid wg th st bs ps at_).mem = memSetAll s.mem bs :=
  ⟨⟨rfl, ⟨rfl, rfl⟩⟩, rfl⟩

theorem enterWg_steady {s : State} {lid wg : Nat} (th : TRef) (st : Nat) (va : DWord) (bs : List (Nat × Byte)) (ps : List Pub)
    (at_ : Bool) (h : Unkept s lid) :
    Steady s (s.enterWg lid wg th st va bs ps at_) ∧ (s.enterWg lid wg th st va bs ps at_).mem = memSetAll s.mem bs := by
  obtain ⟨hon, hfull⟩ := h
  obtain ⟨hd, hdm⟩ := foldDigest_steady s lid wg va bs
  obtain ⟨he, hem⟩ := enterPlain_steady (s.foldDigest lid wg va bs) lid wg th st bs ps at_
  unfold State.enterWg
  simp only [hon, hfull, Bool.false_and, Bool.false_eq_true, if_false]
  exact ⟨hd.trans he, by rw [hem, hdm]⟩

theorem carry_steady {s : State} {lid wg : Nat} (ls : List Nat) (h : Unkept s lid) :
    Steady s (s.carry lid wg ls) ∧ ∀ a, a ∉ ls → memGet (s.carry lid wg ls).mem a = memGet s.mem a := by
  unfold State.carry
  split
  · exact ⟨.refl s, fun _ _ => rfl⟩
  next e es _ =>
    dsimp only
    set bs := ls.filterMap fun l => (carriedByte (e :: es) l).map fun x => (l, x) with hbs
    set w := s.updWg lid wg _ with hw
    have h0 : Steady s w := ⟨rfl, ⟨rfl, rfl⟩⟩
    obtain ⟨h1, hm⟩ := enterWg_steady (wg := wg) e.thread e.stamp e.va bs [] true (h.steady h0)
    have hsub : ∀ a, a ∉ ls → a ∉ bs.map Prod.fst := fun a ha hin => by
      obtain ⟨x, hx, rfl⟩ := List.mem_map.1 hin
      obtain ⟨l, hl, e⟩ := List.mem_filterMap.1 hx
      obtain ⟨y, -, rfl⟩ := Option.map_eq_some_iff.1 e
      exact ha hl
    have hmem : ∀ a, a ∉ ls → memGet (w.enterWg lid wg e.thread e.stamp e.va bs [] true).mem a = memGet s.mem a := fun a ha => by
      rw [hm, memGet_memSetAll_any _ _ _ (hsub a ha)]
      rfl
    split
    · exact ⟨h0.trans h1, hmem⟩
    · exact ⟨(h0.trans h1).trans ⟨rfl, ⟨rfl, rfl⟩⟩, hmem⟩

/-- A write of distinct bytes reads back, in any list of cells. -/
theorem map_memGet_memSetAll (ls : List Nat) (bs : List Byte) (m : List Host.Cell) (hn : ls.Nodup) (hl : ls.length = bs.length) :
    ls.map (memGet (memSetAll m (ls.zip bs))) = bs := by
  induction ls generalizing m bs with
  | nil =>
    rw [List.length_nil] at hl
    exact (List.length_eq_zero_iff.1 hl.symm).symm
  | cons l ls ih =>
    cases bs with
    | nil => cases hl
    | cons b bs =>
      obtain ⟨hnl, hnls⟩ := List.nodup_cons.1 hn
      have hfst : ∀ a ∈ (ls.zip bs).map Prod.fst, a ∈ ls := fun a ha => by
        obtain ⟨x, hx, rfl⟩ := List.mem_map.1 ha
        exact (List.of_mem_zip hx).1
      rw [List.zip_cons_cons, List.map_cons, memSetAll, ih bs _ hnls (Nat.succ.inj hl),
        memGet_memSetAll_any _ _ _ fun h => hnl (hfst l h), memGet_memSet_any, if_pos rfl]

theorem length_natToBytes (n x : Nat) : (natToBytes n x).length = n := by
  induction n generalizing x with
  | zero => rfl
  | succ n ih => rw [natToBytes, List.length_cons, ih]

/-- A CAS that finds another value writes nothing. -/
def casFails (i : Instr) (old c : Nat) : Bool :=
  match i with
  | .atomCas .. => old != c
  | _ => false

theorem casFails_not {i : Instr} {old c : Nat} (h : (∀ h x, i ≠ .atomCas h x) ∨ old = c) : casFails i old c = false := by
  unfold casFails
  split
  · obtain h | h := h
    · exact absurd rfl (h _ _)
    · simp [h]
  · rfl

theorem atomOne_eq {s : State} {h : Hdr} {x : AtomX} {t : TRef} {ls : List Nat} (i : Instr) (hls : s.memAcc h x.off 2 t = .ok ls)
    (hctx : (s.carry t.lid t.wg ls).ctxOf t = s.ctxOf t) :
    let s1 := (s.carry t.lid t.wg ls).tick
    let old := bytesToNat (s1.readNow (s.ctxOf t) ls)
    let b := (s.rd t 0 h.lit).rw (tyWide h.ty) h.b
    let c := (s.rd t 0 h.lit).rw (tyWide h.ty) h.c
    let v := atomVal i h old b c
    let ea := effAddr (s.rd t 0 h.lit) h.a x.off
    let s2 := if casFails i old c then s1 else s1.enterWg t.lid t.wg t s1.stamp ea (ls.zip (natToBytes (tyBytes h.ty) v.1)) [] true
    s.atomOne i h x t =
      ((s2.logAccess t 2 ea ls).setFlags t v.2).tick.updThr t fun th => th.setD (tyWide h.ty) h.d old := by
  unfold State.atomOne
  rw [hls]
  dsimp only [Acc.locs]
  rw [show (s.carry t.lid t.wg ls).tick.ctxOf t = s.ctxOf t from hctx]
  rfl

theorem threads_flagged (s : State) (t : TRef) (fl : BitVec 7) : ((s.setFlags t fl).tick).threads = s.threads :=
  (tick_threads _).trans (threads_setFlags ..)

theorem mem_setFlags (s : State) (t : TRef) (fl : BitVec 7) : (s.setFlags t fl).mem = s.mem := by rw [setFlags_same]

theorem mem_flagged (s : State) (t : TRef) (fl : BitVec 7) (f : Thread → Thread) :
    (((s.setFlags t fl).tick).updThr t f).mem = s.mem := by
  rw [State.updThr_mem, tick_mem, mem_setFlags]

/-- Settles O7. -/
theorem atomicOfOneThread : Obligations.AtomicOfOneThread := by
  unfold Obligations.AtomicOfOneThread
  intro i h x s t ls hk hp hls hn hlen old b c r
  obtain ⟨hraces, hon, hfull⟩ := hp
  have hu : Unkept s t.lid := ⟨hon, hfull⟩
  obtain ⟨hc, hcm⟩ := carry_steady (wg := t.wg) ls hu
  have hctx : (s.carry t.lid t.wg ls).ctxOf t = s.ctxOf t := congrArg LaunchView.ctx (hc.view t.lid)
  have hr : r = _ := atomOne_eq i hls hctx
  set s1 := (s.carry t.lid t.wg ls).tick with hs1
  have h1 : Steady s s1 := hc.trans ⟨rfl, ⟨rfl, rfl⟩⟩
  set ea := effAddr (s.rd t 0 h.lit) h.a x.off
  set v := atomVal i h old b c with hv
  set bytes := ls.zip (natToBytes (tyBytes h.ty) v.1) with hb
  obtain ⟨h2, h2m⟩ := enterWg_steady (wg := t.wg) t s1.stamp ea bytes [] true (hu.steady h1)
  set s2 := if casFails i old c then s1 else s1.enterWg t.lid t.wg t s1.stamp ea bytes [] true with hs2
  have hst : Steady s s2 := by
    rw [hs2]
    split
    · exact h1
    · exact h1.trans h2
  obtain ⟨h3, h3m⟩ := logAccess_unarmed t 2 ea ls (hst.armed.trans hraces)
  have hthreads : (((s2.logAccess t 2 ea ls).setFlags t v.2).tick).threads = s.threads :=
    (threads_flagged ..).trans (hst.trans h3).same.1
  have hmem : r.mem = s2.mem := by
    rw [hr]
    exact (mem_flagged ..).trans h3m
  have hthr : ∀ u, r.thr u = if u = t then (s.thr t).setD (tyWide h.ty) h.d old else s.thr u := fun u => by
    rw [hr, State.thr_updThr _ _ _ _ (hthreads ▸ hk)]
    simp only [State.thr, hthreads]
    rfl
  refine ⟨(hthr t).trans (if_pos rfl), fun hcas => ?_, fun a ha => ?_, fun u hu => (hthr u).trans (if_neg hu)⟩
  · rw [hmem, hs2, casFails_not hcas]
    simp only [Bool.false_eq_true, if_false]
    rw [h2m]
    exact map_memGet_memSetAll _ _ _ hn (hlen.trans (length_natToBytes ..).symm)
  · rw [hmem, hs2]
    split
    · exact hcm a ha
    · rw [h2m, memGet_memSetAll_any _ _ _ fun hin => ?_]
      · exact hcm a ha
      · obtain ⟨y, hy, rfl⟩ := List.mem_map.1 hin
        exact ha (List.of_mem_zip hy).1

/-! ## LOAD_RETURN -/

/-- A piece of a load, read in a state that has drawn some free values, is what R255 lets the load show. -/
theorem readPiece_shown {s x : State} (l : PendLoad) (locs : List Nat) (hx : OnlyDrawn s x) :
    Shows s l locs (x.readPiece (s.stagingFor l.thread.lid l.thread.wg) l.acq (some l.thread)
      { stamp := l.stamp, seq := l.issueSeq, start := l.startSeq } (s.ctxOf l.thread) locs).1 := by
  obtain ⟨⟨p, m⟩, hp, he⟩ := readPiece_shows x (s.stagingFor l.thread.lid l.thread.wg) l.acq (some l.thread)
    { stamp := l.stamp, seq := l.issueSeq, start := l.startSeq } (s.ctxOf l.thread) locs
  rw [he]
  obtain ⟨k, rfl⟩ : ∃ k, x = { s with freeCtr := k } := ⟨_, hx⟩
  obtain ⟨m', hm', hpm⟩ := List.mem_flatMap.1 hp
  obtain ⟨p', hp', e⟩ := List.mem_map.1 hpm
  obtain ⟨rfl, rfl⟩ := Prod.mk.inj e
  obtain ⟨hplace, hall⟩ := List.mem_filter.1 hp'
  refine ⟨p', m', k + 1, ?_, ?_, fun a ha => ?_, rfl⟩
  · refine (List.mem_cons.1 hplace).imp_right fun hw => ?_
    obtain ⟨w, hw, e⟩ := List.mem_map.1 hw
    obtain ⟨hin, hany⟩ := List.mem_filter.1 hw
    exact ⟨w, hin, hany, e.symm⟩
  · refine (List.mem_cons.1 hm').imp_right fun hw => ?_
    obtain ⟨n, hn, rfl⟩ := List.mem_map.1 hw
    have := (List.mem_filter.1 (List.mem_eraseDups.1 hn)).2
    exact ⟨n, rfl, of_decide_eq_true (Bool.and_eq_true_iff.1 this).1⟩
  · exact List.all_eq_true.1 hall _ (List.mem_map.2 ⟨a, ha, rfl⟩)

theorem readPieces_shown {s x : State} (l : PendLoad) (ps : List (List Nat)) (hx : OnlyDrawn s x) :
    ∃ bss, List.Forall₂ (Shows s l) ps bss ∧ (x.readPieces (s.stagingFor l.thread.lid l.thread.wg) l.acq (some l.thread)
      { stamp := l.stamp, seq := l.issueSeq, start := l.startSeq } (s.ctxOf l.thread) ps).1 = bss.flatten := by
  induction ps generalizing x with
  | nil => exact ⟨[], .nil, rfl⟩
  | cons p ps ih =>
    obtain ⟨bss, hf, he⟩ := ih (x := (x.readPiece (s.stagingFor l.thread.lid l.thread.wg) l.acq (some l.thread)
      { stamp := l.stamp, seq := l.issueSeq, start := l.startSeq } (s.ctxOf l.thread) p).2) (hx.trans rfl)
    refine ⟨_ :: bss, .cons (readPiece_shown l p hx) hf, ?_⟩
    rw [List.flatten_cons, ← he]
    rfl

/-- The bytes of a returning load, and the state that reading them leaves. -/
def loadRead (s : State) (l : PendLoad) : List Byte × State :=
  match l.bytes with
  | some b => (b, s)
  | none => s.readPieces (s.stagingFor l.thread.lid l.thread.wg) l.acq (some l.thread)
      { stamp := l.stamp, seq := l.issueSeq, start := l.startSeq } (s.ctxOf l.thread) l.pieces

theorem loadRead_bytes (s : State) (l : PendLoad) : (loadRead s l).1 = loadBytes s l := by
  unfold loadRead loadBytes
  cases l.bytes with
  | some b => rfl
  | none => rfl

theorem loadRead_onlyDrawn (s : State) (l : PendLoad) : OnlyDrawn s (loadRead s l).2 := by
  unfold loadRead
  cases l.bytes with
  | some b => exact rfl
  | none => exact readPieces_onlyDrawn ..

theorem exec_loadReturn {s : State} {i : Nat} {l : PendLoad} (h : s.loads[i]? = some l) :
    exec (.loadReturn i) s = .next (({ (loadRead s l).2 with loads := (loadRead s l).2.loads.eraseIdx i } : State).updThr l.thread
      fun th => th.arrive l.level (tyWide l.ty) l.dst (loadVal l.ty (bytesToNat (loadRead s l).1))) := by
  show Host.Outcome.next (s.loadReturn i) = _
  unfold State.loadReturn
  rw [h]
  rfl

/-- Settles O59. -/
theorem loadsReturnTheirBytes : Obligations.LoadsReturnTheirBytes := by
  unfold Obligations.LoadsReturnTheirBytes
  intro s i l hl hk
  refine ⟨⟨_, exec_loadReturn hl, ?_⟩, fun b hb => ?_, fun hb => ?_⟩
  · rw [loadRead_bytes]
    obtain ⟨k, hd⟩ : ∃ k, (loadRead s l).2 = { s with freeCtr := k } := ⟨_, loadRead_onlyDrawn s l⟩
    rw [hd]
    exact ⟨rfl, (State.thr_updThr _ _ _ _ hk).trans (if_pos rfl), fun u hu => State.thr_updThr_ne _ _ hu, rfl, rfl, rfl⟩
  · unfold loadBytes
    rw [hb]
  · obtain ⟨bss, hf, he⟩ := readPieces_shown (s := s) (x := s) l l.pieces rfl
    refine ⟨bss, hf, ?_⟩
    unfold loadBytes
    rw [hb]
    exact he

end Sys2Proof.Proofs.Accesses
end

section
/-! Scheduling: which unit is placed, what a start gives each thread and wave, and how the picker forms its groups. -/

namespace Sys2Proof.Proofs.Scheduling

open Sys2Proof.Machine Sys2Proof.Claims Sys2Proof.Proofs.Checks

/-! ## Lists in the order that `sortBy` gives -/

/-- An order as the model writes it: any two elements compare, and it is transitive. -/
structure Orders {α : Type} (lt : α → α → Bool) : Prop where
  total : ∀ a b, lt a b = true ∨ lt b a = true
  trans : ∀ a b c, lt a b = true → lt b c = true → lt a c = true

theorem mem_insertBy {α : Type} (lt : α → α → Bool) (a x : α) (l : List α) : x ∈ insertBy lt a l ↔ x = a ∨ x ∈ l := by
  induction l with
  | nil => simp [insertBy]
  | cons b t ih =>
    rw [insertBy]
    split
    · simp
    · simp only [List.mem_cons, ih]; tauto

theorem mem_sortBy {α : Type} (lt : α → α → Bool) (x : α) (l : List α) : x ∈ sortBy lt l ↔ x ∈ l :=
  (Masks.sortBy_perm lt l).mem_iff

theorem insertBy_pairwise {α : Type} {lt : α → α → Bool} (h : Orders lt) (a : α) (l : List α)
    (hl : l.Pairwise fun x y => lt x y = true) : (insertBy lt a l).Pairwise fun x y => lt x y = true := by
  induction l with
  | nil => simp [insertBy]
  | cons b t ih =>
    obtain ⟨hb, ht⟩ := List.pairwise_cons.1 hl
    rw [insertBy]
    split
    · next hab =>
      refine List.pairwise_cons.2 ⟨fun y hy => ?_, hl⟩
      rcases List.mem_cons.1 hy with rfl | hy
      · exact hab
      · exact h.trans _ _ _ hab (hb y hy)
    · next hab =>
      refine List.pairwise_cons.2 ⟨fun y hy => ?_, ih ht⟩
      rcases (mem_insertBy ..).1 hy with rfl | hy
      · exact (h.total y b).resolve_left hab
      · exact hb y hy

theorem sortBy_pairwise {α : Type} {lt : α → α → Bool} (h : Orders lt) (l : List α) :
    (sortBy lt l).Pairwise fun x y => lt x y = true := by
  induction l with
  | nil => exact .nil
  | cons a t ih => exact insertBy_pairwise h a _ ih

/-! ## The orders of R136 -/

theorem candLt_iff (a b : Cand) : candLt a b = true ↔
    a.t.lid < b.t.lid ∨ a.t.lid = b.t.lid ∧ (a.t.wg < b.t.wg ∨ a.t.wg = b.t.wg ∧ a.tid ≤ b.tid) := by
  simp [candLt]

theorem oldest_iff (a b : Cand) : oldest a b = true ↔ a.last < b.last ∨ a.last = b.last ∧ candLt a b = true := by
  simp [oldest]

theorem candLt_orders : Orders candLt where
  total a b := by rw [candLt_iff, candLt_iff]; omega
  trans a b c := by rw [candLt_iff, candLt_iff, candLt_iff]; omega

theorem oldest_orders : Orders oldest where
  total a b := by
    rw [oldest_iff, oldest_iff]
    have := candLt_orders.total a b
    by_cases h : a.last = b.last
    · exact this.imp (fun k => .inr ⟨h, k⟩) (fun k => .inr ⟨h.symm, k⟩)
    · omega
  trans a b c := by
    rw [oldest_iff, oldest_iff, oldest_iff]
    rintro (h | ⟨h, k⟩) (h' | ⟨h', k'⟩)
    · omega
    · omega
    · omega
    · exact .inr ⟨h.trans h', candLt_orders.trans _ _ _ k k'⟩

theorem oldest_self (a : Cand) : oldest a a = true := (oldest_orders.total a a).elim id id

/-- Of the threads of a list none issued longer ago than its eldest. -/
theorem eldest_oldest (l : List Cand) (x : Cand) (h : eldest l = some x) : x ∈ l ∧ ∀ y ∈ l, oldest x y = true := by
  induction l generalizing x with
  | nil => exact absurd h (by simp [eldest])
  | cons a t ih =>
    rw [eldest] at h
    split at h
    · next y hy =>
      obtain ⟨hm, hall⟩ := ih y hy
      split at h
      · next hlt =>
        obtain rfl := Option.some.inj h
        refine ⟨List.mem_cons_of_mem _ hm, fun z hz => ?_⟩
        rcases List.mem_cons.1 hz with rfl | hz
        · exact hlt
        · exact hall z hz
      · next hlt =>
        obtain rfl := Option.some.inj h
        have hay := (oldest_orders.total y a).resolve_left hlt
        refine ⟨List.mem_cons_self, fun z hz => ?_⟩
        rcases List.mem_cons.1 hz with rfl | hz
        · exact oldest_self z
        · exact oldest_orders.trans _ _ _ hay (hall z hz)
    · next hn =>
      obtain rfl := Option.some.inj h
      cases t with
      | nil => exact ⟨List.mem_cons_self, fun z hz => by rw [List.mem_singleton.1 hz]; exact oldest_self _⟩
      | cons b u =>
        exfalso
        rw [eldest] at hn
        split at hn
        · split at hn <;> exact absurd hn (by simp)
        · exact absurd hn (by simp)

theorem eldest_isSome {l : List Cand} (h : l ≠ []) : ∃ x, eldest l = some x := by
  cases l with
  | nil => exact absurd rfl h
  | cons a t =>
    rw [eldest]
    split
    · split
      · exact ⟨_, rfl⟩
      · exact ⟨_, rfl⟩
    · exact ⟨_, rfl⟩

/-! ## Groups, R136 and R137 -/

/-- The candidates that may join the one that issued longest ago. -/
def joiners (t0 : Cand) (ts : List Cand) : List Cand :=
  (t0 :: ts).filter fun x => x.t.lid == t0.t.lid && x.level == t0.level && x.pc == t0.pc

theorem takeGroup_cons {c ts : List Cand} {t0 : Cand} (h : sortBy oldest c = t0 :: ts) :
    takeGroup c = sortBy candLt ((joiners t0 ts).take 64) := by
  rw [takeGroup, h]; rfl

theorem head_mem_joiners (t0 : Cand) (ts : List Cand) : t0 ∈ (joiners t0 ts).take 64 := by
  rw [joiners, List.filter_cons_of_pos (by simp), List.take_cons (by decide)]
  exact List.mem_cons_self

theorem joiners_alike {t0 x : Cand} {ts : List Cand} (h : x ∈ joiners t0 ts) :
    x.t.lid = t0.t.lid ∧ x.level = t0.level ∧ x.pc = t0.pc := by
  simpa [and_assoc] using (List.mem_filter.1 h).2

/-- Settles O19: the group is the first 64 of the candidates that join the eldest one, in slot order. -/
theorem groupsAreFormedAlike : Obligations.GroupsAreFormedAlike := by
  intro c hnd g
  rcases hs : sortBy oldest c with _ | ⟨t0, ts⟩
  · have hc : c = [] := List.length_eq_zero_iff.1 (by rw [← (Masks.sortBy_perm oldest c).length_eq, hs]; rfl)
    have hg : g = [] := by simp only [g, takeGroup, hs]
    rw [hg, hc]
    simp
  · have hg : g = sortBy candLt ((joiners t0 ts).take 64) := takeGroup_cons hs
    have hp : g.Perm ((joiners t0 ts).take 64) := hg ▸ Masks.sortBy_perm candLt _
    have hsub : ((joiners t0 ts).take 64).Sublist (t0 :: ts) := (List.take_sublist ..).trans List.filter_sublist
    have hcp : (t0 :: ts).Perm c := hs ▸ Masks.sortBy_perm oldest c
    refine ⟨?_, fun x hx => ?_, ?_, fun x hx y hy => ?_, fun _ => ⟨t0, ?_, fun y hy => ?_⟩, ?_⟩
    · rw [hp.length_eq]; exact List.length_take_le ..
    · exact hcp.subset (hsub.subset (hp.subset hx))
    · have : ((t0 :: ts).map Cand.t).Nodup := (hcp.map Cand.t).nodup_iff.2 hnd
      exact (hp.map Cand.t).nodup_iff.2 (this.sublist (hsub.map Cand.t))
    · obtain ⟨hl, hv, hc⟩ := joiners_alike (List.mem_of_mem_take (hp.subset hx))
      obtain ⟨hl', hv', hc'⟩ := joiners_alike (List.mem_of_mem_take (hp.subset hy))
      exact ⟨hl.trans hl'.symm, hv.trans hv'.symm, hc.trans hc'.symm⟩
    · exact hp.mem_iff.2 (head_mem_joiners t0 ts)
    · have hsorted := sortBy_pairwise oldest_orders c
      rw [hs] at hsorted
      rcases List.mem_cons.1 (hcp.mem_iff.2 hy) with rfl | hy
      · exact oldest_self _
      · exact (List.pairwise_cons.1 hsorted).1 y hy
    · exact hg ▸ sortBy_pairwise candLt_orders _

/-! ## Where a unit fits, R175 -/

/-- The core of a statically placed workgroup is a live one of its die (R381). -/
theorem staticCore_live {s : State} {o : Offer} {c : Nat × Nat} (h : s.staticCore o = some c) : c.2 ∈ (s.die c.1).sites := by
  obtain ⟨c₀, -, hc⟩ := Option.bind_eq_some_iff.1 h
  split at hc
  · next hin => obtain rfl := Option.some.inj hc; simpa using hin
  · obtain ⟨i, hi, rfl⟩ := Option.map_eq_some_iff.1 hc
    exact List.mem_of_find?_eq_some hi

/-- The sites where a unit fits are live ones, one for each member. -/
theorem spots_live {s : State} {o : Offer} {die : Nat} {sites : List Nat} (h : s.spots o die = some sites) :
    (∀ i ∈ sites, i ∈ (s.die die).sites) ∧
      sites.length = if (s.launch o.lid).gang = 0 then 1 else (s.launch o.lid).gang := by
  simp only [State.spots] at h
  split at h
  · next hgang =>
    obtain ⟨c, -, hc⟩ := List.exists_of_findSome?_eq_some h
    rw [if_neg hgang]
    split at hc
    · next hfit =>
      obtain rfl := Option.some.inj hc
      exact ⟨fun i hi => (List.mem_filter.1 (List.mem_of_mem_take hi)).1, List.length_take_of_le hfit⟩
    · exact absurd hc (by simp)
  · next hgang =>
    rw [if_pos (not_not.1 hgang)]
    split at h
    · split at h
      · next c hcore =>
        split at h
        · next hfit =>
          obtain rfl := Option.some.inj h
          refine ⟨fun i hi => ?_, rfl⟩
          rw [List.mem_singleton.1 hi, ← hfit.1]
          exact staticCore_live hcore
        · exact absurd h (by simp)
      · exact absurd h (by simp)
    · obtain ⟨i, hi, rfl⟩ := Option.map_eq_some_iff.1 h
      refine ⟨fun j hj => ?_, rfl⟩
      rw [List.mem_singleton.1 hj]
      exact List.mem_of_find?_eq_some hi

/-- Settles O17: the unit is the first of the offers, in order, that has spots. -/
theorem theFirstUnitThatFitsIsPlaced : Obligations.TheFirstUnitThatFitsIsPlaced := by
  intro s die o sites h
  rw [State.nextUnit] at h
  split at h
  · exact absurd h (by simp)
  · next hon =>
    obtain ⟨before, x, after, hsplit, hx, hbefore⟩ := List.findSome?_eq_some_iff.1 h
    obtain ⟨ys, hspots, hpair⟩ := Option.map_eq_some_iff.1 hx
    obtain ⟨rfl, rfl⟩ := Prod.mk.inj hpair
    exact ⟨by simpa using hon, ⟨before, after, hsplit, fun y hy => by simpa using hbefore y hy⟩, hspots, spots_live hspots⟩

/-! ## What a start gives, R22 to R25 -/

theorem vget_sRegs (l : Launch) (n : Nat) (h : n < 62) : vget l.sRegs 0 n = l.args.getD n 0 := by
  simp only [Launch.sRegs]
  rw [vget_vset _ _ _ _ _ (by decide), if_neg (by omega), vget_vset _ _ _ _ _ (by decide), if_neg (by omega)]
  rw [vget, dif_pos (by omega), Vector.getElem_ofFn]
  by_cases hn : n < l.args.length
  · exact if_pos ⟨hn, h⟩
  · rw [if_neg (fun k => hn k.1), List.getD_eq_default _ _ (by omega)]

/-- Settles O18: each register of a new thread and of a new wave, by the writes that make it. -/
theorem threadsStartAsTheLaunchSays : Obligations.ThreadsStartAsTheLaunchSays := by
  refine ⟨fun l g base => ?_, fun l w => ⟨rfl, rfl, vget_sRegs l, ?_, ?_⟩⟩
  · intro th
    have hv : ∀ n, th.getV n = vget th.v 0 n := fun n => if_pos rfl
    have hval : ∀ n, vget th.v 0 n = if n = 127 then hi32 (base + BitVec.ofNat 64 l.stack)
        else if n = 126 then lo32 (base + BitVec.ofNat 64 l.stack) else if n = 1 then g.arg1 else if n = 0 then g.arg0
        else vget (Vector.replicate 128 (0 : Word)) 0 n := fun n => by
      show vget (vset (vset (vset (vset _ 0 _) 1 _) 126 _) 127 _) 0 n = _
      simp only [vget_vset _ _ _ _ _ (show 127 < 128 by decide), vget_vset _ _ _ _ _ (show 126 < 128 by decide),
        vget_vset _ _ _ _ _ (show 1 < 128 by decide), vget_vset _ _ _ _ _ (show 0 < 128 by decide)]
    refine ⟨by rw [hv, hval]; rfl, by rw [hv, hval]; rfl, fun n hlo hhi => ?_, ?_, rfl, rfl, rfl, rfl, rfl, fun k hk => ?_⟩
    · rw [hv, hval, if_neg (by omega), if_neg (by omega), if_neg (by omega), if_neg (by omega)]
      simp [vget, show n < 128 by omega]
    · show join64 (th.getV 126) (th.getV 127) = _
      rw [hv, hv, hval, hval]
      exact Effects.join64_parts _
    · have hp : (1 : BitVec 8).getLsbD k = false := by
        rw [show (1 : BitVec 8) = 1#8 from rfl, BitVec.getLsbD_one]
        simp; omega
      show (k == 0 || (1 : BitVec 8).getLsbD k) = false
      rw [hp, beq_false_of_ne (by omega)]; rfl
  · show vget (vset (vset _ 62 _) 63 _) 0 62 = _
    rw [vget_vset _ _ _ _ _ (by decide), if_neg (by decide), vget_vset _ _ _ _ _ (by decide), if_pos rfl]
  · show vget (vset (vset _ 62 _) 63 _) 0 63 = _
    rw [vget_vset _ _ _ _ _ (by decide), if_pos rfl]

end Sys2Proof.Proofs.Scheduling
end

section
/-! Launches: their units are placed and started, the pickers form the groups of each cycle, and a launch ends. -/

namespace Sys2Proof.Proofs.Launches

open Sys2Proof.Machine Sys2Proof.Claims Sys2Proof.Proofs.Scheduling

/-! ## Units are placed and started, R171 to R181 -/

/-- A launch past its deadline misses it: its mark, and the count of event 0x402. -/
theorem deadlineMiss_marks {lid : Nat} {s : State} {l : Launch} {d : DWord} (hl : tget s.launches lid = some l)
    (hd : l.dline = some d) (he : l.ended = false) (hm : l.dlmiss = false) (hnow : d.toNat < s.now.toNat)
    (hu : s.unitLeft lid l = true) : exec (.deadlineMiss lid) s = .next
      ((s.updLaunch lid fun l => { l with dlmiss := true }).count (l.domain.headD 0) none 0x402 (some l.ctx) (some lid) none none 1) := by
  show execDeadlineMiss lid s = _
  simp only [execDeadlineMiss, hl, hd, he, hm, hu, decide_eq_false (Nat.not_le.2 hnow), Bool.or_false, Bool.not_true, Bool.false_eq_true,
    if_false]

theorem unitsArePlacedAndStarted : UnitsArePlacedAndStarted := by
  refine ⟨?_, ?_, ?_, ?_, ?_, ?_, ?_⟩
  · intro lid s l hl he hd hw
    show execLaunchDispatchable lid s = _
    simp only [execLaunchDispatchable, hl, he, hd, hw, Bool.or_false, Bool.false_eq_true, if_false]
  · intro die s o sites p hn hp hpre
    show execPlaceUnit die s = _
    simp only [execPlaceUnit, hn, hp, hpre, Bool.false_eq_true, if_false]
  · intro die s o sites hn hp
    show execPlaceUnit die s = _
    simp only [execPlaceUnit, hn, hp]
  · intro die level s o since ho hsince hdue honly
    have hfree : ((s.die die).sites.any fun i => (s.core die i).only == some o.key) = false :=
      List.any_eq_false.2 fun i hi => by simpa using honly i hi
    show execHoldTimeExpiry die level s = _
    simp only [execHoldTimeExpiry, ho, hsince, hfree, decide_eq_false (Nat.not_lt.2 hdue), Bool.or_false, Bool.false_eq_true, if_false]
  · intro lid inst s hdue
    exact congrArg Host.Outcome.next (if_pos hdue)
  · intro lid s l d hl hd he hm hnow hu
    have hkey : lid ∈ tkeys s.launches := (tget_isSome _ _).1 (by rw [hl]; rfl)
    refine ⟨_, deadlineMiss_marks hl hd he hm hnow hu, ?_, fun k hk => ?_, rfl, rfl, rfl⟩
    · show ((s.updLaunch lid _).launch lid).dlmiss = true
      rw [State.launch_updLaunch _ _ _ _ hkey, if_pos rfl]
    · show (s.updLaunch lid _).launch k = _
      rw [State.launch_updLaunch _ _ _ _ hkey, if_neg hk]
  · intro lid s hdue
    refine congrArg Host.Outcome.next (if_neg ?_)
    simp [hdue]

/-! ## The pickers, R134 to R138 and R274 -/

/-- A step that begins on a core, and the group that is left to issue there. -/
theorem makeStep_eq (s : State) (x : Nat × List (Nat × Nat)) : s.makeStep x =
    let s := if s.unissued x.1 = [] then
        (s.coresOf x.1).foldl (fun s c => s.detAt x.1 c) (s.updLaunch x.1 fun l => { l with step := l.step + 1, inStep := [] })
      else s
    x.2.foldl (fun s c => if s.unissuedAt x.1 c = [] then s else s.sendStep c (s.unissuedAt x.1 c)) s := by
  have hrest : (fun (s : State) c => s.sendRest x.1 c) =
      fun s c => if s.unissuedAt x.1 c = [] then s else s.sendStep c (s.unissuedAt x.1 c) := by
    funext s c
    rw [State.sendRest]
    split
    · next h => rw [if_pos h]
    · next h => rw [if_neg h]
  rw [State.makeStep, hrest]
  simp only [List.isEmpty_iff, State.beginStep]

/-- The launches taken for a cycle stand with their cores, and apart from those that are busy. -/
theorem apart_spec (s : State) (l : List (Nat × List (Nat × Nat) × Cand)) (busy : List (Nat × Nat)) :
    (∀ x ∈ s.apart l busy, (∃ y ∈ l, x = (y.1, y.2.1)) ∧ ∀ c ∈ s.coresOf x.1, c ∉ busy) ∧
      (s.apart l busy).Pairwise (fun x y => ∀ c ∈ s.coresOf x.1, c ∉ s.coresOf y.1) ∧
      ∀ y ∈ l, (∃ x ∈ s.apart l busy, x.1 = y.1) ∨ (∃ c ∈ s.coresOf y.1, c ∈ busy) ∨
        ∃ x ∈ s.apart l busy, ∃ c ∈ s.coresOf y.1, c ∈ s.coresOf x.1 := by
  induction l generalizing busy with
  | nil => exact ⟨by simp [State.apart], by simp [State.apart], by simp⟩
  | cons a t ih =>
    rw [State.apart]
    split
    · next hbusy =>
      obtain ⟨hmem, hpair, hcover⟩ := ih busy
      refine ⟨fun x hx => ?_, hpair, fun y hy => ?_⟩
      · obtain ⟨⟨y, hy, rfl⟩, hapart⟩ := hmem x hx
        exact ⟨⟨y, List.mem_cons_of_mem _ hy, rfl⟩, hapart⟩
      · rcases List.mem_cons.1 hy with rfl | hy
        · obtain ⟨c, hc, hb⟩ := List.any_eq_true.1 hbusy
          exact .inr (.inl ⟨c, hc, by simpa using hb⟩)
        · exact hcover y hy
    · next hbusy =>
      obtain ⟨hmem, hpair, hcover⟩ := ih (busy ++ s.coresOf a.1)
      have hfree : ∀ c ∈ s.coresOf a.1, c ∉ busy := fun c hc hb =>
        hbusy (List.any_eq_true.2 ⟨c, hc, by simpa using hb⟩)
      refine ⟨fun x hx => ?_, List.pairwise_cons.2 ⟨fun x hx c hc hcx => ?_, hpair⟩, fun y hy => ?_⟩
      · rcases List.mem_cons.1 hx with rfl | hx
        · exact ⟨⟨a, List.mem_cons_self, rfl⟩, hfree⟩
        · obtain ⟨⟨y, hy, rfl⟩, hapart⟩ := hmem x hx
          exact ⟨⟨y, List.mem_cons_of_mem _ hy, rfl⟩, fun c hc hb => hapart c hc (List.mem_append_left _ hb)⟩
      · exact (hmem x hx).2 c hcx (List.mem_append_right _ hc)
      · rcases List.mem_cons.1 hy with rfl | hy
        · exact .inl ⟨_, List.mem_cons_self, rfl⟩
        · rcases hcover y hy with ⟨x, hx, he⟩ | ⟨c, hc, hb⟩ | ⟨x, hx, c, hc, hcx⟩
          · exact .inl ⟨x, List.mem_cons_of_mem _ hx, he⟩
          · rcases List.mem_append.1 hb with hb | hb
            · exact .inr (.inl ⟨c, hc, hb⟩)
            · exact .inr (.inr ⟨_, List.mem_cons_self, c, hc, hb⟩)
          · exact .inr (.inr ⟨x, List.mem_cons_of_mem _ hx, c, hc, hcx⟩)

/-- Only a core with a group of the step may carry it. -/
theorem stepGroup_of_coreGo {s : State} {lid : Nat} {c : Nat × Nat} (h : s.coreGo lid c = true) : s.stepGroup lid c ≠ [] := by
  intro hnil
  simp [State.coreGo, hnil, eldest] at h

/-- A launch that the next cycle may carry somewhere is among those that `stepsNext` chooses from. -/
theorem stepOf_isSome {s : State} {lid : Nat} (h : s.goCores lid ≠ []) : ∃ x, s.stepOf lid = some (lid, s.goCores lid, x) := by
  obtain ⟨c, hc⟩ := List.exists_mem_of_ne_nil _ h
  have hgo : s.coreGo lid c = true := (List.mem_filter.1 hc).2
  obtain ⟨y, hy⟩ := List.exists_mem_of_ne_nil _ (stepGroup_of_coreGo hgo)
  have hne : (s.goCores lid).flatMap (s.stepGroup lid) ≠ [] :=
    List.ne_nil_of_mem (List.mem_flatMap.2 ⟨c, hc, hy⟩)
  obtain ⟨x, hx⟩ := eldest_isSome hne
  exact ⟨x, by rw [State.stepOf, hx]; rfl⟩

theorem stepOf_eq {s : State} {lid : Nat} {y : Nat × List (Nat × Nat) × Cand} (h : s.stepOf lid = some y) :
    y.1 = lid ∧ y.2.1 = s.goCores lid ∧ s.goCores lid ≠ [] := by
  obtain ⟨x, hx, rfl⟩ := Option.map_eq_some_iff.1 h
  refine ⟨rfl, rfl, fun hnil => ?_⟩
  rw [hnil] at hx
  exact absurd hx (by simp [eldest])

/-- The launches whose steps the next cycle carries: R274's order, and no two with a core in common. -/
theorem stepsNext_spec (s : State) : (∀ x ∈ s.stepsNext, x.2 = s.goCores x.1 ∧ x.2 ≠ []) ∧
    s.stepsNext.Pairwise (fun x y => ∀ c ∈ s.coresOf x.1, c ∉ s.coresOf y.1) ∧
    ∀ lid ∈ tkeys s.launches, s.goCores lid ≠ [] → (∃ x ∈ s.stepsNext, x.1 = lid) ∨
      ∃ x ∈ s.stepsNext, ∃ c ∈ s.coresOf lid, c ∈ s.coresOf x.1 := by
  obtain ⟨hmem, hpair, hcover⟩ := apart_spec s
    (sortBy (fun a b => oldest a.2.2 b.2.2) ((tkeys s.launches).filterMap s.stepOf)) []
  refine ⟨fun x hx => ?_, hpair, fun lid hlid hgo => ?_⟩
  · obtain ⟨⟨y, hy, rfl⟩, -⟩ := hmem x hx
    obtain ⟨lid, -, hstep⟩ := List.mem_filterMap.1 ((mem_sortBy ..).1 hy)
    obtain ⟨hlid, hcores, hne⟩ := stepOf_eq hstep
    exact ⟨by rw [hcores, hlid], by rw [hcores]; exact hne⟩
  · obtain ⟨x, hx⟩ := stepOf_isSome hgo
    rcases hcover _ ((mem_sortBy ..).2 (List.mem_filterMap.2 ⟨lid, hlid, hx⟩)) with h | ⟨c, -, hb⟩ | h
    · exact .inl h
    · exact absurd hb List.not_mem_nil
    · exact .inr h

/-- A core goes with a step's group where its slot accepts it and nobody ready there has waited longer (R141). -/
theorem coreGo_eldest {s : State} {lid : Nat} {c : Nat × Nat} {x : Cand} (hx : eldest (s.stepGroup lid c) = some x)
    (hgo : s.coreGo lid c = true) : s.accepts c.1 c.2 (s.cycle + 1) x.i = true ∧
      ∀ y ∈ s.readyAt c.1 c.2 (s.cycle + 1) ++ s.otherSteps lid (s.cycle + 1) c, oldest x y = true := by
  simp only [State.coreGo, hx, Bool.and_eq_true] at hgo
  refine ⟨hgo.1, fun y hy => ?_⟩
  obtain ⟨z, hz⟩ := eldest_isSome (List.ne_nil_of_mem hy)
  have hzx : ¬ oldest z x = true := by simpa [hz] using hgo.2
  exact oldest_orders.trans _ _ _ ((oldest_orders.total z x).resolve_left hzx) ((eldest_oldest _ _ hz).2 y hy)

/-- A sample is taken of the group that issued last, in its chosen cycle or step (R282). -/
theorem sampleTag_tags {die site : Nat} {s : State} {x : TRef × Nat × Word × Nat × Nat}
    (hlast : (s.core die site).lastGroup = some x) (hthr : (s.thr x.1).last = s.cycle)
    (hfrom : s.sampleFrom die site x.1 ≤ s.sampleTime x.1)
    (htime : s.sampleTime x.1 % 2 ^ (s.ctx (s.samplingCtx die site)).sampleK =
      (s.core die site).lfsr.toNat % 2 ^ (s.ctx (s.samplingCtx die site)).sampleK) :
    exec (.sampleTag die site) s = .next ((if s.ctxOf x.1 = s.samplingCtx die site then
        s.updCtx (s.samplingCtx die site) fun c => { c with sampleRing := c.sampleRing ++ [s.sampleBytes x] }
      else s).draw.sampleUntil die site x.1
        ((s.sampleTime x.1 / 2 ^ (s.ctx (s.samplingCtx die site)).sampleK + 1) *
          2 ^ (s.ctx (s.samplingCtx die site)).sampleK)) := by
  show execSampleTag die site s = _
  simp only [execSampleTag, hlast, hthr, htime, decide_eq_false (Nat.not_lt.2 hfrom), bne_self_eq_false, Bool.or_false,
    Bool.false_eq_true, if_false]

theorem pickersPick : PickersPick := by
  refine ⟨?_, ?_, ?_, ?_, stepsNext_spec, fun lid s c x => coreGo_eldest, ?_⟩
  · intro s hp
    exact congrArg Host.Outcome.next (if_pos hp)
  · intro s hp
    exact congrArg Host.Outcome.next (if_neg (by simp [hp]))
  · intro lid s hnone
    refine congrArg Host.Outcome.next (if_pos ?_)
    rw [Bool.not_eq_true', List.any_eq_false]
    exact fun x hx => by simpa using hnone x hx
  · intro lid s ⟨x, hx, hlid⟩
    refine congrArg Host.Outcome.next ((if_neg ?_).trans ?_)
    · rw [Bool.not_eq_true', Bool.not_eq_false, List.any_eq_true]
      exact ⟨x, hx, by simpa using hlid⟩
    · have hstep : State.makeStep = _ := funext fun s => funext fun x => makeStep_eq s x
      rw [hstep]
  · intro die site s x hlast hthr hfrom ctx p htime
    refine (sampleTag_tags hlast hthr hfrom htime).trans (congrArg Host.Outcome.next ?_)
    have hstep : (if s.ctxOf x.1 = ctx then
        s.updCtx ctx fun c => { c with sampleRing := c.sampleRing ++ [s.sampleBytes x] } else s).draw.stepped x.1.lid =
          s.stepped x.1.lid := by
      split
      · rfl
      · rfl
    simp only [State.sampleUntil, hstep, ctx, p]

/-! ## The end of a launch, R257 and R272 -/

theorem launchesEnd : LaunchesEnd := by
  refine ⟨?_, ?_, ?_⟩
  · intro lid s l hl hr he
    show execLaunchEnd lid s = _
    simp only [execLaunchEnd, hl, hr, he, Bool.false_eq_true, if_false, if_true]
  · intro lid s l hl hr he hdue hm
    show execLaunchEnd lid s = _
    simp only [execLaunchEnd, hl, hr, he, hdue, hm, Bool.not_true, Bool.false_eq_true, if_false]
  · intro lid s l hl hr he hdue hm
    show execLaunchEnd lid s = _
    simp only [execLaunchEnd, hl, hr, he, hdue, hm, Bool.not_true, Bool.false_eq_true, if_false, if_true]

/-- Settles O50: placing and starting, the pickers, and the end of a launch. -/
theorem launchesRun : Obligations.LaunchesRun := ⟨unitsArePlacedAndStarted, pickersPick, launchesEnd⟩

end Sys2Proof.Proofs.Launches
end

section
/-! Host packets: a packet event takes up a packet of its type, the checks of a packet and its queue's indexes, and what each type does. -/

namespace Sys2Proof.Proofs.Packets

open Sys2Proof.Machine Sys2Proof.Claims Sys2Proof.Proofs.Control

/-! ## Taking up a packet, R365 -/

/-- A choice among several is one of them. -/
theorem choose_lt (s : State) {n : Nat} (h : 0 < n) : (s.choose n).1 < n := by
  simp only [State.choose]
  split
  · exact h
  · exact Nat.mod_lt _ h

/-- Where some queue's packet can be taken up, `packetStep` takes up one of them. -/
theorem packetStep_takes {s t : State} {sel : List Word → Bool} {go : PktGo} {q : Nat} (hq : q ∈ tkeys s.hqueues)
    (ht : s.tryPacket sel go q = some t) :
    ∃ q' t', q' ∈ tkeys s.hqueues ∧ s.tryPacket sel go q' = some t' ∧ s.packetStep sel go = t'.draw := by
  have hmem : t ∈ (tkeys s.hqueues).filterMap (s.tryPacket sel go) := List.mem_filterMap.2 ⟨q, hq, ht⟩
  have hlt := choose_lt s (List.length_pos_of_mem hmem)
  obtain ⟨q', hq', ht'⟩ := List.mem_filterMap.1 (List.getElem_mem hlt)
  refine ⟨q', _, hq', ht', ?_⟩
  rw [State.packetStep]
  split
  · next hnil => exact absurd (hnil ▸ hmem) List.not_mem_nil
  · rw [List.getD_eq_getElem _ _ hlt]

/-- Each packet event is `packetStep` for the packets and the effect of its type. -/
theorem exec_pktArms {i : Instr} {A : (List Word → Bool) × PktGo} (h : pktArms i = some A) (s : State) :
    exec i s = .next (s.packetStep A.1 A.2) := by
  unfold pktArms at h
  split at h
  case h_16 => exact nomatch h
  all_goals (obtain rfl := Option.some.inj h; rfl)

/-- Settles O22: the event takes up one of the packets of its kind. -/
theorem packetsAreTakenUp : Obligations.PacketsAreTakenUp := by
  intro i A hA s q t hq ht
  obtain ⟨q', t', hq', ht', hstep⟩ := packetStep_takes hq ht
  exact ⟨q', t', hq', ht', by rw [exec_pktArms hA, hstep]⟩

/-! ## The checks of R366 -/

theorem packetChecks : PacketChecks := by
  intro s q d ws go
  refine ⟨fun st h => by rw [State.runPacket, h], fun fs h ha hd => by simp [State.runPacket, h, ha, hd],
    fun fs h ha hc => by simp [State.runPacket, h, ha, hc], fun fs ⟨hp, hadm, hctx⟩ => ?_⟩
  cases ha : adminType (pktType ws) with
  | true => simp [State.runPacket, hp, ha, hadm ha]
  | false =>
    have := hctx ha
    simp [State.runPacket, hp, ha, Option.isSome_iff_ne_none.1 this]

/-! ## The indexes of a queue, R367 -/

theorem hostWrite_onlyWritten (s : State) (a : Nat) (b : List Byte) : OnlyWritten s (s.hostWrite a b) := by
  rw [State.hostWrite]
  split
  · exact OnlyWritten.trans (fwEnter_onlyWritten ..) rfl
  · rfl

theorem hqueues_of_written {s t : State} (h : OnlyWritten s t) : t.hqueues = s.hqueues := by rw [h]
theorem launches_of_written {s t : State} (h : OnlyWritten s t) : t.launches = s.launches := by rw [h]

theorem setHq_threads (s : State) (q : Nat) (f : HQueue → HQueue) : (s.setHq q f).threads = s.threads := rfl
theorem setHq_launches (s : State) (q : Nat) (f : HQueue → HQueue) : (s.setHq q f).launches = s.launches := rfl

theorem hqueue_of_written {s t : State} (h : OnlyWritten s t) (k : Nat) : t.hqueue k = s.hqueue k := by
  rw [State.hqueue, State.hqueue, hqueues_of_written h]

theorem hqueue_setHq (s : State) (q k : Nat) (f : HQueue → HQueue) :
    (s.setHq q f).hqueue k = if k = q then f (s.hqueue q) else s.hqueue k := by
  show (tget (tset s.hqueues q _) k).getD {} = _
  rw [tget_tset]
  split
  · rfl
  · rfl

/-- The queue's indexes once its read index has passed a packet. -/
def pastPacket (r : PktRes) (idx : Nat) (ws : List Word) (h : HQueue) : HQueue :=
  { h with rd := idx + ws.length, open_ := if r.open_ && r.st == .ok then h.open_ ++ [(idx, ws.headD 0)] else h.open_ }

/-- The state in which the read index has passed the packet, before its completion entry. -/
def readOn (r : PktRes) (q idx : Nat) (d : QDesc) (ws : List Word) : State :=
  ((r.s.setHq q (pastPacket r idx ws)).hostWrite d.rdAddr (natToBytes 8 (idx + ws.length))).countHub 0x600 (some d.ctx)

theorem readOn_eq (r : PktRes) (q idx : Nat) (d : QDesc) (ws : List Word) :
    (∀ k, (readOn r q idx d ws).hqueue k = if k = q then pastPacket r idx ws (r.s.hqueue q) else r.s.hqueue k) ∧
      (readOn r q idx d ws).threads = r.s.threads ∧ (readOn r q idx d ws).launches = r.s.launches := by
  have hw := hostWrite_onlyWritten (r.s.setHq q (pastPacket r idx ws)) d.rdAddr (natToBytes 8 (idx + ws.length))
  refine ⟨fun k => ?_, ?_, ?_⟩
  · exact (hqueue_of_written hw k).trans (hqueue_setHq r.s q k _)
  · exact hw.threads
  · exact (launches_of_written hw : _ = (r.s.setHq q _).launches)

theorem pass_eq (r : PktRes) (q idx : Nat) (d : QDesc) (ws : List Word) : r.pass q idx d ws =
    if (ws.headD 0).getLsbD 24 then
      ((readOn r q idx d ws).hostWrite (d.cplBase + 32 * (((readOn r q idx d ws).hqueue q).cpl % 2 ^ d.cplLog))
        ((readOn r q idx d ws).cplBytes idx ws r)).setHq q fun h => { h with cpl := ((readOn r q idx d ws).hqueue q).cpl + 1 }
    else readOn r q idx d ws := rfl

/-- Of the packet's own queue: the indexes after it, whether or not it asks for a completion entry; no other queue changes. -/
theorem hqueue_pass (r : PktRes) (q idx : Nat) (d : QDesc) (ws : List Word) (k : Nat) : (r.pass q idx d ws).hqueue k =
    if k = q then
      { pastPacket r idx ws (r.s.hqueue q) with cpl := (r.s.hqueue q).cpl + if (ws.headD 0).getLsbD 24 then 1 else 0 }
    else r.s.hqueue k := by
  obtain ⟨hq, -, -⟩ := readOn_eq r q idx d ws
  have hself : (readOn r q idx d ws).hqueue q = pastPacket r idx ws (r.s.hqueue q) := (hq q).trans (if_pos rfl)
  rw [pass_eq]
  split
  · have hw := hqueue_of_written (hostWrite_onlyWritten (readOn r q idx d ws)
      (d.cplBase + 32 * (((readOn r q idx d ws).hqueue q).cpl % 2 ^ d.cplLog)) ((readOn r q idx d ws).cplBytes idx ws r))
    rw [hqueue_setHq, hw, hw, hself, hq]
    split
    · rfl
    · rfl
  · exact hq k

theorem pass_same (r : PktRes) (q idx : Nat) (d : QDesc) (ws : List Word) :
    (r.pass q idx d ws).threads = r.s.threads ∧ (r.pass q idx d ws).launches = r.s.launches := by
  obtain ⟨-, hthr, hlau⟩ := readOn_eq r q idx d ws
  rw [pass_eq]
  split
  · have hw := hostWrite_onlyWritten (readOn r q idx d ws)
      (d.cplBase + 32 * (((readOn r q idx d ws).hqueue q).cpl % 2 ^ d.cplLog)) ((readOn r q idx d ws).cplBytes idx ws r)
    rw [setHq_threads, setHq_launches, hw.threads, launches_of_written hw]
    exact ⟨hthr, hlau⟩
  · exact ⟨hthr, hlau⟩

theorem acceptedPacketsPass : AcceptedPacketsPass := by
  intro r q idx d ws
  have hself := (hqueue_pass r q idx d ws q).trans (if_pos rfl)
  refine ⟨congrArg HQueue.rd hself, (congrArg HQueue.tail hself).trans rfl, (congrArg HQueue.open_ hself).trans ?_, congrArg HQueue.cpl hself,
    fun k hk => (hqueue_pass r q idx d ws k).trans (if_neg hk), pass_same r q idx d ws⟩
  simp [pastPacket]

/-- Settles O53: the checks in their order, and the indexes that a packet's passing changes. -/
theorem packetsAreChecked : Obligations.PacketsAreChecked := ⟨packetChecks, acceptedPacketsPass⟩

end Sys2Proof.Proofs.Packets
end

section
/-! Host packets: what each type does when its own checks pass, and pinning. -/

namespace Sys2Proof.Proofs.PacketTypes

open Sys2Proof.Machine Sys2Proof.Claims Sys2Proof.Proofs.Control Sys2Proof.Proofs.Packets

/-! ## Standing programs that packets name -/

/-- The program that PROGRAM names is the launch's own. -/
theorem prog_of_running? {s : State} {ctx : Nat} {fs : List Field} {lid : Nat} {p : Prog} (h : s.running? ctx fs = some (lid, p)) :
    s.prog lid = some p := by
  simp only [State.running?] at h
  split at h
  · next l hl =>
    split at h
    · exact nomatch h
    · obtain ⟨q, hq, hp⟩ := Option.bind_eq_some_iff.1 h
      split at hp
      · obtain ⟨rfl, rfl⟩ := Prod.mk.inj (Option.some.inj hp)
        rw [State.prog, hl]
        exact hq
      · exact nomatch hp
  · exact nomatch h

theorem prog_updProg (s : State) (lid k : Nat) (f : Prog → Prog) :
    (s.updProg lid f).prog k = if k = lid then (s.prog lid).map f else s.prog k := by
  show (tget (tupd s.launches lid _) k).bind Launch.prog = _
  rw [tget_tupd]
  split
  · rw [State.prog]
    cases tget s.launches lid with
    | none => rfl
    | some l => rfl
  · rfl

/-- What sending contributions of one program changes: its mark of quiescence, and the contributions under way. -/
structure Sends (s t : State) (lid : Nat) (p : Prog) (cs : List Contrib) : Prop where
  contribs : t.contribs = s.contribs ++ cs
  prog : ∃ b, t.prog lid = some { p with quiescent := b }
  frame : t = { s with launches := t.launches, contribs := t.contribs }

theorem sends_foldl {s : State} {lid : Nat} {p : Prog} (die : Nat) (hp : s.prog lid = some p) (cs : List Contrib)
    (hcs : ∀ c ∈ cs, c.prog = lid) : Sends s (cs.foldl (State.send · die) s) lid p cs := by
  induction cs generalizing s p with
  | nil => exact ⟨by simp, ⟨p.quiescent, hp⟩, rfl⟩
  | cons c cs ih =>
    have hsend : (s.send die c).prog lid = some { p with quiescent := p.quiescent && p.dieOf c.brick == die } := by
      show (s.updProg c.prog _).prog lid = _
      rw [prog_updProg, if_pos (hcs c List.mem_cons_self).symm, hcs c List.mem_cons_self, hp]
      rfl
    obtain ⟨hc, ⟨b, hb⟩, hf⟩ := ih hsend fun x hx => hcs x (List.mem_cons_of_mem _ hx)
    refine ⟨?_, ⟨b, hb⟩, hf.trans rfl⟩
    rw [List.foldl_cons, hc]
    show (s.contribs ++ [c]) ++ cs = _
    rw [List.append_assoc]; rfl

theorem inputContribs_prog {lid : Nat} {p : Prog} {sq : DWord} {fs : List Field} : ∀ c ∈ inputContribs lid p sq fs, c.prog = lid := by
  intro c hc
  obtain ⟨x, -, rfl⟩ := List.mem_map.1 hc
  rfl

/-- The state in which an input's payload is written. -/
def withPayload (s : State) (ctx : Nat) (fs : List Field) : State :=
  match fbody fs 52 with
  | some b => s.fwWriteVa .system ctx (pair64 b 0).toNat (wordsToBytes (b.drop 2))
  | none => s

theorem withPayload_written (s : State) (ctx : Nat) (fs : List Field) : OnlyWritten s (withPayload s ctx fs) := by
  rw [withPayload]
  split
  · exact fwWriteVa_onlyWritten ..
  · rfl

/-- The record that an input leaves at its program. -/
def recorded (k : Nat × Nat) (sq : DWord) (p : Prog) : Prog :=
  { p with lastSeq := sq, inputs := p.inputs ++ [{ seq := sq, q := some k.1, pkt := k.2 }] }

theorem goInput_takes {k : Nat × Nat} {ctx : Nat} {fs : List Field} {s : State} {lid : Nat} {p : Prog}
    (hr : s.running? ctx fs = some (lid, p)) (hseq : p.lastSeq.toNat < (f2 fs 51 0).toNat)
    (hb : ∀ c ∈ inputContribs lid p (f2 fs 51 0) fs, p.brick? c.brick ≠ none) :
    goInput k ctx fs s = some (accepted
      (((inputContribs lid p (f2 fs 51 0) fs).foldl (State.send · (p.dieOf 0)) (withPayload s ctx fs)).updProg lid
        (recorded k (f2 fs 51 0)))) := by
  have hbrick : ((inputContribs lid p (f2 fs 51 0) fs).any fun c => (p.brick? c.brick).isNone) = false :=
    List.any_eq_false.2 fun c hc => by simpa using hb c hc
  simp only [goInput, hr, hbrick, if_neg (Nat.not_le.2 hseq), Bool.false_eq_true, if_false]
  rfl

theorem inputPost_acts (k : Nat × Nat) (ctx : Nat) (fs : List Field) (s : State) (lid : Nat) (p : Prog)
    (hr : s.running? ctx fs = some (lid, p)) (hseq : p.lastSeq.toNat < (f2 fs 51 0).toNat)
    (hb : ∀ c ∈ inputContribs lid p (f2 fs 51 0) fs, p.brick? c.brick ≠ none) : ∃ t, goInput k ctx fs s = some (accepted t) ∧
      t.contribs = s.contribs ++ inputContribs lid p (f2 fs 51 0) fs ∧ t.threads = s.threads ∧
      (fbody fs 52 = none → t.mem = s.mem ∧ t.order = s.order) ∧
      (∀ b, fbody fs 52 = some b →
        let w := s.fwWriteVa .system ctx (pair64 b 0).toNat (wordsToBytes (b.drop 2))
        t.mem = w.mem ∧ t.order = w.order) ∧
      ∃ q, t.prog lid = some q ∧ q.lastSeq = f2 fs 51 0 ∧
        q.inputs = p.inputs ++ [{ seq := f2 fs 51 0, q := some k.1, pkt := k.2 }] := by
  have hw := withPayload_written s ctx fs
  have hp : (withPayload s ctx fs).prog lid = some p := by
    rw [State.prog, launches_of_written hw]; exact prog_of_running? hr
  obtain ⟨hcs, ⟨b, hq⟩, hf⟩ := sends_foldl (p.dieOf 0) hp (inputContribs lid p (f2 fs 51 0) fs) inputContribs_prog
  refine ⟨_, goInput_takes hr hseq hb, ?_⟩
  generalize List.foldl _ _ _ = t at hcs hq hf
  have hmem : ∀ f, (t.updProg lid f).mem = (withPayload s ctx fs).mem := fun f => by
    show t.mem = _
    rw [hf]
  have hord : ∀ f, (t.updProg lid f).order = (withPayload s ctx fs).order := fun f => by
    show t.order = _
    rw [hf]
  refine ⟨?_, ?_, fun hn => ?_, fun c hc => ?_, ?_⟩
  · show t.contribs = _
    rw [hcs, show (withPayload s ctx fs).contribs = s.contribs by rw [hw]]
  · show t.threads = _
    rw [hf]
    exact hw.threads
  · rw [hmem, hord, withPayload, hn]
    exact ⟨rfl, rfl⟩
  · rw [hmem, hord, withPayload, hc]
    exact ⟨rfl, rfl⟩
  · exact ⟨_, (prog_updProg t lid lid _).trans (by rw [if_pos rfl, hq]; rfl), rfl, rfl⟩

/-! ## Contexts -/

theorem tget_terase {κ α : Type} [DecidableEq κ] (t : Tab κ α) (k j : κ) : tget (terase t k) j = if j = k then none else tget t j := by
  induction t with
  | nil => simp [terase, tget]
  | cons e t ih =>
    by_cases he : e.1 = k
    · rw [show terase (e :: t) k = terase t k from List.filter_cons_of_neg (by simp [he]), ih]
      split
      · rfl
      · next hj =>
        have hk : ¬ k = j := fun h => hj h.symm
        simp [tget, he, hk]
    · rw [show terase (e :: t) k = e :: terase t k from List.filter_cons_of_pos (by simp [he]), tget, tget, ih]
      by_cases hj : e.1 = j
      · have hk : ¬ j = k := fun h => he (hj.trans h)
        simp [hj, hk]
      · simp [hj]

/-- A context is gone, and what every die holds of it. -/
def destroyed (s : State) (ctx : Nat) : State :=
  let s := s.clearCounters ctx
  { s with contexts := terase s.contexts ctx, objs := s.objs.filter fun o => o.1.1 != ctx
           dies := s.dies.map fun d => d.scrub ctx
           inval := s.inval.map fun x => if x.ctx = ctx then { x with ticket := none } else x }

/-- CONTEXT_DESTROY: the context is gone, its counters start anew, and nothing else of these changes. -/
theorem goDestroy_acts (k : Nat × Nat) (q : Nat) (fs : List Field) (s : State) (hctx : tget s.contexts (f1 fs 90 0) ≠ none)
    (hidle : s.ctxBusy (f1 fs 90 0) = false) : ∃ t, goDestroy k q fs s = some (finished t) ∧
      tget t.contexts (f1 fs 90 0) = none ∧ (∀ c, c ≠ f1 fs 90 0 → tget t.contexts c = tget s.contexts c) ∧ t.threads = s.threads ∧
      t.mem = s.mem ∧ (∀ (i : Nat) (c : Counter), s.hubCtrs[i]? = some c → c.ctx.toNat = f1 fs 90 0 →
        t.hubCtrs[i]? = some ({ ctx := c.ctx } : Counter)) := by
  have hsome : (tget s.contexts (f1 fs 90 0)).isNone = false := by simpa [Option.isSome_iff_ne_none] using hctx
  refine ⟨destroyed s (f1 fs 90 0), ?_, ?_, fun c hc => ?_, rfl, rfl, fun i c hi hc => ?_⟩
  · simp only [goDestroy, hsome, hidle, Bool.false_eq_true, if_false]
    rfl
  · exact (tget_terase ..).trans (if_pos rfl)
  · exact (tget_terase ..).trans (if_neg hc)
  · show (Vector.map _ s.hubCtrs)[i]? = _
    rw [Vector.getElem?_map, hi]
    exact congrArg some (if_pos hc)

/-! ## Reports, R378 -/

/-- The signature of a report, drawn freely. -/
def signature (s : State) : List Byte := (List.range 2820).map fun i => Config.attest s.freeCtr (0 + i)

theorem goReport_acts (k : Nat × Nat) (ctx : Nat) (fs : List Field) (s : State) (h : f1 fs 120 0 = 0) :
    goReport k ctx fs s = some (finished
      (({ s with xmssLeaf := s.xmssLeaf + 1, freeCtr := s.freeCtr + 1 } : State).fwWriteVa .system ctx (f2 fs 122 0).toNat
        (wordsToBytes ((fbody fs 121).getD (List.replicate 8 0)) ++ s.imageDigests ++ natToBytes 32 s.devfeat.toNat ++
          natToBytes 32 s.drvfeat.toNat ++ natToBytes 4 (s.xmssLeaf + 1) ++ signature s))) := by
  rw [goReport, if_neg (not_not.2 h)]; rfl

/-! ## What each type does -/

theorem packetTypesAct : PacketTypesAct := by
  refine ⟨?_, ?_, ?_, inputPost_acts, ?_, ?_, ?_, goDestroy_acts, ?_, ?_, fun _ _ _ _ => rfl, ?_⟩
  · intro k ctx fs s hid
    rw [goLaunch, hid]; rfl
  · intro k ctx fs s p hid hp
    simp only [goStanding, hid, hp, Bool.false_eq_true, if_false]
    rfl
  · intro k ctx fs s lid p hr
    rw [goStop, hr]; rfl
  · intro k ctx fs s mask r hm hsk hdk heng
    have hkinds : ¬ (decide (1 < cSk r) || decide (1 < cDk r)) = true := by
      rw [decide_eq_false (Nat.not_lt.2 hsk), decide_eq_false (Nat.not_lt.2 hdk)]; decide
    simp only [goCopy, hm]
    exact (if_neg hkinds).trans (if_neg (Nat.not_lt.2 heng))
  · intro k ctx fs s mask n die id hm hn hb
    have hsome : ((s.die die).node? ctx id).isNone = false := by rw [hn]; rfl
    simp only [goSignal, hm]
    exact (if_neg (by rw [hsome]; exact Bool.false_ne_true)).trans (if_neg (by rw [hb]; exact Bool.false_ne_true))
  · intro k q fs s ctx c s' hlt hnone hok hta hsa new
    have hfree : (tget s.contexts ctx).isSome = false := by rw [hnone]; rfl
    have hgo : goCreate k q fs s = _ := (if_neg (Nat.not_le.2 hlt)).trans ((if_neg (by rw [hfree]; exact Bool.false_ne_true)).trans
      (if_neg (by rw [hok, hta, hsa]; decide)))
    refine ⟨fun hva => ?_, fun va code e hva himg => ?_⟩
    · rw [hgo, hva]; rfl
    · rw [hgo, hva]
      simp only
      rw [show State.trapImage _ ctx va = some (code, e) from himg]
      rfl
  · intro k ctx fs s lid p bs hr hes
    simp only [goIterate, hr, hes]
    rfl
  · intro k ctx fs s h
    have hw := fwWriteVa_onlyWritten ({ s with xmssLeaf := s.xmssLeaf + 1, freeCtr := s.freeCtr + 1 } : State) .system ctx
      (f2 fs 122 0).toNat (wordsToBytes ((fbody fs 121).getD (List.replicate 8 0)) ++ s.imageDigests ++ natToBytes 32 s.devfeat.toNat ++
          natToBytes 32 s.drvfeat.toNat ++ natToBytes 4 (s.xmssLeaf + 1) ++ signature s)
    exact ⟨_, signature s, _, goReport_acts k ctx fs s h, by simp [signature], rfl, by rw [hw], hw.threads⟩
  · intro k q fs s ctx es hctx hz
    have hsome : (tget s.contexts ctx).isNone = false := by simpa [Option.isSome_iff_ne_none] using hctx
    have hzero : (es.any fun c => c.getD 3 0 != 0) = false := List.any_eq_false.2 fun c hc => by
      rw [hz c hc]; decide
    exact (if_neg (by rw [hsome]; exact Bool.false_ne_true)).trans (if_neg (by rw [hzero]; exact Bool.false_ne_true))

/-! ## Pinning, R218 -/

/-- One change made of several dies, one after another. -/
theorem die_foldl_updDie (f : Die → Die) {l : List Nat} (hnd : l.Nodup) (hl : ∀ d ∈ l, d < 24) (s : State) (e : Nat) :
    (l.foldl (fun s d => s.updDie d f) s).die e = if e ∈ l then f (s.die e) else s.die e := by
  induction l generalizing s with
  | nil => simp
  | cons d l ih =>
    obtain ⟨hd, hnd⟩ := List.nodup_cons.1 hnd
    rw [List.foldl_cons, ih hnd fun x hx => hl x (List.mem_cons_of_mem _ hx), State.die_updDie _ _ _ _ (hl d List.mem_cons_self)]
    by_cases he : e = d
    · simp [he, hd]
    · simp [he]

/-- Changes of dies leave the rest of the state. -/
theorem foldl_updDie_frame (f : Nat → Die → Die) (l : List Nat) (s : State) :
    l.foldl (fun s d => s.updDie d (f d)) s = { s with dies := (l.foldl (fun s d => s.updDie d (f d)) s).dies } := by
  induction l generalizing s with
  | nil => rfl
  | cons d l ih => exact (ih (s.updDie d (f d))).trans rfl

theorem any_die {s : State} {d : Nat} (hd : d < 24) {P : Die → Bool} (h : P (s.die d) = true) : s.dies.toList.any P = true := by
  refine List.any_eq_true.2 ⟨s.die d, ?_, h⟩
  rw [State.die, vget, dif_pos hd]
  exact Vector.mem_toList_iff.2 (Vector.getElem_mem hd)

/-- A die without a session's pins and buffers. -/
def unpinnedDie (ctx : Nat) (x : DWord) (d : Die) : Die :=
  { d with pins := d.pins.filter fun p => !(p.session == x && p.ctx == ctx)
           bufs := d.bufs.filter fun b => !(b.2.ctx == ctx && b.2.session == some x) }

/-- One change of every die. -/
def everyDie (f : Die → Die) (s : State) : State := (List.range 24).foldl (fun s d => s.updDie d f) s

theorem die_everyDie (f : Die → Die) (s : State) {d : Nat} (hd : d < 24) : (everyDie f s).die d = f (s.die d) :=
  (die_foldl_updDie f List.nodup_range (fun _ => List.mem_range.1) s d).trans (if_pos (List.mem_range.2 hd))

theorem everyDie_frame (f : Die → Die) (s : State) : everyDie f s = { s with dies := (everyDie f s).dies } :=
  foldl_updDie_frame (fun _ => f) (List.range 24) s

theorem die_updCtx (s : State) (c : Nat) (f : Context → Context) (d : Nat) : (s.updCtx c f).die d = s.die d := rfl
theorem threads_updCtx (s : State) (c : Nat) (f : Context → Context) : (s.updCtx c f).threads = s.threads := rfl
theorem mem_updCtx (s : State) (c : Nat) (f : Context → Context) : (s.updCtx c f).mem = s.mem := rfl

/-- No die holds the session, nor its buffers, and none of them comes back to the context. -/
def unpinned (s : State) (ctx : Nat) (x : DWord) : State :=
  (everyDie (unpinnedDie ctx x) s).updCtx ctx fun c => { c with savedBufs := c.savedBufs.filter fun b => !(b.2.2.ctx == ctx && b.2.2.session == some x) }

theorem pinningAndUnpinning : PinningAndUnpinning := by
  refine ⟨?_, ?_⟩
  · intro k ctx fs s mask s' x rs dom onDie hm hlvl hids hpins hmake
    have hshape : ¬ ((rs.any fun r => r.lvl ≠ 2) || dom.any fun d => (onDie d).isEmpty || 8 < (onDie d).length) = true := by
      rw [Bool.or_eq_true, not_or, List.any_eq_true, List.any_eq_true]
      refine ⟨fun ⟨r, hr, hne⟩ => of_decide_eq_true hne (hlvl r hr), fun ⟨d, hd, hbad⟩ => ?_⟩
      obtain ⟨hne, hle⟩ := hids d hd
      rcases Bool.or_eq_true_iff.1 hbad with h | h
      · exact hne (List.isEmpty_iff.1 h)
      · exact absurd (of_decide_eq_true h) (Nat.not_lt.2 hle)
    have hbusy : ¬ (dom.any fun d => ((s.die d).pins.any fun p => p.session == x && p.ctx == ctx) ||
        4096 ≤ (s.die d).pins.length) = true := by
      rw [List.any_eq_true]
      rintro ⟨d, hd, hbad⟩
      obtain ⟨hnone, hlt⟩ := hpins d hd
      rcases Bool.or_eq_true_iff.1 hbad with h | h
      · obtain ⟨p, hp, he⟩ := List.any_eq_true.1 h
        exact hnone p hp (by simpa using he)
      · exact absurd (of_decide_eq_true h) (Nat.not_le.2 hlt)
    simp only [goPin, hm]
    refine (if_neg hshape).trans ((if_neg hbusy).trans ?_)
    rw [show State.makeBufs ctx 0 _ 0 _ _ [] _ s = .ok s' from hmake]
    rfl
  · intro k ctx fs s x hpin hlaunch
    obtain ⟨d, hd, p, hp, hmine⟩ := hpin
    have hhas : (s.dies.toList.any fun d => d.pins.any fun p => p.session == x && p.ctx == ctx) = true :=
      any_die hd (List.any_eq_true.2 ⟨p, hp, by simpa using hmine⟩)
    have hfree : (s.launches.any fun l => l.2.ctx == ctx && !l.2.ended && l.2.session == some x) = false :=
      List.any_eq_false.2 fun l hl => by simpa [and_assoc] using hlaunch l hl
    have hgo : goUnpin k ctx fs s = some (finished (unpinned s ctx x)) :=
      (if_neg (by rw [hhas]; decide)).trans (if_neg (by rw [hfree]; exact Bool.false_ne_true))
    have hframe := everyDie_frame (unpinnedDie ctx x) s
    refine ⟨_, hgo, fun d hd => ?_, ?_, ?_⟩
    · rw [unpinned, die_updCtx, die_everyDie _ _ hd]
      exact ⟨rfl, rfl⟩
    · rw [unpinned, threads_updCtx, hframe]
    · rw [unpinned, mem_updCtx, hframe]

/-- Settles O54: the effect of each type, and pinning. -/
theorem packetEffects : Obligations.PacketEffects := ⟨packetTypesAct, pinningAndUnpinning⟩

end Sys2Proof.Proofs.PacketTypes
end

section
/-! The host's interface: its queues, the submission latch, the registers, and its memory port. -/

namespace Sys2Proof.Proofs.HostPort

open Sys2Proof.Machine Sys2Proof.Claims Sys2Proof.Proofs.Control Sys2Proof.Proofs.Packets

theorem powered_on {s : State} (h : s.power = true) (f : State → State) : s.powered f = .next (f s) :=
  congrArg Host.Outcome.next (if_pos h)

/-! ## Queues, R365 and R367 -/

/-- A stopped queue: ERR is set, and its descriptor is written. -/
theorem stopQueue_written (s : State) (q : Nat) : OnlyWritten (s.setHq q fun h => { h with err := true }) (s.stopQueue q) := by
  simp only [State.stopQueue]
  split
  · exact hostWrite_onlyWritten ..
  · rfl

theorem hqueue_stopQueue (s : State) (q k : Nat) :
    (s.stopQueue q).hqueue k = if k = q then { s.hqueue q with err := true } else s.hqueue k :=
  (hqueue_of_written (stopQueue_written s q) k).trans (hqueue_setHq s q k _)

/-- A queue's tail is applied: nothing where it does not exceed the queue's, a stop where it lies too far on, else the new tail. -/
theorem applyTail_eq {s : State} {q tail : Nat} {d : QDesc} (hlt : (s.hqueue q).tail < tail) (hd : s.qdesc q = some d) :
    s.applyTail q tail = if (s.hqueue q).rd + 2 ^ d.log < tail then s.stopQueue q else s.setHq q fun h => { h with tail := tail } := by
  simp only [State.applyTail, hd, if_neg (Nat.not_le.2 hlt)]

/-- What applying tails leaves as it was. -/
structure TailFrame (s t : State) : Prop where
  threads : t.threads = s.threads
  latch : t.latch = s.latch

theorem TailFrame.refl (s : State) : TailFrame s s := ⟨rfl, rfl⟩
theorem TailFrame.trans {s t u : State} (h : TailFrame s t) (k : TailFrame t u) : TailFrame s u :=
  ⟨k.threads.trans h.threads, k.latch.trans h.latch⟩

theorem setHq_tailFrame (s : State) (q : Nat) (f : HQueue → HQueue) : TailFrame s (s.setHq q f) := ⟨rfl, rfl⟩
theorem tailFrame_of_written {s t : State} (h : OnlyWritten s t) : TailFrame s t := ⟨h.threads, by rw [h]⟩

theorem applyTail_frame (s : State) (q tail : Nat) : TailFrame s (s.applyTail q tail) := by
  simp only [State.applyTail]
  split
  · exact .refl s
  · split
    · exact .refl s
    · split
      · exact (setHq_tailFrame ..).trans (tailFrame_of_written (stopQueue_written s q))
      · exact setHq_tailFrame ..

/-- A rescan of one descriptor. -/
def rescan (s : State) (q : Nat) : State :=
  match s.qdesc q with
  | some d => if d.en then s.applyTail q d.tail else s
  | none => s

theorem rescan_frame (l : List Nat) (s : State) : TailFrame s (l.foldl rescan s) := by
  induction l generalizing s with
  | nil => exact .refl s
  | cons q l ih =>
    refine TailFrame.trans (t := rescan s q) ?_ (ih _)
    rw [rescan]
    split
    · split
      · exact applyTail_frame ..
      · exact .refl s
    · exact .refl s

/-- The state after a rescan of the descriptors of a list. -/
def rescanned (l : List Nat) (s : State) : State := { l.foldl rescan s with lovf := false }

theorem rescanned_frame (l : List Nat) (s : State) :
    (let r : State := l.foldl (fun (s : State) q => match s.qdesc q with
        | some d => if d.en then s.applyTail q d.tail else s
        | none => s) s
     rescanned l s = { r with lovf := false }) ∧
    (rescanned l s).lovf = false ∧ (rescanned l s).threads = s.threads ∧ (rescanned l s).latch = s.latch :=
  ⟨rfl, rfl, (rescan_frame l s).threads, (rescan_frame l s).latch⟩

theorem tailRescan_eq {s : State} (hr : s.running = true) (hl : s.lovf = true) :
    exec .tailRescan s = .next (rescanned (List.range 65536) s) := by
  show execTailRescan s = _
  rw [execTailRescan, if_pos (by rw [hr, hl]; rfl)]
  rfl

/-- Settles O55: each event of the queues and the registers, by its checks. -/
theorem hostInterface : Obligations.HostInterface := by
  refine ⟨?_, ?_, ?_, ?_, ?_, ?_⟩
  · intro s q tail l hr hl
    show execLatchEntry s = _
    simp only [execLatchEntry, hr, hl]
  · intro s q tail
    refine ⟨fun h => if_pos h, fun d hlt hd => ⟨fun hfar => ?_, fun hnear => ?_⟩⟩
    · rw [applyTail_eq hlt hd, if_pos hfar]
    · rw [applyTail_eq hlt hd, if_neg (Nat.not_lt.2 hnear)]
      have hq := hqueue_setHq s q
      refine ⟨?_, ?_, rfl, fun k hk => ?_⟩
      · rw [hq, if_pos rfl]
      · rw [hq, if_pos rfl]
      · rw [hq, if_neg hk]
  · intro s hr hl
    exact ⟨_, tailRescan_eq hr hl, rescanned_frame _ s⟩
  · intro s q hq
    have hk := hqueue_stopQueue s q
    refine ⟨s.stopQueue q, ?_, rfl, ?_, ?_, fun k hne => ?_⟩
    · show execQueueStop s = _
      simp only [execQueueStop, hq]
    · rw [hk, if_pos rfl]
    · rw [hk, if_pos rfl]
    · rw [hk, if_neg hne]
  · intro s hp hleaf
    refine congrArg Host.Outcome.next (if_neg ?_)
    rw [hp, decide_eq_false (Nat.not_lt.2 hleaf)]; decide
  · intro s hp
    refine ⟨fun h => ?_, fun h => ?_, ?_, fun hq => ?_, fun hq => ?_, fun hq => ?_, fun hq hroom => ?_, fun hq hfull => ?_⟩
    · exact (show execInval s = _ from powered_on hp _).trans (congrArg Host.Outcome.next (if_pos h))
    · exact (show execInval s = _ from powered_on hp _).trans (congrArg Host.Outcome.next (if_neg (by rw [h]; exact Bool.false_ne_true)))
    · refine ⟨{ s with drvfeat := _ }, show execDrvfeat s = _ from powered_on hp _, rfl, fun hc => ?_, fun hc => ?_⟩
      · exact if_pos (List.isEmpty_iff.2 hc)
      · exact if_neg fun h => hc (List.isEmpty_iff.1 h)
    · show execRegisterWrite s = _
      rw [execRegisterWrite, powered_on hp]
      simp only [hq]
    · show execRegisterWrite s = _
      rw [execRegisterWrite, powered_on hp]
      simp only [hq]
    · show execRegisterWrite s = _
      rw [execRegisterWrite, powered_on hp]
      simp only [hq]
    · exact (show execSubmissionWrite s = _ from powered_on hp _).trans
        (congrArg Host.Outcome.next ((if_neg (Nat.not_le.2 hq)).trans (if_neg (Nat.not_le.2 hroom))))
    · refine ⟨{ s with lovf := true }.countHub 0x601 none, (show execSubmissionWrite s = _ from powered_on hp _).trans ?_, rfl, rfl⟩
      exact congrArg Host.Outcome.next ((if_neg (Nat.not_le.2 hq)).trans (if_pos hfull))

/-! ## The host's memory port, R262 and R375 -/

theorem flatten_pieces (l : List Nat) : (pieces l).flatten = l := by
  induction l with
  | nil => rfl
  | cons a l ih =>
    rw [pieces]
    split
    · next x xs ps h =>
      rw [h] at ih
      split
      · rw [List.flatten_cons, List.cons_append, ← List.flatten_cons, ih]
      · rw [List.flatten_cons, ih]; rfl
    · rw [List.flatten_cons, ih]; rfl

theorem length_readPieces (stg : List Staged) (a : Acq) (t : Option TRef) (at_ : At) (ctx : Nat) (ps : List (List Nat)) (s : State) :
    (s.readPieces stg a t at_ ctx ps).1.length = ps.flatten.length := by
  induction ps generalizing s with
  | nil => rfl
  | cons p ps ih =>
    show (_ ++ (State.readPieces _ stg a t at_ ctx ps).1).length = _
    rw [List.length_append, ih, List.flatten_cons, List.length_append]
    exact congrArg (· + _) (List.length_map _)

/-- What a host's write leaves as it was. -/
structure HostFrame (s t : State) : Prop where
  threads : t.threads = s.threads
  launches : t.launches = s.launches

theorem HostFrame.refl (s : State) : HostFrame s s := ⟨rfl, rfl⟩
theorem HostFrame.trans {s t u : State} (h : HostFrame s t) (k : HostFrame t u) : HostFrame s u :=
  ⟨k.threads.trans h.threads, k.launches.trans h.launches⟩

theorem HostFrame.foldl {α : Type} {f : State → α → State} (hf : ∀ s a, HostFrame s (f s a)) (l : List α) (s : State) :
    HostFrame s (l.foldl f s) := by
  induction l generalizing s with
  | nil => exact .refl s
  | cons a l ih => exact (hf s a).trans (ih _)

theorem hostPut_frame (s : State) (a : Nat) (bs : List Byte) : HostFrame s (s.hostPut a bs) := by
  have hunload : ∀ locs, HostFrame s (s.unload locs) := fun locs => by
    rw [State.unload]
    split
    · exact ⟨rfl, rfl⟩
    · exact .refl s
  exact (hunload _).trans (.foldl (f := fun (s : State) p => s.hostEnter _) (fun _ _ => ⟨rfl, rfl⟩) _ _)

theorem resumeQueues_frame (s : State) (a n : Nat) : HostFrame s (s.resumeQueues a n) := by
  refine .foldl (fun s q => ?_) _ s
  split
  · split
    · exact .refl s
    · exact ⟨rfl, rfl⟩
  · exact .refl s

/-- Settles O60: reads, writes and snoops of the host. -/
theorem hostMemoryPortServes : Obligations.HostMemoryPortServes := by
  intro s hp
  refine ⟨fun hn => ?_, fun ls hls => ?_, ?_, show execHostSnoop s = _ from powered_on hp _⟩
  · show execHostMemRead s = _
    rw [execHostMemRead, powered_on hp]
    simp only [hn]
  · intro a r
    have hd : OnlyDrawn a.2 r.2 := readPieces_onlyDrawn ..
    refine ⟨{ r.2 with hostRd := some r.1 }, ?_, rfl, ?_, rfl, ?_, ?_, ?_, ?_, ?_⟩
    · show execHostMemRead s = _
      rw [execHostMemRead, powered_on hp]
      simp only [hls]
      rfl
    · rw [length_readPieces, flatten_pieces]
    · show tget r.2.agentAcq .host = _
      rw [hd]
      show tget (tset s.agentAcq .host a.1) .host = _
      rw [tget_tset, if_pos rfl]
    · show r.2.mem = _
      rw [hd]; rfl
    · show r.2.order = _
      rw [hd]; rfl
    · show r.2.threads = _
      rw [hd]; rfl
    · show r.2.launches = _
      rw [hd]; rfl
  · have hframe := (hostPut_frame s s.ext.off s.ext.bytes).trans
      (resumeQueues_frame (s.hostPut s.ext.off s.ext.bytes) s.ext.off s.ext.bytes.length)
    exact ⟨_, show execHostMemWrite s = _ from powered_on hp _, rfl, hframe.threads, hframe.launches⟩

end Sys2Proof.Proofs.HostPort
end

section
/-! Trap entry (R332): the record is written into the slot, and the thread enters the image at level 1. -/

namespace Sys2Proof.Proofs.TrapEntry

open Sys2Proof.Machine Sys2Proof.Claims Sys2Proof.Proofs.Control Sys2Proof.Proofs.Packets

theorem writeRecord_written (s : State) (t : TRef) (slot : Nat) (r : TrapRec) : OnlyWritten s (s.writeRecord t slot r) := by
  simp only [State.writeRecord]
  split
  · refine OnlyWritten.trans (t := State.tagCtx _ _ _) (OnlyWritten.trans (t := State.enter _ _ _ _ _ _ _) ?_
      (tagCtx_onlyWritten ..)) rfl
    rfl
  · rfl

/-- The state in which the record is written and the slot is taken. -/
def slotTaken (s : State) (t : TRef) (slot : Nat) (r : TrapRec) : State :=
  (s.writeRecord t slot { r with tseq := (s.thr t).tseq + 1 }).updCtx (s.ctxOf t) fun c => { c with slots := c.slots ++ [slot] }

/-- The thread at the handler's entry. -/
def atEntry (s : State) (t : TRef) (slot : Nat) (r : TrapRec) (th : Thread) : Thread :=
  { th with
    trap := none, handling := some { r with tseq := (s.thr t).tseq + 1 }, slot := some slot, tseq := (s.thr t).tseq + 1, level := 1
    bank := { w63 := (s.ctx (s.ctxOf t)).trapBase + BitVec.ofNat 64 (16384 * slot + 16384) }, pc := (s.launchOf t).trapEntry }

theorem slotTaken_threads (s : State) (t : TRef) (slot : Nat) (r : TrapRec) : (slotTaken s t slot r).threads = s.threads := by
  rw [slotTaken, PacketTypes.threads_updCtx]
  exact (writeRecord_written ..).threads

theorem launches_updCtx (s : State) (c : Nat) (f : Context → Context) : (s.updCtx c f).launches = s.launches := rfl

theorem slotTaken_launches (s : State) (t : TRef) (slot : Nat) (r : TrapRec) : (slotTaken s t slot r).launches = s.launches := by
  rw [slotTaken, launches_updCtx]
  exact launches_of_written (writeRecord_written ..)

theorem slotTaken_ctx {s : State} {t : TRef} (slot : Nat) (r : TrapRec) (h : s.ctxOf t ∈ tkeys s.contexts) :
    (slotTaken s t slot r).ctx (s.ctxOf t) = { s.ctx (s.ctxOf t) with slots := (s.ctx (s.ctxOf t)).slots ++ [slot] } := by
  have hw := writeRecord_written s t slot { r with tseq := (s.thr t).tseq + 1 }
  have hc : (s.writeRecord t slot { r with tseq := (s.thr t).tseq + 1 }).contexts = s.contexts := by rw [hw]
  rw [slotTaken, TrapReturn.ctx_updCtx_self _ _ (by rw [hc]; exact h)]
  simp only [State.ctx, hc]

theorem enterHandler_eq {s : State} {t : TRef} {slot : Nat} (r : TrapRec) (h : s.ctxOf t ∈ tkeys s.contexts) :
    s.enterHandler t slot r = ((slotTaken s t slot r).countT t 0x500 1).updThr t (atEntry s t slot r) := by
  have hl : (slotTaken s t slot r).launchOf t = s.launchOf t := by
    simp only [State.launchOf, State.launch, slotTaken_launches]
  have hctx : (slotTaken s t slot r).ctxOf t = s.ctxOf t := congrArg Launch.ctx hl
  have hbank : (slotTaken s t slot r).entryBank t slot =
      { w63 := (s.ctx (s.ctxOf t)).trapBase + BitVec.ofNat 64 (16384 * slot + 16384) } := by
    rw [State.entryBank, hctx, slotTaken_ctx slot r h]
  have hunfold : s.enterHandler t slot r = ((slotTaken s t slot r).countT t 0x500 1).updThr t fun th =>
      { th with
        trap := none, handling := some { r with tseq := (s.thr t).tseq + 1 }, slot := some slot, tseq := (s.thr t).tseq + 1
        level := 1, bank := (slotTaken s t slot r).entryBank t slot, pc := ((slotTaken s t slot r).launchOf t).trapEntry } := rfl
  rw [hunfold, hbank, hl]
  rfl

theorem threads_countT (s : State) (t : TRef) (src n : Nat) : (s.countT t src n).threads = s.threads := rfl
theorem ctx_countT (s : State) (t : TRef) (src n c : Nat) : (s.countT t src n).ctx c = s.ctx c := rfl

section

variable {s : State} {t : TRef} {slot : Nat} (r : TrapRec)

/-- None of R334's other ways applies, so the handler is entered. -/
theorem takeTrap_enters (htrap : (s.thr t).trap = some r) (hlevel : (s.thr t).level = 0) (hafoot : s.afoot t = true)
    (himg : (s.launchOf t).trapCode.isSome = true) (hpend : s.pendingOf t = false)
    (hslot : (s.ctx (s.ctxOf t)).freeSlot = some slot) : s.takeTrap t = s.enterHandler t slot r := by
  have hcode : (s.launchOf t).trapCode.isNone = false := by rw [← Option.not_isSome, himg]; rfl
  simp only [State.takeTrap, htrap, hafoot, hlevel, hpend, hslot, hcode, Bool.not_true, Bool.false_eq_true, if_false,
    ne_eq, not_true_eq_false]

variable (hctx : s.ctxOf t ∈ tkeys s.contexts)
include hctx

theorem thr_enterHandler (ht : t ∈ tkeys s.threads) (u : TRef) :
    (s.enterHandler t slot r).thr u = if u = t then atEntry s t slot r (s.thr t) else s.thr u := by
  have hthreads : ((slotTaken s t slot r).countT t 0x500 1).threads = s.threads := by
    rw [threads_countT, slotTaken_threads]
  rw [enterHandler_eq r hctx, State.thr_updThr _ _ _ _ (by rw [hthreads]; exact ht)]
  simp only [State.thr, hthreads]

theorem slots_enterHandler : ((s.enterHandler t slot r).ctx (s.ctxOf t)).slots = (s.ctx (s.ctxOf t)).slots ++ [slot] := by
  rw [enterHandler_eq r hctx, TrapReturn.ctx_updThr, ctx_countT, slotTaken_ctx slot r hctx]

end

/-- Settles O15: the handler is entered, and the thread is as its entry says. -/
theorem trapEntrySavesAndEnters : Obligations.TrapEntrySavesAndEnters := by
  intro s t r slot ht hctx htrap hlevel hafoot himg hpend hslot e
  have he : e = s.enterHandler t slot r := takeTrap_enters r htrap hlevel hafoot himg hpend hslot
  have hthr := thr_enterHandler (slot := slot) r hctx ht
  have hslots := slots_enterHandler (slot := slot) r hctx
  rw [← he] at hthr hslots
  have hself : e.thr t = atEntry s t slot r (s.thr t) := (hthr t).trans (if_pos rfl)
  have hexec : exec (.trapEntry t) s = .next e.settle := rfl
  clear_value e
  refine ⟨hexec, ?_⟩
  rw [hself, hslots]
  exact ⟨rfl, rfl, rfl, rfl, rfl, rfl, rfl, rfl, rfl, rfl, rfl, List.mem_append_right _ List.mem_cons_self, fun u hu =>
    (hthr u).trans (if_neg hu)⟩

end Sys2Proof.Proofs.TrapEntry
end

section
/-! Links and the debugger: frames and their acknowledgements, halts, and writes to a halted thread's registers. -/

namespace Sys2Proof.Proofs.Links

open Sys2Proof.Machine Sys2Proof.Claims Sys2Proof.Proofs.HostPort

/-! ## Gwetin Link, R264 and R376 -/

theorem mem_keepFrames {s : State} {keep : Frame → Bool} {x : Nat × Flow} (hx : x ∈ (s.keepFrames keep).flows) {f : Frame}
    (hf : f ∈ x.2.sent) : keep f = true := by
  obtain ⟨y, -, rfl⟩ := List.mem_map.1 hx
  exact (List.mem_filter.1 hf).2

theorem mem_mapCmds {s : State} {f : Cmd → Cmd} {d : Nat} (hd : d < 24) {q : List Cmd} (hq : q ∈ ((s.mapCmds f).die d).copyQ)
    {c : Cmd} (hc : c ∈ q) : ∃ c', c = f c' := by
  have hdie : (s.mapCmds f).die d = { s.die d with copyQ := (s.die d).copyQ.map fun q => q.map f } := by
    simp [State.die, State.mapCmds, vget, hd]
  rw [hdie] at hq
  obtain ⟨q', -, rfl⟩ := Vector.mem_map.1 hq
  obtain ⟨c', -, rfl⟩ := List.mem_map.1 hc
  exact ⟨c', rfl⟩

theorem failFrames_threads (s : State) (bad : Nat × Nat → Bool) : (s.failFrames bad).threads = s.threads := rfl
theorem failFrames_mem (s : State) (bad : Nat × Nat → Bool) : (s.failFrames bad).mem = s.mem := rfl
theorem failFrames_linksDown (s : State) (bad : Nat × Nat → Bool) : (s.failFrames bad).linksDown = s.linksDown := rfl

/-- A failed link joins the ones that are down; no thread and no byte of memory changes. -/
theorem linkFail_fails {s : State} (hp : s.power = true) (hl : s.ext.link ∉ s.linksDown) : ∃ t, exec .linkFail s = .next t ∧
    t.linksDown = s.linksDown ++ [s.ext.link] ∧ t.threads = s.threads ∧ t.mem = s.mem := by
  have hdown : s.linksDown.contains s.ext.link = false := by simpa using hl
  have hexec : exec .linkFail s = _ := (show execLinkFail s = _ from powered_on hp _).trans
    (congrArg Host.Outcome.next (if_neg (by rw [hdown]; exact Bool.false_ne_true)))
  by_cases hpeer : 12 ≤ s.ext.link
  · exact ⟨_, hexec.trans (congrArg Host.Outcome.next (if_pos hpeer)), rfl, rfl, rfl⟩
  · exact ⟨_, hexec.trans (congrArg Host.Outcome.next (if_neg hpeer)), failFrames_linksDown .., failFrames_threads ..,
      failFrames_mem ..⟩

theorem resend_eq {s : State} {flow : Nat} {x : Flow} (h : tget s.flows flow = some x) :
    s.resend flow = { s with linkOut := s.linkOut ++ x.sent, linkResends := s.linkResends + 1 } := by
  rw [State.resend, h]; rfl

theorem linkEvents : LinkEvents := by
  intro s hp
  refine ⟨fun t ht => ?_, fun ht => ?_, ?_, fun hok => ?_, fun x hx hok => ?_, fun x hx hne => ?_, ?_, linkFail_fails hp⟩
  · show execPeerDataFrame s = _
    rw [execPeerDataFrame, powered_on hp]
    simp only [ht]
  · show execPeerDataFrame s = _
    rw [execPeerDataFrame, powered_on hp]
    simp only [ht]
  · refine ⟨_, show execPeerAck s = _ from powered_on hp _, fun x hx f hf => ?_, fun d hd q hq c hc => ?_, rfl, rfl⟩
    · have hx' : x ∈ (s.keepFrames fun f => (f.flow, f.seq) != (s.ext.flow, s.ext.seq)).flows := hx
      exact bne_iff_ne.1 (mem_keepFrames hx' hf)
    · obtain ⟨c', rfl⟩ := mem_mapCmds hd hq hc
      simp
  · exact (show execPeerNak s = _ from powered_on hp _).trans (congrArg Host.Outcome.next (if_pos hok))
  · refine (show execPeerNak s = _ from powered_on hp _).trans (congrArg Host.Outcome.next ?_)
    exact (if_neg (by rw [hok]; exact Bool.false_ne_true)).trans (resend_eq hx)
  · refine (show execPeerResendTimeout s = _ from powered_on hp _).trans (congrArg Host.Outcome.next ?_)
    exact (if_neg (by rw [hx]; simpa using hne)).trans (resend_eq hx)
  · exact (show execFlitCrcFail s = _ from powered_on hp _)

/-! ## The debugger, R285 to R287 -/

/-- A write to a register of a halted thread: the outcome, and the register where it is accepted. -/
theorem debugWrite_acts {s : State} (hp : s.power = true) (hh : (s.thr s.ext.thread).halted = true)
    (ht : s.ext.thread ∈ tkeys s.threads) : ∃ t, exec .debugWrite s = .next t ∧
      t.dbgOut = s.debugOutcome s.ext.thread s.ext.reg ∧
      t.threads = (if s.debugOutcome s.ext.thread s.ext.reg = 3 then
        s.updThr s.ext.thread fun th => debugSet th s.ext.reg s.ext.word else s).threads ∧ t.waves = s.waves ∧ t.mem = s.mem := by
  have hkey : (tget s.threads s.ext.thread).isNone = false := by
    rw [← Option.not_isSome, (tget_isSome _ _).2 ht]; rfl
  refine ⟨_, (show execDebugWrite s = _ from powered_on hp _).trans (congrArg Host.Outcome.next
    (if_neg (by rw [hh, hkey]; decide))), ?_⟩
  by_cases ho : s.debugOutcome s.ext.thread s.ext.reg = 3
  · rw [if_pos ho, if_pos ho]
    exact ⟨rfl, rfl, rfl, rfl⟩
  · rw [if_neg ho, if_neg ho]
    exact ⟨rfl, rfl, rfl, rfl⟩

theorem thr_ite_updThr {s : State} {t : TRef} (c : Prop) [Decidable c] (f : Thread → Thread) (ht : t ∈ tkeys s.threads) {x : State}
    (hx : x.threads = (if c then s.updThr t f else s).threads) :
    x.thr t = (if c then f (s.thr t) else s.thr t) ∧ ∀ u, u ≠ t → x.thr u = s.thr u := by
  have hthr : ∀ u, x.thr u = (if c then s.updThr t f else s).thr u := fun u => by simp only [State.thr, hx]
  by_cases hc : c
  · simp only [if_pos hc] at hthr ⊢
    exact ⟨(hthr t).trans ((State.thr_updThr _ _ _ _ ht).trans (if_pos rfl)), fun u hu => (hthr u).trans (State.thr_updThr_ne _ _ hu)⟩
  · simp only [if_neg hc] at hthr ⊢
    exact ⟨hthr t, fun u _ => hthr u⟩

theorem debugOutcome_p (s : State) (u : TRef) (k : Nat) : s.debugOutcome u (.p k) = if 1 ≤ k ∧ k ≤ 7 then 3 else 2 := by
  simp [State.debugOutcome]

theorem debugOutcome_v (s : State) (u : TRef) (n : Nat) : s.debugOutcome u (.v n) =
    if (s.awaited u ++ s.popDst u).any (fun x => overlaps n 1 x.1 x.2) then 1
    else if n < 128 && allocated (s.thr u).level (s.wave u).c n then 3 else 2 := rfl

theorem debuggerActs : DebuggerActs := by
  intro s hp
  refine ⟨show execHalt s = _ from powered_on hp _, show execDebugResume s = _ from powered_on hp _, fun lid inst hb => ?_, fun n hr hh ht => ?_, fun u n hfree => ?_, fun u n x hx ho => ?_,
    fun k hr hh ht => ?_, fun n hr hh ht => ?_, ?_⟩
  · exact if_neg (by rw [hb]; exact Bool.false_ne_true)
  · obtain ⟨t, hexec, hout, hthr, -, hmem⟩ := debugWrite_acts hp hh ht
    obtain ⟨hself, hother⟩ := thr_ite_updThr _ _ ht hthr
    rw [hr] at hout hself
    exact ⟨t, hexec, hout, hself, hother, hmem⟩
  · rw [debugOutcome_v, List.any_eq_false.2 fun x hx => by rw [hfree x hx]; exact Bool.false_ne_true]
    rfl
  · rw [debugOutcome_v, List.any_eq_true.2 ⟨x, hx, ho⟩]
    rfl
  · obtain ⟨t, hexec, hout, hthr, hwaves, hmem⟩ := debugWrite_acts hp hh ht
    obtain ⟨hself, hother⟩ := thr_ite_updThr _ _ ht hthr
    rw [hr, debugOutcome_p] at hout hself
    refine ⟨t, hexec, hout, hself.trans ?_, hother, hwaves, hmem⟩
    by_cases hk : 1 ≤ k ∧ k ≤ 7
    · simp only [if_pos hk]; rfl
    · simp only [if_neg hk]; rfl
  · obtain ⟨t, hexec, hout, hthr, hwaves, hmem⟩ := debugWrite_acts hp hh ht
    rw [hr] at hout hthr
    exact ⟨t, hexec, hout, hthr, hwaves, hmem⟩
  · intro ts hall
    refine (show execDrain s = _ from powered_on hp _).trans (congrArg Host.Outcome.next (if_neg ?_))
    rw [List.all_eq_true.2 hall]
    decide

/-- Settles O57: the links, and the debugger's acts. -/
theorem linksAndDebugger : Obligations.LinksAndDebugger := ⟨linkEvents, debuggerActs⟩

end Sys2Proof.Proofs.Links
end

section
/-! Power, firmware and live service. -/

namespace Sys2Proof.Proofs.Service

open Sys2Proof.Machine Sys2Proof.Claims Sys2Proof.Proofs.HostPort Sys2Proof.Proofs.Checks

/-! ## Fuses, R2 -/

/-- The sites of a list marked one after another. -/
theorem getLsbD_foldl_mark (l : List Nat) (y : BitVec 36) {j : Nat} (hj : j < 36) :
    (l.foldl (fun y i => y ||| (1#36 <<< i)) y).getLsbD j = true ↔ y.getLsbD j = true ∨ j ∈ l := by
  induction l generalizing y with
  | nil => simp
  | cons i l ih =>
    rw [List.foldl_cons, ih, BitVec.getLsbD_or, BitVec.getLsbD_shiftLeft, Bool.or_eq_true, List.mem_cons, or_assoc]
    refine or_congr_right (or_congr_left ?_)
    simp only [hj, decide_true, Bool.true_and, Bool.and_eq_true, Bool.not_eq_true', decide_eq_false_iff_not, BitVec.getLsbD_one,
      decide_eq_true_eq]
    omega

/-- At most three sites are fused, so 33 are left. -/
theorem sites_bootDie (i : Nat) : 33 ≤ (bootDie i).sites.length := by
  set fused := ((List.range 36).filter (Config.fuses i).getLsbD).take 3 with hfused
  have hbit : ∀ j < 36, (bootDie i).harvest.getLsbD j = true ↔ j ∈ fused := fun j hj =>
    (getLsbD_foldl_mark fused 0 hj).trans (by simp)
  have hsites : (bootDie i).sites = (List.range 36).filter fun j => !(bootDie i).harvest.getLsbD j :=
    List.filter_congr fun j _ => by simp [bootDie]
  have hcount : ((List.range 36).filter fun j => (bootDie i).harvest.getLsbD j).length ≤ fused.length := by
    refine (List.nodup_range.filter _).subperm (fun j hj => ?_) |>.length_le
    obtain ⟨hr, hb⟩ := List.mem_filter.1 hj
    exact (hbit j (List.mem_range.1 hr)).1 hb
  have hlen : fused.length ≤ 3 := List.length_take_le ..
  have hsum := List.length_eq_length_filter_add (l := List.range 36) fun j => (bootDie i).harvest.getLsbD j
  rw [List.length_range] at hsum
  rw [hsites]
  omega

/-! ## Memory with cells taken away or moved -/

theorem memGet_filter (p : Nat → Bool) (m : List Host.Cell) (a : Nat) :
    memGet (m.filter fun c => p c.1) a = if p a then memGet m a else unlisted := by
  have h : cellGet (m.filter fun c => p c.1) a = if p a then cellGet m a else none := by
    induction m with
    | nil => simp [cellGet]
    | cons c m ih =>
      by_cases hc : p c.1
      · rw [List.filter_cons_of_pos (p := fun c : Host.Cell => p c.1) hc, cellGet, cellGet, ih]
        by_cases ha : c.1 = a
        · rw [if_pos ha, if_pos ha, if_pos (ha ▸ hc)]
        · rw [if_neg ha, if_neg ha]
      · rw [List.filter_cons_of_neg (p := fun c : Host.Cell => p c.1) hc, ih, cellGet]
        by_cases ha : c.1 = a
        · rw [if_neg (ha ▸ hc), if_neg (ha ▸ hc)]
        · rw [if_neg ha]
  rw [memGet, h]
  split
  · rfl
  · rfl

theorem cellGet_mem {m : List Host.Cell} {a : Nat} {v : Byte} (h : cellGet m a = some v) : (a, v) ∈ m := by
  induction m with
  | nil => exact nomatch h
  | cons c m ih =>
    rw [cellGet] at h
    split at h
    · next hc =>
      obtain rfl := Option.some.inj h
      exact List.mem_cons.2 (.inl (by rw [← hc]))
    · exact List.mem_cons_of_mem _ (ih h)

theorem cellGet_of_mem {m : List Host.Cell} (hm : m.Pairwise fun x y => x.1 < y.1) {a : Nat} {v : Byte} (h : (a, v) ∈ m) :
    cellGet m a = some v := by
  induction m with
  | nil => exact absurd h List.not_mem_nil
  | cons c m ih =>
    obtain ⟨hc, hm⟩ := List.pairwise_cons.1 hm
    rw [cellGet]
    rcases List.mem_cons.1 h with h | h
    · rw [← h, if_pos rfl]
    · rw [if_neg (Nat.ne_of_lt (hc _ h)), ih hm h]

/-- A write in which every byte of an address agrees is read back. -/
theorem memGet_memSetAll_agree {bs : List (Nat × Byte)} {a : Nat} {v : Byte} (m : List Host.Cell) (hmem : (a, v) ∈ bs)
    (hall : ∀ c ∈ bs, c.1 = a → c.2 = v) : memGet (memSetAll m bs) a = v := by
  induction bs generalizing m with
  | nil => exact absurd hmem List.not_mem_nil
  | cons c bs ih =>
    obtain ⟨k, x⟩ := c
    rw [memSetAll]
    by_cases hin : (a, v) ∈ bs
    · exact ih _ hin fun c hc => hall c (List.mem_cons_of_mem _ hc)
    · obtain ⟨rfl, rfl⟩ := Prod.mk.inj ((List.mem_cons.1 hmem).resolve_right hin)
      have hother : a ∉ bs.map Prod.fst := fun h => by
        obtain ⟨c, hc, rfl⟩ := List.mem_map.1 h
        exact hin (by rw [← hall c (List.mem_cons_of_mem _ hc) rfl]; exact hc)
      rw [memGet_memSetAll_any _ _ _ hother, memGet_memSet_any, if_pos rfl]

/-- R379: the bytes of a page lie where its new page is, and no other byte outside the two pages changes. -/
theorem memGet_movePage {m : List Host.Cell} {pa newPa : Nat} (hwf : Memory.wf m) (hpa : pa % 65536 = 0)
    (hnew : newPa % 65536 = 0) : (∀ k, k < 65536 → memGet (movePage m pa newPa) (newPa + k) = memGet m (pa + k)) ∧
      ∀ a, a / 65536 * 65536 ≠ pa → a / 65536 * 65536 ≠ newPa → memGet (movePage m pa newPa) a = memGet m a := by
  set rest := m.filter fun c => !(c.1 / 65536 * 65536 == pa) && !(c.1 / 65536 * 65536 == newPa) with hrest
  set moved := (m.filter fun c => c.1 / 65536 * 65536 == pa).map fun c => (movedLoc pa newPa c.1, c.2) with hmoved
  have hmove : movePage m pa newPa = memSetAll rest moved := rfl
  have hget : ∀ a, memGet rest a = if !(a / 65536 * 65536 == pa) && !(a / 65536 * 65536 == newPa) then memGet m a else unlisted :=
    memGet_filter (fun a => !(a / 65536 * 65536 == pa) && !(a / 65536 * 65536 == newPa)) m
  have hin : ∀ c ∈ moved, ∃ d ∈ m, d.1 / 65536 * 65536 = pa ∧ c = (newPa + d.1 % 65536, d.2) := fun c hc => by
    obtain ⟨d, hd, rfl⟩ := List.mem_map.1 hc
    obtain ⟨hm, hp⟩ := List.mem_filter.1 hd
    have hp := eq_of_beq hp
    exact ⟨d, hm, hp, by rw [movedLoc, if_pos hp]⟩
  have hcell : ∀ d ∈ m, cellGet m d.1 = some d.2 := fun d hd => cellGet_of_mem hwf.1 hd
  rw [hmove]
  refine ⟨fun k hk => ?_, fun a ha ha' => ?_⟩
  · have hfrom : ∀ c ∈ moved, c.1 = newPa + k → (pa + k, c.2) ∈ m := fun c hc hck => by
      obtain ⟨d, hd, hp, rfl⟩ := hin c hc
      have hd1 : d.1 = pa + k := by
        have : newPa + d.1 % 65536 = newPa + k := hck
        omega
      rw [← hd1]; exact hd
    cases hv : cellGet m (pa + k) with
    | some v =>
      have hpage : (pa + k) / 65536 * 65536 = pa := by omega
      have hmem : (newPa + k, v) ∈ moved := List.mem_map.2 ⟨(pa + k, v),
        List.mem_filter.2 ⟨cellGet_mem hv, beq_iff_eq.2 hpage⟩, by
          show (movedLoc pa newPa (pa + k), v) = _
          rw [movedLoc, if_pos hpage, show (pa + k) % 65536 = k by omega]⟩
      rw [memGet_memSetAll_agree rest hmem fun c hc hck => Option.some.inj ((hcell _ (hfrom c hc hck)).symm.trans hv), memGet, hv]
      rfl
    | none =>
      have hout : newPa + k ∉ moved.map Prod.fst := fun h => by
        obtain ⟨c, hc, hck⟩ := List.mem_map.1 h
        exact nomatch (hcell _ (hfrom c hc hck)).symm.trans hv
      have hpage : (newPa + k) / 65536 * 65536 = newPa := by omega
      rw [memGet_memSetAll_any _ _ _ hout, hget, hpage, if_neg (by simp), memGet, hv]
      rfl
  · have hout : a ∉ moved.map Prod.fst := fun h => by
      obtain ⟨c, hc, rfl⟩ := List.mem_map.1 h
      obtain ⟨d, -, -, rfl⟩ := hin c hc
      exact ha' (by show (newPa + d.1 % 65536) / 65536 * 65536 = newPa; omega)
    rw [memGet_memSetAll_any _ _ _ hout, hget]
    simp [ha, ha']

/-! ## Tables -/

theorem fwPlain_mem (s : State) (scope : Scp) (bs : List (Nat × Byte)) : (s.fwPlain scope bs).mem = memSetAll s.mem bs := rfl

/-- An entry whose eight bytes are those of a number. -/
theorem tableEntry_of_bytes {s : State} {pa x : Nat} (hpa : pa + 8 ≤ hostBase)
    (h : ∀ j (hj : j < 8), memGet s.mem (pa + j) = (natToBytes 8 x)[j]'(by rw [Accesses.length_natToBytes]; exact hj)) :
    s.tableEntry pa = x % 2 ^ 64 := by
  have hb : (List.range 8).map (fun k => s.byte (pa + k)) = natToBytes 8 x := by
    refine List.ext_getElem (by rw [List.length_map, List.length_range, Accesses.length_natToBytes]) fun j h1 h2 => ?_
    have hj : j < 8 := by simpa using h1
    have hlow : ¬ identBase ≤ pa + j := by simp only [hostBase, identBase] at hpa ⊢; omega
    rw [List.getElem_map, List.getElem_range, State.byte, if_neg (by simp [hlow]), h j hj]
  rw [State.tableEntry, hb, bytesToNat_natToBytes]

/-- The bytes of a list of numbers, eight each, from an address upward. -/
def rowsAt (tbl : Nat) (x : Nat → Nat) (n : Nat) : List (Nat × Byte) :=
  (List.range n).flatMap fun k => ((List.range 8).map fun j => tbl + 8 * k + j).zip (natToBytes 8 (x k))

theorem mem_rowsAt {tbl n : Nat} {x : Nat → Nat} {c : Nat × Byte} : c ∈ rowsAt tbl x n ↔
    ∃ k < n, ∃ j, ∃ h : j < (natToBytes 8 (x k)).length, c = (tbl + 8 * k + j, (natToBytes 8 (x k))[j]) := by
  simp only [rowsAt, List.mem_flatMap, List.mem_range]
  refine exists_congr fun k => and_congr_right fun hk => ⟨fun h => ?_, ?_⟩
  · obtain ⟨j, hj, rfl⟩ := List.getElem_of_mem h
    simp only [List.length_zip, List.length_map, List.length_range] at hj
    exact ⟨j, by omega, by simp⟩
  · rintro ⟨j, hj, rfl⟩
    have h8 : j < 8 := by rw [Accesses.length_natToBytes] at hj; exact hj
    exact List.mem_iff_getElem.2 ⟨j, by simp [h8, hj], by simp⟩

/-- A number of the list reads back where it was written. -/
theorem memGet_rowsAt (m : List Host.Cell) (tbl n : Nat) (x : Nat → Nat) {k j : Nat} (hk : k < n) (hj : j < 8) :
    memGet (memSetAll m (rowsAt tbl x n)) (tbl + 8 * k + j) =
      (natToBytes 8 (x k))[j]'(by rw [Accesses.length_natToBytes]; exact hj) := by
  refine memGet_memSetAll_agree m (mem_rowsAt.2 ⟨k, hk, j, by rw [Accesses.length_natToBytes]; exact hj, rfl⟩) fun c hc hck => ?_
  obtain ⟨k', -, j', hj', rfl⟩ := mem_rowsAt.1 hc
  have h8 : j' < 8 := by rw [Accesses.length_natToBytes] at hj'; exact hj'
  have he : tbl + 8 * k' + j' = tbl + 8 * k + j := hck
  obtain rfl : k' = k := by omega
  obtain rfl : j' = j := by omega
  rfl

theorem memGet_rowsAt_other (m : List Host.Cell) {tbl n a : Nat} (x : Nat → Nat) (ha : a < tbl ∨ tbl + 8 * n ≤ a) :
    memGet (memSetAll m (rowsAt tbl x n)) a = memGet m a := by
  refine memGet_memSetAll_any _ _ _ fun h => ?_
  obtain ⟨c, hc, rfl⟩ := List.mem_map.1 h
  obtain ⟨k, hk, j, hj, rfl⟩ := mem_rowsAt.1 hc
  have h8 : j < 8 := by rw [Accesses.length_natToBytes] at hj; exact hj
  have : tbl + 8 * k + j < tbl ∨ tbl + 8 * n ≤ tbl + 8 * k + j := ha
  omega

/-- The entry that a split block's table holds for its k-th page. -/
def splitEntry (pa newPa e k : Nat) : Nat :=
  (if entryPa e + 65536 * k = pa then newPa else entryPa e + 65536 * k) + e % 2 ^ 5 / 4 * 4 + 3

theorem splitBlock_mem (s : State) (pa newPa tbl a : Nat) : (s.splitBlock pa newPa tbl a).mem =
    memSetAll (memSetAll s.mem (rowsAt tbl (splitEntry pa newPa (s.tableEntry a)) 4096))
      (rowsAt a (fun _ => (BitVec.ofNat 64 (tbl + 3)).toNat) 1) := by
  have hone : ∀ x, rowsAt a (fun _ => x) 1 = ((List.range 8).map fun k => a + k).zip (natToBytes 8 x) := fun x => by
    rw [rowsAt, List.range_one, List.flatMap_singleton]; rfl
  rw [hone, State.splitBlock, State.writeTable, fwPlain_mem, fwPlain_mem, rowsAt]
  unfold splitEntry
  rfl

/-- The entry of a page: its address, its attributes, and that it is one (R350). -/
theorem splitEntry_fields {pa newPa e k : Nat} (hb : inBlock 2 e pa = true) (hk : k < 4096) (hnew : newPa % 65536 = 0)
    (hlt : newPa < 2 ^ 52) : splitEntry pa newPa e k < 2 ^ 64 ∧
      entryPa (splitEntry pa newPa e k) = (if entryPa e + 65536 * k = pa then newPa else entryPa e + 65536 * k) ∧
      splitEntry pa newPa e k % 4 = 3 ∧ splitEntry pa newPa e k / 4 % 8 = e / 4 % 8 := by
  simp only [inBlock, Bool.and_eq_true, beq_iff_eq, decide_eq_true_eq] at hb
  obtain ⟨⟨⟨-, hbase⟩, -⟩, -⟩ := hb
  have hbound : entryPa e + 65536 * k < 2 ^ 52 ∧ (entryPa e + 65536 * k) % 65536 = 0 := by
    simp only [entryPa] at hbase ⊢
    omega
  have key : ∀ p, p % 65536 = 0 → p < 2 ^ 52 → p + e % 2 ^ 5 / 4 * 4 + 3 < 2 ^ 64 ∧ entryPa (p + e % 2 ^ 5 / 4 * 4 + 3) = p ∧
      (p + e % 2 ^ 5 / 4 * 4 + 3) % 4 = 3 ∧ (p + e % 2 ^ 5 / 4 * 4 + 3) / 4 % 8 = e / 4 % 8 := fun p hp hlt => by
    simp only [entryPa]
    omega
  rw [splitEntry]
  split
  · exact key newPa hnew hlt
  · exact key _ hbound.2 hbound.1

theorem splitBlock_entries (s : State) (pa newPa tbl a k : Nat) (htbl : tbl % 65536 = 0) (htlt : tbl < 2 ^ 52) (ha : a % 8 = 0)
    (halt : a < hostBase) (hap : a / 65536 ≠ tbl / 65536) (hb : inBlock 2 (s.tableEntry a) pa = true) (hk : k < 4096)
    (hnew : newPa % 65536 = 0) (hlt : newPa < 2 ^ 52) :
    (s.splitBlock pa newPa tbl a).tableEntry a = tbl + 3 ∧
      (s.splitBlock pa newPa tbl a).tableEntry (tbl + 8 * k) = splitEntry pa newPa (s.tableEntry a) k := by
  have hval : (BitVec.ofNat 64 (tbl + 3)).toNat = tbl + 3 := by
    rw [BitVec.toNat_ofNat, Nat.mod_eq_of_lt (by omega)]
  refine ⟨?_, ?_⟩
  · rw [tableEntry_of_bytes (x := tbl + 3) (by simp only [hostBase] at halt ⊢; omega) fun j hj => ?_]
    · exact Nat.mod_eq_of_lt (by omega)
    · have hread := memGet_rowsAt (memSetAll s.mem (rowsAt tbl (splitEntry pa newPa (s.tableEntry a)) 4096)) a 1
        (fun _ => (BitVec.ofNat 64 (tbl + 3)).toNat) Nat.one_pos hj
      simp only [hval] at hread
      rw [splitBlock_mem, hval]
      exact hread
  · obtain ⟨hx, -⟩ := splitEntry_fields hb hk hnew hlt
    rw [tableEntry_of_bytes (x := splitEntry pa newPa (s.tableEntry a) k) (by simp only [hostBase]; omega) fun j hj => ?_]
    · exact Nat.mod_eq_of_lt hx
    · rw [splitBlock_mem, memGet_rowsAt_other _ _ (by omega), memGet_rowsAt _ _ _ _ hk hj]

/-! ## Power and firmware -/

/-- The module as it comes up. -/
def booted (s : State) : State :=
  { s with power := true, running := s.ext.ok
           fwImages := Vector.replicate 12 (if s.ext.ok then some s.ext.image else none)
           dies := Vector.ofFn fun (i : Fin 24) => bootDie i.val }

theorem die_booted (s : State) {d : Nat} (hd : d < 24) : (booted s).die d = bootDie d := by
  rw [State.die, vget, dif_pos hd]
  exact Vector.getElem_ofFn ..

theorem powerAndFirmware : PowerAndFirmware := by
  refine ⟨fun s hp => ?_, fun s => ?_, fun s hp hf hok => ?_, fun s k img feat hp hf hk => ?_, fun s img feat hp hf => ?_,
    fun s hp => ?_, fun _ => rfl, fun _ => rfl⟩
  · refine ⟨booted s, congrArg Host.Outcome.next (if_neg (by rw [hp]; exact Bool.false_ne_true)), rfl, rfl, rfl, fun d hd => ?_,
      rfl, rfl, rfl⟩
    rw [die_booted s hd]
    exact ⟨rfl, sites_bootDie d⟩
  · refine ⟨_, rfl, rfl, rfl, rfl, rfl, rfl, rfl, fun a => ?_⟩
    refine (memGet_filter (fun a => decide (hostBase ≤ a)) s.mem a).trans ?_
    simp only [decide_eq_true_eq]
    rfl
  · refine (show execFirmwareUpdate s = _ from powered_on hp _).trans ?_
    simp only [hf, hok, if_true]
  · refine (show execFirmwareUpdate s = _ from powered_on hp _).trans ?_
    simp only [hf, if_pos hk]
  · refine (show execFirmwareUpdate s = _ from powered_on hp _).trans ?_
    simp only [hf]
    rfl
  · exact (show execFirmwareRestart s = _ from powered_on hp _)

/-! ## Live service -/

/-- Each change of a die's cores is `service` with its own terms. -/
theorem exec_serviceArms {i : Instr} {s : State} {ok : Bool} {at_ : Nat → Bool} {f : Die → Die}
    (h : serviceArms s i = some (ok, at_, f)) (hp : s.power = true) : exec i s = .next (s.service i ok at_ f) := by
  unfold serviceArms at h
  split at h
  · obtain ⟨rfl, rfl, rfl⟩ := h
    exact (show execCoreRetire s = _ from powered_on hp _)
  · obtain ⟨rfl, rfl, rfl⟩ := h
    exact (show execDieEvacuate s = _ from powered_on hp _)
  · obtain ⟨rfl, rfl, rfl⟩ := h
    exact (show execDieReturn s = _ from powered_on hp _)
  · exact nomatch h

/-- The units to pre-empt for a change of some sites. -/
def occupying (s : State) (at_ : Nat → Bool) : List (Nat × Nat) :=
  ((s.occupants s.ext.die at_).map fun g => (g.1.1, g.2.inst)).eraseDups

theorem service_begins {s : State} {i : Instr} {at_ : Nat → Bool} {f : Die → Die} (hc : s.change = none)
    (hfit : s.saveFits (occupying s at_) = true) :
    s.service i true at_ f = (s.turnGen (some (i, s.ext))).vacate s.ext.die at_ := by
  simp only [State.service, hc]
  rw [occupying] at hfit
  exact if_neg (by rw [hfit]; decide)

theorem service_goesOn {s : State} {i : Instr} (ok : Bool) {at_ : Nat → Bool} {f : Die → Die} (hc : s.change = some (i, s.ext)) :
    s.service i ok at_ f = if (occupying s at_).isEmpty then (s.updDie s.ext.die f).turnGen none
      else if s.saveFits (occupying s at_) then s.vacate s.ext.die at_ else s := by
  simp only [State.service, hc, bne_self_eq_false, Bool.or_false, Bool.false_eq_true, if_false]
  rfl

theorem occupying_isEmpty (s : State) (at_ : Nat → Bool) : (occupying s at_).isEmpty = (s.occupants s.ext.die at_).isEmpty := by
  rw [occupying]
  cases s.occupants s.ext.die at_ with
  | nil => rfl
  | cons g gs => rw [List.map_cons, List.eraseDups_cons]; rfl

theorem liveService : LiveService := by
  refine ⟨?_, ?_, ?_, ?_, ?_, ?_, fun m pa newPa hwf hpa hnew _ => memGet_movePage hwf hpa hnew⟩
  · intro i s ok at_ f h hp hc hok hfit
    rw [exec_serviceArms h hp, hok, service_begins hc hfit]
    rfl
  · intro i s ok at_ f h hp hc hne hfit
    have hbusy : (occupying s at_).isEmpty = false := by
      rw [occupying_isEmpty, List.isEmpty_eq_false_iff]; exact hne
    rw [exec_serviceArms h hp, service_goesOn ok hc, hbusy, show s.saveFits (occupying s at_) = true from hfit]
    rfl
  · intro i s ok at_ f h hp hc hnil
    have hfree : (occupying s at_).isEmpty = true := by rw [occupying_isEmpty, hnil]; rfl
    rw [exec_serviceArms h hp, service_goesOn ok hc, hfree]
    exact ⟨_, rfl, rfl, rfl, rfl, rfl, rfl⟩
  · intro s hp h1 h2 h3 h4 h5 h6
    refine (show execHbmPageRetire s = _ from powered_on hp _).trans (congrArg Host.Outcome.next ?_)
    refine (if_neg ?_).trans rfl
    simp [h1, h2, h3, h4, h5, h6]
  · intro s hp h
    refine (show execHbmPageRetire s = _ from powered_on hp _).trans (congrArg Host.Outcome.next (if_pos ?_))
    simp [h]
  · intro s pa newPa tbl a k e htbl htlt ha halt hap hb hk hnew hlt r p
    obtain ⟨hself, hrow⟩ := splitBlock_entries s pa newPa tbl a k htbl htlt ha halt hap hb hk hnew hlt
    obtain ⟨-, hpa, hkind, hattr⟩ := splitEntry_fields hb hk hnew hlt
    refine ⟨hself, ?_⟩
    rw [show r.tableEntry (tbl + 8 * k) = _ from hrow]
    exact ⟨hpa, hkind, hattr⟩

/-- Settles O56: power, firmware and live service. -/
theorem serviceActs : Obligations.ServiceActs := ⟨powerAndFirmware, liveService⟩

end Sys2Proof.Proofs.Service
end

section
/-! Events of traps and paging: lost gangs, soft errors, walks, invalidations and tickets. -/

namespace Sys2Proof.Proofs.Paging

open Sys2Proof.Machine Sys2Proof.Claims

/-! ## The events, R344 and R351 to R353 -/

theorem trapAndPagingEvents : TrapAndPagingEvents := by
  refine ⟨?_, ?_, ?_, ?_, ?_, ?_, ?_⟩
  · intro lid inst s l x hl hx he hr
    show execGangRestart lid inst s = _
    simp only [execGangRestart, hl, hx, he, hr, Bool.not_true, Bool.or_false, Bool.false_eq_true, if_false]
  · intro s t hok hhit hrun
    refine congrArg Host.Outcome.next ((if_neg (by rw [hok]; exact Bool.false_ne_true)).trans (if_neg ?_))
    rw [List.isEmpty_eq_false_iff.2 hhit, hrun]
    decide
  · intro s l t hok hl hrun s' g
    refine congrArg Host.Outcome.next ((if_pos hok).trans ?_)
    rw [hl]
    exact if_neg (by rw [hrun]; decide)
  · intro s t i
    refine ⟨fun h => if_pos ?_, fun hg hk => if_neg ?_⟩
    · rcases h with h | h
      · rw [h]; rfl
      · rw [Option.isSome_iff_ne_none.2 h, Bool.or_true]
    · rw [hg, hk]; decide
  · intro i s die k w hplace hw hk
    show execWalkComplete i s = _
    simp only [execWalkComplete, hplace, hw, if_pos hk]
  · intro i s x hx hw
    show execInvalidationComplete i s = _
    simp only [execInvalidationComplete, hx, hw, List.isEmpty_nil, Bool.not_true, Bool.false_eq_true, if_false] <;> rfl
  · intro s k hk hd hfree
    have hno : (s.inval.any fun x => x.ctx == s.ext.ctx && x.ticket == some s.ext.ticket) = false :=
      List.any_eq_false.2 fun x hx => by simpa using hfree x hx
    refine ⟨fun hws => ?_, fun ws e hws hhit => ?_⟩
    · show execPageTicketComplete s = _
      simp only [execPageTicketComplete, hk, hd, hno, hws, Bool.or_false, Bool.false_eq_true, if_false]
    · show execPageTicketComplete s = _
      simp only [execPageTicketComplete, hk, hd, hno, hws, hhit, Bool.or_false, Bool.false_eq_true, if_false]

/-! ## A walk that ends, R351 -/

/-- What a walk's end does to a thread that it reaches. -/
def reached (page : Nat) (fault : Option Nat) (th : Thread) : Thread :=
  match th.wait with
  | .walk p =>
    { th with
      wait := if p = page then .none else th.wait
      walkFault := match fault with
        | some d => some (th.walkFault.getD (page, d))
        | none => th.walkFault }
  | _ => th

theorem reached_walk {page p : Nat} (fault : Option Nat) {th : Thread} (h : th.wait = .walk p) : reached page fault th =
    { th with
      wait := if p = page then .none else .walk p
      walkFault := match fault with
        | some d => some (th.walkFault.getD (page, d))
        | none => th.walkFault } := by
  simp only [reached, h]

theorem reached_other {page : Nat} (fault : Option Nat) {th : Thread} (h : ∀ p, th.wait ≠ .walk p) : reached page fault th = th := by
  unfold reached
  split
  · next p hp => exact absurd hp (h p)
  · rfl

/-- A second visit changes nothing more. -/
theorem reached_reached (page : Nat) (fault : Option Nat) (th : Thread) :
    reached page fault (reached page fault th) = reached page fault th := by
  by_cases h : ∃ p, th.wait = .walk p
  · obtain ⟨p, hp⟩ := h
    rw [reached_walk fault hp]
    by_cases he : p = page
    · refine reached_other fault fun q => ?_
      rw [if_pos he]
      exact fun h => nomatch h
    · rw [reached_walk (p := p) fault (if_neg he)]
      cases fault with
      | none => rfl
      | some d => rfl
  · have hno : ∀ p, th.wait ≠ .walk p := fun p hp => h ⟨p, hp⟩
    rw [reached_other fault hno, reached_other fault hno]

theorem thr_walkReaches (s : State) (page : Nat) (fault : Option Nat) (t u : TRef) :
    (s.walkReaches page fault t).thr u = if u = t then reached page fault (s.thr t) else s.thr u := by
  by_cases hkey : t ∈ tkeys s.threads
  · rw [State.walkReaches]
    split
    · next p hp =>
      rw [State.thr_updThr _ _ _ _ hkey]
      by_cases hu : u = t
      · rw [if_pos hu, if_pos hu]
        have e := reached_walk (page := page) fault hp
        rw [← hp] at e
        refine Eq.trans ?_ e.symm
        cases fault with
        | none => rfl
        | some d => rfl
      · rw [if_neg hu, if_neg hu]
    · next hno =>
      by_cases hu : u = t
      · rw [if_pos hu, reached_other fault hno, hu]
      · rw [if_neg hu]
  · have hthr : s.thr t = {} := by
      rw [State.thr, show tget s.threads t = none from Option.not_isSome_iff_eq_none.1 fun h => hkey ((tget_isSome _ _).1 h)]
      rfl
    have hno : ∀ p, (s.thr t).wait ≠ .walk p := fun p => by rw [hthr]; exact fun h => nomatch h
    have hsame : s.walkReaches page fault t = s := by
      rw [State.walkReaches]
      split
      · next p hp => exact absurd hp (hno p)
      · rfl
    rw [hsame, reached_other fault hno]
    by_cases hu : u = t
    · rw [if_pos hu, hu]
    · rw [if_neg hu]

theorem thr_foldl_walkReaches (page : Nat) (fault : Option Nat) (l : List TRef) (s : State) (u : TRef) :
    (l.foldl (fun s t => s.walkReaches page fault t) s).thr u = if u ∈ l then reached page fault (s.thr u) else s.thr u := by
  induction l generalizing s with
  | nil => simp
  | cons t l ih =>
    rw [List.foldl_cons, ih, thr_walkReaches]
    by_cases hu : u = t
    · subst hu
      simp [reached_reached]
    · simp [hu]

theorem walkReaches_onlyThreads (s : State) (page : Nat) (fault : Option Nat) (t : TRef) :
    s.walkReaches page fault t = { s with threads := (s.walkReaches page fault t).threads } := by
  rw [State.walkReaches]
  split
  · rfl
  · rfl

theorem foldl_walkReaches_onlyThreads (page : Nat) (fault : Option Nat) (l : List TRef) (s : State) :
    l.foldl (fun s t => s.walkReaches page fault t) s =
      { s with threads := (l.foldl (fun s t => s.walkReaches page fault t) s).threads } := by
  induction l generalizing s with
  | nil => rfl
  | cons t l ih =>
    rw [List.foldl_cons]
    refine (ih _).trans ?_
    rw [walkReaches_onlyThreads s page fault t]

/-- The fault that a walk reports. -/
def walkFaultOf : WalkRes → Option Nat
  | .hit _ => none
  | .fault d => some d

/-- The state in which the walk has left its walker, and the caches and requests know of it. -/
def walkLeft (s : State) (die i : Nat) (w : Walk) : State :=
  let fills : List TlbEnt := match s.walkTable w.ctx w.page with
    | .hit e => ({ e with core := none } : TlbEnt) :: (s.walkCores w).map fun c => { e with core := some c }
    | .fault _ => []
  let s := s.updDie die fun d =>
    { d with walks := d.walks.eraseIdx i, tlb := if fills.isEmpty then d.tlb else tlbKeep (fills ++ d.tlb) }
  { s with inval := s.inval.map fun (x : Inval) => { x with walks := x.walks.filter fun y => y ≠ (die, w.ctx, w.page) } }

/-- The state in which the walk's end has reached every thread. -/
def walkReached (s : State) (die i : Nat) (w : Walk) : State :=
  (w.groups.flatMap Group.threads).foldl (fun s t => s.walkReaches w.page none t)
    (w.joined.foldl (fun s' t => s'.walkReaches w.page (walkFaultOf (s.walkTable w.ctx w.page)) t) (walkLeft s die i w))

theorem endWalk_eq (s : State) (die i : Nat) (w : Walk) :
    s.endWalk die i w = { walkReached s die i w with issueQ := (walkReached s die i w).issueQ ++ w.groups } := by
  have hf : (match s.walkTable w.ctx w.page with
    | .hit _ => none
    | .fault d => some d) = walkFaultOf (s.walkTable w.ctx w.page) := by
    cases s.walkTable w.ctx w.page with
    | hit e => rfl
    | fault d => rfl
  rw [walkReached, ← hf]
  rfl

theorem thr_endWalk (s : State) (die i : Nat) (w : Walk) (u : TRef) : (s.endWalk die i w).thr u =
    (if u ∈ w.groups.flatMap Group.threads then reached w.page none else id)
      (if u ∈ w.joined then reached w.page (walkFaultOf (s.walkTable w.ctx w.page)) (s.thr u) else s.thr u) := by
  rw [endWalk_eq]
  show (walkReached s die i w).thr u = _
  rw [walkReached, thr_foldl_walkReaches, thr_foldl_walkReaches]
  split
  · rfl
  · rfl

/-- What a thread that joined carries after the walk. -/
def keptFault (s : State) (w : Walk) (t : TRef) : Option (Nat × Nat) :=
  match s.walkTable w.ctx w.page with
  | .hit _ => (s.thr t).walkFault
  | .fault d => some ((s.thr t).walkFault.getD (w.page, d))

/-- A thread that joined and waits for a page of walks. -/
theorem reached_joined {s : State} {w : Walk} {t : TRef} {p : Nat} (h : (s.thr t).wait = .walk p) :
    reached w.page (walkFaultOf (s.walkTable w.ctx w.page)) (s.thr t) =
      { s.thr t with wait := if p = w.page then .none else .walk p, walkFault := keptFault s w t } := by
  rw [reached_walk _ h, keptFault]
  cases s.walkTable w.ctx w.page with
  | hit e => rfl
  | fault d => rfl

theorem aWalkWakesItsThreads : AWalkWakesItsThreads := by
  intro s die i w r gs kept
  have hthr : ∀ u, r.thr u = _ := thr_endWalk s die i w
  have hkept : ∀ t, kept t = keptFault s w t := fun t => rfl
  have hdone : ∀ {th : Thread}, th.wait = .none → reached w.page none th = th := fun {th} h =>
    reached_other none fun p => by rw [h]; exact fun k => nomatch k
  have hframe : walkReached s die i w = { walkLeft s die i w with threads := (walkReached s die i w).threads } := by
    rw [walkReached, foldl_walkReaches_onlyThreads, foldl_walkReaches_onlyThreads w.page _ w.joined]
  refine ⟨fun t _ hin hw => ?_, fun t _ p hp hj hw => ?_, fun t h => ?_, ?_, ?_⟩
  · rw [hthr, hkept]
    by_cases hj : t ∈ w.joined
    · rw [if_pos hj, if_pos hj, reached_joined hw, if_pos rfl]
      split
      · rw [hdone rfl]
        exact ⟨rfl, rfl, rfl, rfl⟩
      · exact ⟨rfl, rfl, rfl, rfl⟩
    · rw [if_neg hj, if_neg hj, if_pos (hin.resolve_left hj), reached_walk none hw, if_pos rfl]
      exact ⟨rfl, rfl, rfl, rfl⟩
  · rw [hthr, hkept, if_pos hj, reached_joined hw, if_neg hp]
    split
    · rw [reached_walk (p := p) none rfl, if_neg hp]
      exact ⟨rfl, rfl⟩
    · exact ⟨rfl, rfl⟩
  · rw [hthr]
    rcases h with ⟨hj, hg⟩ | hno
    · rw [if_neg hj, if_neg hg]; rfl
    · have hsame : ∀ f, reached w.page f (s.thr t) = s.thr t := fun f => reached_other f hno
      rw [hsame, ite_self]
      split
      · exact hsame none
      · rfl
  · rw [show r = _ from endWalk_eq s die i w, hframe]
    rfl
  · rw [show r = _ from endWalk_eq s die i w, hframe]
    rfl

/-- Settles O52: the events, and what the end of a walk does. -/
theorem trapsAndPaging : Obligations.TrapsAndPaging := ⟨trapAndPagingEvents, aWalkWakesItsThreads⟩

end Sys2Proof.Proofs.Paging
end

section
/-! The copy and the encode engines, and the graph queues. -/

namespace Sys2Proof.Proofs.Engines

open Sys2Proof.Machine Sys2Proof.Claims

/-! ## The copy engines, R298 to R301 -/

theorem exec_copyArms {i : Instr} {die eng op : Nat} (h : copyArms i = some (die, eng, op)) (s : State) :
    exec i s = .next (s.copyStep die eng op) := by
  unfold copyArms at h
  split at h
  case h_6 => exact nomatch h
  all_goals
    obtain ⟨rfl, rfl, rfl⟩ := h
    rfl

/-- What stands ready at an engine are commands issued to it. -/
theorem copyReady_issued {s : State} {die eng op j : Nat} (h : j ∈ s.copyReady die eng op) :
    ∃ c, (vget (s.die die).copyQ [] eng)[j]? = some c := by
  obtain ⟨⟨c, k⟩, hx, rfl⟩ := List.mem_map.1 h
  exact ⟨c, List.mk_mem_zipIdx_iff_getElem?.1 (List.mem_filter.1 hx).1⟩

/-- A ready command goes on by a chunk in its place. -/
def copiesOn (s : State) (die eng j : Nat) (c : Cmd) : State :=
  (s.draw.copyGo die eng c).2.updDie die fun d =>
    { d with copyQ := vupd d.copyQ eng fun q => lupd q j fun _ => (s.draw.copyGo die eng c).1 }

/-- The state in which a queue's element has been taken. -/
def elemTaken (s : State) (x : Nat × Nat × Nat) : State :=
  s.draw.updQueue x.1 x.2.1 x.2.2 fun q => { q with elems := q.elems.drop 1 }

/-- The next element of the queues becomes the engine's newest command. -/
def copiesNew (s : State) (die eng : Nat) (x : Nat × Nat × Nat) (b : List Byte) : State :=
  ((elemTaken s x).copyGo die eng ((elemTaken s x).cmdOf x b)).2.updDie die fun d =>
    { d with
      copyQ := vupd d.copyQ eng (fun q => q ++ [((elemTaken s x).copyGo die eng ((elemTaken s x).cmdOf x b)).1])
      copyRot := vset d.copyRot eng (some x) }

theorem copyStep_takes (s : State) (die eng op : Nat) (h : s.copyReady die eng op ≠ [] ∨ (s.copyElem die eng op).isSome = true) :
    (∃ j c, j ∈ s.copyReady die eng op ∧ (vget (s.die die).copyQ [] eng)[j]? = some c ∧
      s.copyStep die eng op = copiesOn s die eng j c) ∨
    ∃ x b, s.copyElem die eng op = some (x, b) ∧ s.copyStep die eng op = copiesNew s die eng x b := by
  set n := (s.copyReady die eng op).length + (if (s.copyElem die eng op).isSome then 1 else 0) with hn
  have hpos : n ≠ 0 := by
    rcases h with h | h
    · have := List.length_pos_iff.2 h
      omega
    · rw [if_pos h] at hn
      omega
  have hlt : (s.choose n).1 < n := Packets.choose_lt s (Nat.pos_of_ne_zero hpos)
  have hdraw : (s.choose n).2 = s.draw := rfl
  cases hj : (s.copyReady die eng op)[(s.choose n).1]? with
  | some j =>
    have hmem := List.mem_of_getElem? hj
    obtain ⟨c, hc⟩ := copyReady_issued hmem
    have hc' : (vget (s.draw.die die).copyQ [] eng)[j]? = some c := hc
    refine .inl ⟨j, c, hmem, hc, ?_⟩
    simp only [State.copyStep, ← hn, if_neg hpos, hj, hdraw, hc']
    rfl
  | none =>
    cases he : s.copyElem die eng op with
    | some e =>
      refine .inr ⟨e.1, e.2, rfl, ?_⟩
      simp only [State.copyStep, ← hn, if_neg hpos, hj, hdraw]
      rw [he]
      rfl
    | none =>
      rw [he] at hn
      have := List.getElem?_eq_none_iff.1 hj
      simp at hn
      omega

theorem copyEnginesRun : CopyEnginesRun := by
  refine ⟨fun i die eng op hi s h => ⟨_, exec_copyArms hi s, ?_⟩, fun die eng i s c hc hf hfr hb => ?_⟩
  · exact copyStep_takes s die eng op h
  · show execCopyComplete die eng i s = _
    simp only [execCopyComplete, hc, hf, hfr, hb, List.isEmpty_nil, Bool.not_true, Bool.or_false, Bool.false_eq_true, if_false]

/-! ## The encode engines and the graph queues, R305 to R307 -/

theorem exec_encArms {i : Instr} {die eng op : Nat} {go : Cmd → State → Cmd × State} (h : encArms i = some (die, eng, op, go))
    (s : State) : exec i s = .next (s.encStep die eng op go) := by
  unfold encArms at h
  split at h
  case h_4 => exact nomatch h
  all_goals
    obtain ⟨rfl, rfl, rfl, rfl⟩ := h
    rfl

theorem encodeEnginesAndGraphQueues : EncodeEnginesAndGraphQueues := by
  refine ⟨?_, ?_, ?_, ?_, ?_⟩
  · intro i die eng op go hi s j js c hj hc
    rw [exec_encArms hi]
    simp only [State.encStep, hj, hc]
  · intro i die eng op go hi s x c hnil he
    rw [exec_encArms hi]
    simp only [State.encStep, hnil, he]
  · intro die eng s c hc b r wr
    have hb : b = _ := if_neg (by rw [hc]; exact Bool.false_ne_true)
    rw [hb]
    exact ⟨rfl, rfl⟩
  · intro die eng s c i h
    show execEncodeComplete die eng s = _
    simp only [execEncodeComplete, h]
  · intro lid wg q s e es he hw
    have hnext : (s.walkNext (s.wg lid wg).die != some (lid, wg, q)) = false := by rw [hw, bne_self_eq_false]
    show execGraphQueueElement lid wg q s = _
    simp only [execGraphQueueElement, he, hnext, Bool.false_eq_true, if_false]
    rfl

/-- Settles O51: the copy engines, the encode engines and the graph queues. -/
theorem enginesRun : Obligations.EnginesRun := ⟨copyEnginesRun, encodeEnginesAndGraphQueues⟩

end Sys2Proof.Proofs.Engines
end

section
/-! Pre-emption and context switches (R178, R346 to R348, R359). -/

namespace Sys2Proof.Proofs.Preemption

open Sys2Proof.Machine Sys2Proof.Claims Sys2Proof.Proofs.PacketTypes

/-! ## Acknowledgements, R346 -/

/-- What the end of an acknowledgement leaves as it was: it marks launches and counts. -/
structure AckFrame (s t : State) : Prop where
  threads : t.threads = s.threads
  mem : t.mem = s.mem
  stops : ∀ d, (t.die d).stops = (s.die d).stops

theorem AckFrame.refl (s : State) : AckFrame s s := ⟨rfl, rfl, fun _ => rfl⟩
theorem AckFrame.trans {s t u : State} (h : AckFrame s t) (k : AckFrame t u) : AckFrame s u :=
  ⟨k.threads.trans h.threads, k.mem.trans h.mem, fun d => (k.stops d).trans (h.stops d)⟩

theorem AckFrame.foldl {α : Type} {f : State → α → State} (hf : ∀ s a, AckFrame s (f s a)) (l : List α) (s : State) :
    AckFrame s (l.foldl f s) := by
  induction l generalizing s with
  | nil => exact .refl s
  | cons a l ih => exact (hf s a).trans (ih _)

theorem updLaunch_ackFrame (s : State) (lid : Nat) (f : Launch → Launch) : AckFrame s (s.updLaunch lid f) := ⟨rfl, rfl, fun _ => rfl⟩

/-- One change of a die that leaves its stop requests leaves those of every die. -/
theorem stops_updDie (s : State) (d e : Nat) {f : Die → Die} (hf : ∀ x, (f x).stops = x.stops) :
    ((s.updDie d f).die e).stops = (s.die e).stops := by
  by_cases hd : d < 24
  · rw [State.die_updDie _ _ _ _ hd]
    split
    · next h => rw [hf, h]
    · rfl
  · rw [State.die, State.updDie, vupd, dif_neg hd]
    rfl

theorem count_ackFrame (s : State) (die : Nat) (site : Option Nat) (src : Nat) (ctx lid wg tid : Option Nat) (n : Nat) :
    AckFrame s (s.count die site src ctx lid wg tid n) :=
  ⟨rfl, rfl, fun d => stops_updDie s die d fun _ => rfl⟩

theorem haltAll_ackFrame (s : State) (ctx : Option Nat) : AckFrame s (s.haltAll ctx) := by
  cases ctx with
  | none => exact .refl s
  | some c =>
    exact .foldl (f := fun (s : State) (l : Nat × Launch) => s.updLaunch l.1 Launch.halt) (fun s l => updLaunch_ackFrame s l.1 _) _ s

/-- The engine's request waits for it no longer. -/
def ackedStop (s : State) (die : Nat) (k : EngineKind) (i : Nat) : State :=
  s.updDie die fun d => { d with stops := lupd d.stops i fun r => { r with waiting := r.waiting.filter (· ≠ k) } }

theorem engineStopAck_acks {die : Nat} {k : EngineKind} {s : State} {r : StopReq} {i : Nat} (h : Acks s die k r i) :
    ∃ t, exec (.engineStopAck die k) s = .next t ∧ AckFrame (ackedStop s die k i) t := by
  have hfind : (s.die die).stops.zipIdx.find? (fun r => r.1.waiting.contains k && s.atStop die r.1 k) = some (r, i) := h
  have hexec : exec (.engineStopAck die k) s = .next (match k with
      | .picker site =>
        (((ackedStop s die k i).stopUnits die r site).map Prod.fst).eraseDups.foldl (fun s lid => s.updLaunch lid Launch.halt)
          (ackedStop s die k i)
      | .matrix site =>
        (((ackedStop s die k i).core die site).loops.filter fun l =>
          ((ackedStop s die k i).stopUnits die r site).contains (l.lid, l.inst)).foldl (fun s l =>
          s.count die (some site) 0x202 (some (s.launch l.lid).ctx) (some l.lid) (some l.wg) none 1) ((ackedStop s die k i).haltAll r.ctx)
      | _ => (ackedStop s die k i).haltAll r.ctx) := by
    show execEngineStopAck die k s = _
    simp only [execEngineStopAck, hfind]
    cases k <;> rfl
  refine ⟨_, hexec, ?_⟩
  cases k with
  | picker site => exact .foldl (fun s lid => updLaunch_ackFrame s lid _) _ _
  | matrix site => exact (haltAll_ackFrame _ r.ctx).trans (.foldl (fun s l => count_ackFrame ..) _ _)
  | _ => exact haltAll_ackFrame _ r.ctx

/-! ## The switch back in, R348 -/

/-- The register space's new place: nothing of the threads, of memory, or of which contexts there are. -/
theorem rebase_frame (s : State) (ctx : Nat) : (s.rebase ctx).threads = s.threads ∧ (s.rebase ctx).mem = s.mem ∧
    tkeys (s.rebase ctx).contexts = tkeys s.contexts := by
  rw [State.rebase]
  generalize pageFrom s.pageFree 18874368 (Config.pick s.freeCtr) = page
  cases page with
  | none => exact ⟨rfl, rfl, rfl⟩
  | some page => exact ⟨rfl, rfl, tkeys_tupd ..⟩

/-- A die whose pinned regions of a context are back. -/
def backDie (ctx : Nat) (d : Die) : Die := { d with pins := d.pins.map fun p => if p.ctx = ctx then { p with saved := false } else p }

/-- The context is in again. -/
def switchedIn (s : State) (ctx : Nat) : State :=
  ((everyDie (backDie ctx) s).rebase ctx).updCtx ctx fun c => { c with out := false, savedBufs := [] }

theorem switchedIn_ctx {s : State} {ctx : Nat} (h : ctx ∈ tkeys s.contexts) :
    ((switchedIn s ctx).ctx ctx).out = false ∧ ((switchedIn s ctx).ctx ctx).savedBufs = [] := by
  have hkeys : tkeys ((everyDie (backDie ctx) s).rebase ctx).contexts = tkeys s.contexts := by
    rw [(rebase_frame _ ctx).2.2, everyDie_frame]
  rw [switchedIn, TrapReturn.ctx_updCtx_self _ _ (by rw [hkeys]; exact h)]
  exact ⟨rfl, rfl⟩

theorem switchedIn_same (s : State) (ctx : Nat) : (switchedIn s ctx).threads = s.threads ∧ (switchedIn s ctx).mem = s.mem := by
  obtain ⟨hthr, hmem, -⟩ := rebase_frame (everyDie (backDie ctx) s) ctx
  rw [switchedIn, threads_updCtx, mem_updCtx, hthr, hmem, everyDie_frame]
  exact ⟨rfl, rfl⟩

theorem contextSwitchIn_eq {ctx : Nat} {s s' : State} (hout : (s.ctx ctx).out = true)
    (hback : (s.ctx ctx).savedBufs.foldlM State.bufBack s = some s') :
    exec (.contextSwitchIn ctx) s = .next (switchedIn s' ctx) := by
  show execContextSwitchIn ctx s = _
  rw [execContextSwitchIn, if_neg (by rw [hout]; decide), hback]
  rfl

/-! ## Restores, R179 -/

/-- The place at which UNIT_RESTORE finds the unit, on a die. -/
def restoreOn (s : State) (lid inst d : Nat) : Option (Nat × Offer × List Nat) :=
  match s.nextUnit d with
  | some (o, sites) => if o.lid == lid && o.idx == inst && (o.p.any fun p => p.preempted) then some (d, o, sites) else none
  | none => none

theorem restoreOn_some {s : State} {lid inst d : Nat} {x : Nat × Offer × List Nat} (h : restoreOn s lid inst d = some x) :
    ∃ o sites, s.nextUnit d = some (o, sites) ∧ o.lid = lid ∧ o.idx = inst ∧ ∃ p, o.p = some p ∧ p.preempted = true := by
  unfold restoreOn at h
  split at h
  · next o sites hn =>
    split at h
    · next hc =>
      obtain ⟨hc, hp⟩ := Bool.and_eq_true_iff.1 hc
      obtain ⟨hl, hi⟩ := Bool.and_eq_true_iff.1 hc
      refine ⟨o, sites, hn, eq_of_beq hl, eq_of_beq hi, ?_⟩
      cases hop : o.p with
      | none => rw [hop] at hp; exact nomatch hp
      | some p => rw [hop] at hp; exact ⟨p, rfl, hp⟩
    · exact nomatch h
  · exact nomatch h

theorem findSome?_restoreOn {s : State} {lid inst die : Nat} {o : Offer} {sites : List Nat} (h : Restores s lid inst die o sites) :
    (List.range 24).findSome? (restoreOn s lid inst) = some (die, o, sites) := by
  obtain ⟨hlt, hn, hl, hi, ⟨p, hp, hpre⟩, hfirst⟩ := h
  have hhere : restoreOn s lid inst die = some (die, o, sites) := by
    simp [restoreOn, hn, hl, hi, hp, hpre]
  obtain ⟨before, after, hsplit⟩ := List.append_of_mem (List.mem_range.2 hlt)
  have hbefore : ∀ d ∈ before, d < die := fun d hd =>
    (List.pairwise_append.1 (hsplit ▸ List.pairwise_lt_range (n := 24))).2.2 d hd die List.mem_cons_self
  rw [List.findSome?_eq_some_iff]
  refine ⟨before, die, after, hsplit, hhere, fun d hd => ?_⟩
  cases hr : restoreOn s lid inst d with
  | none => rfl
  | some x =>
    obtain ⟨o', y, hn', hl', hi', hp'⟩ := restoreOn_some hr
    exact absurd ⟨hl', hi', hp'⟩ (hfirst d (hbefore d hd) o' y hn')

theorem unitRestore_eq (lid inst : Nat) (s : State) : exec (.unitRestore lid inst) s = .next
    (match (List.range 24).findSome? (restoreOn s lid inst) with
    | none => s
    | some (die, o, sites) =>
      let s := s.updLaunch lid fun l => { l with pending := l.pending.filter fun p => p.idx != inst }
      let s := ((s.inst lid inst).members.zip sites).foldl (fun s m => s.restoreWg lid m.1 die m.2) s
      (s.placedAt die o).goOn lid) := rfl

/-- Settles O20: each event of pre-emption and of a switch, by its checks. -/
theorem preemptionAndSwitches : Obligations.PreemptionAndSwitches := by
  refine ⟨?_, ?_, ?_, ?_, ?_, ?_, ?_⟩
  · intro die s o site vs ⟨hon, ho, hplace, hfit⟩
    obtain ⟨rest, hsort⟩ := List.head?_eq_some_iff.1 hplace
    show execPreempt die s = _
    simp only [execPreempt, hon, ho, hsort, hfit, Bool.not_true, Bool.false_eq_true, if_false]
  · intro die k s r i h
    obtain ⟨t, hexec, hframe⟩ := engineStopAck_acks h
    refine ⟨t, hexec, fun hd _ => ?_, hframe.threads, hframe.mem⟩
    rw [hframe.stops, ackedStop, State.die_updDie _ _ _ _ hd, if_pos rfl]
  · intro lid inst s die hs hq he r hfit
    show execPreemptSave lid inst s = _
    simp only [execPreemptSave, hs, hq, Bool.not_true, Bool.false_eq_true, if_false]
    refine congrArg Host.Outcome.next ((if_neg fun h => ?_).trans (if_neg fun h => ?_))
    · exact Bool.false_ne_true (he.symm.trans h)
    · rw [Bool.not_eq_true'] at h
      exact Bool.false_ne_true (h.symm.trans hfit)
  · intro lid inst s die hs hq he r hfit
    show execPreemptSave lid inst s = _
    simp only [execPreemptSave, hs, hq, Bool.not_true, Bool.false_eq_true, if_false]
    refine congrArg Host.Outcome.next ((if_neg fun h => ?_).trans (if_pos ?_))
    · exact Bool.false_ne_true (he.symm.trans h)
    · exact congrArg (!·) hfit
  · intro lid inst s die o sites h
    rw [unitRestore_eq, findSome?_restoreOn h]
  · intro ctx s hctx hout hstop hquiet hfit
    have hsome : (tget s.contexts ctx).isNone = false := by simpa [Option.isSome_iff_ne_none] using hctx
    show execContextSwitchOut ctx s = _
    simp only [execContextSwitchOut, hsome, hout, hstop, hquiet, Bool.or_false, Bool.not_true, Bool.false_eq_true, if_false]
    exact congrArg Host.Outcome.next (if_pos hfit)
  · intro ctx s s' hout hback
    exact ⟨_, contextSwitchIn_eq hout hback, switchedIn_ctx, switchedIn_same s' ctx⟩

end Sys2Proof.Proofs.Preemption
end

section
/-! Proofs about the matrix engine (spec/04 R72, R74; spec/18 R308 to R325). -/

namespace Sys2Proof.Proofs.Matrix

open Sys2Proof.Machine Sys2Proof.Claims Sys2Proof.Proofs.Checks Sys2Proof.Proofs.Masks

/-! ## One element of a step -/

theorem flagIf_nv_within (c : Bool) : flagIf c fNV &&& ~~~stepFlags = 0 := by cases c <;> decide

theorem and_stepFlags_within (b : BitVec 7) : (b &&& stepFlags) &&& ~~~stepFlags = 0 := by
  rw [BitVec.and_assoc, show stepFlags &&& ~~~stepFlags = 0#7 by decide, BitVec.and_zero]
  rfl

theorem stepFloat_flags (fa fb : Fmt) (sc : Int) (c : Nat) (ps : List (Nat × Nat)) :
    (stepFloat fa fb sc c ps).2 &&& ~~~stepFlags = 0 := by
  unfold stepFloat
  dsimp only
  split
  · exact flagIf_nv_within _
  · split
    · exact flagIf_nv_within _
    · split
      · exact flagIf_nv_within _
      · exact and_stepFlags_within _

theorem stepFloat_nan (fa fb : Fmt) (sc : Int) (c : Nat) (ps : List (Nat × Nat))
    (h : (fmtF32.decode c).isNan = true ∨ ∃ p ∈ ps, (fa.decode p.1).isNan = true ∨ (fb.decode p.2).isNan = true) :
    (stepFloat fa fb sc c ps).1 = 0x7FC00000 := by
  have nan : ((fmtF32.decode c).isNan ||
      (ps.map fun p => (fa.decode p.1, fb.decode p.2)).any fun v => v.1.isNan || v.2.isNan) = true := by
    simpa [List.any_map, List.any_eq_true] using h
  unfold stepFloat
  dsimp only
  rw [if_pos]
  rw [nan, Bool.true_or, Bool.true_or]

theorem signed_wrap32 {y : Int} (lo : -2 ^ 31 ≤ y) (hi : y ≤ 2 ^ 31 - 1) : signed 32 (wrap 32 y) = y := by
  unfold signed wrap
  norm_num at *
  split <;> omega

theorem t2Val_bad_iff (n : Nat) : (t2Val n).2 = true ↔ n % 4 = 2 := by
  unfold t2Val
  split <;> simp_all

theorem flags_of (a b : Bool) : (flagIf a fOF ||| flagIf b fBT) &&& fOF = flagIf a fOF ∧
    (flagIf a fOF ||| flagIf b fBT) &&& fBT = flagIf b fBT := by
  cases a <;> cases b <;> decide

theorem flagIf_ne_zero {c : Bool} {f : BitVec 7} (hf : f ≠ 0) : flagIf c f ≠ 0 ↔ c = true := by
  cases c
  · simp [flagIf]
  · exact iff_of_true hf rfl

/-- The sum that a ternary element takes, clamped to 32 bits. -/
def clamp32 (x : Int) : Int := max (-2 ^ 31) (min (2 ^ 31 - 1) x)

theorem signed_clamp32 (x : Int) : signed 32 (wrap 32 (clamp32 x)) = clamp32 x :=
  signed_wrap32 (by unfold clamp32; omega) (by unfold clamp32; omega)

theorem clamp32_changes (x : Int) : (clamp32 x != x) = true ↔ x < -2 ^ 31 ∨ 2 ^ 31 - 1 < x := by
  rw [bne_iff_ne]
  unfold clamp32
  omega

/-- Settles O14. -/
theorem matrixStepElement : Obligations.MatrixStepElement := by
  refine ⟨stepFloat_flags, stepFloat_nan, fun c ps => ?_⟩
  intro x
  have e : stepTernary c ps =
      (wrap 32 (clamp32 x), flagIf (clamp32 x != x) fOF ||| flagIf (ps.any fun p => (t2Val p.1).2) fBT) := rfl
  have flags := flags_of (clamp32 x != x) (ps.any fun p => (t2Val p.1).2)
  rw [e]
  dsimp only
  rw [signed_clamp32, flags.1, flags.2, flagIf_ne_zero (by decide), flagIf_ne_zero (by decide), clamp32_changes]
  refine ⟨fun _ => ?_, fun _ => ?_, fun _ => ?_, .rfl, ?_⟩
  · unfold clamp32
    omega
  · unfold clamp32
    omega
  · unfold clamp32
    omega
  · simp only [List.any_eq_true, t2Val_bad_iff]

/-! ## The forms -/

theorem scWrite_cur (s : State) (p : Place) (off : Nat) (bs : List Byte) : (s.scWrite p off bs).cur = s.cur := by
  cases p <;> rfl

theorem setFlags_cur (s : State) (t : TRef) (fl : BitVec 7) : (s.setFlags t fl).cur = s.cur := by
  unfold State.setFlags
  split <;> rfl

theorem cur_foldl {α : Type} {f : State → α → State} (hf : ∀ s a, (f s a).cur = s.cur) (l : List α) (s : State) :
    (l.foldl f s).cur = s.cur := by
  induction l generalizing s with
  | nil => rfl
  | cons a l ih => exact (ih _).trans (hf s a)

/-- What a wave does in such a form leaves the group that issues. -/
theorem waveArm_eff_cur {i : Instr} {A : WaveArm} (hA : waveArms i = some A) (t : TRef) (s : State) :
    (A.eff t s).cur = s.cur := by
  unfold waveArms at hA
  split at hA
  case h_1 =>
    obtain rfl := Option.some.inj hA
    exact scWrite_cur s _ _ _
  case h_2 h x =>
    obtain rfl := Option.some.inj hA
    dsimp only
    split
    · exact scWrite_cur s.draw _ _ _
    · split
      · exact cur_foldl (fun s r => scWrite_cur s _ _ _) _ s.draw
      · rfl
  case h_3 =>
    obtain rfl := Option.some.inj hA
    exact (setFlags_cur _ _ _).trans (scWrite_cur s _ _ _)
  case h_4 => cases hA

theorem not_held {s : State} {A : WaveArm} {t : TRef}
    (hr : ∀ k ∈ A.rd, s.slotBlocked t.lid t.wg (s.handle t.lid t.wg k).slot false (s.stamp + 1) = false)
    (hw : ∀ k ∈ A.wr, s.slotBlocked t.lid t.wg (s.handle t.lid t.wg k).slot true (s.stamp + 1) = false)
    (hb : A.busy t s = false) :
    ((A.rd.any fun h => s.slotBlocked t.lid t.wg (s.handle t.lid t.wg h).slot false (s.stamp + 1)) ||
      (A.wr.any fun h => s.slotBlocked t.lid t.wg (s.handle t.lid t.wg h).slot true (s.stamp + 1)) || A.busy t s) = false := by
  rw [hb, Bool.or_false, Bool.or_eq_false_iff]
  exact ⟨List.any_eq_false.2 fun k hk => by rw [hr k hk]; decide, List.any_eq_false.2 fun k hk => by rw [hw k hk]; decide⟩

theorem waveForm_pass {s : State} {A : WaveArm} (ha : s.Admits A.need A.h) (hw : WaveOk s A)
    (hcur : ∀ t s, (A.eff t s).cur = s.cur) :
    s.waveForm A.h A.need A.rd A.wr (fun _ t s => A.chk t s) A.busy A.eff A.each =
      ((s.active A.h.pred).foldl (fun s t => A.each t s) ((leads (s.active A.h.pred)).foldl (fun s t => A.eff t s) s)).retireAll
        (hlen A.h) s.cur.threads := by
  obtain ⟨hu, hf, hl⟩ := hw
  refine (issue_admits _ ha).trans ?_
  simp only [deliver_none _ _ _ _ hu]
  refine (guardFaults_pass _ _ _ _ _ hf).trans ((if_neg fun e => ?_).trans ?_)
  · obtain ⟨t, ht, e⟩ := List.any_eq_true.1 e
    obtain ⟨hr, hwr, hb⟩ := hl t ht
    rw [not_held hr hwr hb] at e
    cases e
  · rw [cur_foldl (fun s t => hcur t s)]

theorem exec_of_waveArms {i : Instr} {A : WaveArm} (hA : waveArms i = some A) (s : State) :
    exec i s = .next (s.waveForm A.h A.need A.rd A.wr (fun _ t s => A.chk t s) A.busy A.eff A.each) := by
  unfold waveArms at hA
  split at hA
  case h_4 => cases hA
  all_goals
    obtain rfl := Option.some.inj hA
    rfl

theorem mmaForm_pass {s : State} {h : Hdr} {n : Need} (names : List Nat) {setOf : State → TRef → Nat} {i : Instr}
    (vals : TRef → State → DWord × DWord) (ha : s.Admits n h) (hu : s.Undisturbed (s.active h.pred))
    (hb : ∀ t ∈ s.active h.pred, s.mmaSetBad (setOf s t) t = false) (hs : SetOk s (setOf s) h.pred i) :
    s.mmaForm h n names setOf i vals = setArrival s (setOf s) (hlen h) h.pred .mma i vals := by
  refine (issueWith_admits _ _ ha).trans ?_
  simp only [deliver_none _ _ _ _ hu]
  exact (guardSet_pass _ _ _ _ hb).trans (arriveSet_ok _ _ _ hs)

theorem find_disagree_none {rest : List SetArr} {lead : SetArr} (h : ∀ a ∈ rest, lo32 a.a = lo32 lead.a) :
    (rest.find? fun a => lo32 a.a != lo32 lead.a) = none :=
  List.find?_eq_none.2 fun a ha => by rw [h a ha, bne_self_eq_false]; decide

theorem mloopStart_begins {lid inst set : Nat} {s : State} {h : Hdr} {x : MloopX} {arrs : List SetArr} {lead : SetArr}
    {rest : List SetArr} (hr : s.mmaReady lid inst set = some (.mloop h x, arrs)) (hv : arrs.filter SetArr.pred = lead :: rest)
    (hag : ∀ a ∈ rest, lo32 a.a = lo32 lead.a) (hf : s.loopFault inst set h x lead = none)
    (hh : s.tick.loopHeld set inst (s.wgOf lead.thread).die (s.wgOf lead.thread).site
      (s.tick.mkLoop inst set h x lead (arrs.map SetArr.thread)) = false) :
    execMloopStart lid inst set s = .next ((arrs.map SetArr.thread).foldl State.finish
      ((s.tick.clearSet lid inst set).startLoop inst set (s.wgOf lead.thread).die (s.wgOf lead.thread).site
        (s.tick.mkLoop inst set h x lead (arrs.map SetArr.thread)))) := by
  unfold execMloopStart
  simp only [hr, hv, find_disagree_none hag, hf, hh, Bool.false_eq_true, if_false]

theorem mgateDecision_decides {lid inst set : Nat} {s : State} {h : Hdr} {x : MgateX} {arrs : List SetArr} {lead : SetArr}
    {rest : List SetArr} (hr : s.mmaReady lid inst set = some (.mgate h x, arrs)) (hv : arrs.filter SetArr.pred = lead :: rest)
    (hu : handleUse (s.handle lead.thread.lid lead.thread.wg x.h.toNat) x.h.toNat (s.isMember lid inst set lead.thread.wg) = none)
    (hf : shFmt (s.handle lead.thread.lid lead.thread.wg x.h.toNat).shape ∈ [2, 3, 6])
    (hb : s.slotBlocked lid lead.thread.wg (s.handle lead.thread.lid lead.thread.wg x.h.toNat).slot false (s.stamp + 1) = false) :
    execMgateDecision lid inst set s = .next
      ((s.clearSet lid inst set).gateDecide inst set x lead (arrs.map SetArr.thread) (lead :: rest)) := by
  unfold execMgateDecision
  simp only [hr, hv, hu, List.contains_iff_mem.2 hf, hb, Bool.not_true, Bool.false_eq_true, if_false]

/-- Settles O13. -/
theorem matrixFormsComplete : Obligations.MatrixFormsComplete := by
  refine ⟨fun h x s ha hu hb hs => congrArg _ (mmaForm_pass _ _ ha hu hb hs),
    fun h x s ha hu hb hs => congrArg _ (mmaForm_pass _ _ ha hu hb hs),
    fun _ _ _ _ _ _ _ _ _ hr hv hag hf hh => mloopStart_begins hr hv hag hf hh,
    fun _ _ _ _ _ _ _ _ _ hr hv hu hf hb => mgateDecision_decides hr hv hu hf hb,
    fun die site s l hl => ?_, fun i A hA s ha hw => ?_⟩
  · show execMatrixStep die site s = _
    unfold execMatrixStep
    simp only [hl]
  · rw [exec_of_waveArms hA, waveForm_pass ha hw fun t s => waveArm_eff_cur hA t s]

end Sys2Proof.Proofs.Matrix

end

section
/-! Soundness of a state: the invariant, and the rules by which a run of the model's functions keeps it (spec/02 R28; spec/23 R372, R373). -/

namespace Sys2Proof.Proofs.Soundness

open Sys2Proof.Machine Sys2Proof.Claims

/-! ## What soundness rests on -/

/-- A state is sound by its memory, its latch and the two feature words alone: whatever the other fields become, it stays so. -/
theorem sound_with {s : State} (h : Sound s) {power running lovf updating qtbase inval invalDone invalReg hdmBase hdmCnt hdmWin
    hqueues now cycle nextLid idGen xmssLeaf xmssTree fwImages fwOut change linksDown linkResends linkOut irqs order nextSeq
    stamp keyTag nextKey flows agentAcq dies hubCtrs contexts objs launches insts wgs waves threads loads results moves tileOps
    parked releases contribs sync issueQ cur curW0 curW1 ext agenda placements dbgOut hostRd snoops peerOut freeCtr} :
    Sound { s with
      power := power, running := running, lovf := lovf, updating := updating, qtbase := qtbase, inval := inval,
      invalDone := invalDone, invalReg := invalReg, hdmBase := hdmBase, hdmCnt := hdmCnt, hdmWin := hdmWin, hqueues := hqueues,
      now := now, cycle := cycle, nextLid := nextLid, idGen := idGen, xmssLeaf := xmssLeaf, xmssTree := xmssTree,
      fwImages := fwImages, fwOut := fwOut, change := change, linksDown := linksDown, linkResends := linkResends,
      linkOut := linkOut, irqs := irqs, order := order, nextSeq := nextSeq, stamp := stamp, keyTag := keyTag,
      nextKey := nextKey, flows := flows, agentAcq := agentAcq, dies := dies, hubCtrs := hubCtrs, contexts := contexts,
      objs := objs, launches := launches, insts := insts, wgs := wgs, waves := waves, threads := threads, loads := loads,
      results := results, moves := moves, tileOps := tileOps, parked := parked, releases := releases, contribs := contribs,
      sync := sync, issueQ := issueQ, cur := cur, curW0 := curW0, curW1 := curW1, ext := ext, agenda := agenda,
      placements := placements, dbgOut := dbgOut, hostRd := hostRd, snoops := snoops, peerOut := peerOut, freeCtr := freeCtr } := h

theorem enter_sound {s : State} (h : Sound s) {a t st ps at_ bs} : Sound (s.enter a t st ps at_ bs) :=
  ⟨enter_wf _ _ _ _ _ _ _ h.1, h.2⟩

/-! ## Answers that hold a state -/

def SoundSnd {α : Type} (p : α × State) : Prop := Sound p.2

def SoundOpt : Option State → Prop
  | some s => Sound s
  | none => True

def SoundOptSnd {α : Type} : Option (α × State) → Prop
  | some p => Sound p.2
  | none => True

def SoundOk {ε : Type} : Except ε State → Prop
  | .ok s => Sound s
  | .error _ => True

def SoundOkSnd {ε α : Type} : Except ε (α × State) → Prop
  | .ok p => Sound p.2
  | .error _ => True

def SoundOut : Out → Prop
  | .next s => Sound s
  | _ => True

def SoundOwn : OwnRes → Prop
  | .done s => Sound s
  | .wait s => Sound s
  | .fault _ => True

/-- What a plan does when it takes effect. -/
def SoundGo : Plan → Prop
  | .go eff => ∀ s, Sound s → Sound (eff s)
  | _ => True

def SoundPlan (p : Plan × State) : Prop := Sound p.2 ∧ SoundGo p.1

def SoundPkt : Option PktRes → Prop
  | some r => Sound r.s
  | none => True

theorem some_sound {x : Option State} {s : State} (e : x = some s) (h : SoundOpt x) : Sound s := by
  subst e
  exact h

theorem some_snd_sound {α : Type} {x : Option (α × State)} {a : α} {s : State} (e : x = some (a, s)) (h : SoundOptSnd x) :
    Sound s := by
  subst e
  exact h

theorem ok_sound {ε : Type} {x : Except ε State} {s : State} (e : x = .ok s) (h : SoundOk x) : Sound s := by
  subst e
  exact h

theorem ok_snd_sound {ε α : Type} {x : Except ε (α × State)} {a : α} {s : State} (e : x = .ok (a, s)) (h : SoundOkSnd x) :
    Sound s := by
  subst e
  exact h

theorem done_sound {x : OwnRes} {s : State} (e : x = .done s) (h : SoundOwn x) : Sound s := by
  subst e
  exact h

theorem wait_sound {x : OwnRes} {s : State} (e : x = .wait s) (h : SoundOwn x) : Sound s := by
  subst e
  exact h

theorem getD_sound {x : Option State} {s : State} (h : Sound s) (hx : ∀ t, x = some t → Sound t) : Sound (x.getD s) := by
  cases x with
  | none => exact h
  | some t => exact hx t rfl

/-! ## Branches and runs -/

theorem opt_bind {α β : Type} {x : Option β} {f : β → Option (α × State)} (hf : ∀ b, SoundOptSnd (f b)) :
    SoundOptSnd (x >>= f) := by
  cases x with
  | none => trivial
  | some b => exact hf b

theorem opt_bind_sound {α β : Type} {x : Option (β × State)} {f : β × State → Option (α × State)} (h : SoundOptSnd x)
    (hf : ∀ p, Sound p.2 → SoundOptSnd (f p)) : SoundOptSnd (x >>= f) := by
  cases x with
  | none => trivial
  | some p => exact hf p h

theorem ok_bind_sound {ε α : Type} {x : Except ε State} {f : State → Except ε (α × State)} (h : SoundOk x)
    (hf : ∀ s, Sound s → SoundOkSnd (f s)) : SoundOkSnd (x >>= f) := by
  cases x with
  | error e => trivial
  | ok s => exact hf s h

theorem opt_foldlM {α : Type} {f : State → α → Option State} {l : List α} {s : State} (hf : ∀ s, Sound s → ∀ a, SoundOpt (f s a))
    (h : Sound s) : SoundOpt (l.foldlM f s) := by
  induction l generalizing s with
  | nil => exact h
  | cons a l ih =>
    rw [List.foldlM_cons]
    cases e : f s a with
    | none => trivial
    | some s1 => exact ih (some_sound e (hf s h a))


theorem ok_bind {ε α : Type} {x : Except ε α} {f : α → Except ε State} (hf : ∀ a, SoundOk (f a)) : SoundOk (x >>= f) := by
  cases x with
  | error e => trivial
  | ok a => exact hf a

theorem sound_ite {c : Prop} [Decidable c] {s t : State} (hs : Sound s) (ht : Sound t) : Sound (if c then s else t) := by
  split
  · exact hs
  · exact ht

theorem snd_ite {α : Type} {c : Prop} [Decidable c] {x y : α × State} (hx : SoundSnd x) (hy : SoundSnd y) :
    SoundSnd (if c then x else y) := by
  split
  · exact hx
  · exact hy

theorem ok_ite {ε : Type} {c : Prop} [Decidable c] {x y : Except ε State} (hx : SoundOk x) (hy : SoundOk y) :
    SoundOk (if c then x else y) := by
  split
  · exact hx
  · exact hy

theorem sound_foldl {α : Type} {f : State → α → State} {l : List α} {s : State} (hf : ∀ s, Sound s → ∀ a, Sound (f s a))
    (h : Sound s) : Sound (l.foldl f s) := by
  induction l generalizing s with
  | nil => exact h
  | cons a l ih => exact ih (hf s h a)

theorem sound_foldl_mem {α : Type} {f : State → α → State} {l : List α} {s : State} (hf : ∀ a ∈ l, ∀ s, Sound s → Sound (f s a))
    (h : Sound s) : Sound (l.foldl f s) := by
  induction l generalizing s with
  | nil => exact h
  | cons a l ih => exact ih (fun b hb => hf b (.tail _ hb)) (hf a (.head _) s h)

theorem soundSnd_foldl {α β : Type} {f : β × State → α → β × State} {l : List α} {p : β × State}
    (hf : ∀ p, Sound p.2 → ∀ a, SoundSnd (f p a)) (h : Sound p.2) : SoundSnd (l.foldl f p) := by
  induction l generalizing p with
  | nil => exact h
  | cons a l ih => exact ih (hf p h a)

end Sys2Proof.Proofs.Soundness

end

section

/-! # The operations that classes of instructions share keep a state sound (O30)

One lemma for each function of the model that answers a state, or an outcome with one, in the order of the model's
text: its branches, each by the lemmas of the functions that it calls. -/

namespace Sys2Proof.Proofs.Soundness

open Sys2Proof.Machine Sys2Proof.Claims

/-! ## Finite tables by key, and the named accessors of the tables of `State` -/

theorem updThr_sound {s : State} (h : Sound s) {t f} : Sound (s.updThr t f) := sound_with h

theorem updWave_sound {s : State} (h : Sound s) {t f} : Sound (s.updWave t f) := sound_with h

theorem updWg_sound {s : State} (h : Sound s) {lid wg f} : Sound (s.updWg lid wg f) := sound_with h

theorem updInst_sound {s : State} (h : Sound s) {lid i f} : Sound (s.updInst lid i f) := sound_with h

theorem updLaunch_sound {s : State} (h : Sound s) {lid f} : Sound (s.updLaunch lid f) := sound_with h

theorem updCtx_sound {s : State} (h : Sound s) {c f} : Sound (s.updCtx c f) := sound_with h

theorem updDie_sound {s : State} (h : Sound s) {d f} : Sound (s.updDie d f) := sound_with h

theorem updCore_sound {s : State} (h : Sound s) {d site f} : Sound (s.updCore d site f) := updDie_sound h

theorem draw_sound {s : State} (h : Sound s) : Sound (s.draw) := sound_with h

/-! ## Memory -/

theorem tick_sound {s : State} (h : Sound s) : Sound (s.tick) := sound_with h

theorem tagKeys_sound {s : State} (h : Sound s) {key locs} : Sound (s.tagKeys key locs) := sound_with h

theorem tagCtx_sound {s : State} (h : Sound s) {ctx locs} : Sound (s.tagCtx ctx locs) :=
  sound_foldl (fun _ h1 _ => tagKeys_sound h1) h

theorem choose_sound {s : State} (h : Sound s) {n} : SoundSnd (s.choose n) := draw_sound h

theorem loose_sound {s : State} (h : Sound s) : SoundSnd (s.loose) := draw_sound h

theorem readPiece_sound {s : State} (h : Sound s) {stg a t at_ ctx locs} : SoundSnd (s.readPiece stg a t at_ ctx locs) :=
  draw_sound (draw_sound h)

theorem readPieces_sound {s : State} (h : Sound s) {stg a t at_ ctx ps} : SoundSnd (s.readPieces stg a t at_ ctx ps) := by
  induction ps generalizing s with
  | nil => exact h
  | cons p ps ih =>
    have h1 : Sound (s.readPiece stg a t at_ ctx p).2 := readPiece_sound h
    exact ih h1

theorem fwEnter_sound {s : State} (h : Sound s) {scope bs} : Sound (s.fwEnter scope bs) := enter_sound (tick_sound h)

theorem fwWrite_sound {s : State} (h : Sound s) {scope ctx bs} : Sound (s.fwWrite scope ctx bs) := tagCtx_sound (fwEnter_sound h)

theorem fwPlain_sound {s : State} (h : Sound s) {scope bs} : Sound (s.fwPlain scope bs) := tagKeys_sound (fwEnter_sound h)

theorem fwWriteVa_sound {s : State} (h : Sound s) {scope ctx va bytes} : Sound (s.fwWriteVa scope ctx va bytes) := by
  unfold State.fwWriteVa
  split
  · exact fwWrite_sound h
  · exact h

/-! ## The sticky flags of a wave, %fpflags (R27, R68), and their delivery test (R342) -/

theorem setFlags_sound {s : State} (h : Sound s) {t fl} : Sound (s.setFlags t fl) := sound_ite h (updWave_sound h)

theorem clearFlags_sound {s : State} (h : Sound s) {t fl} : Sound (s.clearFlags t fl) := updWave_sound h

/-! ## How a group issues an instruction -/

theorem count_sound {s : State} (h : Sound s) {die site src ctx lid wg tid n} : Sound (s.count die site src ctx lid wg tid n) :=
  sound_with (updDie_sound h)

theorem countHub_sound {s : State} (h : Sound s) {src ctx} : Sound (s.countHub src ctx) := sound_with h

theorem countModule_sound {s : State} (h : Sound s) {src} : Sound (s.countModule src) := sound_with h

theorem countT_sound {s : State} (h : Sound s) {t src n} : Sound (s.countT t src n) := count_sound h

theorem retire_sound {s : State} (h : Sound s) {len t} : Sound (s.retire len t) := updThr_sound h

theorem retireAll_sound {s : State} (h : Sound s) {len ts} : Sound (s.retireAll len ts) :=
  sound_foldl (fun _ h1 _ => retire_sound h1) h

theorem retireBound_sound {s : State} (h : Sound s) {len t} : Sound (s.retireBound len t) := updThr_sound h

theorem retireBoundAll_sound {s : State} (h : Sound s) {len ts} : Sound (s.retireBoundAll len ts) :=
  sound_foldl (fun _ h1 _ => retireBound_sound h1) h

theorem raise_sound {s : State} (h : Sound s) {ts f} : Sound (s.raise ts f) := sound_foldl (fun _ h1 _ => updThr_sound h1) h

theorem forgetWalks_sound {s : State} (h : Sound s) {ts} : Sound (s.forgetWalks ts) :=
  sound_foldl (fun _ h1 _ => updThr_sound h1) h

theorem stopWith_sound {s : State} (h : Sound s) {len p idle ts f} : Sound (s.stopWith len p idle ts f) :=
  raise_sound (forgetWalks_sound (retireAll_sound h))

theorem stop_sound {s : State} (h : Sound s) {len p ts f} : Sound (s.stop len p ts f) := stopWith_sound h

theorem issueWith_sound {s : State} (h : Sound s) {h' n idle} {body : List TRef → State → State}
    (hbody : ∀ a s, Sound s → Sound (body a s)) : Sound (s.issueWith h' n idle body) := by
  unfold State.issueWith
  split
  · exact raise_sound h
  · dsimp only
    split
    · exact stopWith_sound h
    · exact hbody _ _ h

theorem issue_sound {s : State} (h : Sound s) {h' n} {body : List TRef → State → State}
    (hbody : ∀ a s, Sound s → Sound (body a s)) : Sound (s.issue h' n body) :=
  issueWith_sound h fun _ _ h1 => hbody _ _ h1

theorem issueShort_sound {s : State} (h : Sound s) {f n} {body : List TRef → State → State}
    (hbody : ∀ a s, Sound s → Sound (body a s)) : Sound (s.issueShort f n body) := by
  unfold State.issueShort
  split
  · exact raise_sound h
  · split
    · exact raise_sound h
    · exact hbody _ _ h

theorem each_sound {s : State} (h : Sound s) {len act} {eff : TRef → State → State} (heff : ∀ a s, Sound s → Sound (eff a s)) :
    Sound (s.each len act eff) :=
  retireAll_sound (sound_foldl (fun _ h1 _ => heff _ _ h1) h)

theorem powered_sound {s : State} (h : Sound s) {f : State → State} (hf : ∀ s, Sound s → Sound (f s)) : SoundOut (s.powered f) :=
  sound_ite (hf _ h) h

theorem put_sound {s : State} (h : Sound s) {wide d imm lit val t} : Sound (s.put wide d imm lit val t) :=
  setFlags_sound (updThr_sound h)

theorem alu_sound {s : State} (h : Sound s) {h' imm n wide val} : Sound (s.alu h' imm n wide val) :=
  issue_sound h fun _ _ h1 => each_sound h1 fun _ _ h2 => put_sound h2

theorem aluShort_sound {s : State} (h : Sound s) {f n wide val} : Sound (s.aluShort f n wide val) :=
  issueShort_sound h fun _ _ h1 => each_sound h1 fun _ _ h2 => put_sound h2

theorem guardFaults_sound {s : State} (h : Sound s) {len p act all chk} {k : State → State} (hk : ∀ s, Sound s → Sound (k s)) :
    Sound (s.guardFaults len p act all chk k) := by
  unfold State.guardFaults
  dsimp only
  split
  · exact hk _ h
  · exact stop_sound h

theorem askWalk_sound {s : State} (h : Sound s) {t page} : Sound (s.askWalk t page) :=
  sound_ite (updDie_sound h) (sound_ite (updDie_sound h) (updCore_sound h))

theorem holdGroup_sound {s : State} (h : Sound s) {w} : Sound (s.holdGroup w) := sound_foldl (fun _ h1 _ => updThr_sound h1) h

theorem parkWalk_sound {s : State} (h : Sound s) {t page} : Sound (s.parkWalk t page) := holdGroup_sound (updDie_sound h)

theorem stall_sound {s : State} (h : Sound s) {acc} : SoundOpt (s.stall acc) := by
  unfold State.stall
  dsimp only
  split
  · exact trivial
  · show Sound _
    split
    · exact parkWalk_sound (sound_foldl (fun _ h1 _ => askWalk_sound h1) h)
    · exact sound_ite (holdGroup_sound (sound_foldl (fun _ h1 _ => askWalk_sound h1) h)) (sound_foldl (fun _ h1 _ =>
        askWalk_sound h1) h)
    · exact sound_foldl (fun _ h1 _ => askWalk_sound h1) h

theorem whenClear_sound {s : State} (h : Sound s) {acc} {k : State → State} (hk : ∀ s, Sound s → Sound (k s)) :
    Sound (s.whenClear acc k) :=
  sound_ite h (hk _ h)

theorem withAccess_sound {s : State} (h : Sound s) {len p act acc} {k : State → State} (hk : ∀ s, Sound s → Sound (k s)) :
    Sound (s.withAccess len p act acc k) := by
  unfold State.withAccess
  split
  next _ e => exact some_sound e (stall_sound h)
  · exact guardFaults_sound h fun _ h1 => hk _ h1

/-! ## The INT class (R77 to R79) and its short-map forms (R48) -/

theorem int_sound {s : State} (h : Sound s) {h' imm n clamps x} : Sound (s.int h' imm n clamps x) := alu_sound h

theorem intShort_sound {s : State} (h : Sound s) {f ty n x} : Sound (s.intShort f ty n x) := aluShort_sound h

/-! ## The CMP class (R82 to R84) -/

theorem predForm_sound {s : State} (h : Sound s) {h' n pd val} : Sound (s.predForm h' n pd val) :=
  issue_sound h fun _ _ h1 => each_sound h1 fun _ _ h2 => setFlags_sound (updThr_sound h2)

/-! ## The FLT class (R96 to R101) and its short-map forms (R48) -/

theorem flt1_sound {s : State} (h : Sound s) {h' imm f} : Sound (s.flt1 h' imm f) := alu_sound h

theorem flt2_sound {s : State} (h : Sound s) {h' imm f} : Sound (s.flt2 h' imm f) := alu_sound h

theorem fltShort_sound {s : State} (h : Sound s) {f val} : Sound (s.fltShort f val) := aluShort_sound h

/-! ## Releases and acquires of a workgroup (R251 to R257), how its writes enter the order, their digest and
journal (R272, R273, R335), stores held before the unit's turn (R267, R360), and bytes carried with an
atomic (R93) -/

theorem journalRec_sound {s : State} (h : Sound s) {lid va loc} : Sound (s.journalRec lid va loc) := by
  unfold State.journalRec
  dsimp only
  split
  · exact tagCtx_sound (enter_sound (updLaunch_sound h))
  · exact updLaunch_sound h

theorem foldDigest_sound {s : State} (h : Sound s) {lid wg va bs} : Sound (s.foldDigest lid wg va bs) :=
  sound_ite (updLaunch_sound (updWg_sound h)) (updWg_sound h)

theorem enterPlain_sound {s : State} (h : Sound s) {lid wg thread stamp bs pubs atom} :
    Sound (s.enterPlain lid wg thread stamp bs pubs atom) :=
  tagKeys_sound (enter_sound h)

theorem enterWg_sound {s : State} (h : Sound s) {lid wg thread stamp va bs pubs atom} :
    Sound (s.enterWg lid wg thread stamp va bs pubs atom) :=
  sound_ite h (sound_ite (updLaunch_sound h) (enterPlain_sound (foldDigest_sound (sound_ite (journalRec_sound h) h))))

theorem logSyncBy_sound {s : State} (h : Sound s) {by_ rel scope cover} : Sound (s.logSyncBy by_ rel scope cover) := sound_with h

theorem logSync_sound {s : State} (h : Sound s) {lid wg rel scope cover} : Sound (s.logSync lid wg rel scope cover) :=
  logSyncBy_sound h

theorem logHeld_sound {s : State} (h : Sound s) {lid wg scope cover} : Sound (s.logHeld lid wg scope cover) := sound_with h

theorem logEntry_sound {s : State} (h : Sound s) {lid wg r} : Sound (s.logEntry lid wg r) := sound_with h

theorem enterStaged_sound {s : State} (h : Sound s) {lid wg scope at_ a es} : Sound (s.enterStaged lid wg scope at_ a es) :=
  tick_sound (sound_foldl (fun _ h1 _ => sound_ite (sound_ite h1 (enterPlain_sound h1)) (enterWg_sound h1)) (sound_with h))

theorem release_sound {s : State} (h : Sound s) {lid wg scope upTo} : Sound (s.release lid wg scope upTo) :=
  sound_ite (logSync_sound (enterStaged_sound (tick_sound (updWg_sound (count_sound h))))) (tick_sound (logHeld_sound
    (updWg_sound (tick_sound (count_sound h)))))

theorem releaseAll_sound {s : State} (h : Sound s) {lid wg scope} : Sound (s.releaseAll lid wg scope) := release_sound h

theorem enterRel_sound {s : State} (h : Sound s) {lid wg r} : Sound (s.enterRel lid wg r) :=
  tick_sound (logEntry_sound (enterStaged_sound (updWg_sound h)))

theorem enterHeld_sound {s : State} (h : Sound s) {lid ms} : Sound (s.enterHeld lid ms) :=
  sound_foldl (fun _ h1 _ => enterRel_sound h1) h

theorem acquire_sound {s : State} (h : Sound s) {lid wg scope} : Sound (s.acquire lid wg scope) :=
  tick_sound (logSync_sound (updWg_sound (tick_sound h)))

theorem carry_sound {s : State} (h : Sound s) {lid wg locs} : Sound (s.carry lid wg locs) := by
  unfold State.carry
  split
  · exact h
  · exact sound_ite (enterWg_sound (updWg_sound h)) (sound_with (enterWg_sound (updWg_sound h)))

theorem reportRace_sound {s : State} (h : Sound s) {lid ring a b} : Sound (s.reportRace lid ring a b) :=
  sound_ite (updLaunch_sound (fwWriteVa_sound h)) (updLaunch_sound h)

theorem checkRaces_sound {s : State} (h : Sound s) {ctx b} : Sound (s.checkRaces ctx b) := by
  refine sound_ite h (sound_foldl (fun _ h1 _ => ?_) h)
  split
  · exact reportRace_sound h1
  · exact h1

theorem noteAccess_sound {s : State} (h : Sound s) {t eng kind va locs} : Sound (s.noteAccess t eng kind va locs) :=
  updLaunch_sound (checkRaces_sound (tick_sound h))

theorem logAccess_sound {s : State} (h : Sound s) {t kind va locs} : Sound (s.logAccess t kind va locs) :=
  noteAccess_sound (countT_sound h)

theorem stage_sound {s : State} (h : Sound s) {t va locs bytes} : Sound (s.stage t va locs bytes) :=
  updWg_sound (tick_sound (logAccess_sound h))

theorem awaitTurn_sound {s : State} (h : Sound s) {act} : Sound (s.awaitTurn act) := sound_foldl (fun _ h1 _ => updThr_sound h1) h

theorem atTurn_sound {s : State} (h : Sound s) {act} {k : State → State} (hk : ∀ s, Sound s → Sound (k s)) :
    Sound (s.atTurn act k) :=
  sound_ite (hk _ h) (awaitTurn_sound h)

theorem ordered_sound {s : State} (h : Sound s) {act atom} {k : State → State} (hk : ∀ s, Sound s → Sound (k s)) :
    Sound (s.ordered act atom k) :=
  sound_ite (hk _ h) (sound_foldl (fun _ h1 _ => updThr_sound h1) h)

/-! ## Waits that end (R328), collectives at rejoin masks and their results (R153 to R155, R158, R160,
R161), set reductions (R162), barriers (R165), and path signatures (R280, R281) -/

theorem finish_sound {s : State} (h : Sound s) {t} : Sound (s.finish t) := updThr_sound h

theorem park_sound {s : State} (h : Sound s) {w len bound t} : Sound (s.park w len bound t) := updThr_sound h

theorem foldPath_sound {s : State} (h : Sound s) {t src len target} : Sound (s.foldPath t src len target) := by
  refine sound_ite h ?_
  dsimp only
  split
  · exact sound_ite (updLaunch_sound (fwWriteVa_sound (updThr_sound h))) (updThr_sound h)
  · exact updThr_sound h

theorem setS_sound {s : State} (h : Sound s) {lid wg wave n wide x} : Sound (s.setS lid wg wave n wide x) := sound_with h

theorem writeRes_sound {s : State} (h : Sound s) {t d wide r} : Sound (s.writeRes t d wide r) := by
  unfold State.writeRes
  split
  · exact h
  · split
    · exact setS_sound h
    · exact updThr_sound h
  · exact updThr_sound h

theorem updMask_sound {s : State} (h : Sound s) {t k f} : Sound (s.updMask t k f) := updWave_sound h

theorem writeBallot_sound {s : State} (h : Sound s) {t k ballot} : Sound (s.writeBallot t k ballot) := updMask_sound h

theorem complete_sound {s : State} (h : Sound s) {t k} : Sound (s.complete t k) := by
  refine sound_ite h ?_
  split
  · exact h
  · dsimp only
    split
    · exact writeBallot_sound (sound_foldl (fun _ h1 _ => finish_sound h1) (sound_foldl (fun _ h1 _ => setFlags_sound
        (writeRes_sound h1)) (updMask_sound h)))
    · exact sound_foldl (fun _ h1 _ => finish_sound h1) (sound_foldl (fun _ h1 _ => setFlags_sound (writeRes_sound h1))
        (updMask_sound h))

theorem leaveMask_sound {s : State} (h : Sound s) {t k} : Sound (s.leaveMask t k) := updMask_sound h

theorem leaveAll_sound {s : State} (h : Sound s) {t} : Sound (s.leaveAll t) :=
  sound_foldl (fun _ h1 _ => complete_sound h1) (sound_foldl (fun _ h1 _ => leaveMask_sound h1) h)

theorem updSet_sound {s : State} (h : Sound s) {lid inst set f} : Sound (s.updSet lid inst set f) := updInst_sound h

theorem completeSet_sound {s : State} (h : Sound s) {lid inst set} : Sound (s.completeSet lid inst set) := by
  unfold State.completeSet
  dsimp only
  split
  · refine sound_ite (sound_foldl (fun _ h1 _ => finish_sound h1) (sound_foldl (fun _ h1 _ => setFlags_sound h1) (sound_ite
      (updSet_sound h) ?_))) h
    split
    · exact sound_foldl (fun _ h1 _ => setS_sound h1) (updSet_sound h)
    · exact sound_foldl (fun _ h1 _ => writeRes_sound h1) (updSet_sound h)
  · exact h

theorem barPhase_sound {s : State} (h : Sound s) {lid wgs scope} : Sound (s.barPhase lid wgs scope) := by
  unfold State.barPhase
  split
  · exact h
  · exact sound_foldl (fun _ h1 _ => acquire_sound h1) (sound_foldl (fun _ h1 _ => releaseAll_sound h1) h)

theorem checkBar_sound {s : State} (h : Sound s) {lid wg} : Sound (s.checkBar lid wg) :=
  sound_ite (sound_foldl (fun _ h1 _ => finish_sound h1) (barPhase_sound (updWg_sound h))) h

theorem checkSbar_sound {s : State} (h : Sound s) {lid inst set} : Sound (s.checkSbar lid inst set) :=
  sound_ite (sound_foldl (fun _ h1 _ => finish_sound h1) (barPhase_sound (updSet_sound h))) h

theorem recheck_sound {s : State} (h : Sound s) {t} : Sound (s.recheck t) :=
  sound_foldl (fun _ h1 _ => completeSet_sound (checkSbar_sound h1)) (checkBar_sound h)

theorem deliver_sound {s : State} (h : Sound s) {len idle act flags hit} : SoundOpt (s.deliver len idle act flags hit) := by
  unfold State.deliver
  split
  · exact h
  · dsimp only
    split
    · refine sound_foldl (fun _ h1 _ => ?_) (retireAll_sound h)
      split
      · exact updThr_sound h1
      · exact h1
    · split
      · split
        · exact trivial
        · exact sound_foldl (fun _ h1 _ => updThr_sound (countT_sound h1)) (retireAll_sound h)
      · split
        · exact trivial
        · exact sound_foldl (fun _ h1 _ => updThr_sound (countT_sound h1)) (retireAll_sound h)

/-! ## Bricks of standing programs -/

theorem updProg_sound {s : State} (h : Sound s) {lid f} : Sound (s.updProg lid f) := updLaunch_sound h

theorem writeSlot_sound {s : State} (h : Sound s) {lid id} : Sound (s.writeSlot lid id) := by
  unfold State.writeSlot
  split
  · exact fwWriteVa_sound h
  · exact h

theorem send_sound {s : State} (h : Sound s) {die c} : Sound (s.send die c) := sound_with (updProg_sound h)

theorem findQuiet_sound {s : State} (h : Sound s) {lid} : Sound (s.findQuiet lid) := by
  unfold State.findQuiet
  split
  · exact h
  · exact sound_ite h (updProg_sound h)

theorem applyContrib_sound {s : State} (h : Sound s) {c} : Sound (s.applyContrib c) := by
  unfold State.applyContrib
  split
  · exact updProg_sound h
  · exact writeSlot_sound (updProg_sound h)

theorem endUpdate_sound {s : State} (h : Sound s) {lid wg killed} : Sound (s.endUpdate lid wg killed) := by
  unfold State.endUpdate
  dsimp only
  split
  · exact h
  · exact findQuiet_sound (sound_ite (updWg_sound (sound_foldl (fun _ h1 _ => sound_ite (applyContrib_sound h1) (send_sound h1))
      h)) (updProg_sound (updWg_sound (sound_foldl (fun _ h1 _ => sound_ite (applyContrib_sound h1) (send_sound h1)) h))))

/-! ## On-chip storage -/

theorem scWrite_sound {s : State} (h : Sound s) {p off bs} : Sound (s.scWrite p off bs) := by
  unfold State.scWrite
  split
  · exact updWg_sound h
  · exact updWg_sound h
  · exact updDie_sound h

theorem doMove_sound {s : State} (h : Sound s) {m} : Sound (s.doMove m) :=
  sound_foldl (fun _ h1 _ => scWrite_sound h1) (draw_sound h)

theorem releaseSlot_sound {s : State} (h : Sound s) {lid wg n} : Sound (s.releaseSlot lid wg n) := updWg_sound h

theorem settleSlot_sound {s : State} (h : Sound s) {lid wg n} : Sound (s.settleSlot lid wg n) := sound_ite h (updWg_sound h)

theorem updHandle_sound {s : State} (h : Sound s) {lid wg h' f} : Sound (s.updHandle lid wg h' f) := updWg_sound h

theorem killHandle_sound {s : State} (h : Sound s) {lid wg h'} : Sound (s.killHandle lid wg h') :=
  sound_ite h (releaseSlot_sound (updHandle_sound h))

theorem endWaveHandles_sound {s : State} (h : Sound s) {lid wg wave} : Sound (s.endWaveHandles lid wg wave) :=
  sound_foldl (fun _ h1 _ => sound_ite (killHandle_sound h1) h1) h

theorem endCopies_sound {s : State} (h : Sound s) {lid wg} : Sound (s.endCopies lid wg) :=
  sound_foldl (fun _ h1 _ => sound_ite h1 (doMove_sound (sound_with h1))) (sound_foldl (fun _ h1 _ => doMove_sound h1)
    (sound_with h))

theorem rejoin_sound {s : State} (h : Sound s) {t} : Sound (s.rejoin t) :=
  sound_ite (updThr_sound h) (updLaunch_sound (updThr_sound h))

theorem bufTurned_sound {s : State} (h : Sound s) {die id} : Sound (s.bufTurned die id) := by
  unfold State.bufTurned
  split
  · exact h
  · exact sound_foldl (fun _ h1 _ => rejoin_sound h1) h

theorem drainReads_sound {s : State} (h : Sound s) {die id} : Sound (s.drainReads die id) :=
  sound_with (sound_foldl (fun _ h1 _ => doMove_sound h1) (sound_foldl (fun _ h1 _ => doMove_sound h1) h))

theorem freeBuf_sound {s : State} (h : Sound s) {die id} : Sound (s.freeBuf die id) := bufTurned_sound (updDie_sound h)

theorem endHolder_sound {s : State} (h : Sound s) {die w} : Sound (s.endHolder die w) :=
  sound_foldl (fun _ h1 _ => freeBuf_sound (drainReads_sound h1)) h

theorem freeDrained_sound {s : State} (h : Sound s) {die id} : Sound (s.freeDrained die id) := by
  unfold State.freeDrained
  split
  · exact sound_ite (freeBuf_sound h) h
  · exact h

theorem freeSource_sound {s : State} (h : Sound s) {m} : Sound (s.freeSource m) := by
  unfold State.freeSource
  split
  · exact freeDrained_sound h
  · exact h

theorem ttakeChk_sound {s : State} (h : Sound s) {hn t} : SoundOk (s.ttakeChk hn t) := by
  unfold State.ttakeChk
  dsimp only
  split
  · exact trivial
  · exact h
  · split
    · exact updHandle_sound h
    · exact trivial

theorem takeNow_sound {at_ s : State} (h : Sound s) {hn t} : Sound (at_.takeNow hn s t) := by
  refine sound_ite h ?_
  split
  · refine finish_sound ?_
    split
    next _ e => exact ok_sound e (ttakeChk_sound h)
    · exact h
  · exact updThr_sound h

theorem settleTakes_sound {s : State} (h : Sound s) {lid wg hn} : Sound (s.settleTakes lid wg hn) :=
  sound_foldl (fun _ h1 _ => takeNow_sound h1) h

theorem settleAllTakes_sound {s : State} (h : Sound s) {lid wg} : Sound (s.settleAllTakes lid wg) :=
  sound_foldl (fun _ h1 _ => settleTakes_sound h1) h

/-! ## How threads, workgroups and units end (R114, R140, R184, R257, R280, R345, R358), signals to graph
nodes (R293), the end of engine commands (R301), and the end of a launch whose journal is full (R273) -/

theorem signalFrom_sound {s : State} (h : Sound s) {src die ctx id failing} : Sound (s.signalFrom src die ctx id failing) :=
  updDie_sound h

theorem signalNode_sound {s : State} (h : Sound s) {die ctx id failing} : Sound (s.signalNode die ctx id failing) :=
  signalFrom_sound h

theorem workEnds_sound {s : State} (h : Sound s) {die ctx id status} : Sound (s.workEnds die ctx id status) :=
  sound_ite (updDie_sound h) h

theorem cmdEnds_sound {s : State} (h : Sound s) {die c status} : Sound (s.cmdEnds die c status) := by
  unfold State.cmdEnds
  dsimp only
  split
  · refine workEnds_sound (sound_ite (signalNode_sound h) (sound_ite h ?_))
    split
    · exact updLaunch_sound h
    · exact h
  · refine sound_ite (signalNode_sound h) (sound_ite h ?_)
    split
    · exact updLaunch_sound h
    · exact h

theorem abortElems_sound {s : State} (h : Sound s) {lid wg} : Sound (s.abortElems lid wg) :=
  updWg_sound (sound_foldl (fun _ h1 _ => sound_ite (sound_foldl (fun _ h2 _ => cmdEnds_sound h2) h1) h1) h)

theorem abortIssued_sound {s : State} (h : Sound s) {die mine} : Sound (s.abortIssued die mine) :=
  updDie_sound (sound_foldl (fun _ h1 _ => sound_foldl (fun _ h2 _ => cmdEnds_sound h2) h1) h)

theorem abortCmds_sound {s : State} (h : Sound s) {lid wg} : Sound (s.abortCmds lid wg) := abortIssued_sound (abortElems_sound h)

theorem abortLaunch_sound {s : State} (h : Sound s) {lid} : Sound (s.abortLaunch lid) :=
  sound_foldl (fun _ h1 _ => abortIssued_sound h1) (sound_foldl (fun _ h1 _ => abortElems_sound h1) h)

theorem outlive_sound {s : State} (h : Sound s) {lid wg} : Sound (s.outlive lid wg) := by
  refine sound_foldl (fun _ h1 _ => ?_) (sound_with h)
  dsimp only
  split
  · exact updDie_sound h1
  · exact updDie_sound h1
  · exact sound_foldl (fun _ h2 _ => signalNode_sound h2) h1
  · exact h1

theorem outliveAll_sound {s : State} (h : Sound s) {lid which} : Sound (s.outliveAll lid which) :=
  sound_foldl (fun _ h1 _ => outlive_sound h1) h

theorem endInst_sound {s : State} (h : Sound s) {lid i} : Sound (s.endInst lid i) := sound_ite h (updInst_sound (updCtx_sound h))

theorem discard_sound {s : State} (h : Sound s) {lid wg} : Sound (s.discard lid wg) := updWg_sound h

theorem endSignals_sound {s : State} (h : Sound s) {lid wg} : Sound (s.endSignals lid wg) := by
  unfold State.endSignals
  dsimp only
  split
  · refine workEnds_sound ?_
    split
    · exact signalNode_sound h
    · exact h
  · split
    · exact signalNode_sound h
    · exact h

theorem finishWg_sound {s : State} (h : Sound s) {lid wg killed} : Sound (s.finishWg lid wg killed) := by
  unfold State.finishWg
  extract_lets s1 s2 g ctx s3 s4 s5 s6 s7 s8 s9
  have h2 : Sound s2 := endCopies_sound (endUpdate_sound (releaseAll_sound (sound_ite (discard_sound h) h)))
  have h4 : Sound s4 := sound_foldl (fun _ h1 _ => endHolder_sound h1) (sound_foldl (fun _ h1 _ => killHandle_sound h1) h2)
  have h5 : Sound s5 := sound_ite (abortCmds_sound h4) h4
  have h9 : Sound s9 := sound_with (updWg_sound (updCore_sound (updLaunch_sound h5)))
  exact endInst_sound (sound_ite (endSignals_sound h9) h9)

theorem markEnded_sound {s : State} (h : Sound s) {t} : Sound (s.markEnded t) := sound_with (updThr_sound h)

theorem endThread_sound {s : State} (h : Sound s) {t} : Sound (s.endThread t) := by
  have h1 : Sound ((s.markEnded t).leaveAll t) := leaveAll_sound (markEnded_sound h)
  have h2 : ∀ s, Sound s → Sound (((s.endWaveHandles t.lid t.wg t.wave).settleAllTakes t.lid t.wg).updWg t.lid t.wg fun g =>
      { g with claims := g.claims.filter fun u => u.wave != t.wave }) :=
    fun _ hs => updWg_sound (settleAllTakes_sound (endWaveHandles_sound hs))
  unfold State.endThread
  dsimp only
  generalize (s.markEnded t).leaveAll t = s1 at h1
  exact sound_ite (finishWg_sound (recheck_sound (sound_ite (h2 _ h1) h1))) (recheck_sound (sound_ite (h2 _ h1) h1))

theorem abandonWait_sound {s : State} (h : Sound s) {t} : Sound (s.abandonWait t) := by
  refine updThr_sound ?_
  split
  · exact updMask_sound h
  · exact updSet_sound h
  · exact updSet_sound h
  · exact updWg_sound h
  · exact updSet_sound h
  · exact updWg_sound h
  · exact sound_with h
  · exact updDie_sound h
  · exact h

theorem killWg_sound {s : State} (h : Sound s) {lid wg} : Sound (s.killWg lid wg) := by
  refine sound_ite h ?_
  dsimp only
  split
  · exact recheck_sound (finishWg_sound (updCore_sound (sound_with (sound_foldl (fun _ h1 _ => markEnded_sound h1) (updWg_sound
      h)))))
  · exact finishWg_sound (updCore_sound (sound_with (sound_foldl (fun _ h1 _ => markEnded_sound h1) (updWg_sound h))))

theorem killOther_sound {s : State} (h : Sound s) {t} : Sound (s.killOther t) :=
  sound_ite (endThread_sound h) (sound_ite h (sound_ite (endThread_sound h) (updThr_sound (abandonWait_sound h))))

theorem killUnit_sound {s : State} (h : Sound s) {lid wg rec_} : Sound (s.killUnit lid wg rec_) :=
  sound_ite h (sound_foldl (fun _ h1 _ => sound_foldl (fun _ h2 _ => killOther_sound h2) h1) (killWg_sound (sound_foldl (fun _
    h1 _ => updWg_sound h1) (updLaunch_sound (updInst_sound h)))))

theorem killWhole_sound {s : State} (h : Sound s) {lid i} : Sound (s.killWhole lid i) :=
  sound_ite h (sound_foldl (fun _ h1 _ => killWg_sound h1) (updLaunch_sound h))

theorem rollback_sound {s : State} (h : Sound s) {lid} : Sound (s.rollback lid) :=
  updLaunch_sound (sound_foldl (fun _ h1 _ => fwWrite_sound h1) h)

theorem dropPending_sound {s : State} (h : Sound s) {lid} : Sound (s.dropPending lid) := by
  refine updLaunch_sound (sound_foldl (fun _ h1 _ => ?_) h)
  split
  · exact workEnds_sound h1
  · exact h1

theorem journalStop_sound {s : State} (h : Sound s) {lid} : Sound (s.journalStop lid) :=
  updLaunch_sound (abortLaunch_sound (rollback_sound (sound_foldl (fun _ h1 _ => killWhole_sound h1) (updLaunch_sound
    (dropPending_sound h)))))

theorem settle_sound {s : State} (h : Sound s) : Sound (s.settle) := sound_foldl (fun _ h1 _ => journalStop_sound h1) h

/-! ## Taking an exception, as one operation (R331 to R335, R357), and the return from one (R339, R340,
R358) -/

theorem writeRecord_sound {s : State} (h : Sound s) {t slot r} : Sound (s.writeRecord t slot r) := by
  unfold State.writeRecord
  dsimp only
  split
  · exact tick_sound (tagCtx_sound (enter_sound (tick_sound h)))
  · exact h

theorem enterHandler_sound {s : State} (h : Sound s) {t slot r} : Sound (s.enterHandler t slot r) :=
  updThr_sound (countT_sound (updCtx_sound (writeRecord_sound h)))

theorem setStatus_sound {s : State} (h : Sound s) {lid st} : Sound (s.setStatus lid st) := updLaunch_sound h

theorem takeTrap_sound {s : State} (h : Sound s) {t} : Sound (s.takeTrap t) := by
  unfold State.takeTrap
  dsimp only
  split
  · exact h
  · refine sound_ite h (sound_ite (sound_ite (endThread_sound h) (killUnit_sound (updLaunch_sound (setStatus_sound h))))
      (sound_ite (sound_ite (endThread_sound h) (killUnit_sound (setStatus_sound h))) (sound_ite h ?_)))
    split
    · exact h
    · exact enterHandler_sound h

theorem giveSlot_sound {s : State} (h : Sound s) {t} : Sound (s.giveSlot t) := updThr_sound (updCtx_sound h)

theorem leaveHandler_sound {s : State} (h : Sound s) {t pc} : Sound (s.leaveHandler t pc) :=
  sound_ite (endThread_sound (updThr_sound (giveSlot_sound h))) (updThr_sound (giveSlot_sound h))

theorem killReturn_sound {s : State} (h : Sound s) {t} : Sound (s.killReturn t) :=
  sound_ite (endThread_sound h) (killUnit_sound (setStatus_sound h))

theorem takeAsync_sound {s : State} (h : Sound s) : Sound (s.takeAsync) :=
  sound_ite h (sound_with (sound_foldl (fun _ h1 _ => updThr_sound h1) h))

theorem undecoded_sound {s : State} (h : Sound s) {code d0 d1 d2} : Sound (s.undecoded code d0 d1 d2) := raise_sound h

/-! ## Packets (R366, R368), kernel objects (R32, R33, R148 to R150, R206, R245), and the acceptance of a
launch (R151, R152, R171, R189, R380, R384) -/

theorem placeImage_sound {s : State} (h : Sound s) {ctx img} : SoundSnd (s.placeImage ctx img) :=
  fwWriteVa_sound (draw_sound (draw_sound (updCtx_sound h)))

theorem loadObject_sound {s : State} (h : Sound s) {ctx va} : Sound (s.loadObject ctx va) := by
  refine sound_ite h ?_
  split
  · exact h
  · dsimp only
    split
    · exact h
    · refine sound_ite (sound_with h) ?_
      split
      · exact h
      · exact sound_with (placeImage_sound h)

theorem unload_sound {s : State} (h : Sound s) {locs} : Sound (s.unload locs) := sound_ite (sound_with h) h

theorem reserveStacks_sound {s : State} (h : Sound s) {lid l} : SoundSnd (s.reserveStacks lid l) := draw_sound (updCtx_sound h)

theorem unmapStacks_sound {s : State} (h : Sound s) {lid} : Sound (s.unmapStacks lid) :=
  sound_foldl (fun _ h1 _ => updDie_sound h1) (updCtx_sound h)

theorem makeBufs_sound {s : State} (h : Sound s) {ctx lid pin cscratch dom logical tot rs} :
    SoundOk (State.makeBufs ctx lid pin cscratch dom logical tot rs s) := by
  induction rs generalizing s tot with
  | nil => exact h
  | cons r rs ih =>
    refine ok_ite trivial (ok_ite trivial (ok_ite trivial ?_))
    extract_lets dies clear base
    clear_value base
    cases base with
    | none => trivial
    | some b => exact ok_ite trivial (ih (sound_foldl (fun _ h1 _ => updDie_sound h1) h))

theorem takeMortars_sound {s : State} (h : Sound s) {ctx lid l} : SoundOptSnd (State.takeMortars ctx lid l s) := by
  induction l generalizing s with
  | nil => exact h
  | cons d l ih =>
    unfold State.takeMortars
    exact opt_bind fun _ => opt_bind fun _ => opt_bind fun _ => opt_bind_sound (ih (updDie_sound h)) fun _ h1 => h1

theorem takeAll_sound {s : State} (h : Sound s) {lid standing fs o l mask} : SoundOkSnd (s.takeAll lid standing fs o l mask) := by
  unfold State.takeAll
  refine ok_bind_sound (makeBufs_sound h) fun s hs => ?_
  extract_lets fin rest
  have hfin : ∀ x : Launch × State, Sound x.2 → SoundOkSnd (fin x) := fun x hx => by
    unfold fin
    dsimp only
    split
    · split
      · trivial
      · exact reserveStacks_sound (updCtx_sound hx)
    · exact reserveStacks_sound hx
  have hrest : ∀ r, SoundOkSnd (rest r) := fun r => by
    unfold rest
    split
    · split
      · trivial
      · split
        · trivial
        · split
          · trivial
          · split
            · trivial
            next e => exact hfin (_, _) (some_snd_sound e (takeMortars_sound hs))
    · exact hfin (_, _) hs
  split
  · split
    · trivial
    · exact hrest ()
  · exact hrest ()

theorem accept_sound {s : State} (h : Sound s) {ctx standing queue fs force floor} :
    Sound (s.accept ctx standing queue fs force floor) := by
  unfold State.accept
  dsimp only
  split
  · exact sound_with (loadObject_sound (sound_with h))
  · split
    · split
      · exact sound_with (loadObject_sound (sound_with h))
      next _ e => exact sound_with (ok_snd_sound e (takeAll_sound (loadObject_sound (sound_with h))))
    · exact sound_with (loadObject_sound (sound_with h))

end Sys2Proof.Proofs.Soundness

end

section

/-! # The forms of control, memory, effects, tasks, standing programs, scratch, ownership and tiles keep a state sound (O30) -/

namespace Sys2Proof.Proofs.Soundness

open Sys2Proof.Machine Sys2Proof.Claims

/-! ## The CTL class (R111 to R115) and the short NOP and LAND -/

theorem transfer_sound {s : State} (h : Sound s) {len target t} : Sound (s.transfer len target t) :=
  updThr_sound (foldPath_sound h)

theorem eachOwn_sound {s : State} (h : Sound s) {len p act} {eff : TRef → State → State}
    (heff : ∀ a s, Sound s → Sound (eff a s)) : Sound (s.eachOwn len p act eff) :=
  sound_foldl (fun _ h1 _ => heff _ _ h1) (retireAll_sound h)

theorem peek_sound {s : State} (h : Sound s) {t va locs} : SoundSnd (s.peek t va locs) := readPieces_sound h

theorem plans_sound {α : Type} {s : State} (h : Sound s) {f : TRef → State → α × State}
    (hf : ∀ t s, Sound s → SoundSnd (f t s)) {l} : SoundSnd (s.plans f l) := by
  induction l generalizing s with
  | nil => exact h
  | cons t l ih => exact ih (hf t s h)

theorem plans_go {s : State} (h : Sound s) {f : TRef → State → Plan × State} (hf : ∀ t s, Sound s → SoundPlan (f t s)) {l} :
    ∀ p ∈ (s.plans f l).1, SoundGo p := by
  induction l generalizing s with
  | nil => exact fun p hp => nomatch hp
  | cons t l ih =>
    obtain ⟨hs, hg⟩ := hf t s h
    exact List.forall_mem_cons.2 ⟨hg, ih hs⟩

theorem jumpForm_sound {s : State} (h : Sound s) {h' wr js} {eff : Jump → State → State}
    (heff : ∀ a s, Sound s → Sound (eff a s)) : Sound (s.jumpForm h' wr js eff) := by
  unfold State.jumpForm
  split
  next _ e => exact some_sound e (stall_sound h)
  · split
    · exact stop_sound h
    · exact whenClear_sound h fun _ h1 => sound_foldl (fun _ h2 _ => heff _ _ h2) (retireAll_sound h1)

theorem frame_sound {s : State} (h : Sound s) {j r} : Sound (s.frame j r) := updThr_sound (stage_sound h)

theorem execCall_sound {s : State} (h : Sound s) {h' disp} : SoundOut (execCall h' disp s) :=
  issue_sound h fun _ _ h1 => jumpForm_sound h1 fun _ _ h2 => transfer_sound (frame_sound h2)

theorem execCalli_sound {s : State} (h : Sound s) {h'} : SoundOut (execCalli h' s) :=
  issue_sound h fun _ _ h1 => jumpForm_sound h1 fun _ _ h2 => transfer_sound (frame_sound h2)

theorem execRet_sound {s : State} (h : Sound s) {h'} : SoundOut (execRet h' s) := by
  refine issue_sound h fun _ _ h1 => jumpForm_sound (plans_sound h1 (fun _ _ h2 => ?_)) fun _ _ h2 => transfer_sound
    (updThr_sound (logAccess_sound h2))
  dsimp only
  split
  · exact peek_sound h2
  · exact h2

theorem execExit_sound {s : State} (h : Sound s) {h'} : SoundOut (execExit h' s) := by
  refine settle_sound (issue_sound h (fun _ _ h1 => ?_))
  split
  next _ e => exact some_sound e (deliver_sound h1)
  · split
    · exact holdGroup_sound h1
    · exact eachOwn_sound h1 fun _ _ h2 => endThread_sound (updThr_sound h2)

/-! ## The MEM class (R88 to R95, R251, R255, R256), and LOAD_RETURN -/

theorem queueLoad_sound {s : State} (h : Sound s) {h' off t} : Sound (s.queueLoad h' off t) :=
  sound_with (tick_sound (logAccess_sound h))

theorem execLd_sound {s : State} (h : Sound s) {h' off} : SoundOut (execLd h' off s) :=
  issue_sound h fun _ _ h1 => withAccess_sound h1 fun _ h2 => each_sound h2 fun _ _ h3 => queueLoad_sound h3

theorem execSt_sound {s : State} (h : Sound s) {h' off} : SoundOut (execSt h' off s) :=
  issue_sound h fun _ _ h1 => withAccess_sound h1 fun _ h2 => whenClear_sound h2 fun _ h3 => each_sound h3 fun _ _ h4 =>
    stage_sound h4

theorem loadReturn_sound {s : State} (h : Sound s) {i} : Sound (s.loadReturn i) := by
  unfold State.loadReturn
  split
  · exact h
  · refine updThr_sound (sound_with ?_)
    unfold Prod.snd
    split
    · exact h
    · exact readPieces_sound h

theorem atomOne_sound {s : State} (h : Sound s) {i h' x t} : Sound (s.atomOne i h' x t) :=
  updThr_sound (tick_sound (setFlags_sound (logAccess_sound (sound_ite (tick_sound (carry_sound h)) (enterWg_sound (tick_sound
    (carry_sound h)))))))

theorem relAll_sound {s : State} (h : Sound s) {act scope} : Sound (s.relAll act scope) :=
  sound_foldl (fun _ h1 _ => releaseAll_sound h1) h

theorem acqAll_sound {s : State} (h : Sound s) {act scope} : Sound (s.acqAll act scope) :=
  sound_foldl (fun _ h1 _ => acquire_sound h1) h

theorem phaseAll_sound {s : State} (h : Sound s) {act scope} : Sound (s.phaseAll act scope) := acqAll_sound (relAll_sound h)

theorem atom_sound {s : State} (h : Sound s) {i h' x c} : Sound (s.atom i h' x c) :=
  settle_sound (issue_sound h (fun _ _ h1 => withAccess_sound h1 (fun _ h2 => whenClear_sound h2 (fun _ h3 => ordered_sound h3
    (fun _ h4 => retireBoundAll_sound (retireAll_sound (sound_ite (phaseAll_sound (sound_foldl (fun _ h5 _ => atomOne_sound h5)
    (sound_ite (phaseAll_sound h4) h4))) (sound_foldl (fun _ h5 _ => atomOne_sound h5) (sound_ite (phaseAll_sound h4)
    h4)))))))))

/-! ## The EFF class (R116 to R131) -/

theorem planStore_sound {s : State} (h : Sound s) {t va n u} {k : List ℕ → State → Plan × State}
    (hk : ∀ a s, Sound s → SoundPlan (k a s)) : SoundPlan (s.planStore t va n u k) := by
  unfold State.planStore
  split
  · exact hk _ _ h
  · exact ⟨h, trivial⟩
  · exact ⟨h, trivial⟩

theorem planClear_sound {s : State} (h : Sound s) {t ls} {k : State → Plan × State} (hk : ∀ s, Sound s → SoundPlan (k s)) :
    SoundPlan (s.planClear t ls k) := by
  unfold State.planClear
  split
  · exact ⟨h, trivial⟩
  · exact hk _ h

theorem Plan_after_sound {p : Plan × State} (h : SoundPlan p) {f : State → State} (hf : ∀ s, Sound s → Sound (f s)) :
    SoundPlan (Plan.after p f) := by
  unfold Plan.after
  split
  · exact ⟨h.1, fun s hs => h.2 _ (hf s hs)⟩
  · exact h

theorem planPeek_sound {s : State} (h : Sound s) {t va n u} {k : List Byte → State → Plan × State}
    (hk : ∀ a s, Sound s → SoundPlan (k a s)) : SoundPlan (s.planPeek t va n u k) := by
  unfold State.planPeek
  split
  · exact hk _ _ (readPieces_sound h)
  · exact ⟨h, trivial⟩
  · exact ⟨h, trivial⟩

theorem planLoad_sound {s : State} (h : Sound s) {t va n u} {k : List Byte → State → Plan × State}
    (hk : ∀ a s, Sound s → SoundPlan (k a s)) : SoundPlan (s.planLoad t va n u k) :=
  planPeek_sound h fun _ _ h1 => Plan_after_sound (hk _ _ h1) fun _ h2 => logAccess_sound h2

theorem unread_sound {s : State} (h : Sound s) {t r f p} (hp : SoundPlan p) : SoundPlan (s.unread t r f p) := by
  unfold State.unread
  split
  · split
    · exact hp
    · exact ⟨h, trivial⟩
  · split
    · exact hp
    · exact ⟨h, trivial⟩
  · exact ⟨h, trivial⟩

theorem planDeep_sound {s : State} (h : Sound s) {t look l} {k : List HEntry → State → Plan × State}
    (hk : ∀ es s, Sound s → SoundPlan (k es s)) : SoundPlan (s.planDeep t look k l) := by
  induction l generalizing s k with
  | nil => exact hk _ _ h
  | cons va vas ih =>
    unfold State.planDeep
    split
    · refine unread_sound h (ih h fun es s hs => ?_)
      split
      · exact hk _ _ hs
      · exact ⟨hs, trivial⟩
    · refine planLoad_sound h fun b s hs => ?_
      dsimp only
      split
      · exact ⟨hs, trivial⟩
      · exact ih hs fun es s hs => hk _ _ hs

theorem planForm_sound {s : State} (h : Sound s) {h' act all} {plan : TRef → State → Plan × State}
    (hplan : ∀ t s, Sound s → SoundPlan (plan t s)) {pre : State → State} (hpre : ∀ s, Sound s → Sound (pre s)) :
    Sound (s.planForm h' act all plan pre) := by
  have hs : Sound (s.plans plan act).2 := plans_sound h fun t s hs => (hplan t s hs).1
  have hg := plans_go h hplan (l := act)
  unfold State.planForm
  dsimp only
  split
  next e => exact some_sound e (stall_sound hs)
  next =>
    split
    · exact stop_sound hs
    · refine sound_ite hs (sound_foldl_mem (fun p hp s hs => ?_) (hpre _ (retireAll_sound hs)))
      split
      · exact hg _ hp s hs
      · exact hs

theorem effForm_sound {s : State} (h : Sound s) {h' n} {plan : TRef → State → Plan × State}
    (hplan : ∀ a s, Sound s → SoundPlan (plan a s)) : Sound (s.effForm h' n plan) :=
  issue_sound h fun _ _ h1 => planForm_sound h1 (fun _ _ h2 => hplan _ _ h2) fun _ h2 => h2

theorem planBack_sound {s : State} (h : Sound s) {t es rest} {k : List HEntry → List DWord → State → Plan × State}
    (hk : ∀ a b s, Sound s → SoundPlan (k a b s)) : SoundPlan (s.planBack t es rest k) :=
  planDeep_sound h fun _ _ h1 => hk _ _ _ h1

theorem planWrites_sound {s : State} (h : Sound s) {t l} {k : List (List Nat × HEntry) → State → Plan × State}
    (hk : ∀ ws s, Sound s → SoundPlan (k ws s)) : SoundPlan (s.planWrites t k l) := by
  induction l generalizing s k with
  | nil => exact hk _ _ h
  | cons e es ih => exact planStore_sound h fun ls s hs => planClear_sound hs fun s hs => ih hs fun ws s hs => hk _ _ hs

theorem doWrites_sound {s : State} (h : Sound s) {t l} : Sound (s.doWrites t l) := sound_foldl (fun _ h1 _ => stage_sound h1) h

theorem planHpush_sound {s : State} (h : Sound s) {len eid many lit t} : SoundPlan (s.planHpush len eid many lit t) :=
  planStore_sound h fun _ _ h1 => planWrites_sound h1 fun _ _ h2 => ⟨h2, fun _ h3 => updThr_sound (doWrites_sound h3)⟩

theorem planCopyEnd_sound {s : State} (h : Sound s) {len e t} : SoundPlan (s.planCopyEnd len e t) :=
  planLoad_sound h fun _ _ h1 => planLoad_sound h1 fun _ _ h2 => ⟨h2, fun _ h3 => updThr_sound (foldPath_sound h3)⟩

theorem planHend_sound {s : State} (h : Sound s) {len t} : SoundPlan (s.planHend len t) := by
  unfold State.planHend
  dsimp only
  split
  · exact ⟨h, trivial⟩
  · split
    · exact planCopyEnd_sound h
    · split
      · exact ⟨h, trivial⟩
      · refine planDeep_sound h fun _ _ h1 => ?_
        split
        · exact ⟨h1, trivial⟩
        · exact ⟨h1, fun _ h2 => updThr_sound h2⟩

theorem dispatch_sound {s : State} (h : Sound s) {t len es i sp ws} : Sound (s.dispatch t len es i sp ws) :=
  updThr_sound (foldPath_sound (doWrites_sound h))

theorem planPerform_sound {s : State} (h : Sound s) {len eid t} : SoundPlan (s.planPerform len eid t) := by
  refine planDeep_sound h fun _ _ h1 => ?_
  dsimp only
  split
  · exact ⟨h1, trivial⟩
  · split
    · split
      · exact ⟨h1, trivial⟩
      · exact planWrites_sound h1 fun _ _ h2 => ⟨h2, fun _ h3 => dispatch_sound h3⟩
    · split
      · exact ⟨h1, trivial⟩
      · split
        · exact ⟨h1, trivial⟩
        · exact planStore_sound h1 fun _ _ h2 => planClear_sound h2 fun _ h3 => planLoad_sound h3 fun _ _ h4 => ⟨h4, fun _ h5 =>
            dispatch_sound (stage_sound h5)⟩

theorem resumeAfter_sound {s : State} (h : Sound s) {len ts} : Sound (s.resumeAfter len ts) :=
  sound_foldl (fun _ h1 _ => updThr_sound h1) h

theorem planToken_sound {s : State} (h : Sound s) {t k chk} {go : List HEntry → List DWord → ℕ → HEntry → State → Plan × State}
    (hgo : ∀ a b c d s, Sound s → SoundPlan (go a b c d s)) : SoundPlan (s.planToken t k chk go) := by
  unfold State.planToken
  dsimp only
  split
  · exact ⟨h, trivial⟩
  · split
    · split
      · exact ⟨h, trivial⟩
      · split
        · exact ⟨h, trivial⟩
        · split
          · exact ⟨h, trivial⟩
          · split
            · exact ⟨h, trivial⟩
            · exact hgo _ _ _ _ _ h
    · refine planDeep_sound h fun _ _ h1 => ?_
      split
      · split
        · exact ⟨h1, trivial⟩
        · split
          · exact ⟨h1, trivial⟩
          · split
            · exact ⟨h1, trivial⟩
            · split
              · exact ⟨h1, trivial⟩
              · exact planDeep_sound h1 fun _ _ h2 => hgo _ _ _ _ _ h2
      · exact ⟨h1, trivial⟩

theorem effJump_sound {s : State} (h : Sound s) {t len target f} : Sound (s.effJump t len target f) :=
  updThr_sound (foldPath_sound h)

theorem planOnce_sound {s : State} (h : Sound s) {t len v es rest i e} : SoundPlan (s.planOnce t len v es rest i e) :=
  planBack_sound h fun _ _ _ h1 => planWrites_sound h1 fun _ _ h2 => ⟨h2, fun _ h3 => effJump_sound (doWrites_sound h3)⟩

theorem planMany_sound {s : State} (h : Sound s) {t len v e} : SoundPlan (s.planMany t len v e) :=
  planStore_sound h fun _ _ h1 => planClear_sound h1 fun _ h2 => planStore_sound h2 fun _ _ h3 => planClear_sound h3 fun _ h4 =>
    planLoad_sound h4 fun _ _ h5 => ⟨h5, fun _ h6 => effJump_sound (sound_ite (stage_sound (stage_sound h6)) (stage_sound
    (stage_sound (stage_sound h6))))⟩

theorem planResume_sound {s : State} (h : Sound s) {h' t} : SoundPlan (s.planResume h' t) := by
  refine planToken_sound h fun _ _ _ _ _ h1 => ?_
  split
  · exact planMany_sound h1
  · exact planOnce_sound h1

theorem planAbort_sound {s : State} (h : Sound s) {h' t} : SoundPlan (s.planAbort h' t) :=
  planToken_sound h fun _ _ _ _ _ h1 => planBack_sound h1 fun _ _ _ h2 => ⟨h2, fun _ h3 => effJump_sound h3⟩

/-! ## The TSK class (R182 to R188), and RCLAIM_GRANT -/

theorem retireForm_sound {s : State} (h : Sound s) {h' act} : Sound (s.retireForm h' act) :=
  retireBoundAll_sound (retireAll_sound h)

theorem taskLimit_sound {s : State} (h : Sound s) {lid} : Sound (s.taskLimit lid) :=
  sound_foldl (fun _ h1 _ => killWhole_sound h1) (updLaunch_sound (dropPending_sound h))

theorem makeTasks_sound {s : State} (h : Sound s) {lid n mk} : Sound (s.makeTasks lid n mk) :=
  sound_ite h (sound_ite (taskLimit_sound h) (updLaunch_sound h))

theorem raiseNode_sound {s : State} (h : Sound s) {die ctx id n} : Sound (s.raiseNode die ctx id n) := updDie_sound h

theorem spawnOne_sound {s : State} (h : Sound s) {h' dw node t} : Sound (s.spawnOne h' dw node t) :=
  sound_ite (makeTasks_sound (sound_ite (raiseNode_sound h) h)) (updWg_sound (sound_ite (raiseNode_sound h) h))

theorem execSpawn_sound {s : State} (h : Sound s) {h' dw node} : SoundOut (execSpawn h' dw node s) :=
  settle_sound (issue_sound h (fun _ _ h1 => guardFaults_sound h1 (fun _ h2 => ordered_sound h2 (fun _ h3 => retireForm_sound
    (sound_foldl (fun _ h4 _ => spawnOne_sound h4) (sound_ite h3 (relAll_sound h3)))))))

theorem fetchOne_sound {s : State} (h : Sound s) {d pd t} : Sound (s.fetchOne d pd t) := by
  unfold State.fetchOne
  dsimp only
  split
  · exact updThr_sound (updLaunch_sound h)
  · exact updThr_sound h

theorem execFetch_sound {s : State} (h : Sound s) {h' pd} : SoundOut (execFetch h' pd s) :=
  issue_sound h fun _ _ h1 => retireForm_sound (sound_foldl (fun _ h2 _ => fetchOne_sound h2) h1)

theorem failLaunch_sound {s : State} (h : Sound s) {ctx queue record st} : Sound (s.failLaunch ctx queue record st) :=
  sound_with h

theorem submit_sound {s : State} (h : Sound s) {h' ws t} : Sound (s.submit h' ws t) := by
  refine retireBound_sound (updThr_sound (sound_ite (failLaunch_sound h) ?_))
  split
  · exact failLaunch_sound h
  · exact accept_sound h

theorem planLaunch_sound {s : State} (h : Sound s) {h' t} : SoundPlan (s.planLaunch h' t) := by
  unfold State.planLaunch
  dsimp only
  split
  · exact ⟨h, trivial⟩
  · refine planPeek_sound h fun _ _ h1 => ?_
    split
    · exact planLoad_sound h1 fun _ _ h2 => ⟨h2, fun _ h3 => submit_sound h3⟩
    · exact ⟨h1, fun _ h2 => submit_sound h2⟩

theorem execLaunch_sound {s : State} (h : Sound s) {h'} : SoundOut (execLaunch h' s) :=
  sound_ite h (settle_sound (issue_sound h (fun _ _ h1 => atTurn_sound h1 (fun _ h2 => planForm_sound h2 (fun _ _ h3 =>
    planLaunch_sound h3) (fun _ h3 => sound_ite h3 (relAll_sound h3))))))

theorem giveLines_sound {s : State} (h : Sound s) {k t} : Sound (s.giveLines k t) := sound_ite (updWave_sound (updWg_sound h)) h

theorem execRgive_sound {s : State} (h : Sound s) {h' cnt} : SoundOut (execRgive h' cnt s) :=
  issue_sound h fun _ _ h1 => retireForm_sound (sound_foldl (fun _ h2 _ => giveLines_sound h2) h1)

theorem takeLines_sound {s : State} (h : Sound s) {k t} : Sound (s.takeLines k t) :=
  updWave_sound (sound_foldl (fun _ h1 _ => updThr_sound h1) (updWg_sound h))

theorem claimOne_sound {s : State} (h : Sound s) {len k t} : Sound (s.claimOne len k t) :=
  sound_ite (retireBound_sound h) (sound_ite (retireBound_sound (takeLines_sound h)) (updWg_sound (park_sound h)))

theorem execRclaim_sound {s : State} (h : Sound s) {h' cnt} : SoundOut (execRclaim h' cnt s) :=
  issue_sound h fun _ _ h1 => sound_foldl (fun _ h2 _ => claimOne_sound h2) (retireAll_sound h1)

theorem execRclaimGrant_sound {s : State} (h : Sound s) {lid wg wave} : SoundOut (execRclaimGrant lid wg wave s) := by
  unfold execRclaimGrant
  show Sound _
  split
  · exact h
  · exact sound_foldl (fun _ h1 _ => finish_sound h1) (updWg_sound (sound_ite h (takeLines_sound h)))

/-! ## The STD class (R202 to R205) -/

theorem contribute_sound {s : State} (h : Sound s) {t c} : Sound (s.contribute t c) :=
  sound_ite (updWg_sound h) (sound_ite (findQuiet_sound (applyContrib_sound h)) (send_sound h))

theorem stdForm_sound {s : State} (h : Sound s) {h' n own extra hold late} {eff : TRef → ℕ → Prog → State → State}
    (heff : ∀ a b c s, Sound s → Sound (eff a b c s)) : Sound (s.stdForm h' n own extra hold late eff) := by
  refine settle_sound (issue_sound h (fun _ _ h1 => guardFaults_sound h1 (fun _ h2 => ?_)))
  split
  · exact holdGroup_sound h2
  · refine atTurn_sound h2 fun _ h3 => retireForm_sound (sound_foldl (fun _ h4 _ => ?_) (sound_ite h3 (relAll_sound h3)))
    split
    · split
      · exact heff _ _ _ _ h4
      · exact h4
    · exact h4

theorem execResidm_sound {s : State} (h : Sound s) {h'} : SoundOut (execResidm h' s) :=
  stdForm_sound h fun _ _ _ _ h1 => setFlags_sound (sound_foldl (fun _ h2 _ => contribute_sound h2) h1)

theorem planLdit_sound {s : State} (h : Sound s) {h' t} : SoundPlan (s.planLdit h' t) := by
  unfold State.planLdit
  dsimp only
  split
  · exact ⟨h, trivial⟩
  · split
    · exact ⟨h, trivial⟩
    · exact planLoad_sound h fun _ _ h1 => planLoad_sound h1 fun _ _ h2 => planLoad_sound h2 fun _ _ h3 => ⟨h3, fun _ h4 =>
        retire_sound (updThr_sound h4)⟩

theorem execLdit_sound {s : State} (h : Sound s) {h'} : SoundOut (execLdit h' s) :=
  issue_sound h fun _ _ h1 => planForm_sound h1 (fun _ _ h2 => planLdit_sound h2) fun _ h2 => h2

theorem execBrkinfo_sound {s : State} (h : Sound s) {h' fld} : SoundOut (execBrkinfo h' fld s) :=
  issue_sound h fun _ _ h1 => guardFaults_sound h1 fun _ h2 => each_sound h2 fun _ _ h3 => updThr_sound h3

/-! ## The SPD class (R207, R208, R214, R229 to R233), and TMOV_DONE -/

theorem spdForm_sound {s : State} (h : Sound s) {h' n off lv write} {eff : TRef → Place × ℕ → State → State}
    (heff : ∀ a b s, Sound s → Sound (eff a b s)) : Sound (s.spdForm h' n off lv write eff) := by
  refine issue_sound h fun _ _ h1 => guardFaults_sound h1 fun _ h2 => sound_ite h2 (each_sound h2 (fun _ _ h3 => ?_))
  split
  · exact heff _ _ _ h3
  · exact h3

theorem spdLoad_sound {s : State} (h : Sound s) {h' off lv} : Sound (s.spdLoad h' off lv) :=
  spdForm_sound h fun _ _ _ h1 => sound_with (draw_sound h1)

theorem spdStore_sound {s : State} (h : Sound s) {h' off lv} : Sound (s.spdStore h' off lv) :=
  spdForm_sound h fun _ _ _ h1 => scWrite_sound h1

theorem execTmov_sound {s : State} (h : Sound s) {h' x} : SoundOut (execTmov h' x s) := by
  refine issue_sound h fun _ _ h1 => guardFaults_sound h1 fun _ h2 => sound_ite h2 (each_sound h2 (fun _ _ h3 => ?_))
  split
  · exact sound_with h3
  · exact h3

theorem execTmovDone_sound {s : State} (h : Sound s) {i} : SoundOut (execTmovDone i s) := by
  unfold execTmovDone
  show Sound _
  split
  · exact h
  · exact freeSource_sound (doMove_sound (sound_with h))

/-! ## The OWN class (R212 to R217, R234 to R236, R382), and OWNTAKE_DRAIN_END -/

theorem updOwnBuf_sound {s : State} (h : Sound s) {t id f} : Sound (s.updOwnBuf t id f) := by
  unfold State.updOwnBuf
  dsimp only
  split
  · exact h
  · exact sound_ite (updWg_sound h) (updDie_sound h)

theorem parkBehind_sound {s : State} (h : Sound s) {len t ts} : Sound (s.parkBehind len t ts) := by
  unfold State.parkBehind
  split
  · exact sound_foldl (fun _ h1 _ => park_sound h1) h
  · exact h

theorem ownLoop_sound {s : State} (h : Sound s) {len l} {act : TRef → State → OwnRes}
    (hact : ∀ t s, Sound s → SoundOwn (act t s)) : Sound (s.ownLoop len act l) := by
  induction l generalizing s with
  | nil => exact h
  | cons t l ih =>
    unfold State.ownLoop
    split
    next e => exact ih (retireBound_sound (done_sound e (hact _ _ h)))
    next e => exact parkBehind_sound (wait_sound e (hact _ _ h))
    next => exact raise_sound h

theorem rejoinTakers_sound {s : State} (h : Sound s) : Sound (s.rejoinTakers) :=
  sound_foldl (fun _ h1 _ => rejoin_sound h1) (sound_foldl (fun _ h1 _ => rejoin_sound h1) h)

theorem giveOne_sound {s : State} (h : Sound s) {h' tk t} : SoundOwn (s.giveOne h' tk t) := by
  unfold State.giveOne
  dsimp only
  split
  · split
    · exact trivial
    · exact updOwnBuf_sound h
  · exact h

theorem shareOne_sound {s : State} (h : Sound s) {h' t} : SoundOwn (s.shareOne h' t) := by
  unfold State.shareOne
  dsimp only
  split
  · split
    · exact trivial
    · exact updOwnBuf_sound h
  · exact h

theorem ownForm_sound {s : State} (h : Sound s) {h' n chk rel out} {act1 : TRef → State → OwnRes}
    (hact1 : ∀ a s, Sound s → SoundOwn (act1 a s)) : Sound (s.ownForm h' n chk rel out act1) :=
  settle_sound (issue_sound h (fun _ _ h1 => guardFaults_sound h1 (fun _ h2 => sound_ite h2 (ordered_sound h2 (fun _ h3 =>
    rejoinTakers_sound (ownLoop_sound (sound_ite (relAll_sound (retireAll_sound h3)) (retireAll_sound h3)) (fun _ _ h4 => hact1
    _ _ h4)))))))

theorem barLoops_sound {s : State} (h : Sound s) {t id lv} : Sound (s.barLoops t id lv) := sound_with (updDie_sound h)

theorem takeOne_sound {s : State} (h : Sound s) {h' tk w t} : SoundOwn (s.takeOne h' tk w t) := by
  unfold State.takeOne
  dsimp only
  split
  · exact h
  · split
    · exact acquire_sound (updOwnBuf_sound (sound_ite (barLoops_sound h) h))
    · split
      · exact park_sound (updOwnBuf_sound (barLoops_sound h))
      · exact acquire_sound (updOwnBuf_sound (barLoops_sound h))
    · exact park_sound h
    · exact trivial

theorem execOwntakeDrainEnd_sound {s : State} (h : Sound s) {t} : SoundOut (execOwntakeDrainEnd t s) := by
  unfold execOwntakeDrainEnd
  show Sound _
  split
  · exact h
  · exact rejoinTakers_sound (finish_sound (acquire_sound (updOwnBuf_sound h)))

/-! ## The TIL class (R222 to R226, R237 to R239), TALLOC_GRANT and TILE_TRANSFER_DONE -/

theorem refresh_sound {s : State} (h : Sound s) {lid wg h'} : Sound (s.refresh lid wg h') := updHandle_sound h

theorem bind_sound {s : State} (h : Sound s) {t h' shape k} : Sound (s.bind t h' shape k) := updWg_sound (updHandle_sound h)

theorem tilForm_sound {s : State} (h : Sound s) {h' n hn chk busy} {eff : TRef → State → State}
    (heff : ∀ t s, Sound s → Sound (eff t s)) : Sound (s.tilForm h' n hn chk busy eff) := by
  refine issue_sound h fun _ _ h1 => ?_
  split
  next _ e => exact some_sound e (deliver_sound h1)
  · dsimp only
    split
    · exact stop_sound h1
    · exact sound_ite h1 (sound_foldl (fun _ h2 _ => heff _ _ h2) (retireAll_sound h1))

theorem execTalloc_sound {s : State} (h : Sound s) {h' hn} : SoundOut (execTalloc h' hn s) := by
  refine tilForm_sound h fun _ _ h1 => ?_
  split
  · exact retireBound_sound (bind_sound h1)
  · exact park_sound h1

theorem raiseOne_sound {s : State} (h : Sound s) {t f} : Sound (s.raiseOne t f) := updThr_sound h

theorem execTallocGrant_sound {s : State} (h : Sound s) {t} : SoundOut (execTallocGrant t s) := by
  unfold execTallocGrant
  show Sound _
  split
  · exact h
  · exact sound_ite (raiseOne_sound h) (finish_sound (bind_sound h))

theorem tileForm_sound {s : State} (h : Sound s) {h' hn lv load} : Sound (s.tileForm h' hn lv load) := by
  refine tilForm_sound h fun _ _ h1 => ?_
  split
  · exact h1
  · exact retire_sound (refresh_sound (sound_with (tick_sound h1)))

theorem execTileTransferDone_sound {s : State} (h : Sound s) {i} : SoundOut (execTileTransferDone i s) := by
  unfold execTileTransferDone
  show Sound _
  split
  · exact h
  · exact sound_ite h (refresh_sound (settleSlot_sound (freeSource_sound (doMove_sound (sound_with h)))))

theorem tgiveChk_sound {s : State} (h : Sound s) {h' hn t} : SoundOk (s.tgiveChk h' hn t) := by
  unfold State.tgiveChk
  dsimp only
  split
  · exact trivial
  · split
    · exact trivial
    · exact sound_ite (killHandle_sound h) (updHandle_sound h)

theorem handleForm_sound {s : State} (h : Sound s) {h' n hn} {chk : TRef → State → Except (ℕ × Flt) State}
    (hchk : ∀ a s, Sound s → SoundOk (chk a s)) : Sound (s.handleForm h' n hn chk) := by
  refine tilForm_sound h fun _ _ h1 => ?_
  split
  next _ e => exact retireBound_sound (settleTakes_sound (ok_sound e (hchk _ _ h1)))
  · exact h1

theorem execTtake_sound {s : State} (h : Sound s) {h' hn} : SoundOut (execTtake h' hn s) := by
  refine tilForm_sound h fun _ _ h1 => sound_ite (park_sound h1) ?_
  split
  next _ e => exact retireBound_sound (ok_sound e (ttakeChk_sound h1))
  · exact h1

theorem tfreeChk_sound {s : State} (h : Sound s) {hn t} : SoundOk (s.tfreeChk hn t) := by
  unfold State.tfreeChk
  split
  · exact trivial
  · exact killHandle_sound h

end Sys2Proof.Proofs.Soundness

end

section

/-! # The forms of order, queues, masks, barriers, graph, matrix, system and debug keep a state sound (O30) -/

namespace Sys2Proof.Proofs.Soundness

open Sys2Proof.Machine Sys2Proof.Claims

/-! ## The ORD class (R246 to R248), and PHASE_COMPLETE -/

theorem phaseOne_sound {s : State} (h : Sound s) {len scope ts g} : Sound (s.phaseOne len scope ts g) :=
  sound_ite (retireBoundAll_sound (acquire_sound (releaseAll_sound h))) (sound_foldl (fun _ h1 _ => park_sound h1) (sound_with
    (tick_sound h)))

theorem execPhase_sound {s : State} (h : Sound s) {h' scp} : SoundOut (execPhase h' scp s) := by
  refine settle_sound (issue_sound h (fun _ _ h1 => ?_))
  split
  next _ e => exact some_sound e (deliver_sound h1)
  · exact ordered_sound h1 fun _ h2 => sound_foldl (fun _ h3 _ => phaseOne_sound h3) (retireAll_sound h2)

theorem execPhaseComplete_sound {s : State} (h : Sound s) {i} : SoundOut (execPhaseComplete i s) := by
  unfold execPhaseComplete
  show Sound _
  split
  · exact h
  · exact sound_ite h (settle_sound (sound_foldl (fun _ h1 _ => finish_sound h1) (sound_ite (acquire_sound (release_sound
      (draw_sound (sound_with h)))) (release_sound (draw_sound (sound_with h))))))

theorem execFence_sound {s : State} (h : Sound s) {h'} : SoundOut (execFence h' s) := by
  refine issue_sound h fun _ _ h1 => ?_
  dsimp only
  split
  next _ e => exact some_sound e (deliver_sound h1)
  · exact retireAll_sound h1

/-! ## The QUE class (R220, R240 to R245, R288), and QUEUE_WAIT_RESUME -/

theorem updQueue_sound {s : State} (h : Sound s) {lid wg q f} : Sound (s.updQueue lid wg q f) := updWg_sound h

theorem execQcfg_sound {s : State} (h : Sound s) {h' q} : SoundOut (execQcfg h' q s) :=
  issue_sound h fun _ _ h1 => guardFaults_sound h1 fun _ h2 => retireBoundAll_sound (retireAll_sound (sound_foldl (fun _ h3 _ =>
    updQueue_sound h3) h2))

theorem moveElem_sound {s : State} (h : Sound s) {t} : Sound (s.moveElem t) := by
  unfold State.moveElem
  split
  · exact sound_ite h (updThr_sound (updQueue_sound (tick_sound h)))
  · split
    · exact h
    · exact sound_ite h (updThr_sound (updQueue_sound h))
  · exact h

theorem groupMoved_sound {s : State} (h : Sound s) {g} : Sound (s.groupMoved g) :=
  sound_ite (sound_foldl (fun _ h1 _ => finish_sound h1) h) h

theorem queueForm_sound {s : State} (h : Sound s) {h' q push o field n wait} : Sound (s.queueForm h' q push o field n wait) :=
  issue_sound h fun _ _ h1 => guardFaults_sound h1 fun _ h2 => sound_ite h2 (groupMoved_sound (sound_foldl (fun _ h3 _ =>
    moveElem_sound h3) (sound_foldl (fun _ h3 _ => park_sound h3) (retireAll_sound h2))))

theorem queueResume_sound {s : State} (h : Sound s) {t} : Sound (s.queueResume t) :=
  sound_ite (groupMoved_sound (moveElem_sound h)) h

/-! ## The DIV class (R153 to R158), and arrival at a mask (R154) -/

theorem arriveOne_sound {s : State} (h : Sound s) {k len i act vals t} : Sound (s.arriveOne k len i act vals t) :=
  park_sound (updMask_sound h)

theorem arriveMask_sound {s : State} (h : Sound s) {k len p i act vals} : Sound (s.arriveMask k len p i act vals) := by
  unfold State.arriveMask
  dsimp only
  split
  · exact raise_sound (retireAll_sound h)
  · exact sound_foldl (fun _ h1 _ => complete_sound h1) (sound_foldl (fun _ h1 _ => arriveOne_sound h1) (retireAll_sound h))

theorem execLeave_sound {s : State} (h : Sound s) {h' k} : SoundOut (execLeave h' k s) :=
  issue_sound h fun _ _ h1 => each_sound h1 fun _ _ h2 => complete_sound (leaveMask_sound h2)

theorem execWaitj_sound {s : State} (h : Sound s) {h' k} : SoundOut (execWaitj h' k s) := by
  refine issueWith_sound h fun _ _ h1 => ?_
  split
  next _ e => exact some_sound e (deliver_sound h1)
  · exact arriveMask_sound h1

theorem execBrk_sound {s : State} (h : Sound s) {h' klo khi dw} : SoundOut (execBrk h' klo khi dw s) :=
  issue_sound h fun _ _ h1 => eachOwn_sound h1 fun _ _ h2 => transfer_sound (sound_foldl (fun _ h3 _ => complete_sound h3)
    (sound_foldl (fun _ h3 _ => leaveMask_sound h3) h2))

/-! ## The XLN class (R159 to R163) -/

theorem xln_sound {s : State} (h : Sound s) {h' k i n vals} : Sound (s.xln h' k i n vals) :=
  issueWith_sound h fun _ _ h1 => arriveMask_sound h1

theorem guardSet_sound {s : State} (h : Sound s) {h' idle field o bad act} {k : State → State}
    (hk : ∀ s, Sound s → Sound (k s)) : Sound (s.guardSet h' idle field o bad act k) := by
  unfold State.guardSet
  split
  · exact hk _ h
  · exact stopWith_sound h

theorem arriveSetOne_sound {s : State} (h : Sound s) {set len w i act vals t} : Sound (s.arriveSetOne set len w i act vals t) :=
  park_sound (updSet_sound h)

theorem arriveSet_sound {s : State} (h : Sound s) {setOf len p w i act vals} {k : State → State}
    (hk : ∀ s, Sound s → Sound (k s)) : Sound (s.arriveSet setOf len p w i act vals k) := by
  unfold State.arriveSet
  dsimp only
  split
  · exact raise_sound (retireAll_sound h)
  · exact hk _ (sound_foldl (fun _ h1 _ => arriveSetOne_sound h1) (retireAll_sound h))

theorem execReduxSet_sound {s : State} (h : Sound s) {h' set op} : SoundOut (execReduxSet h' set op s) :=
  issueWith_sound h fun _ _ h1 => guardSet_sound h1 fun _ h2 => arriveSet_sound h2 fun _ h3 => sound_foldl (fun _ h4 _ =>
    completeSet_sound h4) h3

/-! ## The SYN class (R164 to R169) -/

theorem orderedIf_sound {s : State} (h : Sound s) {ph act} {k : State → State} (hk : ∀ s, Sound s → Sound (k s)) :
    Sound (s.orderedIf ph act k) :=
  sound_ite (ordered_sound h (fun _ h1 => hk _ h1)) (hk _ h)

theorem execBar_sound {s : State} (h : Sound s) {h' ph scp} : SoundOut (execBar h' ph scp s) := by
  refine settle_sound (issue_sound h (fun _ _ h1 => ?_))
  split
  next _ e => exact some_sound e (deliver_sound h1)
  · exact sound_ite h1 (orderedIf_sound h1 (fun _ h2 => sound_foldl (fun _ h3 _ => checkBar_sound h3) (sound_foldl (fun _ h3 _
      => updWg_sound (park_sound h3)) (retireAll_sound h2))))

theorem execSbar_sound {s : State} (h : Sound s) {h' set ph scp} : SoundOut (execSbar h' set ph scp s) := by
  refine settle_sound (issue_sound h (fun _ _ h1 => guardSet_sound h1 (fun _ h2 => ?_)))
  split
  next _ e => exact some_sound e (deliver_sound h2)
  · exact guardFaults_sound h2 fun _ h3 => sound_ite h3 (orderedIf_sound h3 (fun _ h4 => sound_foldl (fun _ h5 _ =>
      checkSbar_sound h5) (sound_foldl (fun _ h5 _ => updSet_sound (park_sound h5)) (retireAll_sound h4))))

theorem updPoint_sound {s : State} (h : Sound s) {t pt f} : Sound (s.updPoint t pt f) := updInst_sound h

theorem rwaitEnd_sound {s : State} (h : Sound s) {ph scp t} : Sound (s.rwaitEnd ph scp t) :=
  finish_sound (sound_ite (acquire_sound h) h)

theorem wakePoint_sound {s : State} (h : Sound s) {u pt} : Sound (s.wakePoint u pt) := by
  refine sound_foldl (fun _ h1 _ => ?_) h
  split
  · exact sound_ite (rwaitEnd_sound h1) h1
  · exact sound_ite (finish_sound (updThr_sound h1)) h1
  · exact h1

theorem arrive_sound {s : State} (h : Sound s) {pt d t} : Sound (s.arrive pt d t) :=
  sound_ite (wakePoint_sound (updPoint_sound (updThr_sound h))) (updPoint_sound (updThr_sound h))

theorem performHeld_sound {s : State} (h : Sound s) {u pt} : Sound (s.performHeld u pt) := by
  refine sound_foldl (fun _ h1 _ => ?_) h
  split
  · exact finish_sound (arrive_sound h1)
  · exact h1

theorem execRinit_sound {s : State} (h : Sound s) {h' pt} : SoundOut (execRinit h' pt s) :=
  settle_sound (issue_sound h (fun _ _ h1 => guardFaults_sound h1 (fun _ h2 => retireBoundAll_sound (retireAll_sound
    (sound_foldl (fun _ h3 _ => performHeld_sound (wakePoint_sound (updPoint_sound h3))) h2)))))

theorem execRarrive_sound {s : State} (h : Sound s) {h' pt ph scp} : SoundOut (execRarrive h' pt ph scp s) :=
  settle_sound (issue_sound h (fun _ _ h1 => orderedIf_sound h1 (fun _ h2 => sound_foldl (fun _ h3 _ => sound_ite
    (retireBound_sound (arrive_sound h3)) (park_sound h3)) (retireAll_sound (sound_ite (relAll_sound h2) h2)))))

theorem execRwait_sound {s : State} (h : Sound s) {h' pt ph scp} : SoundOut (execRwait h' pt ph scp s) := by
  refine settle_sound (issue_sound h (fun _ _ h1 => ?_))
  split
  next _ e => exact some_sound e (deliver_sound h1)
  · exact orderedIf_sound h1 fun _ h2 => sound_foldl (fun _ h3 _ => sound_ite (rwaitEnd_sound (park_sound h3)) (park_sound h3))
      (retireAll_sound h2)

theorem execRtest_sound {s : State} (h : Sound s) {h' pt pd} : SoundOut (execRtest h' pt pd s) :=
  issue_sound h fun _ _ h1 => sound_foldl (fun _ h2 _ => sound_ite (park_sound h2) (retire_sound (updThr_sound h2)))
    (retireAll_sound h1)

theorem execWatchdogRendezvous_sound {s : State} (h : Sound s) {lid inst pt} : SoundOut (execWatchdogRendezvous lid inst pt s) :=
  sound_ite (updInst_sound (sound_foldl (fun _ h1 _ => updThr_sound (abandonWait_sound h1)) h)) h

/-! ## The ENG class (R290 to R297, R302 to R304), GWAIT_RETURN, and the walker's work -/

theorem updNode_sound {s : State} (h : Sound s) {die ctx idx f} : Sound (s.updNode die ctx idx f) := updDie_sound h

theorem acqBy_sound {s : State} (h : Sound s) {by_ scope} : SoundSnd (s.acqBy by_ scope) :=
  tick_sound (sound_with (logSyncBy_sound (tick_sound h)))

theorem agentRead_sound {s : State} (h : Sound s) {start ctx a va n} : SoundOkSnd (s.agentRead start ctx a va n) := by
  unfold State.agentRead
  split
  · exact trivial
  · exact readPieces_sound h

theorem engEnter_sound {s : State} (h : Sound s) {by_ ctx bs} : SoundSnd (s.engEnter by_ ctx bs) :=
  tagKeys_sound (enter_sound (tick_sound h))

theorem engRelease_sound {s : State} (h : Sound s) {by_ scope seqs} : Sound (s.engRelease by_ scope seqs) :=
  tick_sound (logSyncBy_sound (sound_with (tick_sound h)))

theorem agentWrite_sound {s : State} (h : Sound s) {by_ scope ctx va bytes} : SoundOk (s.agentWrite by_ scope ctx va bytes) := by
  unfold State.agentWrite
  split
  · trivial
  · refine engRelease_sound (List.foldlRecOn (motive := fun x : List Nat × Nat × State => Sound x.2.2) _ _ h fun x hx p _ => ?_)
    exact engEnter_sound hx

theorem swapHeader_sound {s : State} (h : Sound s) {die e} : Sound (s.swapHeader die e) := by
  unfold State.swapHeader
  split
  · exact h
  · exact fwWriteVa_sound h

theorem markSwapped_sound {s : State} (h : Sound s) {e} : Sound (s.markSwapped e) := tick_sound (sound_with h)

theorem swap_sound {s : State} (h : Sound s) {die i} : Sound (s.swap die i) := by
  unfold State.swap
  split
  · exact h
  · exact updDie_sound (markSwapped_sound (swapHeader_sound h))

theorem issueNode_sound {s : State} (h : Sound s) {die ctx idx n} : Sound (s.issueNode die ctx idx n) := by
  unfold State.issueNode
  dsimp only
  split
  · exact updNode_sound (acqBy_sound h)
  next _ e => exact updDie_sound (tick_sound (ok_snd_sound e (agentRead_sound (acqBy_sound h))))

theorem taskNode_sound {s : State} (h : Sound s) {die ctx idx n} : Sound (s.taskNode die ctx idx n) :=
  sound_ite (updNode_sound h) (sound_ite (updNode_sound (makeTasks_sound h)) (makeTasks_sound h))

theorem hostNode_sound {s : State} (h : Sound s) {die ctx idx n status} : Sound (s.hostNode die ctx idx n status) := by
  unfold State.hostNode
  dsimp only
  split
  · exact updNode_sound (acqBy_sound h)
  next _ e =>
    exact updNode_sound (sound_ite (sound_with (ok_sound e (agentWrite_sound (acqBy_sound h)))) (ok_sound e (agentWrite_sound
      (acqBy_sound h))))

theorem beginPublish_sound {s : State} (h : Sound s) {die ctx idx n} : Sound (s.beginPublish die ctx idx n) := by
  unfold State.beginPublish
  split
  · exact h
  · exact sound_ite h (updNode_sound (updDie_sound h))

theorem tryFire_sound {s : State} (h : Sound s) {die ctx idx} : Sound (s.tryFire die ctx idx) := by
  unfold State.tryFire
  split
  · exact h
  · refine sound_ite h (sound_ite (hostNode_sound (updNode_sound h)) (sound_ite (updNode_sound (updNode_sound h)) ?_))
    split
    · exact updNode_sound (updNode_sound h)
    · exact issueNode_sound (updNode_sound h)
    · exact issueNode_sound (updNode_sound h)
    · exact taskNode_sound (updNode_sound h)
    · exact beginPublish_sound (updNode_sound h)

theorem signalAt_sound {s : State} (h : Sound s) {die i} : Sound (s.signalAt die i) := by
  unfold State.signalAt
  split
  · exact h
  · exact sound_ite (sound_ite h (updDie_sound h)) (tryFire_sound (updNode_sound (sound_ite h (updDie_sound h))))

theorem execSignal_sound {s : State} (h : Sound s) {i} : SoundOut (execSignal i s) := by
  unfold execSignal
  show Sound _
  split
  · exact signalAt_sound h
  · exact h

theorem publishNode_sound {s : State} (h : Sound s) {die ctx idx n} : Sound (s.publishNode die ctx idx n) := by
  unfold State.publishNode
  split
  · exact updNode_sound h
  · exact sound_ite (beginPublish_sound h) (updNode_sound (updDie_sound (swap_sound (beginPublish_sound h))))

theorem nodeRelease_sound {s : State} (h : Sound s) {die n} : Sound (s.nodeRelease die n) := engRelease_sound (acqBy_sound h)

theorem finishNode_sound {s : State} (h : Sound s) {die ctx idx n status} : Sound (s.finishNode die ctx idx n status) :=
  sound_foldl (fun _ h1 _ => signalFrom_sound h1) (tick_sound (updNode_sound (count_sound (nodeRelease_sound h))))

theorem execNodeFinish_sound {s : State} (h : Sound s) {die ctx idx} : SoundOut (execNodeFinish die ctx idx s) := by
  refine sound_ite h ?_
  dsimp only
  split
  · split
    · refine finishNode_sound ?_
      split
      · exact sound_ite (publishNode_sound h) h
      · exact h
    · split
      · exact sound_ite (publishNode_sound h) h
      · exact h
  · split
    · exact sound_ite (publishNode_sound h) h
    · exact h

theorem newNode_sound {s : State} (h : Sound s) {t d} : SoundSnd (s.newNode t d) := updDie_sound h

theorem planGnode_sound {s : State} (h : Sound s) {h' t} : SoundPlan (s.planGnode h' t) := by
  unfold State.planGnode
  dsimp only
  split
  · exact ⟨h, trivial⟩
  · refine planLoad_sound h fun _ _ h1 => ?_
    split
    · exact ⟨h1, trivial⟩
    · split
      · exact ⟨h1, trivial⟩
      · exact ⟨newNode_sound h1, fun _ h2 => retireBound_sound (updThr_sound h2)⟩

theorem makeForm_sound {s : State} (h : Sound s) {h' act} {plan : TRef → State → Plan × State}
    (hplan : ∀ a s, Sound s → SoundPlan (plan a s)) : Sound (s.makeForm h' act plan) :=
  sound_ite (planForm_sound h (fun _ _ h1 => hplan _ _ h1) (fun _ h1 => h1)) (updDie_sound (planForm_sound h (fun _ _ h1 =>
    hplan _ _ h1) (fun _ h1 => h1)))

theorem garmForm_sound {s : State} (h : Sound s) {h' fires} {pre : List TRef → State → State}
    (hpre : ∀ a s, Sound s → Sound (pre a s)) {chk : TRef → State → Except (ℕ × Flt) State}
    (hchk : ∀ a s, Sound s → SoundOk (chk a s)) : Sound (s.garmForm h' fires pre chk) := by
  refine settle_sound (issue_sound h (fun _ _ h1 => ?_))
  dsimp only
  split
  · exact stop_sound h1
  · refine atTurn_sound h1 fun _ h2 => sound_foldl (fun _ h3 _ => ?_) (hpre _ _ (retireAll_sound h2))
    split
    next _ e => exact retireBound_sound (ok_sound e (hchk _ _ h3))
    · exact h3

theorem armChk_sound {s : State} (h : Sound s) {h' t} : SoundOk (s.armChk h' t) := by
  refine ok_bind fun _ => ?_
  dsimp only
  split
  · exact tryFire_sound (updNode_sound h)
  · exact tryFire_sound (updNode_sound h)
  · exact trivial

theorem freeChk_sound {s : State} (h : Sound s) {h' t} : SoundOk (s.freeChk h' t) := by
  refine ok_bind fun _ => ?_
  dsimp only
  split
  · exact trivial
  · exact updDie_sound h

theorem sigChk_sound {s : State} (h : Sound s) {h' t} : SoundOk (s.sigChk h' t) := ok_bind fun _ => signalNode_sound h

theorem execGarmSig_sound {s : State} (h : Sound s) {h'} : SoundOut (execGarmSig h' s) :=
  garmForm_sound h (fun _ _ h1 => sound_ite h1 (relAll_sound h1)) fun _ _ h1 => sigChk_sound h1

theorem gwaitEnd_sound {s : State} (h : Sound s) {t n} : Sound (s.gwaitEnd t n) := by
  unfold State.gwaitEnd
  split
  · exact finish_sound (updThr_sound (acquire_sound h))
  · exact finish_sound (updThr_sound (acquire_sound h))
  · exact h

theorem gwaitOne_sound {s : State} (h : Sound s) {len id w t} : Sound (s.gwaitOne len id w t) := by
  unfold State.gwaitOne
  dsimp only
  split
  · exact gwaitEnd_sound (park_sound h)
  · exact park_sound h

theorem execGwait_sound {s : State} (h : Sound s) {h'} : SoundOut (execGwait h' s) :=
  issue_sound h fun _ _ h1 => guardFaults_sound h1 fun _ h2 => ordered_sound h2 fun _ h3 => sound_foldl (fun _ h4 _ =>
    gwaitOne_sound h4) (retireAll_sound h3)

theorem execGtest_sound {s : State} (h : Sound s) {h' pd} : SoundOut (execGtest h' pd s) :=
  issue_sound h fun _ _ h1 => guardFaults_sound h1 fun _ h2 => orderedIf_sound h2 fun _ h3 => sound_foldl (fun _ h4 _ =>
    sound_ite (gwaitOne_sound h4) (retire_sound (updThr_sound (sound_ite (acquire_sound h4) h4)))) (retireAll_sound h3)

theorem execGwaitReturn_sound {s : State} (h : Sound s) {t} : SoundOut (execGwaitReturn t s) := by
  unfold execGwaitReturn
  show Sound _
  split
  · exact h
  · split
    · exact raiseOne_sound h
    · exact sound_ite (gwaitEnd_sound h) h

theorem selectNew_sound {s : State} (h : Sound s) {die ctx i} : Sound (s.selectNew die ctx i) := sound_with h

theorem planShadow_sound {s : State} (h : Sound s) {h' t} : SoundPlan (s.planShadow h' t) := by
  refine planLoad_sound h fun _ _ h1 => ?_
  split
  · exact ⟨h1, trivial⟩
  · split
    · exact ⟨h1, trivial⟩
    · exact ⟨updDie_sound h1, fun _ h2 => retireBound_sound (updThr_sound (selectNew_sound h2))⟩

theorem execShadowAddr_sound {s : State} (h : Sound s) {h'} : SoundOut (execShadowAddr h' s) := by
  refine issue_sound h fun _ _ h1 => guardFaults_sound h1 fun _ h2 => each_sound h2 fun _ _ h3 => ?_
  split
  · exact updThr_sound h3
  · exact h3

theorem shadowFreeChk_sound {s : State} (h : Sound s) {h' t} : SoundOk (s.shadowFreeChk h' t) := by
  unfold State.shadowFreeChk
  split
  · exact trivial
  · split
    · exact trivial
    · exact updDie_sound h

theorem publishOne_sound {s : State} (h : Sound s) {h' t} : SoundOwn (s.publishOne h' t) := by
  unfold State.publishOne
  split
  · exact trivial
  · split
    · exact trivial
    · exact swap_sound h

theorem publishLoop_sound {s : State} (h : Sound s) {h' l} : Sound (s.publishLoop h' l) := by
  induction l generalizing s with
  | nil => exact h
  | cons t l ih =>
    have h1 := releaseAll_sound h (lid := t.lid) (wg := t.wg) (scope := .module)
    unfold State.publishLoop
    dsimp only
    split
    next e => exact ih (retireBound_sound (done_sound e (publishOne_sound h1)))
    next e => exact wait_sound e (publishOne_sound h1)
    next => exact raise_sound h1

theorem execPublish_sound {s : State} (h : Sound s) {h'} : SoundOut (execPublish h' s) :=
  settle_sound (issue_sound h (fun _ _ h1 => guardFaults_sound h1 (fun _ h2 => ordered_sound h2 (fun _ h3 => publishLoop_sound
    (retireAll_sound h3)))))

/-! ## The matrix engine (R69 to R74, R308 to R326) -/

theorem raiseAll_sound {s : State} (h : Sound s) {ts f} : Sound (s.raiseAll ts f) := sound_foldl (fun _ h1 _ => updThr_sound h1) h

theorem mmaForm_sound {s : State} (h : Sound s) {h' n names setOf i vals} : Sound (s.mmaForm h' n names setOf i vals) := by
  refine issueWith_sound h fun _ _ h1 => ?_
  split
  next _ e => exact some_sound e (deliver_sound h1)
  · exact guardSet_sound h1 fun _ h2 => arriveSet_sound h2 fun _ h3 => h3

theorem clearSet_sound {s : State} (h : Sound s) {lid inst set} : Sound (s.clearSet lid inst set) := updSet_sound h

theorem showLoop_sound {s : State} (h : Sound s) {l} : Sound (s.showLoop l) := updHandle_sound h

theorem refreshAll_sound {s : State} (h : Sound s) {lid wg} : Sound (s.refreshAll lid wg) :=
  sound_foldl (fun _ h1 _ => refresh_sound h1) (sound_foldl (fun _ h1 _ => settleSlot_sound h1) h)

theorem startLoop_sound {s : State} (h : Sound s) {inst set die site l} : Sound (s.startLoop inst set die site l) :=
  sound_ite (count_sound (updLaunch_sound (showLoop_sound (sound_ite (updSet_sound h) h)))) (refreshAll_sound (showLoop_sound
    (updCore_sound (sound_ite (updSet_sound h) h))))

theorem execMloopStart_sound {s : State} (h : Sound s) {lid inst set} : SoundOut (execMloopStart lid inst set s) := by
  unfold execMloopStart
  show Sound _
  split
  · dsimp only
    split
    · exact sound_foldl (fun _ h1 _ => finish_sound h1) (clearSet_sound h)
    · split
      · exact raiseAll_sound (clearSet_sound h)
      · split
        · exact raiseAll_sound (clearSet_sound h)
        · exact sound_ite h (sound_foldl (fun _ h1 _ => finish_sound h1) (startLoop_sound (clearSet_sound (tick_sound h))))
  · exact h

theorem stopLoop_sound {s : State} (h : Sound s) {die site l src f} : Sound (s.stopLoop die site l src f) :=
  sound_ite (refreshAll_sound h) (sound_foldl (fun _ h1 _ => updThr_sound h1) (showLoop_sound (updCore_sound h)))

theorem loopStep_sound {s : State} (h : Sound s) {die site l} : Sound (s.loopStep die site l) := by
  unfold State.loopStep
  split
  · exact stopLoop_sound h
  next i _ =>
    extract_lets done _ l1
    split
    next bytes fl _ =>
      extract_lets s1 s2 s3 s4 s5
      have h3 : Sound s3 := count_sound (sound_foldl (fun _ h1 _ => setFlags_sound h1) (draw_sound (scWrite_sound h)))
      have h5 : Sound s5 := showLoop_sound (sound_ite h3 (updCore_sound h3))
      exact sound_ite (refreshAll_sound h5) h5

theorem execMatrixStep_sound {s : State} (h : Sound s) {die site} : SoundOut (execMatrixStep die site s) := by
  unfold execMatrixStep
  show Sound _
  dsimp only
  split
  · exact updCore_sound h
  · exact loopStep_sound (updCore_sound (updCore_sound h))

theorem restartLoop_sound {s : State} (h : Sound s) {t r} : Sound (s.restartLoop t r) := by
  unfold State.restartLoop
  dsimp only
  split
  · exact h
  · exact showLoop_sound (updCore_sound h)

theorem waveForm_sound {s : State} (h : Sound s) {h' n rd wr chk busy} {eff : TRef → State → State}
    (heff : ∀ a s, Sound s → Sound (eff a s)) {each : TRef → State → State} (heach : ∀ a s, Sound s → Sound (each a s)) :
    Sound (s.waveForm h' n rd wr chk busy eff each) := by
  refine issue_sound h fun _ _ h1 => ?_
  split
  next _ e => exact some_sound e (deliver_sound h1)
  · exact guardFaults_sound h1 fun _ h2 => sound_ite h2 (retireAll_sound (sound_foldl (fun _ h3 _ => heach _ _ h3) (sound_foldl
      (fun _ h3 _ => heff _ _ h3) h2)))

theorem execMread_sound {s : State} (h : Sound s) {h' x} : SoundOut (execMread h' x s) := by
  refine waveForm_sound h (fun _ _ h1 => sound_ite (scWrite_sound (draw_sound h1)) ?_) fun _ _ h1 => updThr_sound h1
  split
  · exact sound_foldl (fun _ h2 _ => scWrite_sound h2) (draw_sound h1)
  · exact draw_sound h1

theorem execMcvt_sound {s : State} (h : Sound s) {h' x} : SoundOut (execMcvt h' x s) :=
  waveForm_sound h (fun _ _ h1 => setFlags_sound (draw_sound (scWrite_sound h1))) fun _ _ h1 => h1

theorem logGate_sound {s : State} (h : Sound s) {lid b} : Sound (s.logGate lid b) := by
  unfold State.logGate
  dsimp only
  split
  · exact h
  · exact sound_ite (updLaunch_sound (fwWriteVa_sound h)) (updLaunch_sound h)

theorem gateDecide_sound {s : State} (h : Sound s) {inst set x lead parts voters} :
    Sound (s.gateDecide inst set x lead parts voters) :=
  sound_foldl (fun _ h1 _ => finish_sound h1) (sound_foldl (fun _ h1 _ => updThr_sound h1) (updSet_sound (updWg_sound
    (logGate_sound (draw_sound h)))))

theorem execMgateDecision_sound {s : State} (h : Sound s) {lid inst set} : SoundOut (execMgateDecision lid inst set s) := by
  unfold execMgateDecision
  show Sound _
  split
  · dsimp only
    split
    · exact sound_foldl (fun _ h1 _ => finish_sound h1) (clearSet_sound h)
    · split
      · exact raiseAll_sound (clearSet_sound h)
      · exact sound_ite (raiseAll_sound (clearSet_sound h)) (sound_ite h (gateDecide_sound (clearSet_sound h)))
  · exact h

/-! ## The SYS class (R327 to R330, R337 to R341, R353) -/

theorem resumeAt_sound {s : State} (h : Sound s) {t pc restart} : Sound (s.resumeAt t pc restart) :=
  sound_ite (restartLoop_sound (leaveHandler_sound (updThr_sound h))) (leaveHandler_sound (updThr_sound h))

theorem skipReturn_sound {s : State} (h : Sound s) {t} : Sound (s.skipReturn t) :=
  sound_ite (resumeAt_sound (clearFlags_sound h)) (resumeAt_sound h)

theorem retryReturn_sound {s : State} (h : Sound s) {h' t} : Sound (s.retryReturn h' t) :=
  sound_ite (park_sound h) (resumeAt_sound h)

theorem returnOne_sound {s : State} (h : Sound s) {t} {eff : TRef → State → State} (heff : ∀ a s, Sound s → Sound (eff a s)) :
    Sound (s.returnOne eff t) :=
  sound_ite (giveSlot_sound (sound_ite h (sound_ite (killReturn_sound h) (heff _ _ h)))) (sound_ite h (sound_ite
    (killReturn_sound h) (heff _ _ h)))

theorem trapret_sound {s : State} (h : Sound s) {h' a n} {eff : TRef → State → State}
    (heff : ∀ a s, Sound s → Sound (eff a s)) : Sound (s.trapret h' a n eff) :=
  settle_sound (issue_sound h (fun _ _ h1 => guardFaults_sound h1 (fun _ h2 => sound_foldl (fun _ h3 _ => returnOne_sound h3
    (fun _ _ h4 => heff _ _ h4)) (retireAll_sound h2))))

theorem execRdtrap_sound {s : State} (h : Sound s) {h'} : SoundOut (execRdtrap h' s) :=
  issue_sound h fun _ _ h1 => guardFaults_sound h1 fun _ h2 => each_sound h2 fun _ _ h3 => updThr_sound h3

theorem execWrtrap_sound {s : State} (h : Sound s) {h'} : SoundOut (execWrtrap h' s) :=
  issue_sound h fun _ _ h1 => guardFaults_sound h1 fun _ h2 => each_sound h2 fun _ _ h3 => updThr_sound h3

theorem execPgreq_sound {s : State} (h : Sound s) {h'} : SoundOut (execPgreq h' s) := by
  refine issue_sound h fun _ _ h1 => guardFaults_sound h1 fun _ h2 => each_sound h2 fun _ _ h3 => updThr_sound ?_
  unfold Prod.snd
  split
  · exact h3
  · exact updCtx_sound h3

/-! ## The DBG class (R354 to R356), event counters as instructions see them (R283, R355), and halts (R285) -/

theorem setHalt_sound {s : State} (h : Sound s) {lid inst b} : Sound (s.setHalt lid inst b) :=
  sound_foldl (fun _ h1 _ => updThr_sound h1) h

theorem haltUnit_sound {s : State} (h : Sound s) {lid inst} : Sound (s.haltUnit lid inst) :=
  sound_ite (setHalt_sound h) (updLaunch_sound h)

theorem haltsOf_sound {s : State} (h : Sound s) {lid} : Sound (s.haltsOf lid) :=
  sound_ite h (updLaunch_sound (sound_foldl (fun _ h1 _ => setHalt_sound h1) h))

theorem resumeUnit_sound {s : State} (h : Sound s) {lid inst} : Sound (s.resumeUnit lid inst) := updLaunch_sound (setHalt_sound h)

theorem execBkpt_sound {s : State} (h : Sound s) {h' code} : SoundOut (execBkpt h' code s) :=
  issue_sound h fun _ _ h1 => sound_ite (sound_foldl (fun _ h2 _ => haltUnit_sound h2) (retireAll_sound h1)) (stop_sound h1)

theorem updCounter_sound {s : State} (h : Sound s) {x t f} : Sound (s.updCounter x t f) := by
  unfold State.updCounter
  dsimp only
  split
  · exact updCore_sound h
  · exact updDie_sound h
  · exact sound_with h

theorem execCntrd_sound {s : State} (h : Sound s) {h' x} : SoundOut (execCntrd h' x s) :=
  issue_sound h fun _ _ h1 => guardFaults_sound h1 fun _ h2 => each_sound h2 fun _ _ h3 => updThr_sound h3

theorem execCntwr_sound {s : State} (h : Sound s) {h' x} : SoundOut (execCntwr h' x s) :=
  issue_sound h fun _ _ h1 => guardFaults_sound h1 fun _ h2 => each_sound h2 fun _ _ h3 => updCounter_sound h3

end Sys2Proof.Proofs.Soundness

end

section

/-! # Pickers, launches, copy and encode engines, pre-emption, the end of a launch and paging keep a state sound (O30) -/

namespace Sys2Proof.Proofs.Soundness

open Sys2Proof.Machine Sys2Proof.Claims

/-! ## Fetch (R30, R327), readiness of threads and the picker (R134 to R138), deterministic scheduling steps
(R274) and sampling (R282) -/

theorem sendGroups_sound {s : State} (h : Sound s) {die site gs} : Sound (s.sendGroups die site gs) := by
  refine updCore_sound (sound_foldl (fun _ h1 _ => ?_) h)
  split
  · exact h1
  · exact sound_with (countT_sound (countT_sound (sound_foldl (fun _ h2 _ => countT_sound (updThr_sound h2)) h1)))

theorem unstall_sound {s : State} (h : Sound s) {die site} : Sound (s.unstall die site) := sound_ite (updCore_sound h) h

theorem pickAt_sound {s : State} (h : Sound s) {die site} : Sound (s.pickAt die site) :=
  sendGroups_sound (updCore_sound (unstall_sound h))

theorem countIdle_sound {s : State} (h : Sound s) : Sound (s.countIdle) := sound_foldl (fun _ h1 _ => count_sound h1) h

theorem wake_sound {s : State} (h : Sound s) : Sound (s.wake) := sound_foldl (fun _ h1 _ => rejoin_sound h1) h

theorem pass_sound {s : State} (h : Sound s) {ns} : Sound (s.pass ns) :=
  sound_foldl (fun _ h1 _ => updInst_sound h1) (sound_with h)

theorem nextCycle_sound {s : State} (h : Sound s) : Sound (s.nextCycle) :=
  sound_foldl (fun _ h1 _ => haltsOf_sound h1) (wake_sound (countModule_sound (sound_with (draw_sound (pass_sound h)))))

theorem sendStep_sound {s : State} (h : Sound s) {c g} : Sound (s.sendStep c g) :=
  sendGroups_sound (updCore_sound (unstall_sound h))

theorem detAt_sound {s : State} (h : Sound s) {lid c} : Sound (s.detAt lid c) := by
  unfold State.detAt
  split
  · exact updLaunch_sound h
  · exact h

theorem beginStep_sound {s : State} (h : Sound s) {lid} : Sound (s.beginStep lid) :=
  sound_foldl (fun _ h1 _ => detAt_sound h1) (updLaunch_sound h)

theorem sendRest_sound {s : State} (h : Sound s) {lid c} : Sound (s.sendRest lid c) := by
  unfold State.sendRest
  split
  · exact h
  · exact sendStep_sound h

theorem sampleUntil_sound {s : State} (h : Sound s) {die site t n} : Sound (s.sampleUntil die site t n) := updCore_sound h

theorem execSampleTag_sound {s : State} (h : Sound s) {die site} : SoundOut (execSampleTag die site s) := by
  unfold execSampleTag
  show Sound _
  dsimp only
  split
  · exact h
  · exact sound_ite h (sampleUntil_sound (draw_sound (sound_ite (updCtx_sound h) h)))

/-! ## Scheduling from launch to start (R144, R152, R171 to R181, R195, R196, R381) -/

theorem execLaunchDispatchable_sound {s : State} (h : Sound s) {lid} : SoundOut (execLaunchDispatchable lid s) := by
  unfold execLaunchDispatchable
  show Sound _
  split
  · exact h
  · exact sound_ite h (updLaunch_sound h)

theorem placeWg_sound {s : State} (h : Sound s) {lid unit wg pos die site p brick inseq} :
    Sound (s.placeWg lid unit wg pos die site p brick inseq) :=
  updCore_sound (sound_with h)

theorem placedAt_sound {s : State} (h : Sound s) {die o} : Sound (s.placedAt die o) :=
  count_sound (updLaunch_sound (sound_with (updDie_sound (sound_ite (sound_with h) (updDie_sound h)))))

theorem placePending_sound {s : State} (h : Sound s) {die o p sites} : Sound (s.placePending die o p sites) :=
  sound_foldl (fun _ h1 _ => updWg_sound (placeWg_sound h1)) (sound_with (sound_with (outliveAll_sound (updLaunch_sound h))))

theorem placeUpdate_sound {s : State} (h : Sound s) {die o site} : Sound (s.placeUpdate die o site) := by
  unfold State.placeUpdate
  split
  · exact h
  · split
    · exact h
    · exact placeWg_sound (sound_with (sound_ite (count_sound (count_sound (updLaunch_sound (updProg_sound h)))) (count_sound
        (updLaunch_sound (updProg_sound h)))))

theorem execPlaceUnit_sound {s : State} (h : Sound s) {die} : SoundOut (execPlaceUnit die s) := by
  unfold execPlaceUnit
  show Sound _
  split
  · exact h
  · split
    · exact sound_ite h (placedAt_sound (placePending_sound h))
    · exact placedAt_sound (placeUpdate_sound h)

theorem markFirst_sound {s : State} (h : Sound s) : Sound (s.markFirst) := sound_with h

theorem execHoldTimeExpiry_sound {s : State} (h : Sound s) {die level} : SoundOut (execHoldTimeExpiry die level s) := by
  unfold execHoldTimeExpiry
  show Sound _
  split
  · exact h
  · split
    · exact h
    · exact sound_ite h (sound_foldl (fun _ h1 _ => updCore_sound h1) h)

theorem execPickerCycle_sound {s : State} (h : Sound s) : SoundOut (execPickerCycle s) :=
  powered_sound h fun _ h1 => sound_foldl (fun _ h2 _ => pickAt_sound h2) (countIdle_sound (nextCycle_sound (markFirst_sound h1)))

theorem makeStep_sound {s : State} (h : Sound s) {x} : Sound (s.makeStep x) :=
  sound_foldl (fun _ h1 _ => sendRest_sound h1) (sound_ite (beginStep_sound h) h)

theorem execDetStep_sound {s : State} (h : Sound s) {lid} : SoundOut (execDetStep lid s) :=
  sound_ite h (sound_foldl (fun _ h1 _ => pickAt_sound h1) (sound_foldl (fun _ h1 _ => makeStep_sound h1) (countIdle_sound
    (nextCycle_sound (markFirst_sound h)))))

theorem makeThreads_sound {s : State} (h : Sound s) {lid wg} : Sound (s.makeThreads lid wg) := sound_with h

theorem startQueues_sound {s : State} (h : Sound s) {lid wg} : Sound (s.startQueues lid wg) := by
  unfold State.startQueues
  dsimp only
  split
  · exact updWg_sound h
  · exact sound_foldl (fun _ h1 _ => updThr_sound h1) (updWg_sound h)

theorem joinStops_sound {s : State} (h : Sound s) {ctx die site} : Sound (s.joinStops ctx die site) :=
  sound_ite (updDie_sound h) h

theorem startWg_sound {s : State} (h : Sound s) {lid wg} : Sound (s.startWg lid wg) :=
  acquire_sound (startQueues_sound (joinStops_sound (updWg_sound (makeThreads_sound (updCore_sound h)))))

theorem execDeadlineMiss_sound {s : State} (h : Sound s) {lid} : SoundOut (execDeadlineMiss lid s) := by
  unfold execDeadlineMiss
  show Sound _
  split
  · exact h
  · split
    · exact h
    · exact sound_ite h (count_sound (updLaunch_sound h))

theorem closeTurn_sound {s : State} (h : Sound s) {lid unit} : Sound (s.closeTurn lid unit) :=
  sound_foldl (fun _ h1 _ => updWg_sound h1) (sound_foldl (fun _ h1 _ => makeTasks_sound h1) h)

theorem execTurnOpen_sound {s : State} (h : Sound s) {lid} : SoundOut (execTurnOpen lid s) :=
  sound_ite h (settle_sound (sound_foldl (fun _ h1 _ => endSignals_sound h1) (enterHeld_sound (updLaunch_sound (closeTurn_sound
    h)))))

/-! ## The copy engines (R258, R260, R261, R264, R288, R289, R298 to R301, R346) -/

theorem finishPacket_sound {s : State} (h : Sound s) {a} : Sound (s.finishPacket a) := by
  unfold State.finishPacket
  split
  · exact h
  · exact sound_with h

theorem indices_sound {s : State} (h : Sound s) {die c l} : SoundSnd (State.indices die c l s) := by
  induction l generalizing s with
  | nil => exact h
  | cons i l ih =>
    unfold State.indices
    split
    · exact ih h
    · exact ih (readPieces_sound h)

theorem copyOffs_sound {s : State} (h : Sound s) {die c} : SoundSnd (s.copyOffs die c) := by
  unfold State.copyOffs
  dsimp only
  split
  · exact indices_sound h
  · exact h

theorem oneByte_sound {s : State} (h : Sound s) {a} : SoundSnd (s.oneByte a) := by
  unfold State.oneByte
  split
  · exact h
  · exact draw_sound h
  · exact loose_sound h

theorem eachByte_sound {s : State} (h : Sound s) {l} : SoundSnd (State.eachByte l s) := by
  induction l generalizing s with
  | nil => exact h
  | cons x l ih => exact ih (oneByte_sound h)

theorem srcBytes_sound {s : State} (h : Sound s) {c l} : SoundSnd (s.srcBytes c l) := by
  unfold State.srcBytes
  split
  · exact readPieces_sound h
  · exact eachByte_sound h

theorem overlapped_sound {s : State} (h : Sound s) {srcs l} : SoundSnd (State.overlapped srcs l s) := by
  induction l generalizing s with
  | nil => exact h
  | cons x l ih =>
    unfold State.overlapped
    split
    next e =>
      split at e
      · exact ih (by cases e; exact loose_sound h)
      · exact ih (by cases e; exact h)

theorem sendFrames_sound {s : State} (h : Sound s) {die eng c l} : SoundSnd (s.sendFrames die eng c l) := by
  unfold State.sendFrames
  split
  · exact h
  · refine soundSnd_foldl (fun _ h1 _ => ?_) h
    split
    · exact h1
    · exact sound_with h1

theorem writeRun_sound {s : State} (h : Sound s) {die eng c l} : SoundSnd (s.writeRun die eng c l) := by
  unfold State.writeRun
  split
  · exact tagKeys_sound (enter_sound (tick_sound h))
  · refine sound_foldl (fun _ h1 _ => ?_) h
    split
    · exact scWrite_sound h1
    · exact h1
  · exact sendFrames_sound h
  · exact h

theorem writeBytes_sound {s : State} (h : Sound s) {die eng c l} : SoundSnd (s.writeBytes die eng c l) :=
  soundSnd_foldl (fun _ h1 _ => writeRun_sound h1) h

theorem dstNow_sound {s : State} (h : Sound s) {c l} : SoundSnd (s.dstNow c l) := by
  unfold State.dstNow
  split
  · exact draw_sound h
  · exact eachByte_sound h

theorem reduce_sound {s : State} (h : Sound s) {die eng e srcs l c} : SoundSnd (State.reduce die eng e srcs l c s) := by
  induction l generalizing s c with
  | nil => exact h
  | cons el l ih => exact ih (writeBytes_sound (overlapped_sound (dstNow_sound (srcBytes_sound h))))

theorem noteCmd_sound {s : State} (h : Sound s) {die by_ c kind vas} : Sound (s.noteCmd die by_ c kind vas) := by
  unfold State.noteCmd
  split
  · exact sound_foldl (fun _ h1 _ => noteAccess_sound h1) h
  · exact h

theorem noteCopy_sound {s : State} (h : Sound s) {die eng c offs} : Sound (s.noteCopy die eng c offs) :=
  noteCmd_sound (noteCmd_sound (noteCmd_sound h))

theorem copyChunk_sound {s : State} (h : Sound s) {die eng c} : SoundSnd (s.copyChunk die eng c) := by
  have h1 := copyOffs_sound h (die := die) (c := c)
  unfold State.copyChunk
  generalize s.copyOffs die c = x at h1
  obtain ⟨offs, s1⟩ := x
  dsimp only
  exact count_sound (snd_ite (reduce_sound (noteCopy_sound h1))
    (writeBytes_sound (overlapped_sound (srcBytes_sound (noteCopy_sound h1)))))

theorem admitBuf_sound {s : State} (h : Sound s) {die eng c write} : SoundSnd (s.admitBuf die eng c write) := by
  unfold State.admitBuf
  split
  · exact h
  · split
    · exact h
    · split
      · exact bufTurned_sound (updDie_sound h)
      · split
        · exact h
        · exact h

theorem copyStart_sound {s : State} (h : Sound s) {die eng c} : SoundSnd (s.copyStart die eng c) := by
  unfold State.copyStart
  dsimp only
  split
  · exact acqBy_sound h
  · split
    · exact acqBy_sound h
    · split
      · exact acqBy_sound h
      · split
        · split
          · exact admitBuf_sound (admitBuf_sound (acqBy_sound h))
          · refine updDie_sound ?_
            unfold Prod.snd
            split
            · exact tick_sound (sound_with (logSyncBy_sound (tick_sound (copyOffs_sound (admitBuf_sound (admitBuf_sound
                (tick_sound (sound_with (logSyncBy_sound (tick_sound h))))))))))
            · exact copyOffs_sound (admitBuf_sound (admitBuf_sound (tick_sound (sound_with (logSyncBy_sound (tick_sound h))))))
        · exact admitBuf_sound (acqBy_sound h)

theorem copyGo_sound {s : State} (h : Sound s) {die eng c} : SoundSnd (s.copyGo die eng c) := by
  unfold State.copyGo
  dsimp only
  split
  · split
    · exact h
    · exact copyChunk_sound h
  · split
    · exact copyStart_sound h
    · exact copyChunk_sound (copyStart_sound h)

theorem copyStep_sound {s : State} (h : Sound s) {die eng op} : Sound (s.copyStep die eng op) := by
  unfold State.copyStep
  refine sound_ite h ?_
  generalize (s.copyReady die eng op).length + (if (s.copyElem die eng op).isSome then 1 else 0) = n
  have h1 := choose_sound h (n := n)
  generalize s.choose n = x at h1
  obtain ⟨k, s1⟩ := x
  dsimp only
  split
  · split
    · exact h1
    · exact updDie_sound (copyGo_sound h1)
  · exact updDie_sound (copyGo_sound (updQueue_sound h1))
  · exact h1

theorem freeStranded_sound {s : State} (h : Sound s) {die eng} : Sound (s.freeStranded die eng) :=
  sound_foldl (fun _ h1 _ => freeBuf_sound h1) h

theorem returnBuf_sound {s : State} (h : Sound s) {die c id} : Sound (s.returnBuf die c id) := bufTurned_sound (updDie_sound h)

theorem execCopyComplete_sound {s : State} (h : Sound s) {die eng i} : SoundOut (execCopyComplete die eng i s) := by
  unfold execCopyComplete
  show Sound _
  split
  · exact h
  · refine sound_ite h ?_
    extract_lets sys s1 s2 s3 s4 s5
    have h3 : Sound s3 := sound_foldl (fun _ h1 _ => returnBuf_sound h1) (updDie_sound (engRelease_sound h))
    have h4 : Sound s4 := freeStranded_sound (sound_foldl (fun _ h1 _ => freeDrained_sound h1) h3)
    exact finishPacket_sound (cmdEnds_sound (sound_ite (unload_sound h4) h4))

/-! ## The video encode engines (R288, R305 to R307) -/

theorem encBegin_sound {s : State} (h : Sound s) {die eng c} : SoundSnd (s.encBegin die eng c) := by
  unfold State.encBegin
  split
  · exact h
  · exact updDie_sound (tick_sound (sound_with (logSyncBy_sound (tick_sound h))))

theorem encStep_sound {s : State} (h : Sound s) {die eng op} {go : Cmd → State → Cmd × State}
    (hgo : ∀ c s, Sound s → SoundSnd (go c s)) : Sound (s.encStep die eng op go) := by
  unfold State.encStep
  split
  · split
    · exact h
    · exact updDie_sound (hgo _ _ (encBegin_sound h))
  · exact updDie_sound (hgo _ _ (encBegin_sound (updQueue_sound h)))
  · exact h

theorem configureGo_sound {s : State} (h : Sound s) {die eng c} : SoundSnd (s.configureGo die eng c) := by
  unfold State.configureGo
  dsimp only
  split
  · exact h
  · split
    · exact h
    · exact updDie_sound h

theorem endGo_sound {s : State} (h : Sound s) {die eng c} : SoundSnd (s.endGo die eng c) := by
  unfold State.endGo
  split
  · exact h
  · exact updDie_sound h

theorem engWrite_sound {s : State} (h : Sound s) {by_ ctx bs} : SoundSnd (s.engWrite by_ ctx bs) :=
  soundSnd_foldl (fun _ h1 _ => tagKeys_sound (enter_sound (tick_sound h1))) h

theorem codeFrame_sound {s : State} (h : Sound s) {die eng x c} : SoundSnd (s.codeFrame die eng x c) := by
  unfold State.codeFrame
  dsimp only
  split
  · exact updDie_sound h
  · exact updDie_sound (noteCmd_sound (count_sound (engWrite_sound h)))

theorem frameStart_sound {s : State} (h : Sound s) {die eng x c} : SoundSnd (s.frameStart die eng x c) := by
  unfold State.frameStart
  dsimp only
  split
  · exact acqBy_sound h
  · exact h

theorem frameRow_sound {s : State} (h : Sound s) {die eng x c} : SoundSnd (s.frameRow die eng x c) := by
  unfold State.frameRow
  dsimp only
  split
  · exact noteCmd_sound h
  · split
    · exact readPieces_sound (noteCmd_sound h)
    · exact codeFrame_sound (readPieces_sound (noteCmd_sound h))

theorem frameGo_sound {s : State} (h : Sound s) {die eng c} : SoundSnd (State.frameGo die eng c s) := by
  unfold State.frameGo
  split
  · exact h
  · dsimp only
    exact snd_ite h (frameRow_sound (snd_ite (frameStart_sound h) (y := (c, s)) h))

theorem writeStat_sound {s : State} (h : Sound s) {die eng c} : SoundSnd (s.writeStat die eng c) := by
  unfold State.writeStat
  split
  · exact h
  · exact noteCmd_sound (engWrite_sound h)

theorem execEncodeComplete_sound {s : State} (h : Sound s) {die eng} : SoundOut (execEncodeComplete die eng s) := by
  unfold execEncodeComplete
  show Sound _
  split
  · exact h
  · exact cmdEnds_sound (updDie_sound (engRelease_sound (writeStat_sound h)))

theorem execGraphQueueElement_sound {s : State} (h : Sound s) {lid wg q} : SoundOut (execGraphQueueElement lid wg q s) := by
  unfold execGraphQueueElement
  show Sound _
  dsimp only
  split
  · exact h
  · exact sound_ite h (signalNode_sound (updDie_sound (updQueue_sound h)))

/-! ## Pre-emption and context switches (R170, R176, R178, R179, R219, R227, R276, R335, R346 to R348, R359)
-/

theorem requestStop_sound {s : State} (h : Sound s) {v} : Sound (s.requestStop v) := updDie_sound h

theorem chooseCore_sound {s : State} (h : Sound s) {o c} : Sound (s.chooseCore o c) := by
  unfold State.chooseCore
  split
  · exact updLaunch_sound h
  · exact updProg_sound h

theorem execPreempt_sound {s : State} (h : Sound s) {die} : SoundOut (execPreempt die s) := by
  refine sound_ite h ?_
  split
  · exact h
  · split
    · exact h
    · exact sound_ite h (chooseCore_sound (sound_foldl (fun _ h1 _ => requestStop_sound h1) h))

theorem haltAll_sound {s : State} (h : Sound s) {a} : Sound (s.haltAll a) := by
  unfold State.haltAll
  split
  · exact h
  · exact sound_foldl (fun _ h1 _ => updLaunch_sound h1) h

theorem execEngineStopAck_sound {s : State} (h : Sound s) {die k} : SoundOut (execEngineStopAck die k s) := by
  unfold execEngineStopAck
  show Sound _
  split
  · exact h
  · dsimp only
    split
    · exact sound_foldl (fun _ h1 _ => updLaunch_sound h1) (updDie_sound h)
    · exact sound_foldl (fun _ h1 _ => count_sound h1) (haltAll_sound (updDie_sound h))
    · exact haltAll_sound (updDie_sound h)

theorem backInBank_sound {s : State} (h : Sound s) {lid unit} : Sound (s.backInBank lid unit) := updLaunch_sound h

theorem writeHeld_sound {s : State} (h : Sound s) {t} : Sound (s.writeHeld t) := by
  refine sound_foldl (fun _ h1 _ => ?_) h
  split
  · exact updWg_sound (tick_sound h1)
  · exact h1

theorem writeSaves_sound {s : State} (h : Sound s) {ctx} : Sound (s.writeSaves ctx) :=
  soundSnd_foldl (fun _ h1 _ => sound_foldl (fun _ h2 _ => fwWriteVa_sound h2) h1) h

theorem saveWg_sound {s : State} (h : Sound s) {lid wg} : Sound (s.saveWg lid wg) := by
  unfold State.saveWg
  extract_lets g mine ctx s1 s2 s3 s4
  have h4 : Sound s4 := updWg_sound (updCore_sound (sound_with (sound_foldl (fun _ h1 _ => writeHeld_sound h1) h)))
  exact sound_ite h (sound_ite h4 (updLaunch_sound h4))

theorem saveUnit_sound {s : State} (h : Sound s) {lid unit} : Sound (s.saveUnit lid unit) :=
  writeSaves_sound (backInBank_sound (sound_foldl (fun _ h1 _ => saveWg_sound h1) h))

theorem goOn_sound {s : State} (h : Sound s) {lid} : Sound (s.goOn lid) := sound_ite h (updLaunch_sound h)

theorem unchoose_sound {s : State} (h : Sound s) {lid unit} : Sound (s.unchoose lid unit) := sound_with h

theorem execPreemptSave_sound {s : State} (h : Sound s) {lid inst} : SoundOut (execPreemptSave lid inst s) := by
  unfold execPreemptSave
  show Sound _
  split
  · exact h
  · exact sound_ite h (sound_ite (goOn_sound (updDie_sound h)) (sound_ite (goOn_sound (unchoose_sound (updDie_sound h)))
      (count_sound (saveUnit_sound (updDie_sound h)))))

theorem restoreWg_sound {s : State} (h : Sound s) {lid wg die site} : Sound (s.restoreWg lid wg die site) := by
  unfold State.restoreWg
  extract_lets g mine ls started sel s1 s2 s3 s4 s5 names
  have h2 : Sound s2 := updCore_sound (sound_with h)
  have h5 : Sound s5 := updLaunch_sound (updDie_sound (sound_ite h2 (updDie_sound h2)))
  exact sound_ite h (updWg_sound (sound_ite (joinStops_sound h5) h5))

theorem execUnitRestore_sound {s : State} (h : Sound s) {lid inst} : SoundOut (execUnitRestore lid inst s) := by
  unfold execUnitRestore
  show Sound _
  dsimp only
  split
  · exact h
  · exact goOn_sound (placedAt_sound (sound_foldl (fun _ h1 _ => restoreWg_sound h1) (updLaunch_sound h)))

theorem rebase_sound {s : State} (h : Sound s) {ctx} : Sound (s.rebase ctx) := by
  refine draw_sound ?_
  split
  · exact updCtx_sound h
  · exact h

theorem saveCtx_sound {s : State} (h : Sound s) {ctx} : Sound (s.saveCtx ctx) :=
  rebase_sound (writeSaves_sound (updCtx_sound (sound_foldl (fun _ h1 _ => updDie_sound h1) (sound_foldl (fun _ h1 _ =>
    saveUnit_sound h1) h))))

theorem dropStops_sound {s : State} (h : Sound s) {ctx} : Sound (s.dropStops ctx) :=
  sound_foldl (fun _ h1 _ => goOn_sound h1) (sound_foldl (fun _ h1 _ => updDie_sound h1) h)

theorem execContextSwitchOut_sound {s : State} (h : Sound s) {ctx} : SoundOut (execContextSwitchOut ctx s) :=
  sound_ite h (sound_ite (sound_foldl (fun _ h1 _ => updDie_sound h1) h) (sound_ite h (sound_ite (dropStops_sound (saveCtx_sound
    h)) (dropStops_sound h))))

theorem bufBack_sound {s : State} (h : Sound s) {x} : SoundOpt (s.bufBack x) := by
  unfold State.bufBack
  cases s.bufBase x.1 x.2.2.lvl x.2.2.clu x.2.2.size 0 with
  | none => trivial
  | some base => exact updDie_sound h

theorem execContextSwitchIn_sound {s : State} (h : Sound s) {ctx} : SoundOut (execContextSwitchIn ctx s) := by
  unfold execContextSwitchIn
  show Sound _
  refine sound_ite h ?_
  split
  · exact h
  next e =>
    exact updCtx_sound (rebase_sound (sound_foldl (fun _ h1 _ => updDie_sound h1)
      (some_sound e (opt_foldlM (fun _ h1 _ => bufBack_sound h1) h))))

/-! ## Events of standing programs (R194, R196 to R199, R270, R383) -/

theorem execContribution_sound {s : State} (h : Sound s) {i} : SoundOut (execContribution i s) := by
  unfold execContribution
  show Sound _
  split
  · exact h
  · dsimp only
    split
    · exact sound_with h
    · exact sound_ite (findQuiet_sound (applyContrib_sound (sound_with h))) h

theorem execIseqAdvance_sound {s : State} (h : Sound s) {lid} : SoundOut (execIseqAdvance lid s) := by
  unfold execIseqAdvance
  show Sound _
  split
  · exact h
  · split
    · exact h
    · exact sound_ite h (finishPacket_sound (updProg_sound h))

theorem writeConv_sound {s : State} (h : Sound s) {lid p rec_} : Sound (s.writeConv lid p rec_) := by
  unfold State.writeConv
  dsimp only
  split
  · exact signalNode_sound (fwWriteVa_sound h)
  · exact fwWriteVa_sound h

theorem stopProg_sound {s : State} (h : Sound s) {lid p} : Sound (s.stopProg lid p) :=
  finishPacket_sound (updProg_sound (sound_foldl (fun _ h1 _ => finishPacket_sound h1) (sound_foldl (fun _ h1 _ => updDie_sound
    h1) h)))

theorem execConvergenceRecord_sound {s : State} (h : Sound s) {lid} : SoundOut (execConvergenceRecord lid s) := by
  unfold execConvergenceRecord
  show Sound _
  split
  · exact h
  · refine sound_ite h ?_
    split
    · exact updProg_sound (writeConv_sound h)
    · exact sound_ite (stopProg_sound (updProg_sound (writeConv_sound h))) h

/-! ## The end of a launch (R171, R213, R257, R272, R273, R280, R292, R369, R370, R385) -/

theorem rerun_sound {s : State} (h : Sound s) {lid} : Sound (s.rerun lid) := by
  refine sound_with (updLaunch_sound ?_)
  split
  · exact outliveAll_sound h
  · split
    next _ e => exact updProg_sound (some_snd_sound e (takeMortars_sound (outliveAll_sound h)))
    · exact outliveAll_sound h

theorem endRelease_sound {s : State} (h : Sound s) {lid} : Sound (s.endRelease lid) := tick_sound (sound_with (tick_sound h))

theorem freePinned_sound {s : State} (h : Sound s) {lid l d} : Sound (s.freePinned lid l d) :=
  sound_ite h (sound_foldl (fun _ h1 _ => freeBuf_sound (drainReads_sound h1)) h)

theorem giveUp_sound {s : State} (h : Sound s) {lid l} : Sound (s.giveUp lid l) := by
  unfold State.giveUp
  refine unmapStacks_sound (sound_foldl (fun s hs d => ?_) (sound_with h))
  exact updDie_sound (freePinned_sound hs)

theorem fitJournals_sound {s : State} (h : Sound s) {ctx} : Sound (s.fitJournals ctx) := updCtx_sound h

theorem writeLaunch_sound {s : State} (h : Sound s) {lid} : Sound (s.writeLaunch lid) := by
  refine finishPacket_sound (sound_ite (fitJournals_sound (updLaunch_sound ?_)) (updLaunch_sound ?_))
  · split
    · exact fwWriteVa_sound h
    · exact h
  · split
    · exact fwWriteVa_sound h
    · exact h

theorem execLaunchEnd_sound {s : State} (h : Sound s) {lid} : SoundOut (execLaunchEnd lid s) := by
  unfold execLaunchEnd
  show Sound _
  split
  · exact h
  · exact sound_ite h (sound_ite (writeLaunch_sound h) (sound_ite h (sound_ite (fitJournals_sound (rerun_sound (rollback_sound
      h))) (writeLaunch_sound (giveUp_sound (endRelease_sound (updLaunch_sound (sound_ite h (abortLaunch_sound h)))))))))

/-! ## Events of gangs, soft errors, walks and paging (R344, R351 to R353) -/

theorem execGangRestart_sound {s : State} (h : Sound s) {lid inst} : SoundOut (execGangRestart lid inst s) := by
  unfold execGangRestart
  show Sound _
  split
  · exact sound_ite h (updLaunch_sound (updInst_sound h))
  · exact h

theorem stopThread_sound {s : State} (h : Sound s) {f hit t} : Sound (s.stopThread f hit t) :=
  sound_ite h (updThr_sound (abandonWait_sound h))

theorem softStep_sound {s : State} (h : Sound s) {l loc} : Sound (s.softStep l loc) := stopLoop_sound (updCore_sound h)

theorem retireLater_sound {s : State} (h : Sound s) {t a} : Sound (s.retireLater t a) := by
  unfold State.retireLater
  split
  · exact sound_with h
  · exact h

theorem loseThread_sound {s : State} (h : Sound s) {t} : Sound (s.loseThread t) :=
  sound_ite h (updThr_sound (abandonWait_sound h))

theorem loseGang_sound {s : State} (h : Sound s) {t} : Sound (s.loseGang t) :=
  sound_ite h (sound_foldl (fun _ h1 _ => loseThread_sound h1) (updInst_sound h))

theorem execSoftError_sound {s : State} (h : Sound s) : SoundOut (execSoftError s) := by
  refine sound_ite ?_ (sound_ite h (loseGang_sound (sound_foldl (fun _ h1 _ => stopThread_sound h1) (retireLater_sound h))))
  split
  · exact h
  · exact sound_ite h (loseGang_sound (softStep_sound (retireLater_sound h)))

theorem walkReaches_sound {s : State} (h : Sound s) {page fault t} : Sound (s.walkReaches page fault t) := by
  unfold State.walkReaches
  split
  · exact updThr_sound h
  · exact h

theorem endWalk_sound {s : State} (h : Sound s) {die i w} : Sound (s.endWalk die i w) :=
  sound_with (sound_foldl (fun _ h1 _ => walkReaches_sound h1) (sound_foldl (fun _ h1 _ => walkReaches_sound h1) (sound_with
    (updDie_sound h))))

theorem execWalkComplete_sound {s : State} (h : Sound s) {i} : SoundOut (execWalkComplete i s) := by
  unfold execWalkComplete
  show Sound _
  split
  · exact h
  · split
    · exact h
    · exact sound_ite (endWalk_sound h) h

theorem startInval_sound {s : State} (h : Sound s) {ctx page count ticket} : Sound (s.startInval ctx page count ticket) :=
  sound_with (sound_foldl (fun _ h1 _ => updDie_sound h1) h)

theorem endTicket_sound {s : State} (h : Sound s) {ctx id refused} : Sound (s.endTicket ctx id refused) :=
  sound_foldl (fun _ h1 _ => resumeAt_sound h1) (updCtx_sound h)

theorem execInvalidationComplete_sound {s : State} (h : Sound s) {i} : SoundOut (execInvalidationComplete i s) := by
  refine settle_sound ?_
  split
  · exact h
  · refine sound_ite h ?_
    dsimp only
    split
    · exact sound_with h
    · exact endTicket_sound (sound_with h)

theorem writeTable_sound {s : State} (h : Sound s) {w} : Sound (s.writeTable w) := fwPlain_sound h

theorem execPageTicketComplete_sound {s : State} (h : Sound s) : SoundOut (execPageTicketComplete s) := by
  unfold execPageTicketComplete
  show Sound _
  dsimp only
  split
  · exact h
  · refine sound_ite h ?_
    split
    · exact settle_sound (endTicket_sound h)
    · split
      · exact startInval_sound (sound_foldl (fun _ h1 _ => writeTable_sound h1) h)
      · exact h

end Sys2Proof.Proofs.Soundness

end

section

/-! # Host, packets, service, links and the debugger keep a state sound, and so does every step (O30) -/

namespace Sys2Proof.Proofs.Soundness

open Sys2Proof.Machine Sys2Proof.Claims

/-! ## Host queues and packets (R197, R200, R206, R218, R219, R262, R327, R335, R349, R363, R365 to R368,
R371, R374, R376 to R378, R383 to R385) -/

theorem hostWrite_sound {s : State} (h : Sound s) {a b} : Sound (s.hostWrite a b) := by
  unfold State.hostWrite
  split
  · exact fwPlain_sound h
  · exact h

theorem setHq_sound {s : State} (h : Sound s) {q f} : Sound (s.setHq q f) := sound_with h

theorem PktRes_pass_sound {r : PktRes} (h : Sound r.s) {q idx d ws} : Sound (r.pass q idx d ws) := by
  have h1 : Sound (((r.s.setHq q fun h =>
      { h with rd := idx + ws.length
               open_ := if r.open_ && r.st == .ok then h.open_ ++ [(idx, ws.headD 0)] else h.open_ }).hostWrite d.rdAddr
        (natToBytes 8 (idx + ws.length))).countHub 0x600 (some d.ctx)) := countHub_sound (hostWrite_sound (setHq_sound h))
  exact sound_ite (setHq_sound (hostWrite_sound h1)) h1

theorem runPacket_sound {s : State} (h : Sound s) {q d ws} {go : PktGo}
    (hgo : ∀ k ctx fs s, Sound s → SoundPkt (go k ctx fs s)) : SoundPkt (s.runPacket q d ws go) := by
  unfold State.runPacket
  split
  · exact h
  · dsimp only
    split
    · exact h
    · split
      · exact h
      · exact hgo _ _ _ _ h

theorem tryPacket_sound {s : State} (h : Sound s) {sel q} {go : PktGo}
    (hgo : ∀ k ctx fs s, Sound s → SoundPkt (go k ctx fs s)) : SoundOpt (s.tryPacket sel go q) := by
  unfold State.tryPacket
  split
  next ws d _ _ =>
    split
    · have h1 := runPacket_sound h hgo (q := q) (d := d) (ws := ws)
      cases e : s.runPacket q d ws go with
      | none => trivial
      | some r =>
        rw [e] at h1
        exact PktRes_pass_sound (r := r) h1
    · trivial
  · trivial

theorem packetStep_sound {s : State} (h : Sound s) {sel} {go : PktGo}
    (hgo : ∀ k ctx fs s, Sound s → SoundPkt (go k ctx fs s)) : Sound (s.packetStep sel go) := by
  have all : ∀ t ∈ (tkeys s.hqueues).filterMap (s.tryPacket sel go), Sound t := fun t ht => by
    obtain ⟨q, -, e⟩ := List.mem_filterMap.1 ht
    exact some_sound e (tryPacket_sound h hgo)
  unfold State.packetStep
  split
  · exact h
  · rw [List.getD_eq_getElem?_getD]
    refine draw_sound (getD_sound h fun t e => all t (List.mem_of_getElem? e))

theorem stopQueue_sound {s : State} (h : Sound s) {q} : Sound (s.stopQueue q) := by
  unfold State.stopQueue
  dsimp only
  split
  · exact hostWrite_sound (setHq_sound h)
  · exact setHq_sound h

theorem execQueueStop_sound {s : State} (h : Sound s) : SoundOut (execQueueStop s) := by
  unfold execQueueStop
  show Sound _
  split
  · exact stopQueue_sound h
  · exact h

theorem goLaunch_sound {s : State} (h : Sound s) {k ctx fs} : SoundPkt (goLaunch k ctx fs s) := by
  have h1 : Sound (s.accept ctx false (some k) fs none 0) := accept_sound h
  unfold goLaunch
  generalize s.accept ctx false (some k) fs none 0 = s1 at h1
  dsimp only
  split
  · trivial
  · exact h1

theorem bindIter_sound {s : State} (h : Sound s) {ctx lid p d} : Sound (s.bindIter ctx lid p d) := by
  unfold State.bindIter
  split
  · exact h
  · exact updDie_sound (fwWriteVa_sound (fwWriteVa_sound (fwWriteVa_sound (fwWriteVa_sound h))))

theorem goStanding_sound {s : State} (h : Sound s) {k ctx fs} : SoundPkt (goStanding k ctx fs s) := by
  have h1 : Sound (s.accept ctx true (some k) fs none 0) := accept_sound h
  unfold goStanding
  generalize s.accept ctx true (some k) fs none 0 = s1 at h1
  dsimp only
  split
  · trivial
  · split
    · exact sound_foldl (fun _ hs _ => bindIter_sound hs) h1
    · exact h1

theorem goStop_sound {s : State} (h : Sound s) {a a' a''} : SoundPkt (goStop a a' a'' s) := by
  unfold goStop
  split
  · exact h
  · exact updProg_sound h

theorem goInput_sound {s : State} (h : Sound s) {a a' a''} : SoundPkt (goInput a a' a'' s) := by
  unfold goInput
  split
  · exact h
  · dsimp only
    split
    · exact h
    · split
      · exact h
      · refine updProg_sound (sound_foldl (fun _ h1 _ => send_sound h1) ?_)
        split
        · exact fwWriteVa_sound h
        · exact h

theorem goIterate_sound {s : State} (h : Sound s) {a a' a''} : SoundPkt (goIterate a a' a'' s) := by
  unfold goIterate
  split
  · exact h
  · split
    · exact h
    · exact fwWriteVa_sound h

theorem goPin_sound {s : State} (h : Sound s) {a a' a''} : SoundPkt (goPin a a' a'' s) := by
  unfold goPin
  dsimp only
  split
  · exact h
  · split
    · exact h
    · split
      · exact h
      · split
        · exact h
        next _ e => exact sound_foldl (fun _ h1 _ => updDie_sound h1) (ok_sound e (makeBufs_sound h))

theorem goUnpin_sound {s : State} (h : Sound s) {a a' a''} : SoundPkt (goUnpin a a' a'' s) := by
  unfold goUnpin
  dsimp only
  split
  · exact h
  · split
    · exact h
    · exact updCtx_sound (sound_foldl (fun _ h1 _ => updDie_sound h1) h)

theorem goCopy_sound {s : State} (h : Sound s) {a a' a''} : SoundPkt (goCopy a a' a'' s) := by
  unfold goCopy
  dsimp only
  split
  · exact h
  · split
    · exact h
    · split
      · exact h
      · exact updDie_sound h

theorem goSignal_sound {s : State} (h : Sound s) {a a' a''} : SoundPkt (goSignal a a' a'' s) := by
  unfold goSignal
  split
  · exact h
  · dsimp only
    split
    · exact h
    · split
      · exact trivial
      · exact tryFire_sound (updNode_sound h)

theorem clearSlots_sound {s : State} (h : Sound s) {ctx} : Sound (s.clearSlots ctx) :=
  sound_foldl (fun _ h1 _ => fwWrite_sound h1) h

theorem clearCounters_sound {s : State} (h : Sound s) {ctx} : Sound (s.clearCounters ctx) := sound_with h

theorem goCreate_sound {s : State} (h : Sound s) {a a' a''} : SoundPkt (goCreate a a' a'' s) := by
  unfold goCreate
  dsimp only
  split
  · exact h
  · split
    · exact h
    · split
      · exact h
      · split
        · exact clearCounters_sound (clearSlots_sound (sound_with h))
        · split
          · exact h
          · exact updCtx_sound (clearCounters_sound (clearSlots_sound (sound_with h)))

theorem goDestroy_sound {s : State} (h : Sound s) {a a' a''} : SoundPkt (goDestroy a a' a'' s) := by
  unfold goDestroy
  dsimp only
  split
  · exact h
  · split
    · exact trivial
    · exact sound_with (clearCounters_sound h)

theorem goPeer_sound {s : State} (h : Sound s) {a a' a''} : SoundPkt (goPeer a a' a'' s) := by
  unfold goPeer
  dsimp only
  split
  · exact h
  · split
    · exact h
    · exact updCtx_sound h

theorem goReport_sound {s : State} (h : Sound s) {a a' a''} : SoundPkt (goReport a a' a'' s) := by
  unfold goReport
  split
  · exact h
  · exact fwWriteVa_sound (draw_sound (sound_with h))

theorem goIdentity_sound {s : State} (h : Sound s) {k ctx fs} : SoundPkt (goIdentity k ctx fs s) := by
  unfold goIdentity
  generalize (List.range 65536).map s.identByte = bs
  exact fwWriteVa_sound h

/-! ## The host's registers and its memory port (R262, R263, R283, R346, R352, R365, R367, R372 to R375) -/

theorem feats_within {x drv dev : BitVec 256} (h : drv &&& ~~~dev = 0) {c : Bool} :
    (if c then x &&& dev else x &&& dev ||| drv) &&& ~~~dev = 0 := by
  have hx : (x &&& dev) &&& ~~~dev = 0 := by
    rw [BitVec.and_assoc]
    simp
  cases c with
  | true => exact hx
  | false =>
    show (x &&& dev ||| drv) &&& ~~~dev = 0
    rw [BitVec.and_or_distrib_right, hx, h]
    rfl

theorem execDrvfeat_sound {s : State} (h : Sound s) : SoundOut (execDrvfeat s) :=
  powered_sound h fun _ hs => ⟨hs.1, hs.2.1, feats_within hs.2.2⟩

theorem mmioWrite_sound {s : State} (h : Sound s) {off x} : Sound (s.mmioWrite off x) := by
  unfold State.mmioWrite
  split
  · exact sound_with h
  · exact sound_with h
  · exact sound_ite (sound_with h) h
  · exact sound_ite (sound_with h) h
  · exact h

theorem setCounterCtx_sound {s : State} (h : Sound s) {die site i ctx} : Sound (s.setCounterCtx die site i ctx) :=
  sound_ite (updCore_sound h) (sound_ite (updDie_sound h) (sound_with h))

theorem execRegisterWrite_sound {s : State} (h : Sound s) : SoundOut (execRegisterWrite s) := by
  refine powered_sound h fun _ h1 => ?_
  dsimp only
  split
  · exact mmioWrite_sound h1
  · exact updDie_sound h1
  · exact setCounterCtx_sound h1
  · exact h1

theorem execSubmissionWrite_sound {s : State} (h : Sound s) : SoundOut (execSubmissionWrite s) := by
  refine powered_sound h fun s hs => sound_ite hs ?_
  split
  · exact countHub_sound (sound_with hs)
  next hfull =>
    refine ⟨hs.1, ?_, hs.2.2⟩
    show (s.latch ++ [_]).length ≤ 4096
    rw [List.length_append, List.length_singleton]
    omega

theorem applyTail_sound {s : State} (h : Sound s) {q tail} : Sound (s.applyTail q tail) := by
  refine sound_ite h ?_
  split
  · exact h
  · exact sound_ite (stopQueue_sound h) (setHq_sound h)

theorem execLatchEntry_sound {s : State} (h : Sound s) : SoundOut (execLatchEntry s) := by
  unfold execLatchEntry
  show Sound _
  split
  next q tail l _ e =>
    have hl := h.2.1
    rw [e, List.length_cons] at hl
    have h1 : Sound { s with latch := l } := ⟨h.1, Nat.le_of_succ_le hl, h.2.2⟩
    exact applyTail_sound h1
  · exact h

theorem execTailRescan_sound {s : State} (h : Sound s) : SoundOut (execTailRescan s) := by
  refine sound_ite (sound_with (sound_foldl (fun _ h1 _ => ?_) h)) h
  split
  · exact sound_ite (applyTail_sound h1) h1
  · exact h1

theorem execHostMemRead_sound {s : State} (h : Sound s) : SoundOut (execHostMemRead s) := by
  refine powered_sound h fun _ h1 => ?_
  split
  · exact sound_with h1
  · exact sound_with (readPieces_sound (tick_sound (sound_with (logSyncBy_sound (tick_sound h1)))))

theorem hostEnter_sound {s : State} (h : Sound s) {bs} : Sound (s.hostEnter bs) := tagKeys_sound (enter_sound (tick_sound h))

theorem hostPut_sound {s : State} (h : Sound s) {a bs} : Sound (s.hostPut a bs) :=
  sound_foldl (fun _ h1 _ => hostEnter_sound h1) (unload_sound h)

theorem resumeQueues_sound {s : State} (h : Sound s) {a n} : Sound (s.resumeQueues a n) := by
  refine sound_foldl (fun _ h1 _ => ?_) h
  split
  · exact sound_ite h1 (setHq_sound h1)
  · exact h1

theorem execHostMemWrite_sound {s : State} (h : Sound s) : SoundOut (execHostMemWrite s) :=
  powered_sound h fun _ h1 => resumeQueues_sound (hostPut_sound h1)

/-! ## Power, firmware, live service and links (00_scope.md, R1, R3, R361 to R364, R371, R372, R376 to R379,
R381) -/

theorem execModuleUnpowered_sound {s : State} (h : Sound s) : SoundOut (execModuleUnpowered s) :=
  ⟨⟨h.1.1.filter _, fun c hc => h.1.2 c (List.mem_of_mem_filter hc)⟩, Nat.zero_le _, BitVec.zero_and⟩

theorem execFirmwareUpdate_sound {s : State} (h : Sound s) : SoundOut (execFirmwareUpdate s) := by
  refine powered_sound h fun s hs => ?_
  split
  · exact sound_ite (sound_with hs) hs
  next feat _ =>
    refine sound_ite (sound_with hs) ⟨hs.1, hs.2.1, ?_⟩
    show s.drvfeat &&& ~~~(s.devfeat ||| feat) = 0
    rw [BitVec.not_or, ← BitVec.and_assoc, hs.2.2]
    exact BitVec.zero_and

theorem turnGen_sound {s : State} (h : Sound s) {c} : Sound (s.turnGen c) := sound_with h

theorem vacate_sound {s : State} (h : Sound s) {die at_} : Sound (s.vacate die at_) :=
  sound_foldl (fun _ h1 _ => sound_ite (sound_ite h1 (requestStop_sound h1)) (saveUnit_sound h1)) h

theorem service_sound {s : State} (h : Sound s) {i ok at_ f} : Sound (s.service i ok at_ f) := by
  unfold State.service
  split
  · exact sound_ite h (vacate_sound (turnGen_sound h))
  · exact sound_ite h (sound_ite (turnGen_sound (updDie_sound h)) (sound_ite (vacate_sound h) h))

theorem splitBlock_sound {s : State} (h : Sound s) {pa newPa tbl a} : Sound (s.splitBlock pa newPa tbl a) :=
  writeTable_sound (fwPlain_sound h)

theorem moveEntries_sound {s : State} (h : Sound s) {all pa newPa tbl} : Sound (s.moveEntries all pa newPa tbl) :=
  sound_foldl (fun _ h1 _ => writeTable_sound h1) (sound_foldl (fun _ h1 _ => splitBlock_sound h1) (sound_foldl (fun _ h1 _ =>
    writeTable_sound h1) h))

theorem rename_sound {s : State} (h : Sound s) {pa newPa} : Sound (s.rename pa newPa) :=
  ⟨memSetAll_wf _ _ ⟨h.1.1.filter _, fun c hc => h.1.2 c (List.mem_of_mem_filter hc)⟩, h.2⟩

theorem execHbmPageRetire_sound {s : State} (h : Sound s) : SoundOut (execHbmPageRetire s) :=
  powered_sound h fun _ h1 => sound_ite h1 (moveEntries_sound (rename_sound h1))

theorem takeFrame_sound {s : State} (h : Sound s) {f} : SoundOpt (s.takeFrame f) := by
  unfold State.takeFrame
  split
  · exact trivial
  · split
    · exact trivial
    · split
      · exact trivial
      · exact sound_foldl (fun _ h1 _ => tagCtx_sound (enter_sound (tick_sound h1))) h

theorem execPeerDataFrame_sound {s : State} (h : Sound s) : SoundOut (execPeerDataFrame s) := by
  refine powered_sound h fun _ h1 => ?_
  dsimp only
  split
  next _ e => exact sound_with (some_sound e (takeFrame_sound h1))
  · exact sound_with h1

theorem mapCmds_sound {s : State} (h : Sound s) {f} : Sound (s.mapCmds f) := sound_with h

theorem keepFrames_sound {s : State} (h : Sound s) {keep} : Sound (s.keepFrames keep) := sound_with h

theorem failFrames_sound {s : State} (h : Sound s) {bad} : Sound (s.failFrames bad) := mapCmds_sound (keepFrames_sound h)

theorem resend_sound {s : State} (h : Sound s) {flow} : Sound (s.resend flow) := sound_with h

theorem execLinkFail_sound {s : State} (h : Sound s) : SoundOut (execLinkFail s) :=
  powered_sound h fun _ h1 => sound_ite h1 (sound_ite (sound_with h1) (failFrames_sound (sound_with (sound_with h1))))

/-! ## The SFU class (R105 to R110) -/

theorem sfu_sound {s : State} (h : Sound s) {h' imm n val} : Sound (s.sfu h' imm n val) :=
  issue_sound h fun _ _ h1 => each_sound h1 fun _ _ h2 => sound_with h2

theorem sfu32_sound {s : State} (h : Sound s) {h' imm f} : Sound (s.sfu32 h' imm f) := sfu_sound h

theorem sfuReturn_sound {s : State} (h : Sound s) {i} : Sound (s.sfuReturn i) := by
  unfold State.sfuReturn
  split
  · exact h
  · exact setFlags_sound (updThr_sound (sound_with h))

/-! ## The debugger (R285 to R287, R356) -/

theorem arm_sound {s : State} (h : Sound s) {lid b} : Sound (s.arm lid b) := updLaunch_sound h

theorem execDebugWrite_sound {s : State} (h : Sound s) : SoundOut (execDebugWrite s) :=
  powered_sound h fun _ h1 => sound_ite h1 (sound_ite (updThr_sound (sound_with h1)) (sound_with h1))

theorem drainLoads_sound {s : State} (h : Sound s) {mine n} : Sound (State.drainLoads mine n s) := by
  induction n generalizing s with
  | zero => exact h
  | succ n ih =>
    unfold State.drainLoads
    split
    · exact ih (loadReturn_sound h)
    · exact h

theorem drainResults_sound {s : State} (h : Sound s) {mine n} : Sound (State.drainResults mine n s) := by
  induction n generalizing s with
  | zero => exact h
  | succ n ih =>
    unfold State.drainResults
    split
    · exact ih (sfuReturn_sound h)
    · exact h

theorem execDrain_sound {s : State} (h : Sound s) : SoundOut (execDrain s) :=
  powered_sound h fun _ h1 => sound_ite h1 (sound_foldl (fun _ h2 _ => queueResume_sound h2) (drainResults_sound
    (drainLoads_sound h1)))

/-! ## What a step of the module takes up next -/

theorem beginGroup_sound {s : State} (h : Sound s) {g rest} : Sound (s.beginGroup g rest) := takeAsync_sound (sound_with h)

theorem latchWords_sound {s : State} (h : Sound s) : Sound (s.latchWords) := sound_with h

theorem exec_sound (i : Instr) {s : State} (h : Sound s) : SoundOut (exec i s) := by
  cases i with
  | add | sub | mul | mulh | mad | min | max | abs | neg | and | or | xor | andn | not | shl | shr | sar => exact int_sound h
  | nopShort | landShort => exact issueShort_sound h fun _ _ h1 => retireAll_sound h1
  | movShort => exact aluShort_sound h
  | addShort | subShort | mulShort | mulhI32Short | mulhN32Short | andShort | orShort | xorShort | andnShort | shlShort
  | shrShort | sarShort | minI32Short | maxI32Short | minN32Short | maxN32Short | addw | subw => exact intShort_sound h
  | faddShort | fsubShort | fmulShort | fminShort | fmaxShort => exact fltShort_sound h
  | clz | ctz | popc | brev | bfx | bfi | rot | prmt | sel | mov | li | movpRead | lea | ffma | fclass | fscale | cvt
  | cvtins => exact alu_sound h
  | setp | plop | fsetp => exact predForm_sound h
  | movs | movpWrite | kmovRead | qstat => exact issue_sound h fun _ _ h1 => each_sound h1 fun _ _ h2 => updThr_sound h2
  | movsWrite => exact issue_sound h fun _ _ h1 => each_sound h1 fun _ _ h2 => clearFlags_sound h2
  | fadd | fsub | fmul | fmin | fmax => exact flt2_sound h
  | fabs | fneg | frint => exact flt1_sound h
  | rcp | rsq | exp2 | log2 | sin | cos | tanh => exact sfu32_sound h
  | sqrt | fdiv | div | rem => exact sfu_sound h
  | sfuResult => exact sfuReturn_sound h
  | nop | land => exact issue_sound h fun _ _ h1 => retireAll_sound h1
  | br => exact issue_sound h fun _ _ h1 => eachOwn_sound h1 fun _ _ h2 => transfer_sound h2
  | jmpi => exact issue_sound h fun _ _ h1 => jumpForm_sound h1 fun _ _ h2 => transfer_sound h2
  | call => exact execCall_sound h
  | calli => exact execCalli_sound h
  | ret => exact execRet_sound h
  | exit => exact execExit_sound h
  | trap => exact issue_sound h fun _ _ h1 => sound_ite (retireAll_sound h1) (stop_sound h1)
  | hpush => exact effForm_sound h fun _ _ h1 => planHpush_sound h1
  | hend => exact effForm_sound h fun _ _ h1 => planHend_sound h1
  | perform => exact resumeAfter_sound (effForm_sound h (fun _ _ h1 => planPerform_sound h1))
  | resume => exact effForm_sound h fun _ _ h1 => planResume_sound h1
  | abort => exact effForm_sound h fun _ _ h1 => planAbort_sound h1
  | ld => exact execLd_sound h
  | st => exact execSt_sound h
  | loadReturn => exact loadReturn_sound h
  | atomAdd | atomMin | atomMax | atomAnd | atomOr | atomXor | atomExch | atomCas | atomFadd => exact atom_sound h
  | join => exact issue_sound h fun _ _ h1 => each_sound h1 fun _ _ h2 => updMask_sound h2
  | leave => exact execLeave_sound h
  | waitj => exact execWaitj_sound h
  | brk => exact execBrk_sound h
  | kmovSet => exact issue_sound h fun _ _ h1 => each_sound h1 fun _ _ h2 => complete_sound (updMask_sound h2)
  | kmovBallot => exact issueWith_sound h fun _ _ h1 => arriveMask_sound h1
  | shflIdx | shflUp | shflDown | shflXor | voteAny | voteAll | voteBallot | redux | scan | bcast => exact xln_sound h
  | reduxSet => exact execReduxSet_sound h
  | bar => exact execBar_sound h
  | sbar => exact execSbar_sound h
  | rinit => exact execRinit_sound h
  | rarrive => exact execRarrive_sound h
  | rwait => exact execRwait_sound h
  | rtest => exact execRtest_sound h
  | watchdogRendezvous => exact execWatchdogRendezvous_sound h
  | spawn => exact execSpawn_sound h
  | fetch => exact execFetch_sound h
  | launch => exact execLaunch_sound h
  | rgive => exact execRgive_sound h
  | rclaim => exact execRclaim_sound h
  | rclaimGrant => exact execRclaimGrant_sound h
  | resid => exact stdForm_sound h fun _ _ _ _ h1 => setFlags_sound (contribute_sound h1)
  | residm => exact execResidm_sound h
  | brkdone => exact stdForm_sound h fun _ _ _ _ h1 => setFlags_sound (updWg_sound (contribute_sound h1))
  | ldit => exact execLdit_sound h
  | brkinfo => exact execBrkinfo_sound h
  | ldl | ldc | ldd => exact spdLoad_sound h
  | stl | stc | std => exact spdStore_sound h
  | tmov => exact execTmov_sound h
  | tmovDone => exact execTmovDone_sound h
  | owngive => exact ownForm_sound h fun _ _ h1 => giveOne_sound h1
  | owntake => exact ownForm_sound h fun _ _ h1 => takeOne_sound h1
  | owntakeDrainEnd => exact execOwntakeDrainEnd_sound h
  | ownshare => exact ownForm_sound h fun _ _ h1 => shareOne_sound h1
  | talloc => exact execTalloc_sound h
  | tallocGrant => exact execTallocGrant_sound h
  | tload | tstore => exact tileForm_sound h
  | tileTransferDone => exact execTileTransferDone_sound h
  | tgive => exact handleForm_sound h fun _ _ h1 => tgiveChk_sound h1
  | ttake => exact execTtake_sound h
  | tfree => exact handleForm_sound h fun _ _ h1 => tfreeChk_sound h1
  | phase => exact execPhase_sound h
  | phaseComplete => exact execPhaseComplete_sound h
  | fence => exact execFence_sound h
  | qcfg => exact execQcfg_sound h
  | push | pop => exact queueForm_sound h
  | queueWaitResume => exact queueResume_sound h
  | gnode => exact issue_sound h fun _ _ h1 => makeForm_sound h1 fun _ _ h2 => planGnode_sound h2
  | garm => exact garmForm_sound h (fun _ _ h1 => h1) fun _ _ h1 => armChk_sound h1
  | garmSig => exact execGarmSig_sound h
  | garmFree => exact garmForm_sound h (fun _ _ h1 => h1) fun _ _ h1 => freeChk_sound h1
  | gwait => exact execGwait_sound h
  | gwaitReturn => exact execGwaitReturn_sound h
  | gtest => exact execGtest_sound h
  | shadowNew => exact issue_sound h fun _ _ h1 => makeForm_sound h1 fun _ _ h2 => planShadow_sound h2
  | shadowAddr => exact execShadowAddr_sound h
  | shadowFree => exact garmForm_sound h (fun _ _ h1 => h1) fun _ _ h1 => shadowFreeChk_sound h1
  | publish => exact execPublish_sound h
  | mloop | mgate => exact mmaForm_sound h
  | mloopStart => exact execMloopStart_sound h
  | matrixStep => exact execMatrixStep_sound h
  | mzero => exact waveForm_sound h (fun _ _ h1 => updHandle_sound (scWrite_sound h1)) fun _ _ h1 => h1
  | mread => exact execMread_sound h
  | mcvt => exact execMcvt_sound h
  | mgateDecision => exact execMgateDecision_sound h
  | region => exact issue_sound h fun _ _ h1 => retireBoundAll_sound (retireAll_sound h1)
  | trapretFix => exact trapret_sound h fun _ _ h1 => resumeAt_sound h1
  | trapretSkip => exact trapret_sound h fun _ _ h1 => skipReturn_sound h1
  | trapretRetry => exact trapret_sound h fun _ _ h1 => retryReturn_sound h1
  | trapretKill => exact trapret_sound h fun _ _ h1 => killReturn_sound h1
  | rdtrap => exact execRdtrap_sound h
  | wrtrap => exact execWrtrap_sound h
  | pgreq => exact execPgreq_sound h
  | bkpt => exact execBkpt_sound h
  | cntrd => exact execCntrd_sound h
  | cntwr => exact execCntwr_sound h
  | detStep => exact execDetStep_sound h
  | sampleTag => exact execSampleTag_sound h
  | launchDispatchable => exact execLaunchDispatchable_sound h
  | placeUnit => exact execPlaceUnit_sound h
  | holdTimeExpiry => exact execHoldTimeExpiry_sound h
  | unitStart => exact sound_ite (sound_foldl (fun _ h1 _ => startWg_sound h1) h) h
  | preempt => exact execPreempt_sound h
  | engineStopAck => exact execEngineStopAck_sound h
  | preemptSave => exact execPreemptSave_sound h
  | unitRestore => exact execUnitRestore_sound h
  | contextSwitchOut => exact execContextSwitchOut_sound h
  | contextSwitchIn => exact execContextSwitchIn_sound h
  | launchEnd => exact execLaunchEnd_sound h
  | turnOpen => exact execTurnOpen_sound h
  | deadlineMiss => exact execDeadlineMiss_sound h
  | contribution => exact execContribution_sound h
  | iseqAdvance => exact execIseqAdvance_sound h
  | convergenceRecord => exact execConvergenceRecord_sound h
  | signal => exact execSignal_sound h
  | graphQueueElement => exact execGraphQueueElement_sound h
  | nodeFinish => exact execNodeFinish_sound h
  | copy1d | copy2d | copy3d | copyGather | copyReduceAdd => exact copyStep_sound h
  | copyComplete => exact execCopyComplete_sound h
  | encodeConfigure => exact encStep_sound h fun _ _ h1 => configureGo_sound h1
  | encodeFrame => exact encStep_sound h fun _ _ h1 => frameGo_sound h1
  | encodeEndSession => exact encStep_sound h fun _ _ h1 => endGo_sound h1
  | encodeComplete => exact execEncodeComplete_sound h
  | trapEntry => exact settle_sound (takeTrap_sound h)
  | gangRestart => exact execGangRestart_sound h
  | walkComplete => exact execWalkComplete_sound h
  | invalidationComplete => exact execInvalidationComplete_sound h
  | encodingNotInstruction => exact undecoded_sound h
  | pickerCycle => exact execPickerCycle_sound h
  | softError => exact execSoftError_sound h
  | pageTicketComplete => exact execPageTicketComplete_sound h
  | inval => exact powered_sound h fun _ h1 => sound_ite (startInval_sound (sound_with h1)) (sound_with h1)
  | drvfeat => exact execDrvfeat_sound h
  | registerWrite => exact execRegisterWrite_sound h
  | submissionWrite => exact execSubmissionWrite_sound h
  | latchEntry => exact execLatchEntry_sound h
  | tailRescan => exact execTailRescan_sound h
  | queueStop => exact execQueueStop_sound h
  | launchPacket => exact packetStep_sound h fun _ _ _ _ h1 => goLaunch_sound h1
  | standingStart => exact packetStep_sound h fun _ _ _ _ h1 => goStanding_sound h1
  | standingStop => exact packetStep_sound h fun _ _ _ _ h1 => goStop_sound h1
  | inputPost => exact packetStep_sound h fun _ _ _ _ h1 => goInput_sound h1
  | pin => exact packetStep_sound h fun _ _ _ _ h1 => goPin_sound h1
  | unpin => exact packetStep_sound h fun _ _ _ _ h1 => goUnpin_sound h1
  | copyPacket => exact packetStep_sound h fun _ _ _ _ h1 => goCopy_sound h1
  | nodeSignal => exact packetStep_sound h fun _ _ _ _ h1 => goSignal_sound h1
  | contextCreate => exact packetStep_sound h fun _ _ _ _ h1 => goCreate_sound h1
  | contextDestroy => exact packetStep_sound h fun _ _ _ _ h1 => goDestroy_sound h1
  | iterateRead => exact packetStep_sound h fun _ _ _ _ h1 => goIterate_sound h1
  | queryAttestation => exact packetStep_sound h fun _ _ _ _ h1 => goReport_sound h1
  | queryIdentity => exact packetStep_sound h fun _ _ _ _ h1 => goIdentity_sound h1
  | peerSet => exact packetStep_sound h fun _ _ _ _ h1 => goPeer_sound h1
  | xmssTreeRollover | powerUp => exact sound_ite h (sound_with h)
  | hostMemRead => exact execHostMemRead_sound h
  | hostMemWrite => exact execHostMemWrite_sound h
  | hostSnoop | flitCrcFail | firmwareRestart => exact powered_sound h fun _ h1 => sound_with h1
  | peerDataFrame => exact execPeerDataFrame_sound h
  | peerAck => exact powered_sound h fun _ h1 => mapCmds_sound (keepFrames_sound h1)
  | peerNak => exact powered_sound h fun _ h1 => sound_ite (failFrames_sound h1) (resend_sound h1)
  | peerResendTimeout => exact powered_sound h fun _ h1 => sound_ite h1 (resend_sound h1)
  | linkFail => exact execLinkFail_sound h
  | firmwareUpdate => exact execFirmwareUpdate_sound h
  | coreRetire | dieEvacuate | dieReturn => exact powered_sound h fun _ h1 => service_sound h1
  | hbmPageRetire => exact execHbmPageRetire_sound h
  | laneRecalibration | clockRecalibration => exact h
  | halt => exact powered_sound h fun _ h1 => arm_sound (haltUnit_sound h1)
  | debugResume => exact powered_sound h fun _ h1 => arm_sound (resumeUnit_sound h1)
  | debugWrite => exact execDebugWrite_sound h
  | drain => exact execDrain_sound h
  | moduleUnpowered => exact execModuleUnpowered_sound h
  | unknownPacketType => exact packetStep_sound h fun _ _ _ _ h1 => h1

theorem step_sound {s : State} (h : Sound s) : SoundOut (step s) := by
  unfold step
  split
  next g rest _ =>
    have h1 : Sound (s.beginGroup g rest) := beginGroup_sound h
    dsimp only
    split
    · exact h1
    · exact exec_sound _ (latchWords_sound h1)
  · split
    · split
      · exact exec_sound _ (sound_with h)
      · exact sound_with h
    · split
      · exact exec_sound _ (sound_with h)
      · trivial

/-- Settles O30: every function of the model that a step runs keeps a sound state sound. -/
theorem everyStepKeepsSoundness : Obligations.EveryStepKeepsSoundness := by
  intro s t h e
  have hs := step_sound h
  rw [e] at hs
  exact hs

end Sys2Proof.Proofs.Soundness

end
